-- ==== Sys2Proof/Word.lean ====
section
/-! DEFINITION. The word types of the PD-9 and their plainest arithmetic (00 R3, R6). -/

namespace Sys2Proof

/-- Eight bits: the smallest addressable unit (R3). -/
abbrev Byte := BitVec 8

/-- A 32-bit register word or instruction word (R15, R22). -/
abbrev Word := BitVec 32

/-- A 64-bit pattern: a pair, an address, a latch entry (R24, R26). -/
abbrev DWord := BitVec 64

/-- A set of the 32 lanes of a warp, lane j at bit j (R61). -/
abbrev Lanes := BitVec 32

/-- The 128 bytes of a row or of a line, byte k in bits 8k+7..8k (R159, R241). -/
abbrev Line := BitVec 1024

/-- A seven-bit operand code (R22, R23). -/
abbrev Code := BitVec 7

/-- Bit `j` of a lane set. -/
abbrev inSet (m : Lanes) (j : Nat) : Bool := m.getLsbD j

/-- The lane set that holds lane `j` alone. -/
def laneBit (j : Nat) : Lanes := (1 : BitVec 32) <<< j

/-- The lanes 0 to 31, ascending (R6: loops over lanes run in ascending order). -/
def allLanes : List Nat := List.range 32

/-- The members of a lane set, ascending. -/
def lanesOf (m : Lanes) : List Nat := allLanes.filter (inSet m)

/-- The lowest lane of a set, when it has one. -/
def lowestLane (m : Lanes) : Option Nat := (lanesOf m).head?

end Sys2Proof
end

