-- ==== Sys2Proof/Config.lean ====
section
/-! DEFINITION. What the manual leaves to chance or to the outside: free values and uninterpreted functions.

Every constant here is opaque: nothing can evaluate it, so a statement that holds of the model holds whatever it is.
The first argument of a free value is the state's counter `fresh`, which each use advances (log 3: DESIGN CHOICE). -/

namespace Sys2Proof.Config

/-- How many further steps a message is under way (R250, R330: no binding figure and no order). -/
opaque latency : Nat → Nat

/-- How many nanoseconds of pod time a step takes (R9, R127: timing is not counted). -/
opaque elapse : Nat → Nat

/-- Whether a copy of a line is still in the core's data cache when it is looked for (R246: replacement is timing only). -/
opaque copyKept : Nat → Bool

/-- The L2 set of a line within its slice (R246: the mapping is not given). -/
opaque l2Set : Nat → Nat

/-- SYM of the syndrome of an uncorrectable error (R265: no symbol is told apart). -/
opaque failSymbol : Nat → Nat

/-- AES-256 in XTS mode of a 64-byte sector under a key and a tweak, and the GMAC of a ciphertext and an address, cut to 64 bits
(R263), left uninterpreted. -/
opaque xtsSector : BitVec 256 → Nat → List Byte → List Byte
opaque sectorTag : BitVec 256 → List Byte → Nat → BitVec 64

/-- The upper half of a quad operand named by a code that is no register (R24: not stated); its argument is what R13 keeps the same
from run to run: block, warp, address, fibre and loops. -/
opaque quadHigh : List Nat → DWord

/-- The bank, row and column of a device physical address in its die's DRAM (R265, R404: the mapping is not given). -/
opaque dramBank : Nat → Nat
opaque dramRow : Nat → Nat
opaque dramColumn : Nat → Nat

/-- The value table's set of a key (R176: the hash is not given). -/
opaque valueSet : List Nat → Nat

/-- UNIT of the syndrome of a corrected compute error (R265, R403: no code is given). -/
opaque computeUnit : Nat → Nat

/-- The physical tile that a block's tile stands in (R204, R265: the mapping is not given). -/
opaque tilePlace : Nat → Nat → Nat

/-- The hash of source, destination and transaction tag that chooses among the links of a group pair (R330: not given). -/
opaque routeHash : Nat → Nat → Nat → Nat

/-- The old value of a destination that is no register, where an instruction reads its old destination (R23, R134, R145: not
stated); its argument is as `quadHigh`'s. -/
opaque oldValue : List Nat → DWord

/-- SHA-512 of a byte string (R370, R425, R426), left uninterpreted. -/
opaque sha512 : List Byte → BitVec 512

/-- Whether an Ed25519 signature of a message verifies under a key (R425). -/
opaque ed25519Verifies : BitVec 256 → List Byte → BitVec 512 → Bool

/-- The Ed25519 signature of a message by a chip's identity key (R426). -/
opaque ed25519Sign : Nat → List Byte → BitVec 512

/-- A fresh X25519 public key of a chip's security controller (R427). -/
opaque x25519Public : Nat → BitVec 256

/-- The wrapping key both sides derive from the shared secret by HKDF (R427): fresh number, host key, CHIPID. -/
opaque wrapKey : Nat → BitVec 256 → Nat → BitVec 256

/-- The AES-256 key unwrap of RFC 3394 (R427): none when the wrapped key fails to unwrap. -/
opaque aesUnwrap : BitVec 256 → List Byte → Option (BitVec 256)

/-- The AES-256-GCM key stream for the 232 bytes of a flit's BODY under a link key and a nonce (R336); encryption and decryption add
it modulo 2. -/
opaque gcmStream : BitVec 256 → Nat → BitVec 1856

/-- The AES-256-GCM tag of a flit: key, nonce, HDR as the additional authenticated data, BODY as encrypted (R336). -/
opaque gcmTag : BitVec 256 → Nat → BitVec 32 → BitVec 1856 → BitVec 128

/-- The SHA-512 digest of the signing key fused in a device (R425). -/
opaque fusedKeyDigest : BitVec 512

/-- The SHA-512 digest of the repair records and the pod configuration record (R426: their byte layout is not given). -/
opaque recordDigest : Nat → BitVec 512

/-- The value that forming a pod's time leaves between two copies (R337): a bounded asymmetry of measured delay. -/
opaque asymmetry : Nat → Nat

end Sys2Proof.Config
end

