-- ==== Sys2Proof/Machine/Num.lean ====
section
/-! DEFINITION. Number formats, exact values, rounding and conversion (04 R95 to R111, R118; 02 R36, R39). -/

namespace Sys2Proof.Machine

/-! ## Flags (R115) -/

/-- The eight sticky flags of FSTAT[7:0]. -/
abbrev Flags := BitVec 8

def flNV : Flags := 0x01
def flDZ : Flags := 0x02
def flOF : Flags := 0x04
def flUF : Flags := 0x08
def flNX : Flags := 0x10
def flSAT : Flags := 0x20
def flSCM : Flags := 0x40
def flBFMT : Flags := 0x80

/-- A flag if a condition holds. -/
def flagIf (b : Bool) (f : Flags) : Flags := if b then f else 0

/-- A rounding mode of R102. -/
inductive Mode
  | rne | rtz | rdn | rup
deriving DecidableEq, Repr

/-- FSTAT.RM's mode (R102). -/
def modeOf (n : Nat) : Mode :=
  match n with
  | 0 => .rne
  | 1 => .rtz
  | 2 => .rdn
  | _ => .rup

/-! ## Formats -/

/-- A float format: IEEE (R97) or binary8 (R98). `maxc` is the code of the largest finite value without its sign. -/
structure Fmt where
  width : Nat
  t : Nat
  bias : Int
  signed : Bool
  ieee : Bool
  hasInf : Bool
  maxc : Nat
deriving DecidableEq, Repr

def f32Fmt : Fmt := ⟨32, 23, 127, true, true, true, 0x7F7FFFFF⟩
def f16Fmt : Fmt := ⟨16, 10, 15, true, true, true, 0x7BFF⟩
def bf16Fmt : Fmt := ⟨16, 7, 127, true, true, true, 0x7F7F⟩
def f64Fmt : Fmt := ⟨64, 52, 1023, true, true, true, 0x7FEFFFFFFFFFFFFF⟩

/-- The binary8 format of code `c` (R98, R99, R101): bit 5 unsigned, bit 4 finite, bits [2:0] the precision. -/
def b8Fmt (c : Nat) : Fmt :=
  let p := c % 8
  let uns := c / 32 % 2 = 1
  let finite := c / 16 % 2 = 1
  if uns then ⟨8, p - 1, (2 : Int) ^ (8 - p), false, false, !finite, if finite then 0xFE else 0xFD⟩
  else ⟨8, p - 1, (2 : Int) ^ (7 - p), true, false, !finite, if finite then 0x7F else 0x7E⟩

/-- Whether a code is a binary8 format code (R39, R101). -/
def isB8Code (c : Nat) : Bool := decide (0x40 ≤ c) && decide (c ≤ 0x7F) && decide (c / 8 % 2 = 0) && decide (c % 8 ≠ 0)

/-- The float format of a code, packed types by their element (R39, R101). -/
def fmtOf (c : Nat) : Option Fmt :=
  match c with
  | 0x00 => some f32Fmt
  | 0x01 => some f16Fmt
  | 0x02 => some bf16Fmt
  | 0x03 => some f64Fmt
  | 0x10 => some f16Fmt
  | 0x11 => some bf16Fmt
  | _ => if isB8Code c then some (b8Fmt c) else none

/-- An integer type: signedness, element width and element count (R39, R95). -/
structure IType where
  signed : Bool
  width : Nat
  count : Nat
deriving DecidableEq, Repr

/-- The integer type of a code (R39). -/
def itypeOf (c : Nat) : Option IType :=
  match c with
  | 0x04 => some ⟨true, 8, 1⟩
  | 0x05 => some ⟨false, 8, 1⟩
  | 0x06 => some ⟨true, 16, 1⟩
  | 0x07 => some ⟨false, 16, 1⟩
  | 0x08 => some ⟨true, 32, 1⟩
  | 0x09 => some ⟨false, 32, 1⟩
  | 0x0A => some ⟨true, 64, 1⟩
  | 0x0B => some ⟨false, 64, 1⟩
  | 0x0C => some ⟨true, 16, 2⟩
  | 0x0D => some ⟨false, 16, 2⟩
  | 0x0E => some ⟨true, 8, 4⟩
  | 0x0F => some ⟨false, 8, 4⟩
  | _ => none

/-- Whether a code stands in the TI position (R39). -/
def tiOk (c : Nat) : Bool := decide (0x04 ≤ c) && decide (c ≤ 0x0F)
/-- Whether a code stands in the TF position (R39). -/
def tfOk (c : Nat) : Bool := decide (c ≤ 3) || decide (c = 0x10) || decide (c = 0x11) || isB8Code c
/-- Whether a code stands in the TC position, or names a `cvt` destination (R39, R146). -/
def tcOk (c : Nat) : Bool := decide (c ≤ 0x0B) || isB8Code c

/-! ## Values -/

/-- The value of a float code: a NaN (signalling, sign, trailing bits without the quiet bit, top-aligned in 51 bits), an
infinity, or (-1)^neg × m × 2^e exactly. -/
inductive FV
  | nan (sig neg : Bool) (payload : Nat)
  | inf (neg : Bool)
  | fin (neg : Bool) (m : Nat) (e : Int)
deriving DecidableEq, Repr

/-- The smallest normal exponent of a format (R103). -/
def Fmt.emin (f : Fmt) : Int := 1 - f.bias

/-- Reads a magnitude code (sign removed) of a format as a finite value. -/
def finOfCode (f : Fmt) (neg : Bool) (c : Nat) : FV :=
  let ex := c / 2 ^ f.t
  let m := c % 2 ^ f.t
  if ex = 0 then .fin neg m (f.emin - (f.t : Int))
  else .fin neg (2 ^ f.t + m) ((ex : Int) - f.bias - (f.t : Int))

/-- The value of a code of a format (R97, R98). -/
def fdec (f : Fmt) (x : Nat) : FV :=
  let x := x % 2 ^ f.width
  if f.ieee then
    let neg := decide (x / 2 ^ (f.width - 1) % 2 = 1)
    let c := x % 2 ^ (f.width - 1)
    let m := c % 2 ^ f.t
    if c < f.maxc + 1 then finOfCode f neg c
    else if m = 0 then .inf neg
    else .nan (decide (m < 2 ^ (f.t - 1))) neg (m % 2 ^ (f.t - 1) * 2 ^ (52 - f.t))
  else if f.signed then
    let neg := decide (x ≥ 128)
    let c := x % 128
    if x = 128 then .nan false false 0
    else if f.hasInf ∧ c = 127 then .inf neg
    else finOfCode f neg c
  else if x = 255 then .nan false false 0
  else if f.hasInf ∧ x = 254 then .inf false
  else finOfCode f false x

/-- A code with its sign applied: every binary8 zero is 0x00 (R106). -/
def withSign (f : Fmt) (neg : Bool) (c : Nat) : Nat :=
  if f.ieee then (if neg then c + 2 ^ (f.width - 1) else c)
  else if neg && decide (c ≠ 0) then c + 128 else c

/-- The NaN of a format with a sign and payload, quiet (R109): binary8 has one NaN code. -/
def nanCode (f : Fmt) (neg : Bool) (payload : Nat) : Nat :=
  if f.ieee then withSign f neg (f.maxc + 1 + 2 ^ (f.t - 1) + payload / 2 ^ (52 - f.t))
  else if f.signed then 128 else 255

/-- The default NaN of a format (R97, R98). -/
def dfltNaN (f : Fmt) : Nat := nanCode f false 0

/-- The code of an infinity the format has. -/
def infCode (f : Fmt) (neg : Bool) : Nat := withSign f neg (f.maxc + 1)

/-- What an operation delivers: the code, the flags it raises, and whether it was subnormal in the sense of R112. -/
structure FRes where
  bits : Nat
  fl : Flags
  sub : Bool
deriving DecidableEq, Repr

/-- R105: overflow, with the sign of v. -/
def overflowRes (f : Fmt) (mode : Mode) (sat neg : Bool) : FRes :=
  let top := withSign f neg f.maxc
  let toInf := match mode with
    | .rne => true
    | .rtz => false
    | .rdn => neg
    | .rup => !neg
  if sat then ⟨top, flOF ||| flNX ||| flSAT, false⟩
  else if toInf then ⟨if f.hasInf then infCode f neg else dfltNaN f, flOF ||| flNX, false⟩
  else ⟨top, flOF ||| flNX, false⟩

/-- The integer nearest to m × 2^(-sh) under a mode, and whether it differs from it (R103). -/
def roundShift (mode : Mode) (neg : Bool) (m : Nat) (sh : Int) : Nat × Bool :=
  if sh ≤ 0 then (m * 2 ^ (-sh).toNat, false)
  else
    let n := sh.toNat
    let far := decide (Nat.log2 m + 2 < n)
    let k := if far then 0 else m / 2 ^ n
    let r := if far then m else m % 2 ^ n
    let up := match mode with
      | .rne => if far then false else decide (2 * r > 2 ^ n) || (decide (2 * r = 2 ^ n) && decide (k % 2 = 1))
      | .rtz => false
      | .rdn => neg && decide (r ≠ 0)
      | .rup => !neg && decide (r ≠ 0)
    (if up then k + 1 else k, decide (r ≠ 0))

/-- R103 to R107: rounds (-1)^neg × m × 2^e to a format. -/
def roundFin (f : Fmt) (mode : Mode) (sat neg : Bool) (m : Nat) (e : Int) : FRes :=
  if m = 0 then ⟨if f.signed then withSign f neg 0 else 0, 0, false⟩
  else
    let e0 : Int := (Nat.log2 m : Int) + e
    let tiny := decide (e0 < f.emin)
    let q : Int := max e0 f.emin - (f.t : Int)
    let (k, inexact) := roundShift mode neg m (q - e)
    if neg && !f.signed then
      if k = 0 then ⟨0, flNX ||| flagIf tiny flUF, tiny⟩
      else if sat then ⟨0, flSAT ||| flNX, tiny⟩
      else ⟨dfltNaN f, flNV, tiny⟩
    else
      let c := (q + (f.t : Int) + f.bias - 1).toNat * 2 ^ f.t + k
      if c > f.maxc then { overflowRes f mode sat neg with sub := tiny }
      else ⟨withSign f neg c, flagIf inexact flNX ||| flagIf (inexact && tiny) flUF, tiny⟩

/-- R108, the rows of an infinity: where the format has none, NaN or the largest finite value under sat. -/
def deliverInf (f : Fmt) (sat neg : Bool) : FRes :=
  if neg && !f.signed then
    if sat then ⟨0, flSAT ||| flNX, false⟩ else ⟨dfltNaN f, flNV, false⟩
  else if f.hasInf then ⟨infCode f neg, 0, false⟩
  else if sat then ⟨withSign f neg f.maxc, flOF ||| flNX ||| flSAT, false⟩
  else ⟨dfltNaN f, flOF ||| flNX, false⟩

/-- Rounds or delivers any value; a NaN is delivered quiet, raising NV when it signals (R109). -/
def roundFV (f : Fmt) (mode : Mode) (sat : Bool) : FV → FRes
  | .nan sig neg p => ⟨nanCode f neg p, flagIf sig flNV, false⟩
  | .inf neg => deliverInf f sat neg
  | .fin neg m e => roundFin f mode sat neg m e

/-! ## Exact operations -/

def FV.isNaN : FV → Bool
  | .nan _ _ _ => true
  | _ => false

def FV.isSig : FV → Bool
  | .nan sig _ _ => sig
  | _ => false

def FV.isInf : FV → Bool
  | .inf _ => true
  | _ => false

def FV.isZero : FV → Bool
  | .fin _ m _ => decide (m = 0)
  | _ => false

def FV.neg? : FV → Bool
  | .nan _ n _ => n
  | .inf n => n
  | .fin n _ _ => n

def FV.negate : FV → FV
  | .nan sig n p => .nan sig n p
  | .inf n => .inf (!n)
  | .fin n m e => .fin (!n) m e

/-- A finite non-zero value below the format's smallest normal (R112). -/
def FV.isSub (f : Fmt) : FV → Bool
  | .fin _ m e => decide (m ≠ 0) && decide ((Nat.log2 m : Int) + e < f.emin)
  | _ => false

/-- The integer that a finite value is at the spacing 2^e0, for e0 at most its own exponent. -/
def scaled (e0 : Int) : FV → Int
  | .fin neg m e =>
    let k : Int := (m * 2 ^ (e - e0).toNat : Nat)
    if neg then -k else k
  | _ => 0

/-- The exponents of the finite non-zero terms. -/
def termExps : List FV → List Int
  | [] => []
  | .fin _ m e :: r => if m = 0 then termExps r else e :: termExps r
  | _ :: r => termExps r

/-- The exact sum of finite terms, with the sign of an exact zero by R106. -/
def sumFin (mode : Mode) (l : List FV) : FV :=
  let e0 := (termExps l).foldl min ((termExps l).headD 0)
  let total : Int := (l.map fun x => if x.isZero then 0 else scaled e0 x).foldl (fun a b => a + b) 0
  if total = 0 then
    let allNeg := l.all FV.neg?
    let allPos := l.all fun x => !x.neg?
    .fin (if allNeg then true else if allPos then false else decide (mode = .rdn)) 0 0
  else .fin (decide (total < 0)) total.natAbs e0

/-- The exact product of two values that are neither NaN nor 0 × ∞. -/
def mulFV (a b : FV) : FV :=
  match a, b with
  | .fin n m e, .fin n' m' e' => .fin (n != n') (m * m') (e + e')
  | x, y => .inf (x.neg? != y.neg?)

/-- Whether a product is invalid (R110). -/
def badProd (a b : FV) : Bool := (a.isInf && b.isZero) || (a.isZero && b.isInf)

/-- The first NaN of a list. -/
def firstNaN (l : List FV) : Option FV := l.find? FV.isNaN

/-- A sum of products and addends, rounded once: R109, R110 and R103. `ops` gives the NaN order; `sub` tells a
subnormal operand, each judged in its own format. -/
def sumOfProducts (f : Fmt) (sub : Bool) (mode : Mode) (sat : Bool) (ops : List FV) (prods : List (FV × FV)) (adds : List FV) : FRes :=
  let bad := prods.any fun p => badProd p.1 p.2
  let terms := (prods.filter fun p => !(p.1.isNaN || p.2.isNaN || badProd p.1 p.2)).map (fun p => mulFV p.1 p.2) ++ adds
  let infs := terms.filter FV.isInf
  let clash := infs.any FV.neg? && infs.any fun x => !x.neg?
  let nv := flagIf (bad || clash || ops.any FV.isSig) flNV
  match firstNaN ops with
  | some (.nan _ neg p) => ⟨nanCode f neg p, nv, sub⟩
  | _ =>
    if bad || clash then ⟨dfltNaN f, nv, sub⟩
    else match infs with
      | x :: _ => { deliverInf f sat x.neg? with sub := sub }
      | [] =>
        let r := roundFV f mode sat (sumFin mode terms)
        { r with sub := sub || r.sub }

/-- The same where every operand is of the result's format. -/
def sumInOne (f : Fmt) (mode : Mode) (sat : Bool) (ops : List FV) (prods : List (FV × FV)) (adds : List FV) : FRes :=
  sumOfProducts f (ops.any (FV.isSub f)) mode sat ops prods adds

/-- A quotient to far more bits than any format holds, with a sticky low bit (R118). -/
def quotFin (neg : Bool) (m : Nat) (e : Int) (m' : Nat) (e' : Int) : FV :=
  let s := 140 + Nat.log2 m'
  let n := m * 2 ^ s
  .fin neg (2 * (n / m') + (if n % m' = 0 then 0 else 1)) (e - e' - (s : Int) - 1)

/-- The floor of the square root of a number, by halving from above; `k` bounds its bit length. -/
def isqrtBits (n : Nat) : Nat → Nat → Nat
  | 0, r => r
  | k + 1, r => isqrtBits n k (if (r + 2 ^ k) * (r + 2 ^ k) ≤ n then r + 2 ^ k else r)

/-- The floor of the square root. -/
def isqrt (n : Nat) : Nat := isqrtBits n (Nat.log2 n / 2 + 1) 0

/-- A square root to far more bits than any format holds, with a sticky low bit (R118). -/
def sqrtFin (m : Nat) (e : Int) : FV :=
  let s : Int := 160 + (e % 2)
  let n := m * 2 ^ s.toNat
  let r := isqrt n
  .fin false (2 * r + (if r * r = n then 0 else 1)) ((e - s) / 2 - 1)

/-- One over the square root of m × 2^e, in the same form: floor(√(2^s / m)) with s + e even, and whether that is exact. -/
def rsqrtFin (m : Nat) (e : Int) : FV :=
  let s : Int := 240 + (Nat.log2 m : Int) + (((Nat.log2 m : Int) + e) % 2)
  let n := 2 ^ s.toNat
  let r := isqrt (n / m)
  .fin false (2 * r + (if r * r * m = n then 0 else 1)) ((-e - s) / 2 - 1)

/-- R118, R110: a / b. -/
def fdivRes (f : Fmt) (mode : Mode) (a b : FV) : FRes :=
  let sub := a.isSub f || b.isSub f
  let nv := flagIf (a.isSig || b.isSig) flNV
  match firstNaN [a, b] with
  | some (.nan _ neg p) => ⟨nanCode f neg p, nv, sub⟩
  | _ =>
    let s := a.neg? != b.neg?
    match a, b with
    | .inf _, .inf _ => ⟨dfltNaN f, flNV, sub⟩
    | .inf _, _ => { deliverInf f false s with sub := sub }
    | _, .inf _ => ⟨(roundFin f mode false s 0 0).bits, 0, sub⟩
    | .fin _ m e, .fin _ m' e' =>
      if m' = 0 then
        if m = 0 then ⟨dfltNaN f, flNV, sub⟩
        else ⟨if f.hasInf then infCode f s else dfltNaN f, flDZ, sub⟩
      else
        let r := if m = 0 then roundFin f mode false s 0 0 else roundFV f mode false (quotFin s m e m' e')
        { r with sub := sub || r.sub }
    | _, _ => ⟨dfltNaN f, nv, sub⟩

/-- The value 1. -/
def fvOne : FV := .fin false 1 0

/-- Ordering of two values that are not NaNs: -0 equals +0 (R92). -/
def fvLt (a b : FV) : Bool :=
  match a, b with
  | .inf n, .inf n' => n && !n'
  | .inf n, _ => n
  | _, .inf n => !n
  | x, y =>
    let e0 := match x, y with
      | .fin _ _ e, .fin _ _ e' => min e e'
      | _, _ => 0
    decide (scaled e0 x < scaled e0 y)

/-- Equality of two values that are not NaNs. -/
def fvEq (a b : FV) : Bool := !fvLt a b && !fvLt b a

/-- R111: minimumNumber and maximumNumber with -0 below +0; the code of the chosen operand is delivered unchanged. -/
def fminmax (f : Fmt) (isMax : Bool) (x y : Nat) : FRes :=
  let a := fdec f x
  let b := fdec f y
  let nv := flagIf (a.isSig || b.isSig) flNV
  match a, b with
  | .nan _ n p, .nan _ _ _ => ⟨nanCode f n p, nv, false⟩
  | .nan _ _ _, _ => ⟨y % 2 ^ f.width, nv, false⟩
  | _, .nan _ _ _ => ⟨x % 2 ^ f.width, nv, false⟩
  | _, _ =>
    let below := fvLt a b || (fvEq a b && a.neg? && !b.neg?)
    ⟨(if below != isMax then x else y) % 2 ^ f.width, 0, false⟩

/-- R142: a × 2^n. -/
def fsclRes (f : Fmt) (mode : Mode) (sat : Bool) (x : Nat) (n : Int) : FRes :=
  match fdec f x with
  | .nan sig neg p => ⟨nanCode f neg p, flagIf sig flNV, false⟩
  | .inf _ => ⟨x % 2 ^ f.width, 0, false⟩
  | .fin neg m e =>
    if m = 0 then ⟨x % 2 ^ f.width, 0, false⟩
    else
      let r := roundFin f mode sat neg m (e + n)
      { r with sub := r.sub || FV.isSub f (.fin neg m e) }

/-- R143: sign inversion of a pattern. -/
def fnegRes (f : Fmt) (x : Nat) : FRes :=
  let x := x % 2 ^ f.width
  if f.ieee then ⟨(x + 2 ^ (f.width - 1)) % 2 ^ f.width, 0, false⟩
  else if f.signed then ⟨if x = 0 ∨ x = 128 then x else (x + 128) % 256, 0, false⟩
  else if x = 0 ∨ x = 255 then ⟨x, 0, false⟩ else ⟨255, flNV, false⟩

/-- R143: the sign cleared from a pattern. -/
def fabsRes (f : Fmt) (x : Nat) : FRes :=
  let x := x % 2 ^ f.width
  if f.ieee then ⟨x % 2 ^ (f.width - 1), 0, false⟩
  else if f.signed then ⟨if x = 128 then x else x % 128, 0, false⟩
  else ⟨x, 0, false⟩

/-- R144: rounding to an integral value. NX comes only with an overflow. -/
def frndRes (f : Fmt) (mode : Mode) (x : Nat) : FRes :=
  match fdec f x with
  | .nan sig neg p => ⟨nanCode f neg p, flagIf sig flNV, false⟩
  | .inf _ => ⟨x % 2 ^ f.width, 0, false⟩
  | .fin neg m e =>
    let sub := FV.isSub f (.fin neg m e)
    let k := (roundShift mode neg m (-e)).1
    let r := roundFin f mode false neg k 0
    ⟨r.bits, if r.fl &&& flOF = 0 then 0 else r.fl, sub⟩

/-! ## Integers -/

/-- The pattern of an integer in w bits. -/
def toPat (w : Nat) (x : Int) : Nat := (x % ((2 ^ w : Nat) : Int)).toNat

/-- The integer a w-bit pattern holds, signed or unsigned (R95). -/
def ofPat (signed : Bool) (w : Nat) (x : Nat) : Int :=
  let x := x % 2 ^ w
  if signed && decide (2 * x ≥ 2 ^ w) then (x : Int) - ((2 ^ w : Nat) : Int) else (x : Int)

/-- The least value of an integer type. -/
def intMin (signed : Bool) (w : Nat) : Int := if signed then -((2 ^ (w - 1) : Nat) : Int) else 0
/-- The greatest value of an integer type. -/
def intMax (signed : Bool) (w : Nat) : Int :=
  if signed then ((2 ^ (w - 1) : Nat) : Int) - 1 else ((2 ^ w : Nat) : Int) - 1

/-- R96, R131: the delivered pattern of an exact result, and whether it was clamped. -/
def intDeliver (signed sat : Bool) (w : Nat) (x : Int) : Nat × Bool :=
  if sat && decide (x < intMin signed w) then (toPat w (intMin signed w), true)
  else if sat && decide (x > intMax signed w) then (toPat w (intMax signed w), true)
  else (toPat w x, false)

/-! ## Conversion (R108) -/

/-- A finite or infinite or NaN value to an integer type. -/
def toIntRes (d : IType) (mode : Mode) (sat : Bool) (v : FV) : FRes :=
  let indef := 2 ^ (d.width - 1)
  let edge := fun (neg : Bool) => toPat d.width (if neg then intMin d.signed d.width else intMax d.signed d.width)
  match v with
  | .nan _ _ _ => ⟨if sat then 0 else indef, flNV, false⟩
  | .inf neg => if sat then ⟨edge neg, flNX ||| flSAT, false⟩ else ⟨indef, flNV, false⟩
  | .fin neg m e =>
    let big := decide (m ≠ 0) && decide ((Nat.log2 m : Int) + e > 70)
    let (k, inexact) := if big then (2 ^ 70, false) else roundShift mode neg m (-e)
    let x : Int := if neg then -(k : Int) else (k : Int)
    if x < intMin d.signed d.width ∨ x > intMax d.signed d.width then
      if sat then ⟨edge neg, flNX ||| flSAT, false⟩ else ⟨indef, flNV, false⟩
    else ⟨toPat d.width x, flagIf inexact flNX, false⟩

/-- R108: `convert(x, S, D, mode, sat)` on one element, by type codes. A code that names no type converts to 0. -/
def convertRes (s d : Nat) (mode : Mode) (sat : Bool) (x : Nat) : FRes :=
  match fmtOf s, itypeOf s, fmtOf d, itypeOf d with
  | some fs, _, some fd, _ =>
    let r := roundFV fd mode sat (fdec fs x)
    { r with sub := r.sub || FV.isSub fs (fdec fs x) }
  | some fs, _, none, some i =>
    let r := toIntRes i mode sat (fdec fs x)
    { r with sub := FV.isSub fs (fdec fs x) }
  | none, some i, some fd, _ =>
    let v := ofPat i.signed i.width x
    roundFV fd mode sat (.fin (decide (v < 0)) v.natAbs 0)
  | none, some i, none, some j =>
    let (p, c) := intDeliver j.signed sat j.width (ofPat i.signed i.width x)
    ⟨p, flagIf c flSAT, false⟩
  | _, _, _, _ => ⟨0, 0, false⟩

/-- The width in bits of a type code's element. -/
def codeWidth (c : Nat) : Nat :=
  match fmtOf c, itypeOf c with
  | some f, _ => f.width
  | none, some i => i.width
  | none, none => 32

/-- How many elements a type code packs. -/
def codeCount (c : Nat) : Nat :=
  match c with
  | 0x0C | 0x0D | 0x10 | 0x11 => 2
  | 0x0E | 0x0F => 4
  | _ => 1

/-! ## Elements of a register value (R95, R97, R129) -/

/-- Element `i` of width `w`. -/
def elemOf (x : DWord) (w i : Nat) : Nat := x.toNat / 2 ^ (w * i) % 2 ^ w

/-- Joins elements, element 0 lowest. -/
def joinElems (w : Nat) : List Nat → Nat
  | [] => 0
  | x :: r => x % 2 ^ w + 2 ^ w * joinElems w r

/-- The register value of one integer element: sign or zero extended to 32 bits, or to 64 for a 64-bit type (R129). -/
def placeInt (signed : Bool) (w x : Nat) : DWord :=
  if w ≥ 64 then BitVec.ofNat 64 x else BitVec.ofNat 64 (toPat 32 (ofPat signed w x))

/-! ## Immediates (02 R34 to R37) -/

/-- The value of a bare float immediate (R36). -/
def bareImm (i : Code) : FV :=
  let neg := i.getLsbD 6
  let e := i.toNat / 8 % 8
  let m := i.toNat % 8
  if e = 0 then .fin neg m (-5)
  else if e = 7 then (if m = 0 then .inf neg else .nan false neg 0)
  else .fin neg (8 + m) ((e : Int) - 6)

/-- R37: delivery of an extended immediate at TF with RNE and no flags. -/
def immDeliver (f : Fmt) (sat : Bool) (v : FV) : Nat :=
  (roundFV f .rne (sat && !(f.hasInf && (f.signed || !v.neg?))) v).bits

/-- R36: delivery of a bare immediate; in an unsigned format every negative value but -0 is NaN, or 0 under SAT. -/
def bareDeliver (f : Fmt) (sat : Bool) (i : Code) : Nat :=
  let v := bareImm i
  if !f.signed && v.neg? && !v.isZero && !v.isNaN then (if sat then 0 else dfltNaN f)
  else immDeliver f sat v

end Sys2Proof.Machine
end

