-- ==== Sys2Proof/Machine/Tab.lean ====
section
/-! DEFINITION. Sparse tables by number: the plain data in which the state holds rows, warps, blocks, lines and chips. -/

namespace Sys2Proof

/-- A sparse table: pairs of a key and an entry. -/
abbrev Tab (α : Type) := List (Nat × α)

namespace Machine

/-- The entry of key `k`, when the table lists one. -/
def tabLook {α : Type} : Tab α → Nat → Option α
  | [], _ => none
  | (j, v) :: r, k => if j = k then some v else tabLook r k

/-- The table with `v` at key `k`; keys stay in ascending order. -/
def tabPut {α : Type} : Tab α → Nat → α → Tab α
  | [], k, v => [(k, v)]
  | (j, x) :: r, k, v =>
    if k < j then (k, v) :: (j, x) :: r
    else if k = j then (k, v) :: r
    else (j, x) :: tabPut r k v

/-- The table without key `k`. -/
def tabDel {α : Type} : Tab α → Nat → Tab α
  | [], _ => []
  | (j, x) :: r, k => if j = k then tabDel r k else (j, x) :: tabDel r k

/-- The table with `f` applied to the entry of `k`, unchanged where there is none. -/
def tabUpd {α : Type} (t : Tab α) (k : Nat) (f : α → α) : Tab α :=
  match tabLook t k with
  | some v => tabPut t k (f v)
  | none => t

/-- The entries of a table, by ascending key. -/
def tabVals {α : Type} (t : Tab α) : List α := t.map Prod.snd

/-- The keys of a table. -/
def tabKeys {α : Type} (t : Tab α) : List Nat := t.map Prod.fst

/-- Entry `i` of a register file of `n` like registers, `d` where it has none. -/
def vecAt {α : Type} {n : Nat} (v : Vector α n) (i : Nat) (d : α) : α := v.toList.getD i d

/-- A register file with entry `i` replaced. -/
def vecPut {α : Type} {n : Nat} (v : Vector α n) (i : Nat) (x : α) : Vector α n := ⟨⟨v.toList.set i x⟩, by simp⟩

/-- A register file from its entries. -/
def vecOf {α : Type} (n : Nat) (f : Nat → α) : Vector α n := ⟨⟨(List.range n).map f⟩, by simp⟩

/-- Numbers in dictionary order: the request key of R169 and the age of a block. -/
def keyLess : List Nat → List Nat → Bool
  | a :: l, b :: r => decide (a < b) || (decide (a = b) && keyLess l r)
  | _, _ => false

/-- The least of a list by a key; the first of equals. -/
def leastBy {α : Type} (key : α → List Nat) : List α → Option α
  | [] => none
  | x :: r => match leastBy key r with
    | some y => if keyLess (key y) (key x) then some y else some x
    | none => some x

/-- The keys of a table rise strictly: its canonical order. -/
def tabSorted {α : Type} : Tab α → Bool
  | [] => true
  | [_] => true
  | (j, _) :: (k, y) :: r => decide (j < k) && tabSorted ((k, y) :: r)

end Machine
end Sys2Proof
end

