-- ==== Sys2Proof/Syntax.lean ====
section
/-! DEFINITION. The instruction type: one constructor for each row of the opcode table.

The first 188 constructors are the words of the Malzal instruction set (02 R16, R45 to R47); their arguments are the word's
fields as they stand, reserved fields included, because a reserved field that is not zero sets WARN.RSV (R50).
The other 114 are the device's own steps, which no word encodes: messages that arrive, deliveries, engine and hub actions,
host commands. ILLEGAL_INSTRUCTION carries the word that was issued; the other 113 act on the message that the state then
holds as its cue, whose fields are those of `Cue`; each constructor's docstring says which of them it reads.
The constructors stand in the table's order, but for ILLEGAL_INSTRUCTION, which follows the words. -/

namespace Sys2Proof

/-- The four outstanding-operation classes (R291). -/
inductive OpClass
  | copy | mtx | gath | coll
deriving DecidableEq, Repr

/-- One request of a warp, an engine, the task gate or the host to the home of a line (R249, R271, R278). -/
structure Access where
  /-- A number no other request of the run has. -/
  id : Nat := 0
  /-- The node on whose behalf it is made; 0 for the host and the hub. -/
  node : Nat := 0
  /-- The issuing warp's key; meaningful only when `node` is not 0. -/
  warp : Nat := 0
  /-- The issuing core (chip × 2048 + core), whose cache may hold a copy. -/
  core : Nat := 0
  /-- The line: its memory key divided by 128. -/
  line : Nat := 0
  /-- The lease length in ns asked for; 0 asks for no copy (R269). -/
  lease : Nat := 0
  /-- The requester's die takes a replica (R243). -/
  repl : Bool := false
  /-- A `.sync` store (R274). -/
  sync : Bool := false
  /-- The engine operation the request is part of; 0 for a warp's own access. -/
  op : Nat := 0
  /-- The virtual address, for fault records (R399). -/
  va : Nat := 0
  /-- The address of the issuing group's first word (R399). -/
  pc : Nat := 0
  /-- The page's REC code (R236). -/
  rc : Nat := 0
  /-- The re-reference value at which the line is inserted, band base plus rd (R245, R246). -/
  rv : Nat := 4
  /-- Incarnations of source and destination, and pod time at injection (R332, R341). -/
  sinc : Nat := 0
  dinc : Nat := 0
  inj : Nat := 0
  /-- STATUS.RESUMES of the warp when it issued (R399). -/
  wgen : Nat := 0
  /-- The page is encrypted (R264); the line may be allocated in the L2: the page is not uncached (R247). -/
  enc : Bool := false
  alloc : Bool := true
deriving DecidableEq, Repr

/-- What a write takes from its page (R236): the recovery, whether it is encrypted, and whether its lines may stand in the L2. -/
structure Page where
  rc : Nat := 0
  enc : Bool := false
  alloc : Bool := true
deriving DecidableEq, Repr

/-- Where bytes of a served read go. -/
inductive Place
  /-- Nowhere: a prefetch. -/
  | drop
  /-- Lane `lane` of rows `row`, `row + 1`, … of the requesting warp; a byte or half is sign-extended when `sx` (R248). -/
  | reg (row lane : Nat) (sx : Bool)
  /-- Scalar registers `code`, `code + 1`, … of the requesting warp. -/
  | sreg (code : Nat) (sx : Bool)
  /-- One half of a lane's word: a packed atomic's returned element (R253). -/
  | half (row lane h : Nat)
  /-- One half of a scalar register. -/
  | shalf (code h : Nat)
  /-- Rows of a warp from a row and lane on, lane by lane (R299). -/
  | row (warp row lane : Nat)
  /-- A side-memory slot of the node from a byte offset (R300). -/
  | slot (slot off : Nat)
  /-- The node's own scratchpad. -/
  | scr (off : Nat)
  /-- The scratchpad of a block of the node's grid, counted at a record of it when `cnt` names one (R348). -/
  | blk (bid off : Nat) (cnt : Option Nat)
  /-- Memory, as a write of the same operation; `cnt` names the block and record that count it (R348). -/
  | mem (key va : Nat) (page : Page) (sync : Bool) (cnt : Option (Nat × Nat))
  /-- The operation's own buffer, from a byte offset (R313, R325). -/
  | buf (off : Nat)
  /-- The node's scratchpad, for input tile `tile` of its task gate (R198). -/
  | gate (tile off : Nat)
deriving DecidableEq, Repr

/-- One part of a served line: the place of `len` of its bytes from `off`. -/
structure Part where
  off : Nat := 0
  len : Nat := 0
  place : Place := .drop
deriving DecidableEq, Repr

/-- One lane's part of an atomic: the element's byte offset in its line, the place of its returned value, its operands
(R252). -/
structure LaneOp where
  off : Nat := 0
  back : Place := .drop
  x : DWord := 0
  y : DWord := 0
deriving DecidableEq, Repr

/-- What a home performs as one write of a line (R271). -/
inductive HomeOp
  /-- Bytes at offsets of the line, taken in order, so that the last lane's data remains (R249). -/
  | store (parts : List (Nat × List Byte))
  /-- `atom` and `red`: operation and type of R20. -/
  | atom (op ty : Nat) (lanes : List LaneOp)
  | cas (ty : Nat) (lanes : List LaneOp)
  | amxr (ty : Nat) (lanes : List LaneOp)
  /-- The first `rdc` of a warp to a line: the home puts it into the reduction state (R273). -/
  | join
  /-- `cwb` (R261). -/
  | writeBack
  /-- A merge of the line's contributions that waits its turn (R256, R274). -/
  | merge
deriving DecidableEq, Repr

/-- A 64-byte event record with its continuation payloads (R354). -/
structure Event where
  stamp : Nat := 0
  src : Nat := 0
  sinc : Nat := 0
  type : Nat := 0
  seq : Nat := 0
  ctx : Nat := 0
  /-- Payload bytes 20 to 63 of the record. -/
  payload : List Byte := []
  /-- The 44 payload bytes of each continuation record, joined. -/
  cont : List Byte := []
  /-- For a SUBMIT, the number of the launch state read with it (R307); no part of the record. -/
  draft : Nat := 0
deriving DecidableEq, Repr

/-- A heartbeat (R357). -/
structure Beat where
  stamp : Nat := 0
  src : Nat := 0
  sinc : Nat := 0
  seq : Nat := 0
  horizon : Nat := 0
  suspects : List (Nat × Nat) := []
deriving DecidableEq, Repr

/-- A 256-byte flit as received (R332). -/
structure Flit where
  raw : BitVec 2048 := 0
  /-- The transaction tag of the packet of which it carries bytes, for what becomes of that packet when the flit is dropped (R335). -/
  tag : Nat := 0
deriving DecidableEq, Repr

/-- A 64-byte fault record (R399). -/
structure FaultRec where
  pc : Nat := 0
  addr : Nat := 0
  block : Nat := 0
  warp : Nat := 0
  wgen : Nat := 0
  kind : Nat := 0
  exited : Bool := false
  ovf : Bool := false
  ngen : Nat := 0
  syn : DWord := 0
deriving DecidableEq, Repr

/-- A firmware image with its signature and signing key (R425). -/
structure Firmware where
  image : List Byte := []
  sig : BitVec 512 := 0
  key : BitVec 256 := 0
  version : Nat := 0
  raiseMin : Nat := 0
deriving DecidableEq, Repr

/-- The repair records and board straps a reset loads (R190, R267, R327). -/
structure Repair where
  /-- (core, spare, retired, kib) -/
  cores : List (Nat × Nat × Nat × Nat) := []
  /-- (die, retired ways) -/
  dies : List (Nat × Nat) := []
  group : Nat := 0
  pos : Nat := 0
deriving DecidableEq, Repr

/-- What a step of the device acts on: the message, request, delivery or input just taken. A step reads the fields that its
constructor names; the others are zero. -/
structure Cue where
  chip : Nat := 0
  core : Nat := 0
  die : Nat := 0
  port : Nat := 0
  warp : Nat := 0
  node : Nat := 0
  link : Nat := 0
  line : Nat := 0
  gid : Nat := 0
  row : Nat := 0
  tag : Nat := 0
  peer : Nat := 0
  unit : Nat := 0
  num : Nat := 0
  ct : Nat := 0
  ok : Bool := true
  cls : OpClass := .copy
  acc : Access := {}
  parts : List Part := []
  op : HomeOp := .store []
  data : List Byte := []
  event : Event := {}
  beat : Beat := {}
  flit : Flit := {}
  record : FaultRec := {}
  firmware : Firmware := {}
  repair : Repair := {}
  /-- The bytes of a host's write; none for a read. -/
  wr : Option (List Byte) := none
  /-- When a write that waits at its home arrived there (R271). -/
  came : Option Nat := none
  /-- A moved piece's CRC-32 has failed: 1 once, 2 also when read again (R294, log 100). -/
  crc : Nat := 0
deriving DecidableEq, Repr

/-- One constructor for each row of the opcode table. -/
inductive Instr
  /-- R78. Occupies one issue slot in one pass and has no other effect. -/
  | nop (g : BitVec 4) (d a b : Code)
  /-- R79. Per-fibre relative branch; the gang splits by next program counter. -/
  | br (g : BitVec 4) (off : BitVec 21)
  /-- R79. Per-fibre indexed branch to a pair target plus four times an index. -/
  | brx (g : BitVec 4) (d a b : Code)
  /-- R79. Relative call that writes the link to v94:95 and branches. -/
  | call (g : BitVec 4) (off : BitVec 21)
  /-- R79. Indirect call to a pair target, writing the link to destination d. -/
  | callx (g : BitVec 4) (d a b : Code)
  /-- R79. Per-fibre return to the address held in a pair. -/
  | ret (g : BitVec 4) (d a b : Code)
  /-- R80. Creates child fibres in free slots of the warp, copying v0-v7 and the window base. -/
  | fork (g : BitVec 4) (d a i : Code)
  /-- R81. Ends every active guard-true fibre and frees its slot. -/
  | fend (g : BitVec 4) (d a b : Code)
  /-- R82. Ends the whole warp and releases its resources. -/
  | exit (g : BitVec 4) (d a b : Code)
  /-- R73. Enrols active guard-true fibres in rejoin barrier RJn. -/
  | enrol (g : BitVec 4) (d a i : Code)
  /-- R73. Enrolled fibres wait at rejoin barrier RJn; others pass. -/
  | join (g : BitVec 4) (d a i : Code)
  /-- R83. Fibres arrive at block barrier k with a full core fence. -/
  | bar (g : BitVec 4) (d a i : Code)
  /-- R84. Fibres arrive at the group barrier of group table entry g. -/
  | gbar (g : BitVec 4) (d a i : Code)
  /-- R85. Starts a hardware loop at the next idle level with a count and body length. -/
  | loop (g : BitVec 4) (d a i : Code)
  /-- R86. Sets BRK of the innermost loop level and sends fibres to the body end. -/
  | lbrk (g : BitVec 4) (d a i : Code)
  /-- R40. Sets the warp's TI, TF and TC type codes. -/
  | vtype (g : BitVec 4) (d a i : Code)
  /-- R88. Combines two predicates through a truth table into a third. -/
  | plog (g : BitVec 4) (d a b : Code)
  /-- R89. Writes the fibre's predicate word to a register. -/
  | pmovGet (g : BitVec 4) (d a : Code)
  /-- R89. Replaces the fibre's predicate word from a source, keeping p0 set. -/
  | pmovSet (g : BitVec 4) (d a : Code)
  /-- R90. Sets a predicate if any qualifying fibre votes true. -/
  | voteAny (g : BitVec 4) (d a : Code)
  /-- R90. Sets a predicate if every qualifying fibre votes true. -/
  | voteAll (g : BitVec 4) (d a : Code)
  /-- R90. Writes the mask of qualifying lanes that vote true. -/
  | voteBallot (g : BitVec 4) (d a : Code)
  /-- R90. Writes 1 if all qualifying fibres hold the same value. -/
  | voteUni (g : BitVec 4) (d a : Code)
  /-- R91. Integer compare at TI writing less, equal and greater predicates. -/
  | cmp (g : BitVec 4) (d a b : Code)
  /-- R91. Integer compare with an immediate writing three predicates. -/
  | cmpi (g : BitVec 4) (d a i : Code)
  /-- R92. Float compare at TF writing less, equal, greater and unordered predicates. -/
  | fcmp (g : BitVec 4) (d a b : Code)
  /-- R93. Tests the float class of a against a mask into a predicate. -/
  | fcls (g : BitVec 4) (d a m : Code)
  /-- R94. Copies a or b to d according to the guard of each fibre. -/
  | sel (g : BitVec 4) (d a b : Code)
  /-- R134. Integer add at TI. -/
  | add (g : BitVec 4) (d a b : Code)
  /-- R134. Integer add of an immediate at TI. -/
  | addi (g : BitVec 4) (d a i : Code)
  /-- R134. Integer subtract at TI. -/
  | sub (g : BitVec 4) (d a b : Code)
  /-- R134. Integer multiply at TI, low half. -/
  | mul (g : BitVec 4) (d a b : Code)
  /-- R134. Integer multiply by an immediate. -/
  | muli (g : BitVec 4) (d a i : Code)
  /-- R134. High half of the integer product. -/
  | mulh (g : BitVec 4) (d a b : Code)
  /-- R134. Integer multiply-add with the old destination or source C. -/
  | mad (g : BitVec 4) (d a b : Code)
  /-- R132. Integer division on the SFU divider. -/
  | div (g : BitVec 4) (d a b : Code)
  /-- R132. Integer remainder on the SFU divider. -/
  | rem (g : BitVec 4) (d a b : Code)
  /-- R134. Integer minimum at TI. -/
  | min (g : BitVec 4) (d a b : Code)
  /-- R134. Integer maximum at TI. -/
  | max (g : BitVec 4) (d a b : Code)
  /-- R134. Bitwise and. -/
  | and (g : BitVec 4) (d a b : Code)
  /-- R134. Bitwise and with an immediate. -/
  | andi (g : BitVec 4) (d a i : Code)
  /-- R134. Bitwise or. -/
  | or (g : BitVec 4) (d a b : Code)
  /-- R134. Bitwise or with an immediate. -/
  | ori (g : BitVec 4) (d a i : Code)
  /-- R134. Bitwise exclusive or. -/
  | xor (g : BitVec 4) (d a b : Code)
  /-- R134. Bitwise exclusive or with an immediate. -/
  | xori (g : BitVec 4) (d a i : Code)
  /-- R133. Logical shift left by a register count. -/
  | shl (g : BitVec 4) (d a b : Code)
  /-- R133. Logical shift left by an immediate count. -/
  | shli (g : BitVec 4) (d a i : Code)
  /-- R133. Logical shift right by a register count. -/
  | shr (g : BitVec 4) (d a b : Code)
  /-- R133. Logical shift right by an immediate count. -/
  | shri (g : BitVec 4) (d a i : Code)
  /-- R133. Arithmetic shift right by a register count. -/
  | sar (g : BitVec 4) (d a b : Code)
  /-- R133. Arithmetic shift right by an immediate count. -/
  | sari (g : BitVec 4) (d a i : Code)
  /-- R133. Rotate left by a register count. -/
  | rot (g : BitVec 4) (d a b : Code)
  /-- R139. Integer negation. -/
  | neg (g : BitVec 4) (d a : Code)
  /-- R139. Integer absolute value. -/
  | abs (g : BitVec 4) (d a : Code)
  /-- R139. Bitwise complement. -/
  | not (g : BitVec 4) (d a : Code)
  /-- R139. Population count. -/
  | popc (g : BitVec 4) (d a : Code)
  /-- R139. Count leading zeros. -/
  | clz (g : BitVec 4) (d a : Code)
  /-- R139. Count trailing zeros. -/
  | ctz (g : BitVec 4) (d a : Code)
  /-- R139. Bit reverse. -/
  | brev (g : BitVec 4) (d a : Code)
  /-- R139. Byte reverse. -/
  | bswap (g : BitVec 4) (d a : Code)
  /-- R135. Extracts a bit field. -/
  | bfx (g : BitVec 4) (d a b : Code)
  /-- R135. Inserts a bit field into the old destination. -/
  | bfi (g : BitVec 4) (d a b : Code)
  /-- R136. 32-bit add with carry in and carry out through a pair. -/
  | addc (g : BitVec 4) (d a b : Code)
  /-- R137. Computes a pair address plus a scaled index. -/
  | lea (g : BitVec 4) (d a b : Code)
  /-- R137. Copies a register or pair unchanged. -/
  | mov (g : BitVec 4) (d a b : Code)
  /-- R137. Writes an immediate at TI. -/
  | movi (g : BitVec 4) (d a i : Code)
  /-- R138. Accumulates absolute differences into the destination. -/
  | sad (g : BitVec 4) (d a b : Code)
  /-- R145. Float add at TF. -/
  | fadd (g : BitVec 4) (d a b : Code)
  /-- R145. Float subtract at TF. -/
  | fsub (g : BitVec 4) (d a b : Code)
  /-- R145. Float multiply at TF. -/
  | fmul (g : BitVec 4) (d a b : Code)
  /-- R145. Fused multiply-add with one rounding. -/
  | fma (g : BitVec 4) (d a b : Code)
  /-- R145. Fused negated multiply-add c minus a times b. -/
  | fnma (g : BitVec 4) (d a b : Code)
  /-- R111. IEEE minimumNumber at TF. -/
  | fmin (g : BitVec 4) (d a b : Code)
  /-- R111. IEEE maximumNumber at TF. -/
  | fmax (g : BitVec 4) (d a b : Code)
  /-- R145. Float add of an immediate. -/
  | faddi (g : BitVec 4) (d a i : Code)
  /-- R145. Float multiply by an immediate. -/
  | fmuli (g : BitVec 4) (d a i : Code)
  /-- R141. Two-element dot product plus accumulator with one rounding. -/
  | fdot2 (g : BitVec 4) (d a b : Code)
  /-- R142. Scales a float by a power of two. -/
  | fscl (g : BitVec 4) (d a b : Code)
  /-- R143. Negates a float pattern. -/
  | fneg (g : BitVec 4) (d a : Code)
  /-- R143. Clears the sign of a float pattern. -/
  | fabs (g : BitVec 4) (d a : Code)
  /-- R144. Rounds to an integral value, nearest even. -/
  | frndRne (g : BitVec 4) (d a : Code)
  /-- R144. Rounds to an integral value towards zero. -/
  | frndRtz (g : BitVec 4) (d a : Code)
  /-- R144. Rounds to an integral value downwards. -/
  | frndRdn (g : BitVec 4) (d a : Code)
  /-- R144. Rounds to an integral value upwards. -/
  | frndRup (g : BitVec 4) (d a : Code)
  /-- R146. Converts from TC to the destination type named in f7. -/
  | cvt (g : BitVec 4) (d a c : Code)
  /-- R147. Correctly rounded reciprocal. -/
  | frcp (g : BitVec 4) (d a : Code)
  /-- R147. Correctly rounded reciprocal square root. -/
  | frsq (g : BitVec 4) (d a : Code)
  /-- R147. Correctly rounded square root. -/
  | fsqrt (g : BitVec 4) (d a : Code)
  /-- R147. Table-interpolated base-2 exponential. -/
  | fexp2 (g : BitVec 4) (d a : Code)
  /-- R147. Table-interpolated base-2 logarithm. -/
  | flog2 (g : BitVec 4) (d a : Code)
  /-- R147. Table-interpolated sine in turns. -/
  | fsin (g : BitVec 4) (d a : Code)
  /-- R147. Table-interpolated cosine in turns. -/
  | fcos (g : BitVec 4) (d a : Code)
  /-- R147. Table-interpolated hyperbolic tangent. -/
  | ftanh (g : BitVec 4) (d a : Code)
  /-- R148. Correctly rounded float division. -/
  | fdiv (g : BitVec 4) (d a b : Code)
  /-- R149. Keyed counter hash to a 32-bit pattern. -/
  | rndh (g : BitVec 4) (d a b : Code)
  /-- R150. Scrambled bit-reversal radical inverse. -/
  | rndq (g : BitVec 4) (d a b : Code)
  /-- R153. Reads another lane's value by a lane index. -/
  | shfl (g : BitVec 4) (d a b : Code)
  /-- R153. Reads another lane's value by xor, up, down or rotate mode. -/
  | shfx (g : BitVec 4) (d a i : Code)
  /-- R155. Reduces a over the qualifying fibres in tree or fold order. -/
  | wred (g : BitVec 4) (d a : Code) (o : BitVec 4) (ord r0 : BitVec 1)
  /-- R156. Inclusive or exclusive scan over the qualifying fibres. -/
  | wscan (g : BitVec 4) (d a : Code) (o : BitVec 4) (ord ex r0 : BitVec 1)
  /-- R157. Fold-order inclusive scan of affine pairs. -/
  | wscana (g : BitVec 4) (d a b : Code)
  /-- R154. Broadcasts one lane's value to all qualifying fibres. -/
  | rdl (g : BitVec 4) (d a b : Code)
  /-- R154. Writes the lowest fibre's value into one lane of d. -/
  | wrl (g : BitVec 4) (d a b : Code)
  /-- R169. Queues a request for more register units for the warp. -/
  | salloc (g : BitVec 4) (d a i : Code)
  /-- R170. Gives back the top register units of the warp. -/
  | sfree (g : BitVec 4) (d a i : Code)
  /-- R195. Looks up a scratchpad tag and returns a status. -/
  | tlook (g : BitVec 4) (d a b : Code)
  /-- R196. Installs or updates a scratchpad tag entry. -/
  | tset (g : BitVec 4) (d a b : Code)
  /-- R197. Removes the block's scratchpad tag. -/
  | tinv (g : BitVec 4) (d a b : Code)
  /-- R200. Loads a word per fibre from the block's scratchpad. -/
  | lds (g : BitVec 4) (d a : Code) (rd ps : BitVec 2) (o : BitVec 3)
  /-- R200. Stores a word per fibre to the block's scratchpad. -/
  | sts (g : BitVec 4) (d a : Code) (rd ps : BitVec 2) (o : BitVec 3)
  /-- R201. Writes the low half of a row's content name. -/
  | vnmLo (g : BitVec 4) (d a : Code)
  /-- R201. Writes the high half of a row's content name. -/
  | vnmHi (g : BitVec 4) (d a : Code)
  /-- R202. Sets each fibre's register window base. -/
  | wbase (g : BitVec 4) (d a i : Code)
  /-- R249. Loads a byte, zero-extended. -/
  | ldb (g : BitVec 4) (d a : Code) (rd ps : BitVec 2) (o : BitVec 3)
  /-- R249. Loads a half word, zero-extended. -/
  | ldh (g : BitVec 4) (d a : Code) (rd ps : BitVec 2) (o : BitVec 3)
  /-- R249. Loads a word. -/
  | ldw (g : BitVec 4) (d a : Code) (rd ps : BitVec 2) (o : BitVec 3)
  /-- R249. Loads a double word into a pair. -/
  | ldd (g : BitVec 4) (d a : Code) (rd ps : BitVec 2) (o : BitVec 3)
  /-- R249. Loads 16 bytes into a quad. -/
  | ldq (g : BitVec 4) (d a : Code) (rd ps : BitVec 2) (o : BitVec 3)
  /-- R249. Loads a byte, sign-extended. -/
  | ldbs (g : BitVec 4) (d a : Code) (rd ps : BitVec 2) (o : BitVec 3)
  /-- R249. Loads a half word, sign-extended. -/
  | ldhs (g : BitVec 4) (d a : Code) (rd ps : BitVec 2) (o : BitVec 3)
  /-- R249. Stores a byte. -/
  | stb (g : BitVec 4) (d a : Code) (rd ps : BitVec 2) (o : BitVec 3)
  /-- R249. Stores a half word. -/
  | sth (g : BitVec 4) (d a : Code) (rd ps : BitVec 2) (o : BitVec 3)
  /-- R249. Stores a word. -/
  | stw (g : BitVec 4) (d a : Code) (rd ps : BitVec 2) (o : BitVec 3)
  /-- R249. Stores a pair. -/
  | std (g : BitVec 4) (d a : Code) (rd ps : BitVec 2) (o : BitVec 3)
  /-- R249. Stores a quad. -/
  | stq (g : BitVec 4) (d a : Code) (rd ps : BitVec 2) (o : BitVec 3)
  /-- R251. Atomic read-modify-write at the home slice, returning the old value. -/
  | atom (g : BitVec 4) (d a : Code) (o : BitVec 4) (t : BitVec 3)
  /-- R251. Atomic update at the home slice with no returned value. -/
  | red (g : BitVec 4) (d a : Code) (o : BitVec 4) (t : BitVec 3)
  /-- R251. Atomic compare-and-swap of raw patterns. -/
  | cas (g : BitVec 4) (d a : Code) (t : BitVec 3)
  /-- R254. Atomic amax read-and-reset to zero. -/
  | amxr (g : BitVec 4) (d a : Code) (t : BitVec 3)
  /-- R259. Acquire, release or full fence at core, chip or pod scope. -/
  | fence (g : BitVec 4) (d a : Code) (k sc : BitVec 2)
  /-- R260. Prefetches a line per fibre without faulting. -/
  | prf (g : BitVec 4) (d a : Code) (rd ps : BitVec 2) (o : BitVec 3)
  /-- R261. Writes a dirty line from its home slice to DRAM or host memory. -/
  | cwb (g : BitVec 4) (d a : Code)
  /-- R261. Drops the core's copy and the die replica of a line. -/
  | cinv (g : BitVec 4) (d a : Code)
  /-- R261. As cinv, and marks the line next victim at its home. -/
  | cdrop (g : BitVec 4) (d a : Code)
  /-- R255. Contributes to a reduction line's private partial. -/
  | rdc (g : BitVec 4) (d a : Code) (o : BitVec 4) (t : BitVec 3)
  /-- R296. Copy engine copies L bytes between addresses. -/
  | cp (g : BitVec 4) (d a b : Code)
  /-- R297. Copy engine copies a two-dimensional tile. -/
  | cp2d (g : BitVec 4) (d a b : Code)
  /-- R298. Gathers one element per fibre into a destination buffer. -/
  | gath (g : BitVec 4) (d a b : Code)
  /-- R299. Fills register rows of a warp in the fragment layout. -/
  | cpfr (g : BitVec 4) (d a b : Code)
  /-- R300. Fills a sparsity side-memory slot. -/
  | cpmeta (g : BitVec 4) (d a b : Code)
  /-- R293. Waits until an outstanding-operation counter holds at most n. -/
  | owait (g : BitVec 4) (d a i : Code)
  /-- R303. Initialises a stage ring's slots and arrival target. -/
  | sinit (g : BitVec 4) (d a : Code)
  /-- R303. Arrives on a stage ring slot after a core release fence. -/
  | sarr (g : BitVec 4) (d a : Code)
  /-- R303. Waits until a ring slot's phase differs from p, then acquires. -/
  | swait (g : BitVec 4) (d a : Code)
  /-- R218. Matrix multiply accumulating into a tile. -/
  | mma (g : BitVec 4) (t a b : Code)
  /-- R218. Matrix multiply starting a chain from zero and latching scales. -/
  | mmaz (g : BitVec 4) (t a b : Code)
  /-- R219. Matrix multiply with 2:4 compressed A. -/
  | mmas (g : BitVec 4) (t a b : Code)
  /-- R221. Drains a tile, scaled and converted, into register rows. -/
  | mdrn (g : BitVec 4) (t d : Code) (amx : BitVec 1) (r5 : BitVec 5)
  /-- R222. Drains a tile, scaled and converted, to memory. -/
  | mdrnSt (g : BitVec 4) (t d : Code) (amx : BitVec 1) (r5 : BitVec 5)
  /-- R223. Swaps the warp's MXCFG. -/
  | mcfg (g : BitVec 4) (d a : Code)
  /-- R225. Zeroes selected tile rows and resets scales. -/
  | mzero (g : BitVec 4) (d a : Code)
  /-- R224. Takes ownership of a tile, zeroing it. -/
  | maloc (g : BitVec 4) (d a : Code)
  /-- R224. Releases ownership of a tile. -/
  | mfree (g : BitVec 4) (d a : Code)
  /-- R226. Declares the number of matrix multiplies the warp expects. -/
  | mburst (g : BitVec 4) (d a : Code)
  /-- R225. Copies raw accumulators to register rows. -/
  | mget (g : BitVec 4) (d a : Code)
  /-- R225. Copies register rows into raw accumulators. -/
  | mput (g : BitVec 4) (d a : Code)
  /-- R313. Starts one collective instance from a parameter block. -/
  | coll (g : BitVec 4) (d a : Code)
  /-- R348. One-sided transfer to global memory or a block's scratchpad. -/
  | put (g : BitVec 4) (d a : Code)
  /-- R348. One-sided read from a home chip into global memory or own scratchpad. -/
  | get (g : BitVec 4) (d a : Code)
  /-- R349. Sends one register row to a target block's scratchpad. -/
  | putv (g : BitVec 4) (d a : Code)
  /-- R350. Writes TARGET of an arrival counter record. -/
  | arm (g : BitVec 4) (d a : Code)
  /-- R351. Waits until an arrival counter reaches its target. -/
  | await (g : BitVec 4) (d a : Code)
  /-- R312. Writes the block's rank in a group. -/
  | grank (g : BitVec 4) (d a : Code)
  /-- R312. Writes a group's member count. -/
  | gsize (g : BitVec 4) (d a : Code)
  /-- R325. Sends a chunk into the next free channel slot. -/
  | chput (g : BitVec 4) (d a : Code)
  /-- R325. Receives a chunk from a channel slot and frees it. -/
  | chget (g : BitVec 4) (d a : Code)
  /-- R378. Checks a launch record and posts SUBMIT or writes a refusal. -/
  | submit (g : BitVec 4) (d a : Code)
  /-- R279. Marks fibres triggered after a pod release fence. -/
  | trig (g : BitVec 4) (d a : Code)
  /-- R380. Posts a USER event with a key and 40 data bytes. -/
  | evpost (g : BitVec 4) (d a : Code)
  /-- R381. Waits for a user event with a key and number at least n. -/
  | evwait (g : BitVec 4) (d a : Code)
  /-- R382. Reads a selected value of the local Plate. -/
  | plrd (g : BitVec 4) (d a : Code)
  /-- R393. Raises the user trap with a value. -/
  | trap (g : BitVec 4) (d a : Code)
  /-- R117. Waits for write-back and traps if an enabled float flag is set. -/
  | tfence (g : BitVec 4) (d a : Code)
  /-- R395. Arms the warp's monitor on a line. -/
  | mon (g : BitVec 4) (d a : Code)
  /-- R396. Waits for the monitor to fire or a timeout. -/
  | mwait (g : BitVec 4) (d a : Code)
  /-- R394. Ends a trap handler and resumes at TRAPPC. -/
  | rfe (g : BitVec 4) (d a : Code)
  /-- R397. Reads a system register by selector. -/
  | sysrd (g : BitVec 4) (d a : Code)
  /-- R397. Writes a system register by selector. -/
  | syswr (g : BitVec 4) (d a : Code)
  /-- R397. Sets bits of a system register. -/
  | sysset (g : BitVec 4) (d a : Code)
  /-- R397. Clears bits of a system register. -/
  | sysclr (g : BitVec 4) (d a : Code)
  /-- R429. Pushes a region id on the warp's region stack. -/
  | renter (g : BitVec 4) (d a : Code)
  /-- R429. Pops the region stack. -/
  | rleave (g : BitVec 4) (d a : Code)
  /-- R434. Marks the block's stamp record with time and region context. -/
  | stamp (g : BitVec 4) (d a : Code)
  /-- R431. Breakpoint trap now, or arms or disarms a region stop. -/
  | brk (g : BitVec 4) (d a : Code)
  /-- R401. Removes the oldest fault record of the block's queue and stores it. -/
  | fltrd (g : BitVec 4) (d a : Code)
  /-- R32. Extension prefix word carrying 25 immediate bits. -/
  | ext (p : BitVec 25)
  /-- R44. Advisory scheduling hint prefix word. -/
  | hsch (yld : BitVec 1) (dep : BitVec 4) (vt : BitVec 1) (r : BitVec 19)
  /-- R42. Modifier prefix word carrying SAT, CEN, FRESH and source C. -/
  | hmod (c : Code) (cen fresh sat : BitVec 1) (r : BitVec 15)
  /-- R49. A word of major 0x7F or of an unassigned function code is issued and raises the precise illegal-instruction trap. -/
  | illegalInstruction (w : Word)
  /-- R66. In each selection cycle the port selects one ready gang to issue. Cue: port. -/
  | gangSelection
  /-- R69. After a hatched mismatch both passes run again and compare. Cue: warp, ok (the second pair agreed). -/
  | computeRetry
  /-- R75. When all live fibres arrive at the body end, the gang fuses and COUNT falls. Cue: warp. -/
  | loopIterationEnd
  /-- R168. A reply lands in register rows, clearing pending and setting valid bits. Cue: acc, parts, data (the line), num (its write count), ct (the lease expiry), ok (not racy). -/
  | readReply
  /-- R272. A write acknowledgement with its completion time raises the warp's release points. Cue: acc, ct (the completion time the home returned). -/
  | acknowledge
  /-- R169. The oldest queued register request is granted and rows appended. Cue: core. -/
  | sallocGrant
  /-- R171. A core blocked for allocation evicts the youngest block or faults the requester. Cue: core. -/
  | allocationDeadlock
  /-- R173. An allocation piece is copied to a lower buddy block and remapped in one step. Cue: core. -/
  | burnisherMove
  /-- R187. A bank to be retired is copied entry by entry to a spare. Cue: core, unit (the bank). -/
  | bankEvacuation
  /-- R188. A retirement with no spare withdraws a bank group and shrinks CAPSTORE. Cue: core, unit (the failing bank). -/
  | bankGroupWithdrawal
  /-- R198. Once every input tile tag is resident, the block's warps start. Cue: node. -/
  | taskGateStart
  /-- R218. A queued matrix multiply starts once its cluster holds a power token. Cue: core. -/
  | matrixStart
  /-- R230. Every 8 cycles tokens move one cluster along the die's ring. Cue: die. -/
  | tokenMove
  /-- R230. A cluster that has held a token for 4,000 ns releases it at the next move. Cue: die, unit (the cluster). -/
  | tokenHoldLimit
  /-- R292. A complete engine operation retires in order and its OSC class falls. Cue: warp, cls. -/
  | operationRetire
  /-- R238. A page-table walk completes and its leaf is cached for every requester. Cue: chip, num (the walk's number). -/
  | translationWalk
  /-- R271. The home slice performs a write and returns its completion time. Cue: acc, op. -/
  | write
  /-- R269. The home serves a read and grants a lease on the line. Cue: acc, parts. -/
  | readRequest
  /-- R269. A leased copy becomes invalid when its holder's pod time reaches the expiry. Cue: unit (the holder), line. -/
  | leaseExpiry
  /-- R274. At the switch instant a sync store's new value replaces the old and is acknowledged. Cue: line. -/
  | syncSwitch
  /-- R256. The home collects all partials of a reduction line and combines them in a fixed tree. Cue: line. -/
  | reductionMerge
  /-- R396. An mwait timeout expires and raises the monitor-timeout trap. Cue: warp. -/
  | mwaitTimeout
  /-- R284. After 10,000 ns of staging-budget stall the block commits early. Cue: node. -/
  | stagingEarlyCommit
  /-- R283. A complete block whose FINISH is delivered and predecessors committed drops its undo copies. Cue: node. -/
  | blockCommit
  /-- R285. A failed block and its dependants are restored to undo copies and restarted. Cue: node, num (the failure of R402). -/
  | blockRollback
  /-- R280. The grid's completion record is written once all blocks committed and writes completed. Cue: gid, chip (which writes it). -/
  | completionRecordWrite
  /-- R436. At each proof instant homes write back and mirror proofed lines to their buddy. Cue: chip, num (the proof). -/
  | proof
  /-- R436. A chip whose proof is incomplete at its deadline is fenced. Cue: chip, num (the proof). -/
  | proofDeadline
  /-- R266. A DRAM row pattern spares the row after copying its data. Cue: die, unit (the bank), num (the row). -/
  | dramRowSpare
  /-- R266. An L2 cell pattern retires a way after writing back its dirty line. Cue: die, unit (the slice). -/
  | l2WayRetire
  /-- R335. A data flit is checked and its packets taken from the body. Cue: chip, link, flit. -/
  | dataFlit
  /-- R332. An idle flit is received and carries no packet. Cue: chip, link, flit. -/
  | idleFlit
  /-- R335. An acknowledgement frees flits from the retry buffer. Cue: chip, link, flit. -/
  | acknowledgeFlit
  /-- R335. A negative acknowledgement makes the sender replay from the named flit. Cue: chip, link, flit. -/
  | negativeAcknowledgeFlit
  /-- R334. Announces a new lane map from a named flit sequence. Cue: chip, link, flit. -/
  | laneMapFlit
  /-- R336. Names the first sequence encrypted under the new key slot. Cue: chip, link, flit. -/
  | keyMarkerFlit
  /-- R337. A neighbour's time flit updates offset measurement and slews pod time. Cue: chip, link, flit, ct (the model's clock when it was sent). -/
  | timeFlit
  /-- R337. Every 1 µs each link sends a time flit in each direction. Cue: chip. -/
  | timeFlitSend
  /-- R337. An offset above 8 ns for 1,000,000 ns makes the hub fence the chip. Cue: chip. -/
  | skewFence
  /-- R335. After 8 failed replays a link is retrained, or declared down. Cue: chip, link, ok (retraining succeeded). -/
  | linkRetrain
  /-- R334. A lane passing its error threshold is taken out of service. Cue: chip, link, unit (the lane). -/
  | laneOutOfService
  /-- R334. A retrained lane is handed back to its link. Cue: chip, link, unit (the lane). -/
  | laneReturn
  /-- R335. A packet unacknowledged after 50 µs is resent. Cue: chip, tag. -/
  | packetResend
  /-- R336. The sender switches link keys at request or when the counter reaches 2^40. Cue: chip, link. -/
  | keySwitch
  /-- R345. Transfer data is written at a target block and its counter add made. Cue: acc, parts, data. -/
  | blockWrite
  /-- R339. A dropped speculative packet's source asks for a reservation. Cue: chip, tag. -/
  | dropNotice
  /-- R339. The target hub grants a reservation window. Cue: chip (the target), peer (the source), tag, num (bytes left). -/
  | reservationRequest
  /-- R339. The source records the granted window for its remaining bytes. Cue: chip, tag, ct (the window's start), num (its length). -/
  | reservationGrant
  /-- R339. Within the window the source sends reserved bulk; leftovers go speculative. Cue: chip, tag. -/
  | reservationWindow
  /-- R357. Every 2,000 ns a chip multicasts a heartbeat. Cue: chip. -/
  | heartbeatSend
  /-- R357. A received heartbeat updates horizons and suspect information. Cue: chip, beat. -/
  | heartbeat
  /-- R357. An event record is received, deduplicated and gaps fetched. Cue: chip, event. -/
  | eventReceive
  /-- R356. A queued event or held report is posted when room and permits allow. Cue: chip. -/
  | eventQueuePost
  /-- R356. Every 10 µs one posting permit is added to the bucket. Cue: chip. -/
  | permitRefill
  /-- R366. A delivered SUBMIT creates a grid entry or refuses it. Cue: chip, event. -/
  | submitDelivery
  /-- R366. A delivered FINISH marks rows finished and may complete the grid. Cue: chip, event. -/
  | finishDelivery
  /-- R366. A delivered BLOCKED detaches the block as a pending row of its own. Cue: chip, event. -/
  | blockedDelivery
  /-- R366. A delivered FAULT of KIND 0 faults the grid and its waiting dependants. Cue: chip, event. -/
  | faultGridDelivery
  /-- R437. A delivered FAULT of KIND 1 restores the grid to its last proof and re-places rows. Cue: chip, event. -/
  | faultRollbackDelivery
  /-- R372. A delivered CHIPLOSS marks the chip lost and recovers its rows and memory. Cue: chip, event. -/
  | chiplossDelivery
  /-- R374. A delivered REJOIN makes the chip live with its new incarnation. Cue: chip, event. -/
  | rejoinDelivery
  /-- R366. A delivered CAPACITY updates a core's capacity in the Plate. Cue: chip, event. -/
  | capacityDelivery
  /-- R366. A delivered TRIGGER marks rows triggered. Cue: chip, event. -/
  | triggerDelivery
  /-- R370. A delivered DIGEST is recorded for its span. Cue: chip, event. -/
  | digestDelivery
  /-- R366. A delivered ENERGY starts a new interval with its BUDGET. Cue: chip, event. -/
  | energyDelivery
  /-- R366. A delivered USER event enters its context's user window. Cue: chip, event. -/
  | userDelivery
  /-- R355. A delivered event of a reserved type has no effect. Cue: chip, event. -/
  | reservedEventDelivery
  /-- R360. No message from a live chip for 20,000 ns posts CHIPLOSS and makes it suspect. Cue: chip, peer (the silent chip). -/
  | chipSilence
  /-- R361. A chip without quorum holding an event undelivered for 200,000 ns is fenced. Cue: chip. -/
  | quorumTimeout
  /-- R368. At each interval boundary the lowest live chip posts ENERGY. Cue: chip, num (the interval). -/
  | energyInterval
  /-- R375. A chip posts FINISH when every block of a row is complete. Cue: chip, gid, row. -/
  | finishReport
  /-- R369. A chip posts TRIGGER when every fibre of a row has triggered or ended. Cue: chip, gid, row. -/
  | triggerReport
  /-- R375. The distributor places a block of a placed row on a core. Cue: chip, gid, row, num (the block id). -/
  | blockStart
  /-- R406. A victim warp leaves at its switch point and its image is saved. Cue: warp. -/
  | eviction
  /-- R410. A saved warp or block resumes from its image on a core. Cue: node, core. -/
  | blockResume
  /-- R398. An imprecise fault record is appended to a node's queue and fails the node. Cue: node, record. -/
  | faultRecord
  /-- R374. A rejoining chip's request makes a neighbour send a Plate snapshot and tail. Cue: chip (the neighbour), peer (the rejoining chip). -/
  | snapshotRequest
  /-- R374. A rejoining chip applies the snapshot and tail and posts REJOIN. Cue: chip (rejoining), peer (the neighbour). -/
  | snapshot
  /-- R415. Every 10,000 ns the controller adjusts token counts and rate caps. Cue: chip, num (measured package power, mW). -/
  | energyControllerStep
  /-- R416. Power above 1,400 W sets every token count to 0. Cue: chip. -/
  | powerCeilingTrip
  /-- R416. Power below 1,250 W restores the token counts. Cue: chip. -/
  | powerCeilingRestore
  /-- R417. Junction temperature of 115 °C zeroes tokens and fences the chip. Cue: chip. -/
  | thermalTrip
  /-- R425. At power-up boot ROM checks the firmware signature and version. Cue: chip, firmware. -/
  | secureBoot
  /-- R190. A reset loads repair records and straps and clears volatile state. Cue: chip, repair. -/
  | deviceReset
  /-- R418. Removing power loses all volatile state. Cue: chip. -/
  | powerRemoval
  /-- R419. After boot and repair records the chip begins solo service. Cue: chip. -/
  | soloServiceStart
  /-- R420. With DRAM and links trained the chip enters Joining and holds submissions. Cue: chip. -/
  | joiningStart
  /-- R420. The chip begins full service, forming the pod or by rejoin. Cue: chip. -/
  | fullServiceStart
  /-- R423. Host command 1 checks a launch record and posts SUBMIT. Cue: chip, num (the record's index in the command ring). -/
  | hostSubmit
  /-- R423. Host command 2 drops matching translations on every live chip. Cue: chip, num. -/
  | invalidate
  /-- R405. Host command 3 evicts every warp of a context on the chip. Cue: chip, num. -/
  | preEmpt
  /-- R407. Host command 4 sets a context's save area on the chip. Cue: chip, num. -/
  | saveArea
  /-- R423. Host command 5 copies and removes corrected-error log entries. Cue: chip, num. -/
  | errorLog
  /-- R426. Host command 6 writes a signed attestation report. Cue: chip, num. -/
  | attest
  /-- R427. Host command 7 KIND 0 loads a wrapped page key of a context. Cue: chip, num. -/
  | keyPage
  /-- R427. Host command 7 KIND 1 loads a wrapped sending link key into a slot. Cue: chip, num. -/
  | keyLinkSend
  /-- R427. Host command 7 KIND 2 loads a wrapped receiving link key into a slot. Cue: chip, num. -/
  | keyLinkReceive
  /-- R423. Host command 8 ACTION 0 creates a context on the chip. Cue: chip, num. -/
  | contextCreate
  /-- R423. Host command 8 ACTION 1 destroys a context and its entries. Cue: chip, num. -/
  | contextDestroy
  /-- R236. Host command 9 with V set writes a remap entry and possibly a PTROOT entry. Cue: chip, num. -/
  | homeMap
  /-- R423. Host command 9 with V clear removes a remap entry. Cue: chip, num. -/
  | homeUnmap
  /-- R427. Host command 10 runs X25519 key agreement and returns a signed public key. Cue: chip, num. -/
  | agree
  /-- R423. A command with an unknown OP completes with status 0xFF and no effect. Cue: chip, num. -/
  | unknownCommand
  /-- R423. A write to a register with no row of its own, such as the ring base or size. Cue: chip, unit (the register), num (the value). -/
  | registerWrite
  /-- R422. A host access to device memory is served at the line's home slice. Cue: chip, num (physical address), wr, tag, ct (bytes to read). -/
  | hostHdmAccess
  /-- R421. A host snoop is answered at once, finding no modified device copy. Cue: chip, line. -/
  | hostSnoop
  /-- R272. The issuing chip's pod time reaches a warp's release point for the scope and its waiting fence.rel, fence.full, bar arrival, trig, submit or evpost release wait ends. Cue: warp. -/
  | releasePointReached
  /-- R348. A counted packet's add to its arrival counter is made at the later of the write's performance and CT + 25 ns by the home's clock. Cue: chip (the home), gid, num (the block id), unit (the record's offset), tag (bytes), ct (the time), acc. -/
  | countedPacketAdd
  /-- R422. The completion of a host write to HDM is sent to the host at CT + 25 ns. Cue: chip, tag. -/
  | hostWriteCompletion
  /-- R422. The host's answer to a back-invalidate lets the held device write to that line be performed, with CT counted from the answer. Cue: line. -/
  | backInvalidateAnswer
  /-- R356. A batch of FINISH or TRIGGER reports is posted no later than 20 µs after its first report became due. Cue: chip. -/
  | reportBatchDeadline
  /-- R357. A tree neighbour receives a request for the event records a chip is missing and sends them. Cue: chip (asked), peer (asker), unit (the source), num (first SEQ), ct (last SEQ). -/
  | missingRecordFetch
  /-- R372. Rebuilding of a mirrored page's buddy copy after a change in the live set completes, after which the page is again recoverable as mirrored. Cue: chip, num (the page). -/
  | buddyCopyRebuilt
deriving DecidableEq, Repr

end Sys2Proof
end

