-- ==== Sys2Proof/Machine/State.lean ====
section
/-! DEFINITION. The state of the machine: everything the manual gives a pod of PD-9 chips, as plain data.

A core is numbered chip × 2048 + die × 512 + core, a die chip × 4 + die, a warp node × 32 + its index in its block. A memory
key is space × 2^60 + physical address. Spaces 0 to 511 are the chips' device memory, 512 to 1,023 the host memory behind the
CXL port of chip space - 512, and 1,024 to 1,535 the copy of chip space - 1,024 that a buddy serves after its loss. -/

namespace Sys2Proof.Machine

/-! ## Warps -/

/-- A warp's role (02 R55, 10 R289). -/
inductive Role
  | gen | copy | mtx | vec
deriving DecidableEq, Repr

/-- The fields of an `hmod` word (R42). -/
structure Hmod where
  c : Code := 0
  cen : Bool := false
  fresh : Bool := false
  sat : Bool := false
deriving DecidableEq, Repr

/-- The prefix words a gang has issued of its present group (R31): how many words and where they start, ignored ones included;
the address of the first `hsch` or `hmod` kept; the `ext` payloads in order; the `hmod`; whether an `hsch` stands in the group
and asked to keep the value-table entry; and the warnings that the ignored words set once the instruction completes. -/
structure Pfx where
  words : Nat := 0
  start : Nat := 0
  head : Option Nat := none
  ext : List (BitVec 25) := []
  hmod : Option Hmod := none
  hsch : Bool := false
  vt : Bool := false
  warn : Word := 0
  /-- The part of `warn` that words before the group's first word set: they are not fetched again when the group traps. -/
  lost : Word := 0
deriving DecidableEq, Repr

/-- An open run (R26, R27): its gang, the producers and instructions issued in it, and the latch entries from L0 on, each one
value per lane. -/
structure Run where
  mask : Lanes := 0
  prod : Nat := 0
  count : Nat := 0
  latch : List (List DWord) := []
deriving DecidableEq, Repr

/-- Why a gang cannot issue its next instruction (R65). -/
inductive Reason
  /-- Register rows or scalar registers await a reply (R168). -/
  | regs (rows sregs : List Nat)
  /-- A translation walk is outstanding (R238); `whole` tells an engine instruction's, which holds its warp (R294). -/
  | walk (num : Nat) (whole : Bool := false)
  /-- An earlier access of the warp to the same bytes is outstanding (R249). -/
  | access (ids : List Nat)
  /-- Writes numbered below `before` await acknowledgement, then the release point of the scope (R259, R272). -/
  | release (before scope : Nat) (full : Bool)
  /-- Loads and atomics numbered below `before` await their values (R259). -/
  | loads (before : Nat)
  /-- Another gang's full fence holds the warp's stores (R259). -/
  | fullFence
  /-- Fibres of the warp have arrived at a barrier, whose acquire half holds its loads and atomics (R83, R310). -/
  | barrier
  /-- A queued `salloc` (R169). -/
  | grant
  /-- The class holds more than `n` operations (R292, R293). -/
  | osc (cls : OpClass) (n : Nat)
  /-- `swait` (R303). -/
  | stage (ring slot : Nat) (phase : Bool)
  /-- `sinit` waits for engine arrivals on the ring (R303). -/
  | arrivals (ring : Nat)
  /-- `await` on the counter at a scratchpad offset (R349). -/
  | counter (off : Nat)
  /-- `mwait` (R396). -/
  | monitor
  /-- `evwait` for an event of a key and number (R381). -/
  | event (key n : Nat)
  /-- The staging budget has no room for `n` more lines (R284). -/
  | budget (n : Nat)
  /-- `maloc` waits for a tile to be freed (R224). -/
  | tiles (l : List Nat)
  /-- A multiply of a declared burst waits for a power token of the cluster (R65, R230). -/
  | token
  /-- `submit` or `evpost` waits for room in the event queue (R356). -/
  | post
  /-- What other warps or engines change: it is looked at anew in each selection cycle. -/
  | again
  /-- A happening sets the gang free. -/
  | told
deriving DecidableEq, Repr

/-- Where a gang stands (R65). -/
inductive Wait
  /-- It may issue. -/
  | run
  /-- At `join n` (R73). -/
  | join (n : Nat)
  /-- Arrived at `bar k` (R83). -/
  | bar (k : Nat)
  /-- Arrived at the group barrier of entry g (R84). -/
  | gbar (g : Nat)
  /-- Arrived at the end of the innermost loop iteration (R75). -/
  | loopEnd
  /-- Not ready. -/
  | stall (r : Reason)
deriving DecidableEq, Repr

/-- A gang: its fibres' lanes, their program counter, where it stands, its wait count (R66), whether a trap holds it (R384),
and whether the first half of its present instruction has been waited for (R83, R259, R303). -/
structure Gang where
  mask : Lanes := 0
  pc : Nat := 0
  wait : Wait := .run
  waits : Nat := 0
  held : Bool := false
  half : Bool := false
  pfx : Pfx := {}
deriving DecidableEq, Repr

/-- An architectural register row (R159, R164, R167, R168, R174, R208): the content that reads of it return, its valid lanes,
outstanding replies, matrix instructions that hold it, how often its own row was written, the row of another warp (warp, row)
that its map entry names when it does not name its own, and what its own row then holds. -/
structure RowSt where
  data : Line := 0
  valid : Lanes := 0
  pend : Nat := 0
  hold : Nat := 0
  ver : Nat := 0
  share : Option (Nat × Nat) := none
  own : Line := 0
  /-- Lanes whose word holds a single-bit error, and lanes whose word holds an uncorrectable one (R186, log 100). -/
  soft : Lanes := 0
  bad : Lanes := 0
  /-- The rows of other map entries that name this one: its reference count is one more (R174). -/
  refs : List (Nat × Nat) := []
deriving DecidableEq, Repr

/-- A request of the warp that has not been answered: its number, line, the bytes it touches, and whether it writes. -/
structure Flight where
  id : Nat := 0
  line : Nat := 0
  bytes : BitVec 128 := 0
  write : Bool := false
  load : Bool := false
deriving DecidableEq, Repr

/-- What an engine operation does once its outstanding pieces are done: a channel's or a collective's next part (R313, R325). -/
inductive Job
  /-- Nothing: the operation is complete. -/
  | idle
  /-- `chput`: waits until the slot of sequence n is free, then reads its data. -/
  | credit (n depth word : Nat) (reads : List Cue) (lines : List Place)
  /-- `chput`: writes the slot's lines. -/
  | fill (n : Nat) (lines : List Place)
  /-- `chget`: waits until every line of the slot holds sequence n, then copies. -/
  | flags (n : Nat) (lines : List Nat) (reads : List Cue) (credit : Place)
  /-- Writes bytes at places, one after another. -/
  | writes (l : List (Place × List Byte))
  /-- `coll`: the member's data has arrived. -/
  | gather (gid group inst : Nat)
  /-- `coll`: waits for every member. -/
  | meet (gid group inst : Nat)
  /-- `coll` with ALG 3: waits for every member's contributions, then merges. -/
  | merge (gid group inst : Nat)
deriving DecidableEq, Repr

/-- An engine operation (R291). -/
structure EngOp where
  id : Nat := 0
  cls : OpClass := .copy
  /-- Pieces not yet acknowledged or landed; the operation is complete at 0 (R292). -/
  left : Nat := 0
  /-- The arrival word's ring and slot when ARV is set (R294). -/
  arv : Option (Nat × Nat) := none
  /-- Where it writes, as (key, length): writes of one warp to a byte are performed in issue order (R301). -/
  dst : List (Nat × Nat) := []
  /-- Bytes read for a collective or a channel (R313, R325). -/
  buf : List Host.Cell := []
  /-- The flags it raised, set at retirement (R116). -/
  fl : BitVec 8 := 0
  /-- The greatest completion time its writes returned (R278). -/
  ct : Nat := 0
  /-- The lines that it read and wrote, with their counts of writes then: at retirement they count as accesses of the warp's own
  (R278). -/
  seen : List (Nat × Nat) := []
  /-- Whether it writes a scratchpad (R305). -/
  scr : Bool := false
  /-- The tile of a matrix instruction (R224). -/
  tile : Option Nat := none
  /-- Bulk data of an operation of more than 512 bytes (R338): 1 in what it writes, 2 in what it is answered, 3 in both. -/
  bulk : Nat := 0
  /-- The request that its writes copy, the descriptor's key plus 1 of a channel operation, and what it does next. -/
  acc : Access := {}
  desc : Nat := 0
  job : Job := .idle
deriving DecidableEq, Repr

/-- The kinds of matrix work that join the engine's queue (R218, R220, R225). -/
inductive MatKind
  | mma | mmaz | mmas | mdrn | mdrnSt | mzero | mget | mput
deriving DecidableEq, Repr

/-- A queued matrix instruction with what it read at issue (R206, R208): MXCFG, FSTAT.RM, SAT, its operand rows, the first row of
its destination, and for a store the places of each 64 bytes. -/
structure MatOp where
  id : Nat := 0
  kind : MatKind := .mma
  warp : Nat := 0
  tile : Nat := 0
  q : Lanes := 0
  cfg : Word := 0
  rm : Nat := 0
  sat : Bool := false
  amx : Bool := false
  /-- The first row of each operand, which is held; the destination's, for results. -/
  a : Nat := 0
  b : Nat := 0
  opA : List Line := []
  opB : List Line := []
  places : List Place := []
  va : Nat := 0
  pc : Nat := 0
  /-- For each run, the tile rows in which the engine and its check disagree (R220, R229, log 100). -/
  upset : List (List Nat) := []
deriving DecidableEq, Repr

/-- A queued `salloc` (R169). -/
structure Sreq where
  stamp : Nat := 0
  /-- Its grid: of two grids with one STAMP the one delivered first is the older (R10). -/
  gid : Nat := 0
  bid : Nat := 0
  warp : Nat := 0
  units : Nat := 0
  /-- The destination code, the lanes that receive the count, and the gang's lanes. -/
  d : Code := 0
  q : Lanes := 0
  mask : Lanes := 0
deriving DecidableEq, Repr

/-- One warp, resident or in its image (03, 14 R408). -/
structure Warp where
  node : Nat := 0
  idx : Nat := 0
  core : Nat := 0
  port : Nat := 0
  /-- Its warp slot in the port (R14, R66). -/
  slot : Nat := 0
  resident : Bool := true
  role : Role := .gen
  gangs : List Gang := []
  preds : Vector Word 32 := vecOf 32 fun _ => 1
  bases : Vector Nat 32 := vecOf 32 fun _ => 0
  live : Lanes := BitVec.allOnes 32
  triggered : Lanes := 0
  rows : List RowSt := []
  /-- The count of writes that a row granted from now on begins with: above that of every row released (R179). -/
  rowVer : Nat := 0
  sregs : Vector Word 16 := vecOf 16 fun _ => 0
  spend : Vector Nat 16 := vecOf 16 fun _ => 0
  ti : Nat := 0x08
  tf : Nat := 0x00
  tc : Nat := 0x00
  run : Option Run := none
  rj : Vector Lanes 4 := vecOf 4 fun _ => 0
  loops : Vector DWord 3 := vecOf 3 fun _ => 0
  warn : Word := 0
  fstat : Word := 0
  subrpl : Word := 0
  reuse : Word := 0
  collide : Word := 0
  pold : Word := 0x000FFF40
  mxcfg : Word := 0x7F00FF00
  burst : Nat := 0
  ops : List EngOp := []
  flights : List Flight := []
  /-- Requests numbered below `acq` hold back later loads and stores, those below `sacq` later stores (R259, R275). -/
  acq : Nat := 0
  sacq : Nat := 0
  relChip : Nat := 0
  relPod : Nat := 0
  trapvec : DWord := 0
  trappc : DWord := 0
  trapaddr : DWord := 0
  trapcause : Word := 0
  trapops : Vector DWord 257 := vecOf 257 fun _ => 0
  trapMask : Option Lanes := none
  tokwait : Nat := 0
  resumes : Nat := 0
  intrap : Bool := false
  regions : List (BitVec 16) := []
  rovf : Bool := false
  runf : Bool := false
  stop : Option (BitVec 16 × BitVec 16) := none
  monitor : Option (Nat × Bool) := none
  /-- The address that `mon` named, for the monitor-timeout trap. -/
  monVa : Nat := 0
  deadline : Option Nat := none
  enwarp : Nat := 0
  /-- What its last instruction was charged: a re-execution is charged the same again (R412). -/
  lastCost : Nat := 0
  /-- Matrix instructions that an image holds, queued and not started (R233). -/
  queued : List MatOp := []
  /-- Lane by lane: the register replies of requests numbered below are of an ended fibre, and are discarded (R81). -/
  forgot : Vector Nat 32 := vecOf 32 fun _ => 0
  /-- A queued `salloc` that an image holds (R408). -/
  request : Option Sreq := none
deriving DecidableEq, Repr

/-! ## Blocks -/

/-- An accumulator tile (R205): accumulators row by row, scales, and the owning warp's index. -/
structure Tile where
  acc : List Word := List.replicate 256 0
  sa : List Nat := List.replicate 16 127
  sb : List Nat := List.replicate 16 127
  owner : Option Nat := none
  /-- Accumulators (0 to 255), row scales (from 256) and column scales (from 272) that hold a single-bit error, and an uncorrectable
  one (log 100). -/
  soft : List Nat := []
  bad : List Nat := []
deriving DecidableEq, Repr

/-- A stage ring (R302): slots, arrival target, phase and count of each slot. -/
structure Ring where
  s : Nat := 0
  e : Nat := 1
  ph : List Bool := List.replicate 16 false
  cnt : List Nat := List.replicate 16 0
deriving DecidableEq, Repr

/-- The stamp record a run of a block is filling (R433, R434): pod times of its happenings, cycles waited for operands, and the
region context of its last `stamp`. -/
structure Stamp where
  start : Option Nat := none
  fill : Option Nat := none
  mfirst : Option Nat := none
  mlast : Option Nat := none
  out : Option Nat := none
  mark : Option Nat := none
  opwait : Nat := 0
  region : Nat := 0
  rdepth : Nat := 0
deriving DecidableEq, Repr

/-- A task-gate fill of one input tile (R198): its index, its tag entry when installed, pieces left, and whether it landed. -/
structure GateTile where
  idx : Nat := 0
  entry : Option Nat := none
  left : Nat := 0
  done : Bool := false
deriving DecidableEq, Repr

/-- Where a block's node stands in its life. -/
inductive NodeState
  /-- It waits for a core (R375). -/
  | queued
  /-- Its task gate is filling (R198). -/
  | gated
  /-- Its warps run, or wait. -/
  | running
  /-- Off its core with its image saved (R408). -/
  | saved
  /-- Every warp has ended (R82). -/
  | ended
  /-- Committed (R283). -/
  | committed
  /-- Stopped by an unhandled trap, rolled back or discarded (R285, R390). -/
  | dead
deriving DecidableEq, Repr

/-- One node: a run of a block (R10, R281). -/
structure Block where
  node : Nat := 0
  gid : Nat := 0
  ctx : Nat := 0
  row : Nat := 0
  bid : Nat := 0
  gen : Nat := 0
  chip : Nat := 0
  core : Nat := 0
  cid : Nat := 0
  st : NodeState := .running
  scratch : List Host.Cell := []
  scratchSize : Nat := 0
  /-- Words of the scratchpad that hold a single-bit error, and an uncorrectable one (R186, log 100). -/
  scrSoft : List Nat := []
  scrBad : List Nat := []
  /-- Group barrier episodes this node has arrived at, by group (R310). -/
  episodes : Tab Nat := []
  /-- (group, rank) pairs of the block (R307). -/
  groups : List (Nat × Nat) := []
  /-- Instances of each group's collectives issued (R313). -/
  collCount : Tab Nat := []
  ntiles : Nat := 0
  tiles : List Tile := []
  /-- Side-memory bytes: slot × 2048 + offset (R203). -/
  slots : List Host.Cell := []
  rings : List Ring := List.replicate 8 {}
  /-- The lines that it has staged, or whose staged write is under way: its undo copies (R281, R284). -/
  staged : List Nat := []
  budget : Nat := 16
  /-- Pod time since which a write has stalled on the budget (R284). -/
  stallSince : Option Nat := none
  norev : Bool := false
  finished : Bool := false
  deps : List Nat := []
  faults : List FaultRec := []
  faultOvf : Bool := false
  failures : Nat := 0
  enblk : Nat := 0
  stamp : Stamp := {}
  gate : List GateTile := []
  exitcp : Bool := false
  /-- Its eviction or over-capacity fault has begun (R191, R405). -/
  leaving : Bool := false
  /-- The greatest completion time of its writes (R280). -/
  lastCt : Nat := 0
  /-- Off its core: its tag entries, as (tag, slot, pending) (R192, R408). -/
  savedTags : List (DWord × Nat × Bool) := []
deriving DecidableEq, Repr

/-! ## Cores and dies -/

/-- An allocation piece (R161): the warp key or node that owns it, whether it is scratchpad, its order in units and its base
row. -/
structure Piece where
  owner : Nat := 0
  scr : Bool := false
  order : Nat := 0
  base : Nat := 0
deriving DecidableEq, Repr

/-- One item of a value-table source key (R178): a content name, or a value with its kind: 96 for every s register, else the special
code that supplied it. -/
inductive KeyItem
  | name (n : BitVec 64)
  | val (kind : Nat) (v : DWord)
deriving DecidableEq, Repr

/-- A value-table key (R178). -/
structure VKey where
  op : Nat := 0
  f7 : Nat := 0
  ti : Nat := 0
  tf : Nat := 0
  tc : Nat := 0
  imm : Nat := 0
  /-- The chain's length, which is X's width with `imm`. -/
  exts : Nat := 0
  rm : Nat := 0
  sat : Bool := false
  cen : Bool := false
  srcs : List KeyItem := []
  q : Lanes := 0
  old : List (BitVec 64 × Lanes) := []
deriving DecidableEq, Repr

/-- A value-table entry (R176): source rows as (warp, row, times written), result rows, flags, a load's lines. -/
structure VEntry where
  key : VKey := {}
  ctx : Nat := 0
  srcs : List (Nat × Nat × Nat) := []
  res : List (Nat × Nat) := []
  fl : BitVec 8 := 0
  lines : List Nat := []
  keep : Bool := false
deriving DecidableEq, Repr

/-- A scratchpad tag entry (R194); `use` grows with recency. -/
structure TagEntry where
  tag : DWord := 0
  slot : Nat := 0
  pending : Bool := false
  node : Nat := 0
  use : Nat := 0
deriving DecidableEq, Repr

/-- A read copy of a line (R242, R269): its bytes, its lease's expiry, the home's write count it carries, the racy writer's
node and time when it was granted racily (R277), and its re-reference value (R246). A copy that is not live only keeps the
write count that later copies must not fall below (R276). -/
structure Copy where
  data : Line := 0
  exp : Nat := 0
  ver : Nat := 0
  live : Bool := true
  racy : Bool := false
  rv : Nat := 0
  /-- The stores that updated it in place and are not acknowledged, as (request, node) (R242, R276, R282). -/
  stores : List (Nat × Nat) := []
deriving DecidableEq, Repr

/-- One core (06, 07, 08). -/
structure Core where
  wdr : Bool := false
  spare : Nat := 4
  retired : Nat := 0
  kib : Nat := 512
  pieces : List Piece := []
  sallocQ : List Sreq := []
  /-- Value-table entries, the most recently hit or inserted first. -/
  vtab : List VEntry := []
  /-- Load entries to be made once the replies of the named requests have landed (R180). -/
  vpend : List (List Nat × VEntry) := []
  tags : Tab TagEntry := []
  /-- Physical banks of logical banks, where not their own number, and the spare banks (R159, R187). -/
  bankMap : Tab Nat := []
  spares : List Nat := [64, 65, 66, 67]
  /-- Banks awaiting evacuation, in arrival order, and entries moved of the first (R187). -/
  evac : List Nat := []
  moved : Nat := 0
  copies : Tab Copy := []
  mq : List MatOp := []
  mcount : Nat := 0
  /-- Loop-buffer bodies, (start, words), the most recently entered first: a body is entered where an iteration of it begins
  (R76). -/
  loopBuf : List (Nat × Nat) := []
deriving DecidableEq, Repr

/-- A prediction-table entry (R404): unit, place and pattern counts. -/
structure PEntry where
  unit : Nat := 0
  core : Nat := 0
  place : Nat := 0
  index : Nat := 0
  col : Nat := 0
  sym : Nat := 0
  time : Nat := 0
  count : Nat := 0
deriving DecidableEq, Repr

/-- A power token on a ring (R230): its position, whether the cluster holds it and since when. -/
structure Token where
  pos : Nat := 0
  held : Option Nat := none
deriving DecidableEq, Repr

/-- One die (07, 08, 14, 15). -/
structure Die where
  tokenCount : Nat := 0
  tokens : List Token := []
  /-- Clusters whose hold has reached the limit: they release at the next move (R230). -/
  limited : List Nat := []
  l2Retired : Nat := 0
  horizon : Nat := 0
  /-- Writes performed by each slice (R438). -/
  writes : Tab Nat := []
  /-- Replicas of lines in the die's slices (R243). -/
  replicas : Tab Copy := []
  predict : List PEntry := []
  dramCap : Nat := 100
  fabricCap : Nat := 100
  rowsSpared : Tab Nat := []
  waysRetired : Tab Nat := []
  /-- The retired ways, as (slice, way) (R266). -/
  waysOut : List (Nat × Nat) := []
deriving DecidableEq, Repr

/-! ## Memory at its homes -/

/-- A write of a line that waits for its switch instant (R274). -/
structure SyncWrite where
  due : Nat := 0
  ct : Nat := 0
  /-- The message that brought it. -/
  cue : Cue := {}
deriving DecidableEq, Repr

/-- What a home keeps of a line (R246, R262, R270, R271, R274, R277, R281). -/
structure HomeLine where
  h : Nat := 0
  ver : Nat := 0
  /-- (node, the line's count of writes and the line before its first write), in the order of first writes (R281). -/
  undo : List (Nat × Nat × Line) := []
  /-- Contributors in the reduction state, none outside it (R255). -/
  red : Option (List Nat) := none
  sync : Option SyncWrite := none
  /-- Poisoned 64-byte sectors, and those of them whose error was the L2's (R262). -/
  poison : List Nat := []
  fromL2 : List Nat := []
  /-- Sectors of an encrypted page whose integrity tag fails (R264). -/
  violated : List Nat := []
  /-- A correctable error in DRAM: its symbol (R262, R404). -/
  soft : Option Nat := none
  /-- What the L2 holds wrong of the line: the place of a single-bit error, and the sectors with an uncorrectable one (R262, log
  100). -/
  l2soft : Option Nat := none
  l2bad : List Nat := []
  /-- Recent writes as (their nodes, completion time, bytes), for racy reads (R277): a merge is one write of every contributor. -/
  recent : List (List Nat × Nat × BitVec 128) := []
  /-- The way of its L2 set that holds it, its re-reference value there, and whether DRAM awaits it (R241, R246). -/
  way : Option Nat := none
  rv : Nat := 4
  dirty : Bool := false
  /-- The host holds a copy, and a back-invalidate for it is out (R422). -/
  hostHeld : Bool := false
  backInv : Bool := false
  /-- Writes that wait for the switch instant or for the host's answer, in arrival order (R274, R422). -/
  waiting : List Cue := []
  /-- Written since the last proof (R436). -/
  touched : Bool := false
deriving DecidableEq, Repr

/-- A warp's partial of a reduction line (R255): its kind, one value for each element contributed to. -/
structure Partial where
  line : Nat := 0
  warp : Nat := 0
  node : Nat := 0
  bid : Nat := 0
  idx : Nat := 0
  op : Nat := 0
  ty : Nat := 0
  /-- The page's REC code (R236), and the request that told the home of it (R273). -/
  rc : Nat := 0
  join : Nat := 0
  elems : Tab DWord := []
  /-- Merged already, as the write of the line with this number, and retained until its block commits (R258). -/
  merged : Option Nat := none
deriving DecidableEq, Repr

/-! ## Grids -/

/-- One entry of a grid's group table, as read at submit (R307). -/
structure Group where
  co : Bool := false
  members : List Nat := []
deriving DecidableEq, Repr

/-- One member's part in an instance of a collective (R313, R321): its parameter block, the data read at SRC, its send counts,
where its results go, and how far it is. -/
structure CollMem where
  node : Nat := 0
  bid : Nat := 0
  rank : Nat := 0
  warp : Nat := 0
  op : Nat := 0
  pars : List Byte := []
  data : List Host.Cell := []
  cnts : List Nat := []
  dst : List (Place × Nat) := []
  rcnt : List (Place × Nat) := []
  crec : List (Place × Nat) := []
  ready : Bool := false
  given : Bool := false
  done : Bool := false
deriving DecidableEq, Repr

/-- An instance of a collective on a group of a grid, kept until every member has committed (R313, R321). -/
structure Coll where
  gid : Nat := 0
  group : Nat := 0
  inst : Nat := 0
  mem : List CollMem := []
deriving DecidableEq, Repr

/-- An input tile of the kernel descriptor (R198). -/
structure InTile where
  base : Nat := 0
  stride : Int := 0
  len : Nat := 0
  soff : Nat := 0
  policy : Word := 0
  tagb : DWord := 0
deriving DecidableEq, Repr

/-- What every chip that runs blocks of a grid reads from its image and kernel descriptor (02 R56, 13 R363, R364), and what
the grid accumulates. -/
structure GridRun where
  gid : Nat := 0
  ctx : Nat := 0
  /-- The launch pod time; of two grids with one STAMP the lower GID is the older (R10). -/
  stamp : Nat := 0
  nblk : Nat := 0
  det : Bool := false
  resume : Bool := false
  code : Nat := 0
  codelen : Nat := 0
  regs : Nat := 32
  scratch : Nat := 0
  tiles : Nat := 0
  energy : Nat := 0
  stage : List Nat := []
  /-- (role, entry offset) of each warp of a block. -/
  warps : List (Role × Nat) := []
  inputs : List InTile := []
  groups : Tab Group := []
  args : Nat := 0
  arglen : Nat := 0
  budget : Nat := 16
  fstat0 : Option Word := none
  pold0 : Option Word := none
  mxcfg0 : Option Word := none
  /-- Address of the completion record, and what it reports (R365). -/
  comp : Nat := 0
  warn : Word := 0
  lastCt : Nat := 0
  energyUsed : Nat := 0
  /-- Barrier episodes released by group (R310, R311). -/
  released : Tab Nat := []
  /-- Stamp ring and order-log addresses and sizes (R432 to R438). -/
  debug : Nat := 0
deriving DecidableEq, Repr

/-! ## Chips and the pod -/

/-- A cached leaf (R238): context, virtual home, the page's first byte and size, and the leaf's word. -/
structure TlbEntry where
  ctx : Nat := 0
  home : Nat := 0
  base : Nat := 0
  size : Nat := 0
  leaf : DWord := 0
deriving DecidableEq, Repr

/-- An outstanding walk (R238). -/
structure Walk where
  num : Nat := 0
  ctx : Nat := 0
  home : Nat := 0
  off : Nat := 0
deriving DecidableEq, Repr

/-! ### The Plate (R362, R370) -/

/-- A grid's state in the Plate (R362). -/
inductive GState
  | waiting | eligible | running | complete | faulted | refused
deriving DecidableEq, Repr

/-- An entry of the Grid table: its image (R364), state, poster, and CAUSE once faulted. -/
structure PGrid where
  gid : Nat := 0
  ctx : Nat := 0
  image : List Byte := []
  st : GState := .waiting
  poster : Nat := 0
  origin : Nat := 0
  /-- STAMP of its SUBMIT: the launch pod time (R10). -/
  stamp : Nat := 0
  nextRow : Nat := 0
  cause : Nat := 0
  /-- Pod time of its first placement, once placed (R437). -/
  placed : Option Nat := none
  /-- The last proof it was rolled back to (R402), and how often it was. -/
  rolled : Option Nat := none
  runs : Nat := 0
  /-- The chip that writes its completion record (R366). -/
  writer : Nat := 0
deriving DecidableEq, Repr

/-- A row's state (R362). -/
inductive RState
  | pending | placed | finished
deriving DecidableEq, Repr

/-- An entry of the Row table. -/
structure PRow where
  gid : Nat := 0
  row : Nat := 0
  first : Nat := 0
  count : Nat := 0
  st : RState := .pending
  chip : Nat := 0
  gen : Nat := 0
  excl : Option Nat := none
  res : Bool := false
  triggered : Bool := false
  /-- The order in which rows were placed. -/
  order : Nat := 0
deriving DecidableEq, Repr

/-- An entry of the Gang table. -/
structure PGang where
  gid : Nat := 0
  first : Nat := 0
  last : Nat := 0
  group : Option Nat := none
deriving DecidableEq, Repr

/-- A chip's state in the Plate. -/
inductive CState
  | live | fenced | lost | absent
deriving DecidableEq, Repr

/-- An entry of the Chip table; a core that `caps` does not list has 8 units of 64 KiB. -/
structure PChip where
  st : CState := .live
  inc : Nat := 1
  group : Nat := 0
  pos : Nat := 0
  out : Nat := 0
  caps : Tab Nat := []
  /-- Delivery STAMP of its fencing or loss (R374). -/
  since : Nat := 0
deriving DecidableEq, Repr

/-- A user event in its context's window (R362, R381). -/
structure PUser where
  ctx : Nat := 0
  num : Nat := 0
  key : Nat := 0
  data : List Byte := []
deriving DecidableEq, Repr

/-- A span that has ended and is not judged yet (R370, R371): STAMP of its last event, the chips then live, their digests. -/
structure PSpan where
  num : Nat := 0
  stamp : Nat := 0
  live : List Nat := []
  votes : List (Nat × List Byte) := []
deriving DecidableEq, Repr

/-- The Plate: the same at every chip after the same delivery index (R362). -/
structure Plate where
  index : Nat := 0
  /-- What the machine's numbers of a chip's local grids exceed their GIDs by; 0 in a pod (R419, log 26: DESIGN CHOICE). -/
  base : Nat := 0
  nextGid : Nat := 1
  grids : Tab PGrid := []
  rows : List PRow := []
  gangs : List PGang := []
  chips : Tab PChip := []
  interval : Nat := 0
  budget : Nat := 0
  committed : Nat := 0
  users : List PUser := []
  userNum : Tab Nat := []
  /-- Delivered events other than DIGEST, and the bytes of the span under way (R370). -/
  count : Nat := 0
  span : List Byte := []
  /-- The decision records of the span under way (R370). -/
  decs : List Byte := []
  spans : List PSpan := []
  /-- Grids that completed, faulted or were refused, in that order (R362). -/
  ended : List Nat := []
  placings : Nat := 0
deriving DecidableEq, Repr

/-- What a chip knows of a source of events (R357 to R360): the highest SEQ held without gaps, that event's STAMP, its latest
heartbeat, when it was last heard, the HORIZON and suspects of its latest heartbeat, and the STAMP of the earliest undelivered
CHIPLOSS for it that the chip holds. -/
structure SrcInfo where
  /-- The incarnation it is of. -/
  inc : Nat := 0
  upto : Nat := 0
  evStamp : Nat := 0
  beatStamp : Nat := 0
  beatSeq : Nat := 0
  heard : Nat := 0
  horizon : Nat := 0
  reports : List (Nat × Nat) := []
  suspect : Option Nat := none
  /-- Heartbeats whose events are not all held yet, as (SEQ, STAMP), and the greatest STAMP of one whose events are (R358). -/
  beats : List (Nat × Nat) := []
  full : Nat := 0
  /-- The chip has posted CHIPLOSS for it since it was last heard (R360). -/
  posted : Bool := false
  /-- Pod time at which the chip delivered its loss or fencing (R374). -/
  lostAt : Nat := 0
deriving DecidableEq, Repr

/-- A report that a hub has yet to post, or batches (R356). -/
structure Batch where
  type : Nat := 1
  gid : Nat := 0
  ctx : Nat := 0
  first : Nat := 0
  count : Nat := 0
  /-- Pod time at which its first report fell due. -/
  since : Nat := 0
deriving DecidableEq, Repr

/-- The power states (R418). -/
inductive Power
  | off | solo | joining | full | fenced
deriving DecidableEq, Repr

/-! ### Links (R331 to R337) -/

/-- A key of a link direction, with its invocation counter (R336). -/
structure LinkKey where
  id : Nat := 0
  key : BitVec 256 := 0
  counter : Nat := 0
deriving DecidableEq, Repr

/-- One direction's keys: two slots, the slot in use, the first sequence of a switch to the other slot, and whether the other slot
holds a key that flits awaiting acknowledgement were sent under (R336). -/
structure DirKeys where
  slot0 : Option LinkKey := none
  slot1 : Option LinkKey := none
  cur : Nat := 0
  switch : Option Nat := none
  old : Bool := false
deriving DecidableEq, Repr

/-- Where a link stands (R331, R335). -/
inductive LinkState
  | training | up | down
deriving DecidableEq, Repr

/-- A flit that takes a link sequence, as it waits to be sent: its type, its class, the tag of its packet, and its BODY; the sequence
that a lane map or a key marker names is set when it is sent (R332, R334, R336). -/
structure Outgoing where
  type : Nat := 0
  cls : Nat := 0
  tag : Nat := 0
  body : List Byte := []
deriving DecidableEq, Repr

/-- One end of a link (R331 to R336). -/
structure Link where
  st : LinkState := .training
  lanes : List Nat := [0]
  /-- A lane map announced by this end from a sequence that it sends on, and one announced by its peer from a sequence that it
  receives on (R334). -/
  newMap : Option (Nat × List Nat) := none
  rxMap : Option (Nat × List Nat) := none
  next : Nat := 0
  retry : List Flit := []
  /-- Flits that wait for room in the retry buffer, oldest first. -/
  queue : List Outgoing := []
  fails : Nat := 0
  expect : Nat := 0
  /-- Packet bytes received of a packet not yet whole. -/
  body : List Byte := []
  tx : DirKeys := {}
  rx : DirKeys := {}
  /-- Failures of authentication since the last that passed. -/
  authFails : Nat := 0
deriving DecidableEq, Repr

/-- A packet that the source hub keeps until it is acknowledged (R335), with what a drop of it began (R339). -/
structure Packet where
  tag : Nat := 0
  /-- Its target has taken it, and what it was answered: a copy that comes again is answered again and has no other effect. -/
  taken : Bool := false
  answers : List (Instr × Cue) := []
  /-- A hop has dropped it, and it waits for its operation's window (R339). -/
  waits : Bool := false
  dst : Nat := 0
  sent : Nat := 0
  resends : Nat := 0
  left : Nat := 0
  /-- A granted window: start and length (R339). -/
  window : Option (Nat × Nat) := none
  node : Nat := 0
  warp : Nat := 0
  va : Nat := 0
  pc : Nat := 0
  /-- The message it carries. -/
  ev : Instr := .write
  cue : Cue := {}
deriving DecidableEq, Repr

/-! ### Proofs (R436, R437) -/

/-- A proof that a buddy holds for a home chip: its lines and the grid undos mirrored with it. -/
structure ProofCopy where
  home : Nat := 0
  num : Nat := 0
  lines : Tab Line := []
  undos : List (Nat × Nat × Line) := []
deriving DecidableEq, Repr

/-- The pod configuration record (R414, R436). -/
structure PodCfg where
  chips : List Nat := [0]
  len : Nat := 10000
  plan : Tab Nat := []
  idle : Tab Nat := []
  t : Nat := 1
deriving DecidableEq, Repr

/-- A snapshot under way to a rejoining chip (R343, R374): the Plate, the key of the last delivered event, the events then held,
the neighbour's pod time and its chip remap table. -/
structure Snap where
  plate : Plate := {}
  lastKey : Nat × Nat := (0, 0)
  events : List Event := []
  time : Nat := 0
  remap : List (Nat × Nat × Nat) := []
deriving DecidableEq, Repr

/-- One chip: its hub and what its host and firmware set up. -/
structure Chip where
  /-- Its copy of pod time is the model's clock plus this (R268, R337). -/
  offset : Int := 0
  /-- Measured offsets of the neighbours by link, since when the median has been out of bounds, and whether the copy has been
  set (R337). -/
  nbr : Tab Int := []
  skewSince : Option Nat := none
  tskew : Bool := false
  timeSet : Bool := false
  /-- Pod time of the last slew, and what is still to be slewed of it (R337). -/
  slewAt : Nat := 0
  slew : Int := 0
  /-- Ingress windows granted, as (start, length) (R339). -/
  ingress : List (Nat × Nat) := []
  num : Nat := 0
  group : Nat := 0
  pos : Nat := 0
  inc : Nat := 0
  incdrop : Nat := 0
  power : Power := .off
  /-- The hub has fenced the chip (R373). -/
  fenced : Bool := false
  fwOk : Bool := false
  fwFailed : Bool := false
  fwMin : Nat := 0
  fwDigest : BitVec 512 := 0
  repairDigest : BitVec 512 := 0
  repaired : Bool := false
  /-- The repair records and straps that a reset loads (R190, R267, R327). -/
  repairs : Repair := {}
  tlb : List TlbEntry := []
  walks : List Walk := []
  contexts : List Nat := []
  /-- (context, virtual home, root table's address) (R236). -/
  ptroot : List (Nat × Nat × Nat) := []
  /-- (context, virtual home, space) (R235, R343). -/
  remap : List (Nat × Nat × Nat) := []
  /-- (context, virtual core id, core) and (context, virtual route id, path) (R343). -/
  coreRemap : List (Nat × Nat × Nat) := []
  routeRemap : List (Nat × Nat × Nat) := []
  /-- Save areas, as (context, device physical address, bytes) (R407, R423). -/
  saves : List (Nat × Nat × Nat) := []
  /-- Events queued for posting, the hub's held reports, batches, permits, last STAMP and SEQ (R354, R356). -/
  evq : List Event := []
  heldReports : List Event := []
  batches : List Batch := []
  /-- Rows that FINISH (type 1) or TRIGGER (type 7) has been reported of, as (type, grid, row, generation). -/
  reported : List (Nat × Nat × Nat × Nat) := []
  permits : Nat := 64
  /-- Pod time of the next permit (R356). -/
  refill : Nat := 0
  /-- Its Plate is a copy of the pod's, not the local one of solo service (R419). -/
  inPod : Bool := false
  lastStamp : Nat := 0
  seq : Nat := 0
  /-- Events received, kept until every live chip's HORIZON has passed them; those with `index` at or below are delivered. -/
  events : List Event := []
  /-- The key (STAMP, SRC) of the last delivered event. -/
  lastKey : Nat × Nat := (0, 0)
  /-- Pod time of the last delivery, and since when an event has been held undelivered (R361). -/
  heldSince : Option Nat := none
  src : Tab SrcInfo := []
  /-- Heartbeats sent (R357), and the spans that its hub judges itself (R373). -/
  beats : Nat := 0
  hubSpans : List PSpan := []
  plate : Plate := {}
  links : Tab Link := []
  packets : List Packet := []
  snap : Option Snap := none
  errlog : List (DWord × Nat) := []
  ringBase : Nat := 0
  ringSize : Nat := 0
  ringNext : Nat := 0
  doorbell : Nat := 0
  /-- Records of the ring still to be taken (R423). -/
  ringTodo : Nat := 0
  /-- Warps that a Pre-empt waits for, with their counts of resumptions when it began (R423). -/
  preempt : Option (List (Nat × Nat)) := none
  /-- Answers given to the host at the CXL port, oldest first: a tag and bytes (R421, R422). -/
  toHost : List (Nat × List Byte) := []
  /-- Host submissions held until full service (R420, R424). -/
  heldSubmits : List Nat := []
  wrapKey : Option (BitVec 256) := none
  /-- (context, key id, key) (R427). -/
  pageKeys : List (Nat × Nat × BitVec 256) := []
  enCtx : Tab Nat := []
  /-- Measured and modelled energy, whose ratio the controller records (R415). -/
  measured : Nat := 0
  modelled : Nat := 0
  tripped : Bool := false
  /-- Token counts to be restored after a power trip (R416). -/
  tokenSave : Tab Nat := []
  proofs : List ProofCopy := []
  /-- (grid, line, value before the grid's first write, number of the next proof then) (R436). -/
  gridUndo : List (Nat × Nat × Line × Nat) := []
  /-- Proofs of this chip that its buddy has acknowledged, as (number, pod time). -/
  proofDone : List (Nat × Nat) := []
  /-- Buddy copies of mirrored pages that are being rebuilt, by page address (R372). -/
  rebuilding : List Nat := []
deriving DecidableEq, Repr

/-- A happening under way: how many steps it still takes, the row it is, and its message (log 2: DESIGN CHOICE). -/
structure Due where
  wait : Nat := 0
  /-- Flits that carry it are still under way, so that it is not due (R332). -/
  held : Bool := false
  ev : Instr
  cue : Cue := {}
deriving DecidableEq, Repr

/-- The pod. -/
structure State where
  /-- The model's clock, in ns; each chip's pod time is this plus its offset. -/
  now : Nat := 0
  mem : List Host.Cell := []
  lines : Tab HomeLine := []
  partials : List Partial := []
  cores : Tab Core := []
  dies : Tab Die := []
  blocks : Tab Block := []
  warps : Tab Warp := []
  grids : Tab GridRun := []
  /-- Launch states read at submit, until the SUBMIT is delivered. -/
  drafts : Tab GridRun := []
  chips : Tab Chip := []
  /-- (lost chip, the buddy that serves its mirrored pages from its copy) (R372). -/
  mirrors : Tab Nat := []
  /-- (lost chip, its PTROOT entries), for the walks of its copy. -/
  copyRoots : Tab (List (Nat × Nat × Nat)) := []
  /-- Chips that have stopped and whose loss is not delivered yet: their copies stand as they were when they stopped. -/
  ghosts : List Nat := []
  /-- The pod configuration record (R414). -/
  cfg : PodCfg := {}
  colls : List Coll := []
  /-- The delivery index below which what deliveries do at the homes has been done: the first chip to deliver an event does it
  (log 24: DESIGN CHOICE). -/
  homesAt : Nat := 0
  /-- What the loss of a chip touched, as (delivery index, chip, (context, REC code) pairs) (R372). -/
  losses : List (Nat × Nat × List (Nat × Nat)) := []
  nextNode : Nat := 1
  /-- Happenings under way, in the order they arose. -/
  agenda : List Due := []
  /-- The message of the step being taken. -/
  cue : Cue := {}
  /-- The counter of free values and of request numbers (log 3: DESIGN CHOICE). -/
  fresh : Nat := 0
  /-- The gang that is issuing a group, by its warp and lanes. -/
  issuing : Option (Nat × Lanes) := none
  /-- The port whose selection cycle comes next (core × 4 + port). -/
  turn : Nat := 0
  /-- The last step took a happening, so that this one is a selection cycle's. -/
  took : Bool := false
  /-- The port (core × 4 + port) whose selection cycle goes on: the gang that it took could not issue, so was not ready (R65). -/
  reselect : Option Nat := none
deriving DecidableEq, Repr

/-- Why a run of the model stops at a fault. -/
inductive Fault
  /-- A page table, descriptor or buffer lies at a physical address that the device does not have (R237): raised by no
  instruction of the present model, safe. -/
  | noSuchAddress (pa : Nat)
deriving DecidableEq, Repr

/-- Why an instruction has no meaning here. -/
inductive Refusal
  /-- Raised by a row of the opcode table that the model does not give a meaning; safe. -/
  | notModelled (mnemonic : String)
deriving DecidableEq, Repr

/-- The machine right after reset: nothing resident, chip 0 alone (log 4: DESIGN CHOICE). -/
def State.reset : State := { chips := [(0, {})] }

end Sys2Proof.Machine
end

