-- ==== Sys2Proof/Machine/Flags.lean ====
section
/-! DEFINITION. WARN and FSTAT: which bits an instruction sets (02 R50, R51; 04 R112 to R116). -/

namespace Sys2Proof.Machine

/-! ## WARN (R51) -/

def wGRD : Word := 0x001
def wDST : Word := 0x002
def wPAIR : Word := 0x004
def wEXT : Word := 0x008
def wIMM : Word := 0x010
def wTYP : Word := 0x020
def wMOD : Word := 0x040
def wRSV : Word := 0x080
def wPOLX : Word := 0x100
def wNDET : Word := 0x200
def wEXITCP : Word := 0x400

/-- A warning if a condition holds. -/
def warnIf (b : Bool) (x : Word) : Word := if b then x else 0

/-- WARN bits are sticky (R51). -/
def Warp.addWarn (w : Warp) (x : Word) : Warp := { w with warn := w.warn ||| x }

/-! ## FSTAT (R115) -/

/-- FSTAT.RM (R102). -/
def Warp.rm (w : Warp) : Nat := (w.fstat.extractLsb' 24 2).toNat

/-- The rounding mode an instruction reads at issue (R102). -/
def Warp.mode (w : Warp) : Mode := modeOf w.rm

/-- Flags are sticky: hardware only sets them (R116). -/
def Warp.addFlags (w : Warp) (f : Flags) : Warp := { w with fstat := w.fstat ||| f.setWidth 32 }

/-- The enabled flags that are set (R117). -/
def Warp.trapping (w : Warp) : Flags := w.fstat.extractLsb' 0 8 &&& w.fstat.extractLsb' 16 8

/-- The bits of FSTAT that software may write, and those it clears by writing one (R115). -/
def fstatRw : Word := 0x03FF0000
def fstatW1c : Word := 0x000000FF

/-- A subnormal replay (R112, R114). -/
def Warp.addReplay (w : Warp) (b : Bool) : Warp := { w with subrpl := if b then w.subrpl + 1 else w.subrpl }

end Sys2Proof.Machine
end

