-- ==== Sys2Proof/Machine/Ops.lean ====
section
/-! DEFINITION. The shared operations: lookups and updates, bytes and lines, register rows, gangs, taking a trap and returning
from one, and the frame within which every instruction word issues. -/

namespace Sys2Proof.Machine

/-! ## Bytes and lines -/

/-- Lane `j`'s word of a row (R159). -/
def laneWord (l : Line) (j : Nat) : Word := l.extractLsb' (32 * j) 32

/-- A row with lane `j`'s word replaced. -/
def setLaneWord (l : Line) (j : Nat) (x : Word) : Line :=
  (l &&& ~~~((BitVec.allOnes 32).setWidth 1024 <<< (32 * j))) ||| (x.setWidth 1024 <<< (32 * j))

/-- Byte `k` of a line. -/
def lineByte (l : Line) (k : Nat) : Byte := l.extractLsb' (8 * k) 8

/-- A line with byte `k` replaced. -/
def setLineByte (l : Line) (k : Nat) (x : Byte) : Line :=
  (l &&& ~~~((BitVec.allOnes 8).setWidth 1024 <<< (8 * k))) ||| (x.setWidth 1024 <<< (8 * k))

/-- The bytes of a line from `off`, ascending. -/
def lineBytes (l : Line) (off len : Nat) : List Byte := (List.range len).map fun i => lineByte l (off + i)

/-- A line with bytes put in from `off` on. -/
def putLineBytes (l : Line) (off : Nat) : List Byte → Line
  | [] => l
  | b :: r => putLineBytes (setLineByte l off b) (off + 1) r

/-- The number that bytes hold, lowest first (R3). -/
def leNat : List Byte → Nat
  | [] => 0
  | b :: r => b.toNat + 256 * leNat r

/-- The low `n` bytes of a number, lowest first. -/
def leBytes : Nat → Nat → List Byte
  | 0, _ => []
  | n + 1, x => BitVec.ofNat 8 x :: leBytes n (x / 256)

/-- The low `n` bytes of a 64-bit value. -/
def dwBytes (n : Nat) (x : DWord) : List Byte := leBytes n x.toNat

/-! ## Sparse bytes: memory and scratchpads in one canonical form

An unlisted byte reads 0 (log 1: DESIGN CHOICE for memory, R166 for a scratchpad). The list rises strictly by key and holds no zero byte. -/

/-- The byte at a key. -/
def memGet : List Host.Cell → Nat → Byte
  | [], _ => 0
  | (j, b) :: r, k => if j = k then b else if k < j then 0 else memGet r k

/-- The list with byte `b` at key `k`, still canonical. -/
def memSet : List Host.Cell → Nat → Byte → List Host.Cell
  | [], k, b => if b = 0 then [] else [(k, b)]
  | (j, x) :: r, k, b =>
    if k < j then (if b = 0 then (j, x) :: r else (k, b) :: (j, x) :: r)
    else if k = j then (if b = 0 then r else (k, b) :: r)
    else (j, x) :: memSet r k b

/-- Bytes put at consecutive keys. -/
def memPut (m : List Host.Cell) (k : Nat) : List Byte → List Host.Cell
  | [] => m
  | b :: r => memPut (memSet m k b) (k + 1) r

/-- Consecutive bytes. -/
def memBytes (m : List Host.Cell) (k : Nat) : Nat → List Byte
  | 0 => []
  | n + 1 => memGet m k :: memBytes m (k + 1) n

/-- The canonical form: keys rise strictly from `lo`, and no listed byte is 0. -/
def memFrom : Nat → List Host.Cell → Bool
  | _, [] => true
  | lo, (j, b) :: r => decide (lo ≤ j) && decide (b ≠ 0) && memFrom (j + 1) r

/-- The canonical form of a memory. -/
abbrev Memory.wf (m : List Host.Cell) : Prop := memFrom 0 m = true

/-! ## Lookups and updates -/

def State.warp? (s : State) (k : Nat) : Option Warp := tabLook s.warps k
def State.block? (s : State) (k : Nat) : Option Block := tabLook s.blocks k
def State.grid? (s : State) (k : Nat) : Option GridRun := tabLook s.grids k
def State.core (s : State) (k : Nat) : Core := (tabLook s.cores k).getD {}
def State.die (s : State) (k : Nat) : Die := (tabLook s.dies k).getD {}
def State.chip (s : State) (k : Nat) : Chip := (tabLook s.chips k).getD {}
def State.line (s : State) (k : Nat) : HomeLine := (tabLook s.lines k).getD {}

def State.setWarp (s : State) (k : Nat) (w : Warp) : State := { s with warps := tabPut s.warps k w }
def State.setBlock (s : State) (k : Nat) (b : Block) : State := { s with blocks := tabPut s.blocks k b }
def State.setCore (s : State) (k : Nat) (c : Core) : State := { s with cores := tabPut s.cores k c }
def State.setDie (s : State) (k : Nat) (d : Die) : State := { s with dies := tabPut s.dies k d }
def State.setChip (s : State) (k : Nat) (c : Chip) : State := { s with chips := tabPut s.chips k c }
def State.setLine (s : State) (k : Nat) (l : HomeLine) : State := { s with lines := tabPut s.lines k l }
def State.setGrid (s : State) (k : Nat) (g : GridRun) : State := { s with grids := tabPut s.grids k g }

def State.modWarp (s : State) (k : Nat) (f : Warp → Warp) : State := { s with warps := tabUpd s.warps k f }
def State.modBlock (s : State) (k : Nat) (f : Block → Block) : State := { s with blocks := tabUpd s.blocks k f }
def State.modCore (s : State) (k : Nat) (f : Core → Core) : State := s.setCore k (f (s.core k))
def State.modDie (s : State) (k : Nat) (f : Die → Die) : State := s.setDie k (f (s.die k))
def State.modChip (s : State) (k : Nat) (f : Chip → Chip) : State := s.setChip k (f (s.chip k))
def State.modLine (s : State) (k : Nat) (f : HomeLine → HomeLine) : State := s.setLine k (f (s.line k))
def State.modGrid (s : State) (k : Nat) (f : GridRun → GridRun) : State := { s with grids := tabUpd s.grids k f }

/-- The chip and the die of a core number. -/
def chipOfCore (core : Nat) : Nat := core / 2048
def dieOfCore (core : Nat) : Nat := core / 512

/-- The cluster of a core within its die (R4). -/
def clusterOf (core : Nat) : Nat := core % 512 / 8

/-- Whether a core's cluster holds a token (R230). -/
def State.powered (s : State) (core : Nat) : Bool :=
  (s.die (dieOfCore core)).tokens.any fun t => decide (t.pos = clusterOf core) && t.held.isSome

/-- R268: a chip in full service stands within 10 ns of every other that is. -/
def inStep (t : Tab Chip) (x : Nat) : Bool :=
  match tabLook t x with
  | none => true
  | some c =>
    let counts := fun (c : Chip) => c.inPod && !c.fenced && decide (c.power = .full)
    !counts c || t.all fun y => !counts y.2 || decide ((y.2.offset - c.offset).natAbs ≤ 10)

/-- A number not used before in the run. -/
def State.number (s : State) : Nat := s.fresh
def State.counted (s : State) : State := { s with fresh := s.fresh + 1 }

/-- Pod time as a chip's copy reads it (R268). -/
def State.podTime (s : State) (chip : Nat) : Nat := ((s.now : Int) + (s.chip chip).offset).toNat

/-- Puts a happening under way; how long it takes is a free value (log 2: DESIGN CHOICE). -/
def State.send (s : State) (ev : Instr) (cue : Cue) : State :=
  { s with agenda := s.agenda ++ [{ wait := Config.latency s.fresh, ev := ev, cue := cue }], fresh := s.fresh + 1 }

/-- Whether a happening of a kind with a cue is under way already. -/
def State.awaits (s : State) (ev : Instr) (cue : Cue) : Bool := s.agenda.any fun d => decide (d.ev = ev) && decide (d.cue = cue)

/-- Puts a happening under way unless it is. -/
def State.sendOnce (s : State) (ev : Instr) (cue : Cue) : State := if s.awaits ev cue then s else s.send ev cue

/-- The memory of a line as 128 bytes. -/
def State.lineData (s : State) (line : Nat) : Line := putLineBytes 0 0 (memBytes s.mem (128 * line) 128)

/-- Stores a whole line. -/
def State.setLineData (s : State) (line : Nat) (l : Line) : State :=
  { s with mem := memPut s.mem (128 * line) (lineBytes l 0 128) }

/-! ## Register rows (R164, R167, R168, R182) -/

/-- An architectural row of a warp; one outside the allocation is a fresh row. -/
def Warp.row (w : Warp) (r : Nat) : RowSt := w.rows.getD r {}

/-- A row with lanes written, their valid bits set. -/
def RowSt.put (x : RowSt) (lanes : Lanes) (v : Nat → Word) : RowSt :=
  { x with
    data := (lanesOf lanes).foldl (fun l j => setLaneWord l j (v j)) x.data
    valid := x.valid ||| lanes
    soft := x.soft &&& ~~~lanes
    bad := x.bad &&& ~~~lanes
    ver := x.ver + 1
    share := none
    refs := [] }

/-- A row with lanes' valid bits cleared and their words zeroed (R167). -/
def RowSt.clear (x : RowSt) (lanes : Lanes) : RowSt :=
  { x with
    data := (lanesOf lanes).foldl (fun l j => setLaneWord l j 0) x.data
    valid := x.valid &&& ~~~lanes
    soft := x.soft &&& ~~~lanes
    bad := x.bad &&& ~~~lanes
    ver := x.ver + 1
    share := none
    refs := [] }

/-- A warp with one row replaced. -/
def Warp.setRow (w : Warp) (r : Nat) (x : RowSt) : Warp := { w with rows := w.rows.set r x }

/-- R182, steps 1 and 2, for row `r` of warp `k`: its map entry names its own row, every other entry that named it names its
own, and the value-table entries with it as a result row die. A row that content is copied into is written; what reads return
does not change. -/
def State.unshare (s : State) (k r : Nat) : State :=
  match s.warp? k with
  | none => s
  | some w =>
    let x := w.row r
    let s := match x.share with
      | some (k', r') => s.modWarp k' fun v => v.setRow r' { v.row r' with refs := (v.row r').refs.filter (· ≠ (k, r)) }
      | none => s
    let s := x.refs.foldl (fun s p => s.modWarp p.1 fun v => v.setRow p.2 { v.row p.2 with share := none, ver := (v.row p.2).ver + 1 }) s
    let s := s.modWarp k fun v => v.setRow r
      { v.row r with share := none, refs := [], ver := (v.row r).ver + (if x.share.isSome then 1 else 0) }
    let c := s.core w.core
    if c.vtab.any fun e => e.res.contains (k, r) then
      s.setCore w.core { c with vtab := c.vtab.filter fun e => !e.res.contains (k, r) }
    else s

/-- A write to row `r` of warp `k`, of any origin (R182). A row outside the allocation is dropped (R305). -/
def State.writeRow (s : State) (k r : Nat) (lanes : Lanes) (v : Nat → Word) : State :=
  if lanes = 0 then s else (s.unshare k r).modWarp k fun w => w.setRow r ((w.row r).put lanes v)

/-- Clears lanes of row `r` of warp `k` (R80, R81). -/
def State.clearRow (s : State) (k r : Nat) (lanes : Lanes) : State :=
  (s.unshare k r).modWarp k fun w => w.setRow r ((w.row r).clear lanes)

/-- Clears lanes of every row of a warp. -/
def State.clearLanes (s : State) (k : Nat) (lanes : Lanes) : State :=
  match s.warp? k with
  | none => s
  | some w => (List.range w.rows.length).foldl (fun s r => s.clearRow k r lanes) s

/-- A row awaits one more reply, or one less. -/
def State.pendRow (s : State) (k r : Nat) (up : Bool) : State :=
  s.modWarp k fun w =>
    let x := w.row r
    w.setRow r { x with pend := if up then x.pend + 1 else x.pend - 1 }

/-- A scalar register awaits one more reply, or one less. -/
def State.pendSreg (s : State) (k c : Nat) (up : Bool) : State :=
  s.modWarp k fun w =>
    let n := vecAt w.spend c 0
    { w with spend := vecPut w.spend c (if up then n + 1 else n - 1) }

/-- A scalar register of a warp. -/
def Warp.sreg (w : Warp) (c : Nat) : Word := vecAt w.sregs c 0

/-- A write of a scalar register. -/
def State.writeSreg (s : State) (k c : Nat) (x : Word) : State := s.modWarp k fun w => { w with sregs := vecPut w.sregs c x }

/-! ## Predicates, bases, loops (R71, R74, R202) -/

/-- Fibre `j`'s predicate word; p0 reads 1. -/
def Warp.pred (w : Warp) (j : Nat) : Word := vecAt w.preds j 1 ||| 1

/-- Fibre `j`'s predicate `n`. -/
def Warp.predBit (w : Warp) (j n : Nat) : Bool := (w.pred j).getLsbD n

/-- Fibre `j`'s window base. -/
def Warp.base (w : Warp) (j : Nat) : Nat := vecAt w.bases j 0

/-- LEN, START, COUNT and BRK of a loop level (R74). -/
def loopLen (x : DWord) : Nat := (x.extractLsb' 51 12).toNat
def loopStart (x : DWord) : Nat := (x.extractLsb' 32 19).toNat
def loopCount (x : DWord) : Nat := (x.extractLsb' 0 32).toNat
def loopBrk (x : DWord) : Bool := x.getLsbD 63

/-- A loop register from its fields. -/
def loopOf (brk : Bool) (len start count : Nat) : DWord :=
  BitVec.ofNat 64 ((if brk then 2 ^ 63 else 0) + len % 4096 * 2 ^ 51 + start % 2 ^ 19 * 2 ^ 32 + count % 2 ^ 32)

/-- How many loop levels are in use: they are always 0 up to some level (R74). -/
def Warp.loopDepth (w : Warp) : Nat := (w.loops.toList.takeWhile fun x => decide (loopLen x ≠ 0)).length

/-- The innermost level in use. -/
def Warp.innerLoop (w : Warp) : Option (Nat × DWord) :=
  match w.loopDepth with
  | 0 => none
  | n + 1 => some (n, vecAt w.loops n 0)

/-- The code base of a warp's kernel (R74). -/
def State.codeBase (s : State) (w : Warp) : Nat :=
  match s.block? w.node with
  | some b => ((s.grid? b.gid).map GridRun.code).getD 0
  | none => 0

/-- The address at which a level's iteration ends (R75). -/
def loopEndPc (code : Nat) (x : DWord) : Nat := code + 4 * (loopStart x + loopLen x)

/-! ## Gangs (R61 to R63) -/

/-- The gang of a warp whose lanes are `m`. -/
def Warp.gang? (w : Warp) (m : Lanes) : Option Gang := w.gangs.find? fun g => decide (g.mask = m)

/-- A warp with the gang of lanes `m` changed. -/
def Warp.modGang (w : Warp) (m : Lanes) (f : Gang → Gang) : Warp :=
  { w with gangs := w.gangs.map fun g => if g.mask = m then f g else g }

/-- Adds a lane to the gang that continues at `pc`, or begins one. -/
def addToGang (pc j : Nat) : List Gang → List Gang
  | [] => [{ mask := laneBit j, pc := pc }]
  | g :: r => if g.pc = pc then { g with mask := g.mask ||| laneBit j } :: r else g :: addToGang pc j r

/-- Lanes grouped by the address at which each continues, in ascending order (R62, R63). -/
def groupBy (next : Nat → Nat) (lanes : List Nat) : List Gang := lanes.foldl (fun l j => addToGang (next j) j l) []

/-- A warp whose gang of lanes `m` splits by next address (R62). -/
def Warp.split (w : Warp) (m : Lanes) (next : Nat → Nat) : Warp :=
  { w with gangs := w.gangs.filter (fun g => decide (g.mask ≠ m)) ++ groupBy next (lanesOf m) }

/-- Takes fibres out of their gangs; a gang left empty is gone. -/
def Warp.dropFibres (w : Warp) (m : Lanes) : Warp :=
  { w with gangs := (w.gangs.map fun g => { g with mask := g.mask &&& ~~~m }).filter fun g => decide (g.mask ≠ 0) }

/-- Fuses the gangs a test picks, grouping their fibres by the address at which each continues (R63). -/
def Warp.fuse (w : Warp) (sel : Gang → Bool) : Warp :=
  let took := w.gangs.filter sel
  let pcOf := fun j => ((took.find? fun g => inSet g.mask j).map Gang.pc).getD 0
  let lanes := allLanes.filter fun j => took.any fun g => inSet g.mask j
  { w with gangs := w.gangs.filter (fun g => !sel g) ++ groupBy pcOf lanes }

/-- The lanes of the gangs that a test picks. -/
def Warp.lanesWhere (w : Warp) (sel : Gang → Bool) : Lanes := (w.gangs.filter sel).foldl (fun m g => m ||| g.mask) 0

/-- A gang that reaches the innermost body end waits there (R75); a run it had open is over, since the gang is formed anew when
the iteration ends (log 5: DEDUCED). -/
def arriveLoop (code : Nat) (w : Warp) : Warp :=
  match w.innerLoop with
  | none => w
  | some (_, x) =>
    let here := fun (g : Gang) => decide (g.wait = .run) && decide (g.pfx.words = 0) && decide (g.pc = loopEndPc code x)
    { w with
      run := w.run.filter fun r => !(w.gangs.any fun g => here g && decide (g.mask = r.mask))
      gangs := w.gangs.map fun g => if here g then { g with wait := .loopEnd } else g }

/-! ## Runs and latches (R26 to R30) -/

/-- Closes a warp's open run. -/
def Warp.closeRun (w : Warp) : Warp := { w with run := none }

/-- The TRAPOPS contents for an open run, or for none (R389). -/
def trapOpsOf (old : Vector DWord 257) : Option Run → Vector DWord 257
  | none => vecPut old 0 0
  | some r =>
    let h : DWord := BitVec.ofNat 64 (r.prod % 32 + 2 ^ 8 + (min r.count 15) * 2 ^ 16)
    vecOf 257 fun i => if i = 0 then h else (r.latch.getD ((i - 1) / 32) []).getD ((i - 1) % 32) 0

/-- The run that `rfe` restores from TRAPOPS (R389). -/
def runOfTrapOps (m : Lanes) (ops : Vector DWord 257) : Option Run :=
  let h := (vecAt ops 0 0).toNat
  if h / 2 ^ 8 % 2 = 0 then none
  else some
    { mask := m, prod := h % 32, count := min (h / 2 ^ 16 % 32) 15
      latch := (List.range 8).map fun e => (List.range 32).map fun l => vecAt ops (1 + 32 * e + l) 0 }

/-- Pushes a latch entry (R26). -/
def Run.push (r : Run) (e : List DWord) : Run := { r with prod := min (r.prod + 1) 16, latch := (e :: r.latch).take 8 }

/-! ## Traps (R384 to R391) -/

/-- The precise trap causes of R388. -/
inductive Cause
  | illegal | misalignedFetch | latchLost | invalidReg | regRange | role | tile | loopState | group | stage
  | addrForm | translation | permission | alignment | window | scratch | copyParam | collParam | sysreg
  | arith | user | monTimeout | brk
deriving DecidableEq, Repr

/-- CODE of a cause. -/
def Cause.code : Cause → Nat
  | .illegal => 0x01
  | .misalignedFetch => 0x02
  | .latchLost => 0x03
  | .invalidReg => 0x04
  | .regRange => 0x05
  | .role => 0x06
  | .tile => 0x07
  | .loopState => 0x08
  | .group => 0x09
  | .stage => 0x0A
  | .addrForm => 0x10
  | .translation => 0x11
  | .permission => 0x12
  | .alignment => 0x13
  | .window => 0x14
  | .scratch => 0x15
  | .copyParam => 0x16
  | .collParam => 0x17
  | .sysreg => 0x18
  | .arith => 0x20
  | .user => 0x21
  | .monTimeout => 0x22
  | .brk => 0x23

/-- Whether TRAPPC names the instruction after the group (R388). -/
def Cause.after : Cause → Bool
  | .user | .monTimeout | .brk => true
  | _ => false

/-- A trap to be taken: its cause, the access kind SUB, the lowest lane in which it was found, and TRAPADDR. -/
structure Trap where
  cause : Cause
  sub : Nat := 0
  lane : Nat := 0
  addr : Nat := 0
deriving DecidableEq, Repr

/-- TRAPCAUSE (R387). -/
def trapCauseOf (t : Trap) (glen : Nat) : Word :=
  BitVec.ofNat 32 (t.cause.code + t.sub % 256 * 2 ^ 8 + t.lane % 32 * 2 ^ 21 + glen % 8 * 2 ^ 26)

/-- Whether an instruction's event can be queued (R356). -/
def Chip.room (c : Chip) : Bool := decide (c.evq.length < 256) && c.heldReports.isEmpty

/-- Queues an event of a chip for posting, or holds it while the queue is full (R354, R356); the hub fills its STAMP, SRC and SEQ
when it posts. -/
def State.queueEvent (s : State) (chip : Nat) (e : Event) : State :=
  (s.modChip chip fun c => if c.room then { c with evq := c.evq ++ [e] } else { c with heldReports := c.heldReports ++ [e] }).sendOnce
    .eventQueuePost { chip := chip }

/-- Queues an event of a type and context. -/
def State.postEvent (s : State) (chip type ctx : Nat) (payload cont : List Byte) : State :=
  s.queueEvent chip { type := type, ctx := ctx, payload := payload, cont := cont }

/-- Stops a node's warps at once (R390): none of its gangs issues again. -/
def State.stopNode (s : State) (node : Nat) : State :=
  { s.modBlock node (fun b => { b with st := .dead }) with
    warps := s.warps.map fun p => if p.2.node = node then (p.1, { p.2 with gangs := [], resident := false }) else p }

/-- The payload of a FAULT event (R355): GID, KIND and CAUSE. -/
def faultPayload (gid kind cause : Nat) : List Byte := leBytes 4 gid ++ leBytes 4 kind ++ leBytes 4 cause

/-- An unhandled trap fails the grid (R390). -/
def State.unhandled (s : State) (w : Warp) (code : Nat) : State :=
  match s.block? w.node with
  | none => s
  | some b => (s.stopNode w.node).postEvent b.chip 3 b.ctx (faultPayload b.gid 0 (code + 0x200)) []

/-- TAKING A PRECISE TRAP (R384): by the gang of lanes `m` of warp `k`, whose group begins at `first`, has `glen` words and is
followed by `next`. An open run is closed and saved; the other gangs are held; the gang's fibres continue at the handler. -/
def State.takeTrap (s : State) (k : Nat) (m : Lanes) (first glen next : Nat) (t : Trap) : State :=
  match s.warp? k with
  | none => s
  | some w =>
    if w.intrap ∨ w.trapvec = 0 then s.unhandled w t.cause.code
    else
      s.setWarp k
        { w with
          trapops := trapOpsOf w.trapops w.run
          run := none
          trappc := BitVec.ofNat 64 (if t.cause.after then next else first)
          trapcause := trapCauseOf t glen
          trapaddr := BitVec.ofNat 64 t.addr
          intrap := true
          trapMask := some m
          gangs := w.gangs.map fun g =>
            if g.mask = m then { mask := m, pc := w.trapvec.toNat } else { g with held := true } }

/-- THE RETURN FROM A TRAP (R394), issued by the gang of lanes `m`: the trapping gang's fibres continue at TRAPPC with the run
that TRAPOPS holds, held gangs are released, and a gang that is not the trapping one continues at TRAPPC too. -/
def Warp.returnFromTrap (w : Warp) (m : Lanes) : Warp :=
  let pc := w.trappc.toNat / 4 * 4
  let tm := w.trapMask.getD m &&& w.live
  let back := w.gangs.map fun g => { g with held := false }
  let mine := fun (g : Gang) => decide (g.mask &&& tm ≠ 0)
  let others := back.filter fun g => !mine g && decide (g.mask ≠ m)
  let stray := back.filter fun g => mine g && decide (g.mask &&& ~~~tm ≠ 0) && decide (g.mask ≠ m)
  let tg : List Gang := if tm = 0 then [] else [{ mask := tm, pc := pc }]
  let ig : List Gang := if m &&& ~~~tm = 0 then [] else [{ mask := m &&& ~~~tm, pc := pc }]
  { w with
    gangs := others ++ (stray.map fun g => { g with mask := g.mask &&& ~~~tm }) ++ tg ++ ig
    intrap := false
    trapMask := none
    run := runOfTrapOps tm w.trapops }

/-! ## Modelled energy (R412, R413), in units of 2^-16 nJ -/

/-- Energy charged to a block: ENBLK, its grid's sum, and its context's total on the chip. -/
def State.chargeBlock (s : State) (node n : Nat) : State :=
  match s.block? node with
  | none => s
  | some b =>
    ((s.modBlock node fun b => { b with enblk := (b.enblk + n) % 2 ^ 64 }).modGrid b.gid fun g =>
      { g with energyUsed := g.energyUsed + n }).modChip b.chip fun c =>
        { c with enCtx := tabPut c.enCtx b.ctx ((tabLook c.enCtx b.ctx).getD 0 + n) }

/-- Energy charged to a warp, and with it to its block. -/
def State.charge (s : State) (k n : Nat) : State :=
  if n = 0 then s else (s.modWarp k fun w => { w with enwarp := (w.enwarp + n) % 2 ^ 64 }).chargeBlock (k / 32) n

/-- The slices of a gang: groups of four lanes that hold one of it (R61). -/
def sliceCount (m : Lanes) : Nat := (List.range 8).countP fun i => decide (m.extractLsb' (4 * i) 4 ≠ 0)

/-! ## Issue -/

/-- What an instruction word's class is, for the frame of its issue. -/
structure OpInfo where
  /-- The major opcode, and the low seven bits where they enter the value-table key. -/
  op : Nat
  f7 : Nat := 0
  /-- The guard field. -/
  g : BitVec 4 := 0
  /-- The source codes read. -/
  srcs : List Code := []
  /-- It takes extension words itself (R33). -/
  ext : Bool := false
  /-- It accepts SAT, and CEN (R43). -/
  sat : Bool := false
  cen : Bool := false
  /-- A latch producer (R26). -/
  producer : Bool := false
  /-- A control or system instruction: a run ends before it (R27). -/
  control : Bool := false
  /-- A memory instruction: a run ends after it (R27). -/
  memory : Bool := false
  /-- No latch may be named at all (R28, R217, R294, R326). -/
  noLatch : Bool := false
  /-- Codes of fields that are not read and may name no latch either (R326). -/
  names : List Code := []
  /-- The roles that may issue it (R289). -/
  roles : List Role := [.gen, .copy, .mtx, .vec]
  /-- The destination of an instruction of majors 0x13 to 0x4F: unless the scalar pipe runs it, only `gen` and `vec` warps may
  issue it (R25, R289). -/
  dst : Option Code := none
  /-- Reserved fields that are not zero (R50). -/
  rsv : Bool := false
  /-- The i7 field of an I-form word, and the bits below the chain in the value-table key (R178). -/
  imm7 : Code := 0
  immBits : Nat := 0

/-- What an instruction sees at issue. -/
structure Cx where
  k : Nat
  w : Warp
  m : Lanes
  b : Block
  pc : Nat
  first : Nat
  glen : Nat
  /-- The extension chain it consumes. -/
  ext : List (BitVec 25)
  sat : Bool
  cen : Option Code
  fresh : Bool
  vt : Bool
  info : OpInfo
  /-- Active fibres whose guard is true (R128). -/
  q : Lanes
  /-- The lowest active fibre, when its guard is true (R21). -/
  lead : Option Nat
  tick : Nat
  /-- A number for free values of this issue (log 3: DESIGN CHOICE). -/
  num : Nat
  /-- The first half of the instruction has been waited for already. -/
  half : Bool

/-- How an instruction's meaning ends. -/
inductive Res
  /-- Done: the gang continues at the next word; a producer's latch entry is pushed. -/
  | done (s : State) (push : Option (List DWord))
  /-- Done: each fibre of the gang continues at its own next address (R62). -/
  | split (s : State) (next : Nat → Nat)
  /-- Done: the gangs of the warp stand as the meaning left them. -/
  | placed (s : State)
  /-- Done, and the gang waits before its next word. -/
  | wait (s : State) (r : Wait)
  /-- Not ready: nothing has taken effect. -/
  | stall (s : State) (r : Reason)
  /-- Not ready for its second half (R259). -/
  | halfway (s : State) (r : Reason)
  | trap (t : Trap)
  /-- Done, and the gang takes a trap after it (R396, R431). -/
  | after (s : State) (t : Trap)
  /-- Done, and the warp stands as the meaning left it, its run included (R394). -/
  | returned (s : State)

/-- The lanes of `m` whose guard is true; g = 1000 falls back to always (R21). -/
def guarded (w : Warp) (m : Lanes) (g : BitVec 4) : Lanes :=
  if g = 0 ∨ g = 8 then m
  else (lanesOf m).foldl (fun a j =>
    if w.predBit j (g.extractLsb' 0 3).toNat != g.getLsbD 3 then a ||| laneBit j else a) 0

/-- A latch code, 120 to 127 (R22). -/
def isLatch (c : Code) : Bool := decide (120 ≤ c.toNat)

/-- A scalar source code, and a destination that keeps an instruction on the scalar pipe (R25). -/
def scalarCode (c : Code) : Bool := decide (96 ≤ c.toNat) && decide (c.toNat ≤ 119) && decide (c.toNat ≠ 113)
def scalarDst (d : Code) : Bool := decide (d = 127) || (decide (96 ≤ d.toNat) && decide (d.toNat < 112))

/-- The address of the first word of a group that is not ignored, its chain having `n` words kept, before the word at `pc`. -/
def Pfx.firstOf (p : Pfx) (pc n : Nat) : Nat := p.head.getD (pc - 4 * n)

/-- The source codes that a word reads under its `hmod` (R42). -/
def OpInfo.reads (i : OpInfo) (p : Pfx) : List Code :=
  match p.hmod with
  | some h => if h.cen && i.cen then i.srcs ++ [h.c] else i.srcs
  | none => i.srcs

/-- The roles that may issue a word (R289). -/
def OpInfo.allowed (i : OpInfo) (p : Pfx) : List Role :=
  match i.dst with
  | some d => if (i.reads p).all scalarCode && scalarDst d then i.roles else [.gen, .vec]
  | none => i.roles

/-- The words above the memory majors that act on the scalar pipe: `owait`, the stage group, the system group, `mcfg`, `maloc` and
`mfree` (R223, R224, R293, R377, R392, R429). -/
def OpInfo.onScalarPipe (i : OpInfo) : Bool :=
  [0x72, 0x73, 0x7B].contains i.op || (decide (i.op = 0x78) && [0, 2, 3].contains i.f7)

/-- What an instruction is charged (R412): by slice on the vector lanes, SFU and address units, the scalar pipe's coefficient there;
words of majors 0x00 to 0x0F are charged nothing, and matrix and engine words by what they do (log 87: DEDUCED). -/
def OpInfo.cost (i : OpInfo) (p : Pfx) (m : Lanes) : Nat :=
  if i.onScalarPipe then 16
  else if i.op < 0x10 ∨ 0x6C < i.op then 0
  else match i.dst with
    | some d => if (i.reads p).all scalarCode && scalarDst d then 16 else 64 * sliceCount m
    | none => 64 * sliceCount m

/-- The warnings that the word's guard, prefixes and reserved fields set when it completes (R50). -/
def frameWarn (i : OpInfo) (p : Pfx) : Word :=
  let consumer := i.ext || (i.reads p).contains 117
  let h := p.hmod.getD {}
  warnIf (i.g = 8) wGRD ||| warnIf (!p.ext.isEmpty && !consumer) wEXT ||| warnIf (p.ext.isEmpty && (i.reads p).contains 117) wEXT
    ||| warnIf ((h.sat && !i.sat) || (h.cen && !i.cen)) wMOD ||| warnIf (decide (h.c ≠ 0) && !h.cen) wRSV ||| warnIf i.rsv wRSV

/-- The gangs of a warp whose waits are met are released: rejoin barriers (R73). -/
def releaseJoins (w : Warp) : Warp :=
  [0, 1, 2, 3].foldl (fun w n =>
    let need := vecAt w.rj n 0
    let there := w.lanesWhere fun g => decide (g.wait = .join n)
    if need ≠ 0 ∧ need &&& ~~~there = 0 then
      { w.fuse (fun g => decide (g.wait = .join n)) with rj := vecPut w.rj n 0 }
    else w) w

/-- Every live fibre of a warp waits at a place. -/
def Warp.allAt (w : Warp) (p : Wait) : Bool :=
  decide (w.live ≠ 0) && decide (w.live &&& ~~~(w.lanesWhere fun g => decide (g.wait = p)) = 0)

/-- The warps of a node that have not ended. -/
def State.liveWarps (s : State) (node : Nat) : List (Nat × Warp) :=
  s.warps.filter fun p => decide (p.2.node = node) && decide (p.2.live ≠ 0)

/-- R83: the block barrier is released when every live warp of the block has arrived; each fused gang then awaits the warp's
earlier loads. -/
def State.releaseBar (s : State) (node k : Nat) : State :=
  let ws := s.liveWarps node
  if !ws.isEmpty && ws.all fun p => p.2.allAt (.bar k) then
    ws.foldl (fun s p => s.modWarp p.1 fun w =>
      let w' := w.fuse fun g => decide (g.wait = .bar k)
      { w' with gangs := w'.gangs.map fun g => { g with wait := .stall (.loads s.fresh) } }) s
  else s

/-- Everything a change of a warp's fibres may let go on: rejoin barriers, its block's barriers, its loop end. -/
def State.settle (s : State) (k : Nat) : State :=
  match s.warp? k with
  | none => s
  | some w =>
    let w' := arriveLoop (s.codeBase w) (releaseJoins w)
    let s := s.setWarp k w'
    let s := if w'.gangs.any fun g => decide (g.wait = .loopEnd) then
        (if w'.allAt .loopEnd then s.sendOnce .loopIterationEnd { warp := k } else s) else s
    let bars := (s.liveWarps w.node).foldl (fun l p => p.2.gangs.foldl (fun l g =>
      match g.wait with
      | .bar n => if l.contains n then l else n :: l
      | _ => l) l) []
    bars.foldl (fun s n => s.releaseBar w.node n) s

/-- Ends an issued group: the gang leaves the port, and what its change lets go on goes on. -/
def State.retire (s : State) (k : Nat) : State := { s.settle k with issuing := none }

/-- What the instruction of a word sees (R21, R27, R31, R33, R42): the warp as it stands once a run that ends before the
instruction has ended, the word's group, its modifiers, and the fibres in which it acts. -/
def contextOf (i : OpInfo) (s : State) (k : Nat) (m : Lanes) (w0 : Warp) (g : Gang) (b : Block) : Cx :=
  let pc := g.pc
  let consumer := i.ext || (i.reads g.pfx).contains 117
  let kept := if consumer then g.pfx.ext else []
  let first := g.pfx.firstOf pc kept.length
  let inRun := i.producer || !((i.reads g.pfx).filter isLatch).isEmpty
  let w := match w0.run with
    | some r => if i.control || !inRun || decide (r.mask ≠ m) then w0.closeRun else w0
    | none => w0
  let h := g.pfx.hmod.getD {}
  let q := guarded w m i.g
  { k := k, w := w, m := m, b := b, pc := pc, first := first, glen := (pc - first) / 4 + 1
    ext := kept
    sat := h.sat && i.sat, cen := if h.cen && i.cen then some h.c else none
    fresh := h.fresh, vt := g.pfx.vt, info := i, q := q
    lead := (lowestLane m).filter (inSet q), tick := s.podTime b.chip, num := s.fresh, half := g.half }

/-- The trap that keeps a word from running (R28, R289, R290): the warp's role may not issue it, or it names a latch that its run
does not hold. -/
def Cx.barred (cx : Cx) (p : Pfx) : Option Trap :=
  let i := cx.info
  let prod := match cx.w.run with
    | some r => r.prod
    | none => 0
  if !(i.allowed p).contains cx.w.role then some { cause := .role, addr := i.op }
  else ((((i.reads p).filter isLatch).find? fun c => i.noLatch || decide (prod < c.toNat - 119)).orElse fun _ => i.names.find? isLatch).map
    fun c => { cause := .latchLost, addr := c.toNat - 120 }

/-- The warnings of words before the group's first word, which `rfe` does not fetch again (R31): those ignored already, and a chain
that the instruction does not consume. -/
def Cx.forgone (cx : Cx) (p : Pfx) : Word := p.lost ||| warnIf (p.head.isNone && cx.ext.isEmpty && !p.ext.isEmpty) wEXT

/-- The instruction traps: nothing of it has taken effect. -/
def Cx.trapped (cx : Cx) (p : Pfx) (s : State) (t : Trap) : State :=
  let s := s.modWarp cx.k fun w => w.addWarn (cx.forgone p)
  { (s.takeTrap cx.k cx.m cx.first cx.glen (cx.pc + 4) t).retire cx.k with issuing := none }

/-- What a completed instruction is charged (R412) — a value-table hit as such, a subnormal replay again — and the warnings that
its frame sets (R50). -/
def Cx.noted (cx : Cx) (p : Pfx) (s : State) : State :=
  let now := (s.warp? cx.k).getD cx.w
  let c := cx.info.cost p cx.m
  let cost := if now.reuse ≠ cx.w.reuse then 16 else if now.subrpl ≠ cx.w.subrpl then 2 * c else c
  (s.charge cx.k cost).modWarp cx.k fun w => { (w.addWarn (p.warn ||| frameWarn cx.info p)) with lastCost := c }

/-- The run that an instruction belongs to, after it (R26, R27). -/
def Cx.ranOn (cx : Cx) (p : Pfx) (push : Option (List DWord)) (w : Warp) : Warp :=
  let i := cx.info
  let inRun := i.producer || !((i.reads p).filter isLatch).isEmpty
  if !inRun || i.memory then w.closeRun
  else
    let r := w.run.getD { mask := cx.m }
    let r := match push with
      | some e => r.push e
      | none => r
    let r := { r with count := r.count + 1 }
    if r.count ≥ 16 then w.closeRun else { w with run := some r }

/-- The gang stands at the word after the group, and waits there as told. -/
def Cx.stepped (cx : Cx) (r : Option Wait) (w : Warp) : Warp :=
  w.modGang cx.m fun g =>
    { g with pc := (cx.pc + 4) % 2 ^ 64, pfx := {}, half := false, waits := 0, wait := r.getD g.wait }

/-- The number of a warp's port: core × 4 + port. -/
def Warp.portNum (w : Warp) : Nat := w.core * 4 + w.port

/-- The gang stands at its group's first word again, not ready: its wait count begins anew when it is (R66). -/
def Cx.stalled (cx : Cx) (p : Pfx) (half : Bool) (r : Reason) (w : Warp) : Warp :=
  w.modGang cx.m fun g =>
    { g with pc := if p.words = 0 then cx.pc else p.start, pfx := {}, half := half || g.half, waits := 0, wait := .stall r }

/-- How the frame goes on from what a meaning answers. -/
def Cx.concluded (cx : Cx) (p : Pfx) (s : State) : Res → State
  | .done s' push => (((cx.noted p s').modWarp cx.k (cx.ranOn p push)).modWarp cx.k (cx.stepped none)).retire cx.k
  | .split s' next => ((cx.noted p s').modWarp cx.k fun w => (w.split cx.m fun j => next j % 2 ^ 64).closeRun).retire cx.k
  | .placed s' => ((cx.noted p s').modWarp cx.k Warp.closeRun).retire cx.k
  | .wait s' r => ((cx.noted p s').modWarp cx.k fun w => (cx.stepped (some r) w).closeRun).retire cx.k
  | .stall s' r => { s'.modWarp cx.k (cx.stalled p false r) with issuing := none, reselect := some cx.w.portNum }
  | .halfway s' r => { s'.modWarp cx.k (cx.stalled p true r) with issuing := none, reselect := some cx.w.portNum }
  | .trap t => cx.trapped p s t
  | .after s' t => cx.trapped p (cx.noted p s') t
  | .returned s' => (cx.noted p s').retire cx.k

/-- THE FRAME OF ISSUE (R21, R27 to R31, R43, R49, R50, R290, R384). The issuing gang's word is checked for its role and its
latch reads, its meaning runs, and the gang goes on as the meaning says. With no gang issuing there is no active fibre. -/
def issue (i : OpInfo) (s : State) (body : Cx → State → Res) : State :=
  match s.issuing with
  | none => s
  | some (k, m) =>
    match s.warp? k with
    | none => { s with issuing := none }
    | some w0 =>
      match w0.gang? m, s.block? w0.node with
      | some g, some b =>
        let cx := contextOf i s k m w0 g b
        let s := s.setWarp k cx.w
        match cx.barred g.pfx with
        | some t => cx.trapped g.pfx s t
        | none => cx.concluded g.pfx s (body cx s)
      | _, _ => { s with issuing := none }

/-- A meaning of an instruction word: the frame of issue around its effect. -/
def issued (i : OpInfo) (s : State) (body : Cx → State → Res) : Host.Outcome State Fault Refusal := .next (issue i s body)

end Sys2Proof.Machine
end

