-- ==== Sys2Proof/Machine/Translate.lean ====
section
/-! DEFINITION. Addresses: their forms, page tables, translation and permission (08 R234 to R240). -/

namespace Sys2Proof.Machine

/-- Bits [63:60] of an address (R234). -/
def addrForm (ea : Nat) : Nat := ea / 2 ^ 60 % 16
/-- HOME and OFFSET of a global address (R235). -/
def addrHome (ea : Nat) : Nat := ea / 2 ^ 48 % 4096
def addrOff (ea : Nat) : Nat := ea % 2 ^ 48

/-- The fields of a leaf (R236). -/
def leafRec (x : DWord) : Nat := (x.extractLsb' 62 2).toNat
def leafHost (x : DWord) : Bool := x.getLsbD 61
def leafNorep (x : DWord) : Bool := x.getLsbD 60
def leafFrame (x : DWord) : Nat := (x.extractLsb' 16 44).toNat * 2 ^ 16
def leafEnc (x : DWord) : Bool := x.getLsbD 15
def leafOrd (x : DWord) : Nat := (x.extractLsb' 13 2).toNat
def leafCache (x : DWord) : Nat := (x.extractLsb' 11 2).toNat
def leafA (x : DWord) : Bool := x.getLsbD 10
def leafX (x : DWord) : Bool := x.getLsbD 9
def leafW (x : DWord) : Bool := x.getLsbD 8
def leafRd (x : DWord) : Bool := x.getLsbD 7
def leafSize (x : DWord) : Nat := (x.extractLsb' 5 2).toNat
def leafLeaf (x : DWord) : Bool := x.getLsbD 1
def leafV (x : DWord) : Bool := x.getLsbD 0

/-- Whether a device physical address lies in a chip's DRAM (R237). -/
def paOk (pa : Nat) : Bool := decide (pa < 2 ^ 39) && decide (pa % 2 ^ 37 < 96 * 2 ^ 30)

/-- The home slice of a line within its die (R237). -/
def sliceOf (pa : Nat) : Nat := (pa / 2 ^ 7 % 64) ^^^ (pa / 2 ^ 13 % 64) ^^^ (pa / 2 ^ 19 % 64) ^^^ (pa / 2 ^ 25 % 64) ^^^ (pa / 2 ^ 31 % 64)

/-- The memory key of a physical address of a space, and of a host address behind a chip. -/
def devKey (space pa : Nat) : Nat := space * 2 ^ 60 + pa
def hostKey (chip pa : Nat) : Nat := (512 + chip) * 2 ^ 60 + pa

/-- The space of a line. -/
def lineSpace (line : Nat) : Nat := line / 2 ^ 53

/-- The chip that serves a space: a chip its own memory and its host's, a buddy its copy of a lost chip's. -/
def State.serving (s : State) (space : Nat) : Nat :=
  if space < 512 then space else if space < 1024 then space - 512 else (tabLook s.mirrors (space - 1024)).getD (space - 1024)

/-- The chip whose home slices serve a line (R235, R237). -/
def State.homeOf (s : State) (line : Nat) : Nat := s.serving (lineSpace line)

/-- The die number of a line's home slice (R237). The hub holds the CXL port; host lines count with die 0 (log 18: DESIGN CHOICE). -/
def State.dieOf (s : State) (line : Nat) : Nat :=
  s.homeOf line * 4 + (if 512 ≤ lineSpace line ∧ lineSpace line < 1024 then 0 else line * 128 / 2 ^ 37 % 4)

/-- What a write takes from a leaf. -/
def leafPage (x : DWord) : Page := { rc := leafRec x, enc := leafEnc x, alloc := decide (leafCache x ≠ 2) }

/-- The page size of a level's leaf (R236). -/
def levelSize (lvl : Nat) : Nat :=
  match lvl with
  | 2 => 2 ^ 30
  | 3 => 2 ^ 21
  | _ => 2 ^ 16

/-- Index bits of a level (R236). -/
def levelIndex (lvl off : Nat) : Nat :=
  match lvl with
  | 1 => off / 2 ^ 39 % 512
  | 2 => off / 2 ^ 30 % 512
  | 3 => off / 2 ^ 21 % 512
  | _ => off / 2 ^ 16 % 32

/-- Whether an entry is well formed as a leaf of a level (R236). -/
def leafOk (lvl : Nat) (x : DWord) : Bool :=
  decide (lvl ≠ 1) && decide (leafSize x = (match lvl with
    | 2 => 2
    | 3 => 1
    | _ => 0))
    && decide (leafRec x ≠ 3) && decide (leafOrd x < 2) && decide (leafCache x ≠ 3) && decide (x.extractLsb' 2 3 = 0)
    && decide (leafFrame x % levelSize lvl = 0) && (leafHost x || paOk (leafFrame x))

/-- Whether an entry is well formed as a pointer to the next table: only V, LEAF and FRAME are used (R236). -/
def tableOk (lvl : Nat) (x : DWord) : Bool :=
  decide (lvl ≠ 4) && decide (x.extractLsb' 60 4 = 0) && decide (x.extractLsb' 2 14 = 0) && paOk (leafFrame x)

/-- A chip that serves the host alone: in solo service, or Joining and still ending its solo grids (R418 to R420). -/
def Chip.alone (c : Chip) : Bool := decide (c.power = .solo) || (decide (c.power = .joining) && !c.inPod)

/-- Whether memory stands behind a device address of a space (R237): while its chip serves alone, the L2's 3 GiB only (R419). R419
speaks of leaves; tables and roots are held to the same range (log 108: DEDUCED). -/
def State.backed (s : State) (space pa : Nat) : Bool :=
  paOk pa && (decide (512 ≤ space) || !(s.chip space).alone || decide (pa < 3 * 2 ^ 30))

/-- A walk from a table, `fuel` levels deep: the leaf and its level (R236). -/
def walkFrom (s : State) (chip off : Nat) : Nat → Nat → Nat → Option (DWord × Nat)
  | 0, _, _ => none
  | fuel + 1, lvl, table =>
    let x : DWord := BitVec.ofNat 64 (leNat (memBytes s.mem (devKey chip (table + 8 * levelIndex lvl off)) 8))
    if !leafV x then none
    else if leafLeaf x then (if leafOk lvl x && (leafHost x || s.backed chip (leafFrame x)) then some (x, lvl) else none)
    else if tableOk lvl x && s.backed chip (leafFrame x) then walkFrom s chip off fuel (lvl + 1) (leafFrame x)
    else none

/-- Every leaf below a table (R236, R372). -/
def leavesFrom (s : State) (space : Nat) : Nat → Nat → Nat → List DWord
  | 0, _, _ => []
  | fuel + 1, lvl, table =>
    (List.range (if lvl = 4 then 32 else 512)).flatMap fun i =>
      let x : DWord := BitVec.ofNat 64 (leNat (memBytes s.mem (devKey space (table + 8 * i)) 8))
      if !leafV x then []
      else if leafLeaf x then (if leafOk lvl x then [x] else [])
      else if tableOk lvl x then leavesFrom s space fuel (lvl + 1) (leafFrame x)
      else []

/-- The space a context's virtual home maps to on a chip (R235). -/
def State.homeSpace (s : State) (chip ctx home : Nat) : Option Nat :=
  ((s.chip chip).remap.find? fun p => decide (p.1 = ctx) && decide (p.2.1 = home)).map fun p => p.2.2

/-- The PTROOT entries of a space (R236): a chip's own, or those of a lost chip. -/
def State.rootsOf (s : State) (space : Nat) : List (Nat × Nat × Nat) :=
  if space < 1024 then (s.chip (s.serving space)).ptroot else (tabLook s.copyRoots (space - 1024)).getD []

/-- The leaf that a walk finds, as an entry to cache (R236, R238). A buddy serves mirrored and proofed pages alone (log 19: DEDUCED). -/
def State.walkLeaf (s : State) (space ctx home off : Nat) : Option TlbEntry :=
  match (s.rootsOf space).find? fun p => decide (p.1 = ctx) && decide (p.2.1 = home) with
  | none => none
  | some p =>
    if !s.backed space p.2.2 then none
    else match walkFrom s space off 4 1 p.2.2 with
      | none => none
      | some r =>
        if 1024 ≤ space ∧ leafRec r.1 = 0 then none
        else some { ctx := ctx, home := home, base := off / levelSize r.2 * levelSize r.2, size := levelSize r.2, leaf := r.1 }

/-- What translating an address gives: the memory key and the leaf, a fault, or a miss that needs a walk. -/
inductive Xlat
  | ok (key : Nat) (leaf : DWord)
  | fault (c : Cause)
  | miss (home off : Nat)
deriving DecidableEq, Repr

/-- The memory key of an offset under a leaf. -/
def State.pageKey (s : State) (space : Nat) (e : TlbEntry) (off : Nat) : Nat :=
  let pa := leafFrame e.leaf + (off - e.base)
  if leafHost e.leaf then hostKey (s.serving space) pa else devKey space pa

/-- Translation of a global address for a context on a chip (R235, R236, R238, R239). A walk that would fail faults at once; one
that would succeed is awaited. -/
def State.translate (s : State) (chip ctx ea : Nat) : Xlat :=
  if addrForm ea ≠ 0 then .fault .addrForm
  else
    let home := addrHome ea
    let off := addrOff ea
    match s.homeSpace chip ctx home with
    | none => .fault .translation
    | some pc =>
      match (s.chip chip).tlb.find? fun e =>
          decide (e.ctx = ctx) && decide (e.home = home) && decide (e.base ≤ off) && decide (off < e.base + e.size) with
      | some e =>
        .ok (s.pageKey pc e off) e.leaf
      | none => if (s.walkLeaf pc ctx home off).isSome then .miss home off else .fault .translation

/-- Translation by the hub, which waits for no walk: the memory key and the leaf of an address. -/
def State.resolve (s : State) (chip ctx ea : Nat) : Option (Nat × DWord) :=
  if addrForm ea ≠ 0 then none
  else match s.homeSpace chip ctx (addrHome ea) with
    | none => none
    | some sp =>
      let off := addrOff ea
      let e := ((s.chip chip).tlb.find? fun e =>
        decide (e.ctx = ctx) && decide (e.home = addrHome ea) && decide (e.base ≤ off) && decide (off < e.base + e.size)).orElse
          fun _ => s.walkLeaf sp ctx (addrHome ea) off
      e.map fun e => (s.pageKey sp e off, e.leaf)

/-- Joins or begins the walk of an address (R238); the number of the walk to await. -/
def State.beginWalk (s : State) (chip ctx home off : Nat) : State × Nat :=
  let page := off / 2 ^ 16
  match (s.chip chip).walks.find? fun w => decide (w.ctx = ctx) && decide (w.home = home) && decide (w.off / 2 ^ 16 = page) with
  | some w => (s, w.num)
  | none =>
    let n := s.fresh
    ((s.modChip chip fun c => { c with walks := c.walks ++ [{ num := n, ctx := ctx, home := home, off := off }] }).send
      .translationWalk { chip := chip, num := n }, n)

/-- What an access needs of its page (R239). -/
inductive Need
  | load | store | atomic | fetch | any
deriving DecidableEq, Repr

/-- Whether a leaf permits an access (R239). -/
def permits (n : Need) (x : DWord) : Bool :=
  match n with
  | .load => leafRd x
  | .store => leafW x
  | .atomic => leafRd x && leafW x && leafA x && decide (leafCache x ≠ 2)
  | .fetch => leafX x
  | .any => true

/-- A checked global address. -/
def State.access (s : State) (chip ctx : Nat) (n : Need) (ea : Nat) : Xlat :=
  match s.translate chip ctx ea with
  | .ok k x => if permits n x then .ok k x else .fault .permission
  | r => r

/-- The first address of a list, each with its lane, whose check fails or that needs a walk first (R239): faults come before
any effect. -/
def State.firstFault (s : State) (chip ctx : Nat) (n : Need) (sub : Nat) (l : List (Nat × Nat)) : Option (Trap ⊕ (Nat × Nat)) :=
  l.findSome? fun p => match s.access chip ctx n p.2 with
    | .fault c => some (.inl { cause := c, sub := sub, lane := p.1, addr := p.2 })
    | .miss h o => some (.inr (h, o))
    | .ok _ _ => none

/-- Runs an effect after checking addresses, each with its lane; a missing translation stalls for its walk. -/
def Cx.addressed (cx : Cx) (n : Need) (sub : Nat) (l : List (Nat × Nat)) (s : State) (k : State → Res) : Res :=
  match s.firstFault cx.b.chip cx.b.ctx n sub l with
  | some (.inl t) => .trap t
  | some (.inr (h, o)) =>
    let r := s.beginWalk cx.b.chip cx.b.ctx h o
    .stall r.1 (.walk r.2)
  | none => k s

/-- R15, R239: the checks of the targets of a control transfer or of `fork`. -/
def Cx.targets (cx : Cx) (l : List (Nat × Nat)) (s : State) (k : State → Res) : Res :=
  match l.find? fun p => decide (p.2 % 4 ≠ 0) with
  | some p => .trap { cause := .misalignedFetch, lane := p.1, addr := p.2 }
  | none => cx.addressed .fetch 4 l s k

end Sys2Proof.Machine
end

