-- ==== Sys2Proof/Machine/Errors.lean ====
section
/-! DEFINITION. Detected hardware errors: syndromes, the error log and prediction, and the errors that the bank store and the
accumulator tiles hold (03 R69; 06 R186, R187; 07 R205, R229; 08 R262 to R266; 14 R403, R404). That an error arises is the hardware's
doing: lines, rows, scratchpads and tiles hold the marks of the errors in them, which no step sets (log 100: DESIGN CHOICE). -/

namespace Sys2Proof.Machine

/-! ## Syndromes, the error log and prediction (R265, R403, R404) -/

/-- A syndrome (R265). -/
def syndrome (cls unit pattern die core place index sym : Nat) : DWord :=
  BitVec.ofNat 64 (cls % 16 * 2 ^ 60 + unit % 8 * 2 ^ 56 + pattern % 16 * 2 ^ 52 + die % 4 * 2 ^ 50 + core % 512 * 2 ^ 41
    + place % 128 * 2 ^ 34 + index % 2 ^ 18 * 2 ^ 16 + sym % 256)

/-- The different values of a list. -/
def distinct (l : List Nat) : Nat := l.eraseDups.length

/-- How many errors a list of entries counts. -/
def errorCount (l : List PEntry) : Nat := (l.map PEntry.count).foldl (· + ·) 0

/-- The patterns that the errors of a window show at a place (R404): cell, row, column, bank. -/
def patterns (l : List PEntry) (e : PEntry) : Bool × Bool × Bool × Bool :=
  let bank := l.filter fun x => decide (x.unit = e.unit) && decide (x.core = e.core) && decide (x.place = e.place)
  let row := bank.filter fun x => decide (x.index = e.index)
  let dram := decide (e.unit = 0)
  (decide (2 ≤ errorCount (row.filter fun x => decide (x.col = e.col))),
    dram && decide (3 ≤ distinct (row.map PEntry.col)),
    dram && decide (3 ≤ distinct ((bank.filter fun x => decide (x.col = e.col)).map PEntry.index)),
    if dram then decide (3 ≤ distinct (bank.map PEntry.index)) && decide (3 ≤ distinct (bank.map PEntry.col))
    else decide (2 ≤ e.unit) && decide (2 ≤ distinct (bank.map PEntry.index)))

/-- PATTERN of R265: the widest pattern shown. -/
def patternCode (p : Bool × Bool × Bool × Bool) : Nat :=
  if p.2.2.2 then 4 else if p.2.2.1 then 3 else if p.2.1 then 2 else if p.1 then 1 else 0

/-- The window of R404. -/
def predictWindow : Nat := 60000000000

/-- An error joins a die's prediction table of 256 entries, the least recently updated replaced first (R404). -/
def predictPut (now : Nat) (e : PEntry) (l : List PEntry) : List PEntry :=
  let same := fun (x : PEntry) =>
    decide (x.unit = e.unit) && decide (x.core = e.core) && decide (x.place = e.place) && decide (x.index = e.index) && decide (x.col = e.col)
  let live := l.filter fun x => decide (now < x.time + predictWindow)
  let n := errorCount (live.filter same)
  let rest := l.filter fun x => !same x
  let rest := if rest.length < 256 then rest else
    match rest.foldl (fun (a : Option PEntry) x => match a with
      | some y => if x.time < y.time then some x else a
      | none => some x) none with
    | some y => rest.filter fun x => decide (x ≠ y)
    | none => rest
  rest ++ [{ e with time := now, count := n + 1 }]

/-- The logical bank that a physical bank of a core stands for (R187). -/
def Core.logicalBank (c : Core) (bank : Nat) : Nat := ((c.bankMap.find? fun x => decide (x.2 = bank)).map Prod.fst).getD bank

/-- A corrected error of a die (R403, R404): it is logged with the pattern it completes, and repair is asked for. A bank-store or
tile error names its core. -/
def State.corrected (s : State) (die : Nat) (e : PEntry) : State :=
  let chip := die / 4
  let now := s.podTime chip
  let l := predictPut now e (s.die die).predict
  let p := patterns (l.filter fun x => decide (now < x.time + predictWindow)) e
  let syn := syndrome 1 e.unit (patternCode p) die (e.core % 512) e.place e.index e.sym
  let s := s.modDie die fun d => { d with predict := l }
  let s := s.modChip chip fun c => { c with errlog := c.errlog ++ [(syn, now)] }
  match e.unit with
  | 0 => if p.2.1 then s.sendOnce .dramRowSpare { die := die, unit := e.place, num := e.index } else s
  | 1 => if p.1 then s.sendOnce .l2WayRetire { die := die, unit := e.place, num := e.col } else s
  | 2 => if p.1 || p.2.2.2 then s.sendOnce .bankEvacuation { core := e.core, unit := (s.core e.core).logicalBank e.place } else s
  | _ => s

/-- A corrected compute error (R69, R229, R403): it is logged and enters no prediction table. -/
def State.computeCorrected (s : State) (core : Nat) : State :=
  let chip := chipOfCore core
  let syn := syndrome 1 (Config.computeUnit s.fresh) 0 (dieOfCore core) (core % 512) 0 0 0
  (s.modChip chip fun c => { c with errlog := c.errlog ++ [(syn, s.podTime chip)] }).counted

/-- R69, R229: no instruction of a warp issues any more, and none that the matrix engine holds of it starts: the failing one writes
nothing. -/
def State.holdWarp (s : State) (k : Nat) : State :=
  let s := s.modWarp k fun w => { w with run := none, gangs := w.gangs.map fun g => { g with pfx := {}, wait := .stall .told } }
  let s := match s.warp? k with
    | some w => s.modCore w.core fun c => { c with mq := c.mq.filter fun o => decide (o.warp ≠ k) }
    | none => s
  if s.issuing.map Prod.fst = some k then { s with issuing := none } else s

/-! ## Errors of memory (R262, R264, R265) -/

/-- The home slice of a line within its die. -/
def lineSlice (line : Nat) : Nat := sliceOf (line * 128 % 2 ^ 60)

/-- R262: what the L2's code finds of a line that it holds. A single-bit error is repaired and reported; an uncorrectable one is
cured by fetching the line again where it is clean, and poisons its sectors where it is dirty. -/
def State.checkL2 (s : State) (line : Nat) : State :=
  let h := s.line line
  let s := if h.l2bad.isEmpty then s else s.modLine line fun h =>
    let l := if h.dirty then h.l2bad else []
    { h with l2bad := [], poison := h.poison ++ l.filter (fun k => !h.poison.contains k), fromL2 := h.fromL2 ++ l.filter fun k => !h.fromL2.contains k }
  match h.l2soft with
  | none => s
  | some bit => (s.modLine line fun h => { h with l2soft := none }).corrected (s.dieOf line)
      { unit := 1, place := lineSlice line, index := Config.l2Set line, col := h.way.getD 0, sym := bit }

/-- R262: a line's correctable error in DRAM is written back repaired and reported. -/
def State.repairSoft (s : State) (line : Nat) : State :=
  match (s.line line).soft with
  | none => s
  | some sym =>
    let pa := line * 128 % 2 ^ 60
    (s.modLine line fun h => { h with soft := none }).corrected (s.dieOf line)
      { unit := 0, place := Config.dramBank pa, index := Config.dramRow pa, col := Config.dramColumn pa, sym := sym }

/-- What is found of a line when it is accessed: in the L2, or as it is read from DRAM. -/
def State.examine (s : State) (line : Nat) : State :=
  if (s.line line).way.isSome then s.checkL2 line else s.repairSoft line

/-- The syndrome of what an access consumes of a line (R264, R265): INE for an uncorrectable error of DRAM in an encrypted page. -/
def State.lineSyndrome (s : State) (a : Access) (cls : Nat) : DWord :=
  let pa := a.line * 128 % 2 ^ 60
  let die := s.dieOf a.line
  let sym := Config.failSymbol s.fresh
  if cls = 2 ∧ !(s.line a.line).fromL2.isEmpty then syndrome 2 1 0 die 0 (lineSlice a.line) (Config.l2Set a.line) sym
  else syndrome cls 0 0 die 0 (Config.dramBank pa) (Config.dramRow pa) sym + (if cls = 2 ∧ a.enc then BitVec.ofNat 64 (2 ^ 59) else 0)

/-- R263: what DRAM, or the host's memory, holds of a 64-byte sector of an encrypted page whose content is `l`: its ciphertext and
its tag, under the context's page key and the sector's physical address. The L2, and the model's memory, hold it in plaintext (log
101: DESIGN CHOICE). -/
def sealedSector (key : BitVec 256) (pa : Nat) (l : List Byte) : List Byte × BitVec 64 :=
  let c := Config.xtsSector key (pa / 64) l
  (c, Config.sectorTag key c (pa / 64 * 64))

/-- The sector at a memory key as DRAM holds it under a leaf of a context (R263): sealed on an encrypted page. -/
def State.dramSector (s : State) (chip ctx key : Nat) (leaf : DWord) : List Byte × Option (BitVec 64) :=
  let l := memBytes s.mem (key / 64 * 64) 64
  match (s.chip chip).pageKeys.find? fun k => decide (k.1 = ctx) with
  | some k => if leafEnc leaf then
      let r := sealedSector k.2.2 (key % 2 ^ 60) l
      (r.1, some r.2) else (l, none)
  | none => (l, none)

/-! ## Errors of the bank store (R186) -/

/-- Rows of an allocation piece (R161). -/
def Piece.rows (p : Piece) : Nat := 32 * 2 ^ p.order

/-- The pieces of an allocation in architectural order, each with the architectural row at which it begins (R161). -/
def startsOf : Nat → List Piece → List (Nat × Piece)
  | _, [] => []
  | n, p :: r => (n, p) :: startsOf (n + p.rows) r

/-- The row of the store that an allocation's architectural row stands in (R161). -/
def Core.physRow (c : Core) (scr : Bool) (owner r : Nat) : Nat :=
  ((startsOf 0 (c.pieces.filter fun p => decide (p.scr = scr) && decide (p.owner = owner))).findSome? fun x =>
    if x.1 ≤ r ∧ r < x.1 + x.2.rows then some (x.2.base + (r - x.1)) else none).getD r

/-- The allocation piece that a row of the store belongs to, and which architectural row it then is. -/
def Core.holder (c : Core) (n : Nat) : Option (Piece × Nat) :=
  c.pieces.findSome? fun p =>
    if p.base ≤ n ∧ n < p.base + p.rows then
      ((startsOf 0 (c.pieces.filter fun x => decide (x.scr = p.scr) && decide (x.owner = p.owner))).find? fun x => decide (x.2 = p)).map
        fun x => (p, x.1 + (n - p.base))
    else none

/-- The prediction entry of a corrected error of lane `j`'s word in row `n` of the store (R160, R265). -/
def Core.storeError (c : Core) (core n j : Nat) : PEntry :=
  let bank := n % 8 * 8 + j / 4
  { unit := 2, core := core, place := (tabLook c.bankMap bank).getD bank, index := n / 8 }

/-- R186: a block consumes an uncorrectable error of the bank store: the reading instruction has no effect, and the block rolls
back. -/
def State.storeLost (s : State) (k : Nat) : State :=
  (s.holdWarp k).sendOnce .blockRollback { node := k / 32, num := 0x0401 }

/-- R186: a single-bit error that is read is repaired in place and reported. -/
def State.mendRow (s : State) (k r : Nat) (lanes : Lanes) : State :=
  match s.warp? k with
  | none => s
  | some w =>
    let m := (w.row r).soft &&& lanes
    if m = 0 then s
    else
      let s := s.modWarp k fun w => w.setRow r { w.row r with soft := (w.row r).soft &&& ~~~lanes }
      let c := s.core w.core
      (lanesOf m).foldl (fun s j => s.corrected (dieOfCore w.core) (c.storeError w.core (c.physRow false k r) j)) s

/-- R186: the same of words of a node's scratchpad. -/
def State.mendScratch (s : State) (node off n : Nat) : State :=
  match s.block? node with
  | none => s
  | some b =>
    let mine := fun (x : Nat) => decide (off ≤ 4 * x + 3) && decide (4 * x < off + n)
    let l := b.scrSoft.filter mine
    if l.isEmpty then s
    else
      let s := s.modBlock node fun b => { b with scrSoft := b.scrSoft.filter fun x => !mine x }
      let c := s.core b.core
      l.foldl (fun s x => s.corrected (dieOfCore b.core) (c.storeError b.core (c.physRow true node (x / 32)) (x % 32))) s

/-- Whether bytes of a node's scratchpad hold an uncorrectable error. -/
def Block.scrLost (b : Block) (off n : Nat) : Bool := b.scrBad.any fun x => decide (off ≤ 4 * x + 3) && decide (4 * x < off + n)

/-- A scratchpad with bytes written: errors in the words written are gone. -/
def Block.putScratch (b : Block) (off : Nat) (l : List Byte) : Block :=
  let keep := fun (x : Nat) => !(decide (off ≤ 4 * x) && decide (4 * x + 3 < off + l.length))
  { b with scratch := memPut b.scratch off l, scrSoft := b.scrSoft.filter keep, scrBad := b.scrBad.filter keep }

/-- R186: what a value-table compare, or the Burnisher, does with an uncorrectable error that it reads: the block of each owner rolls
back. -/
def State.lostRows (s : State) (nodes : List Nat) : State :=
  nodes.foldl (fun s n => s.sendOnce .blockRollback { node := n, num := 0x0401 }) s

/-- R187: an entry of a bank is copied to a spare: single-bit errors in it are corrected. -/
def State.scrub (s : State) (core bank entry : Nat) : State :=
  match (s.core core).holder (8 * entry + bank / 8) with
  | none => s
  | some (p, r) =>
    let first := 4 * (bank % 8)
    if p.scr then s.modBlock p.owner fun b =>
      { b with scrSoft := b.scrSoft.filter fun x => !(decide (32 * r + first ≤ x) && decide (x < 32 * r + first + 4)) }
    else s.modWarp p.owner fun w => w.setRow r { w.row r with soft := (w.row r).soft &&& ~~~((0xF : Lanes) <<< first) }

/-! ## Errors of accumulator tiles (R205) -/

/-- The words and scale bytes of a tile that stand in selected rows, column scales apart. -/
def tileRows (sel : Nat → Bool) (n : Nat) : Bool := if n < 256 then sel (n / 16) else decide (n < 272) && sel (n - 256)

/-- A tile with selected rows written, and the column scales where `cols` says so: the errors in them are gone. -/
def Tile.rewrote (t : Tile) (sel : Nat → Bool) (cols : Bool) : Tile :=
  let keep := fun (n : Nat) => !tileRows sel n && !(cols && decide (272 ≤ n))
  { t with soft := t.soft.filter keep, bad := t.bad.filter keep }

/-- R205: single-bit errors of a tile that the engine reads are repaired and reported. -/
def State.mendTile (s : State) (node n : Nat) : State :=
  match s.block? node with
  | none => s
  | some b =>
    let t := b.tiles.getD n {}
    if t.soft.isEmpty then s
    else
      let s := s.modBlock node fun b => { b with tiles := b.tiles.set n { b.tiles.getD n {} with soft := [] } }
      t.soft.foldl (fun s x => s.corrected (dieOfCore b.core)
        { unit := 3, core := b.core, place := Config.tilePlace node n, index := x }) s

end Sys2Proof.Machine
end

