-- ==== Sys2Proof/Machine/Lines.lean ====
section
/-! DEFINITION. A line at its home: atomics and merges, undo copies and dependences, and the performing of a write
(08 R251 to R258; 09 R270 to R274, R277, R281, R282). -/

namespace Sys2Proof.Machine

/-! ## Elements of atomics (R20, R251) -/

/-- Bytes of an element of a type of R20; a packed type's element is one half. -/
def elemBytes (ty : Nat) : Nat :=
  match ty with
  | 2 | 3 | 5 => 8
  | 6 | 7 => 2
  | _ => 4

/-- The float format of a type of R20. -/
def elemFmt (ty : Nat) : Option Fmt :=
  match ty with
  | 4 => some f32Fmt
  | 5 => some f64Fmt
  | 6 => some bf16Fmt
  | 7 => some f16Fmt
  | _ => none

/-- Whether an integer type of R20 is signed. -/
def elemSigned (ty : Nat) : Bool := decide (ty = 0) || decide (ty = 2)

/-- R251: an operation on the memory value and the operand: 0 add, 1 min, 2 max, 3 and, 4 or, 5 xor, 6 exchange. Floats round
RNE and set no flag; integers wrap. -/
def elemOp (op ty x y : Nat) : Nat :=
  let w := 8 * elemBytes ty
  match op with
  | 3 => x &&& y
  | 4 => x ||| y
  | 5 => x ^^^ y
  | 6 => y
  | _ =>
    match elemFmt ty with
    | some f =>
      if op = 0 then (sumInOne f .rne false [fdec f x, fdec f y] [] [fdec f x, fdec f y]).bits
      else (fminmax f (decide (op = 2)) x y).bits
    | none =>
      let v := fun p => ofPat (elemSigned ty) w p
      if op = 0 then toPat w (v x + v y)
      else if op = 1 then (if v y < v x then y else x)
      else if v x < v y then y else x

/-- The identity of a contribution (R156, R255). -/
def elemIdent (op ty : Nat) : Nat :=
  let w := 8 * elemBytes ty
  match elemFmt ty with
  | some f => if op = 0 then 2 ^ (f.width - 1) else infCode f (decide (op = 2))
  | none =>
    if op = 0 then 0
    else toPat w (if op = 1 then intMax (elemSigned ty) w else intMin (elemSigned ty) w)

/-- An element of a line. -/
def lineElem (l : Line) (off ty : Nat) : Nat := leNat (lineBytes l off (elemBytes ty))

/-- A line with an element replaced. -/
def setLineElem (l : Line) (off ty x : Nat) : Line := putLineBytes l off (leBytes (elemBytes ty) x)

/-! ## Read-modify-writes (R251 to R254) -/

/-- One lane's returned value. -/
abbrev Back := Place × Nat

/-- The lanes of a list that name one element, and the others. -/
def sameElem (x : LaneOp) (l : List LaneOp) : List LaneOp × List LaneOp := l.partition fun y => decide (y.off = x.off)

/-- R252: the values that the lanes naming one element receive, in ascending lane order, from the old value on. -/
def laneResults (op ty : Nat) : Nat → List LaneOp → List Back
  | _, [] => []
  | v, x :: r => (x.back, v) :: laneResults op ty (elemOp op ty v x.x.toNat) r

/-- R252: one merged update of an element by the operands of the lanes that name it. -/
def mergedOperand (op ty : Nat) : List LaneOp → Nat
  | [] => 0
  | x :: r => r.foldl (fun t y => elemOp op ty t y.x.toNat) x.x.toNat

/-- `atom` and `red` on a line: each element named takes one merged update (R252). -/
def runAtom (op ty : Nat) : Nat → List LaneOp → Line → Line × List Back
  | 0, _, l => (l, [])
  | _, [], l => (l, [])
  | fuel + 1, x :: r, l =>
    let p := sameElem x (x :: r)
    let old := lineElem l x.off ty
    let new := elemOp op ty old (mergedOperand op ty p.1)
    let q := runAtom op ty fuel p.2 (setLineElem l x.off ty new)
    (q.1, laneResults op ty old p.1 ++ q.2)

/-- `cas`: lane after lane, each seeing the memory left by the one before (R252). -/
def runCas (ty : Nat) (lanes : List LaneOp) (l : Line) : Line × List Back :=
  let w := 8 * elemBytes ty
  lanes.foldl (fun (a : Line × List Back) x =>
    let old := lineElem a.1 x.off ty
    (if old = x.x.toNat % 2 ^ w then setLineElem a.1 x.off ty x.y.toNat else a.1, a.2 ++ [(x.back, old)])) (l, [])

/-- `amxr`: the first lane that names an element receives its old value, later ones +0; the element becomes +0 (R252). -/
def runAmxr (ty : Nat) (lanes : List LaneOp) (l : Line) : Line × List Back :=
  lanes.foldl (fun (a : Line × List Back) x => (setLineElem a.1 x.off ty 0, a.2 ++ [(x.back, lineElem a.1 x.off ty)])) (l, [])

/-- The bytes of a line that a list of parts touches. -/
def partBytes (l : List (Nat × Nat)) : BitVec 128 :=
  l.foldl (fun m p => m ||| ((((1#128 <<< p.2) - 1#128) : BitVec 128) <<< p.1)) 0

/-- The effect of a home operation on a line: the new line, the values returned, the bytes written. -/
def runHome (op : HomeOp) (l : Line) : Line × List Back × BitVec 128 :=
  match op with
  | .store ps => (ps.foldl (fun l p => putLineBytes l p.1 p.2) l, [], partBytes (ps.map fun p => (p.1, p.2.length)))
  | .atom o ty ls =>
    let r := runAtom o ty ls.length ls l
    (r.1, r.2, partBytes (ls.map fun x => (x.off, elemBytes ty)))
  | .cas ty ls =>
    let r := runCas ty ls l
    (r.1, r.2, partBytes (ls.map fun x => (x.off, elemBytes ty)))
  | .amxr ty ls =>
    let r := runAmxr ty ls l
    (r.1, r.2, partBytes (ls.map fun x => (x.off, elemBytes ty)))
  | .join | .writeBack | .merge => (l, [], 0)

/-- Whether an operation is a floating-point atomic (R11). -/
def isFloatAtomic : HomeOp → Bool
  | .atom _ ty _ => decide (4 ≤ ty)
  | .cas ty _ => decide (4 ≤ ty)
  | .amxr _ _ => true
  | _ => false

/-! ## Undo copies and dependences (R281, R282) -/

/-- The nodes that hold an undo copy of a line. -/
def HomeLine.holders (l : HomeLine) : List Nat := l.undo.map Prod.fst

/-- R282: a node that reads or writes a line depends on every other node that holds an undo copy of it. -/
def State.dependOn (s : State) (node line : Nat) : State :=
  if node = 0 then s
  else
    let hs := (s.line line).holders.filter (· ≠ node)
    if hs.isEmpty then s
    else s.modBlock node fun b => { b with deps := b.deps ++ hs.filter fun n => !b.deps.contains n }

/-- R281: a block's first write to a line saves an undo copy of it. -/
def State.stageUndo (s : State) (node line : Nat) : State :=
  match s.block? node with
  | none => s
  | some b =>
    if b.norev ∨ b.st = .committed ∨ (s.line line).holders.contains node then s
    else
      let data := s.lineData line
      (s.modLine line fun l => { l with undo := l.undo ++ [(node, l.ver, data)] }).modBlock node fun b =>
        { b with staged := if b.staged.contains line then b.staged else b.staged ++ [line] }

/-- Grid undos (R436): a proofed line's value before a grid's first write to it, with the number of the proof to come. -/
def State.gridSave (s : State) (node line rc : Nat) : State :=
  match s.block? node with
  | none => s
  | some b =>
    let home := s.homeOf line
    if rc ≠ 2 ∨ ((s.chip home).gridUndo.any fun u => decide (u.1 = b.gid) && decide (u.2.1 = line)) then s
    else s.modChip home fun c => { c with gridUndo := c.gridUndo ++
      [(b.gid, line, s.lineData line, s.podTime home / (s.cfg.t * 1000000) + 1)] }

/-! ## Performing a write (R270, R271) -/

/-- The lease horizon that serves a line (R270): of a line that is not in the L2, the die's horizon for lines not present. -/
def State.horizon (s : State) (line : Nat) : Nat :=
  let h := s.line line
  if h.way.isSome then h.h else max h.h (s.die (s.dieOf line)).horizon

/-! ## The L2 (R241, R246, R262, R270) -/

/-- The other lines in the L2 set of a line. -/
def State.setMates (s : State) (line : Nat) : List (Nat × HomeLine) :=
  s.lines.filter fun p => p.2.way.isSome && decide (p.1 ≠ line) && decide (s.dieOf p.1 = s.dieOf line) &&
    decide (lineSlice p.1 = lineSlice line) && decide (Config.l2Set p.1 = Config.l2Set line)

/-- A line leaves its home's L2: a dirty one reaches DRAM, and its lease horizon joins the die's. -/
def State.leaveL2 (s : State) (line : Nat) : State :=
  let s := s.checkL2 line
  let h := s.line line
  (s.modLine line fun h => { h with way := none, dirty := false }).modDie (s.dieOf line) fun d => { d with horizon := max d.horizon h.h }

/-- R246: the victim of a set: of the highest band, the line with the greatest re-reference value, then of the lowest way. -/
def setVictim (l : List (Nat × HomeLine)) : Option (Nat × HomeLine) := leastBy (fun p => [11 - p.2.rv, p.2.way.getD 0]) l

/-- R246: a line enters its set with a re-reference value, in a free way or in that of the victim, when the others of the victim's
band age; a keep line that would be the thirteenth enters as normal. -/
def State.enterL2 (s : State) (line rv : Nat) : State :=
  let mates := s.setMates line
  let rv := if rv < 4 ∧ 12 ≤ mates.countP (fun p => decide (p.2.rv < 4)) then rv + 4 else rv
  let out := (s.die (s.dieOf line)).waysOut.filterMap fun p => if p.1 = lineSlice line then some p.2 else none
  let put := fun (s : State) (w : Nat) => s.modLine line fun h => { h with way := some w, rv := rv, dirty := false, h := s.horizon line }
  match (List.range 16).find? fun w => !out.contains w && !mates.any fun p => decide (p.2.way = some w) with
  | some w => put s w
  | none => match setVictim mates with
    | none => s
    | some v =>
      let band := v.2.rv / 4
      let aged := mates.filter fun p => decide (p.1 ≠ v.1) && decide (p.2.rv / 4 = band)
      let s := aged.foldl (fun s p => s.modLine p.1 fun h => { h with rv := min (h.rv + 1) (4 * band + 3) }) s
      put (s.leaveL2 v.1) (v.2.way.getD 0)

/-- An access to a line at its home, of a class and place `rv` (R246): a hit sets the value to its band's base; a miss brings the line
in where its page allows it (R247). -/
def State.touch (s : State) (line : Nat) (rv : Nat := 4) (alloc : Bool := true) : State :=
  if (s.line line).way.isSome then s.modLine line fun h => { h with rv := rv / 4 * 4 }
  else if alloc then s.enterL2 line rv
  else s

/-- R395: the monitors armed on a line fire. -/
def State.fire (s : State) (line : Nat) : State :=
  if s.warps.any fun p => decide (p.2.monitor.map Prod.fst = some line) then
    { s with warps := s.warps.map fun p =>
        if p.2.monitor.map Prod.fst = some line then (p.1, { p.2 with monitor := some (line, true) }) else p }
  else s

/-- The sectors of a line that some bytes cover whole (R262). -/
def wholeSectors (m : BitVec 128) : List Nat :=
  [0, 1].filter fun k => decide (m.extractLsb' (64 * k) 64 = BitVec.allOnes 64)

/-- The buddy of a chip (R372): the live chip that follows it, in ascending cyclic order, within its dragonfly group. -/
def buddyIn (t : Tab PChip) (c : Nat) : Option Nat :=
  let g := ((tabLook t c).map PChip.group).getD 0
  let l := (t.filter fun p => decide (p.2.st = .live) && decide (p.2.group = g) && decide (p.1 ≠ c)).map Prod.fst
  (l.find? fun x => decide (c < x)).orElse fun _ => l.head?

/-- A chip's buddy as its own Plate has it. -/
def State.buddy (s : State) (c : Nat) : Option Nat := buddyIn (s.chip c).plate.chips c

/-- The completion time of a write that arrived at `came`, now where that is not given (R271); to a `mirrored` page, the later of the
home's and the buddy's (R372). -/
def State.writeCt (s : State) (line rc : Nat) (came : Option Nat := none) : Nat :=
  let a := came.getD (s.podTime (s.homeOf line))
  let ct := max a (s.horizon line)
  if rc = 1 then (match s.buddy (s.homeOf line) with
    | some b => max ct (s.podTime b)
    | none => ct) else ct

/-- A line's new contents at its home, as one write of some nodes with a completion time (R271): the count of writes rises, the
line is dirty, sectors wholly overwritten lose their poison, and monitors fire. -/
def State.putLine (s : State) (line : Nat) (nodes : List Nat) (ct : Nat) (bytes : BitVec 128) (new : Line) : State :=
  let now := s.podTime (s.homeOf line)
  let s := s.setLineData line new
  let s := s.modLine line fun l =>
    { l with
      ver := l.ver + 1
      dirty := l.way.isSome
      touched := true
      poison := l.poison.filter fun k => !(wholeSectors bytes).contains k
      fromL2 := l.fromL2.filter fun k => !(wholeSectors bytes).contains k
      l2bad := l.l2bad.filter fun k => !(wholeSectors bytes).contains k
      recent := (l.recent.filter fun r => decide (now < r.2.1 + 25)) ++ [(nodes, ct, bytes)] }
  s.fire line

/-! ## Merging a reduction line (R256, R257) -/

/-- Neighbours joined in pairs; a last one without a partner stays. -/
def joinPairs (op ty : Nat) : List Nat → List Nat
  | u :: w :: r => elemOp op ty u w :: joinPairs op ty r
  | l => l

/-- The pairwise tree over contributors, padded with absent leaves (R152, R256). -/
def rankTree (op ty : Nat) : Nat → List Nat → Option Nat
  | 0, l => l.head?
  | n + 1, l => if l.length ≤ 1 then l.head? else rankTree op ty n (joinPairs op ty l)

/-- A line with the contributions of ranked partials combined into it; an element that nobody contributed to is left (log 20: DEDUCED). -/
def mergeParts (op ty : Nat) (ps : List Partial) (l : Line) : Line :=
  let offs := (List.range (128 / elemBytes ty)).map (· * elemBytes ty)
  offs.foldl (fun l off =>
    if ps.any fun p => (tabLook p.elems off).isSome then
      let leaves := ps.map fun p => ((tabLook p.elems off).map BitVec.toNat).getD (elemIdent op ty)
      match rankTree op ty ps.length leaves with
      | some t => setLineElem l off ty (elemOp op ty (lineElem l off ty) t)
      | none => l
    else l) l

/-- A partial put in its place by ascending block id and warp index (R256). -/
def insertPartial (p : Partial) : List Partial → List Partial
  | [] => [p]
  | q :: r => if p.bid < q.bid ∨ (p.bid = q.bid ∧ p.idx < q.idx) then p :: q :: r else q :: insertPartial p r

/-- The fault record of a node for a line (R399). -/
def recordOf (b : Block) (kind addr pc : Nat) : FaultRec :=
  { pc := pc, addr := addr, block := b.bid, kind := kind, ngen := b.gen }

/-- REDUCTION_MERGE's effect (R256 to R258): the partials of every contributing warp are combined by rank into the line, as one
provisional write of every contributing block; two kinds of contribution leave the line and fault every contributor. The collect
finds every contribution made before it, one whose first message to the home is still under way included. -/
def State.mergeLine (s : State) (line : Nat) : State :=
  match (s.line line).red with
  | none => s
  | some _ =>
    let mine := fun (p : Partial) => decide (p.line = line) && p.merged.isNone
    let ps := (s.partials.filter mine).foldr insertPartial []
    let s := s.modLine line fun l => { l with red := none }
    match ps with
    | [] => s
    | p :: r =>
      let nodes := (ps.map Partial.node).eraseDups
      if r.any fun q => decide (q.op ≠ p.op) || decide (q.ty ≠ p.ty) then
        let s := { s with partials := s.partials.filter fun q => !mine q }
        nodes.foldl (fun s n => match s.block? n with
          | some b => s.sendOnce .faultRecord { node := n, record := recordOf b 4 (128 * line) 0 }
          | none => s) s
      else
        let s := nodes.foldl (fun s n => s.dependOn n line) s
        let rc := ps.foldl (fun m q => max m q.rc) 0
        let s := nodes.foldl (fun s n => (s.stageUndo n line).gridSave n line rc) s
        let s := (s.examine line).touch line
        let ct := s.writeCt line rc
        let new := mergeParts p.op p.ty ps (s.lineData line)
        let bytes := partBytes (ps.flatMap fun q => q.elems.map fun e => (e.1, elemBytes q.ty))
        let s := s.putLine line nodes ct bytes new
        let ver := (s.line line).ver
        let s := { s with partials := s.partials.map fun q => if mine q then { q with merged := some ver } else q }
        nodes.foldl (fun s n => s.modBlock n fun b => { b with lastCt := max b.lastCt ct }) s

/-! ## Waiting at the home (R274, R422) -/

/-- A line that the host or a pending switch holds back from a write; the host is asked for it. -/
def State.heldBack (s : State) (line : Nat) : Option State :=
  let h := s.line line
  if h.hostHeld then
    some (if h.backInv then s else (s.modLine line fun h => { h with backInv := true }).send .backInvalidateAnswer { line := line })
  else if h.sync.isSome then some s else none

/-- A write that is held back joins those that wait at its line, in arrival order, with the time it came. -/
def State.enqueue (s : State) (line : Nat) (c : Cue) : State :=
  let c := { c with came := some (c.came.getD (s.podTime (s.homeOf line))) }
  s.modLine line fun h => { h with waiting := h.waiting ++ [c] }

/-- The merge of a line, or its wait for a pending switch (R271, R274). -/
def State.mergeInTurn (s : State) (line : Nat) : State :=
  let h := s.line line
  if h.sync.isNone then s.mergeLine line
  else if h.waiting.any fun c => decide (c.op = .merge) then s
  else s.enqueue line { acc := { line := line }, op := .merge }

/-! ## The hub's own writes -/

/-- A write of the hub or of the host performed at the home now, unstaged (R365, R422, R435). The bytes lie in one line. -/
def State.hubPut (s : State) (key : Nat) (data : List Byte) : State :=
  let line := key / 128
  let s := ((s.mergeLine line).examine line).touch line
  s.putLine line [0] (s.writeCt line 0) (partBytes [(key % 128, data.length)]) (putLineBytes (s.lineData line) (key % 128) data)

/-- The same, once no pending switch and no copy of the host stands in its way. -/
def State.hubLine (s : State) (key : Nat) (data : List Byte) : State :=
  let line := key / 128
  match s.heldBack line with
  | some s => s.enqueue line { acc := { line := line }, op := .store [(key % 128, data)] }
  | none => s.hubPut key data

/-- The same for bytes that may cross lines, at most `fuel` of them. -/
def hubLines : Nat → State → Nat → List Byte → State
  | 0, s, _, _ => s
  | n + 1, s, key, data =>
    let here := 128 - key % 128
    if data.isEmpty then s else hubLines n (s.hubLine key (data.take here)) (key + here) (data.drop here)

/-- A write of the hub to consecutive bytes. -/
def State.hubWrite (s : State) (key : Nat) (data : List Byte) : State := hubLines (data.length / 128 + 2) s key data

/-- A write of the hub to a global address of a context; nothing happens where it does not translate. -/
def State.hubStore (s : State) (chip ctx ea : Nat) (data : List Byte) : State :=
  match s.resolve chip ctx ea with
  | some (key, _) => s.hubWrite key data
  | none => s

/-- Bytes at a memory key. -/
def State.bytesAt (s : State) (key n : Nat) : List Byte := memBytes s.mem key n

/-! ## Order logs (R432, R438) -/

/-- The debug block of a context on a chip: a block with a reserved byte that is not zero counts as all zero (R432). -/
def State.debugBlock (s : State) (chip ctx : Nat) : Option (Nat × List Byte) :=
  match (s.chip chip).saves.find? fun p => decide (p.1 = ctx) with
  | none => none
  | some p =>
    let key := devKey chip p.2.1
    let l := s.bytesAt key 64
    if (l.drop 33).any fun b => decide (b ≠ 0) then none else some (key, l)

/-- A field of a byte string. -/
def fieldAt (l : List Byte) (off n : Nat) : Nat := leNat ((l.drop off).take n)

/-- R430: the region context of a warp: the four top ids and the depth. -/
def Warp.region (w : Warp) : Nat × Nat :=
  ((((List.range 4).map fun i => (w.regions.getD i 0).toNat * 2 ^ (16 * i)).foldl (· + ·) 0), w.regions.length)

/-- Appends a record to a context's order log (R438): a record whose address fails to translate is dropped and LOST set. -/
def State.orderLog (s : State) (chip ctx : Nat) (rec_ : List Byte) : State :=
  match s.debugBlock chip ctx with
  | none => s
  | some (key, d) =>
    let len := fieldAt d 24 4
    let head := fieldAt d 28 4
    if len = 0 then s
    else match s.resolve chip ctx (fieldAt d 16 8 + 64 * (head % len)) with
      | some (k, _) => (s.hubWrite k rec_).hubWrite (key + 28) (leBytes 4 (head + 1))
      | none => s.hubWrite (key + 32) [d.getD 32 0 ||| 0x80]

/-- A log record (R438): its type, GID, bytes 8 to 47, REGION and RDEPTH. -/
def logRecord (ty gid : Nat) (body : List Byte) (region : Nat × Nat) : List Byte :=
  [BitVec.ofNat 8 ty, 0, 0, 0] ++ leBytes 4 gid ++ (body ++ List.replicate (40 - body.length) 0) ++ leBytes 8 region.1 ++
    leBytes 1 region.2 ++ List.replicate 7 0

/-- Logs a read of pod time by a warp (R438, type 3). -/
def State.logTick (s : State) (b : Block) (w : Warp) (pc value : Nat) : State :=
  s.orderLog b.chip b.ctx (logRecord 3 b.gid (leBytes 8 value ++ leBytes 4 b.bid ++ leBytes 4 w.idx ++ leBytes 8 pc) w.region)

end Sys2Proof.Machine
end

