-- ==== Sys2Proof/Machine/Names.lean ====
section
/-! DEFINITION. Content names and check sequences: the CRC-64 of a row (06 R175) and the CRC-32 of a flit or a transfer (12 R332). -/

namespace Sys2Proof.Machine

/-- One bit step of the ECMA-182 CRC, most significant bit first (R175). -/
def crc64Bits : Nat → BitVec 64 → BitVec 64
  | 0, c => c
  | n + 1, c => crc64Bits n (if c.getLsbD 63 then (c <<< 1) ^^^ 0x42F0E1EBA9EA3693 else c <<< 1)

/-- CRC-64 of bytes in ascending order (R175). -/
def crc64 (l : List Byte) : BitVec 64 := l.foldl (fun c b => crc64Bits 8 (c ^^^ BitVec.shiftLeft (b.setWidth 64) 56)) 0

/-- The content name of a row (R175). -/
def rowName (l : Line) : BitVec 64 := if l = 0 then 0 else crc64 (lineBytes l 0 128)

/-- One bit step of the CRC-32 of IEEE 802.3, least significant bit first (R332). -/
def crc32Bits : Nat → BitVec 32 → BitVec 32
  | 0, c => c
  | n + 1, c => crc32Bits n (if c.getLsbD 0 then (c >>> 1) ^^^ 0xEDB88320 else c >>> 1)

/-- CRC-32 of bytes in ascending order (R332). -/
def crc32 (l : List Byte) : BitVec 32 :=
  ~~~(l.foldl (fun c b => crc32Bits 8 (c ^^^ b.setWidth 32)) (BitVec.allOnes 32))

end Sys2Proof.Machine
end

