-- ==== Sys2Proof/Machine/Operands.lean ====
section
/-! DEFINITION. Operands: source and destination codes, pairs, immediates, the checks before an effect, the value table, and the
frame in which the vector and scalar pipes run (02 R22 to R38; 05 R126 to R130; 06 R164, R167, R168, R176 to R182). -/

namespace Sys2Proof.Machine

/-! ## Immediates -/

/-- V, the value of an extension chain, and its width (R32). -/
def chainVal (l : List (BitVec 25)) : Nat := l.foldl (fun v p => v * 2 ^ 25 + p.toNat) 0

/-- X of an I-form word: {V, i7} (R32). -/
def Cx.xBits (cx : Cx) : Nat := chainVal cx.ext * 128 + cx.info.imm7.toNat

/-- Width of X. -/
def Cx.xWidth (cx : Cx) : Nat := 25 * cx.ext.length + 7

/-- X as an unsigned count, index or identifier (R33). -/
def Cx.xUnsigned (cx : Cx) : Nat := cx.xBits

/-- A two's-complement value of `n` bits at width `w`, and whether bits other than sign copies were discarded (R34). -/
def immAt (w n x : Nat) : Nat × Bool :=
  let v := ofPat true n x
  (toPat w v, decide (w < n) && decide (ofPat true w (toPat w v) ≠ v))

/-- How an immediate's bits are read (R34 to R37). -/
inductive ImmAs
  /-- An integer of a width. -/
  | int (w : Nat)
  /-- A packed integer type of an element width (R35). -/
  | packed (w : Nat)
  /-- A float of a type code (R36, R37). -/
  | flt (tf : Nat)
deriving DecidableEq, Repr

/-- A float code's element placed in every element of its type (R36). -/
def fillElems (tf x : Nat) : Nat := if codeCount tf = 2 then x + 2 ^ 16 * x else x

/-- An extended float immediate's bits at TF, and whether bits were discarded that are not sign copies (R37); `n` is the width
and `k` the number of `ext` words. -/
def extFloat (tf k n x : Nat) (sat : Bool) : Nat × Bool :=
  let f := (fmtOf tf).getD f32Fmt
  let src := if k = 1 then f32Fmt else f64Fmt
  let pat := if k = 3 then x % 2 ^ 64 else x
  let lost := decide (k = 3) && decide (ofPat true 64 (x % 2 ^ 64) ≠ ofPat true n x)
  (fillElems tf (immDeliver f sat (fdec src pat)), lost)

/-- The immediate X of an I-form word (R34 to R37). -/
def Cx.immX (cx : Cx) (as_ : ImmAs) : Nat × Bool :=
  let k := cx.ext.length
  match as_ with
  | .int w => immAt w cx.xWidth cx.xBits
  | .packed w =>
    if k = 0 then (joinElems w (List.replicate (32 / w) (toPat w (ofPat true 7 cx.xBits))), false)
    else (cx.xBits % 2 ^ 32, decide (ofPat true 32 (cx.xBits % 2 ^ 32) ≠ ofPat true cx.xWidth cx.xBits))
  | .flt tf =>
    if k = 0 then (fillElems tf (bareDeliver ((fmtOf tf).getD f32Fmt) cx.sat cx.info.imm7), false)
    else extFloat tf k cx.xWidth cx.xBits cx.sat

/-- The value of source code 117 (R38): V alone; 0 with no chain. -/
def Cx.immV (cx : Cx) (as_ : ImmAs) : Nat × Bool :=
  let k := cx.ext.length
  let v := chainVal cx.ext
  if k = 0 then (0, false)
  else match as_ with
    | .int w => immAt w (25 * k) v
    | .packed _ => immAt 32 (25 * k) v
    | .flt tf => extFloat tf k (25 * k + 7) (v * 128) cx.sat

/-! ## Sources (R22, R24, R25) -/

/-- A source operand: its code, whether it is read as 64 bits, and how code 117 is read for it. -/
structure Src where
  code : Code
  wide : Bool := false
  imm : ImmAs := .int 32
  /-- The code is a destination's, whose old value is read. -/
  old : Bool := false
  /-- It gives a shift, rotate or bit-field count, whose discarded immediate bits set no warning (R34). -/
  count : Bool := false
deriving DecidableEq, Repr

/-- A 64-bit source. -/
def pairSrc (c : Code) : Src := { code := c, wide := true, imm := .int 64 }

/-- A scalar source (R25). -/
def Src.scalar (x : Src) : Bool :=
  let c := x.code.toNat
  if x.old then decide (96 ≤ c) else decide (96 ≤ c) && decide (c ≤ 119) && decide (c ≠ 113)

/-- The code with an odd pair code taken to the pair below (R24). -/
def pairCode (c : Code) : Nat := c.toNat / 2 * 2

/-- An odd code where a pair is meant (R24): registers only. -/
def oddPair (c : Code) (wide : Bool) : Bool := wide && decide (c.toNat < 112) && decide (c.toNat % 2 = 1)

/-- The first register code an operand names. -/
def regCode (c : Code) (wide : Bool) : Nat := if wide then pairCode c else c.toNat

/-- Where the instruction runs, for a value that the manual leaves open and that R13 keeps the same from run to run (log 6: DESIGN
CHOICE): the block, the warp, its loops, the word's address and the fibre. -/
def Cx.place (cx : Cx) (j : Nat) : List Nat := [cx.b.bid, cx.w.idx, cx.pc, j] ++ cx.w.loops.toList.map BitVec.toNat

/-- The 64-bit value of an operand in fibre `j` (R22, R24); a 32-bit read is zero-extended. -/
def Cx.val (cx : Cx) (x : Src) (j : Nat) : DWord :=
  let c := x.code.toNat
  let narrow := fun (d : DWord) => if x.wide then d else (d.setWidth 32).setWidth 64
  if c < 96 then
    let r := cx.w.base j + regCode x.code x.wide
    let lo := laneWord (cx.w.row r).data j
    if x.wide then laneWord (cx.w.row (r + 1)).data j ++ lo else lo.setWidth 64
  else if c < 112 then
    let r := regCode x.code x.wide - 96
    if x.wide then cx.w.sreg (r + 1) ++ cx.w.sreg r else (cx.w.sreg r).setWidth 64
  -- the old value of a destination that is no register is not stated (log 6: DESIGN CHOICE)
  else if x.old then narrow (Config.oldValue (cx.place j))
  else match c with
    | 112 => 0
    | 113 => BitVec.ofNat 64 j
    | 114 => BitVec.ofNat 64 (cx.w.idx % 2 ^ 32)
    | 115 => BitVec.ofNat 64 (cx.b.bid % 2 ^ 32)
    | 116 => narrow (BitVec.ofNat 64 cx.tick)
    | 117 => narrow (BitVec.ofNat 64 (cx.immV x.imm).1)
    | 118 => narrow (BitVec.allOnes 64)
    | 119 => BitVec.ofNat 64 (cx.b.cid % 2 ^ 32)
    | _ =>
      match cx.w.run with
      | some r => narrow ((r.latch.getD (c - 120) []).getD j 0)
      | none => 0

/-- The 32-bit value of an operand. -/
def Cx.val32 (cx : Cx) (x : Src) (j : Nat) : Word := (cx.val x j).setWidth 32

/-- The architectural rows an operand or destination names in fibre `j`. -/
def Cx.rowsOf (cx : Cx) (c : Code) (n : Nat) (wide : Bool) (j : Nat) : List Nat :=
  if c.toNat < 96 then (List.range n).map fun i => cx.w.base j + regCode c wide + i else []

/-- The scalar registers an operand or destination names. -/
def sregsOf (c : Code) (n : Nat) (wide : Bool) : List Nat :=
  if 96 ≤ c.toNat ∧ c.toNat < 112 then (List.range n).map fun i => regCode c wide - 96 + i else []

/-! ## Checks before an effect (R164, R167, R168) -/

/-- A use of registers: a code, how many registers from it on, whether an odd code falls back, the lanes, and whether it reads. -/
structure Use where
  code : Code
  n : Nat := 1
  wide : Bool := false
  lanes : Lanes
  read : Bool := true
deriving DecidableEq, Repr

/-- The uses of a list of sources in some lanes. -/
def readsOf (srcs : List Src) (lanes : Lanes) : List Use :=
  srcs.map fun x => { code := x.code, n := if x.wide then 2 else 1, wide := x.wide, lanes := lanes }

/-- The lowest lane and row at which a test holds of the rows the uses name. -/
def Cx.findRow (cx : Cx) (us : List Use) (p : Use → Nat → Nat → Bool) : Option (Nat × Nat) :=
  us.findSome? fun u =>
    (lanesOf u.lanes).findSome? fun j =>
      ((cx.rowsOf u.code u.n u.wide j).find? fun r => p u r j).map fun r => (j, r)

/-- What stands in the way of an instruction's register uses: a row outside the allocation traps; a pending or held row stalls;
an invalid lane read traps. -/
def Cx.useProblem (cx : Cx) (us : List Use) : Option Res :=
  match cx.findRow us fun _ r _ => decide (cx.w.rows.length ≤ r) with
  | some (j, r) => some (.trap { cause := .regRange, lane := j, addr := r })
  | none =>
    let waiting := fun (u : Use) (r : Nat) =>
      decide ((cx.w.row r).pend ≠ 0) || (!u.read && decide ((cx.w.row r).hold ≠ 0))
    let rows := us.flatMap fun u => (lanesOf u.lanes).flatMap fun j => (cx.rowsOf u.code u.n u.wide j).filter (waiting u)
    let srs := us.flatMap fun u =>
      if u.lanes = 0 then [] else (sregsOf u.code u.n u.wide).filter fun r => decide (vecAt cx.w.spend r 0 ≠ 0)
    if !rows.isEmpty || !srs.isEmpty then some (.stall {} (.regs rows srs))
    else (cx.findRow us fun u r j => u.read && !inSet (cx.w.row r).valid j).map fun p =>
      .trap { cause := .invalidReg, lane := p.1, addr := p.2 }

/-- The rows that some uses read in lanes where a mark stands. -/
def Cx.marked (cx : Cx) (us : List Use) (mark : RowSt → Lanes) : List (Nat × Lanes) :=
  us.flatMap fun u => if u.read then (lanesOf u.lanes).flatMap fun j => ((cx.rowsOf u.code u.n u.wide j).filter fun r =>
    inSet (mark (cx.w.row r)) j).map fun r => (r, laneBit j) else []

/-- R186: runs an effect once the words that some uses read are sound: an uncorrectable error is consumed, a single-bit error
repaired. -/
def Cx.sound (cx : Cx) (us : List Use) (s : State) (k : State → Res) : Res :=
  if (cx.marked us RowSt.bad).isEmpty then k ((cx.marked us RowSt.soft).foldl (fun s x => s.mendRow cx.k x.1 x.2) s)
  else .stall (s.storeLost cx.k) .told

/-- Runs an effect after the checks of its register uses. -/
def Cx.checked (cx : Cx) (us : List Use) (s : State) (k : State → Res) : Res :=
  match cx.useProblem us with
  | some (.stall _ r) => .stall s r
  | some r => r
  | none => cx.sound us s k

/-! ## Warnings of operands, and reads of pod time -/

/-- The warnings that sources set: odd pairs and discarded immediate bits. -/
def Cx.srcWarn (cx : Cx) (srcs : List Src) : Word :=
  srcs.foldl (fun a x => a ||| warnIf (oddPair x.code x.wide && !x.old) wPAIR
    ||| warnIf (decide (x.code = 117) && !x.old && !x.count && (cx.immV x.imm).2) wIMM) 0

/-- Whether the warp's kernel is `.det` (R11). -/
def State.isDet (s : State) (b : Block) : Bool := ((s.grid? b.gid).map GridRun.det).getD false

/-- Sets WARN bits of the issuing warp. -/
def Cx.warn (cx : Cx) (s : State) (x : Word) : State := if x = 0 then s else s.modWarp cx.k fun w => w.addWarn x

/-- A read of pod time: WARN.NDET in a `.det` kernel (R11, R12), and an order-log record (R438). -/
def Cx.readTime (cx : Cx) (value : Nat) (s : State) : State :=
  (cx.warn s (warnIf (s.isDet cx.b) wNDET)).logTick cx.b cx.w cx.first value

/-- The warnings of sources, with what a read of `tick` does; where no fibre of `lanes` reads, there is none (R21). -/
def Cx.noteSrcs (cx : Cx) (srcs : List Src) (s : State) (lanes : Lanes := cx.q) : State :=
  let s := cx.warn s (cx.srcWarn srcs)
  match srcs.find? fun x => decide (x.code = 116) && !x.old && decide (lanes ≠ 0) with
  | some x => cx.readTime (if x.wide then cx.tick else cx.tick % 2 ^ 32) s
  | none => s

/-! ## Destinations (R23, R24, R25) -/

/-- The warning of a destination: a code that is no register, an odd pair, and a vector result to a scalar register. -/
def dstWarn (d : Code) (wide vector : Bool) : Word :=
  let c := d.toNat
  warnIf (decide (112 ≤ c) && decide (c ≤ 126)) wDST ||| warnIf (oddPair d wide) wPAIR
    ||| warnIf (vector && decide (96 ≤ c) && decide (c < 112)) wDST

/-- Writes register code `c` in some fibres: each at its own window (R164). -/
def Cx.writeV (cx : Cx) (s : State) (c : Nat) (lanes : Lanes) (v : Nat → Word) : State :=
  let rows := (lanesOf lanes).foldl (fun l j => let r := cx.w.base j + c; if l.contains r then l else l ++ [r]) []
  rows.foldl (fun s r =>
    s.writeRow cx.k r ((lanesOf lanes).foldl (fun m j => if cx.w.base j + c = r then m ||| laneBit j else m) 0) v) s

/-- Writes a destination in the lanes of `lanes`: 32 bits, or 64 as a pair (R23, R24). A scalar register takes the value of the
lowest lane. -/
def Cx.writeDst (cx : Cx) (s : State) (d : Code) (wide : Bool) (lanes : Lanes) (v : Nat → DWord) : State :=
  let c := d.toNat
  if c < 96 then
    let r := regCode d wide
    let s := cx.writeV s r lanes fun j => (v j).setWidth 32
    if wide then cx.writeV s (r + 1) lanes fun j => (v j).extractLsb' 32 32 else s
  else if c < 112 then
    match lowestLane lanes with
    | none => s
    | some j =>
      let r := regCode d wide - 96
      let s := s.writeSreg cx.k r ((v j).setWidth 32)
      if wide then s.writeSreg cx.k (r + 1) ((v j).extractLsb' 32 32) else s
  else s

/-- A result that is one value for the whole warp: every fibre of Q receives it, and a scalar register takes it without a
warning (R169, R201, R312, R397). -/
def Cx.writeOnce (cx : Cx) (s : State) (d : Code) (wide : Bool) (v : DWord) : State :=
  let s := cx.warn s (dstWarn d wide false)
  cx.writeDst s d wide cx.q fun _ => v

/-! ## The value table (R176 to R182) -/

/-- One result of a lane: the register value, its flags, and whether it replays (R112). -/
structure LaneOut where
  v : DWord := 0
  fl : Flags := 0
  sub : Bool := false
deriving DecidableEq, Repr

/-- The window base that all fibres of a set share (R177). -/
def Cx.sameBase (cx : Cx) (lanes : Lanes) : Option Nat :=
  match lowestLane lanes with
  | none => none
  | some j => if (lanesOf lanes).all fun i => cx.w.base i = cx.w.base j then some (cx.w.base j) else none

/-- A source's items in a value-table key (R178). -/
def Cx.keyItems (cx : Cx) (base : Nat) (x : Src) : List KeyItem :=
  if x.code.toNat < 96 then
    (List.range (if x.wide then 2 else 1)).map fun i => .name (rowName (cx.w.row (base + regCode x.code x.wide + i)).data)
  else [.val (if x.code.toNat < 112 then 96 else x.code.toNat) (cx.val x 0)]

/-- The physical row that a row's map entry names (R174). -/
def Warp.owner (w : Warp) (k r : Nat) : Nat × Nat := (w.row r).share.getD (k, r)

/-- A source's physical rows with how often each has been written. -/
def Cx.keyRows (cx : Cx) (s : State) (base : Nat) (x : Src) : List (Nat × Nat × Nat) :=
  if x.code.toNat < 96 then
    (List.range (if x.wide then 2 else 1)).map fun i =>
      let p := cx.w.owner cx.k (base + regCode x.code x.wide + i)
      (p.1, p.2, ((s.warp? p.1).map fun w => (w.row p.2).ver).getD 0)
  else []

/-- The key of an eligible instruction with destination rows `rows` (R178). -/
def Cx.vkey (cx : Cx) (base : Nat) (srcs : List Src) (lanes : Lanes) (rows : List Nat) : VKey :=
  { op := cx.info.op, f7 := cx.info.f7, ti := cx.w.ti, tf := cx.w.tf, tc := cx.w.tc
    imm := chainVal cx.ext * 128 + cx.info.immBits, exts := cx.ext.length, rm := cx.w.rm
    sat := cx.sat, cen := cx.cen.isSome
    srcs := srcs.flatMap (cx.keyItems base)
    q := lanes
    old := if lanes = BitVec.allOnes 32 then [] else rows.map fun r => (rowName (cx.w.row r).data, (cx.w.row r).valid) }

/-- What the row at a physical place holds (R174). -/
def RowSt.held (x : RowSt) : Line := if x.share.isSome then x.own else x.data

/-- The physical row at a place, while its warp holds it. -/
def State.rowAt (s : State) (k r : Nat) : Option RowSt := ((s.warp? k).filter fun w => decide (w.live ≠ 0)).bind fun w => w.rows[r]?

/-- Whether the rows an entry recorded still stand for these source rows (R179, item 2): the same row unwritten since, or equal
contents in a row unwritten since; `none` tells a name match with unequal contents. -/
def rowsMatch (s : State) : List (Nat × Nat × Nat) → List (Nat × Nat × Nat) → Option Bool
  | [], [] => some true
  | (k, r, n) :: l, (k', r', n') :: l' =>
    let x := s.rowAt k r
    let fresh := decide (x.map RowSt.ver = some n)
    if k = k' ∧ r = r' ∧ fresh = true ∧ n = n' then rowsMatch s l l'
    else if fresh then
      if x.map RowSt.held = (s.rowAt k' r').map RowSt.held then rowsMatch s l l' else none
    else some false
  | _, _ => some false

/-- Whether a load entry's lines are all held under leases that run on (R179, item 4). -/
def linesHeld (s : State) (core now : Nat) (l : List Nat) : Bool :=
  l.all fun x => match tabLook (s.core core).copies x with
    | some c => c.live && decide (now < c.exp)
    | none => false

/-- The reference count of a physical row (R174). -/
def State.rc (s : State) (p : Nat × Nat) : Nat := ((s.warp? p.1).map fun w => 1 + (w.row p.2).refs.length).getD 15

/-- What a lookup finds: a hit, or a miss that may count a collision, with the owners of recorded rows in which the compare read an
uncorrectable error (R186). -/
inductive Look
  | hit (e : VEntry)
  | miss (collide : Bool) (lost : List Nat)
deriving DecidableEq, Repr

/-- A lookup (R179). -/
def Cx.look (cx : Cx) (s : State) (key : VKey) (rows : List (Nat × Nat × Nat)) : Look :=
  match (s.core cx.w.core).vtab.find? fun e => decide (e.key = key) && decide (e.ctx = cx.b.ctx) with
  | none => .miss false []
  | some e =>
    let lost := (e.srcs.filter fun p => !rows.contains p && decide ((s.rowAt p.1 p.2.1).map RowSt.bad ≠ some 0) &&
      (s.rowAt p.1 p.2.1).isSome).map fun p => p.1 / 32
    if !lost.isEmpty then .miss false lost
    else match rowsMatch s e.srcs rows with
    | none => .miss true []
    | some false => .miss false []
    | some true =>
      if (e.res.all fun p => decide (s.rc p < 15)) && linesHeld s cx.w.core cx.tick e.lines then .hit e else .miss false []

/-- Sharing of result row `p` by row `r` (R180). -/
def Cx.shareRow (cx : Cx) (s : State) (r : Nat) (p : Nat × Nat) : State :=
  match s.warp? cx.k, s.warp? p.1 with
  | some w, some v =>
    if w.owner cx.k r = p then s
    else
      let src := v.row p.2
      -- the map entry is changed and the own row is not written
      let old := w.row r
      let s := s.unshare cx.k r
      let s := s.modWarp p.1 fun v => v.setRow p.2 { v.row p.2 with refs := (v.row p.2).refs ++ [(cx.k, r)] }
      s.modWarp cx.k fun w => w.setRow r
        { w.row r with data := src.data, valid := src.valid, ver := old.ver, share := some p, refs := [], own := old.held }
  | _, _ => s

/-- A hit (R180): the result rows are shared, the recorded flags are set, REUSE counts it, and the entry becomes the most recent. -/
def Cx.takeHit (cx : Cx) (s : State) (e : VEntry) (rows : List Nat) : State :=
  let s := (rows.zip e.res).foldl (fun s p => cx.shareRow s p.1 p.2) s
  let s := s.modWarp cx.k fun w => { w.addFlags e.fl with reuse := w.reuse + 1 }
  s.modCore cx.w.core fun c =>
    if c.vtab.contains e then { c with vtab := e :: c.vtab.filter (fun x => decide (x ≠ e)) } else c

/-- The value-table set of a key: the hash is not given (R176). -/
def setOf (k : VKey) : Nat :=
  Config.valueSet ([k.op, k.f7, k.ti, k.tf, k.tc, k.imm, k.exts, k.rm, k.q.toNat] ++ k.srcs.map fun x => match x with
    | .name n => n.toNat
    | .val c v => c * 2 ^ 64 + v.toNat) % 256

/-- Replacement in a full set of 8: the least recent unmarked entry, else the least recent (R176). -/
def evictSet (l : List VEntry) (n : Nat) : List VEntry :=
  let mine := l.filter fun e => decide (setOf e.key = n)
  if mine.length < 8 then l
  else
    let gone := ((mine.filter fun e => !e.keep).getLast?).orElse fun _ => mine.getLast?
    match gone with
    | some e => l.filter fun x => decide (x ≠ e)
    | none => l

/-- A core with an entry made after a miss, unless a live one of the key exists (R180). -/
def Core.insert (c : Core) (e : VEntry) : Core :=
  if c.vtab.any fun x => decide (x.key = e.key) && decide (x.ctx = e.ctx) then c
  else if c.vtab.length < 8 then { c with vtab := e :: c.vtab }
  else { c with vtab := e :: evictSet c.vtab (setOf e.key) }

/-! ## The frame of the vector and scalar pipes (R128) -/

/-- An instruction of the pipes: its sources, its destination and width, and the result of each lane from the sources' values;
`reads` gives the lanes of each source whose values are taken, when they are not Q alone. -/
structure Pipe where
  srcs : List Src
  d : Code
  wide : Bool := false
  f : (Nat → Nat → DWord) → Nat → LaneOut
  /-- Registers read besides the sources: the old destination, which enters as a source. -/
  extra : Word := 0
  once : Bool := false
  eligible : Bool := true
  reads : Option (Lanes → List Use) := none
  /-- A uniform result, which sets no WARN.DST in a scalar register (R154). -/
  quiet : Bool := false
  /-- The lanes whose destination is written, when they are not all that produce (R154). -/
  only : Option ((Nat → Nat → DWord) → Lanes) := none
  /-- The upper pair of a quad destination (R157); the latch entry then holds it. -/
  hi : Option ((Nat → Nat → DWord) → Nat → DWord) := none

/-- The OR of the flags that lanes raise (R116). -/
def orFlags (lanes : Lanes) (f : Nat → LaneOut) : Flags := (lanesOf lanes).foldl (fun a j => a ||| (f j).fl) 0

/-- The latch entry of a producer (R26). -/
def latchEntry (lanes : Lanes) (v : Nat → DWord) : List DWord := allLanes.map fun j => if inSet lanes j then v j else 0

/-- Whether an instruction runs on the scalar pipe (R25). -/
def Pipe.scalar (p : Pipe) : Bool := p.srcs.all Src.scalar && scalarDst p.d

/-- The fibres that an instruction of the pipes acts in: Q, or the lowest active fibre where it runs once (R21, R25). -/
def Cx.lanesFor (cx : Cx) (p : Pipe) : Lanes :=
  if p.scalar || p.once then (match cx.lead with
    | some j => laneBit j
    | none => 0) else cx.q

/-- The destination code: a quad's falls back to its first (R24). -/
def Pipe.dstCode (p : Pipe) : Code :=
  if p.hi.isSome && decide (p.d.toNat < 112) then BitVec.ofNat 7 (p.d.toNat / 4 * 4) else p.d

/-- The registers that it uses. -/
def Cx.usesOf (cx : Cx) (p : Pipe) : List Use :=
  (match p.reads with
    | some r => r (cx.lanesFor p)
    | none => readsOf p.srcs (cx.lanesFor p)) ++
  [{ code := p.dstCode, n := if p.hi.isSome then 4 else if p.wide then 2 else 1, wide := p.wide, lanes := cx.lanesFor p, read := false }]

/-- The values of its sources. -/
def Cx.opsOf (cx : Cx) (p : Pipe) (i j : Nat) : DWord :=
  match p.srcs[i]? with
  | some x => cx.val x j
  | none => 0

/-- What its operands warn of (R50, R154), and what a read of pod time does. -/
def Cx.readied (cx : Cx) (p : Pipe) (s : State) : State :=
  cx.warn (cx.noteSrcs p.srcs s (cx.lanesFor p))
    (dstWarn p.d p.wide (!p.scalar && !p.quiet) ||| p.extra ||| warnIf (decide (p.dstCode ≠ p.d)) wPAIR)

/-- The latch entry that it pushes: a single result goes to every active lane whose own guard is true (R26). -/
def Cx.entryOf (cx : Cx) (p : Pipe) (v : Nat → DWord) : Option (List DWord) :=
  if !cx.info.producer then none
  else if p.scalar then (match cx.lead with
    | some j => some (latchEntry cx.q fun _ => v j)
    | none => some (latchEntry 0 v))
  else some (latchEntry (cx.lanesFor p) v)

/-- The lanes whose destination is written. -/
def Cx.wroteLanes (cx : Cx) (p : Pipe) : Lanes :=
  match p.only with
  | some f => f (cx.opsOf p)
  | none => cx.lanesFor p

/-- Its results are computed: flags and replays are raised, and the destination is written. -/
def Cx.calc (cx : Cx) (p : Pipe) (s : State) : State :=
  let out := p.f (cx.opsOf p)
  let lanes := cx.lanesFor p
  let s := s.modWarp cx.k fun w => (w.addFlags (orFlags lanes out)).addReplay ((lanesOf lanes).any fun j => (out j).sub)
  let s := cx.writeDst s p.dstCode p.wide (cx.wroteLanes p) fun j => (out j).v
  match p.hi with
  | some h => if p.d.toNat < 112 then cx.writeDst s (p.dstCode + 2) p.wide (cx.wroteLanes p) (h (cx.opsOf p)) else s
  | none => s

/-- The window base of an instruction that the value table may serve (R177). -/
def Cx.tableBase (cx : Cx) (p : Pipe) : Option Nat :=
  if p.eligible && p.hi.isNone && !cx.fresh && !p.scalar && decide (p.d.toNat < 96) && decide (cx.lanesFor p ≠ 0)
      && (p.srcs.all fun x => x.old || (decide (x.code.toNat < 120) && decide (x.code ≠ 116))) then
    cx.sameBase (cx.lanesFor p)
  else none

/-- The rows of its destination at a window base. -/
def Pipe.dstRows (p : Pipe) (base : Nat) : List Nat := (List.range (if p.wide then 2 else 1)).map fun i => base + regCode p.d p.wide + i

/-- The result of a lane in an entry's rows. -/
def State.sharedValue (s : State) (wide : Bool) (e : VEntry) (j : Nat) : DWord :=
  let at_ := fun (i : Nat) => match e.res[i]? with
    | some q => ((s.warp? q.1).map fun (v : Warp) => laneWord (v.row q.2).data j).getD 0
    | none => 0
  if wide then at_ 1 ++ at_ 0 else (at_ 0).setWidth 64

/-- R25, R128, R177 to R182: runs an instruction of the pipes. -/
def Cx.pipe (cx : Cx) (p : Pipe) (s : State) : Res :=
  cx.checked (cx.usesOf p) s fun s =>
    let n := cx.readied p s
    let out := fun j => (p.f (cx.opsOf p) j).v
    match cx.tableBase p with
    | none => .done (cx.calc p n) (cx.entryOf p (match p.hi with
        | some h => h (cx.opsOf p)
        | none => out))
    | some base =>
      let rows := p.dstRows base
      let key := cx.vkey base p.srcs (cx.lanesFor p) rows
      match cx.look n key (p.srcs.flatMap (cx.keyRows n base)) with
      | .hit e => .done (cx.takeHit n e rows) (cx.entryOf p (n.sharedValue p.wide e))
      | .miss collide lost =>
        let n := n.lostRows lost
        let s := cx.calc p (if collide then n.modWarp cx.k (fun w => { w with collide := w.collide + 1 }) else n)
        let s := s.modCore cx.w.core fun c => c.insert
            { key := key, ctx := cx.b.ctx, srcs := p.srcs.flatMap (cx.keyRows s base)
              res := rows.map fun r => (cx.k, r), fl := orFlags (cx.lanesFor p) (p.f (cx.opsOf p)), keep := cx.vt }
        .done s (cx.entryOf p out)

end Sys2Proof.Machine
end

