-- ==== Sys2Proof/Machine/IntegerOps.lean ====
section
/-! DEFINITION. Integer instructions, majors 0x18 to 0x37 (05 R131 to R139). -/

namespace Sys2Proof.Machine

/-- The warp's integer type (R40). -/
def Warp.itype (w : Warp) : IType := (itypeOf w.ti).getD ⟨true, 32, 1⟩

/-- Whether TI operands are pairs (R24). -/
def IType.wide (t : IType) : Bool := decide (t.width = 64)

/-- How immediates are read at an integer type (R34, R35). -/
def IType.imm (t : IType) : ImmAs := if t.count > 1 then .packed t.width else .int t.width

/-- A source read at TI. -/
def Cx.tiSrc (cx : Cx) (c : Code) : Src := { code := c, wide := cx.w.itype.wide, imm := cx.w.itype.imm }

/-- A source read as 32 bits whatever TI is (R131). -/
def wordSrc (c : Code) : Src := { code := c }

/-- The count of a shift, rotate or bit field (R34, R133, R135). -/
def countSrc (c : Code) : Src := { wordSrc c with count := true }

/-- The old destination as a source. -/
def Cx.oldSrc (cx : Cx) (d : Code) : Src := { code := d, wide := cx.w.itype.wide, old := true }

/-- The result patterns of the elements, as a register value (R95, R129). -/
def placeElems (t : IType) (l : List Nat) : DWord :=
  if t.count > 1 then BitVec.ofNat 64 (joinElems t.width l) else placeInt t.signed t.width (l.headD 0)

/-- R131: an exact result for each element, delivered with or without SAT. -/
def intLane (t : IType) (sat : Bool) (f : List Int → Int) (xs : List DWord) : LaneOut :=
  let rs := (List.range t.count).map fun i => intDeliver t.signed sat t.width (f (xs.map fun x => ofPat t.signed t.width (elemOf x t.width i)))
  { v := placeElems t (rs.map Prod.fst), fl := flagIf (rs.any Prod.snd) flSAT }

/-- A result that is computed on the elements' patterns. -/
def patLane (t : IType) (f : List Nat → Nat) (xs : List DWord) : LaneOut :=
  { v := placeElems t ((List.range t.count).map fun i => f (xs.map fun x => elemOf x t.width i)) }

/-- The frame's description of an R-form word of majors 0x18 to 0x4F. -/
def rInfo (op : Nat) (g : BitVec 4) (d a b : Code) : OpInfo :=
  { op := op, g := g, srcs := [a, b], dst := some d, producer := true }

/-- The frame's description of a U-form word. -/
def uInfo (op f7 : Nat) (g : BitVec 4) (d a : Code) : OpInfo :=
  { op := op, f7 := f7, g := g, srcs := [a], dst := some d, producer := true }

/-- The frame's description of an I-form word that has one source. -/
def iInfo (op : Nat) (g : BitVec 4) (d a i : Code) : OpInfo :=
  { op := op, g := g, srcs := [a], dst := some d, producer := true, ext := true, imm7 := i, immBits := i.toNat }

/-- Two TI sources and a TI destination. -/
def Cx.int2 (cx : Cx) (d a b : Code) (lane : IType → List DWord → LaneOut) (s : State) : Res :=
  let t := cx.w.itype
  cx.pipe { srcs := [cx.tiSrc a, cx.tiSrc b], d := d, wide := t.wide, f := fun v j => lane t [v 0 j, v 1 j] } s

/-- One TI source, an immediate at TI and a TI destination. -/
def Cx.intImm (cx : Cx) (d a : Code) (lane : IType → List DWord → LaneOut) (s : State) : Res :=
  let t := cx.w.itype
  let x := cx.immX t.imm
  cx.pipe { srcs := [cx.tiSrc a], d := d, wide := t.wide, extra := warnIf x.2 wIMM, f := fun v j => lane t [v 0 j, BitVec.ofNat 64 x.1] } s

/-- One TI source and a TI destination. -/
def Cx.int1 (cx : Cx) (d a : Code) (lane : IType → List DWord → LaneOut) (s : State) : Res :=
  let t := cx.w.itype
  cx.pipe { srcs := [cx.tiSrc a], d := d, wide := t.wide, f := fun v j => lane t [v 0 j] } s

/-- A TI source and a 32-bit count source (R133). -/
def Cx.shift2 (cx : Cx) (d a b : Code) (lane : IType → Nat → List DWord → LaneOut) (s : State) : Res :=
  let t := cx.w.itype
  cx.pipe { srcs := [cx.tiSrc a, countSrc b], d := d, wide := t.wide,
            f := fun v j => lane t ((v 1 j).toNat % (if t.wide then 64 else 32)) [v 0 j] } s

/-- A TI source and an immediate count: the low bits of X, with no warning (R34). -/
def Cx.shiftImm (cx : Cx) (d a : Code) (lane : IType → Nat → List DWord → LaneOut) (s : State) : Res :=
  let t := cx.w.itype
  let c := cx.xBits % (if t.wide then 64 else 32)
  cx.pipe { srcs := [cx.tiSrc a], d := d, wide := t.wide, f := fun v j => lane t c [v 0 j] } s

/-! ## The elements' functions -/

/-- The first and second operands. -/
def arg0 (l : List Int) : Int := l.getD 0 0
def arg1 (l : List Int) : Int := l.getD 1 0
def arg2 (l : List Int) : Int := l.getD 2 0
def pat0 (l : List Nat) : Nat := l.getD 0 0
def pat1 (l : List Nat) : Nat := l.getD 1 0

/-- R132: the quotient of an element. -/
def divElem (t : IType) (a b : Int) : Int :=
  if b = 0 then ((2 ^ t.width : Nat) : Int) - 1 else Int.tdiv a b

/-- R132: the remainder of an element. -/
def remElem (a b : Int) : Int := if b = 0 then a else a - Int.tdiv a b * b

/-- R133: the shifts and the rotation of a pattern of `w` bits. -/
def shlPat (w c x : Nat) : Nat := if c < w then x * 2 ^ c else 0
def shrPat (w c x : Nat) : Nat := if c < w then x / 2 ^ c else 0
def sarPat (w c x : Nat) : Nat := toPat w (ofPat true w x / ((2 ^ (min c w) : Nat) : Int))
def rotPat (w c x : Nat) : Nat := let k := c % w; x * 2 ^ k % 2 ^ w + x / 2 ^ (w - k)

/-- R139: counts and reversals of a pattern of `w` bits. -/
def popPat (w x : Nat) : Nat := ((List.range w).filter fun i => x.testBit i).length
def clzPat (w x : Nat) : Nat := if x = 0 then w else w - 1 - Nat.log2 x
def ctzPat (w x : Nat) : Nat := ((List.range w).takeWhile fun i => !x.testBit i).length
def brevPat (w x : Nat) : Nat := (List.range w).foldl (fun a i => 2 * a + (if x.testBit i then 1 else 0)) 0
def bswapPat (w x : Nat) : Nat := (List.range (w / 8)).foldl (fun a i => 256 * a + x / 2 ^ (8 * i) % 256) 0

/-- R135: the width a field is taken in, 32 for a packed TI. -/
def fieldWidth (t : IType) : Nat := if t.count > 1 then 32 else t.width

/-- R135: the position and length of a field within `w` bits. -/
def fieldOf (w : Nat) (b : DWord) : Nat × Nat :=
  let pos := b.toNat % 256
  let len := b.toNat / 256 % 256
  (pos, if w ≤ pos then 0 else min len (w - pos))

/-- R135: the extracted field. -/
def bfxLane (t : IType) (a b : DWord) : LaneOut :=
  let w := fieldWidth t
  let (pos, len) := fieldOf w b
  if len = 0 then {} else { v := placeInt t.signed w (toPat w (ofPat t.signed len (a.toNat % 2 ^ w / 2 ^ pos))) }

/-- R135: the old value with the field replaced. -/
def bfiLane (t : IType) (a b old : DWord) : LaneOut :=
  let w := fieldWidth t
  let (pos, len) := fieldOf w b
  let o := old.toNat % 2 ^ w
  let field := (o / 2 ^ pos) % 2 ^ len * 2 ^ pos
  { v := placeInt t.signed w (o - field + a.toNat % 2 ^ len * 2 ^ pos) }

/-- R138: the sum of absolute differences added to the old value. -/
def sadLane (t : IType) (a b old : DWord) : LaneOut :=
  let n := (List.range t.count).foldl (fun n i =>
    n + (ofPat t.signed t.width (elemOf a t.width i) - ofPat t.signed t.width (elemOf b t.width i)).natAbs) 0
  { v := if t.wide then old + BitVec.ofNat 64 n else BitVec.ofNat 64 ((old.toNat + n) % 2 ^ 32) }

/-- R137: the size of a TI element in bytes. -/
def IType.bytes (t : IType) : Nat := t.width / 8

/-- The code of a pair's high register. -/
def highCode (d : Code) : Code := if d.toNat < 112 then d ||| 1 else d

/-! ## The instructions -/

/-- R134, R131: a + b. -/
def execAdd (g : BitVec 4) (d a b : Code) (s : State) : Host.Outcome State Fault Refusal :=
  issued { rInfo 0x18 g d a b with sat := true } s fun cx => cx.int2 d a b fun t => intLane t cx.sat fun l => arg0 l + arg1 l

/-- R134, R131: a + X. -/
def execAddi (g : BitVec 4) (d a i : Code) (s : State) : Host.Outcome State Fault Refusal :=
  issued { iInfo 0x19 g d a i with sat := true } s fun cx => cx.intImm d a fun t => intLane t cx.sat fun l => arg0 l + arg1 l

/-- R134, R131: a - b. -/
def execSub (g : BitVec 4) (d a b : Code) (s : State) : Host.Outcome State Fault Refusal :=
  issued { rInfo 0x1A g d a b with sat := true } s fun cx => cx.int2 d a b fun t => intLane t cx.sat fun l => arg0 l - arg1 l

/-- R134, R131: a × b, low half. -/
def execMul (g : BitVec 4) (d a b : Code) (s : State) : Host.Outcome State Fault Refusal :=
  issued { rInfo 0x1B g d a b with sat := true } s fun cx => cx.int2 d a b fun t => intLane t cx.sat fun l => arg0 l * arg1 l

/-- R134, R131: a × X. -/
def execMuli (g : BitVec 4) (d a i : Code) (s : State) : Host.Outcome State Fault Refusal :=
  issued { iInfo 0x1C g d a i with sat := true } s fun cx => cx.intImm d a fun t => intLane t cx.sat fun l => arg0 l * arg1 l

/-- R134: the high half of the product. -/
def execMulh (g : BitVec 4) (d a b : Code) (s : State) : Host.Outcome State Fault Refusal :=
  issued { rInfo 0x1D g d a b with sat := false } s fun cx => cx.int2 d a b fun t => intLane t false fun l => arg0 l * arg1 l / ((2 ^ t.width : Nat) : Int)

/-- R134, R42: a × b + c, where c is the old d or source C under CEN. -/
def execMad (g : BitVec 4) (d a b : Code) (s : State) : Host.Outcome State Fault Refusal :=
  issued { rInfo 0x1E g d a b with sat := true, cen := true } s fun cx s =>
    let t := cx.w.itype
    let c := match cx.cen with
      | some c => cx.tiSrc c
      | none => cx.oldSrc d
    cx.pipe { srcs := [cx.tiSrc a, cx.tiSrc b, c], d := d, wide := t.wide,
              f := fun v j => intLane t cx.sat (fun l => arg0 l * arg1 l + arg2 l) [v 0 j, v 1 j, v 2 j] } s

/-- R132: the quotient; no latch. -/
def execDiv (g : BitVec 4) (d a b : Code) (s : State) : Host.Outcome State Fault Refusal :=
  issued { rInfo 0x1F g d a b with producer := false } s fun cx => cx.int2 d a b fun t => intLane t false fun l => divElem t (arg0 l) (arg1 l)

/-- R132: the remainder; no latch. -/
def execRem (g : BitVec 4) (d a b : Code) (s : State) : Host.Outcome State Fault Refusal :=
  issued { rInfo 0x20 g d a b with producer := false } s fun cx => cx.int2 d a b fun t => intLane t false fun l => remElem (arg0 l) (arg1 l)

/-- R134: the smaller. -/
def execMin (g : BitVec 4) (d a b : Code) (s : State) : Host.Outcome State Fault Refusal :=
  issued { rInfo 0x21 g d a b with sat := false } s fun cx => cx.int2 d a b fun t => intLane t false fun l => if arg0 l ≤ arg1 l then arg0 l else arg1 l

/-- R134: the larger. -/
def execMax (g : BitVec 4) (d a b : Code) (s : State) : Host.Outcome State Fault Refusal :=
  issued { rInfo 0x22 g d a b with sat := false } s fun cx => cx.int2 d a b fun t => intLane t false fun l => if arg0 l ≤ arg1 l then arg1 l else arg0 l

/-- R134: bitwise and. -/
def execAnd (g : BitVec 4) (d a b : Code) (s : State) : Host.Outcome State Fault Refusal :=
  issued { rInfo 0x23 g d a b with sat := false } s fun cx => cx.int2 d a b fun t => patLane t fun l => pat0 l &&& pat1 l

/-- R134: bitwise and with X. -/
def execAndi (g : BitVec 4) (d a i : Code) (s : State) : Host.Outcome State Fault Refusal :=
  issued { iInfo 0x24 g d a i with sat := false } s fun cx => cx.intImm d a fun t => patLane t fun l => pat0 l &&& pat1 l

/-- R134: bitwise or. -/
def execOr (g : BitVec 4) (d a b : Code) (s : State) : Host.Outcome State Fault Refusal :=
  issued { rInfo 0x25 g d a b with sat := false } s fun cx => cx.int2 d a b fun t => patLane t fun l => pat0 l ||| pat1 l

/-- R134: bitwise or with X. -/
def execOri (g : BitVec 4) (d a i : Code) (s : State) : Host.Outcome State Fault Refusal :=
  issued { iInfo 0x26 g d a i with sat := false } s fun cx => cx.intImm d a fun t => patLane t fun l => pat0 l ||| pat1 l

/-- R134: bitwise exclusive or. -/
def execXor (g : BitVec 4) (d a b : Code) (s : State) : Host.Outcome State Fault Refusal :=
  issued { rInfo 0x27 g d a b with sat := false } s fun cx => cx.int2 d a b fun t => patLane t fun l => pat0 l ^^^ pat1 l

/-- R134: bitwise exclusive or with X. -/
def execXori (g : BitVec 4) (d a i : Code) (s : State) : Host.Outcome State Fault Refusal :=
  issued { iInfo 0x28 g d a i with sat := false } s fun cx => cx.intImm d a fun t => patLane t fun l => pat0 l ^^^ pat1 l

/-- R133: left shift by a register count. -/
def execShl (g : BitVec 4) (d a b : Code) (s : State) : Host.Outcome State Fault Refusal :=
  issued (rInfo 0x29 g d a b) s fun cx => cx.shift2 d a b fun t c => patLane t fun l => shlPat t.width c (pat0 l)

/-- R133: left shift by an immediate count. -/
def execShli (g : BitVec 4) (d a i : Code) (s : State) : Host.Outcome State Fault Refusal :=
  issued (iInfo 0x2A g d a i) s fun cx => cx.shiftImm d a fun t c => patLane t fun l => shlPat t.width c (pat0 l)

/-- R133: logical right shift by a register count. -/
def execShr (g : BitVec 4) (d a b : Code) (s : State) : Host.Outcome State Fault Refusal :=
  issued (rInfo 0x2B g d a b) s fun cx => cx.shift2 d a b fun t c => patLane t fun l => shrPat t.width c (pat0 l)

/-- R133: logical right shift by an immediate count. -/
def execShri (g : BitVec 4) (d a i : Code) (s : State) : Host.Outcome State Fault Refusal :=
  issued (iInfo 0x2C g d a i) s fun cx => cx.shiftImm d a fun t c => patLane t fun l => shrPat t.width c (pat0 l)

/-- R133: arithmetic right shift by a register count. -/
def execSar (g : BitVec 4) (d a b : Code) (s : State) : Host.Outcome State Fault Refusal :=
  issued (rInfo 0x2D g d a b) s fun cx => cx.shift2 d a b fun t c => patLane t fun l => sarPat t.width c (pat0 l)

/-- R133: arithmetic right shift by an immediate count. -/
def execSari (g : BitVec 4) (d a i : Code) (s : State) : Host.Outcome State Fault Refusal :=
  issued (iInfo 0x2E g d a i) s fun cx => cx.shiftImm d a fun t c => patLane t fun l => sarPat t.width c (pat0 l)

/-- R133: left rotation. -/
def execRot (g : BitVec 4) (d a b : Code) (s : State) : Host.Outcome State Fault Refusal :=
  issued (rInfo 0x2F g d a b) s fun cx => cx.shift2 d a b fun t c => patLane t fun l => rotPat t.width c (pat0 l)

/-- R139: negation. -/
def execNeg (g : BitVec 4) (d a : Code) (s : State) : Host.Outcome State Fault Refusal :=
  issued { uInfo 0x30 0 g d a with sat := true } s fun cx => cx.int1 d a fun t => intLane t cx.sat fun l => 0 - arg0 l

/-- R139: absolute value. -/
def execAbs (g : BitVec 4) (d a : Code) (s : State) : Host.Outcome State Fault Refusal :=
  issued { uInfo 0x30 1 g d a with sat := true } s fun cx => cx.int1 d a fun t => intLane t cx.sat fun l => if arg0 l < 0 then 0 - arg0 l else arg0 l

/-- R139: complement. -/
def execNot (g : BitVec 4) (d a : Code) (s : State) : Host.Outcome State Fault Refusal :=
  issued { uInfo 0x30 2 g d a with sat := false } s fun cx => cx.int1 d a fun t => patLane t fun l => 2 ^ t.width - 1 - pat0 l

/-- R139: set bits. -/
def execPopc (g : BitVec 4) (d a : Code) (s : State) : Host.Outcome State Fault Refusal :=
  issued { uInfo 0x30 3 g d a with sat := false } s fun cx => cx.int1 d a fun t => patLane t fun l => popPat t.width (pat0 l)

/-- R139: leading zeros. -/
def execClz (g : BitVec 4) (d a : Code) (s : State) : Host.Outcome State Fault Refusal :=
  issued { uInfo 0x30 4 g d a with sat := false } s fun cx => cx.int1 d a fun t => patLane t fun l => clzPat t.width (pat0 l)

/-- R139: trailing zeros. -/
def execCtz (g : BitVec 4) (d a : Code) (s : State) : Host.Outcome State Fault Refusal :=
  issued { uInfo 0x30 5 g d a with sat := false } s fun cx => cx.int1 d a fun t => patLane t fun l => ctzPat t.width (pat0 l)

/-- R139: bit reversal. -/
def execBrev (g : BitVec 4) (d a : Code) (s : State) : Host.Outcome State Fault Refusal :=
  issued { uInfo 0x30 6 g d a with sat := false } s fun cx => cx.int1 d a fun t => patLane t fun l => brevPat t.width (pat0 l)

/-- R139: byte reversal. -/
def execBswap (g : BitVec 4) (d a : Code) (s : State) : Host.Outcome State Fault Refusal :=
  issued { uInfo 0x30 7 g d a with sat := false } s fun cx => cx.int1 d a fun t => patLane t fun l => bswapPat t.width (pat0 l)

/-- R135: extracts a bit field. -/
def execBfx (g : BitVec 4) (d a b : Code) (s : State) : Host.Outcome State Fault Refusal :=
  issued (rInfo 0x31 g d a b) s fun cx s =>
    let t := cx.w.itype
    cx.pipe { srcs := [cx.tiSrc a, countSrc b], d := d, wide := t.wide, f := fun v j => bfxLane t (v 0 j) (v 1 j) } s

/-- R135: inserts a bit field into the old destination. -/
def execBfi (g : BitVec 4) (d a b : Code) (s : State) : Host.Outcome State Fault Refusal :=
  issued (rInfo 0x32 g d a b) s fun cx s =>
    let t := cx.w.itype
    cx.pipe { srcs := [cx.tiSrc a, countSrc b, cx.oldSrc d], d := d, wide := t.wide,
              f := fun v j => bfiLane t (v 0 j) (v 1 j) (v 2 j) } s

/-- R136: a 32-bit sum with the carry in and out of the pair's high register. -/
def execAddc (g : BitVec 4) (d a b : Code) (s : State) : Host.Outcome State Fault Refusal :=
  issued (rInfo 0x33 g d a b) s fun cx s =>
    cx.pipe { srcs := [wordSrc a, wordSrc b, { code := highCode d, old := true }], d := d, wide := true,
              f := fun v j =>
                { v := BitVec.ofNat 64 ((v 0 j).toNat % 2 ^ 32 + (v 1 j).toNat % 2 ^ 32 + (v 2 j).toNat % 2) } } s

/-- R137: the pair A + sext(b32) × S. -/
def execLea (g : BitVec 4) (d a b : Code) (s : State) : Host.Outcome State Fault Refusal :=
  issued (rInfo 0x34 g d a b) s fun cx s =>
    let t := cx.w.itype
    cx.pipe { srcs := [{ code := a, wide := true, imm := .int 64 }, wordSrc b], d := d, wide := true,
              f := fun v j => { v := v 0 j + ((v 1 j).setWidth 32).signExtend 64 * BitVec.ofNat 64 t.bytes } } s

/-- R137: a copy of a register or, at a 64-bit TI, of a pair. -/
def execMov (g : BitVec 4) (d a b : Code) (s : State) : Host.Outcome State Fault Refusal :=
  issued { rInfo 0x35 g d a b with srcs := [a], rsv := decide (b ≠ 0) } s fun cx s =>
    let w := cx.w.itype.wide
    cx.pipe { srcs := [{ code := a, wide := w, imm := .int (if w then 64 else 32) }], d := d, wide := w, f := fun v j => { v := v 0 j } } s

/-- R137: X at TI. -/
def execMovi (g : BitVec 4) (d a i : Code) (s : State) : Host.Outcome State Fault Refusal :=
  issued { iInfo 0x36 g d a i with srcs := [], rsv := decide (a ≠ 0) } s fun cx s =>
    let t := cx.w.itype
    let x := cx.immX t.imm
    cx.pipe { srcs := [], d := d, wide := t.wide, extra := warnIf x.2 wIMM,
              f := fun _ _ => patLane t (fun l => pat0 l) [BitVec.ofNat 64 x.1] } s

/-- R138: adds absolute differences to the old destination. -/
def execSad (g : BitVec 4) (d a b : Code) (s : State) : Host.Outcome State Fault Refusal :=
  issued (rInfo 0x37 g d a b) s fun cx s =>
    let t := cx.w.itype
    cx.pipe { srcs := [cx.tiSrc a, cx.tiSrc b, cx.oldSrc d], d := d, wide := t.wide,
              f := fun v j => sadLane t (v 0 j) (v 1 j) (v 2 j) } s

end Sys2Proof.Machine
end

