-- ==== Sys2Proof/Machine/Sfu.lean ====
section
/-! DEFINITION. Special functions: tables from their stated formula, reductions and special operands (04 R118 to R124).

A table's coefficients are computed from R119 in fixed point with 160 fraction bits, far beyond the 30 bits they keep. -/

namespace Sys2Proof.Machine

/-- The fixed-point unit, 2^160. -/
def fxOne : Int := 2 ^ 160

/-- A fixed-point product. -/
def fxMul (a b : Int) : Int := a * b / fxOne
/-- A fixed-point quotient. -/
def fxDiv (a b : Int) : Int := a * fxOne / b

/-- The sum of `t`, `t × x / (n × d)`, … : `n` counts the terms, `step` gives each term's divisor. -/
def fxSeries (x : Int) (div : Nat → Int) : Nat → Nat → Int → Int
  | 0, _, _ => 0
  | fuel + 1, n, t => t + fxSeries x div fuel (n + 1) (fxMul t x / div n)

/-- e^x by its Taylor series, for 0 ≤ x ≤ 1. -/
def fxExp (x : Int) : Int := fxSeries x (fun n => (n : Int) + 1) 60 0 fxOne

/-- The sum of x^(2n+1) / (2n+1) with the signs of `s2`, which is x² for atanh and -x² for atan. -/
def fxOddSeries (s2 : Int) : Nat → Nat → Int → Int
  | 0, _, _ => 0
  | fuel + 1, n, p => p / (2 * (n : Int) + 1) + fxOddSeries s2 fuel (n + 1) (fxMul p s2)

/-- atanh x for |x| ≤ 1/3. -/
def fxAtanh (x : Int) : Int := fxOddSeries (fxMul x x) 60 0 x
/-- arctan x for |x| ≤ 1/5. -/
def fxAtan (x : Int) : Int := fxOddSeries (-(fxMul x x)) 60 0 x

/-- ln 2. -/
def fxLn2 : Int := 2 * fxAtanh (fxOne / 3)
/-- π, by Machin's formula. -/
def fxPi : Int := 16 * fxAtan (fxOne / 5) - 4 * fxAtan (fxOne / 239)

/-- sin x by its Taylor series, for 0 ≤ x ≤ π/2. -/
def fxSin (x : Int) : Int := fxSeries (-(fxMul x x)) (fun n => (2 * (n : Int) + 2) * (2 * (n : Int) + 3)) 40 0 x

/-- e^x for 0 ≤ x ≤ 32: the 32nd power of e^(x/32). -/
def fxExpBig (x : Int) : Int :=
  let sq := fun (a : Int) => fxMul a a
  sq (sq (sq (sq (sq (fxExp (x / 32))))))

/-- R121: the functions that the tables hold, in fixed point. -/
def gExp2 (u : Int) : Int := fxExp (fxMul u fxLn2)
def gLog2 (u : Int) : Int :=
  if u = 0 then fxDiv fxOne fxLn2
  else fxDiv (fxDiv (2 * fxAtanh (fxDiv u (2 * fxOne + u))) u) fxLn2
def gSin (u : Int) : Int := if u = 0 then fxPi / 2 else fxDiv (fxSin (fxMul fxPi u / 2)) u
def gCos (u : Int) : Int := gSin (fxOne - u)
def gTanhLow (a : Int) : Int :=
  if a = 0 then fxOne
  else
    let x := fxExpBig (2 * a)
    fxDiv (fxDiv (x - fxOne) (x + fxOne)) a
def gTanhHigh (a : Int) : Int := fxDiv (2 * fxOne) (fxExpBig (2 * a) + fxOne)

/-- The nearest integer to x × 2^30, a tie to the even one (R119). -/
def fxCoeff (x : Int) : Int :=
  let d : Int := 2 ^ 130
  let k := x / d
  let r := x % d
  if 2 * r > d ∨ (2 * r = d ∧ k % 2 = 1) then k + 1 else k

/-- R119 and R120: y × 2^30 in segment `i` at `h`, where the segments have width `wn / wd` and begin at `lo`. -/
def segEval (g : Int → Int) (lo wn wd : Int) (i h : Int) : Int :=
  let x0 := (lo * wd + i * wn) * fxOne / wd
  let x1 := (lo * wd + (i + 1) * wn) * fxOne / wd
  let g0 := g x0
  let gm := g ((x0 + x1) / 2)
  let g1 := g x1
  let a := fxCoeff g0
  let b := fxCoeff (-3 * g0 + 4 * gm - g1)
  let c := fxCoeff (2 * g0 - 4 * gm + 2 * g1)
  let k1 := c * h / 2 ^ 24
  a + (b + k1) * h / 2 ^ 24

/-- The floor of m × 2^e × num / den, for e bounded below by the reduction's range. -/
def floorScaled (m : Nat) (e : Int) (num den : Nat) : Nat :=
  if e ≥ 0 then m * 2 ^ e.toNat * num / den else m * num / (den * 2 ^ (-e).toNat)

/-- A table of 256 segments on [0, 1) at u = m × 2^e. -/
def unitTable (g : Int → Int) (m : Nat) (e : Int) : Int :=
  let t := floorScaled m e (2 ^ 32) 1
  segEval g 0 1 256 ((t / 2 ^ 24 : Nat) : Int) ((t % 2 ^ 24 : Nat) : Int)

/-- The fraction of m × 2^e in [0, 1) as a pair with the same exponent, and the integer part (for the magnitude). -/
def splitFrac (m : Nat) (e : Int) : Nat × Nat :=
  if e ≥ 0 then (m * 2 ^ e.toNat, 0) else (m / 2 ^ (-e).toNat, m % 2 ^ (-e).toNat)

/-- floor and fraction of a signed value: x = n + f × 2^e, 0 ≤ f × 2^e < 1. -/
def floorFrac (neg : Bool) (m : Nat) (e : Int) : Int × Nat :=
  let (i, f) := splitFrac m e
  if neg then (if f = 0 then (-(i : Int), 0) else (-(i : Int) - 1, 2 ^ (-e).toNat - f)) else ((i : Int), f)

/-- An exact value from a signed integer and an exponent. -/
def fvOfInt (x : Int) (e : Int) : FV := .fin (decide (x < 0)) x.natAbs e

/-- `fexp2` of a finite value (R121). -/
def exp2Fin (neg : Bool) (m : Nat) (e : Int) : FV :=
  let (n, f) := floorFrac neg m e
  fvOfInt (unitTable gExp2 f (min e 0)) (n - 30)

/-- `flog2` of a positive finite value (R121). -/
def log2Fin (m : Nat) (e : Int) : FV :=
  let l := Nat.log2 m
  let u := m - 2 ^ l
  let y := unitTable gLog2 u (-(l : Int))
  let ex : Int := (l : Int) + e
  fvOfInt (ex * 2 ^ (l + 30) + (u : Int) * y) (-(l : Int) - 30)

/-- `fsin` (0) or `fcos` (1) of a finite value, in turns (R121). -/
def sincosFin (isCos : Bool) (neg : Bool) (m : Nat) (e : Int) : FV :=
  let (_, f) := floorFrac neg m e
  let s := (-(min e 0)).toNat
  let four := 4 * f
  let q := four / 2 ^ s
  let u := four % 2 ^ s
  let sv := (u : Int) * unitTable gSin u (-(s : Int))
  let cv := ((2 ^ s - u : Nat) : Int) * unitTable gCos u (-(s : Int))
  let z := match isCos, q with
    | false, 0 => sv
    | false, 1 => cv
    | false, 2 => -sv
    | false, _ => -cv
    | true, 0 => cv
    | true, 1 => -sv
    | true, 2 => -cv
    | true, _ => sv
  fvOfInt z (-(s : Int) - 30)

/-- `ftanh` of a finite value (R121). -/
def tanhFin (neg : Bool) (m : Nat) (e : Int) : FV :=
  let atLeast := fun (k : Nat) => !fvLt (.fin false m e) (.fin false k 0)
  if atLeast 9 then .fin neg 1 0
  else if atLeast 3 then
    let s := (-(min e 0)).toNat
    let n := m * 2 ^ (max e 0).toNat - 3 * 2 ^ s
    let t := n * 2 ^ 29 / (3 * 2 ^ s)
    let y := segEval gTanhHigh 3 3 32 ((t / 2 ^ 24 : Nat) : Int) ((t % 2 ^ 24 : Nat) : Int)
    .fin neg (2 ^ 30 - y).natAbs (-30)
  else
    let t := floorScaled m e (2 ^ 30) 1
    let y := segEval gTanhLow 0 1 64 ((t / 2 ^ 24 : Nat) : Int) ((t % 2 ^ 24 : Nat) : Int)
    .fin neg (m * y.natAbs) (e - 30)

/-- The function numbers of the SFU group (R46). -/
inductive SfuFn
  | rcp | rsq | sqrt | exp2 | log2 | sin | cos | tanh
deriving DecidableEq, Repr

/-- Whether a function is one of the five approximated ones, which take an f64 operand through f32 (R124). -/
def SfuFn.approx : SfuFn → Bool
  | .rcp | .rsq | .sqrt => false
  | _ => true

/-- The value of a function at a finite operand that R123 leaves ordinary; m is not 0. -/
def sfuFin (fn : SfuFn) (neg : Bool) (m : Nat) (e : Int) : FV :=
  match fn with
  | .rcp => quotFin neg 1 0 m e
  | .rsq => rsqrtFin m e
  | .sqrt => sqrtFin m e
  | .exp2 => exp2Fin neg m e
  | .log2 => log2Fin m e
  | .sin => sincosFin false neg m e
  | .cos => sincosFin true neg m e
  | .tanh => tanhFin neg m e

/-- Rounds a function's value; a zero value is +0, whatever its sign (R121). -/
def sfuRound (f : Fmt) (mode : Mode) (v : FV) : FRes :=
  if v.isZero then ⟨(roundFin f mode false false 0 0).bits, 0, false⟩ else roundFV f mode false v

/-- R123: an SFU function of one operand value. `flog2` of a zero in an unsigned binary8 format delivers the NaN with DZ alone,
where R107 read over R123 would raise NV (log 94: DESIGN CHOICE). -/
def sfuValue (fn : SfuFn) (f : Fmt) (mode : Mode) (v : FV) : FRes :=
  let nan : FRes := ⟨dfltNaN f, flNV, false⟩
  let infd := fun (neg : Bool) (fl : Flags) => ({ deliverInf f false neg with fl := fl } : FRes)
  let zero := fun (neg : Bool) => roundFin f mode false neg 0 0
  let one := fun (neg : Bool) => roundFin f mode false neg 1 0
  match v with
  | .nan sig neg p => ⟨nanCode f neg p, flagIf sig flNV, false⟩
  | .inf neg =>
    match fn, neg with
    | .rcp, _ => zero neg
    | .rsq, false => zero false
    | .rsq, true => nan
    | .sqrt, false => infd false 0
    | .sqrt, true => nan
    | .exp2, false => infd false 0
    | .exp2, true => zero false
    | .log2, false => infd false 0
    | .log2, true => nan
    | .sin, _ => nan
    | .cos, _ => nan
    | .tanh, _ => one neg
  | .fin neg m e =>
    if m = 0 then
      match fn with
      | .rcp => infd neg flDZ
      | .rsq => infd neg flDZ
      | .sqrt => zero neg
      | .exp2 => one false
      | .log2 => infd true flDZ
      | .sin => zero neg
      | .cos => one false
      | .tanh => zero neg
    else
      match fn, neg with
      | .rsq, true => nan
      | .sqrt, true => nan
      | .log2, true => nan
      | _, _ => sfuRound f mode (sfuFin fn neg m e)

/-- R118 to R124: an SFU function of a pattern at a format. -/
def sfuRes (fn : SfuFn) (f : Fmt) (mode : Mode) (x : Nat) : FRes :=
  let v := fdec f x
  let v' := if f = f64Fmt ∧ fn.approx then
      (match v with
        | .nan _ _ _ => v
        | _ => fdec f32Fmt (roundFV f32Fmt .rne false v).bits)
    else v
  let r := sfuValue fn f mode v'
  { r with sub := r.sub || FV.isSub f v }

end Sys2Proof.Machine
end

