-- ==== Sys2Proof/Machine/FloatOps.lean ====
section
/-! DEFINITION. Float instructions, conversion, special functions and division, majors 0x38 to 0x46 (05 R140 to R148). -/

namespace Sys2Proof.Machine

/-- The warp's float format, of one element for packed types (R40). -/
def Warp.ftype (w : Warp) : Fmt := (fmtOf w.tf).getD f32Fmt

/-- Whether TF operands are pairs (R24). -/
def Warp.fwide (w : Warp) : Bool := decide (w.ftype.width = 64)

/-- A source read at TF. -/
def Cx.tfSrc (cx : Cx) (c : Code) : Src := { code := c, wide := cx.w.fwide, imm := .flt cx.w.tf }

/-- The old destination as a TF source. -/
def Cx.tfOld (cx : Cx) (d : Code) : Src := { code := d, wide := cx.w.fwide, old := true }

/-- R97, R129: a float result for each element of TF, joined with zeros above; flags are ORed. -/
def fltLane (w : Warp) (f : List Nat → FRes) (xs : List DWord) : LaneOut :=
  let n := codeCount w.tf
  let wd := w.ftype.width
  let rs := (List.range n).map fun i => f (xs.map fun x => elemOf x wd i)
  { v := BitVec.ofNat 64 (joinElems wd (rs.map FRes.bits))
    fl := rs.foldl (fun a r => a ||| r.fl) 0
    sub := rs.any FRes.sub }

/-- The same for an instruction that never replays (R112). -/
def fltLaneNoReplay (w : Warp) (f : List Nat → FRes) (xs : List DWord) : LaneOut := { fltLane w f xs with sub := false }

/-- Two TF sources and a TF destination. -/
def Cx.flt2 (cx : Cx) (d a b : Code) (f : Fmt → Mode → Nat → Nat → FRes) (s : State) : Res :=
  let ft := cx.w.ftype
  cx.pipe { srcs := [cx.tfSrc a, cx.tfSrc b], d := d, wide := cx.w.fwide,
            f := fun v j => fltLane cx.w (fun l => f ft cx.w.mode (l.getD 0 0) (l.getD 1 0)) [v 0 j, v 1 j] } s

/-- One TF source, a float immediate and a TF destination. -/
def Cx.fltImm (cx : Cx) (d a : Code) (f : Fmt → Mode → Nat → Nat → FRes) (s : State) : Res :=
  let ft := cx.w.ftype
  let x := cx.immX (.flt cx.w.tf)
  cx.pipe { srcs := [cx.tfSrc a], d := d, wide := cx.w.fwide, extra := warnIf x.2 wIMM,
            f := fun v j => fltLane cx.w (fun l => f ft cx.w.mode (l.getD 0 0) (l.getD 1 0)) [v 0 j, BitVec.ofNat 64 x.1] } s

/-- One TF source and a TF destination. -/
def Cx.flt1 (cx : Cx) (d a : Code) (f : Fmt → Mode → Nat → FRes) (s : State) : Res :=
  let ft := cx.w.ftype
  cx.pipe { srcs := [cx.tfSrc a], d := d, wide := cx.w.fwide,
            f := fun v j => fltLane cx.w (fun l => f ft cx.w.mode (l.getD 0 0)) [v 0 j] } s

/-! ## The elements' functions (R145) -/

/-- a + b. -/
def faddRes (sat : Bool) (f : Fmt) (m : Mode) (x y : Nat) : FRes :=
  sumInOne f m sat [fdec f x, fdec f y] [] [fdec f x, fdec f y]

/-- a - b. -/
def fsubRes (sat : Bool) (f : Fmt) (m : Mode) (x y : Nat) : FRes :=
  sumInOne f m sat [fdec f x, fdec f y] [] [fdec f x, (fdec f y).negate]

/-- a × b: a single product keeps the sign of a zero (R106). -/
def fmulRes (sat : Bool) (f : Fmt) (m : Mode) (x y : Nat) : FRes :=
  sumInOne f m sat [fdec f x, fdec f y] [(fdec f x, fdec f y)] []

/-- a × b + c. -/
def fmaRes (sat : Bool) (f : Fmt) (m : Mode) (x y z : Nat) : FRes :=
  sumInOne f m sat [fdec f x, fdec f y, fdec f z] [(fdec f x, fdec f y)] [fdec f z]

/-- c + (-(a × b)). -/
def fnmaRes (sat : Bool) (f : Fmt) (m : Mode) (x y z : Nat) : FRes :=
  sumInOne f m sat [fdec f x, fdec f y, fdec f z] [((fdec f x).negate, fdec f y)] [fdec f z]

/-- R141: the elements of a source for `fdot2`, by TF. -/
def dotElems (tf : Nat) (x : DWord) : List Nat :=
  match tf with
  | 0x00 => [elemOf x 32 0, elemOf x 32 1]
  | 0x03 => [elemOf x 64 0]
  | 0x01 | 0x02 | 0x10 | 0x11 => [elemOf x 16 0, elemOf x 16 1]
  | _ => [elemOf x 8 0, elemOf x 8 1]

/-- R141: a0 × b0 + a1 × b1 + c, rounded once to f32, or to f64 at TF f64. -/
def dotLane (w : Warp) (sat : Bool) (a b c : DWord) : LaneOut :=
  let f := w.ftype
  let out := if w.tf = 3 then f64Fmt else f32Fmt
  let as_ := (dotElems w.tf a).map (fdec f)
  let bs := (dotElems w.tf b).map (fdec f)
  let cv := fdec out (elemOf c out.width 0)
  -- an operand replays when it is subnormal in its own format: the elements in TF, the addend in the result's (R112)
  let r := sumOfProducts out ((as_ ++ bs).any (FV.isSub f) || cv.isSub out) w.mode sat (as_ ++ bs ++ [cv]) (as_.zip bs) [cv]
  { v := BitVec.ofNat 64 r.bits, fl := r.fl, sub := r.sub }

/-! ## The instructions -/

/-- R145: a + b. -/
def execFadd (g : BitVec 4) (d a b : Code) (s : State) : Host.Outcome State Fault Refusal :=
  issued { rInfo 0x38 g d a b with sat := true } s fun cx => cx.flt2 d a b (faddRes cx.sat)

/-- R145: a - b. -/
def execFsub (g : BitVec 4) (d a b : Code) (s : State) : Host.Outcome State Fault Refusal :=
  issued { rInfo 0x39 g d a b with sat := true } s fun cx => cx.flt2 d a b (fsubRes cx.sat)

/-- R145: a × b. -/
def execFmul (g : BitVec 4) (d a b : Code) (s : State) : Host.Outcome State Fault Refusal :=
  issued { rInfo 0x3A g d a b with sat := true } s fun cx => cx.flt2 d a b (fmulRes cx.sat)

/-- R145, R140, R42: a × b + c, where c is the old d or source C under CEN. -/
def execFma (g : BitVec 4) (d a b : Code) (s : State) : Host.Outcome State Fault Refusal :=
  issued { rInfo 0x3B g d a b with sat := true, cen := true } s fun cx s =>
    let c := match cx.cen with
      | some c => cx.tfSrc c
      | none => cx.tfOld d
    cx.pipe { srcs := [cx.tfSrc a, cx.tfSrc b, c], d := d, wide := cx.w.fwide,
              f := fun v j => fltLane cx.w (fun l => fmaRes cx.sat cx.w.ftype cx.w.mode (l.getD 0 0) (l.getD 1 0) (l.getD 2 0))
                [v 0 j, v 1 j, v 2 j] } s

/-- R145, R140, R42: c - a × b, where c is the old d or source C under CEN. -/
def execFnma (g : BitVec 4) (d a b : Code) (s : State) : Host.Outcome State Fault Refusal :=
  issued { rInfo 0x3C g d a b with sat := true, cen := true } s fun cx s =>
    let c := match cx.cen with
      | some c => cx.tfSrc c
      | none => cx.tfOld d
    cx.pipe { srcs := [cx.tfSrc a, cx.tfSrc b, c], d := d, wide := cx.w.fwide,
              f := fun v j => fltLane cx.w (fun l => fnmaRes cx.sat cx.w.ftype cx.w.mode (l.getD 0 0) (l.getD 1 0) (l.getD 2 0))
                [v 0 j, v 1 j, v 2 j] } s

/-- R111: minimumNumber; no replay. -/
def execFmin (g : BitVec 4) (d a b : Code) (s : State) : Host.Outcome State Fault Refusal :=
  issued (rInfo 0x3D g d a b) s fun cx s =>
    cx.pipe { srcs := [cx.tfSrc a, cx.tfSrc b], d := d, wide := cx.w.fwide,
              f := fun v j => fltLaneNoReplay cx.w (fun l => fminmax cx.w.ftype false (l.getD 0 0) (l.getD 1 0)) [v 0 j, v 1 j] } s

/-- R111: maximumNumber; no replay. -/
def execFmax (g : BitVec 4) (d a b : Code) (s : State) : Host.Outcome State Fault Refusal :=
  issued (rInfo 0x3E g d a b) s fun cx s =>
    cx.pipe { srcs := [cx.tfSrc a, cx.tfSrc b], d := d, wide := cx.w.fwide,
              f := fun v j => fltLaneNoReplay cx.w (fun l => fminmax cx.w.ftype true (l.getD 0 0) (l.getD 1 0)) [v 0 j, v 1 j] } s

/-- R145: a + F. -/
def execFaddi (g : BitVec 4) (d a i : Code) (s : State) : Host.Outcome State Fault Refusal :=
  issued { iInfo 0x3F g d a i with sat := true } s fun cx => cx.fltImm d a (faddRes cx.sat)

/-- R145: a × F. -/
def execFmuli (g : BitVec 4) (d a i : Code) (s : State) : Host.Outcome State Fault Refusal :=
  issued { iInfo 0x40 g d a i with sat := true } s fun cx => cx.fltImm d a (fmulRes cx.sat)

/-- R141: a two-element dot product plus the old destination, or plus source C under CEN (log 7: DEDUCED). -/
def execFdot2 (g : BitVec 4) (d a b : Code) (s : State) : Host.Outcome State Fault Refusal :=
  issued { rInfo 0x41 g d a b with sat := true, cen := true } s fun cx s =>
    let wd := decide (cx.w.tf = 3)
    let pairs := wd || decide (cx.w.tf = 0)
    let c : Src := match cx.cen with
      | some c => { code := c, wide := wd, imm := .flt (if wd then 3 else 0) }
      | none => { code := d, wide := wd, old := true }
    cx.pipe { srcs := [{ code := a, wide := pairs, imm := .flt cx.w.tf }, { code := b, wide := pairs, imm := .flt cx.w.tf }, c]
              d := d, wide := wd, f := fun v j => dotLane cx.w cx.sat (v 0 j) (v 1 j) (v 2 j) } s

/-- R142: a × 2^n, n read from b as s32. -/
def execFscl (g : BitVec 4) (d a b : Code) (s : State) : Host.Outcome State Fault Refusal :=
  issued { rInfo 0x42 g d a b with sat := true } s fun cx s =>
    cx.pipe { srcs := [cx.tfSrc a, wordSrc b], d := d, wide := cx.w.fwide,
              f := fun v j => fltLane cx.w (fun l => fsclRes cx.w.ftype cx.w.mode cx.sat (l.getD 0 0) (ofPat true 32 (v 1 j).toNat)) [v 0 j] } s

/-- R143: the sign inverted; nothing is rounded and there is no replay. -/
def execFneg (g : BitVec 4) (d a : Code) (s : State) : Host.Outcome State Fault Refusal :=
  issued (uInfo 0x43 0 g d a) s fun cx s =>
    cx.pipe { srcs := [cx.tfSrc a], d := d, wide := cx.w.fwide,
              f := fun v j => fltLaneNoReplay cx.w (fun l => fnegRes cx.w.ftype (l.getD 0 0)) [v 0 j] } s

/-- R143: the sign cleared; nothing is rounded and there is no replay. -/
def execFabs (g : BitVec 4) (d a : Code) (s : State) : Host.Outcome State Fault Refusal :=
  issued (uInfo 0x43 1 g d a) s fun cx s =>
    cx.pipe { srcs := [cx.tfSrc a], d := d, wide := cx.w.fwide,
              f := fun v j => fltLaneNoReplay cx.w (fun l => fabsRes cx.w.ftype (l.getD 0 0)) [v 0 j] } s

/-- R144: rounds to an integral value to nearest, ignoring RM. -/
def execFrndRne (g : BitVec 4) (d a : Code) (s : State) : Host.Outcome State Fault Refusal :=
  issued (uInfo 0x43 2 g d a) s fun cx => cx.flt1 d a fun f _ => frndRes f .rne

/-- R144: rounds to an integral value towards zero, ignoring RM. -/
def execFrndRtz (g : BitVec 4) (d a : Code) (s : State) : Host.Outcome State Fault Refusal :=
  issued (uInfo 0x43 3 g d a) s fun cx => cx.flt1 d a fun f _ => frndRes f .rtz

/-- R144: rounds to an integral value downwards, ignoring RM. -/
def execFrndRdn (g : BitVec 4) (d a : Code) (s : State) : Host.Outcome State Fault Refusal :=
  issued (uInfo 0x43 4 g d a) s fun cx => cx.flt1 d a fun f _ => frndRes f .rdn

/-- R144: rounds to an integral value upwards, ignoring RM. -/
def execFrndRup (g : BitVec 4) (d a : Code) (s : State) : Host.Outcome State Fault Refusal :=
  issued (uInfo 0x43 5 g d a) s fun cx => cx.flt1 d a fun f _ => frndRes f .rup

/-- The register value of a converted element of a type code (R129). -/
def placeCode (c x : Nat) : DWord :=
  match itypeOf c with
  | some t => placeInt t.signed t.width x
  | none => BitVec.ofNat 64 x

/-- R146, R108: converts from TC to the type whose code is f7. -/
def execCvt (g : BitVec 4) (d a c : Code) (s : State) : Host.Outcome State Fault Refusal :=
  issued { uInfo 0x44 c.toNat g d a with sat := true } s fun cx s =>
    let tc := cx.w.tc
    let im : ImmAs := match itypeOf tc with
      | some t => .int t.width
      | none => .flt tc
    cx.pipe { srcs := [{ code := a, wide := decide (codeWidth tc = 64), imm := im }], d := d, wide := decide (codeWidth c.toNat = 64),
              f := fun v j =>
                let r := convertRes tc c.toNat cx.w.mode cx.sat (elemOf (v 0 j) (codeWidth tc) 0)
                { v := placeCode c.toNat r.bits, fl := r.fl, sub := r.sub } } s

/-- R147, R118 to R124: reciprocal; no latch, no SAT. -/
def execFrcp (g : BitVec 4) (d a : Code) (s : State) : Host.Outcome State Fault Refusal :=
  issued { uInfo 0x45 0 g d a with producer := false } s fun cx => cx.flt1 d a (sfuRes .rcp)

/-- R147, R118 to R124: reciprocal square root; no latch, no SAT. -/
def execFrsq (g : BitVec 4) (d a : Code) (s : State) : Host.Outcome State Fault Refusal :=
  issued { uInfo 0x45 1 g d a with producer := false } s fun cx => cx.flt1 d a (sfuRes .rsq)

/-- R147, R118 to R124: square root; no latch, no SAT. -/
def execFsqrt (g : BitVec 4) (d a : Code) (s : State) : Host.Outcome State Fault Refusal :=
  issued { uInfo 0x45 2 g d a with producer := false } s fun cx => cx.flt1 d a (sfuRes .sqrt)

/-- R147, R118 to R124: base-2 exponential; no latch, no SAT. -/
def execFexp2 (g : BitVec 4) (d a : Code) (s : State) : Host.Outcome State Fault Refusal :=
  issued { uInfo 0x45 3 g d a with producer := false } s fun cx => cx.flt1 d a (sfuRes .exp2)

/-- R147, R118 to R124: base-2 logarithm; no latch, no SAT. -/
def execFlog2 (g : BitVec 4) (d a : Code) (s : State) : Host.Outcome State Fault Refusal :=
  issued { uInfo 0x45 4 g d a with producer := false } s fun cx => cx.flt1 d a (sfuRes .log2)

/-- R147, R118 to R124: sine of turns; no latch, no SAT. -/
def execFsin (g : BitVec 4) (d a : Code) (s : State) : Host.Outcome State Fault Refusal :=
  issued { uInfo 0x45 5 g d a with producer := false } s fun cx => cx.flt1 d a (sfuRes .sin)

/-- R147, R118 to R124: cosine of turns; no latch, no SAT. -/
def execFcos (g : BitVec 4) (d a : Code) (s : State) : Host.Outcome State Fault Refusal :=
  issued { uInfo 0x45 6 g d a with producer := false } s fun cx => cx.flt1 d a (sfuRes .cos)

/-- R147, R118 to R124: hyperbolic tangent; no latch, no SAT. -/
def execFtanh (g : BitVec 4) (d a : Code) (s : State) : Host.Outcome State Fault Refusal :=
  issued { uInfo 0x45 7 g d a with producer := false } s fun cx => cx.flt1 d a (sfuRes .tanh)

/-- R148: a / b, correctly rounded; no latch, no SAT. -/
def execFdiv (g : BitVec 4) (d a b : Code) (s : State) : Host.Outcome State Fault Refusal :=
  issued { rInfo 0x46 g d a b with producer := false } s fun cx => cx.flt2 d a b fun f m x y => fdivRes f m (fdec f x) (fdec f y)

end Sys2Proof.Machine
end

