-- ==== Sys2Proof/Machine/CrossLane.lean ====
section
/-! DEFINITION. Random patterns and cross-lane instructions, majors 0x47 to 0x4F (05 R149 to R158). -/

namespace Sys2Proof.Machine

/-! ## Random patterns -/

/-- R149: one round of the hash under a key and its round constant. -/
def hashRound (key x k : Word) : Word :=
  let x := (x + (key ^^^ k)) * 0x2C1B3C6D
  let x := x ^^^ (x >>> 15)
  x.rotateLeft 11

/-- R149: the keyed hash of a counter. -/
def hash32 (a b : Word) : Word := [0x9E3779B9, 0x7F4A7C15, 0xF39CC060, 0x5CEDC834].foldl (hashRound b) a

/-- The bits of a word in opposite order (R150). -/
def revBits (x : Word) : Word := x.reverse

/-- Two 32-bit sources and a 32-bit result, whatever the types are. -/
def Cx.word2 (cx : Cx) (d a b : Code) (f : Word → Word → Word) (s : State) : Res :=
  cx.pipe { srcs := [wordSrc a, wordSrc b], d := d
            f := fun v j => { v := (f ((v 0 j).setWidth 32) ((v 1 j).setWidth 32)).setWidth 64 } } s

/-- R149. -/
def execRndh (g : BitVec 4) (d a b : Code) (s : State) : Host.Outcome State Fault Refusal :=
  issued { rInfo 0x47 g d a b with producer := false } s fun cx => cx.word2 d a b hash32

/-- R150. -/
def execRndq (g : BitVec 4) (d a b : Code) (s : State) : Host.Outcome State Fault Refusal :=
  issued { rInfo 0x48 g d a b with producer := false } s fun cx => cx.word2 d a b fun x y => revBits x ^^^ y

/-! ## Moves between lanes (R151 to R154) -/

/-- The fibres among which an instruction with these sources and destination exchanges values: Q, or on the scalar pipe the
lowest active fibre when its guard is true (R151). -/
def Cx.members (cx : Cx) (srcs : List Src) (d : Code) : Lanes :=
  if srcs.all Src.scalar && scalarDst d then (match cx.lead with
    | some j => laneBit j
    | none => 0) else cx.q

/-- A source whose pattern moves unchanged, at the width of TI (R151). -/
def Cx.moveSrc (cx : Cx) (c : Code) : Src :=
  { code := c, wide := cx.w.itype.wide, imm := .int (if cx.w.itype.wide then 64 else 32) }

/-- The value of another lane where it takes part, else the lane's own (R153). -/
def otherLane (mem : Lanes) (v : Nat → DWord) (j : Nat) (k : Option Nat) : DWord :=
  match k with
  | some k => if k < 32 && inSet mem k then v k else v j
  | none => v j

/-- The lane whose value `otherLane` takes. -/
def takenLane (mem : Lanes) (j : Nat) (k : Option Nat) : Nat :=
  match k with
  | some k => if k < 32 && inSet mem k then k else j
  | none => j

/-- The uses of a source whose values are taken from other lanes (R167): the lanes taken for those of `lanes`. -/
def takenFrom (x : Src) (lanes : Lanes) (k : Nat → Nat) : List Use :=
  readsOf [x] ((lanesOf lanes).foldl (fun m j => m ||| laneBit (k j)) 0)

/-- The lane index that a source gives in a lane. -/
def Cx.laneIndex (cx : Cx) (b : Code) (j : Nat) : Nat := (cx.val (wordSrc b) j).toNat % 32

/-- R153: another lane's value by a lane index. -/
def execShfl (g : BitVec 4) (d a b : Code) (s : State) : Host.Outcome State Fault Refusal :=
  issued (rInfo 0x49 g d a b) s fun cx s =>
    let srcs := [cx.moveSrc a, wordSrc b]
    let mem := cx.members srcs d
    cx.pipe { srcs := srcs, d := d, wide := cx.w.itype.wide
              reads := some fun l => readsOf [wordSrc b] l ++
                takenFrom (cx.moveSrc a) l fun j => takenLane mem j (some (cx.laneIndex b j))
              f := fun v j => { v := otherLane mem (v 0) j (some ((v 1 j).toNat % 32)) } } s

/-- R153: the lane a mode of `shfx` names; none outside 0 to 31. -/
def shfxLane (x j : Nat) : Option Nat :=
  let n := x % 32
  match x / 32 % 4 with
  | 0 => some (j ^^^ n)
  | 1 => if n ≤ j then some (j - n) else none
  | 2 => if j + n < 32 then some (j + n) else none
  | _ => some ((j + n) % 32)

/-- R153: another lane's value by exclusive or, shift or rotation of the lane index. -/
def execShfx (g : BitVec 4) (d a i : Code) (s : State) : Host.Outcome State Fault Refusal :=
  issued (iInfo 0x4A g d a i) s fun cx s =>
    let srcs := [cx.moveSrc a]
    let mem := cx.members srcs d
    let x := cx.xUnsigned
    cx.pipe { srcs := srcs, d := d, wide := cx.w.itype.wide, extra := warnIf (decide (128 ≤ x)) wIMM
              reads := some fun l => takenFrom (cx.moveSrc a) l fun j => takenLane mem j (shfxLane (x % 128) j)
              f := fun v j => { v := otherLane mem (v 0) j (shfxLane (x % 128) j) } } s

/-- R154: one lane's value to every fibre of Q. -/
def execRdl (g : BitVec 4) (d a b : Code) (s : State) : Host.Outcome State Fault Refusal :=
  issued (rInfo 0x4E g d a b) s fun cx s =>
    let srcs := [cx.moveSrc a, wordSrc b]
    let mem := cx.members srcs d
    let j0 := (lowestLane mem).getD 0
    cx.pipe { srcs := srcs, d := d, wide := cx.w.itype.wide, quiet := true
              reads := some fun l => readsOf [wordSrc b] (l &&& laneBit j0) ++
                takenFrom (cx.moveSrc a) (l &&& laneBit j0) fun _ => takenLane mem j0 (some (cx.laneIndex b j0))
              f := fun v _ => { v := otherLane mem (v 0) j0 (some ((v 1 j0).toNat % 32)) } } s

/-- R154: the lowest fibre's value into one lane of d, whose old value is a source. A scalar destination takes the lowest lane's new
value (R25), which changes only when the lane named is the lowest (log 14: DEDUCED). -/
def execWrl (g : BitVec 4) (d a b : Code) (s : State) : Host.Outcome State Fault Refusal :=
  issued (rInfo 0x4F g d a b) s fun cx s =>
    let srcs := [cx.moveSrc a, wordSrc b, cx.oldSrc d]
    let mem := cx.members srcs d
    let j0 := (lowestLane mem).getD 0
    let lane := fun (v : Nat → Nat → DWord) => (v 1 j0).toNat % 32
    let one := decide (96 ≤ d.toNat) && decide (d.toNat < 112)
    let takes := fun (v : Nat → Nat → DWord) => inSet mem (lane v) && (!one || decide (lane v = j0))
    cx.pipe { srcs := srcs, d := d, wide := cx.w.itype.wide
              reads := some fun l => readsOf [wordSrc b] (l &&& laneBit j0) ++
                (if inSet mem (cx.laneIndex b j0) then readsOf [cx.moveSrc a] (l &&& laneBit j0) else []) ++ readsOf [cx.oldSrc d] l
              only := some fun v => if takes v then laneBit (lane v) else 0
              f := fun v j => { v := if takes v && (one || decide (j = lane v)) then v 0 j0 else v 2 j } } s

/-! ## Reductions and scans (R152, R155, R156) -/

/-- A value of a reduction with the flags of the operations that formed it. -/
structure Acc where
  x : Nat := 0
  fl : Flags := 0
  sub : Bool := false
deriving DecidableEq, Repr

/-- Two parts of a reduction joined; an absent part leaves the other unchanged (R152). -/
def joinAcc (op : Nat → Nat → FRes) : Option Acc → Option Acc → Option Acc
  | some u, some w =>
    let r := op u.x w.x
    some { x := r.bits, fl := u.fl ||| w.fl ||| r.fl, sub := u.sub || w.sub || r.sub }
  | some u, none => some u
  | none, w => w

/-- One level of the fixed tree: neighbours joined in pairs. -/
def pairUp (op : Nat → Nat → FRes) : List (Option Acc) → List (Option Acc)
  | u :: w :: r => joinAcc op u w :: pairUp op r
  | l => l

/-- R152: the fixed pairwise tree over the 32 lanes. -/
def treeOf (op : Nat → Nat → FRes) (leaf : Nat → Nat) (m : Lanes) : Option Acc :=
  let leaves := allLanes.map fun k => if inSet m k then some ({ x := leaf k } : Acc) else none
  ((pairUp op (pairUp op (pairUp op (pairUp op (pairUp op leaves))))).headD none)

/-- R152: the left fold in lane order. -/
def foldOf (op : Nat → Nat → FRes) (leaf : Nat → Nat) (m : Lanes) : Option Acc :=
  (lanesOf m).foldl (fun a k => joinAcc op a (some { x := leaf k })) none

/-- What a reduction works on: the type's element width and count, whether operands are pairs, its leaf and its operation, its
identity (R155, R156). -/
structure Reducer where
  src : Src
  width : Nat
  count : Nat
  wide : Bool
  op : Nat → Nat → FRes
  leaf : Nat → Nat
  ident : Nat
  place : List Nat → DWord
  /-- Whether a source element makes the instruction replay (R112). -/
  sub : Nat → Bool := fun _ => false

/-- An integer result without flags. -/
def intRes (x : Nat) : FRes := ⟨x, 0, false⟩

/-- R155: operations 0 to 5 at TI. -/
def intReduce (t : IType) (o x y : Nat) : Nat :=
  let v := fun p => ofPat t.signed t.width p
  match o with
  | 0 => toPat t.width (v x + v y)
  | 1 => if v y < v x then y else x
  | 2 => if v x < v y then y else x
  | 3 => x &&& y
  | 4 => x ||| y
  | _ => x ^^^ y

/-- R156: the identity of an integer operation. -/
def intIdent (t : IType) (o : Nat) : Nat :=
  match o with
  | 1 => toPat t.width (intMax t.signed t.width)
  | 2 => toPat t.width (intMin t.signed t.width)
  | 3 => 2 ^ t.width - 1
  | _ => 0

/-- R156: the identity of a float operation. -/
def fltIdent (f : Fmt) (o : Nat) : Nat :=
  match o with
  | 6 => if f.ieee then 2 ^ (f.width - 1) else 0
  | 7 => if f.hasInf then infCode f false else dfltNaN f
  | 8 => if !f.ieee && !f.signed then 0 else if f.hasInf then infCode f true else dfltNaN f
  | _ => 0

/-- R155: the operation of a float reduction; only fadd replays (R112). -/
def fltReduce (f : Fmt) (m : Mode) (o x y : Nat) : FRes :=
  match o with
  | 6 => faddRes false f m x y
  | 7 => fminmax f false x y
  | _ => fminmax f true x y

/-- The reduction that an operation number selects (R155). -/
def Cx.reducer (cx : Cx) (a : Code) (o : Nat) : Reducer :=
  if o < 6 then
    let t := cx.w.itype
    { src := cx.tiSrc a, width := t.width, count := t.count, wide := t.wide
      op := fun x y => intRes (intReduce t o x y), leaf := fun x => x, ident := intIdent t o, place := placeElems t }
  else
    let f := cx.w.ftype
    { src := cx.tfSrc a, width := f.width, count := codeCount cx.w.tf, wide := cx.w.fwide
      op := fltReduce f cx.w.mode o, leaf := fun x => if o = 9 then (fabsRes f x).bits else x
      ident := fltIdent f o, place := fun l => BitVec.ofNat 64 (joinElems f.width l)
      sub := fun x => decide (o = 6) && FV.isSub f (fdec f x) }

/-- The reduction of one set of lanes in an order, element by element; an empty set gives the identity. -/
def Reducer.run (r : Reducer) (fold : Bool) (v : Nat → DWord) (m : Lanes) : LaneOut :=
  let accs := (List.range r.count).map fun i =>
    let leaf := fun k => r.leaf (elemOf (v k) r.width i)
    ((if fold then foldOf r.op leaf m else treeOf r.op leaf m).getD { x := r.ident })
  { v := r.place (accs.map Acc.x), fl := accs.foldl (fun a x => a ||| x.fl) 0, sub := accs.any Acc.sub }

/-- Whether a lane's source holds an element that replays, be it combined or not (R112). -/
def Reducer.subIn (r : Reducer) (v : Nat → DWord) (j : Nat) : Bool := (List.range r.count).any fun i => r.sub (elemOf (v j) r.width i)

/-- R155. -/
def execWred (g : BitVec 4) (d a : Code) (o : BitVec 4) (ord r0 : BitVec 1) (s : State) : Host.Outcome State Fault Refusal :=
  issued { uInfo 0x4B (o.toNat * 8 + ord.toNat * 4 + r0.toNat) g d a with rsv := decide (r0 ≠ 0) } s fun cx s =>
    let r := cx.reducer a o.toNat
    let mem := cx.members [r.src] d
    cx.pipe { srcs := [r.src], d := d, wide := r.wide
              f := fun v => let out := r.run (decide (ord = 1)) (v 0) mem
                            fun j => { out with sub := out.sub || r.subIn (v 0) j } } s

/-- The lanes of a set below a bound. -/
def lanesBelow (m : Lanes) (n : Nat) : Lanes := m &&& ~~~(BitVec.allOnes 32 <<< n)

/-- R156. -/
def execWscan (g : BitVec 4) (d a : Code) (o : BitVec 4) (ord ex r0 : BitVec 1) (s : State) : Host.Outcome State Fault Refusal :=
  issued { uInfo 0x4C (o.toNat * 8 + ord.toNat * 4 + ex.toNat * 2 + r0.toNat) g d a with rsv := decide (r0 ≠ 0) } s fun cx s =>
    let r := cx.reducer a o.toNat
    let mem := cx.members [r.src] d
    cx.pipe { srcs := [r.src], d := d, wide := r.wide
              -- an exclusive scan takes no value of the highest lane
              reads := if ex = 1 then some fun l => readsOf [r.src] (lanesBelow l ((lanesOf l).getLastD 0)) else none
              f := fun v j => let out := r.run (decide (ord = 1)) (v 0) (lanesBelow mem (if ex = 1 then j else j + 1))
                              { out with sub := out.sub || r.subIn (v 0) j } } s

/-! ## Affine scan (R157) -/

/-- One element's scan up to each lane: (lane, coefficient, offset), in ascending order; a subnormal of the first lane replays too
(R112). -/
def affineScan (f : Fmt) (m : Mode) (a b : Nat → Nat) : List Nat → Option (Acc × Acc) → List (Nat × Acc × Acc)
  | [], _ => []
  | k :: r, none =>
    let p : Acc × Acc := ({ x := a k, sub := FV.isSub f (fdec f (a k)) }, { x := b k, sub := FV.isSub f (fdec f (b k)) })
    (k, p) :: affineScan f m a b r (some p)
  | k :: r, some (ca, cb) =>
    let x := fmulRes false f m ca.x (a k)
    let y := fmaRes false f m (a k) cb.x (b k)
    let p : Acc × Acc := ({ x := x.bits, fl := x.fl, sub := x.sub }, { x := y.bits, fl := y.fl, sub := y.sub })
    (k, p) :: affineScan f m a b r (some p)

/-- R157. -/
def execWscana (g : BitVec 4) (d a b : Code) (s : State) : Host.Outcome State Fault Refusal :=
  issued (rInfo 0x4D g d a b) s fun cx s =>
    let f := cx.w.ftype
    let srcs := [cx.tfSrc a, cx.tfSrc b]
    let mem := cx.members srcs d
    let n := codeCount cx.w.tf
    let scan := fun (v : Nat → Nat → DWord) => (List.range n).map fun i =>
      affineScan f cx.w.mode (fun k => elemOf (v 0 k) f.width i) (fun k => elemOf (v 1 k) f.width i) (lanesOf mem) none
    let at_ := fun (l : List (List (Nat × Acc × Acc))) (j : Nat) => l.filterMap fun e => (e.find? fun p => decide (p.1 = j)).map Prod.snd
    let out := fun (l : List (Acc × Acc)) (v : DWord) => ({
        v := v
        fl := l.foldl (fun x p => x ||| p.1.fl ||| p.2.fl) 0
        sub := l.any fun p => p.1.sub || p.2.sub } : LaneOut)
    let coef := fun (l : List (Acc × Acc)) => joinElems f.width (l.map fun p => p.1.x)
    let offs := fun (l : List (Acc × Acc)) => joinElems f.width (l.map fun p => p.2.x)
    if cx.w.fwide then
      cx.pipe { srcs := srcs, d := d, wide := true
                f := fun v => let r := scan v
                              fun j => let l := at_ r j
                                       out l (BitVec.ofNat 64 (coef l))
                hi := some fun v => let r := scan v
                                    fun j => BitVec.ofNat 64 (offs (at_ r j)) } s
    else
      cx.pipe { srcs := srcs, d := d, wide := true
                f := fun v => let r := scan v
                              fun j => let l := at_ r j
                                       out l (BitVec.ofNat 64 (coef l + offs l * 2 ^ 32)) } s

end Sys2Proof.Machine
end

