-- ==== Sys2Proof/Machine/Links.lean ====
section
/-! DEFINITION. Links as senders see them (12 R327 to R336): topology, routes, packets, flits, lane maps, link keys. -/

namespace Sys2Proof.Machine

/-! ## Topology (R327 to R329) -/

/-- The electrical peer of position `p` over link `e`: position and link there (R328). -/
def electricalPeer (p e : Nat) : Nat × Nat := ((p + e + 1) % 32, 30 - e)

/-- The optical peer of port `k` of position `p` in group `g` of a fabric of `ng` groups: group, position, port (R329). -/
def opticalPeer (ng g p k : Nat) : Option (Nat × Nat × Nat) :=
  let q := 64 * p + k
  let l := 2048 / (ng - 1)
  if ng < 2 then none
  else if q < l * (ng - 1) then
    let back := q / (ng - 1) * (ng - 1) + (ng - 2 - q % (ng - 1))
    some ((g + 1 + q % (ng - 1)) % ng, back / 64, back % 64)
  else none

/-- How many groups the fabric has. -/
def State.groups (s : State) : Nat := (s.cfg.chips.map fun x => (s.chip x).group).foldl max 0 + 1

/-- The chip at a fabric address (R327). -/
def State.chipAt (s : State) (g p : Nat) : Option Nat :=
  (s.chips.find? fun c => decide (c.2.group = g) && decide (c.2.pos = p)).map Prod.fst

/-- The other end of a link: its chip and the link's number there. -/
def State.peerOf (s : State) (x e : Nat) : Option (Nat × Nat) :=
  let c := s.chip x
  if e ≤ 30 then
    let y := electricalPeer c.pos e
    (s.chipAt c.group y.1).map fun n => (n, y.2)
  else match opticalPeer s.groups c.group c.pos (e - 32) with
    | some (g, p, k) => (s.chipAt g p).map fun n => (n, 32 + k)
    | none => none

/-- A chip's fabric address (R327). -/
def Chip.fabric (c : Chip) : Nat := c.group % 128 * 32 + c.pos % 32

/-! ## Flits (R331 to R333) -/

/-- The lanes of a link (R331). -/
def laneCount (e : Nat) : Nat := if e ≤ 30 then 16 else 8

/-- Rounds that a flit takes over `n` lanes (R333). -/
def rounds (n : Nat) : Nat := (256 + n - 1) / n

/-- The physical lane and the round of byte `b` of a flit over the working lanes (R333). -/
def byteLane (lanes : List Nat) (b : Nat) : Nat × Nat := (lanes.getD (b % lanes.length) 0, b / lanes.length)

/-- The bytes of a flit. -/
def flitBytes (f : Flit) : List Byte := leBytes 256 f.raw.toNat

/-- A flit of 256 bytes. -/
def flitOf (l : List Byte) : Flit := { raw := BitVec.ofNat 2048 (leNat l) }

/-- Fields of HDR (R332). -/
def flitType (f : Flit) : Nat := (f.raw.extractLsb' 0 8).toNat
def flitSeq (f : Flit) : Nat := (f.raw.extractLsb' 8 12).toNat
def flitSlot (f : Flit) : Nat := (f.raw.extractLsb' 24 1).toNat

/-- BODY. -/
def flitBody (f : Flit) : List Byte := ((flitBytes f).drop 4).take 232

/-- A flit before it is encrypted: TAG and CRC zero. -/
def plainFlit (type sq cls slot : Nat) (body : List Byte) : Flit :=
  flitOf (leBytes 4 (type + 2 ^ 8 * (sq % 4096) + 2 ^ 20 * cls + 2 ^ 24 * slot) ++ (body ++ List.replicate 232 0).take 232)

/-- The CRC of a flit set, or found right (R332). -/
def flitSealed (f : Flit) : Flit := flitOf ((flitBytes f).take 252 ++ leBytes 4 (crc32 ((flitBytes f).take 252)).toNat)
def flitCrcOk (f : Flit) : Bool := decide (leNat ((flitBytes f).drop 252) = (crc32 ((flitBytes f).take 252)).toNat)

/-! ## Event records (R354, R357) -/

/-- The records of an event: 64 bytes each, continuation records repeating bytes 0 to 19 (R354). -/
def eventRecords (e : Event) : List Byte :=
  let n := (e.cont.length + 43) / 44
  let head := leBytes 8 e.stamp ++ leBytes 2 e.src ++ leBytes 1 e.sinc ++ leBytes 1 e.type ++ leBytes 4 e.seq ++ leBytes 2 e.ctx
    ++ leBytes 1 n ++ [0]
  let pad := fun (l : List Byte) => (l ++ List.replicate 44 0).take 44
  head ++ pad e.payload ++ (List.range n).flatMap fun i => head ++ pad (e.cont.drop (44 * i))

/-- The record of a heartbeat (R357). -/
def beatRecord (b : Beat) : List Byte :=
  leBytes 8 b.stamp ++ leBytes 2 b.src ++ leBytes 1 b.sinc ++ [0xFF] ++ leBytes 4 b.seq ++ leBytes 8 b.horizon ++
    ((b.suspects.flatMap fun (r : Nat × Nat) => leBytes 2 r.1 ++ leBytes 4 r.2) ++ List.replicate 40 0).take 40

/-! ## Packets (R332, R338) -/

/-- The operation a request belongs to. -/
def State.opOf (s : State) (k op : Nat) : Option EngOp := (s.warp? k).bind fun w => w.ops.find? fun o => decide (o.id = op)

/-- The payload bytes of a message (R332). -/
def cueBytes (ev : Instr) (c : Cue) : Nat :=
  match ev with
  | .readRequest => 0
  | .eventReceive => (eventRecords c.event).length
  | .heartbeat => 64
  | .write => match c.op with
    | .store l => (l.map fun p => p.2.length).foldl (· + ·) 0
    | .atom _ _ l => 16 * l.length
    | .cas _ l => 16 * l.length
    | .amxr _ l => 16 * l.length
    | _ => 0
  | _ => if c.parts.isEmpty then c.data.length else (c.parts.map Part.len).foldl (· + ·) 0

/-- The TYPE of a message's packet. -/
def packetType : Instr → Nat
  | .write => 0
  | .readRequest => 1
  | .readReply => 2
  | .acknowledge => 3
  | .blockWrite => 4
  | .dropNotice => 5
  | .reservationRequest => 6
  | .reservationGrant => 7
  | .eventReceive => 8
  | .heartbeat => 8
  | _ => 9

/-- Bulk data (R338): what a `put` writes, what a `get` is answered, and what a channel or a collective moves, of an operation of more
than 512 bytes. -/
def State.bulk (s : State) (ev : Instr) (c : Cue) : Bool :=
  match s.opOf c.acc.warp c.acc.op with
  | none => false
  | some o => match ev with
    | .write | .blockWrite => decide (o.bulk % 2 = 1)
    | .readReply => decide (2 ≤ o.bulk)
    | _ => false

/-- The class of a message's packet (R338): `resv` tells bulk inside its reservation window. -/
def State.packetClass (s : State) (ev : Instr) (c : Cue) (resv : Bool) : Nat :=
  if s.bulk ev c then (if resv then 4 else 5)
  else match packetType ev with
    | 8 => 0
    | 2 | 3 => 3
    | 0 | 1 | 4 => 2
    | _ => 1

/-- The operands of an atomic as payload bytes, lane by lane (log 31: DESIGN CHOICE). -/
def laneBytes (l : List LaneOp) : List Byte := l.flatMap fun x => dwBytes 8 x.x ++ dwBytes 8 x.y

/-- The payload of a message. -/
def payloadOf (c : Cue) (ev : Instr) : List Byte :=
  match ev, c.op with
  | .write, .store l => l.flatMap Prod.snd
  | .write, .atom _ _ l => laneBytes l
  | .write, .cas _ l => laneBytes l
  | .write, .amxr _ l => laneBytes l
  | .eventReceive, _ => eventRecords c.event
  | .heartbeat, _ => beatRecord c.beat
  | _, _ => c.data

/-- ADDR (R332): the block id and the counter word of a block write, else a physical address. -/
def packetAddr (c : Cue) (ev : Instr) : Nat :=
  match ev, c.parts with
  | .blockWrite, { place := .blk bid _ cnt, .. } :: _ =>
    bid % 2 ^ 32 * 2 ^ 32 + (match cnt with
      | some r => 2 ^ 31 + r / 16 % 2 ^ 16
      | none => 0)
  | .blockWrite, _ => 0
  | _, _ => 128 * c.acc.line % 2 ^ 60

/-- A packet with its header (R332). -/
def State.packetOf (s : State) (src dst cls : Nat) (ev : Instr) (c : Cue) (addr : Nat) (l : List Byte) : List Byte :=
  leBytes 1 (packetType ev) ++ leBytes 1 cls ++ leBytes 2 (s.chip src).fabric ++ leBytes 2 (s.chip dst).fabric ++ leBytes 1 c.acc.sinc ++
    leBytes 1 c.acc.dinc ++ leBytes 2 (((s.block? c.acc.node).map Block.ctx).getD 0) ++ leBytes 2 l.length ++ leBytes 4 c.tag ++
    leBytes 8 addr ++ leBytes 8 c.acc.inj ++ l

/-- The packets of a message: one; for an event of more than 8 records, as many as it takes, each telling in ADDR how many follow
(log 31: DESIGN CHOICE). -/
def State.packetsFor (s : State) (src dst cls : Nat) (ev : Instr) (c : Cue) : List (List Byte) :=
  let n := cueBytes ev c
  let l := (payloadOf c ev ++ List.replicate n 0).take n
  if ev = .eventReceive then
    let k := (n + 511) / 512
    (List.range k).map fun i => s.packetOf src dst cls ev c (k - 1 - i) ((l.drop (512 * i)).take 512)
  else [s.packetOf src dst cls ev c (packetAddr c ev) l]

/-! ## Routes (R330) -/

/-- The link by which a packet from `src` leaves chip `x` on its minimal route to chip `dst`: within a group the direct link; else
the link of the group pair that a hash of source, destination and tag chooses, or the local link to the chip that has it. -/
def State.route (s : State) (x src dst tag : Nat) : Nat :=
  let c := s.chip x
  let d := s.chip dst
  let local_ := fun (q : Nat) => (q + 31 - c.pos) % 32
  if c.group = d.group then local_ d.pos
  else
    let ng := s.groups
    let n := 2048 / (ng - 1)
    let q := Config.routeHash (s.chip src).fabric d.fabric tag % n * (ng - 1) + (d.group + ng - 1 - c.group) % ng
    if q / 64 = c.pos then 32 + q % 64 else local_ (q / 64)

/-- The same, where that link is up and has a peer; none where the packet goes another way, which the model does not show (log 34:
DESIGN CHOICE). -/
def State.hop (s : State) (x src dst tag : Nat) : Option Nat :=
  let e := s.route x src dst tag
  if ((tabLook (s.chip x).links e).map Link.st) = some .up ∧ (s.peerOf x e).isSome then some e else none

/-! ## Sending (R332, R335, R336) -/

/-- A slot of a direction's keys. -/
def DirKeys.slot (d : DirKeys) (i : Nat) : Option LinkKey := if i = 0 then d.slot0 else d.slot1
def DirKeys.setSlot (d : DirKeys) (i : Nat) (k : Option LinkKey) : DirKeys := if i = 0 then { d with slot0 := k } else { d with slot1 := k }

/-- The nonce of a flit: the key's id and its invocation counter (R336). -/
def LinkKey.nonce (k : LinkKey) : Nat := k.id % 2 ^ 32 * 2 ^ 64 + k.counter % 2 ^ 64

/-- The invocation counter of a slot counts a flit (R336). -/
def DirKeys.counted (d : DirKeys) (i : Nat) : DirKeys :=
  match d.slot i with
  | some k => d.setSlot i (some { k with counter := k.counter + 1 })
  | none => d

/-- From the first sequence of a switch on, a sender uses the other slot (R336). -/
def DirKeys.at_ (d : DirKeys) (sq : Nat) : DirKeys :=
  if d.switch = some sq then { d with cur := 1 - d.cur, switch := none, old := true } else d

/-- A sending end switches to the map that it announced, before it sends the named sequence (R334). -/
def Link.mapAt (l : Link) (sq : Nat) : Link :=
  match l.newMap with
  | some (n, lanes) => if n = sq then { l with lanes := lanes, newMap := none } else l
  | none => l

/-- A receiving end switches to the map that its peer announced, before it takes the named sequence (R334). -/
def Link.rxMapAt (l : Link) (sq : Nat) : Link :=
  match l.rxMap with
  | some (n, lanes) => if n = sq then { l with lanes := lanes, rxMap := none } else l
  | none => l

def State.linkOf (s : State) (x e : Nat) : Link := (tabLook (s.chip x).links e).getD {}

def State.setLink (s : State) (x e : Nat) (l : Link) : State := s.modChip x fun c => { c with links := tabPut c.links e l }

/-- The row that a flit type is. -/
def flitEvent : Nat → Instr
  | 0 => .dataFlit
  | 2 => .acknowledgeFlit
  | 3 => .negativeAcknowledgeFlit
  | 4 => .laneMapFlit
  | 5 => .keyMarkerFlit
  | 6 => .timeFlit
  | _ => .idleFlit

/-- Sends a flit's event: a link delivers in the order in which flits were put on it. -/
def State.sendInOrder (s : State) (ev : Instr) (cue : Cue) : State :=
  let before := s.agenda.filter fun d => decide (d.cue.chip = cue.chip) && decide (d.cue.link = cue.link) && decide (d.cue.flit.raw ≠ 0)
  let least := (before.map Due.wait).foldl max (Config.latency s.fresh)
  { s with agenda := s.agenda ++ [{ wait := least, ev := ev, cue := cue }], fresh := s.fresh + 1 }

/-- A flit sealed under a key (R336): HDR in the clear, BODY encrypted, the tag over both. -/
def LinkKey.seal (k : LinkKey) (f : Flit) : Flit :=
  let hdr := f.raw.extractLsb' 0 32
  let body := f.raw.extractLsb' 32 1856 ^^^ Config.gcmStream k.key k.nonce
  { f with raw := (0 : BitVec 32) ++ Config.gcmTag k.key k.nonce hdr body ++ body ++ hdr }

/-- Whether a flit's tag verifies under a key, and the flit with its BODY decrypted and its tag taken off (R336). -/
def LinkKey.verifies (k : LinkKey) (f : Flit) : Bool :=
  decide (f.raw.extractLsb' 1888 128 = Config.gcmTag k.key k.nonce (f.raw.extractLsb' 0 32) (f.raw.extractLsb' 32 1856))
def LinkKey.open_ (k : LinkKey) (f : Flit) : Flit :=
  let body := f.raw.extractLsb' 32 1856 ^^^ Config.gcmStream k.key k.nonce
  { f with raw := (0 : BitVec 160) ++ body ++ f.raw.extractLsb' 0 32 }

/-- Puts a flit on a link that is up, under the key of the slot that its HDR names: every flit has an invocation counter of its
own. A key that has reached its limit of 2^48 sends no more, and one at 2^40 is switched (R336). -/
def State.transmit (s : State) (x e : Nat) (f : Flit) : State :=
  let l := s.linkOf x e
  let key := l.tx.slot (flitSlot f)
  let used := (key.map LinkKey.counter).getD 0
  match s.peerOf x e with
  | none => s
  | some (y, k) =>
    if l.st ≠ .up ∨ (s.chip x).power = .off ∨ 2 ^ 48 ≤ used then s
    else
      let sealed := match key with
        | some key => key.seal f
        | none => f
      let s := s.setLink x e { l with tx := l.tx.counted (flitSlot f) }
      let s := if 2 ^ 40 ≤ used + 1 ∧ l.tx.switch.isNone ∧ flitSlot f = l.tx.cur then s.sendOnce .keySwitch { chip := x, link := e } else s
      s.sendInOrder (flitEvent (flitType f)) { chip := y, link := k, flit := flitSealed sealed, ct := s.now }

/-- The lanes of a mask. -/
def maskLanes (e mask : Nat) : List Nat := (List.range (laneCount e)).filter fun n => decide (mask / 2 ^ n % 2 = 1)

/-- Sends a flit that takes a link sequence: it stays in the retry buffer until it is acknowledged (R335). A lane map or a key marker
names the sequence after its own, from which this end uses the new map or the other slot (R334, R336). -/
def State.emit (s : State) (x e : Nat) (q : Outgoing) : State :=
  let l := s.linkOf x e
  let first := (l.next + 1) % 4096
  let l := { l.mapAt l.next with tx := l.tx.at_ l.next }
  let f := { plainFlit q.type l.next q.cls l.tx.cur (if q.type = 4 ∨ q.type = 5 then leBytes 2 first ++ q.body else q.body) with tag := q.tag }
  let l := match q.type with
    | 4 => { l with newMap := some (first, maskLanes e (leNat q.body)) }
    | 5 => { l with tx := { l.tx with switch := some first } }
    | _ => l
  (s.setLink x e { l with next := (l.next + 1) % 4096, retry := l.retry ++ [f] }).transmit x e f

/-- A flit goes out, or waits behind others for room in the retry buffer of 4,096 flits (R335). -/
def State.sendFlit (s : State) (x e : Nat) (q : Outgoing) : State :=
  let l := s.linkOf x e
  if 4096 ≤ l.retry.length ∨ l.queue ≠ [] then s.setLink x e { l with queue := l.queue ++ [q] } else s.emit x e q

/-- Waiting flits go out as the retry buffer has room. -/
def State.pump (s : State) (x e : Nat) : State :=
  let l := s.linkOf x e
  let n := 4096 - l.retry.length
  (l.queue.take n).foldl (fun s q => s.emit x e q) (s.setLink x e { l with queue := l.queue.drop n })

/-- Sends a flit that takes no sequence of its own: HDR names `sq` (log 31: DESIGN CHOICE). -/
def State.sendAside (s : State) (x e type sq : Nat) (body : List Byte) : State :=
  s.transmit x e (plainFlit type sq 1 (s.linkOf x e).tx.cur body)

/-- One end of a link that is down holds no flit: what they carried is lost, and comes again only as its source resends it (R335). -/
def State.linkDown (s : State) (x e : Nat) : State :=
  let l := s.linkOf x e
  let gone := l.retry.map Flit.tag ++ l.queue.map Outgoing.tag
  { s.setLink x e { l with st := .down, retry := [], queue := [], fails := 0, body := [] } with
    agenda := s.agenda.filter fun d => !(d.held && gone.contains d.cue.tag) }

/-! ## Packets on links (R330, R332) -/

/-- The bodies that carry a packet: 232 bytes in each flit, zeros after its last byte (log 31: DESIGN CHOICE). -/
def bodiesOf : Nat → List Byte → List (List Byte)
  | 0, _ => []
  | n + 1, l => if l.isEmpty then [] else l.take 232 :: bodiesOf n (l.drop 232)

/-- A packet goes out on a link. -/
def State.sendPacket (s : State) (x e cls tag : Nat) (l : List Byte) : State :=
  (bodiesOf 3 l).foldl (fun s b => s.sendFlit x e { cls := cls, tag := tag, body := b }) s

/-- A message that is due when the flits that carry it have come. -/
def State.sendHeld (s : State) (ev : Instr) (cue : Cue) : State :=
  { s with agenda := s.agenda ++ [{ held := true, ev := ev, cue := cue }], fresh := s.fresh + 1 }

/-- A hub injects a message's packet into the fabric. -/
def State.launch (s : State) (src dst : Nat) (ev : Instr) (cue : Cue) (resv : Bool := false) : State :=
  match s.hop src src dst cue.tag with
  | none => s.send ev cue
  | some e =>
    let cls := s.packetClass ev cue resv
    (s.packetsFor src dst cls ev cue).foldl (fun t l => t.sendPacket src e cls cue.tag l) (s.sendHeld ev cue)

end Sys2Proof.Machine
end

