-- ==== Sys2Proof/Machine/Messages.lean ====
section
/-! DEFINITION. Messages between chips, and detected errors: dropping, syndromes, the error log and prediction, repair
(08 R262 to R266; 12 R335, R341, R342; 14 R399, R403, R404). -/

namespace Sys2Proof.Machine

/-! ## Messages between chips (R332, R335, R341) -/

/-- The incarnation of a chip as another chip's Plate holds it; its own where the Plate lists none. -/
def State.knownInc (s : State) (at_ c : Nat) : Nat :=
  ((tabLook (s.chip at_).plate.chips c).map PChip.inc).getD (s.chip c).inc

/-- The energy of a packet's hops (R412): one electrical hop within a dragonfly group, else two and an optical one (R330, log 25: DESIGN CHOICE). -/
def State.hopCost (s : State) (src dst bytes : Nat) : Nat :=
  (if (s.chip src).group = (s.chip dst).group then 131072 else 2 * 131072 + 188416) * (bytes + 32) / 256

/-- A message as a hub injects it now, with both incarnations and pod time (R332, R341). -/
def State.injected (s : State) (src dst : Nat) (cue : Cue) : Cue :=
  { cue with acc := { cue.acc with sinc := (s.chip src).inc, dinc := s.knownInc src dst, inj := s.podTime src } }

/-- Whether a message is an answer to a request. -/
def isAnswer (ev : Instr) : Bool := decide (ev = .readReply) || decide (ev = .acknowledge)

/-- Whether a message is a request that a home answers. -/
def isRequest (ev : Instr) : Bool := decide (ev = .readRequest) || decide (ev = .write)

/-- What a request was answered is kept with it, so that a copy that comes again is answered alike (R335). -/
def Chip.noteAnswer (c : Chip) (ev : Instr) (cue : Cue) : Chip :=
  { c with packets := c.packets.map fun p =>
      if isRequest p.ev ∧ cue.acc.id ≠ 0 ∧ p.cue.acc.id = cue.acc.id then { p with answers := p.answers ++ [(ev, cue)] } else p }

/-- Sends a message from one chip's hub to another's: it carries both incarnations and pod time at injection, and the source
keeps a request, a block write or a bulk packet until it is acknowledged (R332, R335). Within one chip it is no packet. -/
def State.sendTo (s : State) (src dst : Nat) (ev : Instr) (cue : Cue) : State :=
  if src = dst then s.send ev cue
  else if (s.chip src).fenced then s
  else
    let s := if cue.acc.node = 0 then s else s.charge cue.acc.warp (s.hopCost src dst (cueBytes ev cue))
    let tag := s.fresh + 1
    let cue := { s.injected src dst cue with tag := tag }
    if isAnswer ev && !s.bulk ev cue then (s.modChip dst fun c => c.noteAnswer ev cue).launch src dst ev cue
    else
      let s := if isAnswer ev then s.modChip dst fun c => c.noteAnswer ev cue else s
      ((s.modChip src fun c => { c with packets := c.packets ++
        [{ tag := tag, dst := dst, sent := cue.acc.inj, node := cue.acc.node, warp := cue.acc.warp, va := cue.acc.va, pc := cue.acc.pc
           ev := ev, cue := cue }] }).launch src dst ev cue).send .packetResend { chip := src, tag := tag }

/-- Sends a message that its source does not keep: of the order service, or of the fabric's own control. Its TAG is `tag`. -/
def State.tell (s : State) (src dst tag : Nat) (ev : Instr) (cue : Cue) : State :=
  if src = dst then s.send ev cue else s.launch src dst ev { s.injected src dst cue with tag := tag }

/-- Whether an arriving packet is dropped (R341). -/
def State.drops (s : State) (src dst : Nat) (a : Access) : Bool :=
  let d := s.chip dst
  let st := ((tabLook d.plate.chips src).map PChip.st).getD .live
  decide (a.dinc ≠ d.inc) || decide (a.sinc ≠ s.knownInc dst src) || decide (st = .fenced) || decide (st = .lost)
    || decide (a.inj + 64000 < s.podTime dst) || d.fenced || decide (d.power = .off) || !d.inPod

/-- The same for an event or a heartbeat (R341): a chip that joins has an incarnation that others do not know yet, and takes what is
for its old one; and a chip that is fenced or lost is heard in a later incarnation than the Plate's alone, which rejoins (R374). -/
def State.dropsEvent (s : State) (src dst : Nat) (a : Access) : Bool :=
  let d := s.chip dst
  let st := (tabLook d.plate.chips src).map PChip.st
  (decide (d.power = .full) && decide (a.dinc ≠ d.inc)) || decide (a.inj + 64000 < s.podTime dst) ||
    (d.inPod && match st with
      | some .live => decide (a.sinc ≠ s.knownInc dst src)
      | some .fenced | some .lost => decide (a.sinc = s.knownInc dst src)
      | _ => false)

/-- A packet that is no packet of a message within one chip, and that the hub drops, is counted (R341, R342). -/
def State.letIn (s : State) (src dst : Nat) (cue : Cue) (dropped : Bool) : State × Bool :=
  if src = dst ∨ cue.tag = 0 ∨ !dropped then (s, true)
  else (s.modChip dst fun c => { c with incdrop := (c.incdrop + 1) % 2 ^ 32 }, false)

/-- No hub keeps a packet any more. -/
def State.forgetTag (s : State) (tag : Nat) : State :=
  if tag = 0 then s
  else { s with chips := s.chips.map fun x => (x.1, { x.2 with packets := x.2.packets.filter fun p => decide (p.tag ≠ tag) }) }

/-- A request that has been answered comes again: it is answered again (R335). -/
def State.answerAgain (s : State) (home : Nat) (p : Packet) : State :=
  p.answers.foldl (fun (s : State) x =>
    let s := { s with agenda := s.agenda.filter fun d => !(decide (d.ev = x.1) && decide (d.cue.acc.id = x.2.acc.id)) }
    let there := chipOfCore x.2.acc.core
    s.counted.launch home there x.1 { s.injected home there x.2 with tag := s.fresh + 1 }) s

/-- A message arrives: whether the hub takes it. One that it drops raises INCDROP (R341, R342). A request or a block write counts as
taken until its source forgets it, so that a copy has no second effect; any other is forgotten. One that waits at its destination has
arrived already. -/
def State.arrive (s : State) (src dst : Nat) (cue : Cue) : State × Bool :=
  let r := s.letIn src dst cue (s.drops src dst cue.acc)
  if !r.2 ∨ src = dst ∨ cue.tag = 0 then r
  else match (s.chip src).packets.find? fun p => decide (p.tag = cue.tag) with
    | none => (s, true)
    | some p =>
      if isRequest p.ev = false ∧ p.ev ≠ .blockWrite then (s.forgetTag cue.tag, true)
      else if p.taken then (s.answerAgain dst p, false)
      else (s.modChip src fun c => { c with packets := c.packets.map fun q => if q.tag = cue.tag then { q with taken := true } else q }, true)

/-- An answer arrives: its request is forgotten once it has had every answer (R335). -/
def State.arriveAnswer (s : State) (src dst : Nat) (ev : Instr) (cue : Cue) : State × Bool :=
  let r := s.arrive src dst cue
  if !r.2 ∨ src = dst ∨ cue.acc.id = 0 then r
  else
    let left := fun (p : Packet) =>
      if isRequest p.ev = false ∨ p.cue.acc.id ≠ cue.acc.id then some p
      else
        let l := p.answers.filter fun x => decide (x.1 ≠ ev)
        if l.isEmpty then none else some { p with answers := l }
    (r.1.modChip dst fun c => { c with packets := c.packets.filterMap left }, true)

/-! ## Hardware errors that happen (R69, R266, R267) -/

/-- COMPUTE_RETRY (R69, R229): a mismatch of the two passes, or of the matrix engine and its shadow, of the warp's instruction. The
second pair agrees and the event is a corrected compute error, or it is an uncorrectable one: the instruction writes nothing and
the block rolls back. That a mismatch happens is the hardware's doing, from outside the model (log 100). -/
def execComputeRetry (s : State) : Host.Outcome State Fault Refusal :=
  match s.warp? s.cue.warp with
  | none => .next s
  | some w =>
    let s := s.charge s.cue.warp w.lastCost
    if s.cue.ok then .next (s.computeCorrected w.core)
    else .next ((s.holdWarp s.cue.warp).sendOnce .blockRollback { node := w.node, num := 0x0400 })

/-- DRAM_ROW_SPARE (R266): the row's data is copied to a spare before the switch, so no content changes; a seventeenth row is
only reported. -/
def execDramRowSpare (s : State) : Host.Outcome State Fault Refusal :=
  .next (s.modDie s.cue.die fun d =>
    let n := (tabLook d.rowsSpared s.cue.unit).getD 0
    if n < 16 then { d with rowsSpared := tabPut d.rowsSpared s.cue.unit (n + 1) } else d)

/-- L2_WAY_RETIRE (R266, R267): a slice loses the way concerned, at most four; its dirty lines go to DRAM first, and the way then
holds no line. -/
def execL2WayRetire (s : State) : Host.Outcome State Fault Refusal :=
  let c := s.cue
  let d := s.die c.die
  let n := (tabLook d.waysRetired c.unit).getD 0
  if 4 ≤ n ∨ d.waysOut.contains (c.unit, c.num) then .next s
  else
    let held := s.lines.filter fun p => decide (p.2.way = some c.num) && decide (s.dieOf p.1 = c.die) && decide (lineSlice p.1 = c.unit)
    .next ((held.foldl (fun s p => s.leaveL2 p.1) s).modDie c.die fun d =>
      { d with waysRetired := tabPut d.waysRetired c.unit (n + 1), waysOut := d.waysOut ++ [(c.unit, c.num)], l2Retired := d.l2Retired + 1 })

/-! ## Imprecise faults (R398, R399) -/

/-- A fault record about a request of a warp (R399). -/
def State.recordFor (s : State) (a : Access) (kind : Nat) (syn : DWord) : FaultRec :=
  let b := (s.block? a.node).getD {}
  { pc := a.pc, addr := a.va, block := b.bid, warp := a.warp % 32, wgen := a.wgen, kind := kind, ngen := b.gen, syn := syn }

/-- Sends an imprecise fault about a request to its node's chip (R398). -/
def State.reportFault (s : State) (src : Nat) (a : Access) (kind : Nat) (syn : DWord) : State :=
  match s.block? a.node with
  | none => s
  | some b => s.sendTo src b.chip .faultRecord { node := a.node, record := s.recordFor a kind syn, acc := a }

end Sys2Proof.Machine
end

