-- ==== Sys2Proof/Machine/Warps.lean ====
section
/-! DEFINITION. How warps and blocks wait and end: release waits, group barriers, ended fibres and warps, complete blocks
(03 R81 to R84; 09 R272, R283; 10 R305; 11 R310, R311). -/

namespace Sys2Proof.Machine

/-! ## Release waits (R259, R272) -/

/-- Whether a warp's writes numbered below `before` are acknowledged. -/
def Warp.writesAcked (w : Warp) (before : Nat) : Bool := w.flights.all fun f => !(f.write && decide (f.id < before))

/-- Whether a warp's loads and atomics numbered below `before` have returned their values. -/
def Warp.loadsBack (w : Warp) (before : Nat) : Bool := w.flights.all fun f => !(f.load && decide (f.id < before))

/-- R272: the release point of a scope (0 core, 1 chip, 2 pod) has been reached. -/
def Warp.released (w : Warp) (scope now : Nat) : Bool :=
  match scope with
  | 0 => true
  | 1 => decide (w.relChip ≤ now)
  | _ => decide (w.relPod ≤ now)

/-- Whether a release wait has ended. -/
def Warp.releaseMet (w : Warp) (before scope now : Nat) : Bool := w.writesAcked before && w.released scope now

/-- Fibres of a warp have arrived at a block or group barrier that is not released. -/
def Warp.atBarrier (w : Warp) : Bool := w.gangs.any fun g => match g.wait with
  | .bar _ | .gbar _ => true
  | _ => false

/-- R351: the scratchpad of a node has changed: every gang that awaits a counter whose COUNT has now reached its TARGET is released,
once and for all. -/
def State.recount (s : State) (node : Nat) : State :=
  match s.block? node with
  | none => s
  | some b =>
    let met := fun (g : Gang) => match g.wait with
      | .stall (.counter off) => decide (leNat (memBytes b.scratch (off + 8) 8) ≤ leNat (memBytes b.scratch off 8))
      | _ => false
    { s with warps := s.warps.map fun p =>
        if p.2.node = node ∧ p.2.gangs.any met then
          (p.1, { p.2 with gangs := p.2.gangs.map fun g => if met g then { g with wait := .run, half := true } else g })
        else p }

/-- Runs an effect after the release wait of a scope: once met, or waited for (R259, R272). When every write is acknowledged and
only the time is missing, RELEASE_POINT_REACHED will end it. -/
def Cx.afterRelease (cx : Cx) (scope : Nat) (full : Bool) (s : State) (k : State → Res) : Res :=
  if cx.half || cx.w.releaseMet s.fresh scope cx.tick then k s
  else .halfway (s.sendOnce .releasePointReached { warp := cx.k }) (.release s.fresh scope full)

/-! ## Splitting a gang between those that wait and those that pass -/

/-- The fibres `lanes` of gang `m` wait at `p`, the others pass; all stand before the next word. -/
def Warp.partWait (w : Warp) (m lanes : Lanes) (pc : Nat) (p : Wait) : Warp :=
  let stay : List Gang := if m &&& lanes = 0 then [] else [{ mask := m &&& lanes, pc := pc, wait := p }]
  let pass : List Gang := if m &&& ~~~lanes = 0 then [] else [{ mask := m &&& ~~~lanes, pc := pc }]
  { w with gangs := w.gangs.filter (fun g => decide (g.mask ≠ m)) ++ stay ++ pass }

/-! ## Group barriers (R84, R310, R311) -/

/-- The nodes of a grid's blocks that are neither dead nor rolled back, by block id. -/
def State.nodeOf (s : State) (gid bid : Nat) : Option Block :=
  (tabVals s.blocks).find? fun b => decide (b.gid = gid) && decide (b.bid = bid) && decide (b.st ≠ .dead)

/-- A member of a group barrier that has ended counts as arrived (R310). -/
def Block.isOver (b : Block) : Bool := decide (b.st = .ended) || decide (b.st = .committed)

/-- Every live warp of a node waits at the group barrier of entry `g`. -/
def State.atGbar (s : State) (node g : Nat) : Bool :=
  let ws := s.liveWarps node
  !ws.isEmpty && ws.all fun p => p.2.allAt (.gbar g)

/-- Lets a node's fibres past group barrier `g`: they fuse and await their warp's earlier loads (R63, R310). -/
def State.passGbar (s : State) (node g : Nat) : State :=
  let s := (s.liveWarps node).foldl (fun s p => s.modWarp p.1 fun w =>
    let w' := w.fuse fun x => decide (x.wait = .gbar g)
    { w' with gangs := w'.gangs.map fun x => { x with wait := .stall (.loads s.fresh) } }) s
  s.modBlock node fun b => { b with episodes := tabPut b.episodes g ((tabLook b.episodes g).getD 0 + 1) }

/-- Releases group `g` of a grid where it can be (R310): a node behind the released count passes at once (R311); an episode is
released when every member has arrived at it or has ended. -/
def State.settleGroup (s : State) (gid g : Nat) : State :=
  match s.grid? gid with
  | none => s
  | some gr =>
    match tabLook gr.groups g with
    | none => s
    | some grp =>
      let rel := (tabLook gr.released g).getD 0
      let nodes := grp.members.filterMap fun bid => s.nodeOf gid bid
      let late := nodes.filter fun b => s.atGbar b.node g && decide ((tabLook b.episodes g).getD 0 < rel)
      let s := late.foldl (fun s b => s.passGbar b.node g) s
      let here := nodes.filter fun b => s.atGbar b.node g && decide ((tabLook b.episodes g).getD 0 = rel)
      if !here.isEmpty && grp.members.all fun bid => match s.nodeOf gid bid with
          | some b => b.isOver || here.any fun x => decide (x.node = b.node)
          | none => false
      then
        let s := here.foldl (fun s b => s.passGbar b.node g) s
        s.modGrid gid fun gr => { gr with released := tabPut gr.released g (rel + 1) }
      else s

/-- R84, R310: the group barriers that fibres of warp `k` wait at are looked at again, where what held them back has ended. -/
def State.settleGbars (s : State) (k : Nat) : State :=
  match (s.warp? k).bind fun w => (s.block? w.node).map fun b => (w, b) with
  | none => s
  | some (w, b) =>
    let l := ((s.liveWarps w.node).flatMap fun p => p.2.gangs.filterMap fun g => match g.wait with
      | .gbar n => some n
      | _ => none).eraseDups
    l.foldl (fun s n => s.settleGroup b.gid n) s

/-! ## Replies to ended fibres are discarded (R81) -/

/-- Discards the register replies of ended fibres of warp `k` to the requests made so far. -/
def State.forgetFibres (s : State) (k : Nat) (lanes : Lanes) : State :=
  s.modWarp k fun w => { w with forgot := vecOf 32 fun j => if inSet lanes j then s.fresh else vecAt w.forgot j 0 }

/-! ## Ends of fibres, warps and blocks -/

/-- Whether nothing of a warp is outstanding: its requests answered, its operations retired, its rows' replies landed (R283). -/
def Warp.quiet (w : Warp) : Bool :=
  w.flights.isEmpty && w.ops.isEmpty && (w.rows.all fun x => decide (x.pend = 0)) && w.spend.toList.all fun n => decide (n = 0)

/-- Releases the register allocation of an ended warp once every reply has landed (R82). -/
def State.releaseRegs (s : State) (k : Nat) : State :=
  match s.warp? k with
  | none => s
  | some w =>
    if w.live = 0 ∧ (w.rows.all fun x => decide (x.pend = 0)) then
      let s := (List.range w.rows.length).foldl (fun s r => s.unshare k r) s
      let s := s.modWarp k fun w => { w with rows := [] }
      let s := s.modCore w.core fun c => { c with pieces := c.pieces.filter fun p => p.scr || decide (p.owner ≠ k) }
      if (s.core w.core).sallocQ.isEmpty then s else s.sendOnce .sallocGrant { core := w.core }
    else s

/-- Releases a node's scratchpad, tags, tiles and slots at its core (R197, R204, R305). -/
def State.releaseStore (s : State) (node core : Nat) : State :=
  let s := s.modCore core fun c =>
    { c with
      pieces := c.pieces.filter fun p => !(p.scr && decide (p.owner = node))
      tags := c.tags.filter fun e => decide (e.2.node ≠ node) }
  if (s.core core).sallocQ.isEmpty then s else s.sendOnce .sallocGrant { core := core }

/-- A duration of a stamp record, from its start (R433). -/
def stampSpan (start : Nat) : Option Nat → Nat
  | none => 0xFFFFFFFF
  | some t => min (t - start) 0xFFFFFFFE

/-- R433: a stamp record. -/
def stampRecord (b : Block) (now : Nat) (disc resumed : Bool) : List Byte :=
  let t := b.stamp
  let start := t.start.getD now
  let flags := (if disc then 1 else 0) + (if resumed then 2 else 0) + (if t.mark.isSome then 4 else 0) + (if b.norev then 8 else 0)
  leBytes 4 b.bid ++ leBytes 4 b.gid ++ leBytes 8 start
    ++ leBytes 4 (match t.fill with
      | some f => min (start - f) 0xFFFFFFFE
      | none => 0)
    ++ leBytes 4 (stampSpan start t.mfirst) ++ leBytes 4 (stampSpan start t.mlast) ++ leBytes 4 (stampSpan start t.out)
    ++ leBytes 4 (stampSpan start (some now)) ++ leBytes 4 (min t.opwait 0xFFFFFFFF) ++ leBytes 8 b.enblk ++ leBytes 8 t.region
    ++ leBytes 1 t.rdepth ++ leBytes 1 flags ++ leBytes 2 b.gen
    ++ leBytes 4 (match t.mark with
      | some m => min (m - start) 0xFFFFFFFE
      | none => 0)

/-- Writes the stamp record of a block's run, unstaged (R432, R433, R435); a record whose address fails to translate is dropped. -/
def State.writeStamp (s : State) (node : Nat) (disc : Bool) : State :=
  match s.block? node with
  | none => s
  | some b =>
    match s.debugBlock b.chip b.ctx with
    | none => s
    | some (key, d) =>
      let len := fieldAt d 8 4
      let head := fieldAt d 12 4
      let resumed := s.warps.any fun p => decide (p.2.node = node) && decide (p.2.resumes ≠ 0)
      if len = 0 then s
      else match s.resolve b.chip b.ctx (fieldAt d 0 8 + 64 * (head % len)) with
        | some (k, _) => (s.hubWrite k (stampRecord b (s.podTime b.chip) disc resumed)).hubWrite (key + 12) (leBytes 4 (head + 1))
        | none => s

/-- What the state of a node's warps entitles it to: a block ends with its last warp (R82); an ended block is complete when
nothing of it is outstanding (R283), and its row may then finish. -/
def State.tidyNode (s : State) (node : Nat) : State :=
  match s.block? node with
  | none => s
  | some b =>
    let ws := s.warps.filter fun p => decide (p.2.node = node)
    let s := if b.st = .running ∧ (ws.all fun p => decide (p.2.live = 0)) then
        let busy := ws.any fun p => p.2.ops.any fun o => o.scr && (decide (o.cls = .copy) || decide (o.cls = .gath))
        let s := (s.modBlock node fun b => { b with st := .ended, exitcp := busy }).writeStamp node false
        b.groups.foldl (fun s g => s.settleGroup b.gid g.1) s
      else s
    match s.block? node with
    | none => s
    | some b =>
      if b.st = .ended ∧ !b.finished then
        let engines := ws.any fun p => p.2.ops.any fun o => decide (o.cls = .copy) || decide (o.cls = .gath)
        let s := if engines then s else s.releaseStore node b.core
        if ws.all fun p => p.2.quiet then
          let s := ws.foldl (fun s p => s.releaseRegs p.1) s
          let gw := ws.foldl (fun x p => x ||| p.2.warn) 0 ||| warnIf b.exitcp wEXITCP
          let s := s.modGrid b.gid fun g => { g with warn := g.warn ||| gw }
          let s := (s.modBlock node fun b => { b with finished := true }).sendOnce .finishReport { chip := b.chip, gid := b.gid, row := b.row }
          s.sendOnce .blockCommit { node := node }
        else s
      else s

/-- A warp's fibres have ended: its row may have triggered (R369). -/
def State.askTrigger (s : State) (k : Nat) : State :=
  match (s.warp? k).bind fun w => s.block? w.node with
  | some b => s.sendOnce .triggerReport { chip := b.chip, gid := b.gid, row := b.row }
  | none => s

/-- Ends fibres of a warp (R81): their slots are free, their predicates and RJ bits clear, their registers' valid bits clear, and
their replies are discarded. -/
def State.endFibres (s : State) (k : Nat) (lanes : Lanes) : State :=
  let s := ((s.clearLanes k lanes).forgetFibres k lanes).askTrigger k
  (s.modWarp k fun w =>
    { (w.dropFibres lanes) with
      live := w.live &&& ~~~lanes
      triggered := w.triggered &&& ~~~lanes
      preds := vecOf 32 fun j => if inSet lanes j then 0 else vecAt w.preds j 1
      rj := vecOf 4 fun n => vecAt w.rj n 0 &&& ~~~lanes }).settleGbars k

/-- A tile of a node has no owner any more: the waiting warp of least index takes it, cleared (R224). -/
def State.freeTile (s : State) (node t : Nat) : State :=
  let waits := fun (p : Nat × Warp) => decide (p.2.node = node) && p.2.gangs.any fun g => decide (g.wait = .stall (.tiles [t]))
  let least := (s.warps.filter waits).foldl (fun (a : Option Nat) p => some (min (a.getD 32) p.2.idx)) none
  match least with
  | none => s.modBlock node fun b => { b with tiles := b.tiles.set t { b.tiles.getD t {} with owner := none } }
  | some i =>
    (s.modBlock node fun b => { b with tiles := b.tiles.set t { owner := some i } }).modWarp (node * 32 + i) fun w =>
      { w with gangs := w.gangs.map fun g => if g.wait = .stall (.tiles [t]) then { g with wait := .run } else g }

/-- The tiles of an ended warp are freed as by `mfree`: once its matrix instructions have retired (R224). -/
def State.freeTiles (s : State) (k : Nat) : State :=
  match s.warp? k with
  | none => s
  | some w =>
    if w.live ≠ 0 ∨ w.ops.any fun o => decide (o.cls = .mtx) then s
    else match s.block? w.node with
      | none => s
      | some b => ((List.range b.tiles.length).filter fun t => decide ((b.tiles.getD t {}).owner = some w.idx)).foldl
          (fun s t => s.freeTile w.node t) s

/-- Ends a warp (R82): every fibre ends; its tiles are freed as by `mfree`, its monitor and waits are gone; its registers follow
once their replies have landed. -/
def State.endWarp (s : State) (k : Nat) : State :=
  match s.warp? k with
  | none => s
  | some w =>
    let s := (s.forgetFibres k (BitVec.allOnes 32)).askTrigger k
    let s := s.modWarp k fun w =>
      { w with live := 0, gangs := [], run := none, rj := vecOf 4 fun _ => 0, monitor := none, deadline := none
               preds := vecOf 32 fun _ => 0 }
    let s := s.freeTiles k
    let s := s.releaseRegs k
    let ks := (s.liveWarps w.node).map Prod.fst
    let s := ks.foldl (fun s k => s.settle k) s
    (s.settleGbars k).tidyNode w.node

end Sys2Proof.Machine
end

