-- ==== Sys2Proof/Machine/Home.lean ====
section
/-! DEFINITION. The home slices: reads served, writes performed, merges, sync stores, leases, walks, counted packets
(08 R238, R241, R255 to R258; 09 R269 to R274, R277, R281; 12 R345, R348; 16 R422; 17 R436, R438). -/

namespace Sys2Proof.Machine

/-! ## Engine operations as the homes see them (R292, R301) -/

/-- The key of a byte of a block's scratchpad, beyond every memory key. -/
def blkKey (bid off : Nat) : Nat := 2 ^ 72 + bid * 2 ^ 25 + off

/-- Whether a line lies in a scratchpad. -/
def scratchLine (line : Nat) : Bool := decide (2 ^ 65 ≤ line)

/-- Changes the operation of a warp that a request belongs to. -/
def State.modOp (s : State) (k op : Nat) (f : EngOp → EngOp) : State :=
  s.modWarp k fun w => { w with ops := w.ops.map fun o => if o.id = op then f o else o }

/-- A piece of an operation is done, with a completion time: at the last the operation may retire (R292). -/
def State.pieceDone (s : State) (a : Access) (ct : Nat) : State :=
  let s := s.modOp a.warp a.op fun o => { o with left := o.left - 1, ct := max o.ct ct }
  match s.opOf a.warp a.op with
  | some o => if o.left = 0 then s.sendOnce .operationRetire { warp := a.warp, cls := o.cls } else s
  | none => s

/-- R301: an older operation of the same warp still has to write some of these bytes. -/
def State.writtenBefore (s : State) (a : Access) (key len : Nat) : Bool :=
  decide (a.op ≠ 0) && match s.warp? a.warp with
    | some w => w.ops.any fun o => decide (o.id < a.op) && (decide (o.left ≠ 0) || decide (o.job ≠ .idle)) &&
        o.dst.any fun r => decide (r.1 < key + len) && decide (key < r.1 + r.2)
    | none => false

/-- A node no message of which counts any more: gone, dead or rolled back (R285). -/
def State.gone (s : State) (node : Nat) : Bool :=
  decide (node ≠ 0) && match s.block? node with
    | some b => decide (b.st = .dead)
    | none => true

/-- A block becomes a dependant of another that has not committed (R282, R346). -/
def State.dependNode (s : State) (node on : Nat) : State :=
  if node = on then s
  else match s.block? on with
    | some b => if b.st = .committed ∨ b.st = .dead then s
        else s.modBlock node fun x => { x with deps := if x.deps.contains on then x.deps else x.deps ++ [on] }
    | none => s

/-! ## What a read or an atomic consumes (R262, R264) -/

/-- The sectors that some bytes touch. -/
def sectorsOf (m : BitVec 128) : List Nat := [0, 1].filter fun k => decide (m.extractLsb' (64 * k) 64 ≠ 0)

/-- The sectors that some bytes touch and that hold an uncorrectable error, or that fail their tag alone (R264): the kind of fault
record and the syndrome's class. -/
def HomeLine.consumed (h : HomeLine) (m : BitVec 128) : Option (Nat × Nat) :=
  let l := sectorsOf m
  if l.any h.poison.contains then some (1, 2)
  else if l.any h.violated.contains then some (5, 3)
  else none

/-- What consuming an error does: at home on the consumer's own chip the block rolls back (R262, R402); elsewhere, and for an
integrity violation, a record is sent (R400). -/
def State.consume (s : State) (a : Access) (kind cls : Nat) : State :=
  let home := s.homeOf a.line
  if kind = 1 ∧ home = chipOfCore a.core then s.sendOnce .blockRollback { node := a.node, num := 0x0403 }
  else s.reportFault home a kind (s.lineSyndrome a cls)

/-! ## Performing writes (R271) -/

/-- Logs a float `atom`, `red` or `cas` performed at its home (R438, type 2), one record for each element. -/
def State.logAtomic (s : State) (a : Access) (op : HomeOp) : State :=
  let home := s.homeOf a.line
  let offs := match op with
    | .atom _ ty l => if 4 ≤ ty then l.map LaneOp.off else []
    | .cas ty l => if 4 ≤ ty then l.map LaneOp.off else []
    | _ => []
  match s.block? a.node, s.warp? a.warp with
  | some b, some w =>
    match s.debugBlock home b.ctx with
    | none => s
    | some (_, d) =>
      if !(d.getD 32 0).getLsbD 0 then s
      else
        let n := (tabLook (s.die (s.dieOf a.line)).writes (sliceOf (a.line * 128 % 2 ^ 60))).getD 0
        offs.eraseDups.foldl (fun s off => s.orderLog home b.ctx (logRecord 2 b.gid
          (leBytes 8 (a.va + off) ++ leBytes 4 b.bid ++ leBytes 4 w.idx ++ leBytes 8 n) w.region)) s
  | _, _ => s

/-- How many bytes a place takes of a returned element. -/
def backBytes (op : HomeOp) : Nat :=
  match op with
  | .atom _ ty _ => elemBytes ty
  | .cas ty _ => elemBytes ty
  | .amxr ty _ => elemBytes ty
  | _ => 0

/-- The parts of a reply that carries returned values one after another. -/
def backParts (n : Nat) (l : List Back) : List Part :=
  ((List.range l.length).zip l).map fun p => { off := n * p.1, len := n, place := p.2.1 }

/-- A write performed at its home now, with completion time `ct` (R271, R281): staged, acknowledged, its values returned, and a
counted packet's add begun (R348). A write of the hub is only performed (R365). `breach` tells a float atomic outside the reduction
state (R11). -/
def State.applyWrite (s : State) (c : Cue) (ct : Nat) (breach : Bool) : State :=
  let a := c.acc
  let line := a.line
  let home := s.homeOf line
  let there := chipOfCore a.core
  if a.node = 0 then s.putLine line [0] ct (runHome c.op (s.lineData line)).2.2 (runHome c.op (s.lineData line)).1
  else
  let s := ((s.dependOn a.node line).stageUndo a.node line).gridSave a.node line a.rc
  let r := runHome c.op (s.lineData line)
  let s := s.putLine line [a.node] ct r.2.2 r.1
  let slice := sliceOf (line * 128 % 2 ^ 60)
  let s := s.modDie (s.dieOf line) fun d => { d with writes := tabPut d.writes slice ((tabLook d.writes slice).getD 0 + 1) }
  let s := (s.modBlock a.node fun b => { b with lastCt := max b.lastCt ct }).logAtomic a c.op
  let ver := (s.line line).ver
  let s := if c.peer = 0 then s
    else
      let bytes := match c.op with
        | .store ps => (ps.map fun p => p.2.length).foldl (· + ·) 0
        | _ => 0
      (s.modOp a.warp a.op fun o => { o with left := o.left + 1 }).send .countedPacketAdd
        { chip := home, gid := c.gid, num := c.peer - 1, unit := c.unit, tag := bytes, ct := max (s.podTime home) (ct + 25), acc := a }
  let s := s.sendTo home there .acknowledge { acc := a, ct := ct, num := ver, ok := !breach }
  if r.2.1.isEmpty then s
  else
    let n := backBytes c.op
    s.sendTo home there .readReply
      { acc := { a with lease := 0, repl := false }, parts := backParts n r.2.1, data := r.2.1.flatMap fun b => leBytes n b.2
        num := ver }

/-- The bytes of a line that an operation reads. -/
def homeReads (op : HomeOp) (l : Line) : BitVec 128 :=
  match op with
  | .store _ => 0
  | _ => (runHome op l).2.2

/-- A write that has arrived at its home (R256, R271, R273, R274, R422): it waits for a pending switch or for the host's answer;
else it is performed, or starts its own switch. -/
def State.performWrite (s : State) (c : Cue) : State :=
  let a := c.acc
  let line := a.line
  let home := s.homeOf line
  match s.heldBack line with
  | some s => s.enqueue line c
  | none => match c.op with
    | .merge => s.mergeLine line
    | .join =>
      let s := s.touch line a.rv a.alloc
      let s := s.modLine line fun h =>
        let l := h.red.getD []
        { h with red := some (if l.contains a.warp then l else l ++ [a.warp]) }
      if a.id = 0 then s
      else s.sendTo home (chipOfCore a.core) .acknowledge { acc := a, ct := s.writeCt line 0 c.came, num := 0 }
    | .writeBack =>
      let s := (s.mergeLine line).examine line
      let dirty := (s.line line).dirty
      let s := s.modLine line fun h => { h with dirty := false }
      s.sendTo home (chipOfCore a.core) .acknowledge
        { acc := a, ct := if dirty then s.podTime home else 0, num := 0 }
    | op =>
      let red := (s.line line).red
      let s := (s.mergeLine line).examine line
      match (s.line line).consumed (homeReads op (s.lineData line)) with
      | some (kind, cls) => s.consume a kind cls
      | none =>
        let s := s.touch line a.rv a.alloc
        let ct := s.writeCt line a.rc c.came
        let sync := a.sync && (match op with
          | .store _ => true
          | _ => false)
        if sync then
          (s.modLine line fun h => { h with sync := some { due := ct + 25, ct := ct, cue := c } }).send .syncSwitch { line := line }
        else s.applyWrite c ct (isFloatAtomic op && red.isNone)

/-- The writes that waited at a line, performed in arrival order (R274, R422). -/
def State.drain (s : State) (line : Nat) : State :=
  let l := (s.line line).waiting
  l.foldl (fun s c => if s.gone c.acc.node then s else s.performWrite c) (s.modLine line fun h => { h with waiting := [] })

/-- WRITE (R271): a request arrives at its home. A write of an engine waits for an older operation's writes to the same bytes
(R301), and while the block's staging budget is used up (R284). -/
def execWrite (s : State) : Host.Outcome State Fault Refusal :=
  let c := s.cue
  let a := c.acc
  let home := s.homeOf a.line
  let r := s.arrive (chipOfCore a.core) home c
  let s := r.1
  let c := { c with tag := 0 }
  if !r.2 ∨ s.gone a.node then .next s
  else
      let early := match c.op with
        | .store ps => ps.any fun p => s.writtenBefore a (128 * a.line + p.1) p.2.length
        | _ => false
      if early then .next (s.send .write c)
      else match s.block? a.node with
        | none => .next (s.performWrite c)
        | some b =>
          if a.op = 0 ∨ b.norev ∨ b.staged.contains a.line then .next (s.performWrite c)
          else if b.staged.length < b.budget then
            .next ((s.modBlock a.node fun b => { b with staged := b.staged ++ [a.line] }).performWrite c)
          else
            let s := s.modBlock a.node fun b => { b with stallSince := some (b.stallSince.getD (s.podTime b.chip)) }
            .next ((s.send .write c).sendOnce .stagingEarlyCommit { node := a.node })

/-- SYNC_SWITCH (R274): at S the new value replaces the old, the store is acknowledged, and what waited is performed. A copy that the
host took meanwhile is asked back first (R422). -/
def execSyncSwitch (s : State) : Host.Outcome State Fault Refusal :=
  let line := s.cue.line
  match (s.line line).sync with
  | none => .next s
  | some w =>
    if s.podTime (s.homeOf line) < w.due then .next (s.send .syncSwitch { line := line })
    else if (s.line line).hostHeld then .next ((s.heldBack line).getD s)
    else
      let s := s.modLine line fun h => { h with sync := none }
      let s := if s.gone w.cue.acc.node then s else s.applyWrite w.cue w.ct false
      .next (s.drain line)

/-- BACK_INVALIDATE_ANSWER (R422): the host has given the line up, and the writes it held back are performed; their completion times
count from this answer. A pending switch moves with it (R274). -/
def execBackInvalidateAnswer (s : State) : Host.Outcome State Fault Refusal :=
  let line := s.cue.line
  let now := s.podTime (s.homeOf line)
  let s := s.modLine line fun h => { h with
    hostHeld := false, backInv := false
    waiting := h.waiting.map fun c => { c with came := some now }
    sync := h.sync.map fun w => { w with ct := max w.ct now, due := max w.ct now + 25 } }
  .next (if (s.line line).sync.isSome then s.sendOnce .syncSwitch { line := line } else s.drain line)

/-- REDUCTION_MERGE (R256). -/
def execReductionMerge (s : State) : Host.Outcome State Fault Refusal := .next (s.mergeInTurn s.cue.line)

/-! ## Serving reads (R269, R277) -/

/-- R277: whether bytes read now show the latest write of another block, a merge with another's contribution included, before its
completion time plus 25 ns. -/
def HomeLine.racyFor (h : HomeLine) (node now : Nat) (m : BitVec 128) : Bool :=
  (List.range 128).any fun i => m.getLsbD i &&
    match h.recent.reverse.find? fun r => r.2.2.getLsbD i with
    | some r => (r.1.any fun n => decide (n ≠ 0) && decide (n ≠ node)) && decide (now < r.2.1 + 25)
    | none => false

/-- The 128 bytes of a line of memory or of a scratchpad. -/
def State.readLine (s : State) (node line : Nat) : List Byte :=
  if scratchLine line then memBytes ((s.block? node).getD {}).scratch (line * 128 % 2 ^ 25) 128
  else memBytes s.mem (128 * line) 128

/-- Whether a request is a prefetch: it counts nothing and its warp awaits no answer (R260). -/
def State.prefetch (s : State) (a : Access) : Bool :=
  decide (a.op = 0) && !(((s.warp? a.warp).map fun w => w.flights.any fun f => decide (f.id = a.id)).getD false)

/-- READ_REQUEST (R256, R269, R274, R277, R282): the home serves a read and grants a lease; a scratchpad is read at the core. -/
def execReadRequest (s : State) : Host.Outcome State Fault Refusal :=
  let c := s.cue
  let a := c.acc
  if scratchLine a.line then .next (if s.gone a.node then s else s.send .readReply { acc := a, parts := c.parts, data := s.readLine a.node a.line })
  else
    let home := s.homeOf a.line
    let r := s.arrive (chipOfCore a.core) home c
    if !r.2 ∨ s.gone a.node then .next r.1
    else
      let s := if (r.1.line a.line).sync.isSome then r.1 else r.1.mergeLine a.line
      let prf := s.prefetch a
      let s := s.examine a.line
      let s := if prf then s else s.dependOn a.node a.line
      let m := partBytes (c.parts.map fun p => (p.off, p.len))
      match (s.line a.line).consumed m with
      | some (kind, cls) => .next (if prf then s else s.consume a kind cls)
      | none =>
        let gate := c.parts.any fun p => match p.place with
          | .gate _ _ => true
          | _ => false
        -- the line is served from the L2 or from DRAM (R412)
        let from_ := if (s.line a.line).way.isSome then 4096 else 20480
        let s := if gate then s.chargeBlock a.node from_ else s.charge a.warp from_
        let s := s.touch a.line a.rv a.alloc
        let now := s.podTime home
        let h := s.line a.line
        let exp := if a.lease = 0 then 0 else match h.sync with
          | some w => min (now + a.lease) w.ct
          | none => now + a.lease
        let s := s.modLine a.line fun h => { h with h := max h.h exp }
        .next (s.sendTo home (chipOfCore a.core) .readReply
          { acc := a, parts := c.parts, data := s.readLine a.node a.line, num := h.ver, ct := exp
            ok := !(h.racyFor a.node now m) })

/-! ## Leases and walks -/

/-- The copies a holder keeps: a core's cache, or a die's replicas (R269). -/
def State.dropCopy (s : State) (unit line : Nat) : State :=
  if unit % 2 = 0 then s.modCore (unit / 2) fun c =>
    { c with copies := tabUpd c.copies line fun x => { x with live := false }
             vtab := c.vtab.filter fun e => !e.lines.contains line
             vpend := c.vpend.filter fun e => !e.2.lines.contains line }
  else s.modDie (unit / 2) fun d => { d with replicas := tabUpd d.replicas line fun x => { x with live := false } }

/-- The copy a holder has of a line. -/
def State.copyAt (s : State) (unit line : Nat) : Option Copy :=
  if unit % 2 = 0 then tabLook (s.core (unit / 2)).copies line else tabLook (s.die (unit / 2)).replicas line

/-- The chip of a holder: twice a core, or twice a die and one. -/
def holderChip (unit : Nat) : Nat := if unit % 2 = 0 then chipOfCore (unit / 2) else unit / 8

/-- LEASE_EXPIRY (R269): the copy is invalid once its holder's pod time has reached the expiry. -/
def execLeaseExpiry (s : State) : Host.Outcome State Fault Refusal :=
  let c := s.cue
  match s.copyAt c.unit c.line with
  | none => .next s
  | some x =>
    if !x.live then .next s
    else if s.podTime (holderChip c.unit) < x.exp then .next (s.send .leaseExpiry { unit := c.unit, line := c.line })
    else .next (s.dropCopy c.unit c.line)

/-- TRANSLATION_WALK (R238): a walk completes, and its leaf is cached for every requester; a walk that finds none caches nothing
(log 13: DEDUCED). -/
def execTranslationWalk (s : State) : Host.Outcome State Fault Refusal :=
  let chip := s.cue.chip
  match (s.chip chip).walks.find? fun w => decide (w.num = s.cue.num) with
  | none => .next s
  | some w =>
    let leaf := (s.homeSpace chip w.ctx w.home).bind fun sp => s.walkLeaf sp w.ctx w.home w.off
    .next (s.modChip chip fun c =>
      { c with
        walks := c.walks.filter fun x => decide (x.num ≠ w.num)
        tlb := match leaf with
          | some e => if c.tlb.contains e then c.tlb else c.tlb ++ [e]
          | none => c.tlb })

/-! ## Data and counts for blocks (R345, R346, R348) -/

/-- A counter record's add, modulo 2^64 (R345). -/
def addCount (m : List Host.Cell) (off n : Nat) : List Host.Cell := memPut m off (leBytes 8 (leNat (memBytes m off 8) + n))

/-- What becomes of data for a block: written, held until it starts, or discarded (R346). -/
inductive Target
  | write (b : Block)
  | hold
  | discard
deriving DecidableEq, Repr

/-- The block that data for block `bid` of a grid reaches. -/
def State.target (s : State) (gid bid : Nat) : Target :=
  match s.nodeOf gid bid with
  | none => .hold
  | some b => match b.st with
    | .running => .write b
    | .saved => .write b
    | .gated => .hold
    | .queued => .hold
    | _ => .discard

/-- COUNTED_PACKET_ADD (R348): the add is made once the home's clock has reached its time. -/
def execCountedPacketAdd (s : State) : Host.Outcome State Fault Refusal :=
  let c := s.cue
  if s.gone c.acc.node then .next s
  else if s.podTime c.chip < c.ct then .next (s.send .countedPacketAdd c)
  else match s.target c.gid c.num with
    | .hold => .next (s.send .countedPacketAdd c)
    | .discard => .next (s.pieceDone c.acc 0)
    | .write b =>
      let s := (s.dependNode b.node c.acc.node).modBlock b.node fun b => { b with scratch := addCount b.scratch c.unit c.tag }
      .next ((s.recount b.node).pieceDone c.acc 0)

/-- Scratchpad bytes of one part of a transfer, and its count. -/
def placeBlk (data : List Byte) (b : Block) (p : Part) : Block :=
  match p.place with
  | .blk _ off cnt =>
    let b := b.putScratch off ((data.drop p.off).take p.len)
    match cnt with
    | some r => { b with scratch := addCount b.scratch r p.len }
    | none => b
  | _ => b

/-- Sends a part of a transfer from chip `x` to the chip of the block it is for; one for a block that is on no chip yet waits at
the source's hub (R344, R346). -/
def State.sendBlock (s : State) (x gid bid : Nat) (cue : Cue) : State :=
  match s.nodeOf gid bid with
  | some b => s.sendTo x b.chip .blockWrite { cue with chip := b.chip, peer := x, tag := 0, num := 0 }
  | none => s.send .blockWrite { cue with chip := x, peer := x, tag := 0, num := 0 }

/-- The block and the bytes of its scratchpad that a part of a transfer is for. -/
def wanted (c : Cue) : Option (Nat × Nat × Nat) :=
  c.parts.findSome? fun p => match p.place with
    | .blk bid off _ => some (bid, off, p.len)
    | _ => none

/-- BLOCK_WRITE (R341, R344 to R346): a transfer's data reaches a block's scratchpad, and its count follows. Data for a block that
has moved, or has been placed again, follows it. -/
def execBlockWrite (s : State) : Host.Outcome State Fault Refusal :=
  let r := s.arrive s.cue.peer s.cue.chip s.cue
  let s' := r.1
  -- its packet, which its source keeps until it is written (R335)
  let c := { s.cue with tag := 0, num := if s.cue.tag = 0 then s.cue.num else s.cue.tag }
  let a := c.acc
  if !r.2 ∨ s.gone a.node then .next s'
  else match s'.block? a.node, wanted c with
    | none, _ => .next s'
    | some _, none => .next (s'.pieceDone a 0)
    | some src, some (bid, off, len) =>
      if s'.writtenBefore a (blkKey bid off) len then .next (s'.send .blockWrite c)
      else
        let moved := ((s'.nodeOf src.gid bid).map fun b => decide (b.chip ≠ c.chip)).getD false
        match s'.target src.gid bid with
        | .hold => .next (if moved then (s'.forgetTag c.num).sendBlock c.chip src.gid bid c else s'.send .blockWrite c)
        | .discard => .next ((s'.forgetTag c.num).pieceDone a 0)
        | .write b =>
          if moved then .next ((s'.forgetTag c.num).sendBlock c.chip src.gid bid c)
          else .next (((((s'.forgetTag c.num).dependNode b.node a.node).modBlock b.node fun b => c.parts.foldl (placeBlk c.data) b).recount b.node).pieceDone a 0)

end Sys2Proof.Machine
end

