-- ==== Sys2Proof/Machine/BankStore.lean ====
section
/-! DEFINITION. The bank store: the allocator, `salloc` and `sfree`, the Burnisher, retirement of banks, scratchpad access, the
tag table, content names and window bases, majors 0x50 to 0x58 (06). -/

namespace Sys2Proof.Machine

/-! ## The allocator (R161, R162) -/

/-- Rows held by allocations. -/
def Core.used (c : Core) : Nat := (c.pieces.map Piece.rows).foldl (· + ·) 0

/-- The capacity that governs new grants: while a group is being withdrawn, the one it will leave (R188). -/
def Core.capacity (c : Core) : Nat := if c.wdr then c.kib - 64 else c.kib

/-- The greatest number of rows that allocations may hold (R162). -/
def Core.limit (c : Core) : Nat := c.capacity * 8 - 256

/-- The lowest free buddy block of an order (R161). -/
def Core.freeBase (c : Core) (order : Nat) : Option Nat :=
  let size := 32 * 2 ^ order
  ((List.range (c.capacity * 8 / size)).map (· * size)).find? fun b =>
    c.pieces.all fun p => decide (p.base + p.rows ≤ b) || decide (b + size ≤ p.base)

/-- The orders of the buddy blocks that hold `u` units (R161). -/
def unitOrders (u : Nat) : List Nat := List.replicate (u / 32) 5 ++ [4, 3, 2, 1, 0].filter fun k => (u % 32).testBit k

/-- Places pieces of given orders, each in the lowest free buddy block (R161). -/
def Core.place (owner : Nat) (scr : Bool) : List Nat → Core → Option Core
  | [], c => some c
  | k :: r, c =>
    match c.freeBase k with
    | some b => Core.place owner scr r { c with pieces := c.pieces ++ [{ owner := owner, scr := scr, order := k, base := b }] }
    | none => none

/-- An allocation of `u` units, when it fits (R161, R162). -/
def Core.allocate (c : Core) (owner : Nat) (scr : Bool) (u : Nat) : Option Core :=
  if c.used + 32 * u ≤ c.limit then Core.place owner scr (unitOrders u) c else none

/-- The node that owns a piece. -/
def Piece.node (p : Piece) : Nat := if p.scr then p.owner else p.owner / 32

/-- The rows that a node's allocations hold. -/
def Core.nodeRows (c : Core) (node : Nat) : Nat :=
  ((c.pieces.filter fun p => decide (p.node = node)).map Piece.rows).foldl (· + ·) 0

/-- Keeps the first `u` units of pieces that are in architectural order: a piece cut short keeps its leading buddy blocks. -/
def keepUnits : Nat → List Piece → List Piece
  | _, [] => []
  | u, p :: r =>
    let n := 2 ^ p.order
    if n ≤ u then p :: keepUnits (u - n) r
    else
      let cut := (unitOrders u).foldl (fun (x : Nat × List Piece) k =>
        (x.1 + 32 * 2 ^ k, x.2 ++ [{ p with order := k, base := x.1 }])) (p.base, [])
      cut.2

/-! ## `salloc` and `sfree` (R169, R170) -/

/-- The frame's description of a word of majors 0x50 to 0x58. -/
def bInfo (op f7 : Nat) (g : BitVec 4) (srcs : List Code) (rsv : Bool) : OpInfo :=
  { op := op, f7 := f7, g := g, srcs := srcs, rsv := rsv }

/-- The use of a destination of one register. -/
def dstUse (d : Code) (lanes : Lanes) : Use := { code := d, lanes := lanes, read := false }

/-- Delivers one value to destination code `d` of a warp in some fibres, after issue (R169). -/
def State.deliverOnce (s : State) (k : Nat) (d : Code) (lanes : Lanes) (v : Word) : State :=
  match s.warp? k with
  | none => s
  | some w =>
    if d.toNat < 96 then
      let rows := (lanesOf lanes).foldl (fun l j => let r := w.base j + d.toNat; if l.contains r then l else l ++ [r]) []
      rows.foldl (fun s r => s.writeRow k r
        ((lanesOf lanes).foldl (fun m j => if w.base j + d.toNat = r then m ||| laneBit j else m) 0) fun _ => v) s
    else if d.toNat < 112 then (if lanes = 0 then s else s.writeSreg k (d.toNat - 96) v)
    else s

/-- R169: asks for `n` more units of registers. -/
def execSalloc (g : BitVec 4) (d a i : Code) (s : State) : Host.Outcome State Fault Refusal :=
  issued { bInfo 0x50 0 g [] (decide (a ≠ 0)) with ext := true, imm7 := i, immBits := i.toNat } s fun cx s =>
    match cx.lead with
    | none => .done s none
    | some _ =>
      cx.checked [dstUse d cx.q] s fun s =>
        let n := cx.xUnsigned
        if n = 0 ∨ 32 < n ∨ 1024 < cx.w.rows.length + 32 * n then .done (cx.writeOnce s d false 0) none
        else
          let stamp := ((s.grid? cx.b.gid).map GridRun.stamp).getD 0
          let r : Sreq := { stamp := stamp, gid := cx.b.gid, bid := cx.b.bid, warp := cx.k, units := n, d := d, q := cx.q, mask := cx.m }
          let s := (cx.warn s (dstWarn d false false)).modCore cx.w.core fun c => { c with sallocQ := c.sallocQ ++ [r] }
          .wait (s.sendOnce .sallocGrant { core := cx.w.core }) (.stall .grant)

/-- R170: gives back the top `n` units of registers, once no reply to them is outstanding. A destination among the rows given back
raises the register-range trap, and none is given back (log 96: DESIGN CHOICE). -/
def execSfree (g : BitVec 4) (d a i : Code) (s : State) : Host.Outcome State Fault Refusal :=
  issued { bInfo 0x51 0 g [] (decide (a ≠ 0)) with ext := true, imm7 := i, immBits := i.toNat } s fun cx s =>
    match cx.lead with
    | none => .done s none
    | some _ =>
      cx.checked [dstUse d cx.q] s fun s =>
        let n := cx.xUnsigned
        let units := cx.w.rows.length / 32
        if n = 0 ∨ units ≤ n then .done (cx.writeOnce s d false 0) none
        else
          let keep := 32 * (units - n)
          let range := (List.range (32 * n)).map (· + keep)
          let busy := range.filter fun r => decide ((cx.w.row r).pend ≠ 0) || decide ((cx.w.row r).hold ≠ 0)
          if !busy.isEmpty then .stall s (.regs busy [])
          else
            match cx.findRow [dstUse d cx.q] fun _ r _ => decide (keep ≤ r) with
            | some (j, r) => .trap { cause := .regRange, lane := j, addr := r }
            | none =>
              let s := range.foldl (fun s r => s.unshare cx.k r) s
              let s := s.modWarp cx.k fun w => { w with
                rows := w.rows.take keep
                rowVer := (w.rows.drop keep).foldl (fun n x => max n (x.ver + 1)) w.rowVer }
              let s := s.modCore cx.w.core fun c =>
                let mine := fun (p : Piece) => !p.scr && decide (p.owner = cx.k)
                { c with pieces := c.pieces.filter (fun p => !mine p) ++ keepUnits (units - n) (c.pieces.filter mine) }
              let s := cx.writeOnce s d false (BitVec.ofNat 64 keep)
              .done (if (s.core cx.w.core).sallocQ.isEmpty then s else s.sendOnce .sallocGrant { core := cx.w.core }) none

/-- A request's place in the order of grants (R169). -/
def Sreq.key (r : Sreq) : List Nat := [r.stamp, r.gid, r.bid, r.warp % 32]

/-- Grants a request whose rows fit (R169): rows appended, the new count delivered, the gang free. -/
def State.grant (s : State) (core : Nat) (c : Core) (r : Sreq) : State :=
  let s := s.setCore core { c with sallocQ := c.sallocQ.filter fun x => decide (x ≠ r) }
  let s := s.modWarp r.warp fun w => { w with rows := w.rows ++ List.replicate (32 * r.units) { ver := w.rowVer } }
  let n := ((s.warp? r.warp).map fun w => w.rows.length).getD 0
  let s := s.deliverOnce r.warp r.d r.q (BitVec.ofNat 32 n)
  s.modWarp r.warp fun w => w.modGang r.mask fun g => if g.wait = .stall .grant then { g with wait := .run } else g

/-- SALLOC_GRANT (R169): the oldest queued request is granted when it fits; a request that only fragmentation holds back starts
the Burnisher (R172), and one that does not fit has the deadlock condition watched (R171). -/
def execSallocGrant (s : State) : Host.Outcome State Fault Refusal :=
  let core := s.cue.core
  let c := s.core core
  match leastBy Sreq.key c.sallocQ with
  | none => .next s
  | some r =>
    match c.allocate r.warp false r.units with
    | some c' =>
      let s := s.grant core c' r
      .next (if (s.core core).sallocQ.isEmpty then s else s.sendOnce .sallocGrant { core := core })
    | none =>
      let s := if c.used + 32 * r.units ≤ c.limit then s.sendOnce .burnisherMove { core := core } else s
      .next (s.sendOnce .allocationDeadlock { core := core })

/-! ## Deadlock, over-capacity and the Burnisher (R171 to R173, R191) -/

/-- The resident nodes of a core that are not leaving it. -/
def State.residents (s : State) (core : Nat) : List Block :=
  (tabVals s.blocks).filter fun b =>
    decide (b.core = core) && (decide (b.st = .running) || decide (b.st = .gated)) && !b.leaving

/-- A block's age (R171): grid launch pod time, then block id. -/
def State.age (s : State) (b : Block) : List Nat := [((s.grid? b.gid).map GridRun.stamp).getD 0, b.gid, b.bid]

/-- The youngest of some blocks. -/
def State.youngest (s : State) (l : List Block) : Option Block :=
  l.foldl (fun a b => match a with
    | some x => if keyLess (s.age x) (s.age b) then some b else a
    | none => some b) none

/-- A block leaves its core whole (R405, R406); `num` 1 marks a cause that turns to rollback where no save area serves (R407). -/
def State.evictNode (s : State) (node : Nat) : State :=
  let s := s.modBlock node fun b => { b with leaving := true }
  (s.warps.filter fun p => decide (p.2.node = node) && p.2.resident && decide (p.2.live ≠ 0)).foldl
    (fun s p => s.sendOnce .eviction { warp := p.1, num := 1 }) s

/-- A set of nodes grown by those that a relation adds, at most `fuel` times. -/
def growSet (more : List Nat → List Nat) : Nat → List Nat → List Nat
  | 0, l => l
  | n + 1, l => match more l with
    | [] => l
    | x => growSet more n (l ++ x)

/-- Whether two blocks of a grid stand in one co-resident group (R308). -/
def State.coLinked (s : State) (a b : Block) : Bool :=
  decide (a.gid = b.gid) && decide (a.chip = b.chip) && a.groups.any fun g =>
    (b.groups.any fun x => decide (x.1 = g.1)) && (((s.grid? a.gid).bind fun r => tabLook r.groups g.1).map Group.co).getD false

/-- A block with the blocks of a list that co-resident groups link to it, over one another too (R308). -/
def State.coMates (s : State) (b : Block) (l : List Block) : List Block :=
  let ns := growSet (fun ns => ((l.filter fun x => !ns.contains x.node &&
    ns.any fun n => ((s.block? n).map fun y => s.coLinked y x).getD false).map Block.node)) l.length [b.node]
  l.filter fun x => ns.contains x.node

/-- R308: with one member of a co-resident group every member on its chip leaves. -/
def State.evictMates (s : State) (b : Block) : State :=
  let l := (tabVals s.blocks).filter fun x => (decide (x.st = .running) || decide (x.st = .gated)) && !x.leaving
  ((s.coMates b l).filter fun x => decide (x.node ≠ b.node)).foldl (fun s x => s.evictNode x.node) s

/-- R191 to R193: an over-capacity fault of a block. Under `.relaunch resume` it leaves with its context, once its task gate is done
where that is still filling; otherwise it is rolled back and starts again. -/
def State.overCapacity (s : State) (b : Block) : State :=
  let s := s.evictMates b
  if ((s.grid? b.gid).map GridRun.resume).getD false then s.evictNode b.node
  else (s.modBlock b.node fun b => { b with leaving := true }).sendOnce .blockRollback { node := b.node, num := 0 }

/-- Whether a gang waits at a barrier of its block or of a group. -/
def Gang.atBar (g : Gang) : Bool :=
  match g.wait with
  | .bar _ => true
  | .gbar _ => true
  | _ => false

/-- R171: every resident warp waits in `salloc`, or at a barrier in a block that has a warp waiting in `salloc`. -/
def State.blockedCore (s : State) (core : Nat) : Bool :=
  let q := (s.core core).sallocQ
  let ws := s.warps.filter fun p => decide (p.2.core = core) && p.2.resident && decide (p.2.live ≠ 0)
  !ws.isEmpty && ws.all fun p =>
    (q.any fun r => decide (r.warp = p.1)) ||
      ((q.any fun r => decide (r.warp / 32 = p.2.node)) && p.2.gangs.all Gang.atBar)

/-- Whether a block is on its way off a core. -/
def State.departing (s : State) (core : Nat) : Bool :=
  (tabVals s.blocks).any fun b => decide (b.core = core) && b.leaving && (decide (b.st = .running) || decide (b.st = .gated))

/-- ALLOCATION_DEADLOCK (R171): one round while the core is blocked, once the block of the round before has left; it is looked at
again as long as a request waits. -/
def execAllocationDeadlock (s : State) : Host.Outcome State Fault Refusal :=
  let core := s.cue.core
  let c := s.core core
  match leastBy Sreq.key c.sallocQ with
  | none => .next s
  | some r =>
    let again := fun (s : State) => Host.Outcome.next (s.sendOnce .allocationDeadlock { core := core })
    if !s.blockedCore core || s.departing core then again s
    else match s.block? (r.warp / 32) with
      | none => .next s
      | some b0 =>
        if c.nodeRows b0.node + 32 * r.units > c.limit then again (s.overCapacity b0)
        else match s.youngest ((s.residents core).filter fun b => decide (b.node ≠ b0.node)) with
          | some y => again ((s.evictNode y.node).sendOnce .sallocGrant { core := core })
          | none => again (s.sendOnce .sallocGrant { core := core })

/-- The rows of a warp that a register piece holds: where it begins in the architectural space. -/
def Core.pieceStart (c : Core) (p : Piece) : Nat := ((c.holder p.base).map Prod.snd).getD 0

/-- Whether an operation of any block still has to write a node's scratchpad (R172): as a place of its own block, or by block id. -/
def State.scratchAwaits (s : State) (b : Block) : Bool :=
  let into := fun (d : Nat × Nat) => decide (d.1 < blkKey (b.bid + 1) 0) && decide (blkKey b.bid 0 < d.1 + d.2)
  s.warps.any fun x => x.2.ops.any fun o =>
    (o.scr && decide (x.2.node = b.node)) ||
      (o.dst.any into && ((s.block? x.2.node).map fun y => decide (y.gid = b.gid)).getD false)

/-- The move conditions of R172: the owners paused at a switch point, no row of the piece pending or held (R208), and nothing under
way to a scratchpad piece. -/
def State.movable (s : State) (c : Core) (p : Piece) : Bool :=
  let owners := s.warps.filter fun x => if p.scr then decide (x.2.node = p.owner) else decide (x.1 = p.owner)
  let inScr := fun (d : Access) (x : Part) => match x.place with
    | .scr _ => decide (d.node = p.owner)
    | _ => false
  (owners.all fun x => (match x.2.run with
      | some _ => false
      | none => true) && x.2.gangs.all fun g => decide (g.pfx.words = 0)) &&
    (if p.scr then
      !(s.agenda.any fun d => d.cue.parts.any (inScr d.cue.acc)) &&
        ((s.block? p.owner).map fun b => decide (b.st ≠ .gated) && !s.scratchAwaits b).getD true
    else owners.all fun x => ((x.2.rows.drop (c.pieceStart p)).take p.rows).all fun r => decide (r.pend = 0) && decide (r.hold = 0))

/-- Whether a piece holds an uncorrectable error (R186). -/
def State.pieceLost (s : State) (c : Core) (p : Piece) : Bool :=
  if p.scr then ((s.block? p.owner).map fun b =>
    b.scrBad.any fun x => decide (c.pieceStart p ≤ x / 32) && decide (x / 32 < c.pieceStart p + p.rows)).getD false
  else ((s.warp? p.owner).map fun w => ((w.rows.drop (c.pieceStart p)).take p.rows).any fun r => decide (r.bad ≠ 0)).getD false

/-- BURNISHER_MOVE (R172, R173): the highest piece that can move takes the lowest free buddy block below it. An uncorrectable error
that the move reads is its owner's (R186). -/
def execBurnisherMove (s : State) : Host.Outcome State Fault Refusal :=
  let core := s.cue.core
  let c := s.core core
  let lower := fun (p : Piece) => match c.freeBase p.order with
    | some b => decide (b < p.base)
    | none => false
  let cands := c.pieces.filter fun p => lower p && s.movable c p
  match cands.foldl (fun (a : Option Piece) p => match a with
    | some x => if x.base < p.base then some p else a
    | none => some p) none with
  | none => .next (if c.sallocQ.isEmpty then s else s.sendOnce .allocationDeadlock { core := core })
  | some p =>
    let base := (c.freeBase p.order).getD p.base
    let s := if s.pieceLost c p then s.lostRows [p.node] else s
    let c := { c with pieces := c.pieces.map fun x => if x = p then { x with base := base } else x }
    let s := s.setCore core c
    let s := if c.sallocQ.isEmpty then s else s.sendOnce .sallocGrant { core := core }
    .next (if c.wdr then s.sendOnce .burnisherMove { core := core } else s)

/-! ## Bank retirement (R187 to R190) -/

/-- A CAPACITY event for a core (R355). -/
def State.postCapacity (s : State) (core : Nat) : State :=
  s.postEvent (chipOfCore core) 6 0 (leBytes 2 (core % 2048) ++ leBytes 1 ((s.core core).kib / 64)) []

/-- BANK_EVACUATION (R187): a retirement request joins the queue; each step copies one entry of the first bank of the queue,
correcting single-bit errors — an uncorrectable word stays marked, for the read that comes — and the last switches the bank map.
Contents do not change. -/
def execBankEvacuation (s : State) : Host.Outcome State Fault Refusal :=
  let core := s.cue.core
  let bank := s.cue.unit
  let c := s.core core
  if c.kib = 0 then .next s
  else if !(c.evac.contains bank) then
    if c.spare ≤ c.evac.length then .next (s.sendOnce .bankGroupWithdrawal { core := core, unit := bank })
    else .next ((s.setCore core { c with evac := c.evac ++ [bank] }).send .bankEvacuation { core := core, unit := bank })
  else if c.evac.head? ≠ some bank then .next (s.send .bankEvacuation { core := core, unit := bank })
  else if c.moved < 511 then
    .next (((s.scrub core bank c.moved).setCore core { c with moved := c.moved + 1 }).send .bankEvacuation { core := core, unit := bank })
  else
    .next ((s.scrub core bank c.moved).setCore core
      { c with
        evac := c.evac.drop 1
        moved := 0
        bankMap := tabPut c.bankMap bank (c.spares.headD bank)
        spares := c.spares.drop 1
        spare := c.spare - 1
        retired := c.retired + 1 })

/-- BANK_GROUP_WITHDRAWAL (R188, R189, R191): grants stop above the new limit, the youngest blocks fault until the rest fit, the
remaining pieces move down, and the capacity falls; one that would leave less than 128 KiB disables the core. -/
def execBankGroupWithdrawal (s : State) : Host.Outcome State Fault Refusal :=
  let core := s.cue.core
  let bank := s.cue.unit
  let c := s.core core
  if c.kib = 0 then .next s
  else if c.kib < 192 then
    let s := (s.residents core).foldl State.overCapacity s
    .next ((s.modCore core fun c => { c with kib := 0, wdr := false }).postCapacity core)
  else
    let s := s.setCore core { c with wdr := true }
    let c := s.core core
    let stay := s.residents core
    let rows := (stay.map fun b => c.nodeRows b.node).foldl (· + ·) 0
    let again := fun (s : State) => Host.Outcome.next (s.sendOnce .bankGroupWithdrawal { core := core, unit := bank })
    if rows > c.limit then
      match s.youngest stay with
      | some y => again (s.overCapacity y)
      | none => again s
    else if c.limit < c.used ∨ c.pieces.any fun p => decide (c.capacity * 8 < p.base + p.rows) then
      -- blocks that have faulted still leave, or pieces still have to move down
      again (s.sendOnce .burnisherMove { core := core })
    else
      let group := (List.range 8).map (· + bank / 8 * 8)
      let freed := (group.filter (· ≠ bank)).map fun b => (tabLook c.bankMap b).getD b
      let c :=
        { c with
          kib := c.kib - 64, wdr := false, retired := c.retired + 1, spare := c.spare + 7, spares := c.spares ++ freed
          bankMap := c.bankMap.filter fun p => !group.contains p.1 }
      .next ((s.setCore core c).postCapacity core)

/-! ## Scratchpad access (R166, R200) -/

/-- The offset in access units of an M-form word (R19). -/
def Cx.mOffset (cx : Cx) (o : BitVec 3) : Int :=
  if cx.ext.isEmpty then o.toNat else ofPat true (25 * cx.ext.length + 3) (chainVal cx.ext * 8 + o.toNat)

/-- A word of a block's scratchpad. -/
def Block.word (b : Block) (off : Nat) : Word := BitVec.ofNat 32 (leNat (memBytes b.scratch off 4))

/-- The scratchpad offset of a fibre, or the fault it raises (R200). An offset below 0 raises the same fault as one beyond the
scratchpad, with its 64-bit two's complement as TRAPADDR (log 98: DESIGN CHOICE). -/
def Cx.scratchOff (cx : Cx) (a : Code) (o : BitVec 3) (sub j : Nat) : Nat ⊕ Trap :=
  let v := cx.val (pairSrc a) j
  let off : Int := (v.extractLsb' 0 32).toNat + 4 * cx.mOffset o
  let addr := (BitVec.ofInt 64 off).toNat
  if v.extractLsb' 32 32 ≠ 0 ∨ off < 0 ∨ (cx.b.scratchSize : Int) ≤ off then
    .inr { cause := .scratch, sub := sub, lane := j, addr := addr }
  else if off % 4 ≠ 0 then .inr { cause := .alignment, sub := sub, lane := j, addr := addr }
  else .inl off.toNat

/-- The first fault among the fibres' scratchpad offsets. -/
def Cx.scratchFault (cx : Cx) (a : Code) (o : BitVec 3) (sub : Nat) (lanes : Lanes) : Option Trap :=
  (lanesOf lanes).findSome? fun j => match cx.scratchOff a o sub j with
    | .inr t => some t
    | .inl _ => none

/-- The fibre's offset where it raises no fault. -/
def Cx.scratchAt (cx : Cx) (a : Code) (o : BitVec 3) (j : Nat) : Nat :=
  match cx.scratchOff a o 0 j with
  | .inl n => n
  | .inr _ => 0

/-- R200: loads a word of the scratchpad per fibre. -/
def execLds (g : BitVec 4) (d a : Code) (rd ps : BitVec 2) (o : BitVec 3) (s : State) : Host.Outcome State Fault Refusal :=
  issued { bInfo 0x55 0 g [a] false with ext := true, memory := true, immBits := o.toNat } s fun cx s =>
    let srcs := [pairSrc a]
    let lanes := cx.members srcs d
    cx.checked (readsOf srcs lanes ++ [dstUse d lanes]) s fun s =>
      match cx.scratchFault a o 0 lanes with
      | some t => .trap t
      | none =>
        let s := cx.warn (cx.noteSrcs srcs s) (dstWarn d false (!(scalarCode a && scalarDst d)))
        if (lanesOf lanes).any fun j => cx.b.scrLost (cx.scratchAt a o j) 4 then .stall (s.storeLost cx.k) .told
        else
          let s := (lanesOf lanes).foldl (fun s j => s.mendScratch cx.b.node (cx.scratchAt a o j) 4) s
          .done (cx.writeDst s d false lanes fun j => (cx.b.word (cx.scratchAt a o j)).setWidth 64) none

/-- R200: stores a word to the scratchpad per fibre. -/
def execSts (g : BitVec 4) (d a : Code) (rd ps : BitVec 2) (o : BitVec 3) (s : State) : Host.Outcome State Fault Refusal :=
  issued { bInfo 0x56 0 g [a, d] false with ext := true, memory := true, immBits := o.toNat } s fun cx s =>
    let srcs := [pairSrc a, wordSrc d]
    let lanes := cx.members srcs 127
    cx.checked (readsOf srcs lanes) s fun s =>
      match cx.scratchFault a o 1 lanes with
      | some t => .trap t
      | none =>
        .done (((cx.noteSrcs srcs s).modBlock cx.b.node fun b =>
          (lanesOf lanes).foldl (fun b j => b.putScratch (cx.scratchAt a o j) (leBytes 4 (cx.val32 (wordSrc d) j).toNat)) b).recount
          cx.b.node) none

/-! ## The tag table (R194 to R197) -/

/-- The set of a tag (R194). -/
def tagSet (t : DWord) : Nat :=
  ((List.range 8).foldl (fun (a : BitVec 8) i => a ^^^ t.extractLsb' (8 * i) 8) 0).toNat

/-- The entries of a set, by way. -/
def setWays (n : Nat) : List Nat := (List.range 8).map (· + 8 * n)

/-- The entry in which a node holds a tag. -/
def Core.tagOf (c : Core) (node : Nat) (t : DWord) : Option Nat :=
  (setWays (tagSet t)).find? fun e => match tabLook c.tags e with
    | some x => decide (x.node = node) && decide (x.tag = t)
    | none => false

/-- An entry made the most recent of its set. -/
def Core.touch (c : Core) (e : Nat) : Core :=
  let top := (setWays (e / 8)).foldl (fun m x => max m (((tabLook c.tags x).map TagEntry.use).getD 0)) 0
  { c with tags := tabUpd c.tags e fun x => { x with use := top + 1 } }

/-- The victim a set suggests (R195): its first invalid way, else the least recent resident entry of the node. -/
def Core.victim (c : Core) (node set : Nat) : Option (Nat × Option TagEntry) :=
  match (setWays set).find? fun e => (tabLook c.tags e).isNone with
  | some e => some (e, none)
  | none =>
    let mine := (setWays set).filterMap fun e => match tabLook c.tags e with
      | some x => if x.node = node ∧ !x.pending then some (e, x) else none
      | none => none
    (leastBy (fun (p : Nat × TagEntry) => [p.2.use]) mine).map fun p => (p.1, some p.2)

/-- A status word: CODE, VHELD, ENTRY, SLOT (R195). -/
def tagStatus (code : Nat) (held : Bool) (entry slot : Nat) : DWord :=
  BitVec.ofNat 64 (code * 2 ^ 30 + (if held then 2 ^ 29 else 0) + entry % 2048 * 2 ^ 16 + slot % 2 ^ 16)

/-- R195: the status of a tag. -/
def Core.lookTag (c : Core) (node : Nat) (t : DWord) : DWord :=
  match c.tagOf node t with
  | some e => match tabLook c.tags e with
    | some x => tagStatus (if x.pending then 1 else 0) false e x.slot
    | none => 0
  | none => match c.victim node (tagSet t) with
    | some (e, some x) => tagStatus 2 true e x.slot
    | some (e, none) => tagStatus 2 false e 0
    | none => tagStatus 3 false 0 0

/-- R195: a lookup, with its effect on recency. -/
def tagLook (node : Nat) (t : DWord) (c : Core) : Core × DWord :=
  (match c.tagOf node t with
    | some e => c.touch e
    | none => c, c.lookTag node t)

/-- R196: an installation or update. An entry that cannot be taken is told before a tag held elsewhere (log 16: DEDUCED); the bits
of a status that the rule does not give are 0 (log 97: DESIGN CHOICE). -/
def tagPut (node : Nat) (t : DWord) (b : Word) (c : Core) : Core × DWord :=
  let e := (b.extractLsb' 16 11).toNat
  let new : TagEntry := { tag := t, slot := (b.extractLsb' 0 16).toNat, pending := b.getLsbD 31, node := node }
  let put := ({ c with tags := tabPut c.tags e new } : Core).touch e
  let refused := (c, tagStatus 2 false 0 0)
  if e / 8 ≠ tagSet t then refused
  else match tabLook c.tags e with
    | some x =>
      if x.node ≠ node then refused
      else if x.tag = t then (put, 0)
      else if x.pending then refused
      else (match c.tagOf node t with
        | some o => (c, tagStatus 3 false o 0)
        | none => (put, tagStatus 1 false 0 x.slot))
    | none => match c.tagOf node t with
      | some o => (c, tagStatus 3 false o 0)
      | none => (put, 0)

/-- R197: a removal. -/
def tagDrop (node : Nat) (t : DWord) (c : Core) : Core × DWord :=
  (match c.tagOf node t with
    | some e => { c with tags := tabDel c.tags e }
    | none => c, c.lookTag node t)

/-- A tag instruction: each fibre in ascending order, seeing the effects of lower lanes (R194). -/
def tagWord (op : Nat) (g : BitVec 4) (d : Code) (srcs : List Src) (rsv : Bool) (f : Cx → Nat → Core → Core × DWord) (s : State) : State :=
  issue (bInfo op 0 g (srcs.map Src.code) rsv) s fun cx s =>
    let lanes := cx.members srcs d
    cx.checked (readsOf srcs lanes ++ [dstUse d lanes]) s fun s =>
      let r := (lanesOf lanes).foldl (fun (x : Core × List (Nat × DWord)) j =>
        let y := f cx j x.1
        (y.1, x.2 ++ [(j, y.2)])) (s.core cx.w.core, [])
      let s := cx.warn (cx.noteSrcs srcs s) (dstWarn d false (!(srcs.all Src.scalar && scalarDst d)))
      .done (cx.writeDst (s.setCore cx.w.core r.1) d false lanes fun j => (tabLook r.2 j).getD 0) none

/-- R195. -/
def execTlook (g : BitVec 4) (d a b : Code) (s : State) : Host.Outcome State Fault Refusal :=
  .next (tagWord 0x52 g d [pairSrc a] (decide (b ≠ 0)) (fun cx j => tagLook cx.b.node (cx.val (pairSrc a) j)) s)

/-- R196. -/
def execTset (g : BitVec 4) (d a b : Code) (s : State) : Host.Outcome State Fault Refusal :=
  .next (tagWord 0x53 g d [pairSrc a, wordSrc b] false
    (fun cx j => tagPut cx.b.node (cx.val (pairSrc a) j) (cx.val32 (wordSrc b) j)) s)

/-- R197. -/
def execTinv (g : BitVec 4) (d a b : Code) (s : State) : Host.Outcome State Fault Refusal :=
  .next (tagWord 0x54 g d [pairSrc a] (decide (b ≠ 0)) (fun cx j => tagDrop cx.b.node (cx.val (pairSrc a) j)) s)

/-! ## Content names and window bases (R201, R202) -/

/-- R201: half of the content name of the row mapped for a register of the lowest fibre of Q. A latch code in `a` is not read as a
latch, and the word acts when any active fibre's guard is true, whatever its operands (log 99: DESIGN CHOICE). -/
def nameWord (f7 : Nat) (g : BitVec 4) (d a : Code) (s : State) : State :=
  issue (bInfo 0x57 f7 g (if isLatch a then [] else [a]) (decide (96 ≤ a.toNat))) s fun cx s =>
    match lowestLane cx.q with
    | none => .done s none
    | some j =>
      let look : List Use := if a.toNat < 96 then [dstUse a (laneBit j)] else []
      cx.checked (look ++ [dstUse d cx.q]) s fun s =>
        let n := if a.toNat < 96 then rowName (cx.w.row (cx.w.base j + a.toNat)).data else 0
        .done (cx.writeOnce s d false ((n.extractLsb' (32 * f7) 32).setWidth 64)) none

/-- R201: bits [31:0]. -/
def execVnmLo (g : BitVec 4) (d a : Code) (s : State) : Host.Outcome State Fault Refusal := .next (nameWord 0 g d a s)

/-- R201: bits [63:32]. -/
def execVnmHi (g : BitVec 4) (d a : Code) (s : State) : Host.Outcome State Fault Refusal := .next (nameWord 1 g d a s)

/-- R202: sets each fibre's window base, from a scalar source too (log 17: DEDUCED). -/
def execWbase (g : BitVec 4) (d a i : Code) (s : State) : Host.Outcome State Fault Refusal :=
  issued { bInfo 0x58 0 g [a] (decide (d ≠ 0)) with ext := true, imm7 := i, immBits := i.toNat } s fun cx s =>
    let src := wordSrc a
    let new := fun j => (cx.val32 src j).toNat + cx.xUnsigned
    cx.checked (readsOf [src] cx.q) s fun s =>
      match (lanesOf cx.q).find? fun j => decide (cx.w.rows.length ≤ new j) with
      | some j => .trap { cause := .regRange, lane := j, addr := new j }
      | none =>
        .done ((cx.noteSrcs [src] s).modWarp cx.k fun w =>
          { w with bases := vecOf 32 fun j => if inSet cx.q j then new j else w.base j }) none

end Sys2Proof.Machine
end

