-- ==== Sys2Proof/Machine/Replies.lean ====
section
/-! DEFINITION. Replies and acknowledgements at the core: data placed, copies installed, release points raised
(06 R168; 08 R242, R243, R248, R260; 09 R269, R272, R276, R277; 10 R292, R305). -/

namespace Sys2Proof.Machine

/-! ## Placing data (R168, R248) -/

/-- A value of at most four bytes as a word. -/
def extended (sx : Bool) (l : List Byte) : Word :=
  let n := leNat l
  if sx then BitVec.ofNat 32 (toPat 32 (ofPat true (8 * l.length) n)) else BitVec.ofNat 32 n

/-- The words that bytes make: one extended word, or several. -/
def wordsOf (sx : Bool) (l : List Byte) : List Word :=
  if l.length ≤ 4 then [extended sx l] else (List.range (l.length / 4)).map fun i => extended false ((l.drop (4 * i)).take 4)

/-- The members of a list with their positions. -/
def indexed {α : Type} (l : List α) : List (Nat × α) := (List.range l.length).zip l

/-- A word with a half replaced. -/
def setHalf (x : Word) (h : Nat) (v : Nat) : Word :=
  if h = 0 then (x &&& 0xFFFF0000) ||| BitVec.ofNat 32 (v % 2 ^ 16) else (x &&& 0xFFFF) ||| BitVec.ofNat 32 (v % 2 ^ 16 * 2 ^ 16)

/-- Bytes put into registers of warp `k`. -/
def State.putRegs (s : State) (k : Nat) (p : Place) (l : List Byte) : State :=
  match p with
  | .reg row lane sx => (indexed (wordsOf sx l)).foldl (fun s x => s.writeRow k (row + x.1) (laneBit lane) fun _ => x.2) s
  | .sreg c sx => (indexed (wordsOf sx l)).foldl (fun s x => s.writeSreg k (c + x.1) x.2) s
  | .half row lane h => match s.warp? k with
      | some w => s.writeRow k row (laneBit lane) fun _ => setHalf (laneWord (w.row row).data lane) h (leNat l)
      | none => s
  | .shalf c h => match s.warp? k with
      | some w => s.writeSreg k c (setHalf (w.sreg c) h (leNat l))
      | none => s
  | _ => s

/-- The registers that `n` bytes for a place make pending, or no longer pending (R168). -/
def State.pendPlace (s : State) (k : Nat) (p : Place) (n : Nat) (up : Bool) : State :=
  match p with
  | .reg row _ _ => (List.range (max 1 (n / 4))).foldl (fun s i => s.pendRow k (row + i) up) s
  | .sreg c _ => (List.range (max 1 (n / 4))).foldl (fun s i => s.pendSreg k (c + i) up) s
  | .half row _ _ => s.pendRow k row up
  | .shalf c _ => s.pendSreg k c up
  | .row w row _ => s.pendRow w row up
  | _ => s

/-- A fresh write of an engine operation: what of its data goes to memory (R278). -/
def State.engineWrite (s : State) (a : Access) (key va : Nat) (pg : Page) (sync : Bool) (cnt : Option (Nat × Nat)) (l : List Byte) : State :=
  let s := s.modOp a.warp a.op fun o => { o with left := o.left + 1 }
  let b := (s.block? a.node).getD {}
  let c : Cue :=
    { acc := { a with id := s.fresh, line := key / 128, va := va, rc := pg.rc, enc := pg.enc, alloc := pg.alloc, sync := sync, lease := 0, repl := false }
      op := .store [(key % 128, l)], gid := b.gid
      peer := match cnt with
        | some x => x.1 + 1
        | none => 0
      unit := match cnt with
        | some x => x.2
        | none => 0 }
  s.counted.sendTo (chipOfCore a.core) (s.homeOf (key / 128)) .write c

/-- The key of a byte of a block's side memory, beyond every other key. -/
def slotKey (off : Nat) : Nat := 2 ^ 74 + off

/-- A piece of a task gate's fill lands (R198): with a tile's last piece its tag is resident, and with the last tile's the block
may start. -/
def State.landGate (s : State) (node tile off : Nat) (l : List Byte) : State :=
  let s := s.modBlock node fun b =>
    -- no warp of the block has started, so none awaits a counter
    { b.putScratch off l with
      gate := b.gate.map fun t => if t.idx = tile then { t with left := t.left - 1, done := decide (t.left = 1) } else t }
  match s.block? node with
  | none => s
  | some b =>
    match b.gate.find? fun t => decide (t.idx = tile) && t.done with
    | none => s
    | some t =>
      let s := match t.entry with
        | some e => s.modCore b.core fun c => { c with tags := tabUpd c.tags e fun x => if x.node = node then { x with pending := false } else x }
        | none => s
      s.sendOnce .taskGateStart { node := node }

/-- R81: the reply goes to a register of a fibre that has ended since it was asked for, and is discarded. -/
def State.discarded (s : State) (a : Access) (p : Place) : Bool :=
  let ended := fun (lane : Nat) => ((s.warp? a.warp).map fun w => decide (a.id < vecAt w.forgot lane 0)).getD false
  match p with
  | .reg _ lane _ => ended lane
  | .half _ lane _ => ended lane
  | _ => false

/-- One part of a reply goes to its place. -/
def State.landPart (s : State) (a : Access) (data : List Byte) (p : Part) : State :=
  let l := (data.drop p.off).take p.len
  match p.place with
  | .drop => s
  | .row w row lane =>
    let m : Lanes := (List.range (p.len / 4)).foldl (fun m i => m ||| laneBit (lane + i)) 0
    let live := ((s.warp? w).map fun x => decide (x.live ≠ 0)).getD false
    let s := if live then s.writeRow w row m fun j => extended false ((l.drop (4 * (j - lane))).take 4) else s
    (s.pendPlace w p.place p.len false).releaseRegs w
  | .slot k off => s.modBlock a.node fun b => { b with slots := memPut b.slots (k * 2048 + off) l }
  | .scr off => (s.modBlock a.node fun b => if b.st = .ended then b else b.putScratch off l).recount a.node
  | .blk bid off cnt =>
    let b := (s.block? a.node).getD {}
    (s.modOp a.warp a.op fun o => { o with left := o.left + 1 }).sendBlock b.chip b.gid bid
      { acc := a, parts := [{ off := 0, len := p.len, place := .blk bid off cnt }], data := l }
  | .mem key va pg sync cnt => s.engineWrite a key va pg sync cnt l
  | .gate tile off => s.landGate a.node tile off l
  | .buf off => s.modOp a.warp a.op fun o => { o with buf := memPut o.buf off l }
  | _ => (if s.discarded a p.place then s else s.putRegs a.warp p.place l).pendPlace a.warp p.place p.len false

/-- A part that cannot land yet: a held row, or bytes that an older operation still has to write (R208, R299, R301). -/
def State.partWaits (s : State) (a : Access) (p : Part) : Bool :=
  match p.place with
  | .row w row _ => ((s.warp? w).map fun x => decide ((x.row row).hold ≠ 0)).getD false
  | .scr off => s.writtenBefore a (blkKey ((s.block? a.node).getD {}).bid off) p.len
  | .slot k off => s.writtenBefore a (slotKey (k * 2048 + off)) p.len
  | _ => false

/-! ## Copies (R242, R243, R269, R276) -/

/-- Whether a core has a write to a line under way. -/
def State.storing (s : State) (core line : Nat) : Bool :=
  s.warps.any fun p => decide (p.2.core = core) && p.2.flights.any fun f => f.write && decide (f.line = line)

/-- The load entries of a core that recorded a line die (R181), but for one that awaits request `id`. -/
def Core.forgetLine (c : Core) (line : Nat) (id : Option Nat) : Core :=
  { c with
    vtab := c.vtab.filter fun e => !e.lines.contains line
    vpend := c.vpend.filter fun e => !e.2.lines.contains line || (match id with
      | some n => e.1.contains n
      | none => false) }

/-- A core may return no value of a line older than its write count `ver` any more: an older copy is not used (R276). -/
def Core.atLeast (c : Core) (line ver : Nat) (id : Option Nat) : Core :=
  match tabLook c.copies line with
  | some x => if x.ver < ver then { (c.forgetLine line id) with copies := tabPut c.copies line { x with live := false, ver := ver } } else c
  | none => { c with copies := tabPut c.copies line { live := false, ver := ver } }

/-- A store that updated a core's copy in place has been acknowledged. -/
def Core.storeDone (c : Core) (line id : Nat) : Core :=
  { c with copies := tabUpd c.copies line fun x => { x with stores := x.stores.filter fun y => decide (y.1 ≠ id) } }

/-- A core loses its copy of a line: atomics, `.sync` stores, `cinv` (R242, R261, R274). -/
def Core.lose (c : Core) (line : Nat) : Core :=
  { (c.forgetLine line none) with copies := tabUpd c.copies line fun x => { x with live := false } }

/-- The copy a reply brings to a core: installed unless the core has returned a later value, or has a write to the line under
way (R260, R276). -/
def State.install (s : State) (core : Nat) (a : Access) (data : Line) (ver exp : Nat) (racy : Bool) : State :=
  let now := s.podTime (chipOfCore core)
  let floor := ((tabLook (s.core core).copies a.line).map Copy.ver).getD 0
  if now < exp ∧ floor ≤ ver ∧ !s.storing core a.line then
    (s.modCore core fun c =>
      { (c.forgetLine a.line (some a.id)) with
        copies := tabPut c.copies a.line { data := data, exp := exp, ver := ver, racy := racy, rv := a.rv } }).sendOnce
      .leaseExpiry { unit := 2 * core, line := a.line }
  else s.modCore core fun c => c.atLeast a.line ver (some a.id)

/-- The replica a reply brings to the requester's die (R243). -/
def State.replicate (s : State) (a : Access) (data : Line) (ver exp : Nat) (racy : Bool) : State :=
  let die := dieOfCore a.core
  let floor := ((tabLook (s.die die).replicas a.line).map Copy.ver).getD 0
  if !a.repl ∨ ver < floor ∨ exp ≤ s.podTime (chipOfCore a.core) then s
  else
    (s.modDie die fun d =>
      { d with replicas := tabPut d.replicas a.line { data := data, exp := exp, ver := ver, racy := racy } }).sendOnce .leaseExpiry
      { unit := 2 * die + 1, line := a.line }

/-- Load entries whose last reply has landed join the value table (R180). -/
def State.landEntries (s : State) (core id : Nat) : State :=
  let c := s.core core
  if !(c.vpend.any fun e => e.1.contains id) then s
  else
    let l := c.vpend.map fun e => (e.1.filter (· ≠ id), e.2)
    let ver := fun (p : Nat × Nat × Nat) => ((s.warp? p.1).map fun w => (w.row p.2.1).ver).getD 0
    let done := (l.filter fun e => e.1.isEmpty).map fun e =>
      { e.2 with srcs := e.2.srcs.map fun p => (p.1, p.2.1, ver p) }
    s.setCore core (done.foldl Core.insert { c with vpend := l.filter fun e => !e.1.isEmpty })

/-! ## Answers to a warp's own requests -/

/-- A request of a warp that has its value, or its acknowledgement; one that has both is answered. -/
def Warp.answered (w : Warp) (id : Nat) (write : Bool) : Warp :=
  { w with flights := (w.flights.map fun f => if f.id = id then
      (if write then { f with write := false } else { f with load := false }) else f).filter fun f => f.write || f.load }

/-- R278: an engine operation read or wrote a line whose count of writes is `ver`. -/
def State.engineSaw (s : State) (a : Access) (ver : Nat) : State := s.modOp a.warp a.op fun o => { o with seen := o.seen ++ [(a.line, ver)] }

/-- A breach of the determinism class that a warp's access committed (R11, R12). -/
def State.breach (s : State) (a : Access) (b : Bool) : State :=
  match s.block? a.node with
  | some x => if b && s.isDet x then s.modWarp a.warp fun w => w.addWarn wNDET else s
  | none => s

/-- R294: the CRC-32 of bytes that an engine moves has failed: they are read again once; a second failure is an uncorrectable compute
error of the block. -/
def State.crcFailed (s : State) (c : Cue) : State :=
  if 2 ≤ c.crc then s.sendOnce .blockRollback { node := c.acc.node, num := 0x0400 }
  else
    let s := s.computeCorrected c.acc.core
    if scratchLine c.acc.line then s.send .readReply { c with crc := 0 }
    else s.sendTo (chipOfCore c.acc.core) (s.homeOf c.acc.line) .readRequest { acc := c.acc, parts := c.parts }

/-- READ_REPLY (R168, R242, R243, R276, R277): the parts of a served read go to their places, and a leased line is kept. -/
def execReadReply (s : State) : Host.Outcome State Fault Refusal :=
  let c := s.cue
  let a := c.acc
  let there := chipOfCore a.core
  let r := if scratchLine a.line then (s, true) else s.arriveAnswer (s.homeOf a.line) there .readReply c
  let s := r.1
  let c := { c with tag := 0 }
  if !r.2 ∨ s.gone a.node then .next s
  else
    if c.parts.any (s.partWaits a) then .next (s.send .readReply c)
    else if a.op ≠ 0 ∧ c.crc ≠ 0 then .next (s.crcFailed c)
    else
      let prf := s.prefetch a
      let s := c.parts.foldl (fun s p => s.landPart a c.data p) s
      let s := if prf then s else s.breach a !c.ok
      if a.op ≠ 0 then .next ((if scratchLine a.line then s else s.engineSaw a c.num).pieceDone a 0)
      else
        let core := ((s.warp? a.warp).map Warp.core).getD a.core
        let data := putLineBytes 0 0 c.data
        let s := (s.install core a data c.num c.ct !c.ok).replicate a data c.num c.ct !c.ok
        let s := (s.modWarp a.warp fun w => w.answered a.id false).landEntries core a.id
        .next ((s.releaseRegs a.warp).tidyNode a.node)

/-- ACKNOWLEDGE (R271, R272): a write is acknowledged; its completion time raises the warp's release points. -/
def execAcknowledge (s : State) : Host.Outcome State Fault Refusal :=
  let c := s.cue
  let a := c.acc
  let r := s.arriveAnswer (s.homeOf a.line) (chipOfCore a.core) .acknowledge c
  let s := r.1
  if !r.2 ∨ s.gone a.node then .next s
  else
      -- DOUT of the block's stamp record (R433)
      let s := s.modBlock a.node fun b => { b with stamp := { b.stamp with out := some (s.podTime b.chip) } }
      if a.op ≠ 0 then .next (((s.breach a !c.ok).engineSaw a c.num).pieceDone a c.ct)
      else
      let s := s.modWarp a.warp fun w =>
        let w := w.answered a.id true
        if c.ct = 0 then w else { w with relChip := max w.relChip c.ct, relPod := max w.relPod (c.ct + 25) }
      let core := ((s.warp? a.warp).map Warp.core).getD a.core
      -- a copy that the store updated in place stands for this write when no other write came between (R242, R276)
      let s := if (tabLook (s.core a.core).copies a.line).isSome then s.modCore a.core fun x => x.storeDone a.line a.id else s
      let s := if c.num = 0 then s
        else s.modCore core fun x => match tabLook x.copies a.line with
          | some y => if y.live ∧ y.ver + 1 = c.num then { x with copies := tabPut x.copies a.line { y with ver := c.num } }
              else x.atLeast a.line c.num none
          | none => x.atLeast a.line c.num none
      .next ((s.breach a !c.ok).tidyNode a.node)

/-- RELEASE_POINT_REACHED (R272): the gangs of a warp whose release wait is over go on; others are looked at again. -/
def execReleasePointReached (s : State) : Host.Outcome State Fault Refusal :=
  let k := s.cue.warp
  match s.warp? k with
  | none => .next s
  | some w =>
    match s.block? w.node with
    | none => .next s
    | some b =>
      let now := s.podTime b.chip
      let met := fun (g : Gang) => match g.wait with
        | .stall (.release before scope _) => w.releaseMet before scope now
        | _ => false
      let waits := fun (g : Gang) => match g.wait with
        | .stall (.release _ _ _) => true
        | _ => false
      let w' := { w with gangs := w.gangs.map fun g => if met g then { g with wait := .run } else g }
      let s := s.setWarp k w'
      .next (if w'.gangs.any waits then s.send .releasePointReached { warp := k } else s)

end Sys2Proof.Machine
end

