-- ==== Sys2Proof/Machine/Loads.lean ====
section
/-! DEFINITION. Loads, stores, prefetch and cache maintenance, majors 0x59 to 0x64, 0x6A and 0x6B (06 R165, R166; 08 R239, R242
to R249, R260, R261). -/

namespace Sys2Proof.Machine

/-! ## The policy operand (R244 to R246) -/

def polKeep (p : Word) : Nat := (p.extractLsb' 20 12).toNat
def polNorm (p : Word) : Nat := (p.extractLsb' 8 12).toNat
def polLease (p : Word) : Nat := 32 * 4 ^ (p.extractLsb' 6 2).toNat
def polRepl (p : Word) : Nat := (p.extractLsb' 4 2).toNat
def polSync (p : Word) : Bool := p.getLsbD 3
def polNoalloc (p : Word) : Bool := p.getLsbD 2
def polReuse (p : Word) : Bool := p.getLsbD 1

/-- The hint asks for a replica; REPL = 11 is read as 00 (R244). -/
def polReplicate (p : Word) : Bool := decide (polRepl p = 1) || decide (polRepl p = 2)

/-- The warning of a policy operand (R244). -/
def polWarn (p : Word) : Word := warnIf (decide (polRepl p = 3) || p.getLsbD 0) wRSV

/-- R245: the hash of a virtual line address. -/
def lineHash (va : Nat) : Nat :=
  (va / 2 ^ 7 % 4096) ^^^ (va / 2 ^ 19 % 4096) ^^^ (va / 2 ^ 31 % 4096) ^^^ (va / 2 ^ 43 % 4096) ^^^ (va / 2 ^ 55 % 32)

/-- R244 to R246: the band base of an access's class: stream where the policy asks for no allocation. -/
def bandBase (p : Word) (va : Nat) : Nat :=
  let h := lineHash va
  if polNoalloc p then 8
  else if h < polKeep p then 0 else if h < polNorm p then 4 else 8

/-- The policy operand that `ps` selects (R19). -/
def Cx.policy (cx : Cx) (ps : BitVec 2) : Word := if ps = 0 then cx.w.pold else cx.w.sreg ps.toNat

/-- The use of the scalar register that `ps` selects. -/
def policyUse (ps : BitVec 2) (lanes : Lanes) : List Use :=
  if ps = 0 then [] else [{ code := BitVec.ofNat 7 (96 + ps.toNat), lanes := lanes }]

/-! ## Where a lane's access goes (R165, R234, R249) -/

/-- A checked place of access. -/
inductive Spot
  /-- A global address, its memory key and its page's leaf. -/
  | glob (ea key : Nat) (leaf : DWord)
  /-- A byte of the block's scratchpad. -/
  | scr (off : Nat)
  /-- A byte of a register row of a warp. -/
  | reg (k row byte : Nat)
deriving DecidableEq, Repr

/-- A store-window address of an access of `u` bytes (R165). -/
def Cx.window (cx : Cx) (s : State) (u ea : Nat) : Option Spot :=
  let space := ea / 2 ^ 30 % 4
  let warp := ea / 2 ^ 25 % 32
  let off := ea % 2 ^ 25
  if ea / 2 ^ 32 % 2 ^ 28 ≠ 0 ∨ off % u ≠ 0 then none
  else if space = 0 then (if warp = 0 ∧ off < cx.b.scratchSize then some (.scr off) else none)
  else
    let k := if space = 1 then cx.k else cx.w.node * 32 + warp
    if space = 3 ∨ (space = 1 ∧ warp ≠ 0) then none
    else match s.warp? k with
      | some w => if w.live ≠ 0 ∧ off < w.rows.length * 128 then some (.reg k (off / 128) (off % 128)) else none
      | none => none

/-- What the check of one lane's address gives. -/
inductive Checked
  | at_ (x : Spot)
  | bad (c : Cause)
  | walk (home off : Nat)
deriving DecidableEq, Repr

/-- The check of one lane's address (R249): form, alignment, translation, permission. -/
def Cx.check (cx : Cx) (s : State) (n : Need) (u ea : Nat) : Checked :=
  if addrForm ea = 15 then (match cx.window s u ea with
    | some x => .at_ x
    | none => .bad .window)
  else if addrForm ea ≠ 0 then .bad .addrForm
  else if ea % u ≠ 0 then .bad .alignment
  else match s.access cx.b.chip cx.b.ctx n ea with
    | .ok key leaf => .at_ (.glob ea key leaf)
    | .fault c => .bad c
    | .miss h o => .walk h o

/-- Runs an effect on the checked places of lanes' addresses; the lowest lane that fails traps, and a missing translation is
awaited (R239, R249). -/
def Cx.spots (cx : Cx) (n : Need) (sub u : Nat) (l : List (Nat × Nat)) (s : State) (k : List (Nat × Spot) → Res) : Res :=
  let r := l.map fun p => (p.1, p.2, cx.check s n u p.2)
  let stop : Option (Trap ⊕ (Nat × Nat)) := r.findSome? fun p => match p.2.2 with
    | .at_ _ => none
    | .bad c => some (.inl { cause := c, sub := sub, lane := p.1, addr := p.2.1 })
    | .walk h o => some (.inr (h, o))
  match stop with
  | some (.inl t) => .trap t
  | some (.inr (h, o)) =>
    let w := s.beginWalk cx.b.chip cx.b.ctx h o
    .stall w.1 (.walk w.2)
  | none => k (r.filterMap fun p => match p.2.2 with
    | .at_ x => some (p.1, x)
    | _ => none)

/-- The effective addresses of lanes (R19, R249). -/
def Cx.eas (cx : Cx) (a : Code) (o : BitVec 3) (u : Nat) (lanes : Lanes) : List (Nat × Nat) :=
  (lanesOf lanes).map fun j =>
    (j, ((cx.val (pairSrc a) j).toNat + (BitVec.ofInt 64 (u * cx.mOffset o)).toNat) % 2 ^ 64)

/-- The addresses of lanes in a form that holds no offset: the pair alone (R18, R20). -/
def Cx.pairEas (cx : Cx) (a : Code) (lanes : Lanes) : List (Nat × Nat) := (lanesOf lanes).map fun j => (j, (cx.val (pairSrc a) j).toNat)

/-- The global lanes of a list, as (lane, address, key, leaf). -/
def globals (l : List (Nat × Spot)) : List (Nat × Nat × Nat × DWord) := l.filterMap fun p => match p.2 with
  | .glob ea key leaf => some (p.1, ea, key, leaf)
  | _ => none

/-- The lines of global lanes, each with its lanes, in the order in which they are first named. -/
def byLine (l : List (Nat × Nat × Nat × DWord)) : List (Nat × List (Nat × Nat × Nat × DWord)) :=
  (l.map fun p => p.2.2.1 / 128).eraseDups.map fun x => (x, l.filter fun p => decide (p.2.2.1 / 128 = x))

/-! ## Waiting for earlier accesses (R249, R259, R275) -/

/-- The requests of a warp that touch some bytes of a line and are not answered. -/
def Warp.overlapping (w : Warp) (line : Nat) (m : BitVec 128) : List Nat :=
  (w.flights.filter fun f => decide (f.line = line) && decide (f.bytes &&& m ≠ 0)).map Flight.id

/-- A gang of the warp holds its stores in a full fence. -/
def Warp.fenced (w : Warp) : Bool := w.gangs.any fun g => match g.wait with
  | .stall (.release _ _ f) => f
  | _ => false

/-- Runs an access of global lanes of width `u` once nothing earlier stands in its way: an acquire, a fence, a barrier that fibres
of its warp have arrived at (R83, R310: it holds loads and atomics), the same bytes. -/
def Cx.ordered (cx : Cx) (load store : Bool) (u : Nat) (l : List (Nat × Nat × Nat × DWord)) (s : State) (k : State → Res) : Res :=
  let before := if store then max cx.w.acq cx.w.sacq else cx.w.acq
  let ids := l.flatMap fun p => cx.w.overlapping (p.2.2.1 / 128) (partBytes [(p.2.2.1 % 128, u)])
  if l.isEmpty then k s
  else if load && cx.w.atBarrier then .stall s .barrier
  else if !cx.w.loadsBack before then .stall s (.loads before)
  else if store && cx.w.fenced then .stall s .fullFence
  else if !ids.isEmpty then .stall s (.access ids.eraseDups)
  else k s

/-- R281, R284: takes the block's staging budget for lines it has not staged; a write beyond it stalls, and the block may commit
early. -/
def Cx.staged (cx : Cx) (lines : List Nat) (s : State) (k : State → Res) : Res :=
  let new := lines.eraseDups.filter fun x => !cx.b.staged.contains x
  if cx.b.norev ∨ new.isEmpty then k s
  else if cx.b.staged.length + new.length ≤ cx.b.budget then
    k (s.modBlock cx.b.node fun b => { b with staged := b.staged ++ new, stallSince := none })
  else
    .stall ((s.modBlock cx.b.node fun b => { b with stallSince := some (b.stallSince.getD cx.tick) }).sendOnce .stagingEarlyCommit
      { node := cx.b.node }) (.budget new.length)

/-! ## Requests (R249, R269) -/

/-- A request of the issuing warp to the home of a line. -/
def Cx.access (cx : Cx) (s : State) (line va : Nat) (leaf : DWord) (pol : Word) (rd : Nat) : Access :=
  { id := s.fresh, node := cx.b.node, warp := cx.k, core := cx.w.core, line := line, va := va, pc := cx.first, rc := leafRec leaf
    rv := bandBase pol va + rd, wgen := cx.w.resumes, enc := leafEnc leaf, alloc := decide (leafCache leaf ≠ 2) }

/-- The warp's request joins those that are not answered. -/
def State.fly (s : State) (k : Nat) (f : Flight) : State := s.modWarp k fun w => { w with flights := w.flights ++ [f] }

/-- Whether a core may hold a copy of a line of a page, and the lease a load asks for (R242, R247, R269). -/
def leaseAsked (leaf : DWord) (pol : Word) : Nat := if leafCache leaf ≠ 0 ∨ polNoalloc pol then 0 else polLease pol

/-- Whether a load asks for a replica that its page allows (R243, R247). -/
def replAsked (leaf : DWord) (pol : Word) : Bool :=
  polReplicate pol && !leafW leaf && !leafNorep leaf && decide (leafCache leaf = 0) && !polNoalloc pol

/-- The POLX warnings of a load or prefetch of a page (R247). -/
def loadPolx (leaf : DWord) (pol : Word) (reuse : Bool) : Word :=
  warnIf (polReplicate pol && (leafW leaf || leafNorep leaf || decide (leafCache leaf ≠ 0))) wPOLX
    ||| warnIf (reuse && polReuse pol && decide (leafCache leaf ≠ 0)) wPOLX

/-- The stores of other warps that a core's copy of a line holds and that are not acknowledged. -/
def Cx.mates (cx : Cx) (s : State) (line : Nat) : Bool :=
  ((tabLook (s.core cx.w.core).copies line).map fun x => x.stores.any fun y => !cx.w.flights.any fun f => decide (f.id = y.1)).getD false

/-- R276: a load that the home is to serve waits while such a store is under way: the warp may have read it from the copy. -/
def Cx.afterMates (cx : Cx) (lines : List Nat) (s : State) (k : State → Res) : Res :=
  if lines.any (cx.mates s) then .stall s .again else k s

/-- The copy that serves a load at its core: the core's, else the die's replica of a page that is not written; one that is still
held, under a lease that runs on, and no older than what the core has returned (R242, R243, R276). One that holds a store under way
is kept until its acknowledgement. -/
def State.served (s : State) (core line now : Nat) (leaf : DWord) (pol : Word) : Option Copy :=
  if leafCache leaf ≠ 0 ∨ polNoalloc pol then none
  else
    let mine := tabLook (s.core core).copies line
    let floor := (mine.map Copy.ver).getD 0
    let ok := fun (x : Copy) => x.live && decide (now < x.exp) && decide (floor ≤ x.ver)
    match mine.filter fun x => ok x && (!x.stores.isEmpty || Config.copyKept s.fresh) with
    | some x => some x
    | none => if leafW leaf ∨ leafNorep leaf then none
        else (tabLook (s.die (dieOfCore core)).replicas line).filter fun x => ok x && Config.copyKept (s.fresh + 1)

/-! ## Loads (R248, R249) -/

/-- The place of a lane's value in destination `d`; in a scalar register the value of the lowest lane remains (R25). -/
def Cx.placeOf (cx : Cx) (d : Code) (wide : Bool) (lanes : Lanes) (sx : Bool) (j : Nat) : Place :=
  if d.toNat < 96 then .reg (cx.w.base j + regCode d wide) j sx
  else if d.toNat < 112 ∧ lowestLane lanes = some j then .sreg (regCode d wide - 96) sx
  else .drop

/-- The bytes at a store-window place. -/
def State.windowBytes (s : State) (node u : Nat) : Spot → List Byte
  | .scr off => memBytes ((s.block? node).getD {}).scratch off u
  | .reg k row byte => ((s.warp? k).map fun w => lineBytes (w.row row).data byte u).getD []
  | .glob _ _ _ => []

/-- The lanes of a row that `u` bytes from a byte on touch. -/
def rowLanes (byte u : Nat) : Lanes := (List.range (max 1 (u / 4))).foldl (fun m i => m ||| laneBit (byte / 4 + i)) 0

/-- R165, R168: what stands in the way of store-window accesses to registers. A store awaits held rows too (R208). -/
def Cx.windowProblem (_cx : Cx) (s : State) (store : Bool) (u : Nat) (l : List (Nat × Spot)) : Option Res :=
  let busy := l.any fun p => match p.2 with
    | .reg k row _ => ((s.warp? k).map fun w =>
        decide ((w.row row).pend ≠ 0) || (store && decide ((w.row row).hold ≠ 0))).getD false
    | _ => false
  if busy then some (.stall s .again)
  else if store then none
  else l.findSome? fun p => match p.2 with
    | .reg k row byte => match s.warp? k with
        | some w => if rowLanes byte u &&& ~~~(w.row row).valid = 0 then none
            else some (.trap { cause := .invalidReg, lane := p.1, addr := row })
        | none => none
    | _ => none

/-- R186: whether bytes of a scratchpad or register row that an instruction or an engine reads hold an uncorrectable error. -/
def State.spotLost (s : State) (node u : Nat) : Spot → Bool
  | .scr off => ((s.block? node).map fun b => b.scrLost off u).getD false
  | .reg k row byte => ((s.warp? k).map fun w => decide ((w.row row).bad &&& rowLanes byte u ≠ 0)).getD false
  | .glob _ _ _ => false

/-- R186: the single-bit errors in such bytes are repaired. -/
def State.mendSpot (s : State) (node u : Nat) : Spot → State
  | .scr off => s.mendScratch node off u
  | .reg k row byte => s.mendRow k row (rowLanes byte u)
  | .glob _ _ _ => s

/-- R186: runs an effect once the bytes that it reads, each place with its length, are sound. -/
def Cx.soundSpots (cx : Cx) (l : List (Spot × Nat)) (s : State) (k : State → Res) : Res :=
  if l.any fun x => s.spotLost cx.b.node x.2 x.1 then .stall (s.storeLost cx.k) .told
  else k (l.foldl (fun s x => s.mendSpot cx.b.node x.2 x.1) s)

/-- A load of one line: served by a copy at the core, or asked of the home. The ids of requests made are returned. -/
def Cx.loadLine (cx : Cx) (u rd : Nat) (pol : Word) (place : Nat → Place) (x : State × List Nat)
    (g : Nat × List (Nat × Nat × Nat × DWord)) : State × List Nat :=
  let s := x.1
  match g.2 with
  | [] => x
  | (j0, ea, key, leaf) :: r =>
    let parts := ((j0, ea, key, leaf) :: r).map fun p => ({ off := p.2.2.1 % 128, len := u, place := place p.1 } : Part)
    match s.served cx.w.core g.1 cx.tick leaf pol with
    | some c =>
      let s := ((s.dependOn cx.b.node g.1).counted.counted).charge cx.k 256
      -- a value that a store under way has put there is its block's (R282)
      let s := c.stores.foldl (fun s y => s.dependNode cx.b.node y.2) s
      let s := s.modCore cx.w.core fun x => { x with copies := tabUpd x.copies g.1 fun y => { y with rv := bandBase pol ea } }
      let s := parts.foldl (fun s p => s.putRegs cx.k p.place (lineBytes c.data p.off p.len)) s
      (cx.warn s (warnIf (c.racy && s.isDet cx.b) wNDET), x.2)
    | none =>
      let s := s.counted.counted
      let a := { cx.access s g.1 ea leaf pol rd with lease := leaseAsked leaf pol, repl := replAsked leaf pol }
      let s := parts.foldl (fun s p => s.pendPlace cx.k p.place p.len true) s.counted
      let s := s.fly cx.k { id := a.id, line := g.1, bytes := partBytes (parts.map fun p => (p.off, p.len)), load := true }
      (s.sendTo (chipOfCore cx.w.core) (s.homeOf g.1) .readRequest { acc := a, parts := parts }, x.2 ++ [a.id])

/-- R248, R249: a load of `u` bytes a fibre. -/
def loadWord (op u : Nat) (sx : Bool) (g : BitVec 4) (d a : Code) (rd ps : BitVec 2) (o : BitVec 3) (s : State) : State :=
  issue { bInfo op 0 g [a] false with ext := true, memory := true, immBits := o.toNat } s fun cx s =>
    let srcs := [pairSrc a]
    let lanes := cx.members srcs d
    let wide := decide (u = 8)
    let d' : Code := if u = 16 ∧ d.toNat < 112 then BitVec.ofNat 7 (d.toNat / 4 * 4) else d
    let pol := cx.policy ps
    let dst : Use := { code := d', n := max 1 (u / 4), wide := wide, lanes := lanes, read := false }
    cx.checked (readsOf srcs lanes ++ policyUse ps lanes ++ [dst]) s fun s =>
      cx.spots .load 0 u (cx.eas a o u lanes) s fun l =>
        let gl := globals l
        match cx.windowProblem s false u l with
        | some r => r
        | none =>
          cx.soundSpots (l.map fun p => (p.2, u)) s fun s => cx.ordered true false u gl s fun s =>
            cx.afterMates ((gl.filter fun p => (s.served cx.w.core (p.2.2.1 / 128) cx.tick p.2.2.2 pol).isNone).map fun p => p.2.2.1 / 128) s fun s =>
            let polx := gl.foldl (fun m p => m ||| loadPolx p.2.2.2 pol true) 0
            let s := cx.warn (cx.noteSrcs srcs s lanes) (dstWarn d wide (!(scalarCode a && scalarDst d)) ||| warnIf (decide (d' ≠ d)) wPAIR
              ||| polx ||| (if gl.isEmpty then 0 else polWarn pol))
            let place := cx.placeOf d' wide lanes sx
            let run := fun (s : State) =>
              let s := l.foldl (fun s p => match p.2 with
                | .glob _ _ _ => s
                | x => s.putRegs cx.k (place p.1) (s.windowBytes cx.b.node u x)) s
              (byLine gl).foldl (cx.loadLine u rd.toNat pol place) (s, [])
            let eligible := polReuse pol && decide (u ≠ 16) && decide (d.toNat < 96) && decide (lanes ≠ 0) && !cx.fresh
              && decide (a.toNat < 120) && decide (a ≠ 116) && decide (gl.length = l.length)
              && gl.all fun p => decide (leafCache p.2.2.2 = 0)
            match (if eligible then cx.sameBase lanes else none) with
            | none => .done (run s).1 none
            | some base =>
              let rows := (List.range (if wide then 2 else 1)).map fun i => base + regCode d wide + i
              let key := cx.vkey base srcs lanes rows
              let srcRows := srcs.flatMap (cx.keyRows s base)
              match cx.look s key srcRows with
              | .hit e =>
                let s := e.lines.foldl (fun s x => s.dependOn cx.b.node x) (cx.takeHit s e rows)
                let racy := e.lines.any fun x => ((tabLook (s.core cx.w.core).copies x).map Copy.racy).getD false
                .done (cx.warn s (warnIf (racy && s.isDet cx.b) wNDET)) none
              | .miss collide lost =>
                let s := s.lostRows lost
                let s := if collide then s.modWarp cx.k (fun w => { w with collide := w.collide + 1 }) else s
                let r := run s
                let lines := (gl.map fun p => p.2.2.1 / 128).eraseDups
                if 4 < lines.length then .done r.1 none
                else
                  let e : VEntry :=
                    { key := key, ctx := cx.b.ctx, srcs := srcs.flatMap (cx.keyRows r.1 base)
                      res := rows.map fun r => (cx.k, r), lines := lines, keep := cx.vt }
                  .done (r.1.modCore cx.w.core fun c =>
                    if r.2.isEmpty then c.insert e else { c with vpend := c.vpend ++ [(r.2, e)] }) none

def execLdb (g : BitVec 4) (d a : Code) (rd ps : BitVec 2) (o : BitVec 3) (s : State) : Host.Outcome State Fault Refusal :=
  .next (loadWord 0x59 1 false g d a rd ps o s)
def execLdh (g : BitVec 4) (d a : Code) (rd ps : BitVec 2) (o : BitVec 3) (s : State) : Host.Outcome State Fault Refusal :=
  .next (loadWord 0x5A 2 false g d a rd ps o s)
def execLdw (g : BitVec 4) (d a : Code) (rd ps : BitVec 2) (o : BitVec 3) (s : State) : Host.Outcome State Fault Refusal :=
  .next (loadWord 0x5B 4 false g d a rd ps o s)
def execLdd (g : BitVec 4) (d a : Code) (rd ps : BitVec 2) (o : BitVec 3) (s : State) : Host.Outcome State Fault Refusal :=
  .next (loadWord 0x5C 8 false g d a rd ps o s)
def execLdq (g : BitVec 4) (d a : Code) (rd ps : BitVec 2) (o : BitVec 3) (s : State) : Host.Outcome State Fault Refusal :=
  .next (loadWord 0x5D 16 false g d a rd ps o s)
def execLdbs (g : BitVec 4) (d a : Code) (rd ps : BitVec 2) (o : BitVec 3) (s : State) : Host.Outcome State Fault Refusal :=
  .next (loadWord 0x5E 1 true g d a rd ps o s)
def execLdhs (g : BitVec 4) (d a : Code) (rd ps : BitVec 2) (o : BitVec 3) (s : State) : Host.Outcome State Fault Refusal :=
  .next (loadWord 0x5F 2 true g d a rd ps o s)

/-! ## Stores (R248, R249) -/

/-- The code of an operand of `n` registers with an odd or misaligned code taken down (R24, R248). -/
def alignedCode (c : Code) (n : Nat) : Code := if c.toNat < 112 then BitVec.ofNat 7 (c.toNat / n * n) else c

/-- The upper pair of a quad source (R248); of a code that is no register it is not stated. -/
def Cx.quadHigh (cx : Cx) (c : Code) (j : Nat) : DWord :=
  if c.toNat < 112 then cx.val (pairSrc (alignedCode c 4 + 2)) j else Config.quadHigh (cx.place j)

/-- The bytes that a fibre stores. -/
def Cx.storeBytes (cx : Cx) (d : Code) (u j : Nat) : List Byte :=
  if u = 16 then dwBytes 8 (cx.val (pairSrc (alignedCode d 4)) j) ++ dwBytes 8 (cx.quadHigh d j)
  else dwBytes u (cx.val { code := d, wide := decide (u = 8), imm := .int (if u = 8 then 64 else 32) } j)

/-- Bytes stored at a store-window place (R165, R166, R182). -/
def State.windowStore (s : State) (node : Nat) (x : Spot) (l : List Byte) : State :=
  match x with
  | .scr off => (s.modBlock node fun b => b.putScratch off l).recount node
  | .reg k row byte =>
    match s.warp? k with
    | some w =>
      let new := putLineBytes (w.row row).data byte l
      s.writeRow k row (rowLanes byte l.length) fun j => laneWord new j
    | none => s
  | .glob _ _ _ => s

/-- A store to one line: the core's copy is updated in place, or lost to a `.sync` store, and the home is asked (R242, R274). -/
def Cx.storeLine (cx : Cx) (rd : Nat) (pol : Word) (data : Nat → List Byte) (s : State)
    (g : Nat × List (Nat × Nat × Nat × DWord)) : State :=
  match g.2 with
  | [] => s
  | (_, ea, _, leaf) :: _ =>
    let parts := g.2.map fun p => (p.2.2.1 % 128, data p.1)
    let sync := polSync pol || decide (leafOrd leaf = 1)
    let a := { cx.access s g.1 ea leaf pol rd with sync := sync }
    let s := s.counted.modCore cx.w.core fun c =>
      if sync then c.lose g.1
      else
        let c := c.forgetLine g.1 none
        { c with copies := tabUpd c.copies g.1 fun x =>
            { x with
              data := parts.foldl (fun l p => putLineBytes l p.1 p.2) x.data
              stores := if x.live then x.stores ++ [(a.id, cx.b.node)] else x.stores } }
    let s := s.fly cx.k { id := a.id, line := g.1, write := true
                          bytes := if sync then BitVec.allOnes 128 else partBytes (parts.map fun p => (p.1, p.2.length)) }
    s.sendTo (chipOfCore cx.w.core) (s.homeOf g.1) .write { acc := a, op := .store parts }

/-- R248, R249: a store of `u` bytes a fibre. -/
def storeWord (op u : Nat) (g : BitVec 4) (d a : Code) (rd ps : BitVec 2) (o : BitVec 3) (s : State) : State :=
  issue { bInfo op 0 g [a, d] false with ext := true, memory := true, immBits := o.toNat } s fun cx s =>
    let src : Src := { code := d, wide := decide (8 ≤ u), imm := .int (if 8 ≤ u then 64 else 32) }
    let srcs := [pairSrc a, src]
    let lanes := cx.members srcs 127
    let pol := cx.policy ps
    let data : Use := { code := alignedCode d (max 1 (u / 4)), n := max 1 (u / 4), wide := decide (u = 8), lanes := lanes }
    cx.checked (readsOf [pairSrc a] lanes ++ policyUse ps lanes ++ [data]) s fun s =>
      cx.spots .store 1 u (cx.eas a o u lanes) s fun l =>
        let gl := globals l
        match cx.windowProblem s true u l with
        | some r => r
        | none =>
          cx.ordered false true u gl s fun s =>
            cx.staged (gl.map fun p => p.2.2.1 / 128) s fun s =>
              let quad := warnIf (decide (u = 16) && decide (d.toNat < 112) && decide (d.toNat % 4 ≠ 0)) wPAIR
              let s := cx.warn (cx.noteSrcs (if u = 16 then [pairSrc a, { src with wide := false }] else srcs) s lanes)
                (quad ||| (if gl.isEmpty then 0 else polWarn pol))
              let s := l.foldl (fun s p => s.windowStore cx.b.node p.2 (cx.storeBytes d u p.1)) s
              .done ((byLine gl).foldl (cx.storeLine rd.toNat pol (cx.storeBytes d u)) s) none

def execStb (g : BitVec 4) (d a : Code) (rd ps : BitVec 2) (o : BitVec 3) (s : State) : Host.Outcome State Fault Refusal :=
  .next (storeWord 0x60 1 g d a rd ps o s)
def execSth (g : BitVec 4) (d a : Code) (rd ps : BitVec 2) (o : BitVec 3) (s : State) : Host.Outcome State Fault Refusal :=
  .next (storeWord 0x61 2 g d a rd ps o s)
def execStw (g : BitVec 4) (d a : Code) (rd ps : BitVec 2) (o : BitVec 3) (s : State) : Host.Outcome State Fault Refusal :=
  .next (storeWord 0x62 4 g d a rd ps o s)
def execStd (g : BitVec 4) (d a : Code) (rd ps : BitVec 2) (o : BitVec 3) (s : State) : Host.Outcome State Fault Refusal :=
  .next (storeWord 0x63 8 g d a rd ps o s)
def execStq (g : BitVec 4) (d a : Code) (rd ps : BitVec 2) (o : BitVec 3) (s : State) : Host.Outcome State Fault Refusal :=
  .next (storeWord 0x64 16 g d a rd ps o s)

/-! ## Prefetch (R260) -/

/-- R260: fetches the line of each fibre; it never faults, and a lane that fails a check is dropped. -/
def execPrf (g : BitVec 4) (d a : Code) (rd ps : BitVec 2) (o : BitVec 3) (s : State) : Host.Outcome State Fault Refusal :=
  issued { bInfo 0x6A 0 g [a] (decide (d ≠ 0)) with ext := true, memory := true, immBits := o.toNat } s fun cx s =>
    let srcs := [pairSrc a]
    let lanes := cx.members srcs 127
    let pol := cx.policy ps
    cx.checked (readsOf srcs lanes ++ policyUse ps lanes) s fun s =>
      let r := (cx.eas a o 128 lanes).map fun p => (p.1, p.2, cx.check s .load 128 p.2)
      match r.findSome? fun p => match p.2.2 with
          | .walk h o => some (h, o)
          | _ => none with
      | some (h, o) =>
        let w := s.beginWalk cx.b.chip cx.b.ctx h o
        .stall w.1 (.walk w.2)
      | none =>
        let gl := globals (r.filterMap fun p => match p.2.2 with
          | .at_ x => some (p.1, x)
          | _ => none)
        if !gl.isEmpty && cx.w.atBarrier then .stall s .barrier
        else if !gl.isEmpty && !cx.w.loadsBack cx.w.acq then .stall s (.loads cx.w.acq)
        else
          let polx := gl.foldl (fun m p => m ||| loadPolx p.2.2.2 pol false) 0
          let s := cx.warn (cx.noteSrcs srcs s lanes) (polx ||| (if gl.isEmpty then 0 else polWarn pol))
          .done ((byLine gl).foldl (fun s x => match x.2 with
            | [] => s
            | (_, ea, _, leaf) :: _ =>
              let a := { cx.access s x.1 ea leaf pol rd.toNat with lease := leaseAsked leaf pol, repl := replAsked leaf pol }
              s.counted.sendTo (chipOfCore cx.w.core) (s.homeOf x.1) .readRequest
                { acc := a, parts := [{ off := 0, len := 128, place := .drop }] }) s) none

/-! ## Cache maintenance (R261) -/

/-- A cache instruction: each line that a global lane names once; a store-window lane has no effect. -/
def cacheWord (f7 : Nat) (n : Need) (g : BitVec 4) (d a : Code) (f : Cx → State → Nat × List (Nat × Nat × Nat × DWord) → State)
    (s : State) : State :=
  issue { bInfo 0x6B f7 g [a] (decide (d ≠ 0)) with memory := true } s fun cx s =>
    let srcs := [pairSrc a]
    let lanes := cx.members srcs 127
    cx.checked (readsOf srcs lanes) s fun s =>
      let l := (cx.pairEas a lanes).filter fun p => decide (addrForm p.2 ≠ 15)
      cx.spots n 7 1 l s fun l =>
        let s := cx.warn (cx.noteSrcs srcs s lanes) (if l.isEmpty then 0 else polWarn cx.w.pold)
        .done ((byLine (globals l)).foldl (f cx) s) none

/-- R261: `cwb` asks the home to write a dirty line back, and awaits its acknowledgement as a fence's write. -/
def execCwb (g : BitVec 4) (d a : Code) (s : State) : Host.Outcome State Fault Refusal :=
  .next (cacheWord 0 .store g d a (fun cx s x => match x.2 with
    | [] => s
    | (_, ea, _, leaf) :: _ =>
      let acc := cx.access s x.1 ea leaf cx.w.pold 0
      let s := s.counted.fly cx.k { id := acc.id, line := x.1, write := true }
      s.sendTo (chipOfCore cx.w.core) (s.homeOf x.1) .write { acc := acc, op := .writeBack }) s)

/-- Drops the issuing core's copy and the die's replica of a line (R261). -/
def Cx.dropLine (cx : Cx) (s : State) (line : Nat) : State :=
  (s.modCore cx.w.core fun c => c.lose line).modDie (dieOfCore cx.w.core) fun d =>
    { d with replicas := tabUpd d.replicas line fun x => { x with live := false } }

/-- R261. -/
def execCinv (g : BitVec 4) (d a : Code) (s : State) : Host.Outcome State Fault Refusal :=
  .next (cacheWord 1 .any g d a (fun cx s x => cx.dropLine s x.1) s)

/-- R261: as `cinv`, and the line is the next victim of its set at its home. -/
def execCdrop (g : BitVec 4) (d a : Code) (s : State) : Host.Outcome State Fault Refusal :=
  .next (cacheWord 2 .any g d a (fun cx s x => (cx.dropLine s x.1).modLine x.1 fun h => { h with rv := 11 }) s)

end Sys2Proof.Machine
end

