-- ==== Sys2Proof/Machine/Atomics.lean ====
section
/-! DEFINITION. Atomics, reduction contributions and fences, majors 0x65 to 0x69 and 0x6C (08 R251 to R255, R259; 09 R273,
R275). -/

namespace Sys2Proof.Machine

/-- The access width of a type of R20 (R251). -/
def atomBytes (ty : Nat) : Nat := if ty = 2 ∨ ty = 3 ∨ ty = 5 then 8 else 4

/-- A packed type, each half an element (R253). -/
def packedType (ty : Nat) : Bool := decide (6 ≤ ty)

/-- The frame's description of an A-form word. -/
def aInfo (op f7 : Nat) (g : BitVec 4) (srcs : List Code) : OpInfo := { bInfo op f7 g srcs false with memory := true }

/-- The checks and waits of an atomic's lanes: a store-window address faults (R165, R251); `load` tells one that returns values. -/
def Cx.atomic (cx : Cx) (load : Bool) (sub ty : Nat) (a : Code) (lanes : Lanes) (s : State) (k : List (Nat × Nat × Nat × DWord) → State → Res) : Res :=
  let l := cx.pairEas a lanes
  let u := atomBytes ty
  let chk := fun (ea : Nat) => if addrForm ea = 15 then Checked.bad .window else cx.check s .atomic u ea
  let stop : Option (Trap ⊕ (Nat × Nat)) := l.findSome? fun p => match chk p.2 with
    | .at_ _ => none
    | .bad c => some (.inl { cause := c, sub := sub, lane := p.1, addr := p.2 })
    | .walk h o => some (.inr (h, o))
  match stop with
  | some (.inl t) => .trap t
  | some (.inr (h, o)) =>
    let w := s.beginWalk cx.b.chip cx.b.ctx h o
    .stall w.1 (.walk w.2)
  | none =>
    let gl := globals (l.filterMap fun p => match chk p.2 with
      | .at_ x => some (p.1, x)
      | _ => none)
    cx.ordered load true u gl s fun s => cx.afterMates (if load then gl.map fun p => p.2.2.1 / 128 else []) s fun s => cx.staged (gl.map fun p => p.2.2.1 / 128) s fun s => k gl s

/-- One request of a read-modify-write to the home of a line; `back` tells that values return. -/
def Cx.sendAtomic (cx : Cx) (line ea : Nat) (leaf : DWord) (op : HomeOp) (bytes : BitVec 128) (back : List (Place × Nat)) (s : State) : State :=
  let acc := { cx.access s line (ea / 128 * 128) leaf cx.w.pold 0 with rc := leafRec leaf }
  let s := back.foldl (fun s p => s.pendPlace cx.k p.1 p.2 true) s.counted
  let s := s.fly cx.k { id := acc.id, line := line, bytes := bytes, write := true, load := !back.isEmpty }
  s.sendTo (chipOfCore cx.w.core) (s.homeOf line) .write { acc := acc, op := op }

/-- The half of a place. -/
def halfPlace (h : Nat) : Place → Place
  | .reg row lane _ => .half row lane h
  | .sreg c _ => .shalf c h
  | p => p

/-- The read-modify-writes of one line (R251, R253): the core's copy goes; a packed type goes half by half. -/
def Cx.atomicLine (cx : Cx) (ty : Nat) (returns : Bool) (mk : List LaneOp → HomeOp) (x y : Nat → DWord) (place : Nat → Place) (s : State)
    (g : Nat × List (Nat × Nat × Nat × DWord)) : State :=
  match g.2 with
  | [] => s
  | (_, ea, _, leaf) :: _ =>
    let s := s.modCore cx.w.core fun c => c.lose g.1
    let back := fun (n : Nat) (l : List LaneOp) => if returns then l.map fun o => (o.back, n) else []
    if packedType ty then
      [0, 1].foldl (fun s h =>
        let l := g.2.map fun p =>
          ({ off := p.2.2.1 % 128 + 2 * h, back := halfPlace h (place p.1), x := (x p.1).extractLsb' (16 * h) 16 |>.setWidth 64 } : LaneOp)
        cx.sendAtomic g.1 ea leaf (mk l) (partBytes (l.map fun o => (o.off, 2))) (back 2 l) s) s
    else
      let l := g.2.map fun p => ({ off := p.2.2.1 % 128, back := place p.1, x := x p.1, y := y p.1 } : LaneOp)
      cx.sendAtomic g.1 ea leaf (mk l) (partBytes (l.map fun o => (o.off, elemBytes ty))) (back (elemBytes ty) l) s

/-- The operand of an atomic, at its type's width. -/
def atomSrc (ty : Nat) (d : Code) : Src :=
  let w := decide (atomBytes ty = 8)
  { code := d, wide := w, imm := .int (if w then 64 else 32) }

/-- R251 to R253: `atom` returns the old value to d. -/
def execAtom (g : BitVec 4) (d a : Code) (o : BitVec 4) (t : BitVec 3) (s : State) : Host.Outcome State Fault Refusal :=
  issued (aInfo 0x65 (8 * o.toNat + t.toNat) g [a, d]) s fun cx s =>
    let ty := t.toNat
    let src := atomSrc ty d
    let srcs := [pairSrc a, src]
    let lanes := cx.members srcs d
    let n := if src.wide then 2 else 1
    cx.checked (readsOf srcs lanes ++ [{ code := d, n := n, wide := src.wide, lanes := lanes, read := false }]) s fun s =>
      cx.atomic true 2 ty a lanes s fun gl s =>
        let s := cx.warn (cx.noteSrcs srcs s lanes) (dstWarn d false (!(scalarCode a && scalarDst d)) ||| (if gl.isEmpty then 0 else polWarn cx.w.pold))
        .done ((byLine gl).foldl (cx.atomicLine ty true (.atom o.toNat ty) (cx.val src) (fun _ => 0)
          (cx.placeOf d src.wide lanes false)) s) none

/-- R251 to R253: `red` returns nothing. -/
def execRed (g : BitVec 4) (d a : Code) (o : BitVec 4) (t : BitVec 3) (s : State) : Host.Outcome State Fault Refusal :=
  issued (aInfo 0x66 (8 * o.toNat + t.toNat) g [a, d]) s fun cx s =>
    let ty := t.toNat
    let src := atomSrc ty d
    let srcs := [pairSrc a, src]
    let lanes := cx.members srcs 127
    cx.checked (readsOf srcs lanes) s fun s =>
      cx.atomic false 2 ty a lanes s fun gl s =>
        let s := cx.warn (cx.noteSrcs srcs s lanes) (if gl.isEmpty then 0 else polWarn cx.w.pold)
        .done ((byLine gl).foldl (cx.atomicLine ty false (.atom o.toNat ty) (cx.val src) (fun _ => 0) fun _ => .drop) s) none

/-- R251, R252: `cas` compares with the first half of its operand and writes the second; the old value returns. -/
def execCas (g : BitVec 4) (d a : Code) (t : BitVec 3) (s : State) : Host.Outcome State Fault Refusal :=
  issued (aInfo 0x67 t.toNat g [a, d]) s fun cx s =>
    let ty := t.toNat
    let wide := decide (atomBytes ty = 8)
    let n := if wide then 4 else 2
    let d' := alignedCode d n
    let srcs := [pairSrc a, pairSrc d']
    let lanes := cx.members srcs d'
    let pair := fun j => cx.val (pairSrc d') j
    let x := fun j => if wide then pair j else ((pair j).setWidth 32).setWidth 64
    let y := fun j => if wide then cx.quadHigh d' j else ((pair j).extractLsb' 32 32).setWidth 64
    cx.checked (readsOf [pairSrc a] lanes ++ [{ code := d', n := n, lanes := lanes },
        { code := d', n := n / 2, lanes := lanes, read := false }]) s fun s =>
      cx.atomic true 2 ty a lanes s fun gl s =>
        let s := cx.warn (cx.noteSrcs srcs s lanes) (warnIf (decide (d' ≠ d)) wPAIR ||| dstWarn d' false (!(scalarCode a && scalarDst d))
          ||| (if gl.isEmpty then 0 else polWarn cx.w.pold))
        .done ((byLine gl).foldl (cx.atomicLine ty true (.cas ty) x y (cx.placeOf d' wide lanes false)) s) none

/-- R254: `amxr` returns the old value and leaves +0. -/
def execAmxr (g : BitVec 4) (d a : Code) (t : BitVec 3) (s : State) : Host.Outcome State Fault Refusal :=
  issued (aInfo 0x68 t.toNat g [a]) s fun cx s =>
    let ty := t.toNat
    let wide := decide (atomBytes ty = 8)
    let srcs := [pairSrc a]
    let lanes := cx.members srcs d
    cx.checked (readsOf srcs lanes ++ [{ code := d, n := if wide then 2 else 1, wide := wide, lanes := lanes, read := false }]) s fun s =>
      cx.atomic true 2 ty a lanes s fun gl s =>
        let s := cx.warn (cx.noteSrcs srcs s lanes) (dstWarn d wide (!(scalarCode a && scalarDst d)) ||| (if gl.isEmpty then 0 else polWarn cx.w.pold))
        .done ((byLine gl).foldl (cx.atomicLine ty true (.amxr ty) (fun _ => 0) (fun _ => 0) (cx.placeOf d wide lanes false)) s) none

/-! ## Reduction contributions (R255, R273) -/

/-- Contributions of lanes, as (byte offset, value), element by element: packed types have two (R253, R255). -/
def contributions (ty : Nat) (x : Nat → DWord) (l : List (Nat × Nat × Nat × DWord)) : List (Nat × Nat) :=
  l.flatMap fun p =>
    let off := p.2.2.1 % 128
    if packedType ty then [(off, (x p.1).toNat % 2 ^ 16), (off + 2, (x p.1).toNat / 2 ^ 16 % 2 ^ 16)] else [(off, (x p.1).toNat)]

/-- R252: the lanes of each element merged in ascending order, then combined into a partial that starts at the identity (R255). -/
def contribute (op ty : Nat) (l : List (Nat × Nat)) (t : Tab DWord) : Tab DWord :=
  (l.map Prod.fst).eraseDups.foldl (fun t off =>
    match (l.filter fun p => decide (p.1 = off)).map Prod.snd with
    | [] => t
    | x :: r =>
      let v := r.foldl (elemOp op ty) x
      let old := ((tabLook t off).map BitVec.toNat).getD (elemIdent op ty)
      tabPut t off (BitVec.ofNat 64 (elemOp op ty old v))) t

/-- Contributions combined into a warp's partial of a line that is not merged yet and is of their kind, or into a new one (R255). -/
def State.addPartial (s : State) (p : Partial) (l : List (Nat × Nat)) : State :=
  let mine := fun (q : Partial) => decide (q.line = p.line) && decide (q.warp = p.warp) && q.merged.isNone && decide (q.op = p.op) && decide (q.ty = p.ty)
  { s with partials := if s.partials.any mine then
      s.partials.map fun q => if mine q then { q with elems := contribute p.op p.ty l q.elems } else q
    else s.partials ++ [{ p with elems := contribute p.op p.ty l [] }] }

/-- R255, R273: the contributions to one line: combined into the warp's partial; the first since the line's last merge is sent to
the home. -/
def Cx.contributeLine (cx : Cx) (op ty : Nat) (x : Nat → DWord) (s : State) (g : Nat × List (Nat × Nat × Nat × DWord)) : State :=
  match g.2 with
  | [] => s
  | (_, ea, _, leaf) :: _ =>
    let s := s.modCore cx.w.core fun c => c.lose g.1
    let l := contributions ty x g.2
    let open_ := fun (p : Partial) => decide (p.line = g.1) && decide (p.warp = cx.k) && p.merged.isNone
    let joined := s.partials.find? open_
    let id := (joined.map Partial.join).getD s.fresh
    let bytes := partBytes (l.map fun p => (p.1, elemBytes ty))
    let s := s.addPartial { line := g.1, warp := cx.k, node := cx.b.node, bid := cx.b.bid, idx := cx.w.idx, op := op, ty := ty
                            rc := leafRec leaf, join := id } l
    if joined.isSome then
      -- bytes contributed to before the home knows of the first count with it (R249)
      s.modWarp cx.k fun w => { w with flights := w.flights.map fun f => if f.id = id then { f with bytes := f.bytes ||| bytes } else f }
    else
      let acc := cx.access s g.1 (ea / 128 * 128) leaf cx.w.pold 0
      let s := s.counted.fly cx.k
        { id := acc.id, line := g.1, write := true, bytes := bytes }
      s.sendTo (chipOfCore cx.w.core) (s.homeOf g.1) .write { acc := acc, op := .join }

/-- R255: contributes d to the element at the pair a. -/
def execRdc (g : BitVec 4) (d a : Code) (o : BitVec 4) (t : BitVec 3) (s : State) : Host.Outcome State Fault Refusal :=
  issued (aInfo 0x6C (8 * o.toNat + t.toNat) g [a, d]) s fun cx s =>
    let ty := t.toNat
    let src := atomSrc ty d
    let srcs := [pairSrc a, src]
    let lanes := cx.members srcs 127
    cx.checked (readsOf srcs lanes) s fun s =>
      cx.atomic false 3 ty a lanes s fun gl s =>
        let s := cx.warn (cx.noteSrcs srcs s lanes) (if gl.isEmpty then 0 else polWarn cx.w.pold)
        .done ((byLine gl).foldl (cx.contributeLine o.toNat ty (cx.val src)) s) none

/-! ## Fences (R259, R275) -/

/-- What an acquire holds back (R259, R275): later loads and stores wait for every earlier load and atomic. -/
def Cx.acquire (cx : Cx) (s : State) : State := s.modWarp cx.k fun w => { w with acq := s.fresh }

/-- R259: kind 0 `acq`, 1 `rel`, 2 `full`; scope 0 core, 1 chip, 2 pod. -/
def execFence (g : BitVec 4) (d a : Code) (k sc : BitVec 2) (s : State) : Host.Outcome State Fault Refusal :=
  issued { bInfo 0x69 (32 * k.toNat + 8 * sc.toNat) g [] (decide (d ≠ 0) || decide (a ≠ 0)) with memory := true } s fun cx s =>
    match cx.lead with
    | none => .done s none
    | some _ =>
      if k = 0 then .done (cx.acquire s) none
      else cx.afterRelease sc.toNat (decide (k = 2)) s fun s =>
        .done (if k = 2 then cx.acquire s else s.modWarp cx.k fun w => { w with sacq := s.fresh }) none

end Sys2Proof.Machine
end

