-- ==== Sys2Proof/Machine/Select.lean ====
section
/-! DEFINITION. When a stalled gang may go on, and which gang a port selects (03 R64 to R67). -/

namespace Sys2Proof.Machine

/-- The operations of a class that a warp has outstanding (R291). -/
def Warp.osc (w : Warp) (c : OpClass) : Nat := (w.ops.filter fun o => decide (o.cls = c)).length

/-- Whether what a stalled gang of a warp waits for has come about. A reason whose cause other instructions change is looked at
anew when the instruction issues again. -/
def State.cleared (s : State) (w : Warp) (r : Reason) : Bool :=
  match s.block? w.node with
  | none => false
  | some b =>
    let now := s.podTime b.chip
    match r with
    | .regs rows sregs =>
      (rows.all fun x => decide ((w.row x).pend = 0) && decide ((w.row x).hold = 0)) && sregs.all fun x => decide (vecAt w.spend x 0 = 0)
    | .walk n _ => !((s.chip b.chip).walks.any fun x => decide (x.num = n))
    | .access ids => !(w.flights.any fun f => ids.contains f.id)
    | .release before scope _ => w.releaseMet before scope now
    | .loads before => w.loadsBack before
    | .fullFence => !(w.gangs.any fun g => match g.wait with
        | .stall (.release _ _ f) => f
        | _ => false)
    | .osc c n => decide (w.osc c ≤ n)
    | .stage ring slot p => decide (((b.rings.getD ring {}).ph.getD slot false) ≠ p)
    | .arrivals ring => !(s.warps.any fun p => decide (p.2.node = w.node) && p.2.ops.any fun o =>
        decide (o.arv.map Prod.fst = some ring))
    | .barrier => !w.atBarrier
    | .budget n => decide (b.staged.length + n ≤ b.budget) || b.norev
    | .monitor => match w.monitor with
        | some (_, fired) => fired
        | none => true
    | .event key n => (s.chip b.chip).plate.users.any fun u => decide (u.ctx = b.ctx) && decide (u.key = key) && decide (n ≤ u.num)
    | .post => (s.chip b.chip).room
    -- once in each selection cycle
    | .again => decide (s.cue.num = 0)
    | .token => s.powered w.core
    | .grant | .told | .tiles _ | .counter _ => false

/-- A gang whose reason is cleared may issue again. -/
def State.wake (s : State) (w : Warp) : Warp :=
  { w with gangs := w.gangs.map fun g => match g.wait with
      | .stall r => if s.cleared w r then { g with wait := .run } else g
      | _ => g }

/-- What keeps the whole warp from being ready, not the gang alone: a queued `salloc` (R169), `owait` and a full counter (R292,
R293), `swait` (R303), `await` (R351), `evwait` (R381), a full event queue (R356), the staging budget (R284), `maloc` (R224), and
an engine instruction's walk (R294). -/
def Reason.whole : Reason → Bool
  | .walk _ w => w
  | .grant | .osc _ _ | .stage _ _ _ | .counter _ | .event _ _ | .post | .budget _ | .tiles _ => true
  | .regs _ _ | .access _ | .release _ _ _ | .loads _ | .fullFence | .barrier | .arrivals _ | .monitor | .again | .told | .token => false

/-- A gang of a warp waits for what keeps the whole warp from being ready. -/
def Warp.stopped (w : Warp) : Bool := w.gangs.any fun x => match x.wait with
  | .stall r => r.whole
  | _ => false

/-- Whether a gang of a warp is ready (R65). -/
def readyGang (s : State) (w : Warp) (g : Gang) : Bool :=
  w.resident && !g.held && decide (g.wait = .run) && !w.stopped &&
    ((s.block? w.node).map fun b => decide (b.st = .running) && !(s.chip b.chip).fenced).getD false

/-- The urgency class of a role (R66). -/
def Role.urgency : Role → Nat
  | .mtx => 0
  | .copy => 1
  | .vec => 2
  | .gen => 3

/-- Lists of numbers in dictionary order. -/
def before : List Nat → List Nat → Bool
  | a :: l, b :: r => decide (a < b) || (decide (a = b) && before l r)
  | _, _ => false

/-- What R66 orders ready gangs by: the least is taken. Gangs that have waited 64 cycles come first, the longest wait ahead. -/
def State.rank (s : State) (w : Warp) (g : Gang) : List Nat :=
  let low := (lowestLane g.mask).getD 32
  if 64 ≤ g.waits then [0, 2 ^ 64 - g.waits, low, w.slot]
  else
    let age := ((s.block? w.node).bind fun b => (s.grid? b.gid).map fun x => [x.stamp, b.gid, b.bid]).getD [0, 0, 0]
    [1, w.role.urgency] ++ age ++ [w.idx, 2 ^ 64 - g.waits, low, w.slot]

/-- The least of candidates by rank; the first of equals. -/
def leastRank : List (List Nat × Nat × Lanes) → Option (List Nat × Nat × Lanes)
  | [] => none
  | x :: r => match leastRank r with
    | some y => if before y.1 x.1 then some y else some x
    | none => some x

/-- R64: no run of a warp is open and no gang of it stands inside a prefix group. -/
def Warp.atSwitch (w : Warp) : Bool := w.run.isNone && w.gangs.all fun g => decide (g.pfx.words = 0)

/-- OPWAIT of a stamp record (R433): the warps a gang of which waits for registers, predicates or a power token in this selection
cycle. -/
def State.countWaits (s : State) (l : List (Nat × Warp)) : State :=
  l.foldl (fun s p =>
    let waits := p.2.gangs.any fun g => match g.wait with
      | .stall (.regs _ _) | .stall .token => true
      | _ => false
    if waits then s.modBlock p.2.node fun b => { b with stamp := { b.stamp with opwait := b.stamp.opwait + 1 } } else s) s

/-- TSTART of a stamp record (R433): the block's first issue. -/
def State.firstIssue (s : State) (node : Nat) : State :=
  s.modBlock node fun b => { b with stamp := { b.stamp with start := some (b.stamp.start.getD (s.podTime b.chip)) } }

/-- GANG_SELECTION (R66): the port of the cue selects a ready gang. While a run is open on it, only that run's gang may issue.
Where the gang that a cycle took could not issue after all, it was not ready, and the same cycle looks at the others (`cue.num` 1):
it counts nobody's wait again (log 2). -/
def execGangSelection (s : State) : Host.Outcome State Fault Refusal :=
  let mine := fun (w : Warp) => decide (w.core = s.cue.core) && decide (w.port = s.cue.port) && w.resident
  let fresh := decide (s.cue.num = 0)
  let s := if fresh then s.countWaits (s.warps.filter fun (p : Nat × Warp) => mine p.2) else s
  let s := { s with warps := s.warps.map fun (p : Nat × Warp) => if mine p.2 then (p.1, s.wake p.2) else p }
  let ws := s.warps.filter fun (p : Nat × Warp) => mine p.2
  let open_ := ws.findSome? fun (p : Nat × Warp) => match p.2.run with
    | some r => (p.2.gang? r.mask).map fun g => (p, g)
    | none => none
  match open_ with
  | some (p, g) => .next (if readyGang s p.2 g then { s with issuing := some (p.1, g.mask) } else s)
  | none =>
    let cands := ws.flatMap fun (p : Nat × Warp) => (p.2.gangs.filter (readyGang s p.2)).map fun g => (s.rank p.2 g, p.1, g.mask)
    match leastRank cands with
    | none => .next s
    | some (_, k, m) =>
      let count := fun (p : Nat × Warp) (g : Gang) =>
        if p.1 = k ∧ g.mask = m then { g with waits := 0 }
        else if !readyGang s p.2 g then { g with waits := 0 }
        else if fresh then { g with waits := g.waits + 1 } else g
      .next { s.firstIssue (k / 32) with
        issuing := some (k, m)
        warps := s.warps.map fun (p : Nat × Warp) =>
          if mine p.2 then (p.1, { p.2 with gangs := p.2.gangs.map (count p) }) else p }

end Sys2Proof.Machine
end

