-- ==== Sys2Proof/Machine/Engines.lean ====
section
/-! DEFINITION. Copy engines, `owait` and stage rings, majors 0x6D to 0x73, and the task gate (06 R198; 10 R288 to R306). -/

namespace Sys2Proof.Machine

/-! ## Arrival words and rings (R294, R302, R303) -/

/-- The ring and slot of an arrival word with ARV set. -/
def arrivalOf (x : Word) : Option (Nat × Nat) :=
  if x.getLsbD 31 then some ((x.extractLsb' 28 3).toNat, (x.extractLsb' 24 4).toNat) else none

/-- TRAPADDR of the stage trap: ring and slot. -/
def stageTrap (lane ring slot : Nat) : Trap := { cause := .stage, lane := lane, addr := 16 * ring + slot }

/-- The stage trap of an arrival word that names no slot (R294). -/
def Block.arrivalTrap (b : Block) (lane : Nat) (x : Word) : Option Trap :=
  match arrivalOf x with
  | some (r, k) => if (b.rings.getD r {}).s ≤ k then some (stageTrap lane r k) else none
  | none => none

/-- A ring with one more arrival in a slot (R303). -/
def Ring.arrive (r : Ring) (k : Nat) : Ring :=
  let n := r.cnt.getD k 0 + 1
  if n = r.e then { r with cnt := r.cnt.set k 0, ph := r.ph.set k (!r.ph.getD k false) } else { r with cnt := r.cnt.set k n }

/-- An arrival at a ring of a node. -/
def State.ringArrive (s : State) (node ring slot : Nat) : State :=
  s.modBlock node fun b => { b with rings := b.rings.set ring ((b.rings.getD ring {}).arrive slot) }

/-! ## Checks of an engine instruction (R292, R294) -/

/-- The first check that fails traps. -/
def passes : List (Bool × Trap) → Res → Res
  | [], k => k
  | (bad, t) :: r, k => if bad then .trap t else passes r k

/-- R292: the warp's counter of the class can take one more. -/
def Cx.room (cx : Cx) (c : OpClass) (s : State) (k : State → Res) : Res := if 63 ≤ cx.w.osc c then .stall s (.osc c 62) else k s

/-- A run of bytes to move: the lane that names it, where from, where to, how many bytes. -/
structure Strip where
  lane : Nat := 0
  src : Nat := 0
  dst : Nat := 0
  len : Nat := 0
deriving DecidableEq, Repr

/-- Positions and lengths of pieces that cross no line at either end; at most `fuel` of them. -/
def cuts (src dst : Nat) : Nat → Nat → Nat → List (Nat × Nat)
  | 0, _, _ => []
  | fuel + 1, pos, left =>
    if left = 0 then []
    else
      let n := min left (min (128 - (src + pos) % 128) (128 - (dst + pos) % 128))
      (pos, n) :: cuts src dst fuel (pos + n) (left - n)

/-- The pieces of a strip. -/
def Strip.pieces (x : Strip) : List (Nat × Nat) := cuts x.src x.dst x.len 0 x.len

/-- The check of `n` bytes at `pos` of an engine's range (R294): a store-window destination is the scratchpad. -/
def Cx.engineCheck (cx : Cx) (s : State) (need : Need) (align base pos n : Nat) : Checked :=
  let ea := (base + pos) % 2 ^ 64
  if addrForm base = 15 then
    if (need = .store ∧ base / 2 ^ 30 % 4 ≠ 0) ∨ (base + pos + n - 1) / 2 ^ 25 ≠ base / 2 ^ 25 then .bad .window
    else match cx.window s align base, cx.window s 1 (base + pos + n - 1), cx.window s 1 ea with
      | some _, some _, some x => .at_ x
      | _, _, _ => .bad .window
  else if addrForm base ≠ 0 then .bad .addrForm
  else if base % align ≠ 0 then .bad .alignment
  else match s.access cx.b.chip cx.b.ctx need ea with
    | .ok key leaf => .at_ (.glob ea key leaf)
    | .fault c => .bad c
    | .miss h o => .walk h o

/-- TRAPADDR of a failed check: the range's address, or the failing page's. -/
def faultAddr (c : Cause) (base pos : Nat) : Nat :=
  match c with
  | .translation => (base + pos) % 2 ^ 64
  | .permission => (base + pos) % 2 ^ 64
  | _ => base

/-- Runs an effect on the checked places of one side of some strips, piece by piece. -/
def Cx.side (cx : Cx) (need : Need) (sub align : Nat) (l : List (Strip × Nat × Nat)) (of : Strip → Nat) (s : State)
    (k : List Spot → Res) : Res :=
  let r := l.map fun x => (x, cx.engineCheck s need align (of x.1) x.2.1 x.2.2)
  let stop : Option (Trap ⊕ (Nat × Nat)) := r.findSome? fun x => match x.2 with
    | .at_ _ => none
    | .bad c => some (.inl { cause := c, sub := sub, lane := x.1.1.lane, addr := faultAddr c (of x.1.1) x.1.2.1 })
    | .walk h o => some (.inr (h, o))
  match stop with
  | some (.inl t) => .trap t
  | some (.inr (h, o)) =>
    let w := s.beginWalk cx.b.chip cx.b.ctx h o
    .stall w.1 (.walk w.2 true)
  | none => k (r.filterMap fun x => match x.2 with
    | .at_ y => some y
    | _ => none)

/-! ## Engine operations (R292, R301) -/

/-- Where an engine's piece goes. -/
def Cx.enginePlace (cx : Cx) : Spot → Place
  | .glob ea key leaf => .mem key ea (leafPage leaf) (polSync cx.w.pold || decide (leafOrd leaf = 1)) none
  | .scr off => .scr off
  | .reg _ _ _ => .drop

/-- The bytes a place takes, as a key, for the order of writes (R301). Packets to other blocks have none (R330, R352). -/
def Cx.placeKey (cx : Cx) : Place → Option Nat
  | .mem key _ _ _ _ => some key
  | .scr off => some (blkKey cx.b.bid off)
  | .slot k off => some (slotKey (k * 2048 + off))
  | .blk bid off _ => if bid = cx.b.bid then some (blkKey bid off) else none
  | _ => none

/-- Neighbouring ranges joined. -/
def joinRanges (l : List (Nat × Nat)) : List (Nat × Nat) :=
  (l.foldl (fun (a : List (Nat × Nat)) r => match a with
    | (k, n) :: t => if k + n = r.1 then (k, n + r.2) :: t else r :: a
    | [] => [r]) []).reverse

/-- An engine asks for one piece of its source. -/
def Cx.fetchPiece (cx : Cx) (op : Nat) (s : State) (x : Spot × Place × Nat) : State :=
  -- 0.03125 nJ for 128 bytes (R412)
  let s := s.charge cx.k (16 * x.2.2)
  match x.1 with
  | .glob ea key leaf =>
    let a := { cx.access s (key / 128) ea leaf cx.w.pold 0 with op := op }
    s.counted.sendTo (chipOfCore cx.w.core) (s.homeOf (key / 128)) .readRequest
      { acc := a, parts := [{ off := key % 128, len := x.2.2, place := x.2.1 }] }
  | .scr off =>
    let key := blkKey cx.b.bid off
    let a := { cx.access s (key / 128) off 0 0 0 with op := op }
    s.counted.send .readRequest { acc := a, parts := [{ off := key % 128, len := x.2.2, place := x.2.1 }] }
  -- a register row is read when the instruction issues (log 22: DESIGN CHOICE)
  | .reg _ _ _ =>
    let a := { cx.access s (blkKey cx.b.bid 0 / 128) 0 0 0 0 with op := op }
    s.counted.send .readReply
      { acc := a, parts := [{ off := 0, len := x.2.2, place := x.2.1 }], data := s.windowBytes cx.b.node x.2.2 x.1 }

/-- What an operation of the transfer group moves as bulk (R338): nothing at or below 512 bytes. -/
def bulkCode (f7 bytes : Nat) : Nat :=
  if bytes ≤ 512 then 0
  else match f7 with
    | 1 => 1
    | 2 => 2
    | _ => 3

/-- Puts an operation of the warp under way (R292). -/
def Cx.launch (cx : Cx) (cls : OpClass) (arv : Option (Nat × Nat)) (l : List (Spot × Place × Nat)) (s : State) : State :=
  let id := s.fresh
  let keys := l.filterMap fun x => (cx.placeKey x.2.1).map fun k => (k, x.2.2)
  let op : EngOp :=
    { id := id, cls := cls, left := l.length, arv := arv, dst := joinRanges keys
      bulk := if cls = .coll then bulkCode cx.info.f7 ((l.map fun x => x.2.2).foldl (· + ·) 0) else 0
      scr := l.any fun x => match x.2.1 with
        | .scr _ => true
        | _ => false }
  let s := s.counted.modWarp cx.k fun w => { w with ops := w.ops ++ [op] }
  let s := l.foldl (fun s x => s.pendPlace cx.k x.2.1 x.2.2 true) s
  l.foldl (cx.fetchPiece id) s

/-- What stands in the way of reading register rows as a source (R166, R168). -/
def Cx.sourceProblem (cx : Cx) (s : State) (l : List (Spot × Nat × Nat)) : Option Res :=
  l.findSome? fun x => cx.windowProblem s false x.2.2 [(x.2.1, x.1)]

/-- Runs an effect once register rows and scratchpad bytes can be read as a source, each with its lane and length, and are sound
(R166, R168, R186). -/
def Cx.sourced (cx : Cx) (l : List (Spot × Nat × Nat)) (s : State) (k : State → Res) : Res :=
  match cx.sourceProblem s l with
  | some r => r
  | none => cx.soundSpots (l.map fun x => (x.1, x.2.2)) s k

/-- An engine instruction whose ranges are checked goes to its engine (R292). -/
def Cx.begin_ (cx : Cx) (cls : OpClass) (arv : Option (Nat × Nat)) (from_ : List Spot) (places : List Place) (lens : List Nat) (s : State) :
    Res :=
  cx.room cls s fun s =>
    let glob := from_.any fun x => match x with
      | .glob _ _ _ => true
      | _ => false
    let mem := places.any fun x => match x with
      | .mem _ _ _ _ _ => true
      | _ => false
    let s := cx.warn s (if glob || mem then polWarn cx.w.pold else 0)
    .done (cx.launch cls arv (from_.zip (places.zip lens)) s) none

/-- The pieces of strips: the strip, position and length of each. -/
def piecesOf (strips : List Strip) : List (Strip × Nat × Nat) := strips.flatMap fun x => x.pieces.map fun p => (x, p.1, p.2)

/-- R294: an engine instruction after its parameter checks: every range is checked, and the operation goes to its engine. `to`
gives the places of its bytes where they are not addresses. -/
def Cx.engine (cx : Cx) (cls : OpClass) (arv : Option (Nat × Nat)) (align : Nat) (strips : List Strip) (sink : Option (Nat → Place))
    (place : Spot → Place) (s : State) : Res :=
  let l := piecesOf strips
  cx.side .load 5 align l Strip.src s fun from_ =>
    cx.sourced ((from_.zip l).map fun x => (x.1, x.2.1.lane, x.2.2.2)) s fun s =>
      let lens := l.map fun x => x.2.2
      match sink with
      | some f => cx.begin_ cls arv from_ (l.map fun x => f (x.1.dst + x.2.1)) lens s
      | none => cx.side .store 6 align l Strip.dst s fun spots => cx.begin_ cls arv from_ (spots.map place) lens s

/-- The frame's description of an engine word. -/
def eInfo (op : Nat) (g : BitVec 4) (d a b : Code) : OpInfo :=
  { bInfo op 0 g [d, a, b] false with noLatch := true, roles := [.copy] }

/-- The copy-parameter fault at a byte offset of its word or quad. -/
def badParam (lane off : Nat) : Trap := { cause := .copyParam, lane := lane, addr := off }

/-- An engine word's frame: its operands read in the lowest fibre, their checks and warnings, then its effect (R294). -/
def engineWord (op : Nat) (g : BitVec 4) (d a b : Code) (srcs : List Src) (extra : Cx → Nat → List Use) (f : Cx → Nat → State → Res)
    (s : State) : State :=
  issue (eInfo op g d a b) s fun cx s =>
    match cx.lead with
    | none => .done s none
    | some j => cx.checked (readsOf srcs (laneBit j) ++ extra cx j) s fun s => f cx j (cx.noteSrcs srcs s)

/-- R296: `cp` copies L bytes. -/
def execCp (g : BitVec 4) (d a b : Code) (s : State) : Host.Outcome State Fault Refusal :=
  .next (engineWord 0x6D g d a b [pairSrc d, pairSrc a, { code := b }] (fun _ _ => []) (fun cx j s =>
    let w := cx.val32 { code := b } j
    let len := (w.extractLsb' 0 21).toNat
    passes [(decide (len % 16 ≠ 0) || decide (len < 16) || decide (1048576 < len), badParam j 0),
        (decide (w.extractLsb' 21 3 ≠ 0), badParam j 2)] (match cx.b.arrivalTrap j w with
      | some t => .trap t
      | none => cx.engine .copy (arrivalOf w) 16
          [{ lane := j, src := (cx.val (pairSrc a) j).toNat, dst := (cx.val (pairSrc d) j).toNat, len := len }] none cx.enginePlace s)) s)

/-- R297: `cp2d` copies N rows of B bytes. -/
def execCp2d (g : BitVec 4) (d a b : Code) (s : State) : Host.Outcome State Fault Refusal :=
  let quad := decide (b.toNat = 96) || decide (b.toNat = 100) || decide (b.toNat = 104) || decide (b.toNat = 108)
  .next (engineWord 0x6E g d a b [pairSrc d, pairSrc a]
    (fun _ j => if quad then [{ code := b, n := 4, lanes := laneBit j }] else []) (fun cx j s =>
      let q := fun (i : Nat) => cx.w.sreg (b.toNat - 96 + i)
      let len := ((q 0).extractLsb' 0 21).toNat
      let n := ((q 1).extractLsb' 0 13).toNat
      let step := fun (i r : Nat) (base : DWord) => (base + (q i).signExtend 64 * BitVec.ofNat 64 r).toNat
      passes [(!quad, badParam j 0), (decide (len % 16 ≠ 0) || decide (len < 16) || decide (65536 < len), badParam j 0),
          (decide ((q 0).extractLsb' 21 3 ≠ 0), badParam j 2),
          (decide (n = 0) || decide (4096 < n) || decide ((q 1).extractLsb' 13 19 ≠ 0) || decide (1048576 < n * len), badParam j 4),
          (decide ((q 2).extractLsb' 0 4 ≠ 0), badParam j 8), (decide ((q 3).extractLsb' 0 4 ≠ 0), badParam j 12)]
        (match cx.b.arrivalTrap j (q 0) with
        | some t => .trap t
        | none => cx.engine .copy (arrivalOf (q 0)) 16 ((List.range n).map fun r =>
            { lane := j, src := step 2 r (cx.val (pairSrc a) j), dst := step 3 r (cx.val (pairSrc d) j), len := len }) none cx.enginePlace s)) s)

/-- R298: `gath` gathers an element for each fibre of Q. -/
def execGath (g : BitVec 4) (d a b : Code) (s : State) : Host.Outcome State Fault Refusal :=
  .next (engineWord 0x6F g d a b [pairSrc d, pairSrc a, { code := b }]
    (fun cx _ => readsOf [pairSrc a] cx.q) (fun cx j s =>
      let w := cx.val32 { code := b } j
      let u := 4 * 2 ^ (w.extractLsb' 0 3).toNat
      passes [(decide (6 ≤ (w.extractLsb' 0 3).toNat), badParam j 0), (decide (w.extractLsb' 3 21 ≠ 0), badParam j 0)]
        (match cx.b.arrivalTrap j w with
        | some t => .trap t
        | none => cx.engine .gath (arrivalOf w) u ((lanesOf cx.q).map fun i =>
            { lane := i, src := (cx.val (pairSrc a) i).toNat, dst := ((cx.val (pairSrc d) j).toNat + i * u) % 2 ^ 64, len := u })
            none cx.enginePlace s)) s)

/-- R299: `cpfr` fills register rows of a warp of the block in the fragment layout. -/
def execCpfr (g : BitVec 4) (d a b : Code) (s : State) : Host.Outcome State Fault Refusal :=
  .next (engineWord 0x70 g d a b [{ code := d }, pairSrc a, { code := b }] (fun _ _ => []) (fun cx j s =>
    let t := cx.val32 { code := d } j
    let w := cx.val32 { code := b } j
    let x := (t.extractLsb' 0 16).toNat
    let k := cx.b.node * 32 + (t.extractLsb' 16 5).toNat
    let stride := (w.extractLsb' 0 20).toNat
    let bytes := if w.getLsbD 20 then 1024 else 512
    let n := 16 * bytes / 128
    let live := ((s.warp? k).map fun v => decide (v.live ≠ 0)).getD false
    let rows := ((s.warp? k).map fun v => v.rows.length).getD 0
    let range := (List.range n).map (· + x)
    let busy := range.any fun r => ((s.warp? k).map fun v => decide ((v.row r).pend ≠ 0)).getD false
    passes [(decide (x % 8 ≠ 0), badParam j 0), (decide (t.extractLsb' 21 11 ≠ 0) || !live, badParam j 2),
        (decide (rows < x + n), badParam j 0),
        (decide (stride % 64 ≠ 0) || decide (stride < bytes) || decide (1048512 < stride), badParam j 0),
        (decide (w.extractLsb' 21 3 ≠ 0), badParam j 2)]
      (match cx.b.arrivalTrap j w with
      | some t => .trap t
      | none =>
        if busy then .stall s .again
        else cx.engine .copy (arrivalOf w) 64 ((List.range 16).map fun r =>
            { lane := j, src := ((cx.val (pairSrc a) j).toNat + r * stride) % 2 ^ 64, dst := r * bytes, len := bytes })
          (some fun p => .row k (x + p / 128) (p % 128 / 4)) cx.enginePlace s)) s)

/-- R300: `cpmeta` fills a side-memory slot. -/
def execCpmeta (g : BitVec 4) (d a b : Code) (s : State) : Host.Outcome State Fault Refusal :=
  .next (engineWord 0x71 g d a b [{ code := d }, pairSrc a, { code := b }] (fun _ _ => []) (fun cx j s =>
    let slot := (cx.val32 { code := d } j).toNat
    let w := cx.val32 { code := b } j
    passes [(decide (w.extractLsb' 0 24 ≠ 0), badParam j 0), (decide ((cx.b.ntiles + 7) / 8 ≤ slot), { cause := .tile, lane := j, addr := slot })]
      (match cx.b.arrivalTrap j w with
      | some t => .trap t
      | none => cx.engine .copy (arrivalOf w) 128 [{ lane := j, src := (cx.val (pairSrc a) j).toNat, dst := 0, len := 2048 }]
          (some fun p => .slot slot p) cx.enginePlace s)) s)

/-! ## `owait` and the stage group (R293, R303) -/

/-- The class of a code (R293). -/
def classOf (n : Nat) : OpClass :=
  match n with
  | 0 => .copy
  | 1 => .mtx
  | 2 => .gath
  | _ => .coll

/-- R293: waits until at most n operations of a class remain. -/
def execOwait (g : BitVec 4) (d a i : Code) (s : State) : Host.Outcome State Fault Refusal :=
  issued { bInfo 0x72 0 g [] (decide (d.extractLsb' 2 5 ≠ 0) || decide (a ≠ 0)) with ext := true, imm7 := i, immBits := i.toNat } s
    fun cx s =>
      match cx.lead with
      | none => .done s none
      | some _ =>
        let cls := classOf (d.toNat % 4)
        let n := min cx.xUnsigned 63
        if n < cx.w.osc cls then .stall s (.osc cls n)
        else .done (cx.warn s (warnIf (decide (63 < cx.xUnsigned)) wIMM)) none

/-- A stage word: the ring, and the value of a in the lowest fibre (R303). -/
def stageWord (f7 : Nat) (g : BitVec 4) (d a : Code) (f : Cx → Nat → Nat → Word → State → Res) (s : State) : State :=
  issue (bInfo 0x73 f7 g [a] (decide (d.extractLsb' 3 4 ≠ 0))) s fun cx s =>
    match cx.lead with
    | none => .done s none
    | some j =>
      cx.checked (readsOf [{ code := a }] (laneBit j)) s fun s =>
        f cx j (d.toNat % 8) (cx.val32 { code := a } j) (cx.noteSrcs [{ code := a }] s)

/-- R303: sets a ring up anew. -/
def execSinit (g : BitVec 4) (d a : Code) (s : State) : Host.Outcome State Fault Refusal :=
  .next (stageWord 0 g d a (fun cx j r v s =>
    let n := (v.extractLsb' 0 5).toNat
    let e := (v.extractLsb' 8 6).toNat
    if n = 0 ∨ 16 < n ∨ e = 0 ∨ 32 < e then .trap (stageTrap j r 0)
    else if s.warps.any fun p => decide (p.2.node = cx.b.node) && p.2.ops.any fun o => decide (o.arv.map Prod.fst = some r) then
      .stall s (.arrivals r)
    else .done ((cx.warn s (warnIf (decide (v &&& 0xFFFFC0E0 ≠ 0)) wRSV)).modBlock cx.b.node fun b =>
      { b with rings := b.rings.set r { s := n, e := e } }) none) s)

/-- R303: arrives at a slot, after a wait as `fence.rel.core`. -/
def execSarr (g : BitVec 4) (d a : Code) (s : State) : Host.Outcome State Fault Refusal :=
  .next (stageWord 1 g d a (fun cx j r v s =>
    let k := v.toNat % 16
    if (cx.b.rings.getD r {}).s ≤ k then .trap (stageTrap j r k)
    else cx.afterRelease 0 false s fun s =>
      .done ((cx.warn s (warnIf (decide (v &&& 0xFFFFFFF0 ≠ 0)) wRSV)).ringArrive cx.b.node r k) none) s)

/-- R303: waits for a slot's phase to differ from p, then acts as `fence.acq`. -/
def execSwait (g : BitVec 4) (d a : Code) (s : State) : Host.Outcome State Fault Refusal :=
  .next (stageWord 2 g d a (fun cx j r v s =>
    let k := v.toNat % 16
    let p := v.getLsbD 8
    let ring := cx.b.rings.getD r {}
    if !cx.half ∧ ring.s ≤ k then .trap (stageTrap j r k)
    else if ring.ph.getD k false = p then .halfway s (.stage r k p)
    else .done (cx.acquire (cx.warn s (warnIf (decide (v &&& 0xFFFFFEF0 ≠ 0)) wRSV))) none) s)

/-! ## The task gate (R198) -/

/-- A strip of a range that is only read or only written: its pieces end at lines. -/
def rangeStrip (lane base len : Nat) : Strip := { lane := lane, src := base, dst := base, len := len }

/-- The address of block `bid`'s input tile, modulo 2^64 (R198). -/
def InTile.at_ (t : InTile) (bid : Nat) : Nat := (BitVec.ofInt 64 ((t.base : Int) + bid * t.stride)).toNat

/-- The pieces of a tile's fill, each within a line: position and length. A stride that is no multiple of 128 leaves the tile of a
later block where lines do not begin. -/
def InTile.pieces (t : InTile) (bid : Nat) : List (Nat × Nat) := (piecesOf [rangeStrip 0 (t.at_ bid) t.len]).map Prod.snd

/-- The requests of one input tile's fill, line by line. -/
def State.gateFill (s : State) (b : Block) (t : InTile) (idx : Nat) : State :=
  let op := s.fresh
  (t.pieces b.bid).foldl (fun s x =>
    let ea := (t.at_ b.bid + x.1) % 2 ^ 64
    match s.access b.chip b.ctx .load ea with
    | .ok key leaf =>
      let a : Access :=
        { id := s.fresh, node := b.node, warp := b.node * 32, core := b.core, line := key / 128, op := op, va := ea, pc := idx
          rc := leafRec leaf, rv := bandBase t.policy ea, enc := leafEnc leaf, alloc := decide (leafCache leaf ≠ 2) }
      s.counted.sendTo b.chip (s.homeOf (key / 128)) .readRequest
        { acc := a, parts := [{ off := key % 128, len := x.2, place := .gate idx (t.soff + x.1) }] }
    | _ => s) s.counted

/-- What the task gate does with the next tile of the list. -/
inductive GateNext
  | start
  | fill (t : InTile) (idx entry : Nat)
  | wait
  | walk (home off : Nat)
  | fault (idx addr : Nat)

/-- The task gate's next action for a block (R198): tiles in list order, each once its tag finds a way and its pages translate. -/
def State.gateNext (s : State) (b : Block) (l : List InTile) : GateNext :=
  let n := b.gate.length
  match l[n]? with
  | none => if b.gate.all GateTile.done then .start else .wait
  | some t =>
    let pages := (t.pieces b.bid).map fun x => (t.at_ b.bid + x.1) % 2 ^ 64
    let bad := pages.findSome? fun ea => match s.access b.chip b.ctx .load ea with
      | .ok _ _ => none
      | .fault _ => some (GateNext.fault n ea)
      | .miss h o => some (GateNext.walk h o)
    match bad with
    | some r => r
    | none =>
      let tag := t.tagb + BitVec.ofNat 64 b.bid
      match (s.core b.core).tagOf b.node tag with
      | some e => .fill t n e
      | none => match (s.core b.core).victim b.node (tagSet tag) with
        | some (e, _) => .fill t n e
        | none => .wait

/-- TASK_GATE_START (R198): the gate's tiles are installed and filled in list order; once every tag is resident the block's warps
start. -/
def execTaskGateStart (s : State) : Host.Outcome State Fault Refusal :=
  let node := s.cue.node
  match s.block? node with
  | none => .next s
  | some b =>
    if b.st ≠ .gated then .next s
    else
      let l := ((s.grid? b.gid).map GridRun.inputs).getD []
      let again := fun (s : State) => Host.Outcome.next (s.sendOnce .taskGateStart { node := node })
      match s.gateNext b l with
      | .start => .next (s.modBlock node fun b => { b with st := .running })
      | .wait => if b.gate.length < l.length then again s else .next s
      | .walk h o => again (s.beginWalk b.chip b.ctx h o).1
      | .fault idx addr =>
        .next (s.sendOnce .faultRecord { node := node, record := { pc := idx, addr := addr, block := b.bid, kind := 6, ngen := b.gen } })
      | .fill t idx e =>
        let tag := t.tagb + BitVec.ofNat 64 b.bid
        let s := s.modCore b.core fun c =>
          ({ c with tags := tabPut c.tags e { tag := tag, slot := t.soff / 128, pending := true, node := node } } : Core).touch e
        let s := s.modBlock node fun x =>
          { x with
            gate := x.gate ++ [{ idx := idx, entry := some e, left := (t.pieces b.bid).length }]
            stamp := { x.stamp with fill := some (x.stamp.fill.getD (s.podTime b.chip)) } }
        again (s.gateFill b t idx)

end Sys2Proof.Machine
end

