-- ==== Sys2Proof/Machine/Transfer.lean ====
section
/-! DEFINITION. Transfers between blocks, arrival counters, ranks, and channels: the transfer group, major 0x7A, but for `coll`
(11 R312, R323 to R326; 12 R345 to R351). -/

namespace Sys2Proof.Machine

/-! ## The frame (R326, R346) -/

/-- The frame's description of a transfer word. -/
def tInfo (f7 : Nat) (g : BitVec 4) (srcs : List Code) (rsv : Bool) : OpInfo :=
  { bInfo 0x7A f7 g srcs rsv with noLatch := true, roles := [.gen, .copy] }

/-- The code of a destination as one that may name no latch; 127 is `null` there (R23, R326). -/
def dstName (d : Code) : List Code := if d = 127 then [] else [d]

/-- The collective-parameter fault at a byte offset. -/
def badColl (lane off : Nat) : Trap := { cause := .collParam, lane := lane, addr := off }

/-- A transfer word that acts once per warp: its operands are read in the lowest fibre (R346). -/
def transferWord (f7 : Nat) (g : BitVec 4) (srcs : List Src) (rsv : Bool) (f : Cx → Nat → State → Res) (s : State) (names : List Code := []) :
    State :=
  issue { tInfo f7 g (srcs.map Src.code) rsv with names := names } s fun cx s =>
    match cx.lead with
    | none => .done s none
    | some j => cx.checked (readsOf srcs (laneBit j)) s fun s => f cx j (cx.noteSrcs srcs s)

/-! ## `put`, `get`, `putv` (R346 to R349) -/

/-- A code that names an address or parameter quad. -/
def quadCode (c : Code) : Bool := decide (c.toNat = 96) || decide (c.toNat = 100) || decide (c.toNat = 104) || decide (c.toNat = 108)

/-- A scalar word of the quad at code `c`. -/
def Cx.quad (cx : Cx) (c : Code) (i : Nat) : Word := cx.w.sreg (c.toNat - 96 + i)

/-- A 64-bit address in two words of a quad. -/
def Cx.quadPair (cx : Cx) (c : Code) (i : Nat) : Nat := (cx.quad c i).toNat + 2 ^ 32 * (cx.quad c (i + 1)).toNat

/-- The uses of a quad's four registers. -/
def quadUse (c : Code) (j : Nat) : List Use := if quadCode c then [{ code := c, n := 4, lanes := laneBit j }] else []

/-- A store-window source or destination where a transfer allows none, or one beyond SPACE 00 (R348). -/
def windowTrap (lane sub base : Nat) : Trap := { cause := .window, sub := sub, lane := lane, addr := base }

/-- The frame of `put` and `get`. -/
def quadWord (f7 : Nat) (g : BitVec 4) (d a : Code) (rsvWords : List Nat) (f : Cx → Nat → State → Res) (s : State) : State :=
  issue (tInfo f7 g [d, a] false) s fun cx s =>
    match cx.lead with
    | none => .done s none
    | some j =>
      if !quadCode d ∨ !quadCode a then .trap (badColl j 0)
      else cx.checked (quadUse d j ++ quadUse a j) s fun s =>
        f cx j (cx.warn s (warnIf (rsvWords.any fun i => decide (cx.quad a i ≠ 0)) wRSV))

/-- What is wrong with the parameter words (R346, R348), by ascending offset: a length that is 0 or no multiple of 4, a target block
the grid does not have, zero bits that are set, a counter outside the scratchpad. -/
def Cx.quadBad (cx : Cx) (s : State) (a : Code) (j : Nat) (target : Bool) : List (Bool × Trap) :=
  let len := ((cx.quad a 0).extractLsb' 0 24).toNat
  let c := cx.quad a 2
  let nblk := ((s.grid? cx.b.gid).map GridRun.nblk).getD 0
  [(decide (len = 0) || decide (len % 4 ≠ 0), badColl j 0), (target && decide (nblk ≤ (cx.quad a 1).toNat), badColl j 4),
    (decide (c.extractLsb' 16 14 ≠ 0) || (c.getLsbD 31 && decide (cx.b.scratchSize < 16 * (c.extractLsb' 0 16).toNat + 16)), badColl j 8)]

/-- The counter record of a parameter quad with CNT set (R348). -/
def Cx.quadCnt (cx : Cx) (a : Code) : Option Nat :=
  let c := cx.quad a 2
  if c.getLsbD 31 then some (16 * (c.extractLsb' 0 16).toNat) else none

/-- A place whose writes are counted at a record of a block (R348). -/
def countAt (bid : Nat) (cnt : Option Nat) : Place → Place
  | .mem key va pg sync _ => .mem key va pg sync (cnt.map fun r => (bid, r))
  | .scr off => match cnt with
      | some r => .blk bid off (some r)
      | none => .scr off
  | p => p

/-- R346, R348: `put` sends L bytes to memory or to a block's scratchpad. -/
def execPut (g : BitVec 4) (d a : Code) (s : State) : Host.Outcome State Fault Refusal :=
  .next (quadWord 1 g d a [3] (fun cx j s =>
    let len := ((cx.quad a 0).extractLsb' 0 24).toNat
    let bid := (cx.quad a 1).toNat
    let dst := cx.quadPair d 0
    let src := cx.quadPair d 2
    let spd := (cx.quad a 2).getLsbD 30
    passes (cx.quadBad s a j true ++ [(spd && (decide (2 ^ 25 ≤ dst) || decide (cx.b.scratchSize < dst + len)), badColl j 0)])
      (match cx.b.arrivalTrap j (cx.quad a 0) with
      | some t => .trap t
      | none =>
        passes [(decide (addrForm src = 15) && decide (src / 2 ^ 30 % 4 ≠ 0), windowTrap j 5 src),
            (!spd && decide (addrForm dst = 15), windowTrap j 6 dst),
            (spd && decide (dst % 4 ≠ 0), { cause := .alignment, sub := 6, lane := j, addr := dst })]
          (cx.engine .coll (arrivalOf (cx.quad a 0)) 4 [{ lane := j, src := src, dst := dst, len := len }]
            (if spd then some fun p => .blk bid p (cx.quadCnt a) else none)
            (fun x => countAt bid (cx.quadCnt a) (cx.enginePlace x)) s))) s)

/-- R346, R348: `get` brings L bytes to memory or to the block's own scratchpad; bit 30 of sr+2 is ignored (log 23: DESIGN CHOICE). -/
def execGet (g : BitVec 4) (d a : Code) (s : State) : Host.Outcome State Fault Refusal :=
  .next (quadWord 2 g d a [1, 3] (fun cx j s =>
    let len := ((cx.quad a 0).extractLsb' 0 24).toNat
    let dst := cx.quadPair d 0
    let src := cx.quadPair d 2
    let own := decide (addrForm dst = 15) && decide (dst / 2 ^ 25 % 2 ^ 35 = 0)
    passes (cx.quadBad s a j false ++ [(own && decide (cx.b.scratchSize < dst % 2 ^ 25 + len), badColl j 0)])
      (match cx.b.arrivalTrap j (cx.quad a 0) with
      | some t => .trap t
      | none =>
        passes [(decide (addrForm src = 15), windowTrap j 5 src)]
          (cx.engine .coll (arrivalOf (cx.quad a 0)) 4 [{ lane := j, src := src, dst := dst, len := len }] none
            (fun x => countAt cx.b.bid (cx.quadCnt a) (cx.enginePlace x)) s))) s)

/-- R349: `putv` sends one register row to a block's scratchpad. -/
def execPutv (g : BitVec 4) (d a : Code) (s : State) : Host.Outcome State Fault Refusal :=
  .next (issue (tInfo 3 g [d, a] false) s fun cx s =>
    match cx.lead with
    | none => .done s none
    | some j =>
      if d.toNat < 96 ∨ 112 ≤ d.toNat then .trap (badColl j 0)
      else
        let srcs : List Src := [pairSrc d, { code := a }]
        cx.checked (readsOf [pairSrc d] (laneBit j) ++ readsOf [{ code := a }] cx.q) s fun s =>
          let s := cx.noteSrcs srcs s
          let v := cx.val (pairSrc d) j
          let bid := (v.extractLsb' 0 32).toNat
          let w := v.extractLsb' 32 32
          let off := 128 * (w.extractLsb' 16 12).toNat
          let rec_ := 16 * (w.extractLsb' 0 16).toNat
          let cnt := w.getLsbD 31
          passes [(decide (((s.grid? cx.b.gid).map GridRun.nblk).getD 0 ≤ bid), badColl j 0),
              (decide (w.extractLsb' 28 3 ≠ 0) || decide (cx.b.scratchSize < off + 128) || (cnt && decide (cx.b.scratchSize < rec_ + 16)),
                badColl j 4)]
            (cx.room .coll s fun s =>
              let id := s.fresh
              let op : EngOp := { id := id, cls := .coll, left := 1, dst := if bid = cx.b.bid then [(blkKey bid off, 128)] else [] }
              let s := s.counted.modWarp cx.k fun w => { w with ops := w.ops ++ [op] }
              let acc := { cx.access s 0 0 0 0 0 with op := id }
              let data := allLanes.flatMap fun i => leBytes 4 (if inSet cx.q i then (cx.val32 { code := a } i).toNat else 0)
              .done (s.counted.sendBlock cx.b.chip cx.b.gid bid
                { acc := acc, parts := [{ off := 0, len := 128, place := .blk bid off (if cnt then some rec_ else none) }], data := data })
                none))

/-! ## Arrival counters (R350, R351) -/

/-- The fault of a counter record's offset, as R200's of a scratchpad word. -/
def Cx.counterFault (cx : Cx) (sub j off : Nat) : Option Trap :=
  if cx.b.scratchSize < off + 16 then some { cause := .scratch, sub := sub, lane := j, addr := off }
  else if off % 16 ≠ 0 then some { cause := .alignment, sub := sub, lane := j, addr := off }
  else none

/-- R350: writes TARGET of a counter record. -/
def execArm (g : BitVec 4) (d a : Code) (s : State) : Host.Outcome State Fault Refusal :=
  .next (transferWord 4 g [{ code := d }, pairSrc a] false (fun cx j s =>
    let off := (cx.val32 { code := d } j).toNat
    match cx.counterFault 1 j off with
    | some t => .trap t
    | none => .done ((s.modBlock cx.b.node fun b => b.putScratch (off + 8) (dwBytes 8 (cx.val (pairSrc a) j))).recount cx.b.node) none) s)

/-- R351: waits until COUNT has reached TARGET, then acts as `fence.acq`. A gang that a change of the record has released goes on,
whatever the record holds by then. -/
def execAwait (g : BitVec 4) (d a : Code) (s : State) : Host.Outcome State Fault Refusal :=
  .next (transferWord 5 g [{ code := d }] (decide (a ≠ 0)) (fun cx j s =>
    let off := (cx.val32 { code := d } j).toNat
    match cx.counterFault 0 j off with
    | some t => .trap t
    | none => cx.soundSpots [(.scr off, 16)] s fun s =>
      if !cx.half ∧ leNat (memBytes cx.b.scratch off 8) < leNat (memBytes cx.b.scratch (off + 8) 8) then .stall s (.counter off)
      else .done (cx.acquire s) none) s)

/-! ## Rank and size (R312) -/

/-- A group of a block's grid, when the entry is valid. -/
def State.groupOf (s : State) (b : Block) (n : Nat) : Option Group :=
  if n < 256 then (s.grid? b.gid).bind fun g => tabLook g.groups n else none

/-- The frame of `grank` and `gsize`: with an s destination and a scalar source the scalar pipe runs them, and every role may. -/
def rankWord (f7 : Nat) (g : BitVec 4) (d a : Code) (f : Block → State → Nat → Nat) (s : State) : State :=
  let scalar := scalarCode a && decide (96 ≤ d.toNat) && decide (d.toNat < 112)
  let info : OpInfo := { tInfo f7 g [a] false with names := dstName d, roles := if scalar then [.gen, .copy, .mtx, .vec] else [.gen, .copy] }
  issue info s fun cx s =>
    let pick := if scalar then cx.lead else lowestLane cx.q
    match pick with
    | none => .done s none
    | some j =>
      cx.checked (readsOf [{ code := a }] (laneBit j) ++ [dstUse d cx.q]) s fun s =>
        let s := cx.noteSrcs [{ code := a }] s
        .done (cx.writeOnce s d false (BitVec.ofNat 64 (f cx.b s (cx.val32 { code := a } j).toNat))) none

/-- R312: the block's rank in a group. -/
def execGrank (g : BitVec 4) (d a : Code) (s : State) : Host.Outcome State Fault Refusal :=
  .next (rankWord 6 g d a (fun b s n => match s.groupOf b n with
    | some grp => (((indexed grp.members).find? fun p => decide (p.2 = b.bid)).map Prod.fst).getD 0xFFFFFFFF
    | none => 0xFFFFFFFF) s)

/-- R312: the member count of a group. -/
def execGsize (g : BitVec 4) (d a : Code) (s : State) : Host.Outcome State Fault Refusal :=
  .next (rankWord 7 g d a (fun b s n => match s.groupOf b n with
    | some grp => grp.members.length
    | none => 0) s)

/-! ## Reads and writes that an instruction makes at issue (R313, R325) -/

/-- Bytes of one line read at its home at once, on behalf of a warp: none where they hold an error that the read consumes. -/
def State.readNow (s : State) (a : Access) (key n : Nat) : State × Option (List Byte) :=
  let line := key / 128
  let a := { a with line := line }
  let s := if (s.line line).sync.isSome then s else s.mergeLine line
  let s := s.examine line
  let m := partBytes [(key % 128, n)]
  match (s.line line).consumed m with
  | some (kind, cls) => (s.consume a kind cls, none)
  | none =>
    let s := (s.dependOn a.node line).touch line a.rv a.alloc
    (s.breach a ((s.line line).racyFor a.node (s.podTime (s.homeOf line)) m), some (s.bytesAt key n))

/-- Bytes at a place of memory, or nothing elsewhere. -/
def State.readPlace (s : State) (a : Access) (p : Place) (n : Nat) : State × Option (List Byte) :=
  match p with
  | .mem key _ _ _ _ => s.readNow a key n
  | _ => (s, some [])

/-- Several places read one after another, joined. -/
def readPlaces (a : Access) : List (Place × Nat) → State → State × Option (List Byte)
  | [], s => (s, some [])
  | (p, n) :: r, s =>
    match s.readPlace a p n with
    | (s, none) => (s, none)
    | (s, some l) => match readPlaces a r s with
      | (s, some t) => (s, some (l ++ t))
      | (s, none) => (s, none)

/-- Parts of one line written at its home at once, as a staged write of a block (R271, R281): its completion time, none for a write
that switches later (R274), which is acknowledged to its operation. -/
def State.writeNow (s : State) (a : Access) (parts : List (Nat × List Byte)) : State × Option Nat :=
  let line := a.line
  let s := ((s.mergeLine line).examine line).touch line a.rv a.alloc
  let ct := s.writeCt line a.rc
  if a.sync then
    ((s.modLine line fun h => { h with sync := some { due := ct + 25, ct := ct, cue := { acc := a, op := .store parts } } }).send
      .syncSwitch { line := line }, none)
  else
    let s := ((s.dependOn a.node line).stageUndo a.node line).gridSave a.node line a.rc
    let s := s.putLine line [a.node] ct (partBytes (parts.map fun p => (p.1, p.2.length)))
      (parts.foldl (fun l p => putLineBytes l p.1 p.2) (s.lineData line))
    (s.modBlock a.node fun b => { b with lastCt := max b.lastCt ct }, some ct)

/-! ## Channels (R323 to R325) -/

/-- A request whose message is sent later, as a message. -/
def State.ask (s : State) (c : Cue) : State :=
  let c := { c with acc := { c.acc with id := s.fresh } }
  if scratchLine c.acc.line then s.counted.send .readRequest c
  else s.counted.sendTo (chipOfCore c.acc.core) (s.homeOf c.acc.line) .readRequest c

/-- The request for one piece of a source, for an operation; none for a register row, which is read at issue (log 22: DESIGN CHOICE). -/
def Cx.request (cx : Cx) (op : Nat) (s : State) (x : Spot) (n : Nat) (p : Place) : Option Cue :=
  match x with
  | .glob ea key leaf =>
    some { acc := { cx.access s (key / 128) ea leaf cx.w.pold 0 with op := op }, parts := [{ off := key % 128, len := n, place := p }] }
  | .scr off =>
    let key := blkKey cx.b.bid off
    some { acc := { cx.access s (key / 128) off 0 0 0 with op := op }, parts := [{ off := key % 128, len := n, place := p }] }
  | .reg _ _ _ => none

/-- The requests that bring the sources of a range into an operation's buffer, and the bytes of register rows among them. -/
def Cx.toBuffer (cx : Cx) (op : Nat) (s : State) (l : List (Spot × Nat × Nat)) : List Cue × List Host.Cell :=
  (l.filterMap fun x => cx.request op s x.1 x.2.2 (.buf x.2.1),
    l.foldl (fun m x => match x.1 with
      | .reg _ _ _ => memPut m x.2.1 (s.windowBytes cx.b.node x.2.2 x.1)
      | _ => m) [])

/-- The next sequence, and the distance between two (R323). -/
def nextSeq (n : Nat) : Nat := if n + 1 = 2 ^ 24 then 1 else n + 1
def seqDistance (x n : Nat) : Nat := (n + (2 ^ 24 - 1) - x % (2 ^ 24 - 1)) % (2 ^ 24 - 1)

/-- What is malformed in a channel descriptor, by ascending offset (R323, R325). -/
def descBad (lane : Nat) (l : List Byte) : List (Bool × Trap) :=
  let f := fieldAt l
  [(decide (f 0 8 % 128 ≠ 0) || decide (addrForm (f 0 8) = 15), badColl lane 0), (decide (f 8 4 = 0) || decide (256 < f 8 4), badColl lane 8),
    (decide (f 12 1 = 0) || decide (64 < f 12 1), badColl lane 12), (decide (f 12 1 ≤ f 13 1), badColl lane 13),
    (decide (f 15 1 ≠ 0), badColl lane 15), (decide (f 16 8 % 4 ≠ 0) || decide (addrForm (f 16 8) = 15), badColl lane 16),
    (decide (f 24 4 = 0) || decide (2 ^ 24 ≤ f 24 4), badColl lane 24), (decide ((l.drop 28).any fun b => decide (b ≠ 0)), badColl lane 28)]

/-- The global places of a list of spots. -/
def Cx.places (cx : Cx) (l : List Spot) : List Place := l.map cx.enginePlace

/-- R325: what `chput` and `chget` do up to their engine: the descriptor and every range are checked, SEQ and SLOT advance. `put`
tells `chput`. -/
def Cx.channel (cx : Cx) (d a : Code) (put : Bool) (j : Nat) (s : State) : Res :=
  let da := (cx.val (pairSrc d) j).toNat
  let data := (cx.val (pairSrc a) j).toNat
  passes [(decide (addrForm da = 15), windowTrap j 5 da)]
    (cx.side .load 5 64 [(rangeStrip j da 64, 0, 64)] Strip.src s fun _ =>
    cx.side .store 6 64 [(rangeStrip j da 64, 0, 64)] Strip.src s fun sp =>
      match sp with
      | .glob ea key leaf :: _ =>
        match s.heldBack (key / 128) with
        | some s => .stall s .again
        | none =>
        if s.writtenBefore { node := cx.b.node, warp := cx.k, op := s.fresh + 1 } key 64 then .stall s .again
        else
          let acc := { cx.access s (key / 128) ea leaf cx.w.pold 0 with sync := decide (leafOrd leaf = 1) }
          match s.readNow acc key 64 with
          | (s, none) => .stall s .again
          | (s, some desc) =>
            let f := fieldAt desc
            let lines := f 8 4
            let depth := f 12 1
            let n := f 24 4
            let slot := f 0 8 + f 13 1 * lines * 128
            let arv : Word := BitVec.ofNat 32 (f 14 1 * 2 ^ 24)
            passes (descBad j desc) (match cx.b.arrivalTrap j arv with
            | some t => .trap t
            | none =>
              let ring := (piecesOf [rangeStrip j slot (128 * lines)])
              let body := (piecesOf ((List.range lines).map fun i => rangeStrip j ((data + 124 * i) % 2 ^ 64) 124))
              let bodyOff := fun (x : Strip × Nat × Nat) => (x.1.src + 2 ^ 64 - data) % 2 ^ 64 + x.2.1
              let word := [(rangeStrip j (f 16 8) 4, 0, 4)]
              let load := fun (al : Nat) (l : List (Strip × Nat × Nat)) (s : State) (k : List Spot → Res) => cx.side .load 5 al l Strip.src s k
              let store := fun (al : Nat) (l : List (Strip × Nat × Nat)) (s : State) (k : List Spot → Res) => cx.side .store 6 al l Strip.src s k
              let go := fun (job : Nat → State → Job × List Host.Cell) (dst : List (Nat × Nat)) (s : State) =>
                cx.room .coll s fun s => cx.staged [key / 128] s fun s =>
                  let id := s.fresh
                  let s := s.counted
                  let x := job id s
                  let off := key % 128
                  let w := s.writeNow { acc with op := id }
                    [(off + 13, [BitVec.ofNat 8 ((f 13 1 + 1) % depth)]), (off + 24, leBytes 4 (nextSeq n))]
                  let op : EngOp :=
                    { id := id, cls := .coll, arv := arrivalOf arv, ct := w.2.getD 0, left := if w.2.isNone then 1 else 0
                      bulk := bulkCode cx.info.f7 (124 * lines)
                      acc := { acc with op := id }, desc := key + 1, job := x.1, buf := x.2, dst := dst }
                  let s := (cx.warn w.1 (polWarn cx.w.pold)).modWarp cx.k fun w => { w with ops := w.ops ++ [op] }
                  .done (s.sendOnce .operationRetire { warp := cx.k, cls := .coll }) none
              let keyOf := fun (l : List Spot) => l.headD (.scr 0)
              let memKey := fun (x : Spot) => match x with
                | .glob _ k _ => k
                | _ => 0
              if put then
                load 1 body s fun src =>
                load 4 word s fun cw =>
                store 128 ring s fun dst =>
                  let l := src.zip (body.map Prod.snd)
                  cx.sourced (l.map fun x => (x.1, j, x.2.2)) s fun s => go (fun id s =>
                      let b := cx.toBuffer id s ((src.zip body).map fun x => (x.1, bodyOff x.2, x.2.2.2))
                      (.credit n depth (memKey (keyOf cw)) b.1 (cx.places dst), b.2)) (joinRanges (dst.map fun x => (memKey x, 128))) s
              else
                load 128 ring s fun src =>
                store 1 body s fun dst =>
                store 4 word s fun cw =>
                  let ends := body.zip (cx.places dst)
                  let keys := ends.filterMap fun x => (cx.placeKey x.2).map fun k => (k, x.1.2.2)
                  go (fun id s =>
                    let l := (indexed src).filterMap fun x => (cx.request id s x.2 124 .drop).map fun c =>
                      { c with parts := (ends.filter fun y => decide (bodyOff y.1 / 124 = x.1)).map fun y =>
                          { off := bodyOff y.1 % 124, len := y.1.2.2, place := y.2 } }
                    (.flags n (src.map memKey) l ((cx.places cw).headD .drop), [])) (joinRanges keys ++ [(memKey (keyOf cw), 4)]) s)
      | _ => .trap (windowTrap j 5 da))

/-- R325: sends a chunk into the next slot of a channel. -/
def execChput (g : BitVec 4) (d a : Code) (s : State) : Host.Outcome State Fault Refusal :=
  .next (transferWord 8 g [pairSrc d, pairSrc a] false (fun cx j s => cx.channel d a true j s) s)

/-- R325: takes the next chunk of a channel and frees its slot. -/
def execChget (g : BitVec 4) (d a : Code) (s : State) : Host.Outcome State Fault Refusal :=
  .next (transferWord 9 g [pairSrc d, pairSrc a] false (fun cx j s => cx.channel d a false j s) s)

end Sys2Proof.Machine
end

