-- ==== Sys2Proof/Machine/Collectives.lean ====
section
/-! DEFINITION. `coll` and the retirement of engine operations (10 R292; 11 R313 to R322). -/

namespace Sys2Proof.Machine

/-! ## Combining (R315, R316) -/

/-- One element: its value, or an affine pair's two. -/
abbrev Elem := List Nat

/-- Whether TYPE is a float, and an operation's name for the reductions of R155: sum, max, min, amax. -/
def collFloat (ty : Nat) : Bool := decide (ty < 4)
def collName (flt : Bool) (comb : Nat) : Nat :=
  match comb with
  | 0 => if flt then 6 else 0
  | 1 => if flt then 8 else 2
  | 2 => if flt then 7 else 1
  | _ => 9

/-- op(u, w) of R316, u covering the lower ranks, with its flags. -/
def collOp (comb ty : Nat) (u w : Elem) : Elem × Flags :=
  let x := u.headD 0
  let y := w.headD 0
  if comb = 4 then
    let f := (fmtOf ty).getD f32Fmt
    let p := fmulRes false f .rne x y
    let q := fmaRes false f .rne (u.getD 1 0) y (w.getD 1 0)
    ([p.bits, q.bits], p.fl ||| q.fl)
  else if collFloat ty then
    let r := fltReduce ((fmtOf ty).getD f32Fmt) .rne (collName true comb) x y
    ([r.bits], r.fl)
  else ([intReduce ((itypeOf ty).getD ⟨true, 32, 1⟩) (collName false comb) x y], 0)

/-- A leaf: amax takes |x| (R316). -/
def collLeaf (comb ty : Nat) (x : Elem) : Elem :=
  if comb = 3 then x.map fun v => (fabsRes ((fmtOf ty).getD f32Fmt) v).bits else x

/-- The identity of an exclusive scan (R156, R315). -/
def collIdent (comb ty : Nat) : Elem :=
  let f := (fmtOf ty).getD f32Fmt
  if comb = 4 then [(roundFV f .rne false fvOne).bits, 0]
  else if collFloat ty then [fltIdent f (collName true comb)]
  else [intIdent ((itypeOf ty).getD ⟨true, 32, 1⟩) (collName false comb)]

/-- Two parts joined, with the flags so far. -/
def joinElem (op : Elem → Elem → Elem × Flags) (u w : Elem × Flags) : Elem × Flags :=
  let r := op u.1 w.1
  (r.1, u.2 ||| w.2 ||| r.2)

/-- One level of the tree over ranks. -/
def pairElems (op : Elem → Elem → Elem × Flags) : List (Elem × Flags) → List (Elem × Flags)
  | u :: w :: r => joinElem op u w :: pairElems op r
  | l => l

/-- The tree over the lowest ranks; absent leaves lie above them (R316). -/
def treeElems (op : Elem → Elem → Elem × Flags) : Nat → List (Elem × Flags) → Option (Elem × Flags)
  | 0, l => l.head?
  | n + 1, l => if l.length ≤ 1 then l.head? else treeElems op n (pairElems op l)

/-- The fold in rank order. -/
def foldElems (op : Elem → Elem → Elem × Flags) : List (Elem × Flags) → Option (Elem × Flags)
  | [] => none
  | x :: r => some (r.foldl (joinElem op) x)

/-- comb of the elements of the lowest ranks (R316). -/
def combine (comb ty order : Nat) (l : List Elem) : Elem × Flags :=
  let leaves := l.map fun x => (collLeaf comb ty x, (0 : Flags))
  let r := if order = 0 then foldElems (collOp comb ty) leaves else treeElems (collOp comb ty) l.length leaves
  r.getD (collIdent comb ty, 0)

/-! ## The parameter block (R314) -/

/-- A field of a member's parameter block. -/
def CollMem.par (m : CollMem) (off n : Nat) : Nat := fieldAt m.pars off n

/-- Whether an operation combines: OP 0, 1, 5 and 6. -/
def collReduces (op : Nat) : Bool := decide (op = 0) || decide (op = 1) || decide (op = 5) || decide (op = 6)

/-- Bytes of a value of TYPE, and of an element: twice that for affine pairs. -/
def valueSize (ty : Nat) : Nat := max 1 (codeWidth ty / 8)
def elemSize (op comb ty : Nat) : Nat := if collReduces op ∧ comb = 4 then 2 * valueSize ty else valueSize ty

/-- Whether TYPE is accepted for OP (R314). -/
def collType (op ty : Nat) : Bool :=
  decide (ty < 4) || (decide (8 ≤ ty) && decide (ty < 12)) || ((decide (op = 2) || decide (op = 4)) && decide (ty < 12))

/-- What R317 asks of ALG 3. -/
def homeDrivenOk (l : List Byte) (members : List Nat) : Bool :=
  let f := fun (k : Nat) => fieldAt l k 1
  decide (f 0 = 0) && decide (f 1 ≤ 2) && decide (f 4 = 1) && (decide (f 2 = 0) || decide (f 2 = 3) || (decide (8 ≤ f 2) && decide (f 2 < 12)))
    && (members.zip (members.drop 1)).all fun p => decide (p.1 < p.2)

/-- What is malformed in a parameter block, by ascending offset (R313, R314, R317). -/
def collBad (lane : Nat) (l : List Byte) (members : List Nat) : List (Bool × Trap) :=
  let f := fieldAt l
  let op := f 0 1
  let window := fun (k : Nat) => decide (addrForm (f k 8) = 15)
  let size := elemSize op (f 1 1) (f 2 1)
  [(decide (7 < op), badColl lane 0),
    (if collReduces op then decide (4 < f 1 1) || (decide (3 ≤ f 1 1) && !collFloat (f 2 1)) else decide (f 1 1 = 4), badColl lane 1),
    (!collType op (f 2 1), badColl lane 2), (decide (3 < f 3 1) || (decide (f 3 1 = 3) && !homeDrivenOk l members), badColl lane 3),
    (decide (1 < f 4 1), badColl lane 4), (decide (f 5 1 ≠ 0), badColl lane 5), (decide (255 < f 6 2), badColl lane 6),
    (decide (op = 4) && !members.isEmpty && decide (members.length ≤ f 8 4), badColl lane 8),
    (decide (op ≠ 3) && decide (op ≠ 7) && (decide (f 12 4 = 0) || decide (2 ^ 24 < f 12 4)), badColl lane 12),
    (window 16 || decide (f 16 8 % size ≠ 0), badColl lane 16), (window 24 || decide (f 24 8 % size ≠ 0), badColl lane 24),
    (decide (f 32 4 = 0) || decide (f 32 4 % 124 ≠ 0) || decide (31744 < f 32 4), badColl lane 32),
    (decide (f 36 1 = 0) || decide (64 < f 36 1), badColl lane 36), (decide (f 38 2 ≠ 0), badColl lane 38),
    (decide (op = 3) && decide (2 ^ 24 < f 40 4), badColl lane 40),
    (decide (op = 3) && (decide (f 44 4 = 0) || decide (f 44 4 % 4 ≠ 0) || decide (4096 < f 44 4)), badColl lane 44),
    (window 48, badColl lane 48), (window 56, badColl lane 56), (window 64 || decide (f 64 8 % 32 ≠ 0), badColl lane 64),
    (decide ((l.drop 72).any fun b => decide (b ≠ 0)), badColl lane 72)]

/-! ## Issue (R313, R320) -/

/-- Where a range's bytes lie, piece by piece. -/
def Cx.placed (cx : Cx) (l : List Spot) (p : List (Strip × Nat × Nat)) : List (Place × Nat) :=
  (cx.places l).zip (p.map fun x => x.2.2)

/-- R313: the collective's checks, and its operation put under way: the member's SRC is read into the operation's buffer. -/
def Cx.collective (cx : Cx) (j base : Nat) (s : State) : Res :=
  passes [(decide (addrForm base = 15), windowTrap j 5 base)]
    (cx.side .load 5 128 [(rangeStrip j base 128, 0, 128)] Strip.src s fun sp =>
      match cx.placed sp [(rangeStrip j base 128, 0, 128)] with
      | (.mem key ea pg sync _, _) :: _ =>
        let acc := { cx.access s (key / 128) ea 0 cx.w.pold 0 with rc := pg.rc, enc := pg.enc, alloc := pg.alloc, sync := sync }
        match s.readNow acc key 128 with
        | (s, none) => .stall s .again
        | (s, some l) =>
          let f := fieldAt l
          let op := f 0 1
          let grp := f 6 2
          let members := ((s.groupOf cx.b grp).map Group.members).getD []
          let rank := ((indexed members).find? fun p => decide (p.2 = cx.b.bid)).map Prod.fst
          let n := members.length
          let size := elemSize op (f 1 1) (f 2 1)
          let c := f 12 4
          let arv : Word := BitVec.ofNat 32 (f 37 1 * 2 ^ 24)
          passes (collBad j l members) (match rank with
          | none => .trap { cause := .group, lane := j, addr := grp }
          | some r =>
            match cx.b.arrivalTrap j arv with
            | some t => .trap t
            | none =>
              let part := fun (b : Bool) (base len : Nat) => if b then piecesOf [rangeStrip j base len] else []
              let cnts := part (decide (op = 3)) (f 48 8) (4 * n)
              let rcnt := part (decide (op = 3)) (f 56 8) (4 * n)
              let dst := part (decide (op ≠ 7)) (f 24 8)
                (if op = 3 then f 40 4 * f 44 4 else if op = 2 then n * c * size else c * size)
              let crec := part true (f 64 8) 32
              cx.side .load 5 1 cnts Strip.src s fun cs =>
                match readPlaces acc (cx.placed cs cnts) s with
                | (s, none) => .stall s .again
                | (s, some cl) =>
                  let counts := (List.range n).map fun i => fieldAt cl (4 * i) 4
                  let src := part (decide (op ≠ 7) && (decide (op ≠ 4) || decide (f 8 4 = r))) (f 16 8)
                    (if op = 3 then (if counts.isEmpty then 0 else counts.foldl (· + ·) 0 * f 44 4) else if op = 1 then n * c * size else c * size)
                  cx.side .load 5 1 src Strip.src s fun from_ =>
                  cx.side (if f 3 1 = 3 then .atomic else .store) 6 1 dst Strip.src s fun out =>
                  cx.side .store 6 1 rcnt Strip.src s fun rs =>
                  cx.side .store 6 1 crec Strip.src s fun ds =>
                    cx.room .coll s fun s =>
                      let go := fun (s : State) =>
                        let inst := (tabLook cx.b.collCount grp).getD 0
                        let id := s.fresh
                        let s := s.counted
                        let reads := (cx.toBuffer id s ((from_.zip src).map fun x => (x.1, x.2.2.1, x.2.2.2))).1
                        let places := cx.placed out dst
                        let key := fun (p : Place × Nat) => (cx.placeKey p.1).map fun k => (k, p.2)
                        let e : EngOp :=
                          { id := id, cls := .coll, arv := arrivalOf arv, left := reads.length, acc := { acc with op := id }
                            bulk := bulkCode cx.info.f7 (max ((src.map fun x => x.2.2).foldl (· + ·) 0) ((dst.map fun x => x.2.2).foldl (· + ·) 0))
                            dst := joinRanges ((places ++ cx.placed rs rcnt ++ cx.placed ds crec).filterMap key), job := .gather cx.b.gid grp inst }
                        let m : CollMem :=
                          { node := cx.b.node, bid := cx.b.bid, rank := r, warp := cx.k, op := id, pars := l, cnts := counts
                            dst := places, rcnt := cx.placed rs rcnt, crec := cx.placed ds crec }
                        let here := fun (x : Coll) => decide (x.gid = cx.b.gid) && decide (x.group = grp) && decide (x.inst = inst)
                        let s := if s.colls.any here then
                            { s with colls := s.colls.map fun x => if here x then { x with mem := x.mem ++ [m] } else x }
                          else { s with colls := s.colls ++ [{ gid := cx.b.gid, group := grp, inst := inst, mem := [m] }] }
                        let s := (cx.warn s (polWarn cx.w.pold)).modBlock cx.b.node fun b =>
                          { b with collCount := tabPut b.collCount grp (inst + 1) }
                        let s := s.modWarp cx.k fun w => { w with ops := w.ops ++ [e] }
                        .done ((reads.foldl State.ask s).sendOnce .operationRetire { warp := cx.k, cls := .coll }) none
                      if op = 7 then cx.afterRelease 2 false s go else go s)
      | _ => .trap (windowTrap j 5 base))

/-- R313: `coll`. -/
def execColl (g : BitVec 4) (d a : Code) (s : State) : Host.Outcome State Fault Refusal :=
  .next (transferWord 0 g [pairSrc a] (decide (d ≠ 0)) (fun cx j s => cx.collective j (cx.val (pairSrc a) j).toNat s) s [d])

/-! ## Delivery (R315, R318, R319, R321, R322) -/

/-- Element i of a member's data. -/
def CollMem.elem (m : CollMem) (i : Nat) : Elem :=
  let n := valueSize (m.par 2 1)
  let size := elemSize (m.par 0 1) (m.par 1 1) (m.par 2 1)
  (List.range (size / n)).map fun k => leNat (memBytes m.data (i * size + k * n) n)

/-- The bytes of an element. -/
def elemBack (n : Nat) (x : Elem) : List Byte := x.flatMap (leBytes n)

/-- The parameters that members exchange (R318): OP, COMB, TYPE, ALG, ORDER, COUNT and ROOT, ROWB for OP 3 and DST for ALG 3. -/
def CollMem.shared (m : CollMem) : List Nat :=
  let op := m.par 0 1
  [op, m.par 1 1, m.par 2 1, m.par 3 1, m.par 4 1, m.par 12 4, m.par 8 4,
    if op = 3 then m.par 44 4 else 0, if m.par 3 1 = 3 then m.par 24 8 else 0]

/-- R322: the rows granted to each sender, in ascending rank, of those each has for a destination. -/
def grants : Nat → List Nat → List Nat
  | _, [] => []
  | free, n :: r => min n free :: grants (free - min n free) r

/-- What a member receives: DST's bytes, RCNT's, flags, STATUS code, DROPPED, RECEIVED, and whose data it holds. -/
structure Delivery where
  out : List Byte := []
  rcnt : List Byte := []
  fl : Flags := 0
  code : Nat := 0
  dropped : Nat := 0
  received : Nat := 0
  froms : List Nat := []
deriving DecidableEq, Repr

/-- R315, R322: the outputs of member m of an instance whose members, in rank order, are `l`. -/
def delivery (l : List CollMem) (m : CollMem) : Delivery :=
  let op := m.par 0 1
  let comb := m.par 1 1
  let ty := m.par 2 1
  let c := m.par 12 4
  let order := m.par 4 1
  let n := valueSize ty
  let nodes := l.map CollMem.node
  let run := fun (ms : List CollMem) (idx : List Nat) =>
    let r := idx.map fun i => combine comb ty order (ms.map fun x => x.elem i)
    ({ out := r.flatMap fun x => elemBack n x.1, fl := r.foldl (fun a x => a ||| x.2) 0, froms := ms.map CollMem.node } : Delivery)
  if l.any fun x => decide (x.shared ≠ ((l.headD m).shared)) then { code := 1 }
  else match op with
    | 0 => run l (List.range c)
    | 1 => run l ((List.range c).map fun i => m.rank * c + i)
    | 2 => { out := l.flatMap fun x => memBytes x.data 0 (c * n), froms := nodes }
    | 4 =>
      let root := l.getD (m.par 8 4) m
      { out := memBytes root.data 0 (c * n), froms := [root.node] }
    | 5 => run (l.take (m.rank + 1)) (List.range c)
    | 6 => run (l.take m.rank) (List.range c)
    | 3 =>
      let row := m.par 44 4
      let sent := fun (x : CollMem) (d : Nat) => x.cnts.getD d 0
      let granted := fun (d : CollMem) => grants (d.par 40 4) (l.map fun x => sent x d.rank)
      let mine := granted m
      let rows := fun (x : CollMem) (g : Nat) =>
        memBytes x.data (row * ((x.cnts.take m.rank).foldl (· + ·) 0)) (row * g)
      let lost := (l.map fun d => sent m d.rank - (granted d).getD m.rank 0).foldl (· + ·) 0
      { out := (l.zip mine).flatMap fun p => rows p.1 p.2, rcnt := mine.flatMap (leBytes 4), code := if lost = 0 then 0 else 2
        dropped := lost, received := mine.foldl (· + ·) 0
        froms := ((l.zip mine).filter fun p => decide (p.2 ≠ 0)).map fun p => p.1.node }
    | _ => {}

/-- The completion record (R319). -/
def collRecord (d : Delivery) (inst : Nat) : List Byte :=
  leBytes 4 (2 ^ 31 + d.code) ++ leBytes 4 d.fl.toNat ++ leBytes 4 d.dropped ++ leBytes 4 d.received ++ leBytes 4 inst ++ List.replicate 12 0

/-- Bytes laid out over places. -/
def spread : List (Place × Nat) → List Byte → List (Place × List Byte)
  | [], _ => []
  | (p, n) :: r, l => if l.isEmpty then [] else (p, l.take n) :: spread r (l.drop n)

/-! ## The steps of an operation after its first pieces (R292, R313, R325) -/

/-- An engine's write of an operation to a place, one more piece under way. -/
def State.pieceOut (s : State) (a : Access) (x : Place × List Byte) : State :=
  match x.1 with
  | .mem key va pg sync cnt => s.engineWrite a key va pg sync cnt x.2
  | _ => s

/-- Requests of an operation go out, each a piece under way. -/
def State.askAll (s : State) (k op : Nat) (l : List Cue) : State :=
  l.foldl State.ask (s.modOp k op fun o => { o with left := o.left + l.length })

/-- The members of an instance in rank order. -/
def byRank (c : Coll) (n : Nat) : List CollMem := (List.range n).filterMap fun r => c.mem.find? fun m => decide (m.rank = r)

/-- Changes the member of an instance that an operation is. -/
def State.modMember (s : State) (gid grp inst op : Nat) (f : CollMem → CollMem) : State :=
  { s with colls := s.colls.map fun c =>
      if c.gid = gid ∧ c.group = grp ∧ c.inst = inst then { c with mem := c.mem.map fun m => if m.op = op then f m else m } else c }

/-- R317: a member's data as contributions to one line of DST: (byte offset, value). -/
def rdcParts (ty : Nat) (l : List Byte) (off : Nat) : List (Nat × Nat) :=
  let n := elemBytes ty
  (List.range (l.length / n)).map fun i => (off + n * i, fieldAt l (n * i) n)

/-- The type of R20 of a TYPE that ALG 3 accepts, and its operation of R20. -/
def rdcType (ty : Nat) : Nat :=
  match ty with
  | 0 => 4
  | 3 => 5
  | t => t - 8
def rdcOp (comb : Nat) : Nat :=
  match comb with
  | 0 => 0
  | 1 => 2
  | _ => 1

/-- R255, R317: one member's contributions are combined into its partials, and the home is told of each line (R273). -/
def State.contributeAll (s : State) (m : CollMem) (idx : Nat) : State :=
  let ty := rdcType (m.par 2 1)
  let op := rdcOp (m.par 1 1)
  (spread m.dst (memBytes m.data 0 ((m.dst.map Prod.snd).foldl (· + ·) 0))).foldl (fun s x => match x.1 with
    | .mem key _ pg _ _ =>
      let line := key / 128
      let p : Partial := { line := line, warp := m.warp, node := m.node, bid := m.bid, idx := idx, op := op, ty := ty, rc := pg.rc }
      (s.addPartial p (rdcParts ty x.2 (key % 128))).performWrite
        { acc := { node := m.node, warp := m.warp, line := line, rc := pg.rc, enc := pg.enc, alloc := pg.alloc }, op := .join }
    | _ => s) s

/-- The instance an operation belongs to, with its members once every one of them has brought its data, and the member itself. -/
def State.meeting (s : State) (gid grp inst op : Nat) : Option (List CollMem × CollMem) :=
  match s.colls.find? fun c => decide (c.gid = gid) && decide (c.group = grp) && decide (c.inst = inst) with
  | none => none
  | some c =>
    let n := (((s.grid? gid).bind fun g => tabLook g.groups grp).map fun g => g.members.length).getD 0
    let l := byRank c n
    if l.length = n ∧ l.all CollMem.ready then (c.mem.find? fun m => decide (m.op = op)).map fun m => (l, m) else none

/-- Sets what an operation does next. -/
def State.setJob (s : State) (k op : Nat) (j : Job) : State := s.modOp k op fun o => { o with job := j }

/-- The flag word of a line of a slot (R324), and a slot's lines from a chunk's data. -/
def flagWord (i n : Nat) : Nat := n + 2 ^ 24 * i
def chunkLine (buf : List Host.Cell) (n i : Nat) : List Byte := memBytes buf (124 * i) 124 ++ leBytes 4 (flagWord i n)

/-- The next part of an operation that has no piece under way. -/
def State.stepJob (s : State) (k : Nat) (o : EngOp) : State :=
  match o.job with
  | .idle => s
  | .credit n depth word reads lines =>
    (match s.readNow o.acc word 4 with
    | (s, none) => s
    | (s, some l) => if depth < seqDistance (leNat l) n then s else (s.setJob k o.id (.fill n lines)).askAll k o.id reads)
  | .fill n lines =>
    (indexed lines).foldl (fun s x => s.pieceOut o.acc (x.2, chunkLine o.buf n x.1)) (s.setJob k o.id .idle)
  | .flags n lines reads credit =>
    let r := readPlaces o.acc (lines.map fun key => (.mem (key + 124) 0 {} false none, 4)) s
    (match r with
    | (s, none) => s
    | (s, some l) =>
      if (List.range lines.length).all fun i => fieldAt l (4 * i) 4 = flagWord i n then
        (s.setJob k o.id (.writes [(credit, leBytes 4 n)])).askAll k o.id reads
      else s)
  | .writes l => l.foldl (fun s x => s.pieceOut o.acc x) (s.setJob k o.id .idle)
  | .gather gid grp inst =>
    (s.modMember gid grp inst o.id fun m => { m with data := o.buf, ready := true }).setJob k o.id (.meet gid grp inst)
  | .meet gid grp inst =>
    (match s.meeting gid grp inst o.id with
    | none => s
    | some (l, m) =>
      let d := delivery l m
      if m.par 3 1 = 3 ∧ d.code ≠ 1 then
        ((s.contributeAll m (k % 32)).modMember gid grp inst o.id fun m => { m with given := true }).setJob k o.id (.merge gid grp inst)
      else
        let s := d.froms.foldl (fun s n => s.dependNode m.node n) s
        let s := s.modMember gid grp inst o.id fun m => { m with done := true }
        let s := s.setJob k o.id (.writes (spread m.crec (collRecord d inst)))
        (if d.code = 1 then [] else spread m.dst d.out ++ spread m.rcnt d.rcnt).foldl (fun s x => s.pieceOut o.acc x) s)
  | .merge gid grp inst =>
    (match s.meeting gid grp inst o.id with
    | none => s
    | some (l, m) =>
      if l.all CollMem.given then
        let keys := (m.dst.filterMap fun p => match p.1 with
          | .mem key _ _ _ _ => some (key / 128)
          | _ => none).eraseDups
        let s := keys.foldl (fun s line => s.mergeInTurn line) s
        -- a pending switch or the host's copy may still stand in the way of a line (R274, R422)
        if s.partials.any fun p => p.merged.isNone && decide (p.warp = m.warp) && keys.contains p.line then s
        else
        let s := l.foldl (fun s x => s.dependNode m.node x.node) s
        let last := ((s.block? m.node).map Block.lastCt).getD 0
        let s := s.modOp k o.id fun o => { o with ct := max o.ct last }
        (s.modMember gid grp inst o.id fun m => { m with done := true }).setJob k o.id (.writes (spread m.crec (collRecord {} inst)))
      else s)

/-- Whether an operation still has a part to do. -/
def EngOp.busy (o : EngOp) : Bool := decide (o.left ≠ 0) || decide (o.job ≠ .idle)

/-- One round of the parts that operations of a class may do: operations on one descriptor go in issue order (R325). -/
def State.stepJobs (s : State) (k : Nat) (cls : OpClass) : State :=
  (((s.warp? k).map Warp.ops).getD []).foldl (fun (s : State) (o : EngOp) =>
    let ops := ((s.warp? k).map Warp.ops).getD []
    let held := decide (o.desc ≠ 0) && ops.any fun x => decide (x.id < o.id) && decide (x.desc = o.desc) && x.busy
    if o.cls = cls ∧ o.left = 0 ∧ o.job ≠ .idle ∧ !held then s.stepJob k o else s) s

/-- R292, R278: the oldest operations of a class retire, in issue order, once complete: their completion times count for the warp,
their flags are raised, and an engine arrival is made. What they read and wrote the warp has now read and written: no copy older than
that serves its core any more (R276). -/
def State.retireOps (k : Nat) (cls : OpClass) : Nat → State → State
  | 0, s => s
  | fuel + 1, s =>
    match s.warp? k with
    | none => s
    | some w =>
      match w.ops.find? fun o => decide (o.cls = cls) with
      | none => s
      | some o =>
        if o.busy then s
        else
          let s := s.modWarp k fun w =>
            let w := { (w.addFlags o.fl) with ops := w.ops.filter fun x => decide (x.id ≠ o.id) }
            if o.ct = 0 then w else { w with relChip := max w.relChip o.ct, relPod := max w.relPod (o.ct + 25) }
          let s := if o.seen.isEmpty then s else
            s.modCore w.core fun c => o.seen.foldl (fun c x => c.atLeast x.1 x.2 none) c
          let ended := ((s.block? w.node).map fun b => decide (b.st = .ended)).getD true
          let s := match o.arv with
            | some (r, n) => if ended then s else s.ringArrive w.node r n
            | none => s
          let s := if cls = .mtx then
              s.modBlock w.node fun b => { b with stamp := { b.stamp with mlast := some (s.podTime b.chip) } } else s
          State.retireOps k cls fuel s

/-- OPERATION_RETIRE (R292, R303): complete operations of a warp's class retire in order; one that has a further part to do takes
it, and what it waits for is looked at again. -/
def execOperationRetire (s : State) : Host.Outcome State Fault Refusal :=
  let k := s.cue.warp
  let cls := s.cue.cls
  match s.warp? k with
  | none => .next s
  | some w =>
    let s := (s.stepJobs k cls).retireOps k cls w.ops.length
    let s := (s.freeTiles k).tidyNode w.node
    let waits := (((s.warp? k).map Warp.ops).getD []).any fun o => decide (o.cls = cls) && decide (o.left = 0) && decide (o.job ≠ .idle)
    .next (if waits then s.sendOnce .operationRetire { warp := k, cls := cls } else s)

end Sys2Proof.Machine
end

