-- ==== Sys2Proof/Machine/Control.lean ====
section
/-! DEFINITION. Control instructions, majors 0x00 to 0x0F (03 R77 to R86; 02 R40). -/

namespace Sys2Proof.Machine

/-- The frame's description of a control word (R27, R77). -/
def cInfo (op : Nat) (g : BitVec 4) (srcs : List Code) (rsv : Bool) : OpInfo :=
  { op := op, g := g, srcs := srcs, control := true, rsv := rsv }

/-- The frame's description of a control word with a count or identifier X (R33, R77). -/
def cxInfo (op : Nat) (g : BitVec 4) (srcs : List Code) (i : Code) (rsv : Bool) : OpInfo :=
  { cInfo op g srcs rsv with ext := true, imm7 := i, immBits := i.toNat }

/-- X kept in a range of `n` values, a power of two (R77). -/
def Cx.xIn (cx : Cx) (n : Nat) : Nat := cx.xUnsigned % n

/-- WARN.IMM for an X outside its range (R77). -/
def Cx.xNote (cx : Cx) (n : Nat) (s : State) : State := cx.warn s (warnIf (decide (n ≤ cx.xUnsigned)) wIMM)

/-- The target of a branch word (R18). -/
def branchTarget (pc : Nat) (off : BitVec 21) : Nat := (BitVec.ofNat 64 pc + 4 * off.signExtend 64).toNat

/-- Each fibre's next address: its target where the guard holds, else the next word (R79). -/
def Cx.nextOf (cx : Cx) (target : Nat → Nat) (j : Nat) : Nat := if inSet cx.q j then target j else (cx.pc + 4) % 2 ^ 64

/-- The targets of the fibres of Q, with their lanes. -/
def Cx.targetList (cx : Cx) (target : Nat → Nat) : List (Nat × Nat) := (lanesOf cx.q).map fun j => (j, target j)

/-- R78. -/
def execNop (g : BitVec 4) (d a b : Code) (s : State) : Host.Outcome State Fault Refusal :=
  issued (cInfo 0x00 g [] (decide (d ≠ 0) || decide (a ≠ 0) || decide (b ≠ 0))) s fun _ s => .done s none

/-- R79: a relative branch of each fibre. -/
def execBr (g : BitVec 4) (off : BitVec 21) (s : State) : Host.Outcome State Fault Refusal :=
  issued (cInfo 0x01 g [] false) s fun cx s =>
    let t := fun _ => branchTarget cx.pc off
    cx.targets (cx.targetList t) s fun s => .split s (cx.nextOf t)

/-- R79: an indexed branch of each fibre. -/
def execBrx (g : BitVec 4) (d a b : Code) (s : State) : Host.Outcome State Fault Refusal :=
  issued (cInfo 0x02 g [a, b] (decide (d ≠ 0))) s fun cx s =>
    let srcs := [pairSrc a, { code := b }]
    cx.checked (readsOf srcs cx.q) s fun s =>
      let t := fun j => (cx.val (pairSrc a) j + 4 * (cx.val32 { code := b } j).signExtend 64).toNat
      cx.targets (cx.targetList t) s fun s => .split (cx.noteSrcs srcs s) (cx.nextOf t)

/-- R79: a relative call; the link goes to v94:95. -/
def execCall (g : BitVec 4) (off : BitVec 21) (s : State) : Host.Outcome State Fault Refusal :=
  issued (cInfo 0x03 g [] false) s fun cx s =>
    cx.checked [{ code := 94, n := 2, wide := true, lanes := cx.q, read := false }] s fun s =>
      let t := fun _ => branchTarget cx.pc off
      cx.targets (cx.targetList t) s fun s =>
        .split (cx.writeDst s 94 true cx.q fun _ => BitVec.ofNat 64 (cx.pc + 4)) (cx.nextOf t)

/-- R79: an indirect call; the link goes to the pair d. -/
def execCallx (g : BitVec 4) (d a b : Code) (s : State) : Host.Outcome State Fault Refusal :=
  issued (cInfo 0x04 g [a] (decide (b ≠ 0))) s fun cx s =>
    cx.checked (readsOf [pairSrc a] cx.q ++ [{ code := d, n := 2, wide := true, lanes := cx.q, read := false }]) s fun s =>
      let t := fun j => (cx.val (pairSrc a) j).toNat
      cx.targets (cx.targetList t) s fun s =>
        let s := cx.warn (cx.noteSrcs [pairSrc a] s) (dstWarn d true true)
        .split (cx.writeDst s d true cx.q fun _ => BitVec.ofNat 64 (cx.pc + 4)) (cx.nextOf t)

/-- R79: a return of each fibre to the address in a pair. -/
def execRet (g : BitVec 4) (d a b : Code) (s : State) : Host.Outcome State Fault Refusal :=
  issued (cInfo 0x05 g [a] (decide (d ≠ 0) || decide (b ≠ 0))) s fun cx s =>
    cx.checked (readsOf [pairSrc a] cx.q) s fun s =>
      let t := fun j => (cx.val (pairSrc a) j).toNat
      cx.targets (cx.targetList t) s fun s => .split (cx.noteSrcs [pairSrc a] s) (cx.nextOf t)

/-- The lowest free slot of a warp (R80). -/
def Warp.freeSlot (w : Warp) : Option Nat := allLanes.find? fun j => !inSet w.live j

/-- R80: the child of fibre `j` with start address `start`, in slot `c`. -/
def Cx.forkChild (cx : Cx) (s : State) (j c start : Nat) (enrol : Option Nat) : State :=
  let base := cx.w.base j
  let s := s.clearLanes cx.k (laneBit c)
  let s := (List.range 8).foldl (fun s v =>
    match s.warp? cx.k with
    | some w =>
      if inSet (w.row (base + v)).valid j then s.writeRow cx.k (base + v) (laneBit c) fun _ => laneWord (w.row (base + v)).data j
      else s
    | none => s) s
  s.modWarp cx.k fun w =>
    { w with
      live := w.live ||| laneBit c
      triggered := w.triggered &&& ~~~laneBit c
      preds := vecPut w.preds c 1
      bases := vecPut w.bases c base
      rj := match enrol with
        | some n => vecPut w.rj n (vecAt w.rj n 0 ||| laneBit c)
        | none => w.rj
      gangs := w.gangs ++ [{ mask := laneBit c, pc := start }] }

/-- R80: children of the fibres of Q in ascending lane order, with the value each parent receives. -/
def Cx.forkAll (cx : Cx) (start : Nat → Nat) (enrol : Option Nat) : List Nat → State × List (Nat × DWord) → State × List (Nat × DWord)
  | [], r => r
  | j :: l, (s, d) =>
    match (s.warp? cx.k).bind Warp.freeSlot with
    | some c => cx.forkAll start enrol l (cx.forkChild s j c (start j) enrol, d ++ [(j, BitVec.ofNat 64 c)])
    | none => cx.forkAll start enrol l (s, d ++ [(j, 0xFFFFFFFF)])

/-- R80: creates child fibres in free slots. -/
def execFork (g : BitVec 4) (d a i : Code) (s : State) : Host.Outcome State Fault Refusal :=
  issued (cxInfo 0x06 g [a] i false) s fun cx s =>
    let copied : Use := { code := 0, n := 8, lanes := cx.q, read := false }
    cx.checked (readsOf [pairSrc a] cx.q ++ [copied, { code := d, lanes := cx.q, read := false }]) s fun s =>
      let start := fun j => (cx.val (pairSrc a) j).toNat
      cx.targets (cx.targetList start) s fun s =>
        let x := cx.xIn 8
        let old := cx.w.live
        let (s, vals) := cx.forkAll start (if 4 ≤ x then some (x % 4) else none) (lanesOf cx.q) (s, [])
        -- children that share a start address form one gang
        let s := s.modWarp cx.k fun w =>
          let kids := w.live &&& ~~~old
          w.fuse fun g => decide (g.mask &&& ~~~kids = 0)
        let s := cx.writeDst s d false cx.q fun j => ((vals.find? fun p => decide (p.1 = j)).map Prod.snd).getD 0
        .done (cx.xNote 8 (cx.warn (cx.noteSrcs [pairSrc a] s) (dstWarn d false true))) none

/-- R81: ends the fibres of Q; with its last live fibre the warp ends. -/
def execFend (g : BitVec 4) (d a b : Code) (s : State) : Host.Outcome State Fault Refusal :=
  issued (cInfo 0x07 g [] (decide (d ≠ 0) || decide (a ≠ 0) || decide (b ≠ 0))) s fun cx s =>
    if cx.w.live &&& ~~~cx.q = 0 then .placed (s.endWarp cx.k)
    else
      let s := s.modWarp cx.k fun w => w.partWait cx.m 0 ((cx.pc + 4) % 2 ^ 64) .run
      .placed (s.endFibres cx.k cx.q)

/-- R82: ends the warp if the guard is true in an active fibre. -/
def execExit (g : BitVec 4) (d a b : Code) (s : State) : Host.Outcome State Fault Refusal :=
  issued (cInfo 0x08 g [] (decide (d ≠ 0) || decide (a ≠ 0) || decide (b ≠ 0))) s fun cx s =>
    if cx.q = 0 then .done s none else .placed (s.endWarp cx.k)

/-- R73: enrols the fibres of Q in RJn. -/
def execEnrol (g : BitVec 4) (d a i : Code) (s : State) : Host.Outcome State Fault Refusal :=
  issued (cxInfo 0x09 g [] i (decide (d ≠ 0) || decide (a ≠ 0))) s fun cx s =>
    let n := cx.xIn 4
    .done (cx.xNote 4 (s.modWarp cx.k fun w => { w with rj := vecPut w.rj n (vecAt w.rj n 0 ||| cx.q) })) none

/-- R73: the fibres of Q that are enrolled in RJn wait; the others pass. -/
def execJoin (g : BitVec 4) (d a i : Code) (s : State) : Host.Outcome State Fault Refusal :=
  issued (cxInfo 0x0A g [] i (decide (d ≠ 0) || decide (a ≠ 0))) s fun cx s =>
    let n := cx.xIn 4
    .placed (cx.xNote 4 (s.modWarp cx.k fun w =>
      w.partWait cx.m (cx.q &&& vecAt w.rj n 0) ((cx.pc + 4) % 2 ^ 64) (.join n)))

/-- R83: the fibres of Q arrive at block barrier k after their release wait at core scope. -/
def execBar (g : BitVec 4) (d a i : Code) (s : State) : Host.Outcome State Fault Refusal :=
  issued (cxInfo 0x0B g [] i (decide (d ≠ 0) || decide (a ≠ 0))) s fun cx s =>
    let n := cx.xIn 16
    if cx.q = 0 then .done (cx.xNote 16 s) none
    else cx.afterRelease 0 true s fun s =>
      .placed (cx.xNote 16 (s.modWarp cx.k fun w => w.partWait cx.m cx.q ((cx.pc + 4) % 2 ^ 64) (.bar n)))

/-- R84, R310: the fibres of Q arrive at the group barrier of entry g after their release wait at pod scope. -/
def execGbar (g : BitVec 4) (d a i : Code) (s : State) : Host.Outcome State Fault Refusal :=
  issued (cxInfo 0x0C g [] i (decide (d ≠ 0) || decide (a ≠ 0))) s fun cx s =>
    let n := cx.xIn 256
    if cx.q = 0 then .done (cx.xNote 256 s) none
    else if !(cx.b.groups.any fun p => decide (p.1 = n)) then
      .trap { cause := .group, lane := (lowestLane cx.q).getD 0, addr := n }
    else cx.afterRelease 2 true s fun s =>
      let s := cx.xNote 256 (s.modWarp cx.k fun w => w.partWait cx.m cx.q ((cx.pc + 4) % 2 ^ 64) (.gbar n))
      .placed (s.settleGroup cx.b.gid n)

/-- R85: starts a hardware loop at the next idle level, or skips the body. -/
def execLoop (g : BitVec 4) (d a i : Code) (s : State) : Host.Outcome State Fault Refusal :=
  issued (cxInfo 0x0D g [a] i (decide (d ≠ 0))) s fun cx s =>
    let len := cx.xIn 4096
    let skip := fun (s : State) => Res.split (cx.xNote 4096 s) fun _ => cx.pc + 4 + 4 * len
    match cx.lead with
    | none => skip s
    | some j =>
      let src : Src := { code := a }
      cx.checked (readsOf [src] (laneBit j)) s fun s =>
        let count := (cx.val32 src j).toNat
        let s := cx.noteSrcs [src] s
        if count = 0 ∨ len = 0 then skip s
        else
          let start := (cx.pc + 4 - s.codeBase cx.w) / 4
          let n := cx.w.loopDepth
          if cx.m ≠ cx.w.live ∨ 3 ≤ n ∨ cx.pc + 4 < s.codeBase cx.w ∨ 2 ^ 19 ≤ start then
            .trap { cause := .loopState, lane := j, addr := n }
          else .done (cx.xNote 4096 (s.modWarp cx.k fun w => { w with loops := vecPut w.loops n (loopOf false len start count) })) none

/-- R86: sets BRK of the innermost level and sends the fibres of Q to its body end. -/
def execLbrk (g : BitVec 4) (d a i : Code) (s : State) : Host.Outcome State Fault Refusal :=
  issued (cxInfo 0x0E g [] i (decide (d ≠ 0) || decide (a ≠ 0))) s fun cx s =>
    if cx.q = 0 then .done (cx.xNote 1 s) none
    else match cx.w.innerLoop with
    | none => .trap { cause := .loopState, lane := (lowestLane cx.q).getD 0, addr := 0 }
    | some (n, x) =>
      let s := s.modWarp cx.k fun w => { w with loops := vecPut w.loops n (x ||| BitVec.ofNat 64 (2 ^ 63)) }
      .split (cx.xNote 1 s) (cx.nextOf fun _ => loopEndPc (s.codeBase cx.w) x)

/-- R40: sets the warp's TI, TF and TC; a code not accepted for its position leaves that type. -/
def execVtype (g : BitVec 4) (d a i : Code) (s : State) : Host.Outcome State Fault Refusal :=
  issued (cInfo 0x0F g [] false) s fun cx s =>
    match cx.lead with
    | none => .done s none
    | some _ =>
      let ok := tiOk d.toNat && tfOk a.toNat && tcOk i.toNat
      .done (s.modWarp cx.k fun w =>
        ({ w with
          ti := if tiOk d.toNat then d.toNat else w.ti
          tf := if tfOk a.toNat then a.toNat else w.tf
          tc := if tcOk i.toNat then i.toNat else w.tc } : Warp).addWarn (warnIf (!ok) wTYP)) none

/-! ## The end of a loop iteration (R75) -/

/-- R75: when every live fibre has arrived at the body end, they fuse; COUNT falls; the body runs again or the level is idle. -/
def iterationEnd (code : Nat) (w : Warp) : Warp :=
  match w.innerLoop with
  | none => w
  | some (n, x) =>
    if !w.allAt .loopEnd then w
    else
      let c := loopCount x - 1
      let again := decide (c ≠ 0) && !loopBrk x
      let w' := { w with loops := vecPut w.loops n (if again then loopOf false (loopLen x) (loopStart x) c else loopOf false 0 (loopStart x) c) }
      let pc := if again then code + 4 * loopStart x else loopEndPc code x
      { w' with gangs := [{ mask := w.live, pc := pc }] }

/-- R76: room for a body of `len` words among at most four bodies and 256 words: of the bodies that no warp iterates, the least
recently entered are removed, one by one. -/
def roomForBody (busy : Nat → Bool) (len : Nat) : Nat → List (Nat × Nat) → List (Nat × Nat)
  | 0, l => l
  | n + 1, l =>
    if l.length < 4 ∧ l.foldl (fun t p => t + p.2) len ≤ 256 then l
    else match l.reverse.find? fun p => !busy p.1 with
      | some p => roomForBody busy len n (l.erase p)
      | none => l

/-- R76: the loop buffer after an iteration of a body has ended; `again` tells that the body is entered anew. A body that does not
fit runs from the instruction cache. -/
def bufferBody (busy : Nat → Bool) (again : Bool) (start len : Nat) (l : List (Nat × Nat)) : List (Nat × Nat) :=
  if l.any fun p => decide (p.1 = start) then
    (if again then l.filter (fun p => decide (p.1 = start)) ++ l.filter fun p => decide (p.1 ≠ start) else l)
  else if len > 256 then l
  else
    let l := roomForBody busy len 4 l
    if l.length < 4 ∧ l.foldl (fun t p => t + p.2) len ≤ 256 then (start, len) :: l else l

/-- R76: whether a warp of a core iterates the body that starts at an address. -/
def State.iterates (s : State) (core start : Nat) : Bool := s.warps.any fun p =>
  p.2.resident && decide (p.2.core = core) &&
    p.2.loops.toList.any fun x => decide (loopLen x ≠ 0) && decide (s.codeBase p.2 + 4 * loopStart x = start)

/-- LOOP_ITERATION_END (R75). -/
def execLoopIterationEnd (s : State) : Host.Outcome State Fault Refusal :=
  let k := s.cue.warp
  match s.warp? k with
  | none => .next s
  | some w =>
    let code := s.codeBase w
    let s := match w.innerLoop with
      | some (_, x) => if w.allAt .loopEnd then
          let again := decide (loopCount x ≠ 1) && !loopBrk x
          s.modCore w.core fun c =>
            { c with loopBuf := bufferBody (s.iterates w.core) again (code + 4 * loopStart x) (loopLen x) c.loopBuf } else s
      | none => s
    .next ((s.modWarp k (iterationEnd code)).settle k)

end Sys2Proof.Machine
end

