-- ==== Sys2Proof/Machine/Staging.lean ====
section
/-! DEFINITION. Staging and its ends: commit, early commit, rollback, fault records, completion (08 R258; 09 R280 to R285;
13 R365; 14 R398 to R402; 17 R436, R437; 20 R455). -/

namespace Sys2Proof.Machine

/-! ## Sets of nodes -/

/-- Whether a node can still commit or roll back. -/
def Block.open_ (b : Block) : Bool := !(decide (b.st = .committed) || decide (b.st = .dead))

/-- Whether a node still has something to discard: it is open, or it was stopped (R284, R390, R402) and holds warps or undo copies. -/
def State.lingers (s : State) (b : Block) : Bool :=
  b.open_ || (decide (b.st = .dead) && ((s.warps.any fun p => decide (p.2.node = b.node) && decide (p.2.live ≠ 0)) ||
    s.lines.any fun p => p.2.undo.any fun u => decide (u.1 = b.node)))

/-- The dependants of some nodes, transitively and across grids (R285). -/
def State.dependants (s : State) (l : List Nat) : List Nat :=
  growSet (fun l => ((tabVals s.blocks).filter fun b =>
    b.open_ && !l.contains b.node && b.deps.any l.contains).map Block.node) s.blocks.length l

/-- The nodes that some nodes depend on and that have not committed, transitively (R455). -/
def State.needed (s : State) (l : List Nat) : List Nat :=
  growSet (fun l => ((tabVals s.blocks).filter fun b =>
    !l.contains b.node && s.lingers b && (tabVals s.blocks).any fun x => l.contains x.node && x.deps.contains b.node).map Block.node)
    s.blocks.length l

/-! ## Commit (R283, R455) -/

/-- Whether the FINISH of a block's row has been delivered on the chip that ran it, or, for a chip that a Plate marks lost or
fenced, by that Plate before it (R283, R376). -/
def State.finishDelivered (s : State) (b : Block) : Bool :=
  let has := fun (p : Plate) => p.rows.any fun r => decide (r.gid = b.gid) && decide (r.row = b.row) && decide (r.st = .finished)
  has (s.chip b.chip).plate || s.chips.any fun c => c.2.inPod && has c.2.plate &&
    match (tabLook c.2.plate.chips b.chip).map PChip.st with
    | some .lost | some .fenced => true
    | _ => false

/-- A block that meets every condition of R283 but the commitment of others. -/
def State.ready (s : State) (node : Nat) : Bool :=
  match s.block? node with
  | some b => decide (b.st = .ended) && b.finished && s.finishDelivered b
  | none => true

/-- Drops nodes' undo copies at every home (R281, R283, R284). -/
def State.dropUndo (s : State) (l : List Nat) : State :=
  let s : State := { s with
    lines := s.lines.map fun (p : Nat × HomeLine) => if p.2.undo.any (fun u => l.contains u.1) then
      (p.1, { p.2 with undo := p.2.undo.filter fun u => !l.contains u.1 }) else p }
  -- a merged partial is retained while a rollback may still take its merge back (R258)
  { s with partials := s.partials.filter fun p => match p.merged with
    | none => true
    | some v => (s.line p.line).undo.any fun u => decide (u.2.1 < v) }

/-- BLOCK_COMMIT (R283, R455): the block commits with every node it depends on, once each of them is ready. Their dependants are
looked at next. -/
def execBlockCommit (s : State) : Host.Outcome State Fault Refusal :=
  match s.block? s.cue.node with
  | none => .next s
  | some b =>
    let l := s.needed [b.node]
    if !b.open_ ∨ !(l.all s.ready) then .next s
    else
      let s := l.foldl (fun s n => s.modBlock n fun b => { b with st := .committed, staged := [], faults := [], faultOvf := false })
        (s.dropUndo l)
      let next := (tabVals s.blocks).filter fun b => b.open_ && b.finished && b.deps.any l.contains
      -- contributions to a collective are kept until every member has committed (R321)
      let size := fun (c : Coll) => (((s.grid? c.gid).bind fun g => tabLook g.groups c.group).map fun g => g.members.length).getD 0
      let past := fun (c : Coll) => decide (c.mem.length = size c) &&
        c.mem.all fun m => ((s.block? m.node).map fun b => decide (b.st = .committed)).getD true
      let s := { s with colls := s.colls.filter fun c => !past c }
      .next (next.foldl (fun s b => s.sendOnce .blockCommit { node := b.node }) s)

/-- STAGING_EARLY_COMMIT (R284): after 10,000 ns of stall the block waits for the nodes it depends on, drops its undo copies and
can no longer be rolled back. -/
def execStagingEarlyCommit (s : State) : Host.Outcome State Fault Refusal :=
  let n := s.cue.node
  match s.block? n with
  | none => .next s
  | some b =>
    match b.stallSince with
    | none => .next s
    | some t =>
      let again := Host.Outcome.next (s.sendOnce .stagingEarlyCommit { node := n })
      if !b.open_ ∨ b.norev then .next s
      else if s.podTime b.chip < t + 10000 then again
      else if (s.needed [n]).length ≠ 1 then again
      else .next ((s.dropUndo [n]).modBlock n fun b => { b with norev := true, staged := [], stallSince := none })

/-! ## Proofs a grid can go back to (R402, R437) -/

/-- A grid's last proof at a pod time: the latest that is complete on every live chip and was taken after the grid's first
placement. -/
def State.lastProof (s : State) (chip gid time : Nat) : Option Nat :=
  let pl := (s.chip chip).plate
  match (tabLook pl.grids gid).bind PGrid.placed with
  | none => none
  | some p0 =>
    let live := (pl.chips.filter fun p => decide (p.2.st = .live)).map Prod.fst
    let live := if live.isEmpty then [chip] else live
    let ok := fun (n : Nat) => decide (p0 < n * s.cfg.t * 1000000) &&
      live.all fun c => (s.chip c).proofDone.any fun d => decide (d.1 = n) && decide (d.2 ≤ time)
    let cand := (s.chip chip).proofDone.map Prod.fst
    (cand.filter ok).foldl (fun a n => some (max (a.getD 0) n)) none

/-- R402: a grid escalates: it goes back to its last proof, or faults when it has none newer than the last it went back to. -/
def State.escalate (s : State) (b : Block) (cause : Nat) : State :=
  let now := s.podTime b.chip
  let rolled := (tabLook (s.chip b.chip).plate.grids b.gid).bind PGrid.rolled
  let kind := match s.lastProof b.chip b.gid now with
    | some n => if (match rolled with
        | some r => decide (r < n)
        | none => true) then 1 else 0
    | none => 0
  s.postEvent b.chip 3 b.ctx (faultPayload b.gid kind cause) []

/-! ## Rollback (R258, R285) -/

/-- Copies of restored lines leave every cache, and those that a discarded node's store under way has updated; no read reply of such a
line that is under way brings a copy: a read made after the restore returns the restored value (R285). -/
def State.forgetCopies (s : State) (lines nodes : List Nat) : State :=
  let stale := fun (p : Nat × Copy) => lines.contains p.1 || p.2.stores.any fun y => nodes.contains y.2
  let dead := fun (l : Tab Copy) => l.map fun p => if stale p then
    (p.1, { p.2 with live := false, stores := p.2.stores.filter fun y => !nodes.contains y.2 }) else p
  { s with
    agenda := s.agenda.map fun d => if d.ev = .readReply ∧ d.cue.acc.op = 0 ∧ lines.contains d.cue.acc.line then
      { d with cue := { d.cue with ct := 0 } } else d
    cores := s.cores.map fun p => (p.1, { p.2 with
      copies := dead p.2.copies
      vtab := p.2.vtab.filter fun e => !e.lines.any lines.contains
      vpend := p.2.vpend.filter fun e => !e.2.lines.any lines.contains })
    dies := s.dies.map fun p => (p.1, { p.2 with replicas := dead p.2.replicas }) }

/-- Merges again what partials of other nodes had merged into a line since the restored value, one merge after another (R258). -/
def State.remerge (s : State) (line ver : Nat) : State :=
  let later := s.partials.filterMap fun p => match p.merged with
    | some v => if p.line = line ∧ ver < v then some v else none
    | none => none
  let order := later.eraseDups.foldr (fun v l => l.filter (fun x => decide (x < v)) ++ [v] ++ l.filter (fun x => decide (v < x))) []
  order.foldl (fun s v =>
    let mine := fun (p : Partial) => decide (p.line = line) && decide (p.merged = some v)
    let ws := (s.partials.filter mine).map Partial.warp
    let waiting := (s.line line).red
    let held := s.partials.filter fun p => decide (p.line = line) && p.merged.isNone
    let s := { s with partials := (s.partials.filter fun p => !held.contains p).map fun p => if mine p then { p with merged := none } else p }
    let s := (s.modLine line fun h => { h with red := some ws }).mergeLine line
    { s.modLine line (fun h => { h with red := waiting }) with partials := s.partials ++ held }) s

/-- Restores a line to the undo copy of the earliest of some nodes on it, if any holds one (R285). -/
def State.restoreLine (s : State) (l : List Nat) (line : Nat) : State :=
  match (s.line line).undo.find? fun u => l.contains u.1 with
  | none => s
  | some u =>
    let s := (s.setLineData line u.2.2).modLine line fun h =>
      { h with undo := h.undo.filter (fun x => !l.contains x.1), ver := h.ver + 1, dirty := h.way.isSome, touched := true, recent := [] }
    s.remerge line u.2.1

/-- A node's hold on its core is gone: registers, scratchpad, tags, tiles, queued work (R285, R306). -/
def State.vacate (s : State) (node : Nat) : State :=
  let ks := (s.warps.filter fun p => decide (p.2.node = node)).map Prod.fst
  let s := ks.foldl (fun s k => match s.warp? k with
    | some w => (List.range w.rows.length).foldl (fun s r => s.unshare k r) s
    | none => s) s
  match s.block? node with
  | none => s
  | some b =>
    let s := s.modCore b.core fun c =>
      { c with
        pieces := c.pieces.filter fun p => decide (p.node ≠ node)
        sallocQ := c.sallocQ.filter fun r => !ks.contains r.warp
        tags := c.tags.filter fun e => decide (e.2.node ≠ node)
        mq := c.mq.filter fun o => !ks.contains o.warp }
    let s := { s with warps := s.warps.map fun p => if p.2.node = node then
      (p.1, { p.2 with gangs := [], live := 0, rows := [], flights := [], ops := [], run := none, monitor := none, deadline := none
                       resident := false, request := none, spend := vecOf 16 fun _ => 0 }) else p }
    if (s.core b.core).sallocQ.isEmpty then s else s.sendOnce .sallocGrant { core := b.core }

/-- Discards nodes as one step at the homes (R258, R285): their lines are restored, their unmerged partials, warps and engine work
are gone, and replies to them will be dropped. -/
def State.discard (s : State) (l : List Nat) : State :=
  let s := l.foldl (fun s n => s.writeStamp n true) s
  let lines := (s.lines.filter fun p => p.2.undo.any fun u => l.contains u.1).map Prod.fst
  let leave := fun (p : Nat × HomeLine) => match p.2.red with
    | some ws => (p.1, { p.2 with red := (let r := ws.filter (fun (k : Nat) => !l.contains (k / 32)); if r.isEmpty then none else some r) })
    | none => p
  let s := { s with partials := s.partials.filter (fun p => !l.contains p.node), lines := s.lines.map leave }
  let s := lines.foldl (fun s x => s.restoreLine l x) s
  let s := l.foldl State.vacate (s.forgetCopies lines l)
  -- a discarded member's part in its collectives is gone (R321)
  let s := { s with colls := s.colls.map fun c => { c with mem := c.mem.filter fun m => !l.contains m.node } }
  l.foldl (fun s n => s.modBlock n fun b => { b with st := .dead, staged := [], tiles := [], scratch := [], slots := [] }) s

/-- A fresh node for a discarded block, on the same chip: it waits for a core, keeps the fault queue, and counts the failures of
the block so far (R285, R398, R402). The WARN bits of the run that is discarded count no more in the grid's completion (log 105:
DESIGN CHOICE). -/
def State.restart (s : State) (node : Nat) : State :=
  match s.block? node with
  | none => s
  | some b =>
    let n := s.nextNode
    let fresh : Block :=
      { node := n, gid := b.gid, ctx := b.ctx, row := b.row, bid := b.bid, gen := b.gen + 1, chip := b.chip, st := .queued
        budget := b.budget, groups := b.groups, faults := b.faults, faultOvf := b.faultOvf, failures := b.failures }
    { s with nextNode := n + 1, blocks := tabPut s.blocks n fresh }.send .blockStart { chip := b.chip, gid := b.gid, row := b.row, num := b.bid }

/-- Rolls nodes back with their dependants and restarts them (R285). -/
def State.rollback (s : State) (l : List Nat) : State :=
  let set := s.dependants l
  let s := s.discard set
  let s := set.foldl State.restart s
  set.foldl (fun s n => match s.block? n with
    | some b => b.groups.foldl (fun s g => s.settleGroup b.gid g.1) s
    | none => s) s

/-- BLOCK_ROLLBACK (R284, R285, R402): a failed block and its dependants start again. A failure that reaches blocks that have
committed early stops them and escalates their grids, and the eighth failure its own grid; `num` 0 is an over-capacity fault, which
counts for no failure (R193). -/
def execBlockRollback (s : State) : Host.Outcome State Fault Refusal :=
  let n := s.cue.node
  match s.block? n with
  | none => .next s
  | some b =>
    if !b.open_ then .next s
    else
      let s := if s.cue.num = 0 then s else s.modBlock n fun b => { b with failures := b.failures + 1 }
      let fixed := ((s.dependants [n]).filterMap s.block?).filter Block.norev
      let firsts := fixed.filter fun y => decide ((fixed.find? fun z => decide (z.gid = y.gid)) = some y)
      let s := firsts.foldl (fun (s : State) y => s.escalate y s.cue.num) (fixed.foldl (fun s y => s.stopNode y.node) s)
      if fixed.any fun y => decide (y.gid = b.gid) then .next (s.stopNode n)
      else if s.cue.num ≠ 0 ∧ 8 ≤ b.failures + 1 then .next ((s.stopNode n).escalate b s.cue.num)
      else .next (s.rollback [n])

/-! ## Fault records (R398 to R400) -/

/-- FAULT_RECORD (R398 to R400): a record joins its node's queue of 16, and the node fails, or its grid faults. -/
def execFaultRecord (s : State) : Host.Outcome State Fault Refusal :=
  let c := s.cue
  match s.block? c.node with
  | none => .next s
  | some b =>
    let r := if c.acc.line = 0 ∧ c.tag = 0 then (s, true) else s.arrive (s.homeOf c.acc.line) b.chip c
    let s := r.1
    if !r.2 ∨ b.st = .dead then .next s
    -- a conflict found at the end of the grid reaches a contributor that has committed: it cannot roll back, so the grid does (R284, log
    -- 102: DEDUCED)
    else if b.st = .committed then .next (if c.record.kind = 4 then s.escalate b 0x0104 else s)
    else
      let ended := ((s.warp? (b.node * 32 + c.record.warp)).map fun w => decide (w.live = 0)).getD false
      let s := s.modBlock c.node fun b =>
        if 16 ≤ b.faults.length then { b with faultOvf := true }
        else { b with faults := b.faults ++ [{ c.record with exited := ended, ovf := b.faultOvf }], faultOvf := false }
      let cause := 0x0100 + c.record.kind
      if c.record.kind = 5 ∨ c.record.kind = 6 then .next (s.postEvent b.chip 3 b.ctx (faultPayload b.gid 0 cause) [])
      else .next (s.sendOnce .blockRollback { node := c.node, num := cause })

/-! ## Completion (R280, R365) -/

/-- A completion record (R365). -/
def completionBytes (code refusal warn gid cause tdone energy : Nat) : List Byte :=
  leBytes 4 (2 ^ 31 + refusal % 256 * 256 + code) ++ leBytes 4 warn ++ leBytes 4 gid ++ leBytes 4 cause ++ leBytes 8 tdone ++ leBytes 8 energy

/-- Writes a completion record where its address translates and its page may be written (R365). -/
def State.writeCompletion (s : State) (chip ctx ea : Nat) (l : List Byte) : State :=
  match s.resolve chip ctx ea with
  | some (key, leaf) => if leafW leaf then s.hubWrite key l else s
  | none => s

/-- The end of a grid on the pod: its replicas go, and its context's cached translations, with the walks for them, once no other grid
of it runs (R240, R243). -/
def State.endGrid (s : State) (gid ctx : Nat) : State :=
  let others := s.grids.any fun p => decide (p.1 ≠ gid) && decide (p.2.ctx = ctx) &&
    s.blocks.any fun b => decide (b.2.gid = p.1) && b.2.open_
  let s := { s with
    chips := s.chips.map fun p => (p.1, { p.2 with gridUndo := p.2.gridUndo.filter fun u => decide (u.1 ≠ gid) })
    partials := s.partials.filter fun p => ((s.block? p.node).map fun b => decide (b.gid ≠ gid)).getD false
    dies := s.dies.map fun p => (p.1, { p.2 with replicas := p.2.replicas.map fun x => (x.1, { x.2 with live := false }) }) }
  if others then s
  else { s with chips := s.chips.map fun p => (p.1, { p.2 with
    tlb := p.2.tlb.filter fun e => decide (e.ctx ≠ ctx), walks := p.2.walks.filter fun w => decide (w.ctx ≠ ctx) }) }

/-- The reduction lines of a grid that are not merged yet (R258). -/
def State.unmerged (s : State) (gid : Nat) : List Nat :=
  ((s.partials.filter fun p => p.merged.isNone && ((s.block? p.node).map fun b => decide (b.gid = gid) && decide (b.st ≠ .dead)).getD false).map
    Partial.line).eraseDups

/-- COMPLETION_RECORD_WRITE (R280, R365): once every block has committed, every reduction line is merged and every write's
completion time has passed by 25 ns; for a grid that faulted once what its committed blocks contributed is merged, and at once for one
that was refused. -/
def execCompletionRecordWrite (s : State) : Host.Outcome State Fault Refusal :=
  let gid := s.cue.gid
  let chip := s.cue.chip
  match tabLook (s.chip chip).plate.grids gid with
  | none => .next s
  | some pg =>
    let g := (s.grid? gid).getD {}
    let crec := fieldAt pg.image 56 8
    let now := s.podTime chip
    let record := fun (code refusal cause : Nat) =>
      completionBytes code refusal g.warn.toNat gid cause now (g.energyUsed / 2 ^ 16)
    let again := fun (s : State) => Host.Outcome.next (s.sendOnce .completionRecordWrite { gid := gid, chip := chip })
    match pg.st with
    | .refused => .next (s.writeCompletion chip pg.ctx crec (record 1 pg.cause 0))
    | .faulted =>
      if !(s.unmerged gid).isEmpty then again ((s.unmerged gid).foldl (fun s x => s.sendOnce .reductionMerge { line := x }) s)
      else .next ((s.writeCompletion chip pg.ctx crec (record 2 0 pg.cause)).endGrid gid pg.ctx)
    | .waiting | .eligible | .running => .next s
    | .complete =>
      let nodes := (tabVals s.blocks).filter fun b => decide (b.gid = gid) && decide (b.st ≠ .dead)
      let last := nodes.foldl (fun m b => max m b.lastCt) 0
      if !(nodes.all fun b => decide (b.st = .committed)) then again s
      else if !(s.unmerged gid).isEmpty then
        again ((s.unmerged gid).foldl (fun s x => s.sendOnce .reductionMerge { line := x }) s)
      else if now ≤ last + 25 then again s
      else .next ((s.writeCompletion chip pg.ctx crec (record 0 0 0)).endGrid gid pg.ctx)

end Sys2Proof.Machine
end

