-- ==== Sys2Proof/Machine/Distributor.lean ====
section
/-! DEFINITION. The distributor: starting blocks on cores, eviction, resumption, and the reports of finished and triggered rows
(03 R59, R60; 06 R163, R192; 07 R204, R233; 11 R308, R309; 13 R356, R369, R375, R462; 14 R405 to R410). -/

namespace Sys2Proof.Machine

/-! ## Rows of the Plate (R362) -/

/-- How many rows a grid's launch has: ceiling(NBLK / ROWBLK). -/
def PGrid.rows (g : PGrid) : Nat :=
  let n := fieldAt g.image 8 4
  let k := max 1 (fieldAt g.image 12 4)
  (n + k - 1) / k

/-- The blocks of a row: its range less the blocks that BLOCKED has given rows of their own (R362). -/
def Plate.blocksOf (p : Plate) (r : PRow) : List Nat :=
  let own := ((tabLook p.grids r.gid).map PGrid.rows).getD 0
  ((List.range r.count).map (r.first + ·)).filter fun bid =>
    !(p.rows.any fun x => decide (x.gid = r.gid) && decide (x.row ≠ r.row) && decide (own ≤ x.row) && decide (x.first = bid))

/-- A row by grid and number. -/
def Plate.row? (p : Plate) (gid row : Nat) : Option PRow := p.rows.find? fun r => decide (r.gid = gid) && decide (r.row = row)

/-! ## What a block needs of a core (R163, R204) -/

/-- The store need of a block at launch, in KiB (R163). -/
def GridRun.need (g : GridRun) : Nat := g.warps.length * g.regs / 8 + g.scratch / 1024 + 32

/-- What a block asks of a core: the capacity that must cover it in KiB, its allocations as (owner, scratchpad, units), tiles,
warp slots, and the tags it brings back. -/
structure Demand where
  kib : Nat := 0
  pieces : List (Nat × Bool × Nat) := []
  tiles : Nat := 0
  warps : Nat := 0
  tags : List DWord := []
deriving DecidableEq, Repr

/-- The warps of a node that have left their core (R408). -/
def State.images (s : State) (node : Nat) : List (Nat × Warp) :=
  s.warps.filter fun p => decide (p.2.node = node) && !p.2.resident && decide (p.2.live ≠ 0)

/-- The scratchpad's allocation. -/
def scratchAsk (node size : Nat) : List (Nat × Bool × Nat) := if size = 0 then [] else [(node, true, size / 4096)]

/-- What a waiting block asks: all of its launch, all of its saved context (R192), or the rows of its missing warps (R410). -/
def State.demand (s : State) (b : Block) : Demand :=
  match b.st with
  | .queued =>
    let g := (s.grid? b.gid).getD {}
    { kib := g.need, tiles := g.tiles, warps := g.warps.length
      pieces := ((List.range g.warps.length).map fun i => (b.node * 32 + i, false, g.regs / 32)) ++ scratchAsk b.node g.scratch }
  | st =>
    let ws := s.images b.node
    let rows := ws.map fun p => (p.1, false, p.2.rows.length / 32)
    let whole := decide (st = .saved)
    { kib := if whole then 4 * (rows.map fun x => x.2.2).foldl (· + ·) 0 + b.scratchSize / 1024 + 32 else 0
      pieces := if whole then rows ++ scratchAsk b.node b.scratchSize else rows
      tiles := if whole then b.ntiles else 0, warps := ws.length, tags := b.savedTags.map Prod.fst }

/-- Every allocation of a list, when all fit (R161, R162). -/
def Core.takeAll : List (Nat × Bool × Nat) → Core → Option Core
  | [], c => some c
  | (k, scr, u) :: r, c => match c.allocate k scr u with
    | some c => Core.takeAll r c
    | none => none

/-- Tiles that blocks hold on a core, block by block: they come back once the block is over or away and its started matrix
instructions have retired (R204). -/
def State.tilesOn (s : State) (core : Nat) : List Nat :=
  ((tabVals s.blocks).filter fun b => decide (b.core = core) && (decide (b.st = .running) || decide (b.st = .gated) ||
    ((decide (b.st = .ended) || decide (b.st = .saved)) && s.warps.any fun p => decide (p.2.node = b.node) && p.2.ops.any fun o =>
      decide (o.cls = .mtx) && !p.2.queued.any fun q => decide (q.id = o.id)))).map Block.ntiles

/-- The warps that hold a slot of a core. -/
def State.seated (s : State) (core : Nat) : List Warp :=
  (tabVals s.warps).filter fun w => decide (w.core = core) && w.resident && decide (w.live ≠ 0)

/-- The slots of side memory that a number of tiles takes (R204). -/
def slotsFor (tiles : Nat) : Nat := (tiles + 7) / 8

/-- A core with a demand met, when it can meet it. -/
def State.fitsOn (s : State) (core : Nat) (d : Demand) : Option Core :=
  let c := s.core core
  let held := s.tilesOn core
  let free := fun (t : DWord) => (setWays (tagSet t)).countP fun e => (tabLook c.tags e).isNone
  if c.kib < d.kib ∨ c.kib = 0 ∨ 64 < held.foldl (· + ·) 0 + d.tiles ∨ 8 < (held.map slotsFor).foldl (· + ·) 0 + slotsFor d.tiles
      ∨ 64 < (s.seated core).length + d.warps then none
  else if d.tags.any fun t => decide (free t < d.tags.countP fun x => decide (tagSet x = tagSet t)) then none
  else c.takeAll d.pieces

/-- R172: whether only fragmentation keeps a demand from a core: its rows are free, no buddy block of a needed order is, and some
piece has a lower block to move to. -/
def State.fragmented (s : State) (core : Nat) (d : Demand) : Bool :=
  let c := s.core core
  let rows := 32 * (d.pieces.map fun x => x.2.2).foldl (· + ·) 0
  (s.fitsOn core { d with pieces := [] }).isSome && decide (c.used + rows ≤ c.limit) && (c.takeAll d.pieces).isNone && c.pieces.any fun p =>
    ((c.freeBase p.order).map fun b => decide (b < p.base)).getD false

/-- The core of a chip where a demand is met with the most free rows, ties to the lowest number (R192, R375). -/
def State.bestCore (s : State) (chip : Nat) (d : Demand) : Option (Nat × Core) :=
  ((List.range 2048).foldl (fun (a : Option (Nat × Nat × Core)) i =>
    let core := chip * 2048 + i
    match s.fitsOn core d with
    | none => a
    | some c =>
      let rows := (s.core core).limit - (s.core core).used
      match a with
      | some x => if x.1 < rows then some (rows, core, c) else a
      | none => some (rows, core, c)) none).map Prod.snd

/-- Whether some core of a chip has the capacity for a demand at all (R192, R462). -/
def State.coverable (s : State) (chip : Nat) (d : Demand) : Bool :=
  (List.range 2048).any fun i => decide (d.kib ≤ (s.core (chip * 2048 + i)).kib)

/-! ## Seating warps (R59, R410) -/

/-- The port with the fewest resident warps, ties to the lowest, and its lowest free slot. -/
def State.seat (s : State) (core : Nat) : Nat × Nat :=
  let on := fun (port : Nat) => (s.seated core).filter fun w => decide (w.port = port)
  let port := ((leastBy (fun p => [(on p).length, p]) [0, 1, 2, 3]).getD 0)
  let used := (on port).map Warp.slot
  (port, ((List.range 16).find? fun i => !used.contains i).getD 0)

/-- A warp as a block starts (R60, R363). -/
def freshWarp (g : GridRun) (node core idx : Nat) (r : Role × Nat) (port slot : Nat) : Warp :=
  let w : Warp :=
    { node := node, idx := idx, core := core, port := port, slot := slot, role := r.1
      gangs := [{ mask := BitVec.allOnes 32, pc := g.code + r.2 }]
      rows := List.replicate g.regs {}
      sregs := vecOf 16 fun i => BitVec.ofNat 32 (match i with
        | 0 => g.args
        | 1 => g.args / 2 ^ 32
        | 2 => g.arglen
        | 3 => g.nblk
        | 4 => g.gid
        | _ => 0) }
  { w with fstat := g.fstat0.getD w.fstat, mxcfg := g.mxcfg0.getD w.mxcfg, pold := g.pold0.getD w.pold }

/-- The core remap of a context and virtual core names a core (R343). -/
def Chip.mapCore (c : Chip) (ctx cid core : Nat) : Chip :=
  { c with coreRemap := (c.coreRemap.filter fun x => decide (x.1 ≠ ctx) || decide (x.2.1 ≠ cid)) ++ [(ctx, cid, core)] }

/-- A waiting block starts on a core, behind its task gate (R60, R198, R375). -/
def State.startOn (s : State) (b : Block) (core : Nat) (c : Core) : State :=
  match s.grid? b.gid with
  | none => s
  | some g =>
    let cid := core % 2048
    let s := (s.setCore core c).modBlock b.node fun b =>
      { b with
        st := .gated, core := core, cid := cid, ntiles := g.tiles, tiles := List.replicate g.tiles {}, scratchSize := g.scratch
        rings := g.stage.map fun n => { s := n } }
    let s := (List.range g.warps.length).foldl (fun (s : State) i =>
      let at_ := s.seat core
      s.setWarp (b.node * 32 + i) (freshWarp g b.node core i (g.warps.getD i (.gen, 0)) at_.1 at_.2)) s
    (s.modChip b.chip fun c => c.mapCore b.ctx cid core).sendOnce .taskGateStart { node := b.node }

/-- A saved warp comes back to a core (R410). -/
def Warp.resumed (w : Warp) (core port slot : Nat) : Warp :=
  { w with
    core := core, port := port, slot := slot, resident := true, resumes := (w.resumes + 1) % 256
    monitor := w.monitor.map fun m => (m.1, true)
    gangs := w.gangs.map fun g => { g with waits := 0 }
    rows := w.rows.map fun x => { x with share := none, refs := [] }
    queued := [], request := none }

/-- A core takes back a block's tag entries, each in the first invalid way of its set (R192, R195); the last
of the saved list is then the most recent (log 106: DESIGN CHOICE). -/
def Core.untag (c : Core) (node : Nat) (l : List (DWord × Nat × Bool)) : Core :=
  l.foldl (fun (c : Core) x =>
    match (setWays (tagSet x.1)).find? fun e => (tabLook c.tags e).isNone with
    | some e => ({ c with tags := Machine.tabPut c.tags e { tag := x.1, slot := x.2.1, pending := x.2.2, node := node } } : Core).touch e
    | none => c) c

/-- The route of a collective or a channel of group `n` leads to the chip where a member now is (R343, log 103: DESIGN CHOICE). -/
def Chip.mapRoute (c : Chip) (ctx n path : Nat) : Chip :=
  { c with routeRemap := (c.routeRemap.filter fun x => decide (x.1 ≠ ctx) || decide (x.2.1 ≠ n)) ++ [(ctx, n, path)] }

/-- The routes of a block's groups are rewritten on every chip that holds a member (R343). -/
def State.mapRoutes (s : State) (b : Block) : State :=
  b.groups.foldl (fun s p =>
    let chips := ((s.blocks.filter fun x => decide (x.2.gid = b.gid) && decide (x.2.st ≠ .dead) && (x.2.groups.any fun y => decide (y.1 = p.1))).map
      fun x => x.2.chip).eraseDups
    chips.foldl (fun s y => s.modChip y fun c => c.mapRoute b.ctx p.1 b.chip) s) s

/-- A saved block, or the missing warps of one, come back to a core (R192, R233, R410): the remap tables first; what the core may
still return of a line is not older than what the block has seen (R276). -/
def State.resumeOn (s : State) (b : Block) (core : Nat) (c : Core) : State :=
  let ws := s.images b.node
  let c := if core = b.core then c else (s.core b.core).copies.foldl (fun (c : Core) p => c.atLeast p.1 p.2.ver none) c
  let c := c.untag b.node b.savedTags
  let c := { c with mq := c.mq ++ ws.flatMap fun p => p.2.queued, sallocQ := c.sallocQ ++ ws.filterMap fun p => p.2.request }
  let s := (((s.setCore core c).modBlock b.node fun b => { b with core := core, st := .running, savedTags := [] }).modChip b.chip
    fun x => x.mapCore b.ctx b.cid core).mapRoutes b
  let s := ws.foldl (fun (s : State) p =>
    let at_ := s.seat core
    s.modWarp p.1 fun w => w.resumed core at_.1 at_.2) s
  let s := { s with warps := s.warps.map fun p => if p.2.node = b.node then (p.1, { p.2 with core := core }) else p }
  let s := if c.mq.isEmpty then s else s.sendOnce .matrixStart { core := core }
  if c.sallocQ.isEmpty then s else s.sendOnce .sallocGrant { core := core }

/-! ## Starting (R308, R375, R462) -/

/-- A block that waits for a core of its chip. -/
def Block.waits (b : Block) (chip : Nat) : Bool :=
  decide (b.chip = chip) && (decide (b.st = .queued) || decide (b.st = .saved)) && !b.leaving

/-- A waiting block takes the best core, if it fits one. -/
def State.placeOne (s : State) (b : Block) : Option State :=
  (s.bestCore b.chip (s.demand b)).map fun p => if b.st = .queued then s.startOn b p.1 p.2 else s.resumeOn b p.1 p.2

/-- Waiting blocks take cores, all of them or none. -/
def State.placeAll (s : State) (l : List Block) : Option State := l.foldl (fun a b => a.bind fun s => s.placeOne b) (some s)

/-- The blocks that must get their cores together with a waiting block (R308), in ascending block id. -/
def State.together (s : State) (b : Block) : List Block :=
  s.coMates b ((tabVals s.blocks).filter fun x => x.waits b.chip)

/-- The first fresh block in the distributor's order: rows as they were placed, blocks by id (R375). -/
def State.firstQueued (s : State) (chip : Nat) : Option Block :=
  let order := fun (b : Block) => (((s.chip chip).plate.row? b.gid b.row).map PRow.order).getD 0
  leastBy (fun b => [order b, b.bid]) ((tabVals s.blocks).filter fun b => b.waits chip && decide (b.st = .queued))

/-- The room that the images of some rows take in a save area (R406). -/
def imageBytes (rows : List Nat) : Nat := (rows.map fun n => 4096 + 132 * n).foldl (· + ·) 0

/-- Whether a context's save area on a chip has room for images of some rows beside those it holds (R407). -/
def State.saveRoom (s : State) (chip ctx : Nat) (rows : List Nat) : Bool :=
  match (s.chip chip).saves.find? fun x => decide (x.1 = ctx) with
  | none => false
  | some a =>
    let mine := (tabVals s.blocks).filter fun b => decide (b.chip = chip) && decide (b.ctx = ctx) &&
      (decide (b.st = .running) || decide (b.st = .saved))
    let held := mine.flatMap fun b => (s.images b.node).map fun p => p.2.rows.length
    decide (4096 + imageBytes held + imageBytes rows ≤ a.2.2)

/-- R309: a running block all of whose warps wait at a group barrier, or on a collective, of groups that are not co-resident and
that it shares with a waiting block. -/
def State.givesWay (s : State) (y b : Block) : Bool :=
  let shared := (y.groups.map Prod.fst).filter fun g => (b.groups.any fun x => decide (x.1 = g)) &&
    !((((s.grid? y.gid).bind fun r => tabLook r.groups g).map Group.co).getD true)
  let at_ := fun (g : Gang) => match g.wait with
    | .gbar n => shared.contains n
    | .stall (.osc .coll _) => true
    | _ => false
  let ws := s.liveWarps y.node
  decide (y.gid = b.gid) && decide (y.chip = b.chip) && decide (y.node ≠ b.node) && !shared.isEmpty && !ws.isEmpty &&
    ws.all fun p => p.2.gangs.all at_

/-- The warps that may be evicted for a waiting block (R405): of other contexts, on cores that could hold it, where the context
has a save area with room. -/
def State.victims (s : State) (b : Block) (d : Demand) : List (Nat × Warp) :=
  s.warps.filter fun p => p.2.resident && decide (p.2.live ≠ 0) && decide (chipOfCore p.2.core = b.chip) &&
    decide (d.kib ≤ (s.core p.2.core).kib) && match s.block? p.2.node with
      | some y => decide (y.st = .running) && decide (y.ctx ≠ b.ctx) && !y.leaving && s.saveRoom b.chip y.ctx [p.2.rows.length]
      | none => false

/-- The order in which victims are taken, greatest first (R405). -/
def State.warpAge (s : State) (w : Warp) : List Nat := ((s.block? w.node).map s.age).getD [0, 0] ++ [w.idx]

/-- The greatest of a list by a key. -/
def greatestBy {α : Type} (key : α → List Nat) (l : List α) : Option α :=
  l.foldl (fun (a : Option α) x => match a with
    | some y => if keyLess (key y) (key x) then some x else a
    | none => some x) none

/-- Whether an eviction is under way on a chip. -/
def State.evicting (s : State) (chip : Nat) : Bool :=
  s.agenda.any fun d => decide (d.ev = .eviction) && (((s.warp? d.cue.warp).map fun w => decide (chipOfCore w.core = chip)).getD false)

/-- R309: a block of a waiting member's group that only waits for the group leaves its core. -/
def State.makeWay (s : State) (b : Block) : State :=
  if s.evicting b.chip then s
  else match (tabVals s.blocks).find? fun y => decide (y.st = .running) && !y.leaving && s.givesWay y b &&
      s.saveRoom b.chip y.ctx ((s.liveWarps y.node).map fun p => p.2.rows.length) with
  | some y => (s.liveWarps y.node).foldl (fun s p => if p.2.resident then s.sendOnce .eviction { warp := p.1 } else s) s
  | none => s

/-- Room is made for the first block that waits (R405): its core is defragmented where that is all it takes (R172); else a warp of
another context leaves; and for every member of a group that waits for a core, a member that only waits for the group (R309). -/
def State.makeRoom (s : State) (b : Block) : State :=
  if s.evicting b.chip then s
  else
    let s := match ((List.range 2048).map (b.chip * 2048 + ·)).find? fun core => s.fragmented core (s.demand b) with
      | some core => s.sendOnce .burnisherMove { core := core }
      | none => match greatestBy (fun (p : Nat × Warp) => s.warpAge p.2) (s.victims b (s.demand b)) with
        | some p => s.sendOnce .eviction { warp := p.1 }
        | none => s
    ((tabVals s.blocks).filter fun x => x.waits b.chip).foldl State.makeWay s

/-- A BLOCKED event (R355). -/
def State.postBlocked (s : State) (b : Block) (fresh : Bool) : State :=
  (s.modBlock b.node fun b => { b with leaving := true }).postEvent b.chip 2 b.ctx
    (leBytes 4 b.gid ++ leBytes 4 b.bid ++ leBytes 4 b.row ++ leBytes 1 (if fresh then 1 else 0)) []

/-- BLOCK_START (R308, R309, R337, R375, R405, R462): the first fresh block of the chip takes a core, with the members of its
co-resident groups; where none has room for the moment it waits, in order, and room is made. -/
def execBlockStart (s : State) : Host.Outcome State Fault Refusal :=
  let chip := s.cue.chip
  let again := fun (s : State) => match s.firstQueued chip with
    | some b => Host.Outcome.next (s.sendOnce .blockStart { chip := chip, gid := b.gid, row := b.row, num := b.bid })
    | none => .next s
  match s.firstQueued chip with
  | none => .next s
  | some b =>
    if (s.chip chip).fenced ∨ (s.grid? b.gid).isNone then .next s
    else if (s.chip chip).tskew then again s
    else if !s.coverable chip (s.demand b) then again (s.postBlocked b true)
    else match s.placeAll (s.together b) with
      | some s' => again s'
      | none => again (s.makeRoom b)

/-! ## Eviction (R405 to R408) -/

/-- A warp leaves its core with its image (R183, R233, R408). -/
def State.leave (s : State) (k : Nat) (w : Warp) : State :=
  let s := (List.range w.rows.length).foldl (fun s r => s.unshare k r) s
  let c := s.core w.core
  let s := s.setCore w.core { c with
    mq := c.mq.filter fun o => decide (o.warp ≠ k)
    sallocQ := c.sallocQ.filter fun r => decide (r.warp ≠ k)
    pieces := c.pieces.filter fun p => p.scr || decide (p.owner ≠ k)
    vtab := c.vtab.filter fun e => !e.srcs.any fun x => decide (x.1 = k) }
  let s := s.modWarp k fun w =>
    { w with resident := false, queued := c.mq.filter (fun o => decide (o.warp = k)), request := c.sallocQ.find? fun r => decide (r.warp = k) }
  let here := s.warps.any fun p => decide (p.2.node = w.node) && p.2.resident && decide (p.2.live ≠ 0)
  let s := match here, s.block? w.node with
    | false, some b =>
      let c := s.core w.core
      let tags := ((tabVals c.tags).filter fun (e : TagEntry) => decide (e.node = w.node)).map fun (e : TagEntry) => (e.tag, e.slot, e.pending)
      let s := s.setCore w.core { c with
        tags := c.tags.filter fun e => decide (e.2.node ≠ w.node)
        pieces := c.pieces.filter fun p => decide (p.node ≠ w.node) }
      let s := { s with warps := s.warps.map fun (p : Nat × Warp) =>
        if p.2.node = w.node ∧ p.2.live = 0 then (p.1, { p.2 with resident := false }) else p }
      (s.modBlock w.node fun b => { b with st := .saved, leaving := false, savedTags := tags }).evictMates b
    | _, _ => s
  let s := if (s.core w.core).sallocQ.isEmpty then s else s.sendOnce .sallocGrant { core := w.core }
  s.sendOnce .blockResume { node := w.node, core := w.core }

/-- EVICTION (R405 to R408): a warp leaves at its next switch point, once its copies and gathers have retired. Without room for
its image the eviction does not take place, or, where `num` is 1, turns to rollback (R407). -/
def execEviction (s : State) : Host.Outcome State Fault Refusal :=
  let k := s.cue.warp
  match s.warp? k with
  | none => .next s
  | some w =>
    match s.block? w.node with
    | none => .next s
    | some b =>
      let again := Host.Outcome.next (s.send .eviction s.cue)
      if !w.resident ∨ w.live = 0 then .next s
      else if b.st = .gated then again
      else if b.st ≠ .running then .next s
      else if !w.atSwitch || (w.ops.any fun o => decide (o.cls = .copy) || decide (o.cls = .gath)) then again
      else if s.saveRoom b.chip b.ctx [w.rows.length] then .next (s.leave k w)
      else
        let s := s.modBlock w.node fun b => { b with leaving := false }
        .next (if s.cue.num = 1 then s.sendOnce .blockRollback { node := w.node } else s)

/-! ## Resumption (R192, R410) -/

/-- Whether a saved block stays away for the chip's first fresh block, or for a member of a group that both are in, for which it would
be evicted again (R309, R405): a member that does not itself wait for that group. -/
def State.heldOff (s : State) (b : Block) : Bool :=
  ((s.firstQueued b.chip).map fun f => decide (f.ctx ≠ b.ctx) && !(s.victims f (s.demand f)).isEmpty).getD false ||
    (tabVals s.blocks).any fun x => x.waits b.chip && s.givesWay b x && !s.givesWay x b

/-- R308: members of a block's co-resident groups are still on their way off its chip: it waits for them, to resume together. -/
def State.matesLeaving (s : State) (b : Block) : Bool :=
  !(s.coMates b ((tabVals s.blocks).filter fun x => decide (x.chip = b.chip) && x.leaving &&
    (decide (x.st = .running) || decide (x.st = .gated)))).isEmpty

/-- BLOCK_RESUME (R192, R410): a block with warps in the save area gets them back, on the core where others of it still are, else
on the best core of the chip; a saved context that no core of the chip covers is reported. -/
def execBlockResume (s : State) : Host.Outcome State Fault Refusal :=
  let node := s.cue.node
  match s.block? node with
  | none => .next s
  | some b =>
    let d := s.demand b
    let again := Host.Outcome.next (s.sendOnce .blockResume s.cue)
    match b.st with
    | .running =>
      if (s.images node).isEmpty then .next s
      else if b.leaving ∨ s.heldOff b then again
      else match s.fitsOn b.core d with
        | some c => .next (s.resumeOn b b.core c)
        | none => again
    | .saved =>
      if b.leaving ∨ (s.chip b.chip).fenced then .next s
      else if !s.coverable b.chip d then .next (s.postBlocked b false)
      else if s.heldOff b || s.matesLeaving b then again
      else match s.placeAll (s.together b) with
        | some s' => .next s'
        | none => .next ((s.makeWay b).sendOnce .blockResume s.cue)
    | _ => .next s

/-! ## Reports of rows (R356, R369, R375) -/

/-- A row joins the batches of a chip (R356). -/
def joinBatch (b : Batch) : List Batch → List Batch
  | [] => [b]
  | x :: r =>
    if x.type = b.type ∧ x.gid = b.gid ∧ x.first + x.count = b.first then { x with count := x.count + 1 } :: r
    else if x.type = b.type ∧ x.gid = b.gid ∧ b.first + 1 = x.first then { x with first := b.first, count := x.count + 1 } :: r
    else x :: joinBatch b r

/-- A report of a row of type 1 (FINISH) or 7 (TRIGGER) falls due, once for each generation of the row. -/
def State.reportRow (s : State) (chip type gid row : Nat) (ok : Block → Bool) : State :=
  let c := s.chip chip
  match c.plate.row? gid row with
  | none => s
  | some r =>
    let mine := fun (bid : Nat) => ((s.nodeOf gid bid).map fun b => decide (b.chip = chip) && ok b).getD false
    if r.st ≠ .placed ∨ r.chip ≠ chip ∨ c.reported.contains (type, gid, row, r.gen) ∨ !((c.plate.blocksOf r).all mine) then s
    else
      let ctx := ((tabLook c.plate.grids gid).map PGrid.ctx).getD 0
      let b : Batch := { type := type, gid := gid, ctx := ctx, first := row, count := 1, since := s.podTime chip }
      (s.setChip chip { c with reported := c.reported ++ [(type, gid, row, r.gen)], batches := joinBatch b c.batches }).sendOnce
        .reportBatchDeadline { chip := chip }

/-- FINISH_REPORT (R375): every block of the row is complete. -/
def execFinishReport (s : State) : Host.Outcome State Fault Refusal :=
  let c := s.cue
  .next (s.reportRow c.chip 1 c.gid c.row fun b => b.finished)

/-- Whether every fibre of a block has executed `trig` or ended (R369). -/
def State.triggered (s : State) (b : Block) : Bool :=
  match b.st with
  | .running | .saved => (s.liveWarps b.node).all fun p => decide (p.2.live &&& ~~~p.2.triggered = 0)
  | .ended | .committed => true
  | _ => false

/-- TRIGGER_REPORT (R369): every fibre of every block of the row has triggered or ended. -/
def execTriggerReport (s : State) : Host.Outcome State Fault Refusal :=
  let c := s.cue
  .next (s.reportRow c.chip 7 c.gid c.row s.triggered)

/-- REPORT_BATCH_DEADLINE (R355, R356): the batches of a chip are posted. -/
def execReportBatchDeadline (s : State) : Host.Outcome State Fault Refusal :=
  let chip := s.cue.chip
  let l := (s.chip chip).batches
  let s := s.modChip chip fun c => { c with batches := [] }
  .next (l.foldl (fun s b => s.postEvent chip b.type b.ctx (leBytes 4 b.gid ++ leBytes 4 b.first ++ leBytes 4 b.count) []) s)

end Sys2Proof.Machine
end

