-- ==== Sys2Proof/Machine/Plate.lean ====
section
/-! DEFINITION. The Plate as a state machine: what a delivered event does to it, and placement (13 R362 to R372). -/

namespace Sys2Proof.Machine

/-! ## Decisions (R370) -/

/-- A decision is recorded (R370): GID, row, chip (0xFFFF for none) and kind. -/
def Plate.decide_ (p : Plate) (gid row chip kind : Nat) : Plate :=
  { p with decs := p.decs ++ leBytes 4 gid ++ leBytes 4 row ++ leBytes 2 chip ++ leBytes 1 kind ++ List.replicate 5 0 }

/-- No chip. -/
def noChip : Nat := 0xFFFF

/-! ## Lookups -/

def Plate.grid? (p : Plate) (gid : Nat) : Option PGrid := tabLook p.grids gid
def Plate.modGrid (p : Plate) (gid : Nat) (f : PGrid → PGrid) : Plate := { p with grids := tabUpd p.grids gid f }
def Plate.modChip (p : Plate) (c : Nat) (f : PChip → PChip) : Plate := { p with chips := tabUpd p.chips c f }

/-- The rows of a grid, in ascending row number. -/
def Plate.rowsOf (p : Plate) (gid : Nat) : List PRow := p.rows.filter fun r => decide (r.gid = gid)

/-- A row of the table changed. -/
def Plate.modRow (p : Plate) (gid row : Nat) (f : PRow → PRow) : Plate :=
  { p with rows := p.rows.map fun r => if r.gid = gid ∧ r.row = row then f r else r }

/-- The chips that the Plate marks live, in ascending order. -/
def Plate.live (p : Plate) : List Nat := (p.chips.filter fun c => decide (c.2.st = .live)).map Prod.fst

/-- A chip's outstanding count falls by 1. -/
def Plate.release (p : Plate) (c : Nat) : Plate := p.modChip c fun x => { x with out := x.out - 1 }

/-- Whether some core of a chip has a capacity of at least a need in KiB. -/
def PChip.holds (c : PChip) (need : Nat) : Bool :=
  (decide (c.caps.length < 2048) && decide (need ≤ 512)) || c.caps.any fun x => decide (need ≤ 64 * x.2)

/-- Fields of a grid image (R363, R364). -/
def PGrid.field (g : PGrid) (off n : Nat) : Nat := fieldAt g.image off n
def PGrid.need (g : PGrid) : Nat := g.field 128 4
def PGrid.energy (g : PGrid) : Nat := g.field 136 4

/-! ## Placement (R367) -/

/-- chips(q): where a row may go. -/
def Plate.chipsFor (p : Plate) (g : PGrid) (r : PRow) : List (Nat × PChip) :=
  p.chips.filter fun c => decide (c.2.st = .live) && decide (g.field 18 2 ≤ c.1) && decide (c.1 ≤ g.field 20 2) &&
    decide (r.excl ≠ some c.1) && c.2.holds g.need

/-- The chip of a set with the least (outstanding rows, chip number). -/
def bestChip (l : List (Nat × PChip)) : Option (Nat × PChip) := leastBy (fun c => [c.2.out, c.1]) l

/-- Places a row on a chip, at an event's STAMP. -/
def Plate.put (p : Plate) (stamp : Nat) (r : PRow) (c : Nat) : Plate :=
  let p := p.modRow r.gid r.row fun x => { x with st := .placed, chip := c, gen := x.gen + 1, order := p.placings }
  let p := (p.modChip c fun x => { x with out := x.out + 1 }).modGrid r.gid fun g =>
    { g with st := .running, placed := some (g.placed.getD stamp) }
  ({ p with placings := p.placings + 1 } : Plate).decide_ r.gid r.row c 0

/-- Whether a gang holds a row. -/
def PGang.holds (k : PGang) (r : PRow) : Bool := decide (k.gid = r.gid) && decide (k.first ≤ r.row) && decide (r.row ≤ k.last)

/-- The gang that holds a row. -/
def Plate.gangOf (p : Plate) (r : PRow) : Option PGang :=
  p.gangs.find? fun k => k.holds r

/-- The pending rows of a gang. -/
def Plate.pendingOf (p : Plate) (k : PGang) : List PRow :=
  p.rows.filter fun r => k.holds r && decide (r.st = .pending)

/-- A sort by a key, stable. -/
def sortBy {α : Type} (key : α → List Nat) (l : List α) : List α :=
  l.foldr (fun x r => r.filter (fun y => keyLess (key y) (key x)) ++ [x] ++ r.filter fun y => !keyLess (key y) (key x)) []

/-- A trial in one dragonfly group: every pending row of the gang finds a chip there, or none is placed. -/
def Plate.tryGroup (p : Plate) (stamp : Nat) (g : PGrid) (h : Nat) (l : List PRow) : Option Plate :=
  l.foldl (fun (a : Option Plate) q => a.bind fun p =>
    (bestChip ((p.chipsFor g q).filter fun c => decide (c.2.group = h))).map fun c => p.put stamp q c.1) (some p)

/-- One row's turn in placement; the flag tells that the budget ended the placement. -/
def Plate.placeRow (stamp : Nat) (x : Plate × Bool) (key : Nat × Nat) : Plate × Bool :=
  let p := x.1
  match p.row? key.1 key.2, p.grid? key.1 with
  | some r, some g =>
    if x.2 ∨ r.st ≠ .pending then x
    else
      let k := p.gangOf r
      let l := match k with
        | some k => p.pendingOf k
        | none => [r]
      if (l.head?.map PRow.row) ≠ some r.row then x
      else
        let e := (l.map fun q => (p.blocksOf q).length * g.energy).foldl (· + ·) 0
        if e ≠ 0 ∧ p.committed ≠ 0 ∧ p.budget < p.committed + e then (p, true)
        else match k with
          | none => (match bestChip (p.chipsFor g r) with
            | some c => ({ p.put stamp r c.1 with committed := p.committed + e }, false)
            | none => x)
          | some k =>
            let hs := match k.group with
              | some h => [h]
              | none => ((sortBy (fun (c : Nat × PChip) => [c.2.out, c.1]) (p.chipsFor g r)).map fun (c : Nat × PChip) => c.2.group).eraseDups
            match hs.findSome? fun h => (p.tryGroup stamp g h l).map fun q => (h, q) with
            | some (h, q) =>
              ({ q with committed := q.committed + e
                        gangs := q.gangs.map fun y => if y = k then { y with group := some h } else y }, false)
            | none => x
  | _, _ => x

/-- R367: placement after a delivered event. -/
def Plate.placement (p : Plate) (stamp : Nat) : Plate :=
  let gs := p.grids.filter fun g => decide (g.2.st = .eligible) || decide (g.2.st = .running)
  let keys := gs.flatMap fun g => ((p.rowsOf g.1).filter fun r => decide (r.st = .pending)).map fun r => (g.1, r.row)
  (keys.foldl (Plate.placeRow stamp) (p, false)).1

/-! ## Ends of grids and dependence (R362, R366, R369) -/

/-- A grid has ended: the 1,025th last to end leaves the tables (R362). -/
def Plate.retire (p : Plate) (gid : Nat) : Plate :=
  let l := p.ended.filter (· ≠ gid) ++ [gid]
  if 1024 < l.length then
    let old := l.headD 0
    { p with
      ended := l.drop 1, grids := tabDel p.grids old, rows := p.rows.filter fun r => decide (r.gid ≠ old)
      gangs := p.gangs.filter fun k => decide (k.gid ≠ old) }
  else { p with ended := l }

/-- A row becomes pending with a new generation. -/
def Plate.again (p : Plate) (r : PRow) : Plate :=
  (p.modRow r.gid r.row fun x => { x with st := .pending, gen := x.gen + 1, res := false, triggered := false }).decide_ r.gid r.row noChip 1

/-- A grid faults (R366): its pending and placed rows are gone. -/
def Plate.fault (p : Plate) (gid cause writer : Nat) : Plate :=
  let gone := (p.rowsOf gid).filter fun r => decide (r.st ≠ .finished)
  let p := gone.foldl (fun p r => if r.st = .placed then p.release r.chip else p) p
  let p : Plate := { p with rows := p.rows.filter fun (r : PRow) => decide (r.gid ≠ gid) || decide (r.st = .finished) }
  ((p.modGrid gid fun g => { g with st := .faulted, cause := cause, writer := writer }).retire gid).decide_ gid 0 noChip 8

/-- A grid goes back to its last proof (R366): every row becomes pending. -/
def Plate.restart (p : Plate) (gid : Nat) (proof : Option Nat) : Plate :=
  let p := (p.rowsOf gid).foldl (fun p r => (if r.st = .placed then p.release r.chip else p).again r) p
  let free := fun (k : PGang) => if k.gid = gid then { k with group := none } else k
  let p : Plate := { p with gangs := p.gangs.map free, ended := p.ended.filter (· ≠ gid) }
  p.modGrid gid fun g => { g with st := .running, runs := g.runs + 1, rolled := proof }

/-- DEPGRID of a grid. -/
def Plate.depOf (p : Plate) (g : PGrid) : Nat := p.base + g.field 24 4

/-- Whether a grid's dependency holds (R369). -/
def Plate.depHolds (p : Plate) (g : PGrid) : Bool :=
  match g.field 22 1, p.grid? (p.depOf g) with
  | 0, _ => true
  | _, none => true
  | 1, some d => decide (d.st = .complete)
  | _, some d => decide (d.st ≠ .faulted) && decide (d.st ≠ .refused) && decide ((p.rowsOf d.gid).length ≠ 0) &&
      (p.rowsOf d.gid).all fun (r : PRow) => r.triggered || decide (r.st = .finished)

/-- One waiting grid looked at again. -/
def Plate.wakeGrid (p : Plate) (gid : Nat) : Plate :=
  match p.grid? gid with
  | none => p
  | some g =>
    if g.st ≠ .waiting then p
    else if g.field 22 1 ≠ 0 ∧ ((p.grid? (p.depOf g)).map fun d => decide (d.st = .faulted)).getD false then
      p.fault gid 0x300 (if (p.live).contains g.poster then g.poster else p.live.headD g.poster)
    else if p.depHolds g then (p.modGrid gid fun g => { g with st := .eligible }).decide_ gid 0 noChip 6
    else p

/-- Waiting grids whose dependency holds become eligible, those of a faulted one fault, in turn with their own (R366, R369). -/
def Plate.wakeAll (p : Plate) : Plate := (tabKeys p.grids).foldl Plate.wakeGrid p

/-- A grid whose rows have all finished is complete; a chip is to write its record. -/
def Plate.settle (p : Plate) (writer gid : Nat) : Plate :=
  match p.grid? gid with
  | some g =>
    let l := p.rowsOf gid
    if g.st = .running ∧ l.length ≠ 0 ∧ (l.all fun (r : PRow) => decide (r.st = .finished)) then
      ((p.modGrid gid fun g => { g with st := .complete, writer := writer }).retire gid).decide_ gid 0 noChip 7
    else p
  | none => p

/-! ## What the events do (R366) -/

/-- A field of the payload, by its offset in the record. -/
def evField (e : Event) (off n : Nat) : Nat := fieldAt e.payload (off - 20) n

/-- GID of an event. -/
def Plate.gid (p : Plate) (e : Event) : Nat := p.base + evField e 20 4

/-- SUBMIT. -/
def Plate.submit (p : Plate) (e : Event) : Plate :=
  let gid := p.nextGid
  let g : PGrid :=
    { gid := gid, ctx := e.ctx, image := e.cont.take (evField e 20 2), poster := e.src, origin := evField e 22 1, stamp := e.stamp }
  let k := max 1 (g.field 12 4)
  let n := g.rows
  let m := g.field 134 2
  let held := p.grids.countP fun x => decide (x.2.st = .waiting) || decide (x.2.st = .eligible) || decide (x.2.st = .running)
  let code : Nat :=
    if !(p.chips.any fun c => decide (c.2.st = .live) && decide (g.field 18 2 ≤ c.1) && decide (c.1 ≤ g.field 20 2) && c.2.holds g.need) then 16
    else if 4096 ≤ held ∨ 262144 < p.rows.length + n ∨ 16384 < p.gangs.length + m then 17
    else if g.field 22 1 ≠ 0 ∧ (gid ≤ p.depOf g ∨ ((p.grid? (p.depOf g)).map fun d => decide (d.st = .refused)).getD false) then 18
    else 0
  let p := { p with nextGid := gid + 1 }
  if code ≠ 0 then
    (({ p with grids := tabPut p.grids gid { g with st := .refused, cause := code, writer := e.src } } : Plate).retire gid).decide_ gid 0 noChip 2
  else
    let nblk := g.field 8 4
    let rows : List PRow := (List.range n).map fun i => { gid := gid, row := i, first := i * k, count := min ((i + 1) * k) nblk - i * k }
    let gangs : List PGang := (List.range m).map fun i => { gid := gid, first := g.field (144 + 8 * i) 4, last := g.field (148 + 8 * i) 4 }
    ({ p with grids := tabPut p.grids gid g, rows := p.rows ++ rows, gangs := p.gangs ++ gangs } : Plate).wakeGrid gid

/-- The rows that a FINISH or TRIGGER names and that are placed on its poster. -/
def Plate.named (p : Plate) (e : Event) : List PRow :=
  (p.rowsOf (p.gid e)).filter fun r =>
    decide (evField e 24 4 ≤ r.row) && decide (r.row < evField e 24 4 + evField e 28 4) && decide (r.st = .placed) && decide (r.chip = e.src)

/-- FINISH. -/
def Plate.finish (p : Plate) (e : Event) : Plate :=
  let p := (p.named e).foldl (fun p r => (p.modRow r.gid r.row fun x => { x with st := .finished }).release e.src) p
  (p.settle e.src (p.gid e)).wakeAll

/-- TRIGGER. -/
def Plate.trigger (p : Plate) (e : Event) : Plate :=
  ((p.named e).foldl (fun p r => p.modRow r.gid r.row fun x => { x with triggered := true }) p).wakeAll

/-- BLOCKED. -/
def Plate.blocked (p : Plate) (e : Event) : Plate :=
  let gid := p.gid e
  let bid := evField e 24 4
  match p.grid? gid, p.row? gid (evField e 28 4) with
  | some g, some r =>
    if g.st ≠ .running ∨ r.st ≠ .placed ∨ r.chip ≠ e.src ∨ !(p.blocksOf r).contains bid then p
    else
      let res := decide (evField e 32 1 = 0)
      if (p.blocksOf r).length = 1 then
        ((p.modRow gid r.row fun x => { x with st := .pending, gen := x.gen + 1, excl := some e.src, res := res }).release e.src).decide_ gid r.row noChip 1
      else
        let row := (p.rowsOf gid).foldl (fun m x => max m (x.row + 1)) g.rows
        let new : PRow := { gid := gid, row := row, first := bid, count := 1, gen := r.gen, excl := some e.src, res := res }
        ({ p with rows := p.rows ++ [new] } : Plate).decide_ gid row noChip 1
  | _, _ => p

/-- FAULT, KIND 0. -/
def Plate.faultGrid (p : Plate) (e : Event) : Plate :=
  let gid := p.gid e
  match (p.grid? gid).map PGrid.st with
  | none | some .faulted | some .refused => p
  | _ => (p.fault gid (evField e 28 4) e.src).wakeAll

/-- FAULT, KIND 1, for a grid with a last proof or none. -/
def Plate.faultProof (p : Plate) (e : Event) (proof : Option Nat) : Plate :=
  let gid := p.gid e
  match (p.grid? gid).map PGrid.st with
  | some .running | some .complete => p.restart gid proof
  | _ => p

/-- R372: a chip is lost or fenced: its unfinished rows become pending, and the grids that its memory touched fault or go back to
their last proofs. `touch` gives the contexts with pages there and the recovery that applies: 0 plain, 2 proofed. -/
def Plate.lose (p : Plate) (stamp c : Nat) (st : CState) (touch : List (Nat × Nat)) (proof : Nat → Option Nat) : Plate :=
  let p := p.modChip c fun x => { x with st := st, since := stamp }
  let p := p.decide_ 0 0 c (if st = .fenced then 3 else 4)
  let there := p.rows.filter fun r => decide (r.st = .placed) && decide (r.chip = c)
  let mine := fun (k : PGang) => there.any k.holds
  let p := there.foldl Plate.again p
  let p := p.modChip c fun x => { x with out := 0 }
  let kept := fun (k : PGang) => !mine k || p.rows.any fun r => k.holds r && decide (r.st = .placed)
  let p : Plate := { p with gangs := p.gangs.map fun (k : PGang) => if kept k then k else { k with group := none } }
  let run := (p.grids.filter fun g => decide (g.2.st = .running)).map fun g => (g.1, g.2.ctx)
  (run.foldl (fun p g =>
    if touch.contains (g.2, 0) then p.fault g.1 1 (p.live.headD c)
    else if touch.contains (g.2, 2) then p.restart g.1 (proof g.1)
    else p) p).wakeAll

/-- CHIPLOSS. -/
def Plate.chipLoss (p : Plate) (e : Event) (touch : Nat → List (Nat × Nat)) (proof : Nat → Option Nat) : Plate :=
  let c := evField e 20 2
  match tabLook p.chips c with
  | some x => if x.st = .live ∧ x.inc = evField e 22 1 then p.lose e.stamp c .lost (touch c) proof else p
  | none => p

/-- REJOIN (R374). -/
def Plate.rejoin (p : Plate) (e : Event) : Plate :=
  match (tabLook p.chips e.src).map PChip.st with
  | some .fenced | some .lost =>
    (p.modChip e.src fun x => { x with st := .live, inc := evField e 20 1, out := 0 }).decide_ 0 0 e.src 5
  | _ => p

/-- CAPACITY. -/
def Plate.capacity (p : Plate) (e : Event) : Plate :=
  p.modChip e.src fun x => { x with caps := tabPut x.caps (evField e 20 2) (evField e 22 1) }

/-- A DIGEST among the votes on its span. -/
def voteIn (e : Event) (x : PSpan) : PSpan :=
  if x.num = evField e 24 8 ∧ !(x.votes.any fun v => decide (v.1 = e.src)) then
    { x with votes := x.votes ++ [(e.src, (e.payload.drop 12).take 16)] }
  else x

/-- DIGEST. -/
def Plate.digest (p : Plate) (e : Event) : Plate := { p with spans := p.spans.map (voteIn e) }

/-- ENERGY. -/
def Plate.energy (p : Plate) (e : Event) : Plate :=
  if p.interval < evField e 24 8 then { p with interval := evField e 24 8, budget := evField e 32 8, committed := 0 } else p

/-- USER: the oldest of more than 1,024 events of a context is dropped. -/
def Plate.user (p : Plate) (e : Event) : Plate :=
  let n := (tabLook p.userNum e.ctx).getD 0 + 1
  let mine := p.users.filter fun u => decide (u.ctx = e.ctx)
  let l := if 1024 ≤ mine.length then p.users.filter fun u => decide (some u ≠ mine.head?) else p.users
  { p with userNum := tabPut p.userNum e.ctx n
           users := l ++ [{ ctx := e.ctx, num := n, key := evField e 20 4, data := ((e.payload ++ List.replicate 44 0).drop 4).take 40 }] }

/-! ## Judgement of spans (R370, R371) -/

/-- The digest that wins a span, if one does: the chips that were live at the span's end vote. -/
def PSpan.winner (x : PSpan) : Option (List Byte) :=
  let votes := x.votes.filter fun v => x.live.contains v.1
  let count := fun (d : List Byte) => votes.countP fun v => decide (v.2 = d)
  let top := (votes.map fun v => count v.2).foldl max 0
  let best := ((votes.filter fun v => decide (count v.2 = top)).map Prod.snd).eraseDups
  match best with
  | [] => none
  | [d] => some d
  | _ => ((votes.find? fun v => decide (some v.1 = x.live.head?) && best.contains v.2)).map Prod.snd

/-- The chips that a judged span fences. -/
def PSpan.losers (x : PSpan) : List Nat :=
  match x.winner with
  | none => []
  | some d => x.live.filter fun c => !(x.votes.any fun v => decide (v.1 = c) && decide (v.2 = d))

/-- The spans due at an event's STAMP. -/
def dueSpans (l : List PSpan) (stamp : Nat) : List PSpan := l.filter fun x => decide (x.stamp + 50000 ≤ stamp)

/-- R371: the spans due at an event's STAMP are judged. -/
def Plate.judge (p : Plate) (stamp : Nat) (touch : Nat → List (Nat × Nat)) (proof : Nat → Option Nat) : Plate :=
  (dueSpans p.spans stamp).foldl (fun (p : Plate) x =>
    let p := { p with spans := p.spans.filter fun y => decide (y.num ≠ x.num) }
    (x.losers.filter fun c => p.live.contains c).foldl (fun p c => p.lose stamp c .fenced (touch c) proof) p) p

/-- The event joins its span; the 256th ends it (R370): the chips then live vote on it. -/
def Plate.close (p : Plate) (e : Event) : Plate :=
  if e.type = 8 then { p with index := p.index + 1 }
  else
    let p := { p with index := p.index + 1, count := p.count + 1, span := p.span ++ eventRecords e }
    if p.count % 256 ≠ 0 then p
    else { p with spans := p.spans ++ [{ num := p.count / 256 - 1, stamp := e.stamp, live := p.live }] }

end Sys2Proof.Machine
end

