-- ==== Sys2Proof/Machine/Order.lean ====
section
/-! DEFINITION. The Clamir order service: posting, heartbeats, horizons, the conditions of delivery (13 R353 to R361, R368). -/

namespace Sys2Proof.Machine

/-! ## Keys and what a chip holds of a source (R354, R357) -/

/-- The order of events: (STAMP, SRC). -/
def keyBefore (a b : Nat × Nat) : Bool := keyLess [a.1, a.2] [b.1, b.2]

/-- What a chip knows of a source. -/
def Chip.info (c : Chip) (src : Nat) : SrcInfo := (tabLook c.src src).getD {}
def Chip.setInfo (c : Chip) (src : Nat) (i : SrcInfo) : Chip := { c with src := tabPut c.src src i }

/-- The highest SEQ held without gaps moves on over events held already. -/
def advance (l : List Event) (src : Nat) : Nat → SrcInfo → SrcInfo
  | 0, i => i
  | n + 1, i =>
    match l.find? fun e => decide (e.src = src) && decide (e.sinc = i.inc) && decide (e.seq = i.upto + 1) with
    | some e => advance l src n { i with upto := e.seq, evStamp := e.stamp }
    | none => i

/-- Heartbeats every event of which is held count from then on (R358). -/
def SrcInfo.settled (i : SrcInfo) : SrcInfo :=
  { i with
    full := (i.beats.filter fun b => decide (b.1 ≤ i.upto)).foldl (fun m b => max m b.2) i.full
    beats := i.beats.filter fun b => decide (i.upto < b.1) }

/-- The events of a chip not delivered yet. -/
def Chip.undelivered (c : Chip) : List Event := c.events.filter fun e => keyBefore c.lastKey (e.stamp, e.src)

/-! ## Horizons and quorum (R358 to R361) -/

/-- Whether a suspect source is held up to what every live chip that is not suspect reports of it in its latest heartbeat (R358). -/
def Chip.closed (c : Chip) (x s : Nat) : Bool :=
  c.plate.live.all fun y => decide (y = x) || (c.info y).suspect.isSome || match (c.info y).reports.find? fun r => decide (r.1 = s) with
    | some r => decide (r.2 ≤ (c.info s).upto)
    | none => false

/-- The greatest time up to which a source is held complete; none when there is no bound (R358). -/
def Chip.heldTo (c : Chip) (x s : Nat) : Option Nat :=
  let i := c.info s
  if i.suspect.isSome && c.closed x s then none
  else some (max i.evStamp i.settled.full - 1)

/-- The HORIZON of a chip (R358). -/
def Chip.horizon (c : Chip) (x : Nat) : Nat :=
  ((c.plate.live.filterMap (c.heldTo x)).foldl (fun (a : Option Nat) t => some (min (a.getD t) t)) none).getD 0

/-- Whether a chip meets the quorum (R361). -/
def Chip.quorum (c : Chip) (x now : Nat) : Bool :=
  let live := c.plate.live
  let near := live.filter fun y => decide (y = x) || decide (now ≤ (c.info y).heard + 20000)
  let n := near.length + (if live.contains x then 0 else 1)
  decide (live.length < 2 * n) || (decide (live.length = 2 * n) && match live.head? with
    | some l => near.contains l
    | none => false)

/-- The earliest undelivered event. -/
def Chip.earliest (c : Chip) : Option Event := leastBy (fun (e : Event) => [e.stamp, e.src]) c.undelivered

/-- R359: the event that a chip of the pod may deliver now. -/
def State.deliverable (s : State) (x : Nat) : Option Event :=
  let c := s.chip x
  match c.earliest with
  | none => none
  | some e =>
    let heard := c.plate.live.all fun y => (c.info y).suspect.isSome || decide (y = x) || decide (e.stamp ≤ (c.info y).horizon)
    if c.inPod && !c.fenced && heard && decide (e.stamp ≤ c.horizon x) && c.quorum x (s.podTime x) then some e else none

/-- The step that delivers an event of a type (R355). -/
def deliveryOf (e : Event) : Instr :=
  match e.type with
  | 0 => .submitDelivery
  | 1 => .finishDelivery
  | 2 => .blockedDelivery
  | 3 => if evField e 24 1 = 1 then .faultRollbackDelivery else .faultGridDelivery
  | 4 => .chiplossDelivery
  | 5 => .rejoinDelivery
  | 6 => .capacityDelivery
  | 7 => .triggerDelivery
  | 8 => .digestDelivery
  | 9 => .energyDelivery
  | 10 => .userDelivery
  | _ => .reservedEventDelivery

/-- A chip delivers what it may. -/
def State.tryDeliver (s : State) (x : Nat) : State :=
  match s.deliverable x with
  | some e => s.sendOnce (deliveryOf e) { chip := x, event := e }
  | none => s

/-! ## Messages of a source (R357, R360) -/

/-- A message of a source has come: it is heard, a chip that counted it suspect may count it so no more (R360), and one of another
incarnation of a chip that is not live is another source's. -/
def State.hear (s : State) (x src sinc stamp : Nat) : State :=
  let now := s.podTime x
  s.modChip x fun c =>
    let i := c.info src
    let i := if i.inc = sinc then i else { inc := sinc, lostAt := i.lostAt }
    let i := { i with heard := max i.heard now, posted := false }
    c.setInfo src (match i.suspect with
      | some t => if t < stamp then { i with suspect := none, reports := [] } else i
      | none => i)

/-- Whether a chip takes messages of the order service: those of a fenced chip's present incarnation in its Plate alone. -/
def State.listens (s : State) (x src sinc : Nat) : Bool :=
  let c := s.chip x
  let p := tabLook c.plate.chips src
  (decide (c.power = .full) || decide (c.power = .joining)) && !c.fenced &&
    (!c.inPod || match p with
      | some y => decide (y.st ≠ .live) || decide (y.inc = sinc)
      | none => true)

/-- Asks for the records of a source that are missing (R357). -/
def State.fetchMissing (s : State) (x asked src upto : Nat) : State :=
  let i := (s.chip x).info src
  if i.upto < upto ∧ asked ≠ x then
    s.sendOnce .missingRecordFetch { chip := asked, peer := x, unit := src, num := i.upto + 1, ct := upto }
  else s

/-- An event reaches a chip from a neighbour (R357 to R360). -/
def State.take (s : State) (x asked : Nat) (e : Event) : State :=
  if !s.listens x e.src e.sinc then s
  else
    let before := ((s.chip x).info e.src).suspect
    let s := s.hear x e.src e.sinc e.stamp
    let c := s.chip x
    let i := c.info e.src
    let late : Bool := c.inPod && decide (e.stamp ≤ c.horizon x)
    let cut : Bool := match before with
      | some t => decide (t ≤ e.stamp)
      | none => false
    if e.seq ≤ i.upto ∨ (c.events.any fun y => decide (y.src = e.src) && decide (y.sinc = e.sinc) && decide (y.seq = e.seq)) ∨ late ∨ cut then
      s.tryDeliver x
    else
      let l := c.events ++ [e]
      let c := { (c.setInfo e.src (advance l e.src l.length i).settled) with
        events := l, heldSince := some (c.heldSince.getD (s.podTime x)) }
      let lost := evField e 20 2
      let c := if e.type = 4 ∧ ((tabLook c.plate.chips lost).map PChip.st) = some .live then
          let j := c.info lost
          c.setInfo lost { j with suspect := some (min (j.suspect.getD e.stamp) e.stamp) }
        else c
      ((s.setChip x c).fetchMissing x asked e.src (e.seq - 1)).tryDeliver x

/-- EVENT_RECEIVE (R341, R357). -/
def execEventReceive (s : State) : Host.Outcome State Fault Refusal :=
  let c := s.cue
  let r := s.letIn c.peer c.chip c (s.dropsEvent c.peer c.chip c.acc)
  .next (if r.2 then s.take c.chip c.peer c.event else r.1)

/-- MISSING_RECORD_FETCH (R357): the records that the asked chip holds go to the asker. -/
def execMissingRecordFetch (s : State) : Host.Outcome State Fault Refusal :=
  let c := s.cue
  let l := (s.chip c.chip).events.filter fun e => decide (e.src = c.unit) && decide (c.num ≤ e.seq) && decide (e.seq ≤ c.ct)
  .next (l.foldl (fun s e => s.tell c.chip c.peer (s.fresh + 1) .eventReceive { chip := c.peer, peer := c.chip, event := e }) s)

/-! ## Posting (R354, R356) -/

/-- An event is given its STAMP, SRC and SEQ and goes to every chip of the pod (R357), or, in solo service, to the chip's own local
Plate at once (R419). -/
def State.post (s : State) (x : Nat) (e : Event) : State :=
  let c := s.chip x
  let e := { e with stamp := s.podTime x, src := x, sinc := c.inc, seq := c.seq + 1 }
  let s := s.setChip x { c with lastStamp := e.stamp, seq := e.seq, permits := c.permits - 1 }
  if c.inPod then
    let s := (s.cfg.chips.filter (· ≠ x)).foldl (fun s y => s.tell x y (s.fresh + 1) .eventReceive { chip := y, peer := x, event := e }) s
    s.take x x e
  else s.send (deliveryOf e) { chip := x, event := e }

/-- Held reports are queued as room frees (R356). -/
def Chip.queueHeld (c : Chip) : Chip :=
  let n := 256 - c.evq.length
  { c with evq := c.evq ++ c.heldReports.take n, heldReports := c.heldReports.drop n }

/-- EVENT_QUEUE_POST (R354, R356): the first queued event is posted under a permit, once pod time exceeds the last STAMP. -/
def execEventQueuePost (s : State) : Host.Outcome State Fault Refusal :=
  let x := s.cue.chip
  let c := s.chip x
  match c.evq with
  | [] => .next s
  | e :: r =>
    if c.fenced ∨ c.power = .off ∨ c.permits = 0 then .next s
    else if s.podTime x ≤ c.lastStamp then .next (s.sendOnce .eventQueuePost { chip := x })
    else
      let s := s.setChip x { c with refill := if c.permits = 64 then s.podTime x + 10000 else c.refill }
      let s := s.sendOnce .permitRefill { chip := x }
      let s := (s.post x e).modChip x fun c => { c with evq := r }.queueHeld
      .next (if (s.chip x).evq.isEmpty then s else s.sendOnce .eventQueuePost { chip := x })

/-- PERMIT_REFILL (R356): one permit every 10,000 ns, at most 64. -/
def execPermitRefill (s : State) : Host.Outcome State Fault Refusal :=
  let x := s.cue.chip
  let c := s.chip x
  if 64 ≤ c.permits then .next s
  else if s.podTime x < c.refill then .next (s.sendOnce .permitRefill { chip := x })
  else
    let s := s.setChip x { c with permits := c.permits + 1, refill := c.refill + 10000 }
    let s := if c.permits + 1 < 64 then s.sendOnce .permitRefill { chip := x } else s
    .next (if c.evq.isEmpty then s else s.sendOnce .eventQueuePost { chip := x })

/-! ## Heartbeats (R357, R360, R361) -/

/-- The suspects that a heartbeat reports: at most four, in rotation over successive heartbeats. -/
def Chip.suspects (c : Chip) (x : Nat) : List (Nat × Nat) :=
  let l := (c.plate.live.filter fun y => decide (y ≠ x) && (c.info y).suspect.isSome).map fun y => (y, (c.info y).upto)
  let n := c.beats * 4 % max 1 l.length
  (l.drop n ++ l.take n).take 4

/-- What a heartbeat tells its receiver. -/
def State.takeBeat (s : State) (x : Nat) (b : Beat) : State :=
  if !s.listens x b.src b.sinc then s
  else
    let s := s.hear x b.src b.sinc b.stamp
    let s := s.modChip x fun c =>
      let i := c.info b.src
      if b.stamp ≤ i.beatStamp then c
      else
        let i := { i with beatStamp := b.stamp, beatSeq := b.seq, horizon := max i.horizon b.horizon, reports := b.suspects }
        c.setInfo b.src ({ i with beats := i.beats ++ [(b.seq, b.stamp)] } : SrcInfo).settled
    let s := s.fetchMissing x b.src b.src b.seq
    let s := b.suspects.foldl (fun s r => if ((s.chip x).info r.1).suspect.isSome then s.fetchMissing x b.src r.1 r.2 else s) s
    -- an event is kept until the HORIZON of every live chip has passed it
    let s := s.modChip x fun c =>
      let low := (c.plate.live.map fun y => (c.info y).horizon).foldl (fun (a : Option Nat) t => some (min (a.getD t) t)) none
      { c with events := c.events.filter fun e => keyBefore c.lastKey (e.stamp, e.src) || decide (low.getD 0 < e.stamp) }
    s.tryDeliver x

/-- HEARTBEAT (R341, R357). -/
def execHeartbeat (s : State) : Host.Outcome State Fault Refusal :=
  let c := s.cue
  let r := s.letIn c.beat.src c.chip c (s.dropsEvent c.beat.src c.chip c.acc)
  .next (if r.2 then s.takeBeat c.chip c.beat else r.1)

/-- HEARTBEAT_SEND (R357): every 2,000 ns a chip of the pod tells the others its last SEQ, its HORIZON and its suspects, and looks
for silent chips and for its own quorum. -/
def execHeartbeatSend (s : State) : Host.Outcome State Fault Refusal :=
  let x := s.cue.chip
  let c := s.chip x
  let now := s.podTime x
  let again := fun (s : State) => Host.Outcome.next (s.sendOnce .heartbeatSend { chip := x })
  if c.fenced ∨ (c.power ≠ .full ∧ c.power ≠ .joining) ∨ !c.inPod then .next s
  else if now < (c.info x).beatStamp + 2000 then again s
  else
    let b : Beat := { stamp := now, src := x, sinc := c.inc, seq := c.seq, horizon := c.horizon x, suspects := c.suspects x }
    let s := (s.cfg.chips.filter (· ≠ x)).foldl (fun s y => s.tell x y (s.fresh + 1) .heartbeat { chip := y, peer := x, beat := b }) s
    let s := (s.takeBeat x b).modChip x fun c => { c with beats := c.beats + 1 }
    let silent := c.plate.live.filter fun y => decide (y ≠ x) && !(c.info y).posted && decide ((c.info y).heard + 20000 < now)
    let s := silent.foldl (fun s y => s.sendOnce .chipSilence { chip := x, peer := y }) s
    again (if !c.quorum x now && c.heldSince.isSome then s.sendOnce .quorumTimeout { chip := x } else s)

/-- CHIP_SILENCE (R360): a live chip not heard for 20,000 ns becomes suspect, if it is not yet, and its loss is posted. -/
def execChipSilence (s : State) : Host.Outcome State Fault Refusal :=
  let x := s.cue.chip
  let y := s.cue.peer
  let c := s.chip x
  let i := c.info y
  if c.fenced ∨ x = y ∨ !c.plate.live.contains y ∨ i.posted ∨ s.podTime x ≤ i.heard + 20000 then .next s
  else
    let s := s.setChip x (c.setInfo y { i with suspect := some (i.suspect.getD (2 ^ 64)), posted := true })
    let inc := ((tabLook c.plate.chips y).map PChip.inc).getD 0
    .next (s.postEvent x 4 0 (leBytes 2 y ++ leBytes 1 inc ++ [0] ++ leBytes 4 i.upto) [])

/-- ENERGY_INTERVAL (R368, R414): when pod time reaches the interval, the lowest live chip posts its budget; the next follows. -/
def execEnergyInterval (s : State) : Host.Outcome State Fault Refusal :=
  let x := s.cue.chip
  let n := s.cue.num
  let c := s.chip x
  let now := s.podTime x
  if c.fenced ∨ c.power = .off then .next s
  else if now < n * s.cfg.len then .next (s.sendOnce .energyInterval s.cue)
  else
    let live := c.plate.live
    let budget := (live.map fun y =>
      ((tabLook s.cfg.plan y).getD 0 - (tabLook s.cfg.idle y).getD 160) * s.cfg.len).foldl (· + ·) 0
    let s := if live.head? = some x ∧ c.plate.interval < n then
        s.postEvent x 9 0 (leBytes 4 0 ++ leBytes 8 n ++ leBytes 8 budget) [] else s
    .next (s.sendOnce .energyInterval { chip := x, num := n + 1 })

end Sys2Proof.Machine
end

