-- ==== Sys2Proof/Machine/Deliveries.lean ====
section
/-! DEFINITION. Deliveries: what each delivered event makes its chip do, and what the homes do once for all of them (09 R285;
12 R343, R344; 13 R366 to R376; 17 R437, R438). -/

namespace Sys2Proof.Machine

/-! ## Memory of a lost chip (R343, R344, R372, R437) -/

/-- The leaves of a chip's page tables, with their contexts. -/
def State.leavesOf (s : State) (space : Nat) : List (Nat × DWord) :=
  (s.rootsOf space).flatMap fun p => (leavesFrom s space 4 1 p.2.2).map fun x => (p.1, x)

/-- The first byte and the size of a leaf's page. -/
def pageRange (x : DWord) : Nat × Nat := (leafFrame x, match leafSize x with
  | 1 => 2 ^ 21
  | 2 => 2 ^ 30
  | _ => 2 ^ 16)

/-- What the loss of a chip touches (R372): contexts with the recovery of each of their pages; a mirrored page without a copy that is
whole counts as plain. -/
def State.touchedBy (s : State) (t : Tab PChip) (c : Nat) : List (Nat × Nat) :=
  let whole := fun (x : DWord) => (buddyIn t c).isSome && !(s.chip c).rebuilding.contains (leafFrame x)
  ((s.leavesOf (if s.ghosts.contains c then c + 1024 else c)).map fun p => (p.1, if leafRec p.2 = 1 ∧ !whole p.2 then 0 else leafRec p.2)).eraseDups

/-- The same, as the first chip to deliver the loss found it. -/
def State.touchedAt (s : State) (t : Tab PChip) (index c : Nat) : List (Nat × Nat) :=
  match s.losses.find? fun x => decide (x.1 = index) && decide (x.2.1 = c) with
  | some x => x.2.2
  | none => s.touchedBy t c

/-- How far the copy of a lost chip's memory stands from its own. -/
def copyShift : Nat := 1024 * 2 ^ 53

/-- A line of a lost chip's memory, as its buddy numbers it. -/
def moveLine (c line : Nat) : Nat := if lineSpace line = c then line + copyShift else line

/-- A request whose line has moved goes to the buddy. -/
def State.moveCue (s : State) (c b : Nat) (cue : Cue) : Cue :=
  if lineSpace cue.acc.line ≠ c then cue
  else
    let src := chipOfCore cue.acc.core
    { cue with acc := { cue.acc with
        line := moveLine c cue.acc.line, sinc := (s.chip src).inc, dinc := (s.chip b).inc, inj := s.podTime src } }

/-- A line's state with the messages that wait in it moved. -/
def State.moveHome (s : State) (c b : Nat) (h : HomeLine) : HomeLine :=
  { h with
    waiting := h.waiting.map (s.moveCue c b)
    sync := h.sync.map fun x => { x with cue := s.moveCue c b x.cue } }

/-- A chip's memory as its copy holds it, with its page tables' roots. -/
def State.leaveCopy (s : State) (c : Nat) : State :=
  let mem := (s.mem.filter fun (p : Host.Cell) => decide (p.1 / 2 ^ 60 = c)).map fun (p : Host.Cell) => (p.1 + 1024 * 2 ^ 60, p.2)
  let rest := s.mem.filter fun (p : Host.Cell) => decide (p.1 / 2 ^ 60 ≠ c + 1024)
  let lines := (s.lines.filter fun (p : Nat × HomeLine) => decide (lineSpace p.1 = c)).map fun (p : Nat × HomeLine) => (p.1 + copyShift, p.2)
  let others := s.lines.filter fun (p : Nat × HomeLine) => decide (lineSpace p.1 ≠ c + 1024)
  { s with
    mem := mem.foldl (fun (m : List Host.Cell) (p : Host.Cell) => memSet m p.1 p.2) rest
    lines := lines.foldl (fun (l : Tab HomeLine) (p : Nat × HomeLine) => Machine.tabPut l p.1 p.2) others
    copyRoots := tabPut s.copyRoots c (s.chip c).ptroot }

/-- The Plate that is furthest on. -/
def State.podPlate (s : State) : Plate :=
  (s.chips.filter fun c => c.2.inPod).foldl (fun p c => if p.index ≤ c.2.plate.index then c.2.plate else p) {}

/-- A chip of the pod stops before its loss is known: what it held stays with its copy (R372). -/
def State.ghost (s : State) (x : Nat) : State :=
  if (s.chip x).inPod && s.podPlate.live.contains x && !s.ghosts.contains x then
    { s.leaveCopy x with ghosts := s.ghosts ++ [x] }
  else s

/-- R343, R344, R372: the buddy takes over a lost chip's memory: its copy, the remap entries, and the requests under way, with what the
home that it copied had answered; answers of the old incarnation are not its own, and are dropped (R341). -/
def State.takeOver (s : State) (t : Tab PChip) (c : Nat) : State :=
  let s := if s.ghosts.contains c then { s with ghosts := s.ghosts.filter (· ≠ c) } else s.leaveCopy c
  match buddyIn t c with
  | none => s
  | some b =>
    let lines := s.lines.map fun (p : Nat × HomeLine) => if lineSpace p.1 = c + 1024 then (p.1, s.moveHome c b p.2) else p
    let space := fun (x : Nat) => if x = c then c + 1024 else x
    let packetOf := fun (p : Packet) =>
      if lineSpace p.cue.acc.line = c ∧ p.dst = c then
        { p with dst := b, cue := s.moveCue c b p.cue, answers := p.answers.map fun x => (x.1, s.moveCue c b x.2) }
      else p
    let chipOf := fun (x : Chip) =>
      let gone := fun (e : TlbEntry) => x.remap.any fun (r : Nat × Nat × Nat) =>
        decide (r.1 = e.ctx) && decide (r.2.1 = e.home) && decide (r.2.2 = c)
      { x with
        tlb := x.tlb.filter fun (e : TlbEntry) => !gone e
        remap := x.remap.map fun (r : Nat × Nat × Nat) => (r.1, r.2.1, space r.2.2)
        packets := x.packets.map packetOf }
    let partOf := fun (p : Partial) => { p with line := moveLine c p.line }
    let dueOf := fun (d : Due) => if isAnswer d.ev then d else { d with cue := s.moveCue c b d.cue }
    { s with
      lines := lines
      partials := s.partials.map partOf
      chips := s.chips.map fun (p : Nat × Chip) => (p.1, chipOf p.2)
      mirrors := tabPut (s.mirrors.map fun (m : Nat × Nat) => if m.2 = c then (m.1, b) else m) c b
      agenda := s.agenda.map dueOf }

/-- R344: transfers to blocks on lost chips go back to the hubs of their issuers, to be sent once their blocks are placed again. -/
def State.resendBlocks (s : State) (lost : List Nat) : State :=
  let back := fun (c : Cue) =>
    let x := ((s.block? c.acc.node).map Block.chip).getD c.peer
    { c with chip := x, peer := x, tag := 0, num := 0 }
  let towards := fun (d : Due) => decide (d.ev = .blockWrite) && lost.contains d.cue.chip
  let kept := (tabVals s.chips).flatMap fun c => c.packets.filter fun p => decide (p.ev = .blockWrite) && lost.contains p.dst
  let agenda := s.agenda.map fun d => if towards d then { d with cue := back d.cue } else d
  let waits := fun (p : Packet) => s.agenda.any fun d => towards d && (decide (d.cue.tag = p.tag) || decide (d.cue.tag = 0 ∧ d.cue.num = p.tag))
  let s := { s with agenda := agenda }
  let s := lost.foldl (fun (s : State) c => { s with chips := s.chips.map fun (p : Nat × Chip) =>
    (p.1, { p.2 with packets := p.2.packets.filter fun q => !(decide (q.ev = .blockWrite) && decide (q.dst = c)) }) }) s
  (kept.filter fun p => !waits p).foldl (fun (s : State) p => s.send .blockWrite (back p.cue)) s

/-- A line is put back to a value kept of it; every later state of it is gone. -/
def State.restoreTo (s : State) (line : Nat) (v : Line) : State :=
  ((s.setLineData line v).modLine line fun h =>
    { h with undo := [], red := none, ver := h.ver + 1, dirty := h.way.isSome, touched := true, recent := [] }).forgetCopies [line] []

/-- The newest proof of a lost chip that its buddy holds (R437). -/
def State.proofOf (s : State) (b c : Nat) : ProofCopy :=
  ((s.chip b).proofs.filter fun p => decide (p.home = c)).foldl (fun a p => if a.num ≤ p.num then p else a) { home := c }

/-- R437: the proofed pages of a lost chip hold what its last proof mirrored. -/
def State.restoreProofed (s : State) (t : Tab PChip) (c : Nat) : State :=
  match buddyIn t c with
  | none => s
  | some b =>
    let pages := ((s.leavesOf (c + 1024)).filter fun p => decide (leafRec p.2 = 2) && !leafHost p.2).map fun p => pageRange p.2
    let inside := fun (line : Nat) => pages.any fun p => decide (p.1 ≤ 128 * (line % 2 ^ 53)) && decide (128 * (line % 2 ^ 53) < p.1 + p.2)
    let pf := s.proofOf b c
    let dirty := ((s.mem.map fun p => p.1 / 128).eraseDups.filter fun l => decide (lineSpace l = c + 1024) && inside l)
    let s := dirty.foldl (fun s l => s.restoreTo l 0) s
    pf.lines.foldl (fun s p => s.restoreTo (p.1 + copyShift) p.2) s

/-- R437: every proofed line that a grid wrote is restored from the grid undos: on live homes from their own, on homes just lost from
those that the buddy holds. -/
def State.undoGrid (s : State) (t : Tab PChip) (lost : List Nat) (gid : Nat) : State :=
  let live := (t.filter fun p => decide (p.2.st = .live)).map Prod.fst
  let own := live.flatMap fun h => ((s.chip h).gridUndo.filter fun u => decide (u.1 = gid)).map fun u => (u.2.1, u.2.2.1)
  let kept := lost.flatMap fun c => match buddyIn t c with
    | some b => ((s.proofOf b c).undos.filter fun u => decide (u.1 = gid)).map fun u => (u.2.1 + copyShift, u.2.2)
    | none => []
  (own ++ kept).foldl (fun s u => s.restoreTo u.1 u.2) s

/-- After a change of the live set each buddy copy is rebuilt (R372). -/
def State.rebuildCopies (s : State) (live : List Nat) : State :=
  live.foldl (fun s h =>
    let pages := ((s.leavesOf h).filter fun p => decide (leafRec p.2 = 1) && !leafHost p.2).map fun p => leafFrame p.2
    let s := s.modChip h fun c => { c with rebuilding := pages }
    pages.foldl (fun s p => s.sendOnce .buddyCopyRebuilt { chip := h, num := p }) s) s

/-- BUDDY_COPY_REBUILT (R372): the copy of a page is whole again. -/
def execBuddyCopyRebuilt (s : State) : Host.Outcome State Fault Refusal :=
  .next (s.modChip s.cue.chip fun c => { c with rebuilding := c.rebuilding.filter (· ≠ s.cue.num) })

/-! ## What the homes do, once for each delivery (log 24: DESIGN CHOICE) -/

/-- The WARN of a node's warps joins its grid's, which ends (R51). -/
def State.tellWarn (s : State) (node : Nat) : State :=
  match s.block? node with
  | some b =>
    let x := (s.warps.filter fun p => decide (p.2.node = node)).foldl (fun x p => x ||| p.2.warn) 0
    s.modGrid b.gid fun g => { g with warn := g.warn ||| x }
  | none => s

/-- Nodes of abandoned rows are discarded with their dependants (R285, R372): those of `keep`'s grids start again where they ran,
the others are gone. A block that can no longer be rolled back takes its grid to its last proof instead. -/
def State.abandon (s : State) (x : Nat) (l : List Nat) (gone : Block → Bool) : State :=
  let set := s.dependants l
  let fixed := set.filter fun n => ((s.block? n).map fun b => b.norev && !gone b).getD false
  let s := (set.filter fun n => ((s.block? n).map gone).getD false).foldl State.tellWarn s
  let s := set.foldl (fun (s : State) n => if l.contains n then s.modBlock n fun b => { b with st := .dead } else s) (s.discard set)
  let s := set.foldl (fun (s : State) n =>
    if l.contains n ∨ ((s.block? n).map gone).getD true then s else s.restart n) s
  let gids := (fixed.filterMap fun n => (s.block? n).map fun b => (b.gid, b.ctx)).eraseDups
  let s := gids.foldl (fun (s : State) g =>
    let kind := if (s.lastProof x g.1 (s.podTime x)).isSome then 1 else 0
    s.postEvent x 3 g.2 (faultPayload g.1 kind 1) []) s
  set.foldl (fun s n => match s.block? n with
    | some b => b.groups.foldl (fun s g => s.settleGroup b.gid g.1) s
    | none => s) s

/-- The chips that a delivery cut off. -/
def cutOff (p q : Plate) : List Nat :=
  (q.chips.filter fun c => decide (c.2.st ≠ .live) && decide ((tabLook p.chips c.1).map PChip.st = some .live)).map Prod.fst

/-- What the homes of the pod do when an event takes the Plate from `p` to `q`. -/
def State.atHomes (s : State) (x : Nat) (p q : Plate) (e : Event) : State :=
  let lost := cutOff p q
  let s := { s with losses := s.losses ++ lost.map fun c => (p.index, c, s.touchedAt p.chips p.index c) }
  -- the launch state of a new grid
  let s := match e.type, tabLook s.drafts e.draft with
    | 0, some g =>
      let gid := p.nextGid
      let ok := decide (q.nextGid = gid + 1) && match (q.grid? gid).map PGrid.st with
        | some .refused => false
        | some _ => true
        | none => false
      let s := { s with drafts := tabDel s.drafts e.draft }
      if ok then s.setGrid gid { g with gid := gid, stamp := e.stamp } else s
    | _, _ => s
  let s := (lost.foldl (fun s c => s.takeOver q.chips c) s).resendBlocks lost
  let was := fun (b : Block) => ((p.row? b.gid b.row).map PRow.st).getD .pending
  let dropped := fun (gid : Nat) =>
    decide ((q.grid? gid).map PGrid.st = some .faulted) && !decide ((p.grid? gid).map PGrid.st = some .faulted)
  let again := fun (gid : Nat) => decide (((p.grid? gid).map PGrid.runs).getD 0 < ((q.grid? gid).map PGrid.runs).getD 0)
  let l := ((tabVals s.blocks).filter fun b => s.lingers b &&
    (again b.gid || (decide (was b ≠ .finished) && (dropped b.gid || lost.contains b.chip)))).map Block.node
  let spent := ((tabVals s.blocks).filter fun b => again b.gid && decide (b.st = .committed)).map Block.node
  let s := if l.isEmpty then s else s.abandon x l fun b => dropped b.gid || again b.gid
  let s := spent.foldl (fun s n => s.modBlock n fun b => { b with st := .dead }) s
  let s := lost.foldl (fun s c => s.restoreProofed q.chips c) s
  let s := ((tabKeys q.grids).filter again).foldl (fun s g => s.undoGrid q.chips lost g) s
  -- blocks of finished rows on a lost chip commit without it (R283)
  let rest := (tabVals s.blocks).filter fun b => lost.contains b.chip && b.finished && b.open_
  let s := rest.foldl (fun s b => s.sendOnce .blockCommit { node := b.node }) s
  if p.live = q.live then s else s.rebuildCopies q.live

/-! ## What the delivering chip does -/

/-- A fresh node for a block of a row (R375). -/
def State.freshNode (s : State) (x : Nat) (r : PRow) (bid : Nat) : State :=
  match s.grid? r.gid with
  | none => s
  | some g =>
    let mine := (tabVals s.blocks).filter fun b => decide (b.gid = r.gid) && decide (b.bid = bid)
    let s := mine.foldl (fun s b => if b.st = .queued then s.modBlock b.node fun b => { b with st := .dead } else s) s
    let n := s.nextNode
    let b : Block :=
      { node := n, gid := r.gid, ctx := g.ctx, row := r.row, bid := bid, chip := x, st := .queued, budget := g.budget
        gen := mine.foldl (fun m y => max m (y.gen + 1)) r.gen
        groups := g.groups.filterMap fun p => (p.2.members.idxOf? bid).map fun k => (p.1, k) }
    ({ s with nextNode := n + 1, blocks := tabPut s.blocks n b } : State).sendOnce .blockStart { chip := x, gid := r.gid, row := r.row, num := bid }

/-- A row placed on a chip: its blocks start there, or the saved context is resumed there (R367, R375). -/
def State.beginRow (s : State) (x : Nat) (q : Plate) (r : PRow) : State :=
  (q.blocksOf r).foldl (fun (s : State) bid =>
    match (tabVals s.blocks).find? fun b => decide (b.gid = r.gid) && decide (b.bid = bid) && decide (b.st = .saved) with
    | some b =>
      if r.res then
        (s.modBlock b.node fun b => { b with chip := x, row := r.row, leaving := false }).sendOnce .blockResume { node := b.node, core := b.core }
      else s.freshNode x r bid
    | none => s.freshNode x r bid) s

/-- A hub fences its chip (R373): its cores stop, its packets go no further, and firmware resets it. -/
def State.fenceChip (s : State) (x : Nat) : State :=
  if (s.chip x).fenced then s
  else (s.modChip x fun c => { c with fenced := true, power := .fenced }).sendOnce .deviceReset { chip := x, repair := (s.chip x).repairs }

/-- CAPACITY for every core whose capacity is not what the Plate holds (R374, R420). -/
def State.postCapacities (s : State) (x : Nat) : State :=
  let caps := ((tabLook (s.chip x).plate.chips x).map PChip.caps).getD []
  let cores := ((s.cores.filter fun c => decide (chipOfCore c.1 = x)).map Prod.fst ++ caps.map fun c => 2048 * x + c.1 % 2048).eraseDups
  (cores.filter fun k => decide ((s.core k).kib / 64 ≠ (tabLook caps (k % 2048)).getD 8)).foldl (fun s k => s.postCapacity k) s

/-- Submissions held until full service are looked at (R420). -/
def State.releaseSubmits (s : State) (x : Nat) : State :=
  let l := (s.chip x).heldSubmits
  l.foldl (fun s n => s.send .hostSubmit { chip := x, num := n, ok := false }) (s.modChip x fun c => { c with heldSubmits := [] })

/-- R438: a delivered event in the order logs of its context, or of all of them. -/
def State.logEvent (s : State) (x : Nat) (p : Plate) (e : Event) : State :=
  let gid := if e.type = 0 then p.nextGid else if e.type ∈ [1, 2, 3, 7] then p.gid e else 0
  let l := if e.ctx = 0 then (s.chip x).saves.map Prod.fst else [e.ctx]
  l.foldl (fun s ctx => s.orderLog x ctx (logRecord 1 gid (leBytes 8 (p.index + 1) ++ (eventRecords e).take 16) (0, 0))) s

/-- What chip `x` does when it has taken its Plate from `p` to `q`. -/
def State.acts (s : State) (x : Nat) (p q : Plate) : State :=
  let st := fun (t : Plate) (gid : Nat) => (t.grid? gid).map PGrid.st
  let ended := q.grids.filter fun g => decide (g.2.writer = x) && decide (st p g.1 ≠ some g.2.st) &&
    (decide (g.2.st = .complete) || decide (g.2.st = .faulted) || decide (g.2.st = .refused))
  let s := ended.foldl (fun s g => s.sendOnce .completionRecordWrite { gid := g.1, chip := x }) s
  let here := fun (r : PRow) => decide (r.chip = x)
  let placed := q.rows.filter fun r => decide (r.st = .placed) && here r && match p.row? r.gid r.row with
    | some y => decide (y.st ≠ .placed) || decide (y.gen ≠ r.gen)
    | none => true
  let s := (sortBy (fun r => [r.order]) placed).foldl (fun s r => s.beginRow x q r) s
  let done := q.rows.filter fun r => decide (r.st = .finished) && here r && decide ((p.row? r.gid r.row).map PRow.st ≠ some .finished)
  let s := done.foldl (fun (s : State) r => (q.blocksOf r).foldl (fun (s : State) bid => match s.nodeOf r.gid bid with
    | some b => s.sendOnce .blockCommit { node := b.node }
    | none => s) s) s
  -- a row that lost a block to a row of its own may be done without it (R366, R369)
  let less := q.rows.filter fun r => decide (r.st = .placed) && here r && match p.row? r.gid r.row with
    | some y => decide (y.st = .placed) && decide (y.gen = r.gen) && decide (p.blocksOf y ≠ q.blocksOf r)
    | none => false
  let s := less.foldl (fun (s : State) r => (s.sendOnce .finishReport { chip := x, gid := r.gid, row := r.row }).sendOnce .triggerReport
    { chip := x, gid := r.gid, row := r.row }) s
  let me := fun (t : Plate) => (tabLook t.chips x).map PChip.st
  if me p = me q then s
  else match me q with
    | some .live => s.sendOnce .fullServiceStart { chip := x }
    | some .lost | some .fenced => s.fenceChip x
    | _ => s

/-- THE DELIVERY OF AN EVENT (R359, R366 to R371) at the cue's chip: spans are judged, the event has its effect if its source is
live and of the present incarnation (a REJOIN's need not be), rows are placed, and the event joins its span. -/
def State.deliver (s : State) (effect : Plate → (Nat → List (Nat × Nat)) → (Nat → Option Nat) → Plate) : State :=
  let x := s.cue.chip
  let e := s.cue.event
  let c := s.chip x
  let mine := if c.inPod then decide (s.deliverable x = some e) else !c.fenced && (decide (c.power = .solo) || decide (c.power = .joining))
  -- local events are delivered in their order too (R359)
  let first := c.inPod || !(s.agenda.any fun d => decide (d.cue.chip = x) && decide (d.ev = deliveryOf d.cue.event) &&
    decide (d.cue.event.src = x) && decide (d.cue.event.stamp < e.stamp))
  if !mine then s
  else if !first then s.send (deliveryOf e) s.cue
  else
    let p := c.plate
    let touch := fun (k : Nat) => s.touchedAt p.chips p.index k
    let proof := fun (gid : Nat) => s.lastProof x gid e.stamp
    let q := p.judge e.stamp touch proof
    let ok := match (tabLook q.chips e.src) with
      | some y => (decide (y.st = .live) && decide (y.inc = e.sinc)) ||
          (decide (e.type = 5) && (decide (y.st = .fenced) || decide (y.st = .lost)))
      | none => false
    let q := if ok || !c.inPod then effect q touch proof else q
    let q := (q.placement e.stamp).close e
    -- the hub judges its own chip by the same records (R373)
    let hub := c.hubSpans.filter fun y => decide (e.stamp < y.stamp + 50000)
    let cut := c.inPod && (dueSpans c.hubSpans e.stamp).any fun y => y.losers.contains x
    let hub := if e.type = 8 ∧ ok then hub.map (voteIn e) else hub
    let hub := hub ++ q.spans.filter fun y => !p.spans.any fun z => decide (z.num = y.num)
    let ends := decide (e.type ≠ 8) && decide (q.count % 256 = 0)
    let digest := leBytes 16 (Config.sha512 (q.span ++ q.decs)).toNat
    let num := q.count / 256 - 1
    let q := if ends then { q with span := [], decs := [] } else q
    let left := c.undelivered.filter fun y => decide (y ≠ e)
    let s := s.setChip x { c with
      plate := q, hubSpans := hub, lastKey := if c.inPod then (e.stamp, e.src) else c.lastKey
      heldSince := if left.isEmpty then none else some (s.podTime x) }
    -- a suspicion ends with the loss, and a chip that is silent still is reported again if its own report had no effect (R360)
    let now := s.podTime x
    let s := (cutOff p q).foldl (fun s y => s.modChip x fun c =>
      c.setInfo y { c.info y with suspect := none, reports := [], posted := false, lostAt := now }) s
    let lost := evField e 20 2
    let s := if e.type = 4 ∧ e.src = x then s.modChip x fun c => c.setInfo lost { c.info lost with posted := false } else s
    let s := if c.inPod ∧ p.index < s.homesAt then s
      else { (s.atHomes x p q e) with homesAt := if c.inPod then p.index + 1 else s.homesAt }
    let s := (s.logEvent x p e).acts x p q
    let s := if cut then s.fenceChip x else s
    let s := if ends && c.inPod then s.postEvent x 8 0 (leBytes 4 0 ++ leBytes 8 num ++ digest) [] else s
    s.tryDeliver x

/-! ## The deliveries (R366) -/

/-- SUBMIT_DELIVERY. -/
def execSubmitDelivery (s : State) : Host.Outcome State Fault Refusal := .next (s.deliver fun p _ _ => p.submit s.cue.event)

/-- FINISH_DELIVERY. -/
def execFinishDelivery (s : State) : Host.Outcome State Fault Refusal := .next (s.deliver fun p _ _ => p.finish s.cue.event)

/-- BLOCKED_DELIVERY. -/
def execBlockedDelivery (s : State) : Host.Outcome State Fault Refusal := .next (s.deliver fun p _ _ => p.blocked s.cue.event)

/-- FAULT_GRID_DELIVERY. -/
def execFaultGridDelivery (s : State) : Host.Outcome State Fault Refusal := .next (s.deliver fun p _ _ => p.faultGrid s.cue.event)

/-- FAULT_ROLLBACK_DELIVERY (R366, R437). -/
def execFaultRollbackDelivery (s : State) : Host.Outcome State Fault Refusal :=
  .next (s.deliver fun p _ proof => p.faultProof s.cue.event (proof (p.gid s.cue.event)))

/-- CHIPLOSS_DELIVERY (R366, R372). -/
def execChiplossDelivery (s : State) : Host.Outcome State Fault Refusal :=
  .next (s.deliver fun p touch proof => p.chipLoss s.cue.event touch proof)

/-- REJOIN_DELIVERY (R374). -/
def execRejoinDelivery (s : State) : Host.Outcome State Fault Refusal := .next (s.deliver fun p _ _ => p.rejoin s.cue.event)

/-- CAPACITY_DELIVERY. -/
def execCapacityDelivery (s : State) : Host.Outcome State Fault Refusal := .next (s.deliver fun p _ _ => p.capacity s.cue.event)

/-- TRIGGER_DELIVERY. -/
def execTriggerDelivery (s : State) : Host.Outcome State Fault Refusal := .next (s.deliver fun p _ _ => p.trigger s.cue.event)

/-- DIGEST_DELIVERY (R370). -/
def execDigestDelivery (s : State) : Host.Outcome State Fault Refusal := .next (s.deliver fun p _ _ => p.digest s.cue.event)

/-- ENERGY_DELIVERY (R368). -/
def execEnergyDelivery (s : State) : Host.Outcome State Fault Refusal := .next (s.deliver fun p _ _ => p.energy s.cue.event)

/-- USER_DELIVERY. -/
def execUserDelivery (s : State) : Host.Outcome State Fault Refusal := .next (s.deliver fun p _ _ => p.user s.cue.event)

/-- RESERVED_EVENT_DELIVERY (R355): no effect but its part in the digest. -/
def execReservedEventDelivery (s : State) : Host.Outcome State Fault Refusal := .next (s.deliver fun p _ _ => p)

/-- QUORUM_TIMEOUT (R361, R373): a chip without quorum that has held an event for 200,000 ns without delivering any is fenced. -/
def execQuorumTimeout (s : State) : Host.Outcome State Fault Refusal :=
  let x := s.cue.chip
  let c := s.chip x
  match c.heldSince with
  | none => .next s
  | some t =>
    if c.fenced ∨ c.quorum x (s.podTime x) then .next s
    else if s.podTime x < t + 200000 then .next (s.sendOnce .quorumTimeout { chip := x })
    else .next (s.fenceChip x)

/-! ## Rejoin (R374) -/

/-- SNAPSHOT_REQUEST (R374): the neighbour takes a snapshot for a rejoining chip. -/
def execSnapshotRequest (s : State) : Host.Outcome State Fault Refusal :=
  let n := s.cue.chip
  let x := s.cue.peer
  let c := s.chip n
  if c.fenced ∨ c.power ≠ .full ∨ !c.inPod then .next s
  else .next ((s.modChip x fun y => { y with
      snap := some { plate := c.plate, lastKey := c.lastKey, events := c.events, time := s.podTime n, remap := c.remap } }).sendOnce .snapshot { chip := x, peer := n })

/-- SNAPSHOT (R337, R374): the rejoining chip takes the Plate and the events that follow it, sets its pod time, takes its new
incarnation, and posts REJOIN. -/
def execSnapshot (s : State) : Host.Outcome State Fault Refusal :=
  let x := s.cue.chip
  let n := s.cue.peer
  let c := s.chip x
  match c.snap with
  | none => .next s
  | some y =>
    if c.power ≠ .joining ∨ c.inPod then .next s
    else
      let inc := ((tabLook y.plate.chips x).map PChip.inc).getD 0 % 255 + 1
      let more := c.events.filter fun e => !y.events.any fun z => decide (z.src = e.src) && decide (z.sinc = e.sinc) && decide (z.seq = e.seq)
      let early := decide (s.podTime n < ((s.chip n).info x).lostAt + 64000) || decide ((tabLook y.plate.chips x).map PChip.st = some .live)
      if early then .next (s.sendOnce .snapshot s.cue)
      else
        let l := y.events ++ more
        let undone := l.filter fun e => decide (e.type = 4) && keyBefore y.lastKey (e.stamp, e.src)
        let suspect := fun (src : Nat) => ((undone.filter fun e => decide (evField e 20 2 = src)).map Event.stamp).foldl
          (fun (a : Option Nat) t => some (min (a.getD t) t)) none
        let seen := fun (src : Nat) => { (s.chip n).info src with
          suspect := suspect src, reports := [], heard := 0, horizon := 0, beatStamp := 0, beatSeq := 0, beats := [], full := 0, posted := false }
        let src := y.plate.live.map fun k => (k, advance l k l.length (seen k))
        let s := s.setChip x { c with
          plate := y.plate, lastKey := y.lastKey, events := l, inPod := true, remap := y.remap, inc := inc, seq := 0, lastStamp := 0, snap := none, num := x
          src := src, heldSince := none, hubSpans := y.plate.spans, nbr := []
          offset := (s.chip n).offset + ((Config.asymmetry s.fresh % 7 : Nat) - 3 : Int), timeSet := true }
        let now := s.podTime x
        let s := s.modChip x fun c => { c with src := c.src.map fun p => (p.1, { p.2 with heard := now }) }
        let s := s.counted.sendOnce .heartbeatSend { chip := x }
        .next ((s.postEvent x 5 0 (leBytes 1 inc ++ [0, 0, 0] ++ leBytes 8 y.plate.index) []).tryDeliver x)

end Sys2Proof.Machine
end

