-- ==== Sys2Proof/Machine/Matrix.lean ====
section
/-! DEFINITION. Matrix engines, accumulator tiles and power tokens, majors 0x74 to 0x79 (07). -/

namespace Sys2Proof.Machine

/-! ## Operands (R207 to R210, R219) -/

/-- A decoded operand row: its elements along K, the scales of its valid blocks in order, and whether BFMT is raised. -/
structure OpRow where
  elems : List FV := []
  scales : List Nat := []
  bad : Bool := false

/-- The bytes of operand row `r` of `n` register rows each. -/
def opBytes (rows : List Line) (n r : Nat) : List Byte := (List.range n).flatMap fun q => lineBytes (rows.getD (n * r + q) 0) 0 128

/-- Bytes in groups of `n`. -/
def chunks (n : Nat) : Nat → List Byte → List (List Byte)
  | 0, _ => []
  | fuel + 1, l => if l.isEmpty then [] else l.take n :: chunks n fuel (l.drop n)

/-- The value of an 8-bit element of a block format; none for a code that names none (R209). -/
def blockElem (fmt : Nat) (x : Byte) : Option FV :=
  if fmt = 4 then some (.fin x.msb (if x.msb then 256 - x.toNat else x.toNat) 0)
  else if fmt = 5 then some (.fin false x.toNat 0)
  else if isB8Code fmt then some (fdec (b8Fmt fmt) x.toNat)
  else none

/-- A zero element. -/
def fvZero : FV := .fin false 0 0

/-- One described block (R209). -/
def decodeBlock (l : List Byte) : OpRow :=
  let fmt := (l.getD 0 0).toNat
  match (l.drop 2).mapM (blockElem fmt) with
  | some es => { elems := es, scales := [(l.getD 1 0).toNat], bad := false }
  | none => { elems := List.replicate 62 fvZero, bad := true }

/-- An operand row under IFMT (R209, R210). -/
def decodeRow (ifmt : Nat) (l : List Byte) : OpRow :=
  if ifmt = 0xFF then
    let bs := (chunks 64 (l.length / 64) l).map decodeBlock
    { elems := bs.flatMap OpRow.elems, scales := bs.flatMap OpRow.scales, bad := bs.any OpRow.bad }
  else
    let f := (fmtOf ifmt).getD f32Fmt
    { elems := (chunks (f.width / 8) l.length l).map fun x => fdec f (leNat x) }

/-- The effective elements of a compressed row, and whether a nibble is ill-formed (R219). -/
def expand (meta_ : List Byte) (l : List FV) : List FV × Bool :=
  let groups := (List.range (l.length / 2)).map fun g =>
    let byte := (meta_.getD (g / 2) 0).toNat
    let nib := if g % 2 = 0 then byte % 16 else byte / 16
    let i0 := nib % 4
    let i1 := nib / 4
    if i1 ≤ i0 then (List.replicate 4 fvZero, true)
    else (((List.replicate 4 fvZero).set i0 (l.getD (2 * g) fvZero)).set i1 (l.getD (2 * g + 1) fvZero), false)
  (groups.flatMap Prod.fst, groups.any Prod.snd)

/-! ## Summation (R211 to R213) -/

/-- The size of a group of products and the bits below its largest that are kept (R212). -/
def groupShape (ifmt : Nat) : Option (Nat × Nat) :=
  match ifmt with
  | 0xFF => none
  | 0 => some (8, 50)
  | _ => some (32, 40)

/-- Products truncated towards zero to multiples of 2^(E - keep), and whether a bit was lost (R212). -/
def truncated (keep : Nat) (l : List FV) : List FV × Bool :=
  let tops := l.filterMap fun x => match x with
    | .fin _ m e => if m = 0 then none else some ((Nat.log2 m : Int) + e)
    | _ => none
  let q := tops.foldl max (tops.headD 0) - (keep : Int)
  let r := l.map fun x => match x with
    | .fin n m e => if q ≤ e then (x, false) else (FV.fin n (m / 2 ^ (q - e).toNat) q, decide (m % 2 ^ (q - e).toNat ≠ 0))
    | y => (y, false)
  (r.map Prod.fst, r.any Prod.snd)

/-- The groups' sums added one after another, each rounded (R212). -/
def addGroups (n keep : Nat) : Nat → List FV → Nat → Flags → Nat × Flags
  | 0, _, c, fl => (c, fl)
  | fuel + 1, l, c, fl =>
    if l.isEmpty then (c, fl)
    else
      let g := l.take n
      if g.all FV.isZero then addGroups n keep fuel (l.drop n) c fl
      else match fdec f32Fmt c with
        | .fin neg m e =>
          let t := truncated keep g
          let sum := match sumFin .rne t.1 with
            | .fin s k x => if k = 0 then fvZero else .fin s k x
            | x => x
          let r := roundFV f32Fmt .rne false (sumFin .rne [.fin neg m e, sum])
          addGroups n keep fuel (l.drop n) r.bits (fl ||| r.fl ||| flagIf t.2 flNX)
        | _ => (c, fl)

/-- The new value of an accumulator and the flags raised (R212, R213). -/
def accumulate (ifmt : Nat) (a b : List FV) (c : Nat) : Nat × Flags :=
  let fc := fdec f32Fmt c
  let ops := a ++ b ++ [fc]
  match firstNaN ops with
  | some (.nan _ neg p) => (nanCode f32Fmt neg p, flagIf (ops.any FV.isSig) flNV)
  | _ =>
    let pairs := a.zip b
    let prods := pairs.map fun p => mulFV p.1 p.2
    let infs := (prods ++ [fc]).filter FV.isInf
    if (pairs.any fun p => badProd p.1 p.2) || (infs.any FV.neg? && infs.any fun x => !x.neg?) then (dfltNaN f32Fmt, flNV)
    else match infs with
      | x :: _ => (infCode f32Fmt x.neg?, 0)
      | [] => match groupShape ifmt with
        | none =>
          let r := roundFV f32Fmt .rne false (sumFin .rne (prods ++ [fc]))
          (r.bits, r.fl)
        | some (n, keep) => addGroups n keep prods.length prods c 0

/-! ## Rows and tiles (R205, R216) -/

/-- Whether a tile row is selected (R216). -/
def rowSel (q : Lanes) (i : Nat) : Bool := inSet q (2 * i) || inSet q (2 * i + 1)

/-- The selected rows. -/
def selected (q : Lanes) : List Nat := (List.range 16).filter (rowSel q)

/-- IFMT, DFMT, OSC and MSLOT of a configuration (R206). -/
def cfgIfmt (c : Word) : Nat := (c.extractLsb' 8 8).toNat
def cfgDfmt (c : Word) : Nat := (c.extractLsb' 16 8).toNat
def cfgOsc (c : Word) : Nat := (c.extractLsb' 24 8).toNat
def cfgSlot (c : Word) : Nat := (c.extractLsb' 0 3).toNat

/-- Register rows of the B operand's columns: 8 for `mmas`, else 4 (R207). -/
def MatKind.perCol (k : MatKind) : Nat := if k = .mmas then 8 else 4

/-- A matrix multiply instruction (R218). -/
def MatKind.multiplies (k : MatKind) : Bool :=
  match k with
  | .mma => true
  | .mmaz => true
  | .mmas => true
  | _ => false

/-- R218, R219: the tile after a matrix multiply, and its flags. `slot` is the metadata of MSLOT. -/
def multiply (o : MatOp) (slot : List Byte) (t : Tile) : Tile × Flags :=
  let ifmt := cfgIfmt o.cfg
  let sel := selected o.q
  let as_ := (List.range 16).map fun i => if rowSel o.q i then decodeRow ifmt (opBytes o.opA 4 i) else {}
  let bs := (List.range 16).map fun j => decodeRow ifmt (opBytes o.opB o.kind.perCol j)
  let ex := (List.range 16).map fun i =>
    let l := (as_.getD i {}).elems
    if o.kind = .mmas then expand ((slot.drop (128 * i)).take 128) l else (l, false)
  let zero := decide (o.kind = .mmaz)
  let first := fun (x : OpRow) => x.scales.headD 127
  let sa := if zero then (List.range 16).map fun i => if rowSel o.q i then first (as_.getD i {}) else t.sa.getD i 127 else t.sa
  let sb := if zero then bs.map first else t.sb
  let scm := (sel.any fun i => (as_.getD i {}).scales.any fun x => decide (x ≠ sa.getD i 127)) ||
    (List.range 16).any fun j => (bs.getD j {}).scales.any fun x => decide (x ≠ sb.getD j 127)
  let bfmt := (sel.any fun i => (as_.getD i {}).bad || (ex.getD i ([], false)).2) || bs.any OpRow.bad
  let out := (List.range 256).map fun n =>
    let old := t.acc.getD n 0
    if rowSel o.q (n / 16) then
      accumulate ifmt (ex.getD (n / 16) ([], false)).1 (bs.getD (n % 16) {}).elems (if zero then 0 else old.toNat)
    else (old.toNat, 0)
  ({ t with acc := out.map fun x => BitVec.ofNat 32 x.1, sa := sa, sb := sb },
    out.foldl (fun f x => f ||| x.2) (flagIf scm flSCM ||| flagIf bfmt flBFMT))

/-! ## Drains (R220 to R222) -/

/-- A drained element: its converted pattern, its flags, and its value before conversion. -/
def drainElem (o : MatOp) (t : Tile) (i j : Nat) : Nat × Flags × FV :=
  let sa := t.sa.getD i 127
  let sb := t.sb.getD j 127
  let osc := cfgOsc o.cfg
  let x := fdec f32Fmt (t.acc.getD (16 * i + j) 0).toNat
  let nan := decide (sa = 255) || decide (sb = 255) || decide (osc = 255)
  let v := if nan then FV.nan false false 0
    else match x with
      | .fin n m e => .fin n m (e + sa + sb - 127 - osc)
      | y => y
  let d := cfgDfmt o.cfg
  let r := match fmtOf d, itypeOf d with
    | some f, _ => roundFV f (modeOf o.rm) o.sat v
    | none, some ty => toIntRes ty (modeOf o.rm) o.sat v
    | none, none => ⟨0, 0, false⟩
  (r.bits % 2 ^ codeWidth d, r.fl ||| flagIf nan flNV, v)

/-- amax of a row (R220). -/
def drainAmax (o : MatOp) (t : Tile) (i : Nat) : Nat :=
  let vs := (List.range 16).map fun j => (drainElem o t i j).2.2
  if vs.any FV.isNaN then 0x7FC00000
  else vs.foldl (fun m v => max m ((roundFV f32Fmt .rne false v).bits % 2 ^ 31)) 0

/-- The flags of a drain's selected rows. -/
def drainFlags (o : MatOp) (t : Tile) : Flags :=
  (selected o.q).foldl (fun f i => (List.range 16).foldl (fun f j => f ||| (drainElem o t i j).2.1) f) 0

/-- How many register rows a drain's elements fill (R221). -/
def drainRows (cfg : Word) : Nat := codeWidth (cfgDfmt cfg) / 4

/-- The word that a drain delivers to a lane of its k-th register row (R221). -/
def drainWord (o : MatOp) (t : Tile) (k lane : Nat) : Word :=
  let w := codeWidth (cfgDfmt o.cfg)
  let e := 32 / w
  if k = drainRows o.cfg then BitVec.ofNat 32 (drainAmax o t (lane / 2))
  else BitVec.ofNat 32 (joinElems w ((List.range e).map fun q => (drainElem o t (lane / 2) (8 * (lane % 2) + e * k + q)).1))

/-- Bytes from one row of a drain to the next in memory (R222). -/
def drainStride (cfg : Word) : Nat := if codeWidth (cfgDfmt cfg) = 16 then 32 else 64

/-- What the store form writes, as (offset from the base, bytes) (R222). -/
def drainStores (o : MatOp) (t : Tile) : List (Nat × List Byte) :=
  let w := codeWidth (cfgDfmt o.cfg)
  let stride := drainStride o.cfg
  (selected o.q).flatMap fun i =>
    let ys := (List.range 16).map fun j => (drainElem o t i j).1
    let row := if w = 8 then leBytes 1 (cfgDfmt o.cfg) ++ leBytes 1 (cfgOsc o.cfg) ++ (ys.flatMap fun y => leBytes 1 y) ++ List.replicate 46 0
      else ys.flatMap fun y => leBytes (w / 8) y
    (i * stride, row) :: (if o.amx then [(16 * stride + 4 * i, leBytes 4 (drainAmax o t i))] else [])

/-! ## Issue -/

/-- The frame's description of a matrix word. -/
def mInfo (op f7 : Nat) (g : BitVec 4) (srcs : List Code) (rsv : Bool) : OpInfo :=
  { bInfo op f7 g srcs rsv with noLatch := true, roles := [.mtx] }

/-- The tile trap. -/
def tileTrap (lane t : Nat) : Trap := { cause := .tile, lane := lane, addr := t }

/-- A tile the warp owns (R204, R218). -/
def Cx.owns (cx : Cx) (t : Nat) : Bool := decide (t < cx.b.ntiles) && decide ((cx.b.tiles.getD t {}).owner = some cx.w.idx)

/-- The first row at or above the allocation in the way of `n` rows from `x` on (R164). -/
def Cx.rowsRange (cx : Cx) (x n lane : Nat) : Option Res :=
  if cx.w.rows.length < x + n then some (.trap { cause := .regRange, lane := lane, addr := max x cx.w.rows.length }) else none

/-- What stands in the way of `n` rows from `x` on in some lanes (R208, R221, R225): range, pending rows, held rows for a
destination, validity. -/
def Cx.rowsProblem (cx : Cx) (x n : Nat) (valid : Lanes) (write : Bool) (lane : Nat) : Option Res :=
  let range := (List.range n).map (· + x)
  let busy := range.filter fun r => decide ((cx.w.row r).pend ≠ 0) || (write && decide ((cx.w.row r).hold ≠ 0))
  match cx.rowsRange x n lane with
  | some r => some r
  | none =>
    if !busy.isEmpty then some (.stall {} (.regs busy []))
    else ((lanesOf valid).findSome? fun j => (range.find? fun r => !inSet (cx.w.row r).valid j).map fun r => (j, r)).map fun p =>
      .trap { cause := .invalidReg, lane := p.1, addr := p.2 }

/-- Runs an effect after a check of rows. -/
def afterRows (p : Option Res) (s : State) (k : State → Res) : Res :=
  match p with
  | some (.stall _ r) => .stall s r
  | some r => r
  | none => k s

/-- R186: runs an effect once `n` rows from `x` on, which it reads in some lanes, are sound. -/
def Cx.soundRows (cx : Cx) (x n : Nat) (lanes : Lanes) (s : State) (k : State → Res) : Res :=
  cx.soundSpots (((List.range n).map (· + x)).flatMap fun r => (lanesOf lanes).map fun j => (.reg cx.k r (4 * j), 4)) s k

/-- Rows are held, or released (R208). -/
def Warp.holdRows (w : Warp) (x n : Nat) (up : Bool) : Warp :=
  (List.range n).foldl (fun w i =>
    let r := w.row (x + i)
    w.setRow (x + i) { r with hold := if up then r.hold + 1 else r.hold - 1 }) w

/-- The contents of rows. -/
def Warp.lines (w : Warp) (x n : Nat) : List Line := (List.range n).map fun i => (w.row (x + i)).data

/-- Queues a matrix instruction and counts it on MTX (R218, R227). -/
def Cx.enqueue (cx : Cx) (o : MatOp) (dst : List (Nat × Nat)) (s : State) : State :=
  let o := { o with id := s.fresh, warp := cx.k, q := cx.q, cfg := cx.w.mxcfg, rm := cx.w.rm, sat := cx.sat, pc := cx.first }
  let op : EngOp := { id := s.fresh, cls := .mtx, left := 1, tile := some o.tile, dst := dst }
  let s := s.counted.modWarp cx.k fun w =>
    { w with ops := w.ops ++ [op], burst := if o.kind.multiplies then w.burst - 1 else w.burst }
  let s := (s.modCore cx.w.core fun c => { c with mq := c.mq ++ [o] }).sendOnce .matrixStart { core := cx.w.core }
  if o.kind.multiplies then s.sendOnce .tokenMove { die := dieOfCore cx.w.core } else s

/-- A matrix word that acts on a tile: no selected row, no effect; else the tile check, then the rest (R204, R216, R218). -/
def Cx.onTile (cx : Cx) (t : Code) (s : State) (k : Nat → State → Res) : Res :=
  match lowestLane cx.q with
  | none => .done s none
  | some j => if cx.owns (t.toNat % 64) then k j s else .trap (tileTrap j (t.toNat % 64))

/-- R218: a matrix multiply instruction. One of a declared burst is not ready before its cluster holds a power token (R65; log 109:
DEDUCED). -/
def multiplyWord (op : Nat) (kind : MatKind) (g : BitVec 4) (t a b : Code) (s : State) : State :=
  issue (mInfo op 0 g [] (t.getLsbD 6)) s fun cx s =>
    cx.onTile t s fun j s =>
      let slot := cfgSlot cx.w.mxcfg
      if kind = .mmas ∧ (cx.b.ntiles + 7) / 8 ≤ slot then .trap (tileTrap j slot)
      else
        let nb := 16 * kind.perCol
        let all := BitVec.allOnes 32
        afterRows ((cx.rowsRange (8 * a.toNat) 64 j).or (cx.rowsRange (8 * b.toNat) nb j)) s fun s =>
          afterRows (cx.rowsProblem (8 * a.toNat) 64 all false j) s fun s => afterRows (cx.rowsProblem (8 * b.toNat) nb all false j) s fun s =>
            cx.soundRows (8 * a.toNat) 64 all s fun s => cx.soundRows (8 * b.toNat) nb all s fun s => cx.room .mtx s fun s =>
              if cx.w.burst ≠ 0 ∧ s.powered cx.w.core = false then .stall s .token else
              let o : MatOp :=
                { kind := kind, tile := t.toNat % 64, a := 8 * a.toNat, b := 8 * b.toNat
                  opA := cx.w.lines (8 * a.toNat) 64, opB := cx.w.lines (8 * b.toNat) nb }
              let s := cx.enqueue o [] s
              .done (s.modWarp cx.k fun w => (w.holdRows (8 * a.toNat) 64 true).holdRows (8 * b.toNat) nb true) none

/-- R218: `mma`. -/
def execMma (g : BitVec 4) (t a b : Code) (s : State) : Host.Outcome State Fault Refusal := .next (multiplyWord 0x74 .mma g t a b s)

/-- R214, R218: `mmaz` begins a chain. -/
def execMmaz (g : BitVec 4) (t a b : Code) (s : State) : Host.Outcome State Fault Refusal := .next (multiplyWord 0x75 .mmaz g t a b s)

/-- R219: `mmas` takes A compressed. -/
def execMmas (g : BitVec 4) (t a b : Code) (s : State) : Host.Outcome State Fault Refusal := .next (multiplyWord 0x76 .mmas g t a b s)

/-- R220, R221: `mdrn` to register rows. -/
def execMdrn (g : BitVec 4) (t d : Code) (amx : BitVec 1) (r0 : BitVec 5) (s : State) : Host.Outcome State Fault Refusal :=
  issued { mInfo 0x77 0 g [] (t.getLsbD 6 || decide (r0 ≠ 0)) with sat := true } s fun cx s =>
    cx.onTile t s fun j s =>
      let n := drainRows cx.w.mxcfg + amx.toNat
      afterRows (cx.rowsProblem (8 * d.toNat) n 0 true j) s fun s =>
        cx.room .mtx s fun s =>
          let s := cx.enqueue { kind := .mdrn, tile := t.toNat % 64, a := 8 * d.toNat, amx := decide (amx = 1) } [] s
          .done ((List.range n).foldl (fun s i => s.pendRow cx.k (8 * d.toNat + i) true) s) none

/-- R220, R222: `mdrn.st` to memory or the scratchpad. -/
def execMdrnSt (g : BitVec 4) (t d : Code) (amx : BitVec 1) (r0 : BitVec 5) (s : State) : Host.Outcome State Fault Refusal :=
  issued { mInfo 0x77 0x40 g [d] (t.getLsbD 6 || decide (r0 ≠ 0)) with sat := true } s fun cx s =>
    cx.onTile t s fun j s =>
      cx.checked (readsOf [pairSrc d] (laneBit j)) s fun s =>
        let base := (cx.val (pairSrc d) j).toNat
        let span := 16 * drainStride cx.w.mxcfg + 64 * amx.toNat
        let l : List (Strip × Nat × Nat) :=
          (List.range (span / 64)).map fun i => ({ lane := j, dst := base, len := span }, 64 * i, 64)
        let off := base % 2 ^ 25
        if base % 64 ≠ 0 then .trap { cause := .alignment, sub := 6, lane := j, addr := base }
        else if addrForm base = 15 ∧ base / 2 ^ 25 % 2 ^ 35 = 0 ∧ cx.b.scratchSize < off + span then
          .trap { cause := .scratch, sub := 6, lane := j, addr := off }
        else cx.side .store 6 64 l Strip.dst s fun spots =>
          cx.room .mtx s fun s =>
            let places := spots.map cx.enginePlace
            let glob := places.any fun p => match p with
              | .mem _ _ _ _ _ => true
              | _ => false
            let s := cx.warn (cx.noteSrcs [pairSrc d] s) (if glob then polWarn cx.w.pold else 0)
            let dst := joinRanges (places.filterMap fun p => (cx.placeKey p).map fun k => (k, 64))
            .done (cx.enqueue { kind := .mdrnSt, tile := t.toNat % 64, amx := decide (amx = 1), places := places, va := base } dst s) none

/-- Whether a code may stand in DFMT (R206). -/
def dfmtOk (c : Nat) : Bool := (decide (c ≤ 9) && decide (c ≠ 3)) || isB8Code c

/-- A value for MXCFG and the warnings of its refused fields and reserved bits (R223). -/
def cfgWrite (old v : Word) : Word × Word :=
  let okD := dfmtOk (cfgDfmt v)
  let okI := decide (cfgIfmt v ≤ 2) || decide (cfgIfmt v = 0xFF)
  let keep := fun (ok : Bool) (m : Word) => if ok then v &&& m else old &&& m
  ((v &&& 0xFF000007) ||| keep okD 0x00FF0000 ||| keep okI 0x0000FF00,
    warnIf (!okD || !okI) wTYP ||| warnIf (decide (v &&& 0xF8 ≠ 0)) wRSV)

/-- R223: `mcfg` gives the old MXCFG and sets a new one. -/
def execMcfg (g : BitVec 4) (d a : Code) (s : State) : Host.Outcome State Fault Refusal :=
  issued (mInfo 0x78 0 g [a] false) s fun cx s =>
    match cx.lead with
    | none => .done s none
    | some j =>
      cx.checked (readsOf [{ code := a }] (laneBit j) ++ [dstUse d cx.q]) s fun s =>
        let r := cfgWrite cx.w.mxcfg (cx.val32 { code := a } j)
        let s := cx.warn (cx.noteSrcs [{ code := a }] s) r.2
        let s := cx.writeOnce s d false (cx.w.mxcfg.setWidth 64)
        .done (s.modWarp cx.k fun w => { w with mxcfg := r.1 }) none

/-- R225: `mzero`. -/
def execMzero (g : BitVec 4) (d a : Code) (s : State) : Host.Outcome State Fault Refusal :=
  issued (mInfo 0x78 1 g [] (d.getLsbD 6 || decide (a ≠ 0))) s fun cx s =>
    cx.onTile d s fun _ s => cx.room .mtx s fun s => .done (cx.enqueue { kind := .mzero, tile := d.toNat % 64 } [] s) none

/-- R224: `maloc` takes a tile, or waits for its owner to free it. -/
def execMaloc (g : BitVec 4) (d a : Code) (s : State) : Host.Outcome State Fault Refusal :=
  issued (mInfo 0x78 2 g [] (d.getLsbD 6 || decide (a ≠ 0))) s fun cx s =>
    match cx.lead with
    | none => .done s none
    | some j =>
      let t := d.toNat % 64
      if cx.b.ntiles ≤ t then .trap (tileTrap j t)
      else match (cx.b.tiles.getD t {}).owner with
        | some i => if i = cx.w.idx then .done s none else .stall s (.tiles [t])
        | none => .done (s.modBlock cx.b.node fun b => { b with tiles := b.tiles.set t { owner := some cx.w.idx } }) none

/-- R224: `mfree` gives a tile back once the warp's instructions that name it have retired. -/
def execMfree (g : BitVec 4) (d a : Code) (s : State) : Host.Outcome State Fault Refusal :=
  issued (mInfo 0x78 3 g [] (d.getLsbD 6 || decide (a ≠ 0))) s fun cx s =>
    match cx.lead with
    | none => .done s none
    | some j =>
      let t := d.toNat % 64
      if !cx.owns t then .trap (tileTrap j t)
      else if cx.w.ops.any fun o => decide (o.tile = some t) then .stall s .again
      else .done (s.freeTile cx.b.node t) none

/-- R226: `mburst` declares matrix multiplies to come. -/
def execMburst (g : BitVec 4) (d a : Code) (s : State) : Host.Outcome State Fault Refusal :=
  issued (mInfo 0x78 4 g [a] (decide (d ≠ 0))) s fun cx s =>
    match cx.lead with
    | none => .done s none
    | some j =>
      cx.checked (readsOf [{ code := a }] (laneBit j)) s fun s =>
        .done ((cx.noteSrcs [{ code := a }] s).modWarp cx.k fun w => { w with burst := (cx.val32 { code := a } j).toNat }) none

/-- The rows of `mget` and `mput`: checked, then the rest (R225). -/
def Cx.moveRows (cx : Cx) (d a : Code) (write : Bool) (s : State) (k : Nat → State → Res) : Res :=
  cx.onTile d s fun j s =>
    cx.checked (readsOf [{ code := a }] (laneBit j)) s fun s =>
      let x := (cx.val32 { code := a } j).toNat
      if 127 < x then .trap { cause := .regRange, lane := j, addr := 8 * x }
      else afterRows (cx.rowsProblem (8 * x) 8 (if write then 0 else cx.q) write j) s fun s =>
        cx.soundRows (8 * x) (if write then 0 else 8) cx.q s fun s => cx.room .mtx s fun s => k (8 * x) (cx.noteSrcs [{ code := a }] s)

/-- R225: `mget` copies accumulators to register rows. -/
def execMget (g : BitVec 4) (d a : Code) (s : State) : Host.Outcome State Fault Refusal :=
  issued (mInfo 0x79 0 g [a] (d.getLsbD 6)) s fun cx s =>
    cx.moveRows d a true s fun x s =>
      let s := cx.enqueue { kind := .mget, tile := d.toNat % 64, a := x } [] s
      .done ((List.range 8).foldl (fun s i => s.pendRow cx.k (x + i) true) s) none

/-- R225: `mput` copies register rows to accumulators. -/
def execMput (g : BitVec 4) (d a : Code) (s : State) : Host.Outcome State Fault Refusal :=
  issued (mInfo 0x79 1 g [a] (d.getLsbD 6)) s fun cx s =>
    cx.moveRows d a false s fun x s =>
      let s := cx.enqueue { kind := .mput, tile := d.toNat % 64, a := x, opA := cx.w.lines x 8 } [] s
      .done (s.modWarp cx.k fun w => w.holdRows x 8 true) none

/-! ## The engine (R218, R227, R229) -/

/-- The queue's first instruction that may start: every earlier one of its warp has, and a multiply's cluster holds a token. -/
def startable (powered : Bool) (mq : List MatOp) : Option MatOp :=
  mq.find? fun o => (powered || !o.kind.multiplies) && decide ((mq.find? fun x => decide (x.warp = o.warp)).map MatOp.id = some o.id)

/-- The result rows of a drain or `mget` are written, and pend no more; a warp that has ended takes none. -/
def State.matRows (s : State) (o : MatOp) (n : Nat) (f : Nat → Nat → Word) : State :=
  let live := ((s.warp? o.warp).map fun w => decide (w.live ≠ 0)).getD false
  (List.range n).foldl (fun s k =>
    let s := if live then s.writeRow o.warp (o.a + k) o.q (f k) else s
    s.pendRow o.warp (o.a + k) false) s

/-- A piece of a drain's output on its way: like data an engine has read. -/
def State.drainPiece (s : State) (core : Nat) (o : MatOp) (x : Nat × List Byte) : State :=
  let w := (s.warp? o.warp).getD {}
  let b := (s.block? w.node).getD {}
  let place := match o.places.getD (x.1 / 64) .drop with
    | .mem key va pg sync cnt => .mem (key + x.1 % 64) (va + x.1 % 64) pg sync cnt
    | .scr off => .scr (off + x.1 % 64)
    | p => p
  let a : Access :=
    { id := s.fresh, node := w.node, warp := o.warp, core := core, line := blkKey b.bid 0 / 128, op := o.id, va := o.va, pc := o.pc, wgen := w.resumes }
  s.counted.send .readReply { acc := a, parts := [{ off := 0, len := x.2.length, place := place }], data := x.2 }

/-- Whether an instruction reads the accumulators of its tile (R212, R220, R225). -/
def MatKind.reads : MatKind → Bool
  | .mma | .mmas | .mdrn | .mdrnSt | .mget => true
  | .mmaz | .mzero | .mput => false

/-- R229: the row that the shadow array recomputes of the instruction with count v: row v mod 16, or the next selected one in
ascending cyclic order. -/
def shadowRow (q : Lanes) (v : Nat) : Option Nat := (((List.range 16).map fun i => (v + i) % 16).find? fun i => rowSel q i)

/-- R220, R229: whether run `n` of an instruction is found wrong: a multiply where the engine and the shadow disagree on the shadow's
row, v being its count; a drain where its two results disagree at all. -/
def MatOp.mismatch (o : MatOp) (v n : Nat) : Bool :=
  let rows := o.upset.getD n []
  match o.kind with
  | .mma | .mmaz | .mmas => ((shadowRow o.q v).map rows.contains).getD false
  | .mdrn | .mdrnSt => !rows.isEmpty
  | _ => false

/-- An uncorrectable error ends a matrix instruction: nothing enters the tile, and the block rolls back. -/
def State.matrixLost (s : State) (k cause : Nat) : State :=
  (s.holdWarp k).sendOnce .blockRollback { node := k / 32, num := cause }

/-- The effect of a started matrix instruction on its tile, registers and memory, and its flags. An uncorrectable error of a tile
that it reads, or a second mismatch with the shadow, ends it without effect (R205, R229). -/
def State.runMatrix (s : State) (core : Nat) (o : MatOp) : State :=
  let node := o.warp / 32
  let s := if o.kind.reads then s.mendTile node o.tile else s
  let b := (s.block? node).getD {}
  let t := b.tiles.getD o.tile {}
  let v := (s.core core).mcount
  let missed := o.mismatch v 0
  let put := fun (s : State) (t : Tile) => s.modBlock node fun b => { b with tiles := b.tiles.set o.tile t }
  -- R412
  let rows := (List.range 16).countP fun i => rowSel o.q i
  let s := s.charge o.warp (match o.kind with
    | .mma | .mmaz => (if missed then 2 else 1) * (if cfgIfmt o.cfg = 0 then 30720 else 28672) * rows
    | .mmas => (if missed then 2 else 1) * 30720 * rows
    | _ => 16384)
  if o.kind.reads && !t.bad.isEmpty then s.matrixLost o.warp 0x0402
  else if missed && o.mismatch v 1 then s.matrixLost o.warp 0x0400
  else
  let s := if missed then s.computeCorrected core else s
  let flagged := fun (s : State) (f : Flags) => s.modOp o.warp o.id fun x => { x with fl := x.fl ||| f }
  match o.kind with
  | .mdrn => flagged (s.matRows o (drainRows o.cfg + (if o.amx then 1 else 0)) (drainWord o t)) (drainFlags o t)
  | .mdrnSt =>
    let l := drainStores o t
    let s := s.modOp o.warp o.id fun x => { x with left := x.left + l.length }
    flagged (l.foldl (fun s x => s.drainPiece core o x) s) (drainFlags o t)
  | .mzero =>
    put s { t.rewrote (rowSel o.q) true with
      acc := (List.range 256).map fun n => if rowSel o.q (n / 16) then 0 else t.acc.getD n 0
      sa := (List.range 16).map fun i => if rowSel o.q i then 127 else t.sa.getD i 127
      sb := List.replicate 16 127 }
  | .mget => s.matRows o 8 fun k lane => t.acc.getD (16 * (lane / 2) + 8 * (lane % 2) + k) 0
  | .mput =>
    let s := s.modWarp o.warp fun w => w.holdRows o.a 8 false
    let word := fun (n : Nat) =>
      let lane := 2 * (n / 16) + n % 16 / 8
      if inSet o.q lane then laneWord (o.opA.getD (n % 8) 0) lane else t.acc.getD n 0
    let wrote := fun (n : Nat) => decide (n < 256) && inSet o.q (2 * (n / 16) + n % 16 / 8)
    put s { t with
      acc := (List.range 256).map word
      soft := t.soft.filter fun n => !wrote n
      bad := t.bad.filter fun n => !wrote n }
  | _ =>
    let now := s.podTime b.chip
    let s := s.modBlock node fun b => { b with stamp := { b.stamp with mfirst := some (b.stamp.mfirst.getD now) } }
    let s := s.modWarp o.warp fun w => (w.holdRows o.a 64 false).holdRows o.b (16 * o.kind.perCol) false
    let t := if o.kind = .mmaz then t.rewrote (rowSel o.q) true else t
    let r := multiply o (memBytes b.slots (cfgSlot o.cfg * 2048) 2048) t
    flagged (put (s.modCore core fun c => { c with mcount := c.mcount + 1 }) r.1) r.2

/-- MATRIX_START (R218, R227): the engine takes the first instruction of its queue that may start. A multiply without a token
waits for one. -/
def execMatrixStart (s : State) : Host.Outcome State Fault Refusal :=
  let core := s.cue.core
  let c := s.core core
  match startable (s.powered core) c.mq with
  | none => .next s
  | some o =>
    let s := (s.setCore core { c with mq := c.mq.filter fun x => decide (x.id ≠ o.id) }).runMatrix core o
    let s := s.modOp o.warp o.id fun x => { x with left := x.left - 1 }
    let s := if ((s.opOf o.warp o.id).map fun x => decide (x.left = 0)).getD false then
        s.sendOnce .operationRetire { warp := o.warp, cls := .mtx } else s
    let s := s.releaseRegs o.warp
    .next (if (s.core core).mq.isEmpty then s else s.sendOnce .matrixStart { core := core })

/-! ## Power tokens (R230, R232) -/

/-- Whether a cluster has a multiply waiting to start, or a warp that has not ended with a declared count (R230). -/
def State.wantsToken (s : State) (die cluster : Nat) : Bool :=
  let mine := fun (core : Nat) => decide (dieOfCore core = die) && decide (clusterOf core = cluster)
  (s.cores.any fun c => mine c.1 && c.2.mq.any fun o => o.kind.multiplies)
    || s.warps.any fun w => mine w.2.core && w.2.resident && decide (w.2.live ≠ 0) && decide (w.2.burst ≠ 0)

/-- One move of a token: whether it stays, is taken or passes on, and what becomes of the tokens already moved. -/
def State.moveToken (s : State) (die : Nat) (lim : List Nat) (now : Nat) (done : List Token) (t : Token) : List Token :=
  let stays := t.held.isSome && s.wantsToken die t.pos && !lim.contains t.pos
  if stays then done ++ [t]
  else
    let p := (t.pos + 1) % 64
    let taken := s.wantsToken die p && !done.any fun x => decide (x.pos = p) && x.held.isSome
    done ++ [{ pos := p, held := if taken then some now else none }]

/-- A lowered count removes, of the tokens that are about to move, those that their holders release and free ones that would reach
cluster 0, before another cluster can take them (R232). -/
def trimTokens (excess : Nat) (l : List Token) : List Token :=
  (l.foldl (fun (a : Nat × List Token) t =>
    if a.1 ≠ 0 ∧ (t.held.isSome ∨ t.pos = 63) then (a.1 - 1, a.2) else (a.1, a.2 ++ [t])) (excess, [])).2

/-- TOKEN_MOVE (R230, R232): every token of a die moves one position or is held. A move is 8 cycles of waiting for each warp
whose oldest multiply has no token. -/
def execTokenMove (s : State) : Host.Outcome State Fault Refusal :=
  let die := s.cue.die
  let d := s.die die
  let now := s.podTime (die / 4)
  -- tokens that stay where they are go first, so that no second one is taken beside them
  let stays := fun (t : Token) => t.held.isSome && s.wantsToken die t.pos && !d.limited.contains t.pos
  let going := trimTokens (d.tokens.length - d.tokenCount) (d.tokens.filter fun t => !stays t)
  let l := (d.tokens.filter stays ++ going).foldl (s.moveToken die d.limited now) []
  let l := if l.length < d.tokenCount then s.moveToken die [] now l { pos := 63 } else l
  let fresh := l.filter fun t => t.held.isSome && !d.tokens.any fun x => decide (x = t)
  let s := s.setDie die { d with tokens := l, limited := [] }
  let short := fun (p : Nat × Warp) => p.2.resident && decide (dieOfCore p.2.core = die) && !s.powered p.2.core &&
    ((p.2.gangs.any fun g => decide (g.wait = .stall .token)) ||
      (s.core p.2.core).mq.any fun o => decide (o.warp = p.1) && o.kind.multiplies)
  let wait := fun (p : Nat × Warp) => if short p then (p.1, { p.2 with tokwait := (p.2.tokwait + 8) % 2 ^ 32 }) else p
  let s := { s with warps := s.warps.map wait }
  let s := fresh.foldl (fun s t => s.sendOnce .tokenHoldLimit { die := die, unit := t.pos }) s
  let s := (s.cores.filter fun c => decide (dieOfCore c.1 = die) && !c.2.mq.isEmpty && s.powered c.1).foldl
    (fun s c => s.sendOnce .matrixStart { core := c.1 }) s
  .next (if l.isEmpty && decide (d.tokenCount = 0) && !s.warps.any short then s else s.sendOnce .tokenMove { die := die })

/-- TOKEN_HOLD_LIMIT (R230): a cluster that has held its token for 4,000 ns releases it at the next move. -/
def execTokenHoldLimit (s : State) : Host.Outcome State Fault Refusal :=
  let die := s.cue.die
  let c := s.cue.unit
  match (s.die die).tokens.find? fun t => decide (t.pos = c) && t.held.isSome with
  | none => .next s
  | some t =>
    if s.podTime (die / 4) < t.held.getD 0 + 4000 then .next (s.send .tokenHoldLimit { die := die, unit := c })
    else .next (s.modDie die fun d => { d with limited := c :: d.limited })

end Sys2Proof.Machine
end

