-- ==== Sys2Proof/Machine/Launch.lean ====
section
/-! DEFINITION. Launching a grid: the launch record, the kernel descriptor, the group table, the input tiles, the grid image
(02 R56; 06 R163, R198; 09 R284; 11 R307; 13 R363, R364, R378). -/

namespace Sys2Proof.Machine

/-! ## Records as bytes -/

/-- Whether bytes from an offset to before another are all zero. -/
def zeroBytes (l : List Byte) (a b : Nat) : Bool := ((l.drop a).take (b - a)).all fun x => decide (x = 0)

/-- A value that is a multiple of a number and lies in a range. -/
def rangeOk (x unit lo hi : Nat) : Bool := decide (x % unit = 0) && decide (lo ≤ x) && decide (x ≤ hi)

/-- A field of a byte at a position. -/
def byteBits (l : List Byte) (off lo n : Nat) : Nat := fieldAt l off 1 / 2 ^ lo % 2 ^ n

/-! ## The checks of `submit`, by refusal code (R378) -/

/-- Code 1: the launch record (R363). `ctx` is the issuing context of a `submit`. -/
def launchBad (l : List Byte) (ctx : Option Nat) : Bool :=
  let f := fieldAt l
  let set := f 23 1
  let fst : Word := BitVec.ofNat 32 (f 40 4)
  let mx : Word := BitVec.ofNat 32 (f 44 4)
  let pol : Word := BitVec.ofNat 32 (f 48 4)
  !rangeOk (f 8 4) 1 1 (2 ^ 31) || !rangeOk (f 12 4) 1 1 65536 || (match ctx with
      | some c => decide (f 16 2 ≠ c)
      | none => false)
    || decide (511 < f 20 2) || decide (f 20 2 < f 18 2) || decide (2 < f 22 1) || decide (7 < set)
    || (decide (set % 2 = 1) && decide (fst &&& 0xFC00FF00 ≠ 0)) || (decide (set / 2 % 2 = 1) && decide ((cfgWrite 0 mx).2 ≠ 0))
    || (decide (set / 4 % 2 = 1) && (pol.getLsbD 0 || decide (polRepl pol = 3)))
    || !zeroBytes l 52 56 || decide (f 56 8 % 32 ≠ 0) || decide (65536 < f 72 4) || !zeroBytes l 76 128

/-- Code 2: the kernel descriptor (R56), but for the pages of its code. -/
def kernelBad (k : List Byte) : Bool :=
  let f := fieldAt k
  let nw := f 2 1
  let warp := fun (w : Nat) =>
    let o := 128 + 8 * w
    if w < nw then decide (3 < f o 1) || !zeroBytes k (o + 1) (o + 4) || decide (f (o + 4) 4 % 4 ≠ 0) || decide (f 16 4 ≤ f (o + 4) 4)
    else !zeroBytes k o (o + 8)
  decide (f 0 2 ≠ 1) || !rangeOk nw 1 1 32 || decide (64 < f 3 1) || !rangeOk (f 4 2) 32 32 1024 || decide (3 < f 6 1) || decide (16 < f 7 1)
    || decide (f 8 8 % 4 ≠ 0) || !rangeOk (f 16 4) 4 4 (2 ^ 24) || !rangeOk (f 20 4) 4096 0 491520
    || ((List.range 8).any fun r => decide (16 < f (28 + r) 1)) || decide (16 < f 36 1) || !zeroBytes k 37 40
    || ((List.range 16).any fun i => if i < f 36 1 then decide (2 ≤ f (41 + 2 * i) 1) else !zeroBytes k (40 + 2 * i) (42 + 2 * i))
    || !zeroBytes k 72 128 || ((List.range 32).any warp)
    || ((List.range 16).any fun i => decide (f 7 1 ≤ i) && !zeroBytes k (384 + 32 * i) (416 + 32 * i))

/-- Code 2: every page of the code translates with permission X. -/
def State.codeOk (s : State) (chip ctx : Nat) (k : List Byte) : Bool :=
  let code := fieldAt k 8 8
  let len := fieldAt k 16 4
  ((List.range (len / 65536 + 2)).map fun i => min (code + 65536 * i) (code + len - 4)).all fun ea =>
    match s.resolve chip ctx (ea % 2 ^ 64) with
    | some (_, leaf) => leafX leaf
    | none => false

/-- An input tile of the descriptor (R198), and code 4. -/
def inTile (k : List Byte) (i : Nat) : InTile :=
  let f := fun (o n : Nat) => fieldAt k (384 + 32 * i + o) n
  { base := f 0 8, stride := ofPat true 32 (f 8 4), len := f 12 4, soff := f 16 4, policy := BitVec.ofNat 32 (f 20 4), tagb := BitVec.ofNat 64 (f 24 8) }

def tileBad (k : List Byte) (t : InTile) : Bool :=
  decide (t.base % 128 ≠ 0) || !rangeOk t.len 128 128 65536 || decide (t.soff % 128 ≠ 0)
    || decide (fieldAt k 20 4 < t.soff + t.len)

/-- Bytes read at a virtual address, line by line, at their homes (R378): none where a piece does not translate, may not be read,
or holds an error. -/
def pullLines (chip ctx : Nat) (a : Access) : List (Nat × Nat) → State → State × Option (List Byte)
  | [], s => (s, some [])
  | (ea, n) :: r, s =>
    match s.resolve chip ctx ea with
    | some (key, leaf) =>
      if !leafRd leaf then (s, none)
      else match s.readNow { a with enc := leafEnc leaf, alloc := decide (leafCache leaf ≠ 2) } key n with
        | (s, some l) => (match pullLines chip ctx a r s with
          | (s, some t) => (s, some (l ++ t))
          | (s, none) => (s, none))
        | (s, none) => (s, none)
    | none => (s, none)

/-- Bytes of a virtual range. -/
def State.pull (s : State) (chip ctx : Nat) (a : Access) (ea len : Nat) : State × Option (List Byte) :=
  pullLines chip ctx a ((rangeStrip 0 ea len).pieces.map fun p => ((ea + p.1) % 2 ^ 64, p.2)) s

/-- The members of each valid group of a table (R307): none where an entry is refused. -/
def State.readGroups (s : State) (chip ctx nblk : Nat) (a : Access) (t : List Byte) : State × Option (Tab Group) :=
  (List.range 256).foldl (fun (x : State × Option (Tab Group)) g =>
    match x with
    | (s, none) => (s, none)
    | (s, some l) =>
      let f := fun (o n : Nat) => fieldAt t (16 * g + o) n
      if 4 ≤ f 0 1 ∨ f 1 3 ≠ 0 then (s, none)
      else if f 0 1 % 2 = 0 then (s, some l)
      else if f 4 4 = 0 ∨ 2 ^ 20 < f 4 4 ∨ f 8 8 % 4 ≠ 0 then (s, none)
      else match s.pull chip ctx a (f 8 8) (4 * f 4 4) with
        | (s, none) => (s, none)
        | (s, some m) =>
          let ids := (List.range (f 4 4)).map fun i => fieldAt m (4 * i) 4
          if (ids.any fun b => decide (nblk ≤ b)) ∨ ids.eraseDups.length ≠ ids.length then (s, none)
          else (s, some (l ++ [(g, { co := decide (f 0 1 / 2 % 2 = 1), members := ids })]))) (s, some [])

/-- Code 3 beyond the table itself: a block in more than four groups, or a kernel's group that the table does not bear out. -/
def groupsBad (k : List Byte) (t : Tab Group) : Bool :=
  let all_ := t.flatMap fun g => g.2.members
  let crowded := all_.eraseDups.any fun b => decide (4 < (t.filter fun g => g.2.members.contains b).length)
  crowded || (List.range (fieldAt k 36 1)).any fun i =>
    match tabLook t (fieldAt k (40 + 2 * i) 1) with
    | none => true
    | some g => decide (fieldAt k (41 + 2 * i) 1 = 1) && !g.co

/-! ## The grid image (R163, R364) -/

/-- Ranges joined where they overlap, in ascending order. -/
def mergeRanges (l : List (Nat × Nat)) : List (Nat × Nat) :=
  let sorted := l.foldr (fun x r => r.filter (fun y => decide (y.1 < x.1)) ++ [x] ++ r.filter fun y => decide (x.1 ≤ y.1)) []
  (sorted.foldl (fun (a : List (Nat × Nat)) x => match a with
    | (p, q) :: r => if x.1 ≤ q then (p, max q x.2) :: r else x :: a
    | [] => [x]) []).reverse

/-- The gangs of the co-resident groups: the rows from the lowest to the highest that hold a member. -/
def gangsOf (rowblk : Nat) (t : Tab Group) : List (Nat × Nat) :=
  mergeRanges ((t.filter fun g => g.2.co).filterMap fun g =>
    match g.2.members.map fun b => b / rowblk with
    | [] => none
    | x :: r => some (r.foldl min x, r.foldl max x))

/-- The store need of a block, in KiB (R163). -/
def kernelNeed (k : List Byte) : Nat := fieldAt k 2 1 * fieldAt k 4 2 / 8 + fieldAt k 20 4 / 1024 + 32

/-- R364. -/
def imageOf (l k : List Byte) (gangs : List (Nat × Nat)) : List Byte :=
  l ++ leBytes 4 (kernelNeed k) ++ leBytes 1 (fieldAt k 3 1) ++ leBytes 1 (fieldAt k 6 1) ++ leBytes 2 gangs.length
    ++ leBytes 4 (fieldAt k 24 4) ++ leBytes 4 0 ++ gangs.flatMap fun g => leBytes 4 g.1 ++ leBytes 4 g.2

/-- The role of a code (R56). -/
def roleOf (n : Nat) : Role :=
  match n with
  | 0 => .gen
  | 1 => .copy
  | 2 => .mtx
  | _ => .vec

/-- What the chips that run a grid's blocks need (R363, R56). -/
def gridOf (l k : List Byte) (groups : Tab Group) : GridRun :=
  let f := fieldAt l
  let d := fieldAt k
  let set := f 23 1
  let when_ := fun (b : Nat) (o : Nat) => if set / 2 ^ b % 2 = 1 then some (BitVec.ofNat 32 (f o 4) : Word) else none
  { ctx := f 16 2, nblk := f 8 4, det := decide (d 6 1 % 2 = 1), resume := decide (d 6 1 / 2 % 2 = 1), code := d 8 8, codelen := d 16 4
    regs := d 4 2, scratch := d 20 4, tiles := d 3 1, energy := d 24 4, stage := (List.range 8).map fun r => d (28 + r) 1
    warps := (List.range (d 2 1)).map fun w => (roleOf (d (128 + 8 * w) 1), d (132 + 8 * w) 4)
    inputs := (List.range (d 7 1)).map (inTile k), groups := groups, args := f 64 8, arglen := f 72 4, budget := f 28 4
    fstat0 := when_ 0 40, mxcfg0 := when_ 1 44, pold0 := when_ 2 48, comp := f 56 8 }

/-! ## A submission (R378) -/

/-- What reading a submission gives: a refusal, or an image with the launch state. -/
inductive Launch
  | refused (code ctx crec : Nat)
  | accepted (ctx : Nat) (image : List Byte) (g : GridRun)
  /-- A read failed: the launch record itself, or a line that holds an error. -/
  | unread

/-- R378, steps 2 and 3, for a record that has been read. `solo` tells a device warp's `submit` in solo service. -/
def State.judge (s : State) (chip : Nat) (a : Access) (ctx : Option Nat) (solo : Bool) (l : List Byte) : State × Launch :=
  let f := fieldAt l
  let c := ctx.getD (f 16 2)
  let no := fun (n : Nat) => Launch.refused n c (f 56 8)
  if launchBad l ctx then (s, no 1)
  else if f 0 8 % 128 ≠ 0 then (s, no 2)
  else match s.pull chip c a (f 0 8) 896 with
    | (s, none) => (s, if (s.resolve chip c (f 0 8)).isSome then .unread else no 2)
    | (s, some k) =>
      if kernelBad k || !s.codeOk chip c k then (s, no 2)
      else
        let r := if f 32 8 = 0 then (s, some []) else match s.pull chip c a (f 32 8) 4096 with
          | (s, none) => (s, none)
          | (s, some t) => s.readGroups chip c (f 8 4) a t
        match r with
        | (s, none) => (s, no 3)
        | (s, some groups) =>
          if groupsBad k groups then (s, no 3)
          else if (List.range (fieldAt k 7 1)).any fun i => tileBad k (inTile k i) then (s, no 4)
          else if !rangeOk (f 28 4) 1 16 65536 then (s, no 5)
          else if solo then (s, no 6)
          else (s, .accepted c (imageOf l k (gangsOf (f 12 4) groups)) (gridOf l k groups))

/-- Posts the SUBMIT of an accepted launch (R355). -/
def State.postSubmit (s : State) (chip ctx origin : Nat) (image : List Byte) (g : GridRun) : State :=
  let n := s.fresh
  { s.counted with drafts := s.drafts ++ [(n, g)] }.queueEvent chip
    { type := 0, ctx := ctx, payload := leBytes 2 image.length ++ leBytes 1 origin, cont := image, draft := n }

/-- The completion record of a refusal (R365, R378): written where CREC is aligned. -/
def State.refusal (s : State) (chip ctx crec code : Nat) : State :=
  if crec % 32 ≠ 0 then s else s.writeCompletion chip ctx crec (completionBytes 1 code 0 0 0 (s.podTime chip) 0)

end Sys2Proof.Machine
end

