-- ==== Sys2Proof/Machine/PowerStates.lean ====
section
/-! DEFINITION. The chip energy controller, the trips, secure boot, reset, and the power states (07 R232; 15 R415 to R420;
16 R425). -/

namespace Sys2Proof.Machine

/-- The dies of a chip. -/
def diesOf (x : Nat) : List Nat := (List.range 4).map (4 * x + ·)

/-- PLAN_c and IDLE_c, in W (R414). -/
def State.plan (s : State) (x : Nat) : Nat := (tabLook s.cfg.plan x).getD 0
def State.idle (s : State) (x : Nat) : Nat := (tabLook s.cfg.idle x).getD 160

/-- BUDGET over some chips (R414). -/
def State.budget (s : State) (l : List Nat) : Nat := (l.map fun y => (s.plan y - s.idle y) * s.cfg.len).foldl (· + ·) 0

/-- Every die of a chip changed, its token ring going on (R232). -/
def State.modDies (s : State) (x : Nat) (f : Die → Die) : State :=
  (diesOf x).foldl (fun s d => (s.modDie d f).sendOnce .tokenMove { die := d }) s

/-! ## The controller (R415 to R417) -/

/-- A die's step of the controller: down by 4 tokens and 5 %, or up. While the ceiling holds the counts at 0 they stay. -/
def Die.throttle (up held : Bool) (d : Die) : Die :=
  let n := if up then min 64 (d.tokenCount + 4) else max 1 (d.tokenCount - 4)
  let cap := fun (p : Nat) => if up then min 100 (p + 5) else max 25 (p - 5)
  { d with tokenCount := if held then d.tokenCount else n, dramCap := cap d.dramCap, fabricCap := cap d.fabricCap }

/-- ENERGY_CONTROLLER_STEP (R415): the measured package power, in mW, against PLAN_c; the measured energy of the 10,000 ns and the
modelled energy are recorded for the host. -/
def execEnergyControllerStep (s : State) : Host.Outcome State Fault Refusal :=
  let x := s.cue.chip
  let p := s.cue.num
  let held := (s.chip x).tripped
  let plan := 1000 * s.plan x
  let s := s.modChip x fun c =>
    { c with measured := c.measured + 10 * p, modelled := ((c.enCtx.map Prod.snd).foldl (· + ·) 0) / 2 ^ 16 }
  .next (if plan < p then s.modDies x (Die.throttle false held)
    else if 100 * p < 95 * plan then s.modDies x (Die.throttle true held) else s)

/-- POWER_CEILING_TRIP (R416): every die's token count goes to 0. -/
def execPowerCeilingTrip (s : State) : Host.Outcome State Fault Refusal :=
  let x := s.cue.chip
  if (s.chip x).tripped then .next s
  else
    let save := (diesOf x).map fun d => (d, (s.die d).tokenCount)
    .next ((s.modChip x fun c => { c with tripped := true, tokenSave := save }).modDies x fun d => { d with tokenCount := 0 })

/-- POWER_CEILING_RESTORE (R416): the counts come back. -/
def execPowerCeilingRestore (s : State) : Host.Outcome State Fault Refusal :=
  let x := s.cue.chip
  let c := s.chip x
  if !c.tripped then .next s
  else
    let s := s.setChip x { c with tripped := false, tokenSave := [] }
    .next ((diesOf x).foldl (fun s d => (s.modDie d fun y =>
      { y with tokenCount := (tabLook c.tokenSave d).getD y.tokenCount }).sendOnce .tokenMove { die := d }) s)

/-- THERMAL_TRIP (R373, R417): at 115 °C every token count goes to 0 and the hub fences the chip. -/
def execThermalTrip (s : State) : Host.Outcome State Fault Refusal :=
  let x := s.cue.chip
  .next ((s.modDies x fun d => { d with tokenCount := 0 }).fenceChip x)

/-! ## Boot and reset (R190, R267, R327, R418, R419, R425) -/

/-- SECURE_BOOT (R425): the image's signing key must be the one fused, its signature must verify, and its version must not lie below
the fused minimum, which it may raise. A failure leaves the chip Off. -/
def execSecureBoot (s : State) : Host.Outcome State Fault Refusal :=
  let x := s.cue.chip
  let f := s.cue.firmware
  let c := s.chip x
  let digest := Config.sha512 f.image
  let key := Config.sha512 (leBytes 32 f.key.toNat)
  if c.power ≠ .off then .next s
  else if key = Config.fusedKeyDigest ∧ Config.ed25519Verifies f.key f.image f.sig ∧ c.fwMin ≤ f.version then
    .next ((s.setChip x { c with fwOk := true, fwFailed := false, fwDigest := digest, fwMin := max c.fwMin f.raiseMin
                                 offset := -(s.now : Int) }).sendOnce .soloServiceStart { chip := x })
  else .next (s.setChip x { c with fwOk := false, fwFailed := true })

/-- Everything of a chip's memory is gone (R418, R420). -/
def State.clearSpace (s : State) (x : Nat) : State :=
  { s with
    mem := s.mem.filter fun (p : Host.Cell) => decide (p.1 / 2 ^ 60 ≠ x)
    lines := s.lines.filter fun (p : Nat × HomeLine) => decide (lineSpace p.1 ≠ x) }

/-- The runs on a chip stop for good: those of local grids are gone; those of the pod's wait to be discarded when the others
learn of the loss (R372). -/
def State.stopChip (s : State) (x : Nat) : State :=
  let pod := (s.chip x).inPod
  let s := s.ghost x
  let mine := ((tabVals s.blocks).filter fun b => decide (b.chip = x) && b.open_).map Block.node
  let warpOf := fun (p : Nat × Warp) =>
    if mine.contains p.2.node then (p.1, { p.2 with gangs := [], resident := false, live := if pod then p.2.live else 0 }) else p
  let s := { s with warps := s.warps.map warpOf }
  mine.foldl (fun s n => s.modBlock n fun b => { b with leaving := true, st := if pod then b.st else .dead }) s

/-- The cores and dies of a chip as its repair records give them (R190, R267). -/
def State.repairChip (s : State) (x : Nat) (r : Repair) : State :=
  let s := { s with
    cores := s.cores.filter fun (c : Nat × Core) => decide (chipOfCore c.1 ≠ x)
    dies := s.dies.filter fun (d : Nat × Die) => decide (d.1 / 4 ≠ x) }
  let s := r.cores.foldl (fun (s : State) c =>
    s.setCore (x * 2048 + c.1 % 2048) { spare := c.2.1, retired := c.2.2.1, kib := c.2.2.2, spares := (List.range c.2.1).map (64 + ·) }) s
  r.dies.foldl (fun (s : State) d => s.setDie (4 * x + d.1 % 4) { l2Retired := d.2 }) s

/-- DEVICE_RESET (R190, R267, R327, R373, R418): the chip is Off until firmware starts solo service; what firmware loads is loaded
from the repair records and the straps; keys, links and the fused minimum stay, and so does CHIPID.POD until the chip rejoins (log 84: DESIGN CHOICE). -/
def execDeviceReset (s : State) : Host.Outcome State Fault Refusal :=
  let x := s.cue.chip
  let r := s.cue.repair
  let old := s.chip x
  let s := (s.stopChip x).repairChip x r
  let c : Chip :=
    { group := r.group, pos := r.pos, num := old.num, inc := old.inc, offset := old.offset, fwOk := old.fwOk, fwFailed := old.fwFailed
      fwMin := old.fwMin, fwDigest := old.fwDigest, repaired := true, repairs := r, repairDigest := Config.recordDigest s.fresh
      wrapKey := old.wrapKey, pageKeys := old.pageKeys, links := old.links, errlog := old.errlog, rebuilding := old.rebuilding }
  let s := (s.setChip x c).counted
  .next (if c.fwOk then s.sendOnce .soloServiceStart { chip := x } else s)

/-- POWER_REMOVAL (R418): every volatile state is lost, memory included; the fused minimum version stays. -/
def execPowerRemoval (s : State) : Host.Outcome State Fault Refusal :=
  let x := s.cue.chip
  let old := s.chip x
  let s := ((s.stopChip x).repairChip x {}).clearSpace x
  .next (s.setChip x { fwMin := old.fwMin, rebuilding := old.rebuilding })

/-! ## Solo service, joining, full service (R337, R419, R420) -/

/-- Capacities of a chip's cores that are not 512 KiB, in units of 64 KiB. -/
def State.capsOf (s : State) (x : Nat) : Tab Nat :=
  (s.cores.filter fun c => decide (chipOfCore c.1 = x) && decide (c.2.kib ≠ 512)).map fun c => (c.1 % 2048, c.2.kib / 64)

/-- SOLO_SERVICE_START (R232, R419): a pod of one, with a local Plate. -/
def execSoloServiceStart (s : State) : Host.Outcome State Fault Refusal :=
  let x := s.cue.chip
  let c := s.chip x
  if c.power ≠ .off ∨ !c.fwOk ∨ !c.repaired then .next s
  else
    let base := 2 ^ 40 * (x + 1)
    let me : PChip := { inc := c.inc, group := c.group, pos := c.pos, caps := s.capsOf x }
    let p : Plate := { base := base, nextGid := base + 1, chips := [(x, me)], budget := s.budget [x] }
    let s := s.setChip x { c with power := .solo, plate := p, inPod := false }
    let s := s.modDies x fun d => { d with tokenCount := 16 }
    .next ((s.sendOnce .energyInterval { chip := x, num := 1 }).sendOnce .timeFlitSend { chip := x })

/-- A grid that has ended. -/
def GState.isOver (g : GState) : Bool := decide (g = .complete) || decide (g = .faulted) || decide (g = .refused)

/-- The Plate of a pod that is being formed (R368, R420). -/
def State.formation (s : State) : Plate :=
  let one := fun (y : Nat) => (y, { inc := 1, group := (s.chip y).group, pos := (s.chip y).pos : PChip })
  { chips := (sortBy (fun (y : Nat) => [y]) s.cfg.chips).map one, budget := s.budget s.cfg.chips }

/-- What an earlier pod left is gone when a new one is formed. -/
def State.freshPod (s : State) : State :=
  { s with
    grids := s.grids.filter fun (g : Nat × GridRun) => decide (2 ^ 40 ≤ g.1)
    blocks := s.blocks.filter fun (b : Nat × Block) => decide (2 ^ 40 ≤ b.2.gid)
    warps := s.warps.filter fun (w : Nat × Warp) => ((s.block? w.2.node).map fun b => decide (2 ^ 40 ≤ b.gid)).getD false
    homesAt := 0, losses := [], mirrors := [], copyRoots := [], ghosts := [] }

/-- JOINING_START (R337, R374, R420): DRAM and links have trained. The chip waits for its solo grids; then it asks for a snapshot
where some chip of the pod is in full service, and takes part in forming the pod otherwise. -/
def execJoiningStart (s : State) : Host.Outcome State Fault Refusal :=
  let x := s.cue.chip
  let c := s.chip x
  if (c.power ≠ .solo ∧ c.power ≠ .joining) ∨ c.inPod ∨ !s.cfg.chips.contains x then .next s
  else
    let s := s.setChip x { c with power := .joining }
    let again := Host.Outcome.next (s.sendOnce .joiningStart { chip := x })
    let busy := (c.plate.grids.any fun g => !g.2.st.isOver) || !c.evq.isEmpty ||
      s.agenda.any fun d => decide (d.cue.chip = x) && (decide (d.ev = .completionRecordWrite) || decide (d.ev = .submitDelivery))
    if busy then again
    else
      let s := s.clearSpace x
      let full := (s.chips.filter fun y => decide (y.1 ≠ x) && y.2.inPod && !y.2.fenced && decide (y.2.power = .full)).map Prod.fst
      match full with
      | y :: _ =>
        let t := (s.chip y).plate.chips
        let live := (t.filter fun p => decide (p.2.st = .live)).map Prod.fst
        let near := live.filter fun k => decide ((s.chip k).group = c.group)
        let n := near.headD (live.headD y)
        -- the neighbour is asked again until its snapshot comes
        .next ((s.sendOnce .snapshotRequest { chip := n, peer := x }).sendOnce .joiningStart { chip := x })
      | [] =>
        let s := if s.chips.any fun y => y.2.inPod then s else s.freshPod
        let low := (sortBy (fun (y : Nat) => [y]) s.cfg.chips).headD x
        let src := s.cfg.chips.map fun y => (y, { inc := 1 : SrcInfo })
        let s := s.setChip x { s.chip x with
          plate := s.formation, inPod := true, inc := 1, num := x, events := [], lastKey := (0, 0), src := src, seq := 0, lastStamp := 0
          evq := [], heldReports := [], batches := [], reported := [], permits := 64, heldSince := none, timeSet := decide (x = low)
          offset := if x = low then -(s.now : Int) else (s.chip x).offset, repairDigest := Config.recordDigest s.fresh }
        .next ((s.counted.sendOnce .fullServiceStart { chip := x }).sendOnce .timeFlitSend { chip := x })

/-- The neighbours of a chip over working links that have set their copies of pod time, each by the link there (R337). -/
def State.setNeighbours (s : State) (x : Nat) : List Nat :=
  ((s.chip x).links.filter fun l => decide (l.2.st = .up) && match s.peerOf x l.1 with
    | some (y, _) => (s.chip y).timeSet && (s.chip y).inPod
    | none => false).map Prod.fst

/-- FULL_SERVICE_START (R232, R337, R374, R420): once the chip's pod time is set and within 4 ns of every working neighbour that has
set its own; a rejoining chip's REJOIN has been delivered. CAPACITY events come first, then the held submissions. -/
def execFullServiceStart (s : State) : Host.Outcome State Fault Refusal :=
  let x := s.cue.chip
  let c := s.chip x
  let near := (s.setNeighbours x).all fun e => match tabLook c.nbr e with
    | some n => decide (n.natAbs < 4)
    | none => false
  let live := c.plate.live.contains x
  if c.power ≠ .joining ∨ !c.inPod ∨ !live then .next s
  else if !c.timeSet ∨ !near ∨ !inStep (tabPut s.chips x { c with power := .full }) x then .next (s.sendOnce .fullServiceStart { chip := x })
  else
    let now := s.podTime x
    let s := s.setChip x { c with
      power := .full, inc := ((tabLook c.plate.chips x).map PChip.inc).getD c.inc
      src := c.src.map fun p => (p.1, { p.2 with heard := max p.2.heard now }) }
    let s := s.modDies x fun d => { d with tokenCount := 64 }
    let s := (s.postCapacities x).releaseSubmits x
    .next (((s.sendOnce .heartbeatSend { chip := x }).sendOnce .energyInterval { chip := x, num := c.plate.interval + 1 }).sendOnce
      .proof { chip := x, num := now / (s.cfg.t * 1000000) + 1 })

end Sys2Proof.Machine
end

