-- ==== Sys2Proof/Machine/Proofs.lean ====
section
/-! DEFINITION. Proofs (17 R436, R437). -/

namespace Sys2Proof.Machine

/-- Pod time of a proof (R436). -/
def State.proofTime (s : State) (n : Nat) : Nat := n * s.cfg.t * 1000000

/-- The committed value of a line: its earliest undo copy, where it is provisional (R281, R436). -/
def State.committed (s : State) (line : Nat) : Line :=
  match (s.line line).undo with
  | u :: _ => u.2.2
  | [] => s.lineData line

/-- The lines of a chip's proofed pages. -/
def State.proofLines (s : State) (x : Nat) : List Nat :=
  let pages := ((s.leavesOf x).filter fun p => decide (leafRec p.2 = 2) && !leafHost p.2).map fun p => pageRange p.2
  let inside := fun (line : Nat) => pages.any fun p => decide (p.1 ≤ 128 * (line % 2 ^ 53)) && decide (128 * (line % 2 ^ 53) < p.1 + p.2)
  (s.lines.filter fun l => decide (lineSpace l.1 = x) && inside l.1).map Prod.fst

/-- R241, R256, R436: before a proof the reduction lines of proofed pages are merged and their dirty lines reach DRAM. -/
def State.cleanProofed (s : State) (x : Nat) : State :=
  let ls := s.proofLines x
  let s := ls.foldl (fun s l => if (s.line l).red.isSome then s.mergeInTurn l else s) s
  ls.foldl (fun s l => s.modLine l fun h => { h with dirty := false }) s

/-- What proof `n` of chip `x` adds to what its buddy holds; the buddy keeps it and the one before. -/
def State.mirror (s : State) (x b n : Nat) : State :=
  let ls := (s.proofLines x).filter fun l => (s.line l).touched
  let old := (((s.chip b).proofs.filter fun p => decide (p.home = x) && decide (p.num + 1 = n)).head?).getD { home := x }
  let undos := ((s.chip x).gridUndo.filter fun u => decide (u.2.2.2 = n)).map fun u => (u.1, u.2.1, u.2.2.1)
  let new : ProofCopy :=
    { home := x, num := n, lines := ls.foldl (fun t l => tabPut t l (s.committed l)) old.lines, undos := old.undos ++ undos }
  let s := ls.foldl (fun s l => s.modLine l fun h => { h with touched := false }) s
  s.modChip b fun c => { c with proofs := (c.proofs.filter fun p => decide (p.home ≠ x) || decide (p.num + 1 = n)) ++ [new] }

/-- PROOF (R436, R438): at P_n the chip mirrors to its buddy and logs the proof; the buddy's acknowledgement completes it. A chip
without a buddy takes no proof (log 27: DESIGN CHOICE). -/
def execProof (s : State) : Host.Outcome State Fault Refusal :=
  let x := s.cue.chip
  let n := s.cue.num
  let c := s.chip x
  let up := fun (y : Nat) => decide ((s.chip y).power = .full) && !(s.chip y).fenced
  if c.fenced ∨ c.power ≠ .full then .next s
  else if s.cue.unit = 1 then
    .next (match s.buddy x with
      | some b => if up b then s.modChip x fun c => { c with proofDone := c.proofDone ++ [(n, s.podTime x)] } else s
      | none => s)
  else if s.podTime x < s.proofTime n then .next (s.sendOnce .proof s.cue)
  else
    let s := (s.sendOnce .proof { chip := x, num := n + 1 }).cleanProofed x
    let s := (c.saves.map Prod.fst).foldl (fun s ctx => s.orderLog x ctx (logRecord 4 0 (leBytes 8 n) (0, 0))) s
    match s.buddy x with
    | none => .next s
    | some b =>
      .next (((if up b then s.mirror x b n else s).sendOnce .proof { chip := x, num := n, unit := 1 }).sendOnce .proofDeadline { chip := x, num := n })

/-- PROOF_DEADLINE (R373, R436): a proof that is incomplete T × 500,000 ns after its time fences the chip. -/
def execProofDeadline (s : State) : Host.Outcome State Fault Refusal :=
  let x := s.cue.chip
  let n := s.cue.num
  let c := s.chip x
  if c.fenced ∨ c.power ≠ .full ∨ c.proofDone.any fun d => decide (d.1 = n) then .next s
  else if s.podTime x < s.proofTime n + s.cfg.t * 500000 then .next (s.sendOnce .proofDeadline s.cue)
  else .next (s.fenceChip x)

end Sys2Proof.Machine
end

