-- ==== Sys2Proof/Machine/HostPort.lean ====
section
/-! DEFINITION. The CXL port: host accesses to device memory, the command ring, keys and attestation (16 R421 to R427). -/

namespace Sys2Proof.Machine

/-! ## The command ring (R423, R424) -/

/-- The memory key of a command record. -/
def State.recordKey (s : State) (x n : Nat) : Nat := hostKey x ((s.chip x).ringBase + 128 * n)

/-- A command record. -/
def State.record (s : State) (x n : Nat) : List Byte := s.bytesAt (s.recordKey x n) 128

/-- The step that carries out an OP. -/
def commandOf (op : Nat) : Instr :=
  match op with
  | 1 => .hostSubmit
  | 2 => .invalidate
  | 3 => .preEmpt
  | 4 => .saveArea
  | 5 => .errorLog
  | 6 => .attest
  | 7 => .keyPage
  | 8 => .contextCreate
  | 9 => .homeMap
  | 10 => .agree
  | _ => .unknownCommand

/-- The same, told apart by KIND, ACTION and V. -/
def commandStep (l : List Byte) : Instr :=
  match fieldAt l 0 1 with
  | 7 => if fieldAt l 8 1 = 1 then .keyLinkSend else if fieldAt l 8 1 = 2 then .keyLinkReceive else .keyPage
  | 8 => if fieldAt l 10 1 = 1 then .contextDestroy else .contextCreate
  | 9 => if fieldAt l 14 1 = 0 then .homeUnmap else .homeMap
  | op => commandOf op

/-- The next record of the ring is taken. -/
def State.nextCommand (s : State) (x : Nat) : State :=
  let c := s.chip x
  if c.ringTodo = 0 then s else s.sendOnce (commandStep (s.record x c.ringNext)) { chip := x, num := c.ringNext }

/-- STATUS, VALUE and TDONE are written, DONE last (R423). -/
def State.answer (s : State) (x n status value : Nat) : State :=
  let k := s.recordKey x n
  (s.hubWrite (k + 100) (leBytes 4 value ++ leBytes 8 (s.podTime x))).hubWrite (k + 96) (leBytes 4 (2 ^ 31 + status % 256))

/-- The ring moves past its first record. -/
def State.advanceRing (s : State) (x : Nat) : State :=
  (s.modChip x fun c => { c with ringNext := (c.ringNext + 1) % max 1 c.ringSize, ringTodo := c.ringTodo - 1 }).nextCommand x

/-- A command completes. -/
def State.finishCommand (s : State) (x n status value : Nat) : State := (s.answer x n status value).advanceRing x

/-- Reserved and unused bytes of a record that are not zero: those of 1 to 7, 8 to 95 outside the ranges used, and 112 to 127. -/
def recordBad (l : List Byte) (used : List (Nat × Nat)) : Bool :=
  (List.range 128).any fun i => decide (l.getD i 0 ≠ 0) &&
    ((decide (1 ≤ i) && decide (i < 8)) || decide (112 ≤ i) ||
      (decide (8 ≤ i) && decide (i < 96) && !used.any fun u => decide (u.1 ≤ i) && decide (i < u.1 + u.2)))

/-- A command of the ring: nothing unless it is the first record not yet taken; status 5 where its operands are malformed. -/
def State.command (s : State) (used : List (Nat × Nat)) (bad : List Byte → Bool) (run : Nat → Nat → List Byte → State) : State :=
  let x := s.cue.chip
  let n := s.cue.num
  let c := s.chip x
  if c.ringTodo = 0 ∨ c.ringNext ≠ n ∨ c.power = .off ∨ c.fenced then s
  else
    let l := s.record x n
    if recordBad l used || bad l then s.finishCommand x n 5 0 else run x n l

/-- Whether a context exists on a chip. -/
def State.hasContext (s : State) (x ctx : Nat) : Bool := (s.chip x).contexts.contains ctx

/-- A range of device memory that a chip has (R237). -/
def deviceRange (pa len : Nat) : Bool := paOk pa && (decide (len = 0) || paOk (pa + len - 1))

/-- REGISTER_WRITE (R423): register 0 is the ring's base, 1 its size, 2 the doorbell. A base that is not aligned and a size out of
range are not taken (log 28: DESIGN CHOICE). -/
def execRegisterWrite (s : State) : Host.Outcome State Fault Refusal :=
  let x := s.cue.chip
  let v := s.cue.num
  let c := s.chip x
  if c.power = .off then .next s
  else match s.cue.unit with
  | 0 => .next (if v % 4096 = 0 then s.setChip x { c with ringBase := v, ringNext := 0, ringTodo := 0 } else s)
  | 1 => .next (if [16, 32, 64, 128, 256, 512, 1024, 2048, 4096].contains v then
      s.setChip x { c with ringSize := v, ringNext := 0, ringTodo := 0 } else s)
  | 2 =>
    if c.ringSize ≤ v then .next s
    else
      let more := (v + c.ringSize - c.ringNext) % c.ringSize + 1
      .next ((s.setChip x { c with doorbell := v, ringTodo := more }).nextCommand x)
  | _ => .next s

/-- UNKNOWN_COMMAND (R423): code 0xFF and no effect. -/
def execUnknownCommand (s : State) : Host.Outcome State Fault Refusal :=
  let x := s.cue.chip
  let c := s.chip x
  .next (if c.ringTodo = 0 ∨ c.ringNext ≠ s.cue.num ∨ c.power = .off ∨ c.fenced then s else s.finishCommand x s.cue.num 0xFF 0)

/-! ## Submit (R378, R420, R423) -/

/-- The end of a host submission, of the ring's first record or of one that was held. -/
def State.endSubmit (s : State) (x n status value : Nat) (held : Bool) : State :=
  if held then s.answer x n status value else s.finishCommand x n status value

/-- A submission read and checked: a read that fails refuses with the code of the structure read (R423). -/
def State.submitRecord (s : State) (x n : Nat) (l : List Byte) (held : Bool) : State :=
  let ctx := fieldAt l 16 2
  if !s.hasContext x ctx then s.endSubmit x n 6 0 held
  else if !(s.chip x).room then s.sendOnce .hostSubmit { chip := x, num := n, ok := !held }
  else
    let a : Access := { id := s.fresh }
    match s.counted.pull x ctx a (fieldAt l 8 8) 128 with
    | (s, none) => s.endSubmit x n 1 1 held
    | (s, some r) =>
      match s.judge x a (some ctx) false r with
      | (s, .refused code c crec) => (s.refusal x c crec code).endSubmit x n 1 code held
      | (s, .unread) => (s.refusal x ctx (fieldAt r 56 8) 2).endSubmit x n 1 2 held
      | (s, .accepted c image g) => (s.postSubmit x c 1 image g).endSubmit x n 0 0 held

/-- HOST_SUBMIT: while the chip is Joining a submission is held, and the ring goes on (R420, R424). A held one, sent again when full
service begins, carries `ok` false in the cue. -/
def execHostSubmit (s : State) : Host.Outcome State Fault Refusal :=
  let x := s.cue.chip
  let n := s.cue.num
  let c := s.chip x
  if !s.cue.ok then
    .next (if c.power = .off ∨ c.fenced then s else s.submitRecord x n (s.record x n) true)
  else
    .next (s.command [(8, 8), (16, 2)] (fun l => decide (fieldAt l 8 8 % 128 ≠ 0) || decide (fieldAt l 16 2 = 0)) fun x n l =>
      if c.power = .joining then (s.modChip x fun c => { c with heldSubmits := c.heldSubmits ++ [n] }).advanceRing x
      else s.submitRecord x n l false)

/-! ## Contexts, homes, translations (R236, R240, R343, R423) -/

/-- CONTEXT_CREATE: a context with no remap or PTROOT entries; one that exists stays as it is. -/
def execContextCreate (s : State) : Host.Outcome State Fault Refusal :=
  .next (s.command [(8, 2), (10, 1)] (fun l => decide (fieldAt l 8 2 = 0) || decide (1 < fieldAt l 10 1)) fun x n l =>
    let ctx := fieldAt l 8 2
    if s.hasContext x ctx then s.finishCommand x n 0 0
    else if 1024 ≤ (s.chip x).contexts.length then s.finishCommand x n 8 0
    else (s.modChip x fun c => { c with contexts := c.contexts ++ [ctx] }).finishCommand x n 0 0)

/-- A context that has a grid running on a chip. -/
def State.busyContext (s : State) (x ctx : Nat) : Bool :=
  (tabVals s.blocks).any fun b => decide (b.chip = x) && decide (b.ctx = ctx) && b.open_

/-- CONTEXT_DESTROY: the context goes with all its entries. -/
def execContextDestroy (s : State) : Host.Outcome State Fault Refusal :=
  .next (s.command [(8, 2), (10, 1)] (fun l => decide (fieldAt l 8 2 = 0)) fun x n l =>
    let ctx := fieldAt l 8 2
    if !s.hasContext x ctx then s.finishCommand x n 6 0
    else if s.busyContext x ctx then s.finishCommand x n 7 0
    else
      (s.modChip x fun c => { c with
        contexts := c.contexts.filter (· ≠ ctx)
        remap := c.remap.filter fun r => decide (r.1 ≠ ctx)
        ptroot := c.ptroot.filter fun r => decide (r.1 ≠ ctx)
        coreRemap := c.coreRemap.filter fun r => decide (r.1 ≠ ctx)
        routeRemap := c.routeRemap.filter fun r => decide (r.1 ≠ ctx)
        saves := c.saves.filter fun r => decide (r.1 ≠ ctx)
        tlb := c.tlb.filter fun e => decide (e.ctx ≠ ctx)
        pageKeys := c.pageKeys.filter fun k => decide (k.1 ≠ ctx) }).finishCommand x n 0 0)

/-- The operands of Home that are malformed. -/
def homeBad (l : List Byte) : Bool :=
  decide (fieldAt l 8 2 = 0) || decide (4095 < fieldAt l 10 2) || decide (511 < fieldAt l 12 2) || decide (1 < fieldAt l 14 1)
    || decide (fieldAt l 16 8 % 4096 ≠ 0) || !deviceRange (fieldAt l 16 8) 4096

/-- The remap and PTROOT entries of a context and home, without them. -/
def Chip.unmapped (c : Chip) (ctx home : Nat) (own : Bool) : Chip :=
  { c with
    remap := c.remap.filter fun r => decide (r.1 ≠ ctx) || decide (r.2.1 ≠ home)
    ptroot := if own then c.ptroot.filter fun r => decide (r.1 ≠ ctx) || decide (r.2.1 ≠ home) else c.ptroot }

/-- HOME_MAP: the remap entry, and on the home's own chip the PTROOT entry. -/
def execHomeMap (s : State) : Host.Outcome State Fault Refusal :=
  .next (s.command [(8, 2), (10, 2), (12, 2), (14, 1), (16, 8)] homeBad fun x n l =>
    let ctx := fieldAt l 8 2
    let home := fieldAt l 10 2
    let own := decide (fieldAt l 12 2 = x)
    if !s.hasContext x ctx then s.finishCommand x n 6 0
    else
      let c := (s.chip x).unmapped ctx home own
      if own && decide (16384 ≤ c.ptroot.length) then s.finishCommand x n 8 0
      else
        (s.setChip x { c with
          remap := c.remap ++ [(ctx, home, fieldAt l 12 2)]
          ptroot := if own then c.ptroot ++ [(ctx, home, fieldAt l 16 8)] else c.ptroot }).finishCommand x n 0 0)

/-- HOME_UNMAP. -/
def execHomeUnmap (s : State) : Host.Outcome State Fault Refusal :=
  .next (s.command [(8, 2), (10, 2), (12, 2), (14, 1), (16, 8)] homeBad fun x n l =>
    let ctx := fieldAt l 8 2
    if !s.hasContext x ctx then s.finishCommand x n 6 0
    else (s.setChip x ((s.chip x).unmapped ctx (fieldAt l 10 2) (decide (fieldAt l 12 2 = x)))).finishCommand x n 0 0)

/-- INVALIDATE (R240, R424): every live chip, and one that is rejoining, drops the matching translations. -/
def execInvalidate (s : State) : Host.Outcome State Fault Refusal :=
  let bad := fun (l : List Byte) => decide (fieldAt l 8 2 = 0) || decide (4095 < fieldAt l 10 2) || decide (fieldAt l 16 8 % 65536 ≠ 0)
    || decide (2 ^ 48 < fieldAt l 16 8 + 65536 * fieldAt l 24 8)
  .next (s.command [(8, 2), (10, 2), (16, 8), (24, 8)] bad fun x n l =>
    let ctx := fieldAt l 8 2
    let home := fieldAt l 10 2
    let lo := fieldAt l 16 8
    let hi := lo + 65536 * fieldAt l 24 8
    if !s.hasContext x ctx then s.finishCommand x n 6 0
    else
      let hit := fun (e : TlbEntry) => decide (e.ctx = ctx) && decide (e.home = home) && decide (e.base < hi) && decide (lo < e.base + e.size)
      { s with chips := s.chips.map fun (p : Nat × Chip) => (p.1, { p.2 with tlb := p.2.tlb.filter fun e => !hit e }) }.finishCommand x n 0 0)

/-! ## Save areas, pre-emption, the error log (R403, R405 to R407, R423, R424) -/

/-- SAVE_AREA. -/
def execSaveArea (s : State) : Host.Outcome State Fault Refusal :=
  let bad := fun (l : List Byte) => decide (fieldAt l 8 2 = 0) || decide (fieldAt l 16 8 % 4096 ≠ 0) || decide (fieldAt l 24 8 % 4096 ≠ 0)
    || decide (fieldAt l 24 8 < 8192) || !deviceRange (fieldAt l 16 8) (fieldAt l 24 8)
  .next (s.command [(8, 2), (16, 8), (24, 8)] bad fun x n l =>
    let ctx := fieldAt l 8 2
    if !s.hasContext x ctx then s.finishCommand x n 6 0
    else (s.modChip x fun c => { c with
      saves := (c.saves.filter fun r => decide (r.1 ≠ ctx)) ++ [(ctx, fieldAt l 16 8, fieldAt l 24 8)] }).finishCommand x n 0 0)

/-- The resident warps of a context on a chip. -/
def State.contextWarps (s : State) (x ctx : Nat) : List (Nat × Warp) :=
  s.warps.filter fun p => p.2.resident && decide (p.2.live ≠ 0) &&
    ((s.block? p.2.node).map fun b => decide (b.chip = x) && decide (b.ctx = ctx) && decide (b.st = .running)).getD false

/-- PRE_EMPT (R405, R424): every warp of the context leaves; the command completes when the last has. -/
def execPreEmpt (s : State) : Host.Outcome State Fault Refusal :=
  .next (s.command [(8, 2)] (fun l => decide (fieldAt l 8 2 = 0)) fun x n l =>
    let ctx := fieldAt l 8 2
    if !s.hasContext x ctx then s.finishCommand x n 6 0
    else match (s.chip x).preempt with
      | none =>
        let ws := s.contextWarps x ctx
        if ws.isEmpty then s.finishCommand x n 0 0
        else if !s.saveRoom x ctx (ws.map fun p => p.2.rows.length) then s.finishCommand x n 2 0
        else
          let s := s.modChip x fun c => { c with preempt := some (ws.map fun p => (p.1, p.2.resumes)) }
          let s := ((ws.map fun p => p.2.node).eraseDups).foldl (fun s k => s.modBlock k fun b => { b with leaving := true }) s
          (ws.foldl (fun s p => s.sendOnce .eviction { warp := p.1 }) s).sendOnce .preEmpt { chip := x, num := n }
      | some l =>
        let left := fun (k : Nat × Nat) => match s.warp? k.1 with
          | some w => decide (w.live ≠ 0) && (!w.resident || decide (w.resumes ≠ k.2))
          | none => false
        let stays := l.any fun k => match s.warp? k.1 with
          | some w => decide (w.live ≠ 0) && w.resident && decide (w.resumes = k.2)
          | none => false
        if stays then s.sendOnce .preEmpt { chip := x, num := n }
        else (s.modChip x fun c => { c with preempt := none }).finishCommand x n 0 (l.countP left))

/-- ERROR_LOG: the oldest entries go to the host's buffer and leave the log. -/
def execErrorLog (s : State) : Host.Outcome State Fault Refusal :=
  .next (s.command [(8, 8), (16, 4)] (fun l => decide (fieldAt l 8 8 % 16 ≠ 0)) fun x n l =>
    let es := (s.chip x).errlog.take (fieldAt l 16 4)
    let s := s.hubWrite (hostKey x (fieldAt l 8 8)) (es.flatMap fun e => leBytes 8 e.1.toNat ++ leBytes 8 e.2)
    (s.modChip x fun c => { c with errlog := c.errlog.drop es.length }).finishCommand x n 0 es.length)

/-! ## Identity and keys (R426, R427) -/

/-- CHIPID (R327). -/
def Chip.chipId (c : Chip) : Nat := c.num % 512 * 2 ^ 12 + c.group % 128 * 2 ^ 5 + c.pos % 32

/-- ATTEST (R426): the report, signed over its bytes 0 to 191. -/
def execAttest (s : State) : Host.Outcome State Fault Refusal :=
  .next (s.command [(8, 32), (40, 8)] (fun l => decide (fieldAt l 40 8 % 64 ≠ 0)) fun x n l =>
    let c := s.chip x
    let body := (l.drop 8).take 32 ++ leBytes 64 c.fwDigest.toNat ++ leBytes 64 c.repairDigest.toNat ++ leBytes 4 c.chipId ++ leBytes 4 c.inc
      ++ leBytes 8 (s.podTime x) ++ List.replicate 16 0
    (s.hubWrite (hostKey x (fieldAt l 40 8)) (body ++ leBytes 64 (Config.ed25519Sign x body).toNat)).finishCommand x n 0 0)

/-- AGREE (R427): a fresh key pair, its public half signed with the host's and CHIPID, and the wrapping key. -/
def execAgree (s : State) : Host.Outcome State Fault Refusal :=
  .next (s.command [(8, 32), (40, 8)] (fun l => decide (fieldAt l 40 8 % 64 ≠ 0)) fun x n l =>
    let c := s.chip x
    let host := (l.drop 8).take 32
    let mine := leBytes 32 (Config.x25519Public s.fresh).toNat
    let sig := leBytes 64 (Config.ed25519Sign x (host ++ mine ++ leBytes 4 c.chipId)).toNat
    let key := Config.wrapKey s.fresh (BitVec.ofNat 256 (leNat host)) c.chipId
    let s := s.counted.modChip x fun c => { c with wrapKey := some key }
    (s.hubWrite (hostKey x (fieldAt l 40 8)) (mine ++ sig ++ List.replicate 32 0)).finishCommand x n 0 0)

/-- The key of a Key command, unwrapped; none where no wrapping key has been agreed or the key fails to unwrap. -/
def State.unwrap (s : State) (x : Nat) (l : List Byte) : Option (BitVec 256) :=
  (s.chip x).wrapKey.bind fun k => Config.aesUnwrap k ((l.drop 16).take 40)

/-- The bytes that Key uses. -/
def keyUsed : List (Nat × Nat) := [(8, 1), (9, 1), (10, 2), (12, 4), (16, 40)]

/-- KEY_PAGE (R263, R427): a page key of a context. -/
def execKeyPage (s : State) : Host.Outcome State Fault Refusal :=
  .next (s.command keyUsed (fun l => decide (fieldAt l 8 1 ≠ 0) || decide (fieldAt l 9 1 ≠ 0) || decide (fieldAt l 10 2 = 0)) fun x n l =>
    let ctx := fieldAt l 10 2
    if !s.hasContext x ctx then s.finishCommand x n 6 0
    else match s.unwrap x l with
      | none => s.finishCommand x n 3 0
      | some k => (s.modChip x fun c => { c with
          pageKeys := (c.pageKeys.filter fun y => decide (y.1 ≠ ctx)) ++ [(ctx, fieldAt l 12 4, k)] }).finishCommand x n 0 0)

/-- A link number: 0 to 30 electrical, 32 to 95 optical. -/
def linkOk (k : Nat) : Bool := decide (k ≤ 30) || (decide (32 ≤ k) && decide (k ≤ 95))

/-- Whether a slot still serves (R336): the one in use, and both while a switch is under way. -/
def DirKeys.liveSlot (d : DirKeys) (i : Nat) : Bool := (d.slot i).isSome && (decide (d.cur = i) || d.switch.isSome || d.old)

/-- A link key loaded into a slot (R336, R427). -/
def State.keyLink (s : State) (rx : Bool) : State :=
  s.command keyUsed (fun l => decide (1 < fieldAt l 9 1) || !linkOk (fieldAt l 10 2)) fun x n l =>
    match s.unwrap x l with
    | none => s.finishCommand x n 3 0
    | some k =>
      let e := fieldAt l 10 2
      let i := fieldAt l 9 1
      let link := (tabLook (s.chip x).links e).getD {}
      let d := if rx then link.rx else link.tx
      if d.liveSlot i then s.finishCommand x n 4 0
      else
        let d := d.setSlot i (some { id := fieldAt l 12 4, key := k })
        (s.modChip x fun c => { c with links := tabPut c.links e (if rx then { link with rx := d } else { link with tx := d }) }).finishCommand x n 0 0

/-- KEY_LINK_SEND. -/
def execKeyLinkSend (s : State) : Host.Outcome State Fault Refusal := .next (s.keyLink false)

/-- KEY_LINK_RECEIVE. -/
def execKeyLinkReceive (s : State) : Host.Outcome State Fault Refusal := .next (s.keyLink true)

/-! ## Device memory as the host sees it (R421, R422) -/

/-- An answer to the host. -/
def State.tellHost (s : State) (x tag : Nat) (l : List Byte) : State := s.modChip x fun c => { c with toHost := c.toHost ++ [(tag, l)] }

/-- HOST_HDM_ACCESS (R256, R271, R282, R422): a host write is performed at the line's home, unstaged, and completes at CT + 25 ns; a
host read waits until no undo copy of the line is left, and leaves the host with a copy. The bytes lie in one line. -/
def execHostHdmAccess (s : State) : Host.Outcome State Fault Refusal :=
  let c := s.cue
  let x := c.chip
  let key := devKey x c.num
  let line := key / 128
  if (s.chip x).power = .off ∨ (s.chip x).fenced ∨ !paOk c.num then .next s
  else match c.wr with
    | some l =>
      if (s.line line).sync.isSome then .next (s.send .hostHdmAccess c)
      else
        let l := l.take (128 - key % 128)
        let s := ((s.mergeLine line).examine line).touch line
        let ct := s.writeCt line 0
        .next ((s.hubPut key l).send .hostWriteCompletion { chip := x, tag := c.tag, ct := ct + 25 })
    | none =>
      let s := s.mergeInTurn line
      if !(s.line line).undo.isEmpty then .next (s.send .hostHdmAccess c)
      else
        let l := s.bytesAt key (min c.ct (128 - key % 128))
        .next ((((s.examine line).touch line).modLine line fun h => { h with hostHeld := true }).tellHost x c.tag l)

/-- HOST_WRITE_COMPLETION (R422): the completion reaches the host once pod time is CT + 25 ns. -/
def execHostWriteCompletion (s : State) : Host.Outcome State Fault Refusal :=
  let c := s.cue
  .next (if s.podTime c.chip < c.ct then s.send .hostWriteCompletion c else s.tellHost c.chip c.tag [])

/-- HOST_SNOOP (R421): no device copy is modified; the answer is immediate and no lease is cut short. -/
def execHostSnoop (s : State) : Host.Outcome State Fault Refusal := .next (s.tellHost s.cue.chip s.cue.line [])

end Sys2Proof.Machine
end

