-- ==== Sys2Proof/Machine/Fabric.lean ====
section
/-! DEFINITION. Links and the pod fabric (12 R327 to R339): topology, lanes, flits, link-level retry, link keys, pod time,
resends and reservations. -/

namespace Sys2Proof.Machine

/-! ## Receiving (R335, R336) -/

/-- What checking an arriving flit finds (R335, R336): the link with its counters moved on, and the flit as decrypted where it
passes. The old slot serves up to the sequence that a key marker named, and the new one from it, which retires the old key. -/
def Link.check (l : Link) (f : Flit) : Link × Option Flit :=
  let rx := l.rx
  let i := flitSlot f
  let atSwitch := decide (rx.switch = some l.expect)
  let ordered := decide (flitType f = 0) || decide (flitType f = 4) || decide (flitType f = 5)
  if !flitCrcOk f then ({ l with rx := rx.counted rx.cur }, none)
  else if (rx.slot rx.cur).isNone then (l, some f)
  else
    let allowed := if i = rx.cur then !(atSwitch && ordered) else atSwitch
    match allowed, rx.slot i with
    | true, some k =>
      let rx := rx.counted i
      let rx := if i = rx.cur then rx else { rx.setSlot rx.cur none with cur := i, switch := none }
      if k.verifies f then ({ l with rx := rx, authFails := 0 }, some (k.open_ f))
      else ({ l with rx := l.rx.counted i, authFails := l.authFails + 1 }, none)
    | _, _ => ({ l with rx := rx.counted rx.cur, authFails := l.authFails + 1 }, none)

/-- A flit arrives at the cue's link: the CRC is checked first, the tag second; one that fails is answered by a negative
acknowledgement that names its sequence, and is counted in the error log (R335, R403). -/
def State.receive (s : State) (type : Nat) (body : Nat → Nat → Flit → State → State) : State :=
  let x := s.cue.chip
  let e := s.cue.link
  let l := s.linkOf x e
  if l.st ≠ .up ∨ !linkOk e ∨ (s.chip x).power = .off then s
  else
    match l.check s.cue.flit with
    | (l, none) =>
      let s := s.setLink x e l
      let s := s.modChip x fun c => { c with errlog := c.errlog ++ [(syndrome 1 4 0 0 0 e 0 0, s.podTime x)] }
      s.sendAside x e 3 (flitSeq s.cue.flit) []
    | (l, some f) =>
      let s := s.setLink x e l
      if (flitType f) = type then body x e f s else s

/-- A flit with a sequence is taken when it is the one expected, and acknowledged. An earlier one comes again and is only
acknowledged; a later one waits for its replay. -/
def State.sequenced (s : State) (x e : Nat) (f : Flit) (take : State → State) : State :=
  let l := s.linkOf x e
  if (flitSeq f) = l.expect then
    let l := { l.rxMapAt l.expect with expect := (l.expect + 1) % 4096 }
    (take (s.setLink x e l)).sendAside x e 2 (flitSeq f) []
  else if (l.expect + 4096 - (flitSeq f)) % 4096 ≤ 2048 then s.sendAside x e 2 (flitSeq f) []
  else s

/-- Header fields of a packet (R332). -/
def packetField (l : List Byte) (off n : Nat) : Nat := leNat ((l.drop off).take n)

/-- The packets that a stream of packet bytes holds whole, and what is left; zeros alone are no packet (log 31: DESIGN CHOICE). -/
def packetsOf : Nat → List Byte → List (List Byte) × List Byte
  | 0, l => ([], l)
  | n + 1, l =>
    let size := 32 + packetField l 10 2
    if l.all fun b => decide (b = 0) then ([], [])
    else if 32 ≤ l.length ∧ size ≤ l.length then
      let r := packetsOf n (l.drop size)
      (l.take size :: r.1, r.2)
    else ([], l)

/-- The chip at a fabric address in a packet's header. -/
def State.chipOfAddress (s : State) (n : Nat) : Option Nat := s.chipAt (n / 32 % 128) (n % 32)

/-- A packet has come whole (R330, R332). At its destination the message of its TYPE, SRC and TAG is due, with the incarnations and the
time of injection that the header holds; an event's, at its last packet. At any other chip the packet goes on. -/
def State.packetCame (s : State) (x : Nat) (p : List Byte) : State :=
  let tag := packetField p 12 4
  let mine := fun (d : Due) => d.held && decide (d.cue.tag % 2 ^ 32 = tag) && decide (packetType d.ev = packetField p 0 1) &&
    decide (d.cue.tag ≠ 0)
  let free := fun (s : State) => { s with agenda := s.agenda.map fun d => if mine d then { d with held := false } else d }
  if packetField p 4 2 = (s.chip x).fabric then
    if packetField p 0 1 = 8 ∧ packetField p 16 8 ≠ 0 ∧ 64 < packetField p 10 2 then s
    else { s with agenda := s.agenda.map fun d => if mine d then { d with
        held := false, wait := 0
        cue := { d.cue with acc := { d.cue.acc with
          sinc := packetField p 6 1, dinc := packetField p 7 1, inj := packetField p 24 8 } } } else d }
  else match s.chipOfAddress (packetField p 2 2), s.chipOfAddress (packetField p 4 2) with
    | some src, some dst => match s.hop x src dst tag with
      | some e => s.sendPacket x e (packetField p 1 1 % 16) tag p
      | none => free s
    | _, _ => free s

/-- DATA_FLIT (R332, R335). -/
def execDataFlit (s : State) : Host.Outcome State Fault Refusal :=
  .next (s.receive 0 fun x e f s => s.sequenced x e f fun s =>
    let l := s.linkOf x e
    let r := packetsOf 16 (l.body ++ (flitBody f))
    r.1.foldl (fun s p => s.packetCame x p) (s.setLink x e { l with body := r.2 }))

/-- IDLE_FLIT (R332): it carries nothing. -/
def execIdleFlit (s : State) : Host.Outcome State Fault Refusal := .next (s.receive 1 fun _ _ _ s => s)

/-- The flits of a retry buffer from the one with a sequence on. -/
def fromSeq (sq : Nat) : List Flit → List Flit
  | [] => []
  | f :: r => if (flitSeq f) = sq then f :: r else fromSeq sq r

/-- ACKNOWLEDGE_FLIT (R335): the named flit and those before it leave the retry buffer. -/
def execAcknowledgeFlit (s : State) : Host.Outcome State Fault Refusal :=
  .next (s.receive 2 fun x e f s =>
    let l := s.linkOf x e
    if l.retry.any fun y => decide ((flitSeq y) = (flitSeq f)) then 
      let rest := (fromSeq (flitSeq f) l.retry).drop 1
      -- a key that no flit awaiting acknowledgement was sent under is retired (R336)
      let retire := l.tx.old && !rest.any fun y => decide (flitSlot y ≠ l.tx.cur)
      (s.setLink x e { l with
        retry := rest, fails := 0
        tx := if retire then { l.tx.setSlot (1 - l.tx.cur) none with old := false } else l.tx }).pump x e
    else s)

/-- NEGATIVE_ACKNOWLEDGE_FLIT (R335): the named flit and every later one are replayed; after 8 failed replays the link is
retrained as a whole. -/
def execNegativeAcknowledgeFlit (s : State) : Host.Outcome State Fault Refusal :=
  .next (s.receive 3 fun x e f s =>
    let l := s.linkOf x e
    let again := fromSeq (flitSeq f) l.retry
    if again.isEmpty then s
    else if 8 ≤ l.fails then
      let s := s.setLink x e { l with st := .training }
      let s := match s.peerOf x e with
        | some (y, k) => s.setLink y k { s.linkOf y k with st := .training }
        | none => s
      s.sendOnce .linkRetrain { chip := x, link := e }
    else again.foldl (fun s f => s.transmit x e f) (s.setLink x e { l with fails := l.fails + 1 }))

/-- One end of a link after retraining (R335): up, with the flits of its retry buffer sent again in order; or down, its flits
dropped, and repeated failures of authentication reported to the security controller. -/
def State.retrained (s : State) (ok : Bool) (x e : Nat) : State :=
  let l := s.linkOf x e
  if ok && !l.lanes.isEmpty then l.retry.foldl (fun s f => s.transmit x e f) (s.setLink x e { l with st := .up, fails := 0, body := l.body })
  else
    let s := if l.authFails = 0 then s
      else s.modChip x fun c => { c with errlog := c.errlog ++ [(syndrome 0 4 0 0 0 e 0 0, s.podTime x)] }
    s.linkDown x e

/-- LINK_RETRAIN (R335). -/
def execLinkRetrain (s : State) : Host.Outcome State Fault Refusal :=
  let x := s.cue.chip
  let e := s.cue.link
  if !linkOk e then .next s
  else match s.peerOf x e with
    | none => .next (s.linkDown x e)
    | some (y, k) =>
      -- both ends are up before either sends
      let up := s.cue.ok
      let s1 := s.setLink x e { s.linkOf x e with st := if up then .up else .down }
      let s2 := s1.setLink y k { s1.linkOf y k with st := if up then .up else .down }
      .next ((s2.retrained up x e).retrained up y k)

/-! ## Lanes (R333, R334) -/

/-- The lanes of a link once every announced change has come. -/
def Link.lanesTo (l : Link) (e : Nat) : List Nat :=
  match (l.queue.filter fun q => decide (q.type = 4)).getLast? with
  | some q => maskLanes e (leNat q.body)
  | none => (l.newMap.map Prod.snd).getD ((l.rxMap.map Prod.snd).getD l.lanes)

/-- Both ends of a link change. -/
def State.bothEnds (s : State) (x e : Nat) (f : State → Nat → Nat → State) : State :=
  let s := f s x e
  match s.peerOf x e with
  | some (y, k) => f s y k
  | none => s

/-- A change of the lanes: a lane-map flit announces it. Without a lane the link is down; one that is without a lane trains anew with
the lane that returns (R331, R334, R335). -/
def State.announceLanes (s : State) (x e : Nat) (lanes : List Nat) : State :=
  if lanes.isEmpty then
    s.bothEnds x e fun s y k => (s.linkDown y k).setLink y k { (s.linkDown y k).linkOf y k with lanes := [], newMap := none, rxMap := none }
  else if (s.linkOf x e).lanes.isEmpty then
    (s.bothEnds x e fun s y k => s.setLink y k { s.linkOf y k with st := .training, lanes := lanes }).sendOnce .linkRetrain { chip := x, link := e }
  else s.sendFlit x e { type := 4, cls := 1, body := leBytes 2 ((lanes.map fun n => 2 ^ n).foldl (· + ·) 0) }

/-- LANE_OUT_OF_SERVICE (R334). -/
def execLaneOutOfService (s : State) : Host.Outcome State Fault Refusal :=
  let l := s.linkOf s.cue.chip s.cue.link
  .next (if linkOk s.cue.link && (l.lanesTo s.cue.link).contains s.cue.unit
    then s.announceLanes s.cue.chip s.cue.link ((l.lanesTo s.cue.link).filter fun n => decide (n ≠ s.cue.unit)) else s)

/-- LANE_RETURN (R334). -/
def execLaneReturn (s : State) : Host.Outcome State Fault Refusal :=
  let l := s.linkOf s.cue.chip s.cue.link
  .next (if linkOk s.cue.link && decide (s.cue.unit < laneCount s.cue.link) && !(l.lanesTo s.cue.link).contains s.cue.unit
    then s.announceLanes s.cue.chip s.cue.link ((List.range 16).filter fun n => decide (n = s.cue.unit) || (l.lanesTo s.cue.link).contains n) else s)

/-- LANE_MAP_FLIT (R334): this end uses the new map from the named sequence on. -/
def execLaneMapFlit (s : State) : Host.Outcome State Fault Refusal :=
  .next (s.receive 4 fun x e f s => s.sequenced x e f fun s =>
    s.setLink x e { s.linkOf x e with
      rxMap := some (leNat ((flitBody f).take 2) % 4096, maskLanes e (leNat (((flitBody f).drop 2).take 2))) })

/-! ## Link keys (R336) -/

/-- KEY_SWITCH (R336): a key marker goes out under the old slot; the sequence after it is the first under the new one. Without a
key in the other slot there is nothing to switch to. -/
def execKeySwitch (s : State) : Host.Outcome State Fault Refusal :=
  let x := s.cue.chip
  let e := s.cue.link
  let l := s.linkOf x e
  if !linkOk e ∨ l.tx.switch.isSome ∨ l.tx.old ∨ (l.queue.any fun q => decide (q.type = 5)) ∨ (l.tx.slot (1 - l.tx.cur)).isNone then .next s
  else
    .next (s.sendFlit x e { type := 5, cls := 1 })

/-- KEY_MARKER_FLIT (R336): the receiver takes the old slot up to the named sequence and the new one from it. -/
def execKeyMarkerFlit (s : State) : Host.Outcome State Fault Refusal :=
  .next (s.receive 5 fun x e f s => s.sequenced x e f fun s =>
    let l := s.linkOf x e
    s.setLink x e { l with rx := { l.rx with switch := some (leNat ((flitBody f).take 2) % 4096) } })

/-! ## Pod time (R268, R337) -/

/-- Numbers in ascending order. -/
def insertInt (x : Int) : List Int → List Int
  | [] => [x]
  | y :: r => if x ≤ y then x :: y :: r else y :: insertInt x r

/-- The median; the lower of two middle values. -/
def median (l : List Int) : Option Int :=
  let l := l.foldl (fun a x => insertInt x a) []
  l[(l.length - 1) / 2]?

/-- The measured offsets of the working neighbours. -/
def Chip.offsets (c : Chip) : List Int :=
  (c.nbr.filter fun n => decide (((tabLook c.links n.1).map Link.st) = some .up)).map Prod.snd

/-- TSKEW is set when the offset from the median passes 8 ns and cleared once it is below 4 ns; `skewSince` tells since when it has
stayed above 8 ns (R337). -/
def Chip.judgeSkew (c : Chip) (now : Nat) : Chip :=
  match median c.offsets with
  | none => c
  | some m =>
    let far := decide (8 < m.natAbs)
    { c with
      tskew := far || (c.tskew && !decide (m.natAbs < 4))
      skewSince := if far then some (c.skewSince.getD now) else none }

/-- A chip slews toward the median, by at most 100 parts per million of the time since it last did (R337): half the way, since its
neighbours slew toward it as well (log 36: DESIGN CHOICE). -/
def Chip.slewTo (c : Chip) (now : Nat) : Chip :=
  match median c.offsets with
  | none => c
  | some m =>
    let m := m / 2
    let most := (now - c.slewAt) / 10000
    if most = 0 then c
    else { c with slewAt := now, slew := if 0 ≤ m then min m most else max m (-(most : Int)) }

/-- TIME_FLIT (R337): the offset of a neighbour that has set its copy is measured. A chip that forms a pod and has not set its own
copy sets it from this; any other slews toward the median of its neighbours and judges its skew. -/
def execTimeFlit (s : State) : Host.Outcome State Fault Refusal :=
  .next (s.receive 6 fun x e f s =>
    let c := s.chip x
    let set := decide ((flitBody f).getD 8 0 ≠ 0)
    if !c.inPod ∨ !set then s
    else
      -- the delay as measured: what it was, up to the asymmetry of the measurement
      let delay : Int := ((s.now - s.cue.ct : Nat) : Int) + ((Config.asymmetry s.fresh % 7 : Nat) - 3 : Int)
      let s := s.counted
      let there : Int := (leNat ((flitBody f).take 8) : Int) + delay
      if !c.timeSet then
        s.setChip x { c with offset := there - (s.now : Int), timeSet := true, nbr := [], slewAt := there.toNat, slew := 0 }
      else
        let now := s.podTime x
        let c := ({ c with nbr := tabPut c.nbr e (there - (now : Int)) } : Chip)
        let s := s.setChip x ((c.judgeSkew now).slewTo now)
        if (s.chip x).skewSince.isSome then s.sendOnce .skewFence { chip := x } else s)

/-- TIME_FLIT_SEND (R337): every 1,000 ns each link that is up sends a time flit, with this chip's pod time and whether its copy
has been set. -/
def execTimeFlitSend (s : State) : Host.Outcome State Fault Refusal :=
  let x := s.cue.chip
  let c := s.chip x
  let now := s.podTime x
  let other := s.agenda.any fun d => decide (d.ev = .timeFlitSend) && decide (d.cue.chip = x)
  if c.power = .off ∨ other then .next s
  else if now < s.cue.ct then .next (s.send .timeFlitSend s.cue)
  else
    let up := (c.links.filter fun (l : Nat × Link) => decide (l.2.st = .up)).map Prod.fst
    let s := up.foldl (fun s e =>
      s.sendAside x e 6 (s.linkOf x e).next (leBytes 8 now ++ leBytes 1 (if c.timeSet && c.inPod then 1 else 0))) s
    .next (s.send .timeFlitSend { chip := x, ct := now + 1000 })

/-- SKEW_FENCE (R337, R373): the offset has stayed above 8 ns for 1,000,000 ns. -/
def execSkewFence (s : State) : Host.Outcome State Fault Refusal :=
  let x := s.cue.chip
  match (s.chip x).skewSince with
  | none => .next s
  | some t =>
    if (s.chip x).fenced then .next s
    else if s.podTime x < t + 1000000 then .next (s.sendOnce .skewFence { chip := x })
    else .next (s.fenceChip x)

/-! ## Resends (R335) -/

/-- Whether a message is still under way: flits that may be lost do not count. -/
def State.underWay (s : State) (tag : Nat) : Bool :=
  s.agenda.any fun d => decide (d.cue.tag = tag) && !d.held && !(decide (d.ev = .packetResend) || decide (d.ev = .dropNotice) ||
    decide (d.ev = .reservationRequest) || decide (d.ev = .reservationGrant) || decide (d.ev = .reservationWindow))

/-- A kept packet by its transaction tag. -/
def Chip.packet? (c : Chip) (tag : Nat) : Option Packet := c.packets.find? fun p => decide (p.tag = tag)

/-- A packet's fields changed. -/
def State.modPacket (s : State) (x tag : Nat) (f : Packet → Packet) : State :=
  s.modChip x fun c => { c with packets := c.packets.map fun p => if p.tag = tag then f p else p }

/-- Whether an answer to a packet's request is under way. -/
def State.answering (s : State) (p : Packet) : Bool :=
  s.agenda.any fun d => isAnswer d.ev && decide (d.cue.acc.id = p.cue.acc.id) && decide (d.cue.acc.id ≠ 0)

/-- A packet is injected again, with the incarnations and pod time of now (R335, R341): unless it is under way still, or its target has
taken it and has yet to answer. -/
def State.inject (s : State) (x : Nat) (p : Packet) (resv : Bool) : State :=
  if s.underWay p.tag ∨ (p.taken ∧ (p.answers = [] ∨ s.answering p)) then s
  else
    let s := { s with agenda := s.agenda.filter fun d => !(d.held && decide (d.cue.tag = p.tag) && decide (d.ev = p.ev)) }
    s.launch x p.dst p.ev (s.injected x p.dst p.cue) resv

/-- PACKET_RESEND (R335): a packet that has not been acknowledged after 50,000 ns is sent again; after 3 resends the link is
reported as unrecoverable to the issuing node. -/
def execPacketResend (s : State) : Host.Outcome State Fault Refusal :=
  let x := s.cue.chip
  let tag := s.cue.tag
  match (s.chip x).packet? tag with
  | none => .next s
  | some p =>
    if (s.chip x).fenced then .next s
    else if p.node ≠ 0 ∧ s.gone p.node then .next (s.forgetTag tag)
    else if s.podTime x < p.sent + 50000 ∨ (p.taken ∧ p.answers = []) then .next (s.sendOnce .packetResend { chip := x, tag := tag })
    else if p.resends < 3 then
      let s := s.modPacket x tag fun p => { p with sent := s.podTime x, resends := p.resends + 1 }
      .next ((s.inject x p false).sendOnce .packetResend { chip := x, tag := tag })
    else
      let s := s.modChip x fun c => { c with packets := c.packets.filter fun p => decide (p.tag ≠ tag) }
      .next (s.reportFault x p.cue.acc 3 (syndrome 0 4 0 0 0 0 0 0))

/-! ## Reservations (R338, R339) -/

/-- The most that one reservation names (R339): 1 MiB. -/
def reserveMost : Nat := 1048576

/-- The bulk packets of an operation that a hub still has to deliver to a chip. -/
def State.bulkOf (s : State) (x : Nat) (p : Packet) : List Packet :=
  (s.chip x).packets.filter fun q => s.bulk q.ev q.cue && decide (q.dst = p.dst) && decide (q.cue.acc.op = p.cue.acc.op) &&
    decide (q.warp = p.warp) && !q.taken

/-- Their bytes. -/
def State.bulkLeft (s : State) (x : Nat) (p : Packet) : Nat := ((s.bulkOf x p).map fun q => cueBytes q.ev q.cue).foldl (· + ·) 0

/-- A source asks the target hub for a window. -/
def State.askWindow (s : State) (x : Nat) (p : Packet) : State :=
  s.tell x p.dst p.tag .reservationRequest { chip := p.dst, peer := x, tag := p.tag, num := min p.left reserveMost }

/-- DROP_NOTICE (R338, R339): a hop has dropped a packet of speculative bulk: it waits for a window, which is asked for with the bytes
that its operation still has to deliver, unless the operation has one or has asked already. Packets of the other classes are never
dropped. -/
def execDropNotice (s : State) : Host.Outcome State Fault Refusal :=
  let x := s.cue.chip
  let r := s.letIn s.cue.peer x s.cue (s.drops s.cue.peer x s.cue.acc)
  let s := r.1
  match (s.chip x).packet? s.cue.tag with
  | none => .next s
  | some p =>
    let sent := s.agenda.any fun d => decide (d.cue.tag = p.tag) && decide (d.ev = p.ev)
    if !r.2 ∨ !s.bulk p.ev p.cue ∨ !sent ∨ p.waits ∨ p.window.isSome then .next s
    else
      let asked := (s.bulkOf x p).any fun q => q.waits
      let n := s.bulkLeft x p
      let s := { s with agenda := s.agenda.filter fun d => !(decide (d.cue.tag = p.tag) && decide (d.ev = p.ev)) }
      let s := s.modPacket x p.tag fun p => { p with waits := true, left := if asked then 0 else n }
      .next (if asked then s else s.askWindow x { p with left := n })

/-- What a chip's working links bring in, in bytes in 1,000 ns (R331): 14 and 8 bytes in 1 ns on an electrical and an optical lane. -/
def Chip.ingressRate (c : Chip) : Nat :=
  ((c.links.filter fun l => decide (l.2.st = .up)).map fun l => l.2.lanes.length * (if l.1 ≤ 30 then 14000 else 8000)).foldl (· + ·) 0

/-- The rate that a window reserves, in bytes in 1,000 ns (log 37: DESIGN CHOICE). -/
def windowRate : Nat := 100000

/-- Whether a window beside those granted keeps the reservations within 75 % of a chip's ingress: at its start, and where another
starts in it (R339). One that no other overlaps is granted at any rate. -/
def fitsWindow (rate : Nat) (granted : List (Nat × Nat)) (start len : Nat) : Bool :=
  let shared := granted.filter fun w => decide (w.1 < start + len) && decide (start < w.1 + w.2)
  shared.isEmpty || (start :: shared.map Prod.fst).all fun t =>
    decide (4 * windowRate * ((shared.filter fun w => decide (w.1 ≤ t) && decide (t < w.1 + w.2)).length + 1) ≤ 3 * rate)

/-- The earliest start of a window, `least` at the earliest: there, or at the end of one granted. -/
def earliestWindow (rate : Nat) (granted : List (Nat × Nat)) (least len : Nat) : Nat :=
  let starts := sortBy (fun (n : Nat) => [n]) (least :: (granted.map fun w => w.1 + w.2).filter fun n => decide (least < n))
  (starts.find? fun t => fitsWindow rate granted t len).getD least

/-- RESERVATION_REQUEST (R339): the target grants the earliest window, 2,000 ns ahead at least and 100,000 ns long at most, that keeps its
reservations within 75 % of its ingress. -/
def execReservationRequest (s : State) : Host.Outcome State Fault Refusal :=
  let y := s.cue.chip
  let r := s.letIn s.cue.peer y s.cue (s.drops s.cue.peer y s.cue.acc)
  let s := r.1
  if !r.2 then .next s
  else
    let now := s.podTime y
    let later := (s.chip y).ingress.filter fun w => decide (now < w.1 + w.2)
    let len := min 100000 (s.cue.num / 100 + 1)
    let start := earliestWindow (s.chip y).ingressRate later (now + 2000) len
    .next ((s.modChip y fun c => { c with ingress := later ++ [(start, len)] }).tell y s.cue.peer s.cue.tag .reservationGrant
      { chip := s.cue.peer, peer := y, tag := s.cue.tag, ct := start, num := len })

/-- RESERVATION_GRANT (R339): the source keeps the window. -/
def execReservationGrant (s : State) : Host.Outcome State Fault Refusal :=
  let x := s.cue.chip
  let r := s.letIn s.cue.peer x s.cue (s.drops s.cue.peer x s.cue.acc)
  let s := r.1
  match (s.chip x).packet? s.cue.tag with
  | none => .next s
  | some _ =>
    if !r.2 then .next s
    else .next ((s.modPacket x s.cue.tag fun p => { p with window := some (s.cue.ct, s.cue.num) }).sendOnce .reservationWindow
      { chip := x, tag := s.cue.tag })

/-- The first packets of a list, up to a number of bytes. -/
def firstBytes : Nat → List Packet → List Packet
  | _, [] => []
  | n, p :: r => if cueBytes p.ev p.cue ≤ n then p :: firstBytes (n - cueBytes p.ev p.cue) r else []

/-- RESERVATION_WINDOW (R339): in the window the operation's dropped packets, up to the bytes asked for, go again as reserved bulk; at its
end those not sent go again as speculative bulk. What a reservation does not cover takes another. -/
def execReservationWindow (s : State) : Host.Outcome State Fault Refusal :=
  let x := s.cue.chip
  match (s.chip x).packet? s.cue.tag with
  | none => .next s
  | some p => match p.window with
    | none => .next s
    | some (start, len) =>
      if s.podTime x < start then .next (s.sendOnce .reservationWindow { chip := x, tag := p.tag })
      else
        let inside := decide (s.podTime x < start + len)
        let rest := p.left - reserveMost
        let dropped := p :: (s.bulkOf x p).filter fun q => q.waits && decide (q.tag ≠ p.tag)
        let go := if rest = 0 then dropped else firstBytes reserveMost (dropped.drop 1)
        let s := go.foldl (fun (s : State) q => (s.modPacket x q.tag fun q => { q with waits := false }).inject x q inside) s
        let s := s.modPacket x p.tag fun p => { p with window := none, left := rest }
        .next (if rest = 0 then s else s.askWindow x { p with left := rest })

end Sys2Proof.Machine
end

