-- ==== Sys2Proof/Machine/Predicates.lean ====
section
/-! DEFINITION. Predicates, votes, compares and select, majors 0x10 to 0x17 (03 R87 to R94). -/

namespace Sys2Proof.Machine

/-- The frame's description of a predicate word: it produces no latch but may read latches. -/
def pInfo (op f7 : Nat) (g : BitVec 4) (srcs : List Code) (rsv : Bool) : OpInfo :=
  { op := op, f7 := f7, g := g, srcs := srcs, rsv := rsv }

/-- Reserved bits of a predicate destination; a latch-side code is no predicate number at all (R50). -/
def predRsv (d : Code) : Bool := decide (d.extractLsb' 5 2 ≠ 0) && !isLatch d

/-- The predicate that a destination code names (R71): its low five bits; a latch-side code names none (R50). -/
def predDst (d : Code) : Nat := if isLatch d then 32 else (d.extractLsb' 0 5).toNat

/-- The same for majors 0x13 to 0x17, whose vector forms only `gen` and `vec` warps issue; a compare writes predicates and is
always a vector instruction (R25, R289). -/
def cmpInfo (op f7 : Nat) (g : BitVec 4) (d : Code) (srcs : List Code) : OpInfo :=
  { pInfo op f7 g srcs (predRsv d) with roles := [.gen, .vec] }

/-- Writes predicate `n` of fibre `j`; p0 and numbers above 31 are not written (R71, R50). -/
def setPred (w : Warp) (j n : Nat) (b : Bool) : Warp :=
  if n = 0 ∨ 32 ≤ n then w
  else
    let p := w.pred j
    { w with preds := vecPut w.preds j (if b then p ||| laneBit n else p &&& ~~~laneBit n) }

/-- WARN.DST where a predicate destination from `n` on, `len` predicates, names p0 or a number above 31 (R50, R71). -/
def predWarn (n len : Nat) : Word := warnIf (decide (n = 0) || decide (32 < n + len)) wDST

/-- Writes consecutive predicates from `n` on in the fibres of `lanes`, in ascending number (R71). -/
def Cx.writePreds (cx : Cx) (s : State) (lanes : Lanes) (n : Nat) (f : Nat → List Bool) : State :=
  s.modWarp cx.k fun w =>
    (lanesOf lanes).foldl (fun w j =>
      ((List.range (f j).length).foldl (fun w i => setPred w j (n + i) ((f j).getD i false)) w)) w

/-- R88: combines two predicates through a truth table. -/
def execPlog (g : BitVec 4) (d a b : Code) (s : State) : Host.Outcome State Fault Refusal :=
  issued (pInfo 0x10 0 g [] (decide (b.extractLsb' 5 2 = 3))) s fun cx s =>
    let t := (d.extractLsb' 5 2).toNat * 4 + (a.extractLsb' 5 2).toNat
    let pd := (d.extractLsb' 0 5).toNat
    let pa := (a.extractLsb' 0 5).toNat
    let pb := (b.extractLsb' 0 5).toNat
    let out := fun j =>
      let i := (if cx.w.predBit j pa then 2 else 0) + (if cx.w.predBit j pb then 1 else 0)
      let f := t.testBit i
      match (b.extractLsb' 5 2).toNat with
      | 1 => cx.w.predBit j pd && f
      | 2 => cx.w.predBit j pd || f
      | _ => f
    .done (cx.writePreds (cx.warn s (predWarn pd 1)) cx.q pd fun j => [out j]) none

/-- R89: the predicate word to a register. Predicates are no scalar source, so this is a vector instruction (R25). -/
def execPmovGet (g : BitVec 4) (d a : Code) (s : State) : Host.Outcome State Fault Refusal :=
  issued (pInfo 0x11 0 g [] (decide (a ≠ 0))) s fun cx s =>
    cx.checked [{ code := d, lanes := cx.q, read := false }] s fun s =>
      .done (cx.writeDst (cx.warn s (dstWarn d false true)) d false cx.q fun j => (cx.w.pred j).setWidth 64) none

/-- R89: the predicate word from a source, p0 kept set. -/
def execPmovSet (g : BitVec 4) (d a : Code) (s : State) : Host.Outcome State Fault Refusal :=
  issued (pInfo 0x11 1 g [a] (decide (d ≠ 0))) s fun cx s =>
    let src : Src := { code := a }
    cx.checked (readsOf [src] cx.q) s fun s =>
      .done ((cx.noteSrcs [src] s).modWarp cx.k fun w =>
        { w with preds := vecOf 32 fun j => if inSet cx.q j then cx.val32 src j ||| 1 else vecAt w.preds j 1 }) none

/-- The fibres of Q that vote true (R90). -/
def Cx.votes (cx : Cx) (src : Src) : Lanes :=
  (lanesOf cx.q).foldl (fun m j => if cx.val32 src j ≠ 0 then m ||| laneBit j else m) 0

/-- R90, `.any` and `.all`: one predicate in every fibre of Q. -/
def votePred (f7 : Nat) (g : BitVec 4) (d a : Code) (r : Cx → Lanes → Bool) (s : State) : State :=
  issue (pInfo 0x12 f7 g [a] (decide (d.extractLsb' 5 2 ≠ 0))) s fun cx s =>
    let src : Src := { code := a }
    let pd := predDst d
    cx.checked (readsOf [src] cx.q) s fun s =>
      .done (cx.writePreds (cx.warn (cx.noteSrcs [src] s) (predWarn pd 1)) cx.q pd fun _ => [r cx (cx.votes src)]) none

/-- R90: any fibre of Q votes true. -/
def execVoteAny (g : BitVec 4) (d a : Code) (s : State) : Host.Outcome State Fault Refusal :=
  .next (votePred 0 g d a (fun _ v => decide (v ≠ 0)) s)

/-- R90: every fibre of Q votes true. -/
def execVoteAll (g : BitVec 4) (d a : Code) (s : State) : Host.Outcome State Fault Refusal :=
  .next (votePred 1 g d a (fun cx v => decide (v = cx.q)) s)

/-- R90, `.ballot` and `.uni`: one value in every fibre of Q. Over Q the value is the same in each fibre (log 8: DEDUCED). -/
def voteReg (f7 : Nat) (g : BitVec 4) (d a : Code) (r : Cx → Src → Word) (s : State) : State :=
  issue (pInfo 0x12 f7 g [a] false) s fun cx s =>
    let src : Src := { code := a }
    cx.checked (readsOf [src] cx.q ++ [{ code := d, lanes := cx.q, read := false }]) s fun s =>
      let s := cx.warn (cx.noteSrcs [src] s) (dstWarn d false true)
      .done (cx.writeDst s d false cx.q fun _ => (r cx src).setWidth 64) none

/-- R90: the mask of the fibres of Q that vote true. -/
def execVoteBallot (g : BitVec 4) (d a : Code) (s : State) : Host.Outcome State Fault Refusal :=
  .next (voteReg 2 g d a (fun cx src => cx.votes src) s)

/-- R90: whether every fibre of Q holds the same value. -/
def execVoteUni (g : BitVec 4) (d a : Code) (s : State) : Host.Outcome State Fault Refusal :=
  .next (voteReg 3 g d a (fun cx src =>
    let l := lanesOf cx.q
    if l.all fun j => decide (cx.val32 src j = cx.val32 src (l.headD 0)) then 1 else 0) s)

/-- R91: less, equal and greater of two integers of element 0. -/
def intOrder (t : IType) (x y : DWord) : List Bool :=
  let a := ofPat t.signed t.width (elemOf x t.width 0)
  let b := ofPat t.signed t.width (elemOf y t.width 0)
  [decide (a < b), decide (a = b), decide (a > b)]

/-- R91. -/
def execCmp (g : BitVec 4) (d a b : Code) (s : State) : Host.Outcome State Fault Refusal :=
  issued (cmpInfo 0x13 0 g d [a, b]) s fun cx s =>
    let srcs := [cx.tiSrc a, cx.tiSrc b]
    let pd := predDst d
    cx.checked (readsOf srcs cx.q) s fun s =>
      .done (cx.writePreds (cx.warn (cx.noteSrcs srcs s) (predWarn pd 3)) cx.q pd fun j =>
        intOrder cx.w.itype (cx.val (cx.tiSrc a) j) (cx.val (cx.tiSrc b) j)) none

/-- R91: with an immediate. -/
def execCmpi (g : BitVec 4) (d a i : Code) (s : State) : Host.Outcome State Fault Refusal :=
  issued { cmpInfo 0x14 0 g d [a] with ext := true, imm7 := i, immBits := i.toNat } s fun cx s =>
    let srcs := [cx.tiSrc a]
    let x := cx.immX cx.w.itype.imm
    let pd := predDst d
    cx.checked (readsOf srcs cx.q) s fun s =>
      .done (cx.writePreds (cx.warn (cx.noteSrcs srcs s) (predWarn pd 3 ||| warnIf x.2 wIMM)) cx.q pd fun j =>
        intOrder cx.w.itype (cx.val (cx.tiSrc a) j) (BitVec.ofNat 64 x.1)) none

/-- R92: less, equal, greater and unordered of two floats. -/
def fltOrder (a b : FV) : List Bool :=
  if a.isNaN || b.isNaN then [false, false, false, true] else [fvLt a b, fvEq a b, fvLt b a, false]

/-- R92. -/
def execFcmp (g : BitVec 4) (d a b : Code) (s : State) : Host.Outcome State Fault Refusal :=
  issued (cmpInfo 0x15 0 g d [a, b]) s fun cx s =>
    let srcs := [cx.tfSrc a, cx.tfSrc b]
    let f := cx.w.ftype
    let val := fun c j => fdec f (elemOf (cx.val (cx.tfSrc c) j) f.width 0)
    let pd := predDst d
    cx.checked (readsOf srcs cx.q) s fun s =>
      let nv := (lanesOf cx.q).any fun j => (val a j).isSig || (val b j).isSig
      let s := (cx.warn (cx.noteSrcs srcs s) (predWarn pd 4)).modWarp cx.k fun w => w.addFlags (flagIf nv flNV)
      .done (cx.writePreds s cx.q pd fun j => fltOrder (val a j) (val b j)) none

/-- R93: whether a code is in a class mask: [0] NaN, [1] infinity, [2] normal, [3] subnormal, [4] zero, [5] negative only,
[6] positive only. -/
def inClass (f : Fmt) (m : Code) (x : Nat) : Bool :=
  let v := fdec f x
  let cls := match v with
    | .nan _ _ _ => m.getLsbD 0
    | .inf _ => m.getLsbD 1
    | .fin _ mm _ => if mm = 0 then m.getLsbD 4 else if v.isSub f then m.getLsbD 3 else m.getLsbD 2
  let signed := !(v.isNaN && !f.ieee)
  let sign := if m.extractLsb' 5 2 = 0 then true else signed && (if m.getLsbD 5 then v.neg? else !v.neg?)
  cls && sign

/-- R93. -/
def execFcls (g : BitVec 4) (d a m : Code) (s : State) : Host.Outcome State Fault Refusal :=
  issued (cmpInfo 0x16 m.toNat g d [a]) s fun cx s =>
    let src := cx.tfSrc a
    let f := cx.w.ftype
    let pd := predDst d
    cx.checked (readsOf [src] cx.q) s fun s =>
      .done (cx.writePreds (cx.warn (cx.noteSrcs [src] s) (predWarn pd 1)) cx.q pd fun j =>
        [inClass f m (elemOf (cx.val src j) f.width 0)]) none

/-- R94: copies a where the guard holds and b elsewhere, in every active fibre; on the scalar pipe the guard of the lowest
active fibre chooses. -/
def execSel (g : BitVec 4) (d a b : Code) (s : State) : Host.Outcome State Fault Refusal :=
  issued { pInfo 0x17 0 g [a, b] false with dst := some d } s fun cx s =>
    let wd := cx.w.itype.wide
    let src := fun c => ({ code := c, wide := wd, imm := .int (if wd then 64 else 32) } : Src)
    let scalar := scalarCode a && scalarCode b && scalarDst d
    let low := (lowestLane cx.m).getD 0
    let lanes := if scalar then laneBit low else cx.m
    let ta := lanes &&& cx.q
    let tb := lanes &&& ~~~cx.q
    cx.checked (readsOf [src a] ta ++ readsOf [src b] tb ++ [{ code := d, n := if wd then 2 else 1, wide := wd, lanes := lanes, read := false }]) s fun s =>
      let s := cx.noteSrcs [src b] (cx.noteSrcs [src a] s ta) (if a = 116 ∧ ta ≠ 0 then 0 else tb)
      let s := cx.warn s (dstWarn d wd (!scalar))
      .done (cx.writeDst s d wd lanes fun j => if inSet cx.q j then cx.val (src a) j else cx.val (src b) j) none

end Sys2Proof.Machine
end

