-- ==== Sys2Proof/Machine/Prefix.lean ====
section
/-! DEFINITION. Prefix words and unassigned words (02 R31 to R33, R42 to R44, R49). -/

namespace Sys2Proof.Machine

/-- A prefix word of the issuing gang: it joins the group, and the gang stays at the port (R31). -/
def prefixWord (s : State) (f : Nat → Pfx → Pfx) : State :=
  match s.issuing with
  | none => s
  | some (k, m) => s.modWarp k fun w => w.modGang m fun g =>
      let p := f g.pc { g.pfx with words := g.pfx.words + 1, start := if g.pfx.words = 0 then g.pc else g.pfx.start }
      { g with pc := (g.pc + 4) % 2 ^ 64, pfx := p }

/-- Warnings that ignored words of a group set (R31). -/
def Pfx.lose (p : Pfx) (x : Word) : Pfx := { p with warn := p.warn ||| x, lost := p.lost ||| x }

/-- What an `hsch` or `hmod` word does to a chain and to an `hmod` that stand before it: they are ignored, with a warning; so is an
`hmod` that only such a chain parts from the word (log 95: DESIGN CHOICE). -/
def Pfx.dropTail (p : Pfx) : Pfx :=
  { p.lose (warnIf (!p.ext.isEmpty) wEXT ||| warnIf p.hmod.isSome wMOD) with ext := [], hmod := none }

/-- R32, R33: an extension word. -/
def execExt (x : BitVec 25) (s : State) : Host.Outcome State Fault Refusal :=
  .next (prefixWord s fun _ p =>
    let l := p.ext ++ [x]
    { p.lose (warnIf (decide (3 < l.length)) wEXT) with ext := l.drop (l.length - 3) })

/-- R44: a scheduling hint; it starts a group of its own. -/
def execHsch (yld : BitVec 1) (dep : BitVec 4) (vt : BitVec 1) (r0 : BitVec 19) (s : State) : Host.Outcome State Fault Refusal :=
  .next (prefixWord s fun pc p =>
    { p.dropTail with head := some pc, hsch := true, vt := decide (vt = 1), warn := p.dropTail.warn ||| warnIf (decide (r0 ≠ 0)) wRSV })

/-- R42: the modifiers of the group's instruction. -/
def execHmod (c : Code) (cen fresh sat : BitVec 1) (r0 : BitVec 15) (s : State) : Host.Outcome State Fault Refusal :=
  .next (prefixWord s fun pc p =>
    { p.dropTail with
      head := if p.hsch then p.head else some pc
      hmod := some { c := c, cen := decide (cen = 1), fresh := decide (fresh = 1), sat := decide (sat = 1) }
      warn := p.dropTail.warn ||| warnIf (decide (r0 ≠ 0)) wRSV })

/-- R49: an unassigned word raises the illegal-instruction trap, whatever its fields. -/
def execIllegalInstruction (w : Word) (s : State) : Host.Outcome State Fault Refusal :=
  issued { op := (w.extractLsb' 25 7).toNat, control := true } s fun cx _ =>
    .trap { cause := .illegal, lane := (lowestLane cx.m).getD 0, addr := w.toNat }

end Sys2Proof.Machine
end

