-- ==== Sys2Proof/Machine/SystemGroup.lean ====
section
/-! DEFINITION. The system group, major 0x7B: submissions and events, traps, monitors, system registers, fault records, regions
(13 R377 to R382; 14 R391 to R401; 17 R428 to R434). -/

namespace Sys2Proof.Machine

/-! ## The frame (R377, R392, R429) -/

/-- The frame's description of a system word. -/
def sysInfo (f7 : Nat) (g : BitVec 4) (srcs : List Code) (rsv : Bool) : OpInfo :=
  { bInfo 0x7B f7 g srcs rsv with control := true, noLatch := true }

/-- A system word that acts once per warp: its operands are read in the lowest fibre; a destination awaits outstanding replies. -/
def sysWord (f7 : Nat) (g : BitVec 4) (srcs : List Src) (dst : List (Code × Bool)) (rsv : Bool) (f : Cx → Nat → State → Res) (s : State) :
    State :=
  issue (sysInfo f7 g (srcs.map Src.code) rsv) s fun cx s =>
    match cx.lead with
    | none => .done s none
    | some j =>
      let ds : List Use := dst.map fun x => { code := x.1, n := if x.2 then 2 else 1, wide := x.2, lanes := cx.q, read := false }
      cx.checked (readsOf srcs (laneBit j) ++ ds) s fun s => f cx j (cx.noteSrcs srcs s)

/-! ## Submissions and events (R378 to R382) -/

/-- R378: `submit`. -/
def execSubmit (g : BitVec 4) (d a : Code) (s : State) : Host.Outcome State Fault Refusal :=
  .next (sysWord 0 g [pairSrc a] [(d, false)] false (fun cx j s =>
    cx.afterRelease 2 false s fun s =>
      let ea := (cx.val (pairSrc a) j).toNat
      let win := fun (x : Nat) => (decide (addrForm x = 15), windowTrap j 5 x)
      let seen := fun (al x n : Nat) (s : State) (k : State → Res) => passes [win x] (cx.side .load 5 al (piecesOf [rangeStrip j x n]) Strip.src s fun _ => k s)
      seen 128 ea 128 s fun s =>
        let acc := { cx.access s 0 ea 0 0 0 with id := s.fresh }
        match s.pull cx.b.chip cx.b.ctx acc ea 128 with
        | (s, none) => .stall s .again
        | (s, some l) =>
          let f := fieldAt l
          let body := fun (s : State) =>
            let c := s.chip cx.b.chip
            let solo := c.alone
            match s.judge cx.b.chip acc (some cx.b.ctx) solo l with
            | (s, .unread) => .stall s .again
            | (s, .refused code ctx crec) =>
              .done (cx.writeOnce (s.refusal cx.b.chip ctx crec code) d false (BitVec.ofNat 64 code)) none
            | (s, .accepted ctx image run) =>
              if !(s.chip cx.b.chip).room then .halfway s .post
              else .done (cx.writeOnce (s.postSubmit cx.b.chip ctx 0 image run) d false 0) none
          if f 0 8 % 128 ≠ 0 then body s
          else seen 1 (f 0 8) 896 s fun s => if f 32 8 = 0 then body s else seen 1 (f 32 8) 4096 s body) s)

/-- R279, R379: `trig` marks its fibres as triggered. -/
def execTrig (g : BitVec 4) (d a : Code) (s : State) : Host.Outcome State Fault Refusal :=
  issued (sysInfo 1 g [] (decide (d ≠ 0) || decide (a ≠ 0))) s fun cx s =>
    if cx.q = 0 then .done s none
    else cx.afterRelease 2 false s fun s =>
      .done ((s.modWarp cx.k fun w => { w with triggered := w.triggered ||| cx.q }).sendOnce .triggerReport
        { chip := cx.b.chip, gid := cx.b.gid, row := cx.b.row }) none

/-- R380: `evpost` posts a USER event. -/
def execEvpost (g : BitVec 4) (d a : Code) (s : State) : Host.Outcome State Fault Refusal :=
  .next (sysWord 2 g [{ code := d }, pairSrc a] [] false (fun cx j s =>
    cx.afterRelease 2 false s fun s =>
      let ea := (cx.val (pairSrc a) j).toNat
      let l := piecesOf [rangeStrip j ea 40]
      cx.side .load 5 8 l Strip.src s fun sp =>
        cx.sourced ((sp.zip l).map fun x => (x.1, j, x.2.2.2)) s fun s =>
          let read := (sp.zip l).foldl (fun (x : State × Option (List Byte)) p =>
            match x.2 with
            | none => x
            | some t => match p.1 with
              | .glob _ key _ => (match x.1.readNow (cx.access x.1 0 ea 0 0 0) key p.2.2.2 with
                | (s, some b) => (s, some (t ++ b))
                | (s, none) => (s, none))
              | y => (x.1, some (t ++ x.1.windowBytes cx.b.node p.2.2.2 y))) (s, some [])
          match read with
          | (s, none) => .stall s .again
          | (s, some data) =>
            if !(s.chip cx.b.chip).room then .halfway s .post
            else .done (s.postEvent cx.b.chip 10 cx.b.ctx (leBytes 4 (cx.val32 { code := d } j).toNat ++ data) []) none) s)

/-- R381: `evwait` waits for an event of a key, numbered n or more, then acts as `fence.acq`. -/
def execEvwait (g : BitVec 4) (d a : Code) (s : State) : Host.Outcome State Fault Refusal :=
  .next (sysWord 3 g [pairSrc a] [(d, true)] false (fun cx j s =>
    let v := cx.val (pairSrc a) j
    let key := (v.extractLsb' 0 32).toNat
    let n := (v.extractLsb' 32 32).toNat
    let mine := (s.chip cx.b.chip).plate.users.filter fun u => decide (u.ctx = cx.b.ctx) && decide (u.key = key) && decide (n ≤ u.num)
    match mine.foldl (fun (a : Option Nat) u => some (min (a.getD u.num) u.num)) none with
    | none => .stall s (.event key n)
    | some x => .done (cx.acquire (cx.writeOnce s d true (BitVec.ofNat 64 x))) none) s)

/-- State codes of the Plate (R382). -/
def CState.code : CState → Nat
  | .live => 0
  | .fenced => 1
  | .lost => 2
  | .absent => 3

/-- State codes of rows (R382). -/
def RState.code : RState → Nat
  | .pending => 0
  | .placed => 1
  | .finished => 2

/-- What `plrd` reads by a selector, and whether the selector is timed (R382). -/
def plateRead (p : Plate) (b : Block) (sel : Nat) : Bool × Option Nat :=
  let x := sel % 2 ^ 28
  match sel / 2 ^ 28 with
  | 0 => match x with
    | 0 => (true, some (p.index % 2 ^ 32))
    | 1 => (true, some (p.index / 2 ^ 32 % 2 ^ 32))
    | 2 => (true, some (p.chips.filter fun c => decide (c.2.st = .live)).length)
    | 3 => (false, some (b.gid % 2 ^ 32))
    | 4 => (false, some b.row)
    | _ => (false, none)
  | 1 =>
    let c := (tabLook p.chips x).getD { st := .absent, inc := 0 }
    (true, if x < 512 then some (c.inc % 2 ^ 8 + c.st.code * 2 ^ 8 + c.out % 2 ^ 22 * 2 ^ 10) else none)
  | 2 => (true, (p.rows.find? fun r => decide (r.gid = b.gid) && decide (r.row = x)).map fun r => r.chip % 2 ^ 9 + r.st.code * 2 ^ 29)
  | 3 => (false, if 10 ≤ x % 16 then none
      else (p.users.find? fun u => decide (u.ctx = b.ctx) && decide (u.num % 2 ^ 24 = x / 16)).map fun u => fieldAt u.data (4 * (x % 16)) 4)
  | _ => (false, none)

/-- R382: `plrd` reads the local Plate. -/
def execPlrd (g : BitVec 4) (d a : Code) (s : State) : Host.Outcome State Fault Refusal :=
  .next (sysWord 4 g [{ code := a }] [(d, true)] false (fun cx j s =>
    let r := plateRead (s.chip cx.b.chip).plate cx.b (cx.val32 { code := a } j).toNat
    let v := if r.1 && s.isDet cx.b then none else r.2
    .done (cx.writeOnce s d true (match v with
      | some x => BitVec.ofNat 64 x
      | none => 2 ^ 32)) none) s)

/-! ## Traps, `tfence`, `rfe` (R117, R393, R394) -/

/-- R393: `trap` raises the user trap. -/
def execTrap (g : BitVec 4) (d a : Code) (s : State) : Host.Outcome State Fault Refusal :=
  .next (sysWord 5 g [{ code := a }] [] (decide (d ≠ 0)) (fun cx j s =>
    .after s { cause := .user, lane := j, addr := (cx.val32 { code := a } j).toNat }) s)

/-- R117: `tfence` raises the arithmetic trap when an enabled flag is set. -/
def execTfence (g : BitVec 4) (d a : Code) (s : State) : Host.Outcome State Fault Refusal :=
  .next (sysWord 6 g [] [] (decide (d ≠ 0) || decide (a ≠ 0)) (fun cx j s =>
    if cx.w.trapping = 0 then .done s none else .trap { cause := .arith, lane := j, addr := cx.w.trapping.toNat }) s)

/-- R394: `rfe` ends a handler. -/
def execRfe (g : BitVec 4) (d a : Code) (s : State) : Host.Outcome State Fault Refusal :=
  .next (sysWord 9 g [] [] (decide (d ≠ 0) || decide (a ≠ 0)) (fun cx _ s =>
    if !cx.w.intrap then .done (cx.warn s wRSV) none else .returned (s.modWarp cx.k fun w => w.returnFromTrap cx.m)) s)

/-! ## Monitors (R395, R396) -/

/-- R395: `mon` arms the warp's monitor on a line. -/
def execMon (g : BitVec 4) (d a : Code) (s : State) : Host.Outcome State Fault Refusal :=
  .next (sysWord 7 g [pairSrc a] [] (decide (d ≠ 0)) (fun cx j s =>
    let ea := (cx.val (pairSrc a) j).toNat
    if addrForm ea = 15 then .trap { cause := .window, lane := j, addr := ea }
    else match cx.check s .load 1 ea with
    | .bad c => .trap { cause := c, lane := j, addr := ea }
    | .walk h o =>
      let w := s.beginWalk cx.b.chip cx.b.ctx h o
      .stall w.1 (.walk w.2)
    | .at_ (.glob _ key _) => .done (s.modWarp cx.k fun w => { w with monitor := some (key / 128, false), monVa := ea / 128 * 128 }) none
    | .at_ _ => .trap { cause := .window, lane := j, addr := ea }) s)

/-- The monitor disarmed. -/
def Warp.disarm (w : Warp) : Warp := { w with monitor := none, deadline := none }

/-- R396: `mwait` waits for the monitor, with a timeout. -/
def execMwait (g : BitVec 4) (d a : Code) (s : State) : Host.Outcome State Fault Refusal :=
  .next (sysWord 8 g [{ code := a }] [] (decide (d ≠ 0)) (fun cx j s =>
    match cx.w.monitor with
    | some (_, false) =>
      if cx.half then
        match cx.w.deadline with
        | some t =>
          if cx.tick < t then .halfway s .monitor
          else .after (cx.warn (s.modWarp cx.k Warp.disarm) (warnIf (s.isDet cx.b) wNDET)) { cause := .monTimeout, lane := j, addr := cx.w.monVa }
        | none => .halfway s .monitor
      else
        let t := (cx.val32 { code := a } j).toNat
        if t = 0 then .halfway (s.modWarp cx.k fun w => { w with deadline := none }) .monitor
        else .halfway ((s.modWarp cx.k fun w => { w with deadline := some (cx.tick + t) }).sendOnce .mwaitTimeout { warp := cx.k }) .monitor
    | _ => .done (cx.acquire (s.modWarp cx.k Warp.disarm)) none) s)

/-- MWAIT_TIMEOUT (R396): once pod time has reached the deadline, the waiting gang issues its `mwait` again and takes the
monitor-timeout trap. -/
def execMwaitTimeout (s : State) : Host.Outcome State Fault Refusal :=
  let k := s.cue.warp
  match s.warp? k with
  | none => .next s
  | some w =>
    match w.deadline, s.block? w.node with
    | some t, some b =>
      if s.podTime b.chip < t then .next (s.send .mwaitTimeout { warp := k })
      else .next (s.setWarp k { w with gangs := w.gangs.map fun g => if g.wait = .stall .monitor then { g with wait := .run } else g })
    | _, _ => .next s

/-! ## System registers (R397) -/

/-- How many values the index of a register has. -/
def sysIndexes (n : Nat) : Nat :=
  match n with
  | 0x07 => 4
  | 0x1C => 257
  | 0x1D => 32
  | _ => 1

/-- STATUS (R391). -/
def statusWord (c : Chip) (b : Block) (w : Warp) : Nat :=
  w.tokwait % 2 ^ 32 * 2 ^ 32 + w.resumes % 256 * 256 + (if c.tskew then 8 else 0) + (if b.norev then 4 else 0) + (if w.intrap then 2 else 0)

/-- RSTACK at an index (R428). -/
def rstackWord (w : Warp) (i : Nat) : Nat :=
  w.regions.length * 2 ^ 56 + (if w.runf then 2 ^ 49 else 0) + (if w.rovf then 2 ^ 48 else 0) + (w.regions.getD i 0).toNat

/-- The value of a system register. -/
def Cx.sysValue (cx : Cx) (s : State) (n i : Nat) : Nat :=
  let w := cx.w
  let c := s.chip cx.b.chip
  let core := s.core w.core
  match n with
  | 0x00 => statusWord c cx.b w
  | 0x01 => w.warn.toNat
  | 0x02 => w.fstat.toNat
  | 0x03 => cx.tick
  | 0x04 => w.pold.toNat
  | 0x05 => w.mxcfg.toNat
  | 0x06 => (if core.wdr then 2 ^ 31 else 0) + core.spare % 16 * 2 ^ 24 + core.retired % 256 * 2 ^ 16 + core.kib
  | 0x07 =>
    let r := (s.die (cx.b.chip * 4 + i)).l2Retired
    r * 2 ^ 20 + (786432 - 768 * r)
  | 0x08 => w.reuse.toNat
  | 0x09 => w.collide.toNat
  | 0x0A => w.subrpl.toNat
  | 0x0B => w.enwarp
  | 0x0C => cx.b.enblk
  | 0x0D => (vecAt w.loops 0 0).toNat
  | 0x0E => (vecAt w.loops 1 0).toNat
  | 0x0F => (vecAt w.loops 2 0).toNat
  | 0x10 => (vecAt w.rj 0 0).toNat
  | 0x11 => (vecAt w.rj 1 0).toNat
  | 0x12 => (vecAt w.rj 2 0).toNat
  | 0x13 => (vecAt w.rj 3 0).toNat
  | 0x14 => w.osc .copy + w.osc .mtx * 2 ^ 6 + w.osc .gath * 2 ^ 12 + w.osc .coll * 2 ^ 18
  | 0x15 => c.inc
  | 0x16 => c.num % 512 * 2 ^ 12 + c.group % 128 * 2 ^ 5 + c.pos % 32
  | 0x17 => cx.b.ctx
  | 0x18 => w.trapvec.toNat
  | 0x19 => w.trappc.toNat
  | 0x1A => w.trapcause.toNat
  | 0x1B => w.trapaddr.toNat
  | 0x1C => (vecAt w.trapops i 0).toNat
  | 0x1D => rstackWord w i
  | _ => c.incdrop

/-- A selector's register number and index, or the trap it raises (R397). -/
def sysSelect (j : Nat) (v : Word) : (Nat × Nat) ⊕ Trap :=
  let n := v.toNat % 256
  let i := v.toNat / 2 ^ 16
  if 0x1E < n ∨ sysIndexes n ≤ i then .inr { cause := .sysreg, lane := j, addr := (v &&& 0xFFFF00FF).toNat } else .inl (n, i)

/-- The warning of a selector's reserved bits. -/
def selWarn (v : Word) : Word := warnIf (decide (v.extractLsb' 8 8 ≠ 0)) wRSV

/-- R397: `sysrd`. A read of TIME is a read of `tick` (R11). -/
def execSysrd (g : BitVec 4) (d a : Code) (s : State) : Host.Outcome State Fault Refusal :=
  .next (sysWord 10 g [{ code := a }] [(d, true)] false (fun cx j s =>
    let v := cx.val32 { code := a } j
    match sysSelect j v with
    | .inr t => .trap t
    | .inl (n, i) =>
      let s := cx.warn s (selWarn v)
      let s := if n = 3 then cx.readTime cx.tick s else s
      .done (cx.writeOnce s d true (BitVec.ofNat 64 (cx.sysValue s n i))) none) s)

/-- The RW and W1C bits of a register. Every bit of a TRAPOPS word is RW, the bits of its header included that R389 gives no field
(log 104: DESIGN CHOICE). -/
def sysMasks (n : Nat) : DWord × DWord :=
  match n with
  | 0x01 => (0, 0x7FF)
  | 0x02 => (0x03FF0000, 0xFF)
  | 0x04 => (0xFFFFFFFE, 0)
  | 0x05 => (0xFFFFFFFF, 0)
  | 0x18 => (0xFFFFFFFFFFFFFFFC, 0)
  | 0x19 => (0xFFFFFFFFFFFFFFFC, 0)
  | 0x1C => (0xFFFFFFFFFFFFFFFF, 0)
  | _ => (0, 0)

/-- A warp with a writable register changed to a value; the warnings of an MXCFG value (R223). -/
def Warp.sysPut (w : Warp) (n i : Nat) (x : DWord) : Warp :=
  match n with
  | 0x01 => { w with warn := x.setWidth 32 }
  | 0x02 => { w with fstat := x.setWidth 32 }
  | 0x04 => { w with pold := x.setWidth 32 }
  | 0x05 =>
    let r := cfgWrite w.mxcfg (x.setWidth 32)
    { (w.addWarn r.2) with mxcfg := r.1 }
  | 0x18 => { w with trapvec := x }
  | 0x19 => { w with trappc := x }
  | 0x1C => { w with trapops := vecPut w.trapops i x }
  | _ => w

/-- `syswr`, `sysset` and `sysclr`: `f` gives the new value from the old one, the operand and the masks; the word's own warnings stay set
(R50). -/
def sysWrite (f7 : Nat) (g : BitVec 4) (d a : Code) (f : DWord → DWord → DWord × DWord → DWord) (s : State) : State :=
  sysWord f7 g [pairSrc d, { code := a }] [] false (fun cx j s =>
    let v := cx.val32 { code := a } j
    match sysSelect j v with
    | .inr t => .trap t
    | .inl (n, i) =>
      let x := f (BitVec.ofNat 64 (cx.sysValue s n i)) (cx.val (pairSrc d) j) (sysMasks n)
      .done (cx.warn (s.modWarp cx.k fun w => (w.sysPut n i x).addWarn (w.warn &&& ~~~cx.w.warn)) (selWarn v)) none) s

/-- R397: `syswr` replaces RW fields and clears the W1C bits whose value bit is 1. -/
def execSyswr (g : BitVec 4) (d a : Code) (s : State) : Host.Outcome State Fault Refusal :=
  .next (sysWrite 11 g d a (fun old v m => ((old &&& ~~~m.1) ||| (v &&& m.1)) &&& ~~~(v &&& m.2)) s)

/-- R397: `sysset` sets RW bits. -/
def execSysset (g : BitVec 4) (d a : Code) (s : State) : Host.Outcome State Fault Refusal :=
  .next (sysWrite 12 g d a (fun old v m => old ||| (v &&& m.1)) s)

/-- R397: `sysclr` clears RW and W1C bits. -/
def execSysclr (g : BitVec 4) (d a : Code) (s : State) : Host.Outcome State Fault Refusal :=
  .next (sysWrite 13 g d a (fun old v m => old &&& ~~~(v &&& (m.1 ||| m.2))) s)

/-! ## Fault records (R399, R401) -/

/-- A fault record's bytes (R399). -/
def faultBytes (r : FaultRec) : List Byte :=
  leBytes 8 r.pc ++ leBytes 8 r.addr ++ leBytes 4 r.block ++ leBytes 1 r.warp ++ leBytes 1 r.wgen ++ leBytes 1 r.kind
    ++ leBytes 1 ((if r.exited then 1 else 0) + (if r.ovf then 2 else 0)) ++ leBytes 4 r.ngen ++ leBytes 4 0 ++ dwBytes 8 r.syn
    ++ List.replicate 24 0

/-- R401: `fltrd` stores the block's oldest fault record and tells how many are left. -/
def execFltrd (g : BitVec 4) (d a : Code) (s : State) : Host.Outcome State Fault Refusal :=
  .next (sysWord 18 g [pairSrc a] [(d, false)] false (fun cx j s =>
    let ea := (cx.val (pairSrc a) j).toNat
    if addrForm ea = 15 then .trap { cause := .window, sub := 1, lane := j, addr := ea }
    else match cx.check s .store 64 ea with
    | .bad c => .trap { cause := c, sub := 1, lane := j, addr := ea }
    | .walk h o =>
      let w := s.beginWalk cx.b.chip cx.b.ctx h o
      .stall w.1 (.walk w.2)
    | .at_ (.glob ea key leaf) =>
      (match cx.b.faults with
      | [] => .done (cx.writeOnce s d false 0xFFFFFFFF) none
      | r :: rest =>
        let l := [(j, ea, key, leaf)]
        cx.ordered false true 64 l s fun s =>
          cx.staged [key / 128] s fun s =>
            let s := cx.warn (s.modBlock cx.b.node fun b => { b with faults := rest }) (polWarn cx.w.pold)
            let s := cx.writeOnce s d false (BitVec.ofNat 64 rest.length)
            .done (cx.storeLine 0 cx.w.pold (fun _ => faultBytes r) s (key / 128, l)) none)
    | .at_ _ => .trap { cause := .window, sub := 1, lane := j, addr := ea }) s)

/-! ## Regions, stamps, breakpoints (R428 to R434) -/

/-- R431: a region edge, after its push or pop: an armed stop for it traps. -/
def Cx.edge (cx : Cx) (s : State) (j : Nat) (mode id : Nat) : Res :=
  match cx.w.stop with
  | some (n, m) =>
    if m.toNat = mode ∧ n.toNat = id then
      .after (s.modWarp cx.k fun w => { w with stop := none }) { cause := .brk, lane := j, addr := mode * 2 ^ 16 + id }
    else .done s none
  | none => .done s none

/-- R429: `renter` pushes a region id. -/
def execRenter (g : BitVec 4) (d a : Code) (s : State) : Host.Outcome State Fault Refusal :=
  .next (sysWord 14 g [{ code := a }] [] (decide (d ≠ 0)) (fun cx j s =>
    let v := cx.val32 { code := a } j
    let id : BitVec 16 := v.extractLsb' 0 16
    let s := cx.warn s (warnIf (decide (v.extractLsb' 16 16 ≠ 0)) wRSV)
    let s := s.modWarp cx.k fun w =>
      { w with regions := (id :: w.regions).take 32, rovf := w.rovf || decide (32 ≤ w.regions.length) }
    cx.edge s j 1 id.toNat) s)

/-- R429: `rleave` pops a region id. -/
def execRleave (g : BitVec 4) (d a : Code) (s : State) : Host.Outcome State Fault Refusal :=
  .next (sysWord 15 g [] [] (decide (d ≠ 0) || decide (a ≠ 0)) (fun cx j s =>
    match cx.w.regions with
    | [] => .done (s.modWarp cx.k fun w => { w with runf := true }) none
    | id :: r => cx.edge (s.modWarp cx.k fun w => { w with regions := r }) j 2 id.toNat) s)

/-- R434: `stamp` marks the block's stamp record. -/
def execStamp (g : BitVec 4) (d a : Code) (s : State) : Host.Outcome State Fault Refusal :=
  .next (sysWord 16 g [] [] (decide (d ≠ 0) || decide (a ≠ 0)) (fun cx _ s =>
    let r := cx.w.region
    .done (s.modBlock cx.b.node fun b => { b with stamp := { b.stamp with mark := some cx.tick, region := r.1, rdepth := r.2 } }) none) s)

/-- R431: `brk` traps, or arms or disarms a stop. -/
def execBrk (g : BitVec 4) (d a : Code) (s : State) : Host.Outcome State Fault Refusal :=
  .next (sysWord 17 g [{ code := a }] [] (decide (d ≠ 0)) (fun cx j s =>
    let v := cx.val32 { code := a } j
    let n : BitVec 16 := v.extractLsb' 0 16
    let mode := v.toNat / 2 ^ 16 % 4
    let s := cx.warn s (warnIf (decide (v.extractLsb' 18 14 ≠ 0)) wRSV)
    if mode = 0 then .after s { cause := .brk, lane := j, addr := n.toNat }
    else if mode = 3 then .done (s.modWarp cx.k fun w => { w with stop := none }) none
    else .done (s.modWarp cx.k fun w => { w with stop := some (n, BitVec.ofNat 16 mode) }) none) s)

end Sys2Proof.Machine
end

