-- ==== Sys2Proof/Machine/Dispatch.lean ====
section
/-! DEFINITION. One meaning for each constructor of the instruction type. -/

namespace Sys2Proof.Machine

/-- The meaning of an instruction. -/
def exec (i : Instr) (s : State) : Host.Outcome State Fault Refusal :=
  match i with
  | .nop g d a b => Sys2Proof.Machine.execNop g d a b s
  | .br g off => Sys2Proof.Machine.execBr g off s
  | .brx g d a b => Sys2Proof.Machine.execBrx g d a b s
  | .call g off => Sys2Proof.Machine.execCall g off s
  | .callx g d a b => Sys2Proof.Machine.execCallx g d a b s
  | .ret g d a b => Sys2Proof.Machine.execRet g d a b s
  | .fork g d a imm => Sys2Proof.Machine.execFork g d a imm s
  | .fend g d a b => Sys2Proof.Machine.execFend g d a b s
  | .exit g d a b => Sys2Proof.Machine.execExit g d a b s
  | .enrol g d a imm => Sys2Proof.Machine.execEnrol g d a imm s
  | .join g d a imm => Sys2Proof.Machine.execJoin g d a imm s
  | .bar g d a imm => Sys2Proof.Machine.execBar g d a imm s
  | .gbar g d a imm => Sys2Proof.Machine.execGbar g d a imm s
  | .loop g d a imm => Sys2Proof.Machine.execLoop g d a imm s
  | .lbrk g d a imm => Sys2Proof.Machine.execLbrk g d a imm s
  | .vtype g d a imm => Sys2Proof.Machine.execVtype g d a imm s
  | .plog g d a b => Sys2Proof.Machine.execPlog g d a b s
  | .pmovGet g d a => Sys2Proof.Machine.execPmovGet g d a s
  | .pmovSet g d a => Sys2Proof.Machine.execPmovSet g d a s
  | .voteAny g d a => Sys2Proof.Machine.execVoteAny g d a s
  | .voteAll g d a => Sys2Proof.Machine.execVoteAll g d a s
  | .voteBallot g d a => Sys2Proof.Machine.execVoteBallot g d a s
  | .voteUni g d a => Sys2Proof.Machine.execVoteUni g d a s
  | .cmp g d a b => Sys2Proof.Machine.execCmp g d a b s
  | .cmpi g d a imm => Sys2Proof.Machine.execCmpi g d a imm s
  | .fcmp g d a b => Sys2Proof.Machine.execFcmp g d a b s
  | .fcls g d a m => Sys2Proof.Machine.execFcls g d a m s
  | .sel g d a b => Sys2Proof.Machine.execSel g d a b s
  | .add g d a b => Sys2Proof.Machine.execAdd g d a b s
  | .addi g d a imm => Sys2Proof.Machine.execAddi g d a imm s
  | .sub g d a b => Sys2Proof.Machine.execSub g d a b s
  | .mul g d a b => Sys2Proof.Machine.execMul g d a b s
  | .muli g d a imm => Sys2Proof.Machine.execMuli g d a imm s
  | .mulh g d a b => Sys2Proof.Machine.execMulh g d a b s
  | .mad g d a b => Sys2Proof.Machine.execMad g d a b s
  | .div g d a b => Sys2Proof.Machine.execDiv g d a b s
  | .rem g d a b => Sys2Proof.Machine.execRem g d a b s
  | .min g d a b => Sys2Proof.Machine.execMin g d a b s
  | .max g d a b => Sys2Proof.Machine.execMax g d a b s
  | .and g d a b => Sys2Proof.Machine.execAnd g d a b s
  | .andi g d a imm => Sys2Proof.Machine.execAndi g d a imm s
  | .or g d a b => Sys2Proof.Machine.execOr g d a b s
  | .ori g d a imm => Sys2Proof.Machine.execOri g d a imm s
  | .xor g d a b => Sys2Proof.Machine.execXor g d a b s
  | .xori g d a imm => Sys2Proof.Machine.execXori g d a imm s
  | .shl g d a b => Sys2Proof.Machine.execShl g d a b s
  | .shli g d a imm => Sys2Proof.Machine.execShli g d a imm s
  | .shr g d a b => Sys2Proof.Machine.execShr g d a b s
  | .shri g d a imm => Sys2Proof.Machine.execShri g d a imm s
  | .sar g d a b => Sys2Proof.Machine.execSar g d a b s
  | .sari g d a imm => Sys2Proof.Machine.execSari g d a imm s
  | .rot g d a b => Sys2Proof.Machine.execRot g d a b s
  | .neg g d a => Sys2Proof.Machine.execNeg g d a s
  | .abs g d a => Sys2Proof.Machine.execAbs g d a s
  | .not g d a => Sys2Proof.Machine.execNot g d a s
  | .popc g d a => Sys2Proof.Machine.execPopc g d a s
  | .clz g d a => Sys2Proof.Machine.execClz g d a s
  | .ctz g d a => Sys2Proof.Machine.execCtz g d a s
  | .brev g d a => Sys2Proof.Machine.execBrev g d a s
  | .bswap g d a => Sys2Proof.Machine.execBswap g d a s
  | .bfx g d a b => Sys2Proof.Machine.execBfx g d a b s
  | .bfi g d a b => Sys2Proof.Machine.execBfi g d a b s
  | .addc g d a b => Sys2Proof.Machine.execAddc g d a b s
  | .lea g d a b => Sys2Proof.Machine.execLea g d a b s
  | .mov g d a b => Sys2Proof.Machine.execMov g d a b s
  | .movi g d a imm => Sys2Proof.Machine.execMovi g d a imm s
  | .sad g d a b => Sys2Proof.Machine.execSad g d a b s
  | .fadd g d a b => Sys2Proof.Machine.execFadd g d a b s
  | .fsub g d a b => Sys2Proof.Machine.execFsub g d a b s
  | .fmul g d a b => Sys2Proof.Machine.execFmul g d a b s
  | .fma g d a b => Sys2Proof.Machine.execFma g d a b s
  | .fnma g d a b => Sys2Proof.Machine.execFnma g d a b s
  | .fmin g d a b => Sys2Proof.Machine.execFmin g d a b s
  | .fmax g d a b => Sys2Proof.Machine.execFmax g d a b s
  | .faddi g d a imm => Sys2Proof.Machine.execFaddi g d a imm s
  | .fmuli g d a imm => Sys2Proof.Machine.execFmuli g d a imm s
  | .fdot2 g d a b => Sys2Proof.Machine.execFdot2 g d a b s
  | .fscl g d a b => Sys2Proof.Machine.execFscl g d a b s
  | .fneg g d a => Sys2Proof.Machine.execFneg g d a s
  | .fabs g d a => Sys2Proof.Machine.execFabs g d a s
  | .frndRne g d a => Sys2Proof.Machine.execFrndRne g d a s
  | .frndRtz g d a => Sys2Proof.Machine.execFrndRtz g d a s
  | .frndRdn g d a => Sys2Proof.Machine.execFrndRdn g d a s
  | .frndRup g d a => Sys2Proof.Machine.execFrndRup g d a s
  | .cvt g d a c => Sys2Proof.Machine.execCvt g d a c s
  | .frcp g d a => Sys2Proof.Machine.execFrcp g d a s
  | .frsq g d a => Sys2Proof.Machine.execFrsq g d a s
  | .fsqrt g d a => Sys2Proof.Machine.execFsqrt g d a s
  | .fexp2 g d a => Sys2Proof.Machine.execFexp2 g d a s
  | .flog2 g d a => Sys2Proof.Machine.execFlog2 g d a s
  | .fsin g d a => Sys2Proof.Machine.execFsin g d a s
  | .fcos g d a => Sys2Proof.Machine.execFcos g d a s
  | .ftanh g d a => Sys2Proof.Machine.execFtanh g d a s
  | .fdiv g d a b => Sys2Proof.Machine.execFdiv g d a b s
  | .rndh g d a b => Sys2Proof.Machine.execRndh g d a b s
  | .rndq g d a b => Sys2Proof.Machine.execRndq g d a b s
  | .shfl g d a b => Sys2Proof.Machine.execShfl g d a b s
  | .shfx g d a imm => Sys2Proof.Machine.execShfx g d a imm s
  | .wred g d a o ord r0 => Sys2Proof.Machine.execWred g d a o ord r0 s
  | .wscan g d a o ord ex r0 => Sys2Proof.Machine.execWscan g d a o ord ex r0 s
  | .wscana g d a b => Sys2Proof.Machine.execWscana g d a b s
  | .rdl g d a b => Sys2Proof.Machine.execRdl g d a b s
  | .wrl g d a b => Sys2Proof.Machine.execWrl g d a b s
  | .salloc g d a imm => Sys2Proof.Machine.execSalloc g d a imm s
  | .sfree g d a imm => Sys2Proof.Machine.execSfree g d a imm s
  | .tlook g d a b => Sys2Proof.Machine.execTlook g d a b s
  | .tset g d a b => Sys2Proof.Machine.execTset g d a b s
  | .tinv g d a b => Sys2Proof.Machine.execTinv g d a b s
  | .lds g d a rd ps o => Sys2Proof.Machine.execLds g d a rd ps o s
  | .sts g d a rd ps o => Sys2Proof.Machine.execSts g d a rd ps o s
  | .vnmLo g d a => Sys2Proof.Machine.execVnmLo g d a s
  | .vnmHi g d a => Sys2Proof.Machine.execVnmHi g d a s
  | .wbase g d a imm => Sys2Proof.Machine.execWbase g d a imm s
  | .ldb g d a rd ps o => Sys2Proof.Machine.execLdb g d a rd ps o s
  | .ldh g d a rd ps o => Sys2Proof.Machine.execLdh g d a rd ps o s
  | .ldw g d a rd ps o => Sys2Proof.Machine.execLdw g d a rd ps o s
  | .ldd g d a rd ps o => Sys2Proof.Machine.execLdd g d a rd ps o s
  | .ldq g d a rd ps o => Sys2Proof.Machine.execLdq g d a rd ps o s
  | .ldbs g d a rd ps o => Sys2Proof.Machine.execLdbs g d a rd ps o s
  | .ldhs g d a rd ps o => Sys2Proof.Machine.execLdhs g d a rd ps o s
  | .stb g d a rd ps o => Sys2Proof.Machine.execStb g d a rd ps o s
  | .sth g d a rd ps o => Sys2Proof.Machine.execSth g d a rd ps o s
  | .stw g d a rd ps o => Sys2Proof.Machine.execStw g d a rd ps o s
  | .std g d a rd ps o => Sys2Proof.Machine.execStd g d a rd ps o s
  | .stq g d a rd ps o => Sys2Proof.Machine.execStq g d a rd ps o s
  | .atom g d a o t => Sys2Proof.Machine.execAtom g d a o t s
  | .red g d a o t => Sys2Proof.Machine.execRed g d a o t s
  | .cas g d a t => Sys2Proof.Machine.execCas g d a t s
  | .amxr g d a t => Sys2Proof.Machine.execAmxr g d a t s
  | .fence g d a k sc => Sys2Proof.Machine.execFence g d a k sc s
  | .prf g d a rd ps o => Sys2Proof.Machine.execPrf g d a rd ps o s
  | .cwb g d a => Sys2Proof.Machine.execCwb g d a s
  | .cinv g d a => Sys2Proof.Machine.execCinv g d a s
  | .cdrop g d a => Sys2Proof.Machine.execCdrop g d a s
  | .rdc g d a o t => Sys2Proof.Machine.execRdc g d a o t s
  | .cp g d a b => Sys2Proof.Machine.execCp g d a b s
  | .cp2d g d a b => Sys2Proof.Machine.execCp2d g d a b s
  | .gath g d a b => Sys2Proof.Machine.execGath g d a b s
  | .cpfr g d a b => Sys2Proof.Machine.execCpfr g d a b s
  | .cpmeta g d a b => Sys2Proof.Machine.execCpmeta g d a b s
  | .owait g d a imm => Sys2Proof.Machine.execOwait g d a imm s
  | .sinit g d a => Sys2Proof.Machine.execSinit g d a s
  | .sarr g d a => Sys2Proof.Machine.execSarr g d a s
  | .swait g d a => Sys2Proof.Machine.execSwait g d a s
  | .mma g t a b => Sys2Proof.Machine.execMma g t a b s
  | .mmaz g t a b => Sys2Proof.Machine.execMmaz g t a b s
  | .mmas g t a b => Sys2Proof.Machine.execMmas g t a b s
  | .mdrn g t d amx r5 => Sys2Proof.Machine.execMdrn g t d amx r5 s
  | .mdrnSt g t d amx r5 => Sys2Proof.Machine.execMdrnSt g t d amx r5 s
  | .mcfg g d a => Sys2Proof.Machine.execMcfg g d a s
  | .mzero g d a => Sys2Proof.Machine.execMzero g d a s
  | .maloc g d a => Sys2Proof.Machine.execMaloc g d a s
  | .mfree g d a => Sys2Proof.Machine.execMfree g d a s
  | .mburst g d a => Sys2Proof.Machine.execMburst g d a s
  | .mget g d a => Sys2Proof.Machine.execMget g d a s
  | .mput g d a => Sys2Proof.Machine.execMput g d a s
  | .coll g d a => Sys2Proof.Machine.execColl g d a s
  | .put g d a => Sys2Proof.Machine.execPut g d a s
  | .get g d a => Sys2Proof.Machine.execGet g d a s
  | .putv g d a => Sys2Proof.Machine.execPutv g d a s
  | .arm g d a => Sys2Proof.Machine.execArm g d a s
  | .await g d a => Sys2Proof.Machine.execAwait g d a s
  | .grank g d a => Sys2Proof.Machine.execGrank g d a s
  | .gsize g d a => Sys2Proof.Machine.execGsize g d a s
  | .chput g d a => Sys2Proof.Machine.execChput g d a s
  | .chget g d a => Sys2Proof.Machine.execChget g d a s
  | .submit g d a => Sys2Proof.Machine.execSubmit g d a s
  | .trig g d a => Sys2Proof.Machine.execTrig g d a s
  | .evpost g d a => Sys2Proof.Machine.execEvpost g d a s
  | .evwait g d a => Sys2Proof.Machine.execEvwait g d a s
  | .plrd g d a => Sys2Proof.Machine.execPlrd g d a s
  | .trap g d a => Sys2Proof.Machine.execTrap g d a s
  | .tfence g d a => Sys2Proof.Machine.execTfence g d a s
  | .mon g d a => Sys2Proof.Machine.execMon g d a s
  | .mwait g d a => Sys2Proof.Machine.execMwait g d a s
  | .rfe g d a => Sys2Proof.Machine.execRfe g d a s
  | .sysrd g d a => Sys2Proof.Machine.execSysrd g d a s
  | .syswr g d a => Sys2Proof.Machine.execSyswr g d a s
  | .sysset g d a => Sys2Proof.Machine.execSysset g d a s
  | .sysclr g d a => Sys2Proof.Machine.execSysclr g d a s
  | .renter g d a => Sys2Proof.Machine.execRenter g d a s
  | .rleave g d a => Sys2Proof.Machine.execRleave g d a s
  | .stamp g d a => Sys2Proof.Machine.execStamp g d a s
  | .brk g d a => Sys2Proof.Machine.execBrk g d a s
  | .fltrd g d a => Sys2Proof.Machine.execFltrd g d a s
  | .ext p => Sys2Proof.Machine.execExt p s
  | .hsch yld dep vt r => Sys2Proof.Machine.execHsch yld dep vt r s
  | .hmod c cen fresh sat r => Sys2Proof.Machine.execHmod c cen fresh sat r s
  | .illegalInstruction w => Sys2Proof.Machine.execIllegalInstruction w s
  | .gangSelection => Sys2Proof.Machine.execGangSelection s
  | .computeRetry => Sys2Proof.Machine.execComputeRetry s
  | .loopIterationEnd => Sys2Proof.Machine.execLoopIterationEnd s
  | .readReply => Sys2Proof.Machine.execReadReply s
  | .acknowledge => Sys2Proof.Machine.execAcknowledge s
  | .sallocGrant => Sys2Proof.Machine.execSallocGrant s
  | .allocationDeadlock => Sys2Proof.Machine.execAllocationDeadlock s
  | .burnisherMove => Sys2Proof.Machine.execBurnisherMove s
  | .bankEvacuation => Sys2Proof.Machine.execBankEvacuation s
  | .bankGroupWithdrawal => Sys2Proof.Machine.execBankGroupWithdrawal s
  | .taskGateStart => Sys2Proof.Machine.execTaskGateStart s
  | .matrixStart => Sys2Proof.Machine.execMatrixStart s
  | .tokenMove => Sys2Proof.Machine.execTokenMove s
  | .tokenHoldLimit => Sys2Proof.Machine.execTokenHoldLimit s
  | .operationRetire => Sys2Proof.Machine.execOperationRetire s
  | .translationWalk => Sys2Proof.Machine.execTranslationWalk s
  | .write => Sys2Proof.Machine.execWrite s
  | .readRequest => Sys2Proof.Machine.execReadRequest s
  | .leaseExpiry => Sys2Proof.Machine.execLeaseExpiry s
  | .syncSwitch => Sys2Proof.Machine.execSyncSwitch s
  | .reductionMerge => Sys2Proof.Machine.execReductionMerge s
  | .mwaitTimeout => Sys2Proof.Machine.execMwaitTimeout s
  | .stagingEarlyCommit => Sys2Proof.Machine.execStagingEarlyCommit s
  | .blockCommit => Sys2Proof.Machine.execBlockCommit s
  | .blockRollback => Sys2Proof.Machine.execBlockRollback s
  | .completionRecordWrite => Sys2Proof.Machine.execCompletionRecordWrite s
  | .proof => Sys2Proof.Machine.execProof s
  | .proofDeadline => Sys2Proof.Machine.execProofDeadline s
  | .dramRowSpare => Sys2Proof.Machine.execDramRowSpare s
  | .l2WayRetire => Sys2Proof.Machine.execL2WayRetire s
  | .dataFlit => Sys2Proof.Machine.execDataFlit s
  | .idleFlit => Sys2Proof.Machine.execIdleFlit s
  | .acknowledgeFlit => Sys2Proof.Machine.execAcknowledgeFlit s
  | .negativeAcknowledgeFlit => Sys2Proof.Machine.execNegativeAcknowledgeFlit s
  | .laneMapFlit => Sys2Proof.Machine.execLaneMapFlit s
  | .keyMarkerFlit => Sys2Proof.Machine.execKeyMarkerFlit s
  | .timeFlit => Sys2Proof.Machine.execTimeFlit s
  | .timeFlitSend => Sys2Proof.Machine.execTimeFlitSend s
  | .skewFence => Sys2Proof.Machine.execSkewFence s
  | .linkRetrain => Sys2Proof.Machine.execLinkRetrain s
  | .laneOutOfService => Sys2Proof.Machine.execLaneOutOfService s
  | .laneReturn => Sys2Proof.Machine.execLaneReturn s
  | .packetResend => Sys2Proof.Machine.execPacketResend s
  | .keySwitch => Sys2Proof.Machine.execKeySwitch s
  | .blockWrite => Sys2Proof.Machine.execBlockWrite s
  | .dropNotice => Sys2Proof.Machine.execDropNotice s
  | .reservationRequest => Sys2Proof.Machine.execReservationRequest s
  | .reservationGrant => Sys2Proof.Machine.execReservationGrant s
  | .reservationWindow => Sys2Proof.Machine.execReservationWindow s
  | .heartbeatSend => Sys2Proof.Machine.execHeartbeatSend s
  | .heartbeat => Sys2Proof.Machine.execHeartbeat s
  | .eventReceive => Sys2Proof.Machine.execEventReceive s
  | .eventQueuePost => Sys2Proof.Machine.execEventQueuePost s
  | .permitRefill => Sys2Proof.Machine.execPermitRefill s
  | .submitDelivery => Sys2Proof.Machine.execSubmitDelivery s
  | .finishDelivery => Sys2Proof.Machine.execFinishDelivery s
  | .blockedDelivery => Sys2Proof.Machine.execBlockedDelivery s
  | .faultGridDelivery => Sys2Proof.Machine.execFaultGridDelivery s
  | .faultRollbackDelivery => Sys2Proof.Machine.execFaultRollbackDelivery s
  | .chiplossDelivery => Sys2Proof.Machine.execChiplossDelivery s
  | .rejoinDelivery => Sys2Proof.Machine.execRejoinDelivery s
  | .capacityDelivery => Sys2Proof.Machine.execCapacityDelivery s
  | .triggerDelivery => Sys2Proof.Machine.execTriggerDelivery s
  | .digestDelivery => Sys2Proof.Machine.execDigestDelivery s
  | .energyDelivery => Sys2Proof.Machine.execEnergyDelivery s
  | .userDelivery => Sys2Proof.Machine.execUserDelivery s
  | .reservedEventDelivery => Sys2Proof.Machine.execReservedEventDelivery s
  | .chipSilence => Sys2Proof.Machine.execChipSilence s
  | .quorumTimeout => Sys2Proof.Machine.execQuorumTimeout s
  | .energyInterval => Sys2Proof.Machine.execEnergyInterval s
  | .finishReport => Sys2Proof.Machine.execFinishReport s
  | .triggerReport => Sys2Proof.Machine.execTriggerReport s
  | .blockStart => Sys2Proof.Machine.execBlockStart s
  | .eviction => Sys2Proof.Machine.execEviction s
  | .blockResume => Sys2Proof.Machine.execBlockResume s
  | .faultRecord => Sys2Proof.Machine.execFaultRecord s
  | .snapshotRequest => Sys2Proof.Machine.execSnapshotRequest s
  | .snapshot => Sys2Proof.Machine.execSnapshot s
  | .energyControllerStep => Sys2Proof.Machine.execEnergyControllerStep s
  | .powerCeilingTrip => Sys2Proof.Machine.execPowerCeilingTrip s
  | .powerCeilingRestore => Sys2Proof.Machine.execPowerCeilingRestore s
  | .thermalTrip => Sys2Proof.Machine.execThermalTrip s
  | .secureBoot => Sys2Proof.Machine.execSecureBoot s
  | .deviceReset => Sys2Proof.Machine.execDeviceReset s
  | .powerRemoval => Sys2Proof.Machine.execPowerRemoval s
  | .soloServiceStart => Sys2Proof.Machine.execSoloServiceStart s
  | .joiningStart => Sys2Proof.Machine.execJoiningStart s
  | .fullServiceStart => Sys2Proof.Machine.execFullServiceStart s
  | .hostSubmit => Sys2Proof.Machine.execHostSubmit s
  | .invalidate => Sys2Proof.Machine.execInvalidate s
  | .preEmpt => Sys2Proof.Machine.execPreEmpt s
  | .saveArea => Sys2Proof.Machine.execSaveArea s
  | .errorLog => Sys2Proof.Machine.execErrorLog s
  | .attest => Sys2Proof.Machine.execAttest s
  | .keyPage => Sys2Proof.Machine.execKeyPage s
  | .keyLinkSend => Sys2Proof.Machine.execKeyLinkSend s
  | .keyLinkReceive => Sys2Proof.Machine.execKeyLinkReceive s
  | .contextCreate => Sys2Proof.Machine.execContextCreate s
  | .contextDestroy => Sys2Proof.Machine.execContextDestroy s
  | .homeMap => Sys2Proof.Machine.execHomeMap s
  | .homeUnmap => Sys2Proof.Machine.execHomeUnmap s
  | .agree => Sys2Proof.Machine.execAgree s
  | .unknownCommand => Sys2Proof.Machine.execUnknownCommand s
  | .registerWrite => Sys2Proof.Machine.execRegisterWrite s
  | .hostHdmAccess => Sys2Proof.Machine.execHostHdmAccess s
  | .hostSnoop => Sys2Proof.Machine.execHostSnoop s
  | .releasePointReached => Sys2Proof.Machine.execReleasePointReached s
  | .countedPacketAdd => Sys2Proof.Machine.execCountedPacketAdd s
  | .hostWriteCompletion => Sys2Proof.Machine.execHostWriteCompletion s
  | .backInvalidateAnswer => Sys2Proof.Machine.execBackInvalidateAnswer s
  | .reportBatchDeadline => Sys2Proof.Machine.execReportBatchDeadline s
  | .missingRecordFetch => Sys2Proof.Machine.execMissingRecordFetch s
  | .buddyCopyRebuilt => Sys2Proof.Machine.execBuddyCopyRebuilt s

end Sys2Proof.Machine
end

