-- ==== Sys2Proof/WellFormed.lean ====
section
/-! DEFINITION. Which fields an assigned word may hold (02 R20, R39, R46, R47, R49). -/

namespace Sys2Proof

/-- A binary8 type code: 0x40 to 0x7F, bit 3 clear, bits [2:0] not zero (R39, R101). -/
def isB8 (c : Nat) : Bool := decide (0x40 ≤ c) && decide (c ≤ 0x7F) && decide (c / 8 % 2 = 0) && decide (c % 8 ≠ 0)

/-- The A-format pairs of `atom` (R20). -/
def atomAssigned (o : BitVec 4) (t : BitVec 3) : Bool :=
  match o.toNat with
  | 0 | 1 | 2 => true
  | 3 | 4 | 5 => decide (t.toNat < 4)
  | 6 => decide (t.toNat < 6)
  | _ => false

/-- The A-format pairs of `red` (R20): those of `atom` less exchange. -/
def redAssigned (o : BitVec 4) (t : BitVec 3) : Bool :=
  match o.toNat with
  | 0 | 1 | 2 => true
  | 3 | 4 | 5 => decide (t.toNat < 4)
  | _ => false

/-- The A-format pairs of `rdc` (R20, R255). -/
def rdcAssigned (o : BitVec 4) (_t : BitVec 3) : Bool := decide (o.toNat < 3)

/-- The types of `cas` (R20). -/
def casAssigned (t : BitVec 3) : Bool := decide (t.toNat < 6)

/-- The types of `amxr` (R20). -/
def amxrAssigned (t : BitVec 3) : Bool := decide (4 ≤ t.toNat)

/-- The kind and scope of a fence (R47). -/
def fenceAssigned (k sc : BitVec 2) : Bool := decide (k ≠ 3) && decide (sc ≠ 3)

/-- The operations of `wred` and `wscan` (R47). -/
def reduceAssigned (o : BitVec 4) : Bool := decide (o.toNat < 10)

/-- The class masks of `fcls` (R47). -/
def fclsAssigned (m : Code) : Bool := decide (m.extractLsb' 0 5 ≠ 0) && decide (m.extractLsb' 5 2 ≠ 3)

/-- The destination codes of `cvt` (R47, R146). -/
def cvtAssigned (c : Code) : Bool := decide (c.toNat ≤ 0x0B) || isB8 c.toNat

/-- The fields of an instruction hold values its encoding assigns. -/
def fieldsOk (i : Instr) : Bool :=
  match i with
  | .atom _ _ _ o t => atomAssigned o t
  | .red _ _ _ o t => redAssigned o t
  | .rdc _ _ _ o t => rdcAssigned o t
  | .cas _ _ _ t => casAssigned t
  | .amxr _ _ _ t => amxrAssigned t
  | .fence _ _ _ k sc => fenceAssigned k sc
  | .wred _ _ _ o _ _ => reduceAssigned o
  | .wscan _ _ _ o _ _ _ => reduceAssigned o
  | .fcls _ _ _ m => fclsAssigned m
  | .cvt _ _ _ c => cvtAssigned c
  | _ => true

end Sys2Proof
end

