-- ==== Sys2Proof/Decode.lean ====
section
/-! DEFINITION. Reading instruction words and writing them (02 R15, R16, R18 to R20, R42, R44 to R47).

`decodeWord` is total: a word that R49 leaves unassigned is the row ILLEGAL_INSTRUCTION, which carries it. -/

namespace Sys2Proof

/-- A word of the R, I, U, A, M or X layout: major, guard, d, a and the low seven bits (R16). -/
def wordR (op : Code) (g : BitVec 4) (d a b : Code) : Word := op ++ g ++ d ++ a ++ b

/-- A word of the B layout: major, guard and a 21-bit offset (R16). -/
def wordB (op : Code) (g : BitVec 4) (off : BitVec 21) : Word := op ++ g ++ off

/-- The major opcode of a word, [31:25] (R16). -/
def fMajor (w : Word) : Code := w.extractLsb' 25 7
/-- The guard field, [24:21]. -/
def fG (w : Word) : BitVec 4 := w.extractLsb' 21 4
/-- The d field, [20:14]. -/
def fD (w : Word) : Code := w.extractLsb' 14 7
/-- The a field, [13:7]. -/
def fA (w : Word) : Code := w.extractLsb' 7 7
/-- The b field, i7 or f7, [6:0]. -/
def fB (w : Word) : Code := w.extractLsb' 0 7
/-- The 21-bit offset of a branch, [20:0]. -/
def fOff (w : Word) : BitVec 21 := w.extractLsb' 0 21

/-- The word of a well-formed instruction; a step of the device that no word encodes gives none. -/
def encode (i : Instr) : Option Word :=
  match i with
  | .nop g d a b => some (wordR (0x00 : Code) g d a b)
  | .br g off => some (wordB (0x01 : Code) g off)
  | .brx g d a b => some (wordR (0x02 : Code) g d a b)
  | .call g off => some (wordB (0x03 : Code) g off)
  | .callx g d a b => some (wordR (0x04 : Code) g d a b)
  | .ret g d a b => some (wordR (0x05 : Code) g d a b)
  | .fork g d a i => some (wordR (0x06 : Code) g d a i)
  | .fend g d a b => some (wordR (0x07 : Code) g d a b)
  | .exit g d a b => some (wordR (0x08 : Code) g d a b)
  | .enrol g d a i => some (wordR (0x09 : Code) g d a i)
  | .join g d a i => some (wordR (0x0A : Code) g d a i)
  | .bar g d a i => some (wordR (0x0B : Code) g d a i)
  | .gbar g d a i => some (wordR (0x0C : Code) g d a i)
  | .loop g d a i => some (wordR (0x0D : Code) g d a i)
  | .lbrk g d a i => some (wordR (0x0E : Code) g d a i)
  | .vtype g d a i => some (wordR (0x0F : Code) g d a i)
  | .plog g d a b => some (wordR (0x10 : Code) g d a b)
  | .pmovGet g d a => some (wordR (0x11 : Code) g d a (0x00 : Code))
  | .pmovSet g d a => some (wordR (0x11 : Code) g d a (0x01 : Code))
  | .voteAny g d a => some (wordR (0x12 : Code) g d a (0x00 : Code))
  | .voteAll g d a => some (wordR (0x12 : Code) g d a (0x01 : Code))
  | .voteBallot g d a => some (wordR (0x12 : Code) g d a (0x02 : Code))
  | .voteUni g d a => some (wordR (0x12 : Code) g d a (0x03 : Code))
  | .cmp g d a b => some (wordR (0x13 : Code) g d a b)
  | .cmpi g d a i => some (wordR (0x14 : Code) g d a i)
  | .fcmp g d a b => some (wordR (0x15 : Code) g d a b)
  | .fcls g d a m => some (wordR (0x16 : Code) g d a m)
  | .sel g d a b => some (wordR (0x17 : Code) g d a b)
  | .add g d a b => some (wordR (0x18 : Code) g d a b)
  | .addi g d a i => some (wordR (0x19 : Code) g d a i)
  | .sub g d a b => some (wordR (0x1A : Code) g d a b)
  | .mul g d a b => some (wordR (0x1B : Code) g d a b)
  | .muli g d a i => some (wordR (0x1C : Code) g d a i)
  | .mulh g d a b => some (wordR (0x1D : Code) g d a b)
  | .mad g d a b => some (wordR (0x1E : Code) g d a b)
  | .div g d a b => some (wordR (0x1F : Code) g d a b)
  | .rem g d a b => some (wordR (0x20 : Code) g d a b)
  | .min g d a b => some (wordR (0x21 : Code) g d a b)
  | .max g d a b => some (wordR (0x22 : Code) g d a b)
  | .and g d a b => some (wordR (0x23 : Code) g d a b)
  | .andi g d a i => some (wordR (0x24 : Code) g d a i)
  | .or g d a b => some (wordR (0x25 : Code) g d a b)
  | .ori g d a i => some (wordR (0x26 : Code) g d a i)
  | .xor g d a b => some (wordR (0x27 : Code) g d a b)
  | .xori g d a i => some (wordR (0x28 : Code) g d a i)
  | .shl g d a b => some (wordR (0x29 : Code) g d a b)
  | .shli g d a i => some (wordR (0x2A : Code) g d a i)
  | .shr g d a b => some (wordR (0x2B : Code) g d a b)
  | .shri g d a i => some (wordR (0x2C : Code) g d a i)
  | .sar g d a b => some (wordR (0x2D : Code) g d a b)
  | .sari g d a i => some (wordR (0x2E : Code) g d a i)
  | .rot g d a b => some (wordR (0x2F : Code) g d a b)
  | .neg g d a => some (wordR (0x30 : Code) g d a (0x00 : Code))
  | .abs g d a => some (wordR (0x30 : Code) g d a (0x01 : Code))
  | .not g d a => some (wordR (0x30 : Code) g d a (0x02 : Code))
  | .popc g d a => some (wordR (0x30 : Code) g d a (0x03 : Code))
  | .clz g d a => some (wordR (0x30 : Code) g d a (0x04 : Code))
  | .ctz g d a => some (wordR (0x30 : Code) g d a (0x05 : Code))
  | .brev g d a => some (wordR (0x30 : Code) g d a (0x06 : Code))
  | .bswap g d a => some (wordR (0x30 : Code) g d a (0x07 : Code))
  | .bfx g d a b => some (wordR (0x31 : Code) g d a b)
  | .bfi g d a b => some (wordR (0x32 : Code) g d a b)
  | .addc g d a b => some (wordR (0x33 : Code) g d a b)
  | .lea g d a b => some (wordR (0x34 : Code) g d a b)
  | .mov g d a b => some (wordR (0x35 : Code) g d a b)
  | .movi g d a i => some (wordR (0x36 : Code) g d a i)
  | .sad g d a b => some (wordR (0x37 : Code) g d a b)
  | .fadd g d a b => some (wordR (0x38 : Code) g d a b)
  | .fsub g d a b => some (wordR (0x39 : Code) g d a b)
  | .fmul g d a b => some (wordR (0x3A : Code) g d a b)
  | .fma g d a b => some (wordR (0x3B : Code) g d a b)
  | .fnma g d a b => some (wordR (0x3C : Code) g d a b)
  | .fmin g d a b => some (wordR (0x3D : Code) g d a b)
  | .fmax g d a b => some (wordR (0x3E : Code) g d a b)
  | .faddi g d a i => some (wordR (0x3F : Code) g d a i)
  | .fmuli g d a i => some (wordR (0x40 : Code) g d a i)
  | .fdot2 g d a b => some (wordR (0x41 : Code) g d a b)
  | .fscl g d a b => some (wordR (0x42 : Code) g d a b)
  | .fneg g d a => some (wordR (0x43 : Code) g d a (0x00 : Code))
  | .fabs g d a => some (wordR (0x43 : Code) g d a (0x01 : Code))
  | .frndRne g d a => some (wordR (0x43 : Code) g d a (0x02 : Code))
  | .frndRtz g d a => some (wordR (0x43 : Code) g d a (0x03 : Code))
  | .frndRdn g d a => some (wordR (0x43 : Code) g d a (0x04 : Code))
  | .frndRup g d a => some (wordR (0x43 : Code) g d a (0x05 : Code))
  | .cvt g d a c => some (wordR (0x44 : Code) g d a c)
  | .frcp g d a => some (wordR (0x45 : Code) g d a (0x00 : Code))
  | .frsq g d a => some (wordR (0x45 : Code) g d a (0x01 : Code))
  | .fsqrt g d a => some (wordR (0x45 : Code) g d a (0x02 : Code))
  | .fexp2 g d a => some (wordR (0x45 : Code) g d a (0x03 : Code))
  | .flog2 g d a => some (wordR (0x45 : Code) g d a (0x04 : Code))
  | .fsin g d a => some (wordR (0x45 : Code) g d a (0x05 : Code))
  | .fcos g d a => some (wordR (0x45 : Code) g d a (0x06 : Code))
  | .ftanh g d a => some (wordR (0x45 : Code) g d a (0x07 : Code))
  | .fdiv g d a b => some (wordR (0x46 : Code) g d a b)
  | .rndh g d a b => some (wordR (0x47 : Code) g d a b)
  | .rndq g d a b => some (wordR (0x48 : Code) g d a b)
  | .shfl g d a b => some (wordR (0x49 : Code) g d a b)
  | .shfx g d a i => some (wordR (0x4A : Code) g d a i)
  | .wred g d a o ord r0 => some (wordR (0x4B : Code) g d a (o ++ ord ++ (0 : BitVec 1) ++ r0))
  | .wscan g d a o ord ex r0 => some (wordR (0x4C : Code) g d a (o ++ ord ++ ex ++ r0))
  | .wscana g d a b => some (wordR (0x4D : Code) g d a b)
  | .rdl g d a b => some (wordR (0x4E : Code) g d a b)
  | .wrl g d a b => some (wordR (0x4F : Code) g d a b)
  | .salloc g d a i => some (wordR (0x50 : Code) g d a i)
  | .sfree g d a i => some (wordR (0x51 : Code) g d a i)
  | .tlook g d a b => some (wordR (0x52 : Code) g d a b)
  | .tset g d a b => some (wordR (0x53 : Code) g d a b)
  | .tinv g d a b => some (wordR (0x54 : Code) g d a b)
  | .lds g d a rd ps o => some (wordR (0x55 : Code) g d a (rd ++ ps ++ o))
  | .sts g d a rd ps o => some (wordR (0x56 : Code) g d a (rd ++ ps ++ o))
  | .vnmLo g d a => some (wordR (0x57 : Code) g d a (0x00 : Code))
  | .vnmHi g d a => some (wordR (0x57 : Code) g d a (0x01 : Code))
  | .wbase g d a i => some (wordR (0x58 : Code) g d a i)
  | .ldb g d a rd ps o => some (wordR (0x59 : Code) g d a (rd ++ ps ++ o))
  | .ldh g d a rd ps o => some (wordR (0x5A : Code) g d a (rd ++ ps ++ o))
  | .ldw g d a rd ps o => some (wordR (0x5B : Code) g d a (rd ++ ps ++ o))
  | .ldd g d a rd ps o => some (wordR (0x5C : Code) g d a (rd ++ ps ++ o))
  | .ldq g d a rd ps o => some (wordR (0x5D : Code) g d a (rd ++ ps ++ o))
  | .ldbs g d a rd ps o => some (wordR (0x5E : Code) g d a (rd ++ ps ++ o))
  | .ldhs g d a rd ps o => some (wordR (0x5F : Code) g d a (rd ++ ps ++ o))
  | .stb g d a rd ps o => some (wordR (0x60 : Code) g d a (rd ++ ps ++ o))
  | .sth g d a rd ps o => some (wordR (0x61 : Code) g d a (rd ++ ps ++ o))
  | .stw g d a rd ps o => some (wordR (0x62 : Code) g d a (rd ++ ps ++ o))
  | .std g d a rd ps o => some (wordR (0x63 : Code) g d a (rd ++ ps ++ o))
  | .stq g d a rd ps o => some (wordR (0x64 : Code) g d a (rd ++ ps ++ o))
  | .atom g d a o t => some (wordR (0x65 : Code) g d a (o ++ t))
  | .red g d a o t => some (wordR (0x66 : Code) g d a (o ++ t))
  | .cas g d a t => some (wordR (0x67 : Code) g d a ((0 : BitVec 4) ++ t))
  | .amxr g d a t => some (wordR (0x68 : Code) g d a ((0 : BitVec 4) ++ t))
  | .fence g d a k sc => some (wordR (0x69 : Code) g d a (k ++ sc ++ (0 : BitVec 3)))
  | .prf g d a rd ps o => some (wordR (0x6A : Code) g d a (rd ++ ps ++ o))
  | .cwb g d a => some (wordR (0x6B : Code) g d a (0x00 : Code))
  | .cinv g d a => some (wordR (0x6B : Code) g d a (0x01 : Code))
  | .cdrop g d a => some (wordR (0x6B : Code) g d a (0x02 : Code))
  | .rdc g d a o t => some (wordR (0x6C : Code) g d a (o ++ t))
  | .cp g d a b => some (wordR (0x6D : Code) g d a b)
  | .cp2d g d a b => some (wordR (0x6E : Code) g d a b)
  | .gath g d a b => some (wordR (0x6F : Code) g d a b)
  | .cpfr g d a b => some (wordR (0x70 : Code) g d a b)
  | .cpmeta g d a b => some (wordR (0x71 : Code) g d a b)
  | .owait g d a i => some (wordR (0x72 : Code) g d a i)
  | .sinit g d a => some (wordR (0x73 : Code) g d a (0x00 : Code))
  | .sarr g d a => some (wordR (0x73 : Code) g d a (0x01 : Code))
  | .swait g d a => some (wordR (0x73 : Code) g d a (0x02 : Code))
  | .mma g t a b => some (wordR (0x74 : Code) g t a b)
  | .mmaz g t a b => some (wordR (0x75 : Code) g t a b)
  | .mmas g t a b => some (wordR (0x76 : Code) g t a b)
  | .mdrn g t d amx r5 => some (wordR (0x77 : Code) g t d ((0x0 : BitVec 1) ++ amx ++ r5))
  | .mdrnSt g t d amx r5 => some (wordR (0x77 : Code) g t d ((0x1 : BitVec 1) ++ amx ++ r5))
  | .mcfg g d a => some (wordR (0x78 : Code) g d a (0x00 : Code))
  | .mzero g d a => some (wordR (0x78 : Code) g d a (0x01 : Code))
  | .maloc g d a => some (wordR (0x78 : Code) g d a (0x02 : Code))
  | .mfree g d a => some (wordR (0x78 : Code) g d a (0x03 : Code))
  | .mburst g d a => some (wordR (0x78 : Code) g d a (0x04 : Code))
  | .mget g d a => some (wordR (0x79 : Code) g d a (0x00 : Code))
  | .mput g d a => some (wordR (0x79 : Code) g d a (0x01 : Code))
  | .coll g d a => some (wordR (0x7A : Code) g d a (0x00 : Code))
  | .put g d a => some (wordR (0x7A : Code) g d a (0x01 : Code))
  | .get g d a => some (wordR (0x7A : Code) g d a (0x02 : Code))
  | .putv g d a => some (wordR (0x7A : Code) g d a (0x03 : Code))
  | .arm g d a => some (wordR (0x7A : Code) g d a (0x04 : Code))
  | .await g d a => some (wordR (0x7A : Code) g d a (0x05 : Code))
  | .grank g d a => some (wordR (0x7A : Code) g d a (0x06 : Code))
  | .gsize g d a => some (wordR (0x7A : Code) g d a (0x07 : Code))
  | .chput g d a => some (wordR (0x7A : Code) g d a (0x08 : Code))
  | .chget g d a => some (wordR (0x7A : Code) g d a (0x09 : Code))
  | .submit g d a => some (wordR (0x7B : Code) g d a (0x00 : Code))
  | .trig g d a => some (wordR (0x7B : Code) g d a (0x01 : Code))
  | .evpost g d a => some (wordR (0x7B : Code) g d a (0x02 : Code))
  | .evwait g d a => some (wordR (0x7B : Code) g d a (0x03 : Code))
  | .plrd g d a => some (wordR (0x7B : Code) g d a (0x04 : Code))
  | .trap g d a => some (wordR (0x7B : Code) g d a (0x05 : Code))
  | .tfence g d a => some (wordR (0x7B : Code) g d a (0x06 : Code))
  | .mon g d a => some (wordR (0x7B : Code) g d a (0x07 : Code))
  | .mwait g d a => some (wordR (0x7B : Code) g d a (0x08 : Code))
  | .rfe g d a => some (wordR (0x7B : Code) g d a (0x09 : Code))
  | .sysrd g d a => some (wordR (0x7B : Code) g d a (0x0A : Code))
  | .syswr g d a => some (wordR (0x7B : Code) g d a (0x0B : Code))
  | .sysset g d a => some (wordR (0x7B : Code) g d a (0x0C : Code))
  | .sysclr g d a => some (wordR (0x7B : Code) g d a (0x0D : Code))
  | .renter g d a => some (wordR (0x7B : Code) g d a (0x0E : Code))
  | .rleave g d a => some (wordR (0x7B : Code) g d a (0x0F : Code))
  | .stamp g d a => some (wordR (0x7B : Code) g d a (0x10 : Code))
  | .brk g d a => some (wordR (0x7B : Code) g d a (0x11 : Code))
  | .fltrd g d a => some (wordR (0x7B : Code) g d a (0x12 : Code))
  | .ext p => some ((0x7C : Code) ++ p)
  | .hsch yld dep vt r => some ((0x7D : Code) ++ yld ++ dep ++ vt ++ r)
  | .hmod c cen fresh sat r => some ((0x7E : Code) ++ c ++ cen ++ fresh ++ sat ++ r)
  | .illegalInstruction w => some w
  | .gangSelection => none
  | .computeRetry => none
  | .loopIterationEnd => none
  | .readReply => none
  | .acknowledge => none
  | .sallocGrant => none
  | .allocationDeadlock => none
  | .burnisherMove => none
  | .bankEvacuation => none
  | .bankGroupWithdrawal => none
  | .taskGateStart => none
  | .matrixStart => none
  | .tokenMove => none
  | .tokenHoldLimit => none
  | .operationRetire => none
  | .translationWalk => none
  | .write => none
  | .readRequest => none
  | .leaseExpiry => none
  | .syncSwitch => none
  | .reductionMerge => none
  | .mwaitTimeout => none
  | .stagingEarlyCommit => none
  | .blockCommit => none
  | .blockRollback => none
  | .completionRecordWrite => none
  | .proof => none
  | .proofDeadline => none
  | .dramRowSpare => none
  | .l2WayRetire => none
  | .dataFlit => none
  | .idleFlit => none
  | .acknowledgeFlit => none
  | .negativeAcknowledgeFlit => none
  | .laneMapFlit => none
  | .keyMarkerFlit => none
  | .timeFlit => none
  | .timeFlitSend => none
  | .skewFence => none
  | .linkRetrain => none
  | .laneOutOfService => none
  | .laneReturn => none
  | .packetResend => none
  | .keySwitch => none
  | .blockWrite => none
  | .dropNotice => none
  | .reservationRequest => none
  | .reservationGrant => none
  | .reservationWindow => none
  | .heartbeatSend => none
  | .heartbeat => none
  | .eventReceive => none
  | .eventQueuePost => none
  | .permitRefill => none
  | .submitDelivery => none
  | .finishDelivery => none
  | .blockedDelivery => none
  | .faultGridDelivery => none
  | .faultRollbackDelivery => none
  | .chiplossDelivery => none
  | .rejoinDelivery => none
  | .capacityDelivery => none
  | .triggerDelivery => none
  | .digestDelivery => none
  | .energyDelivery => none
  | .userDelivery => none
  | .reservedEventDelivery => none
  | .chipSilence => none
  | .quorumTimeout => none
  | .energyInterval => none
  | .finishReport => none
  | .triggerReport => none
  | .blockStart => none
  | .eviction => none
  | .blockResume => none
  | .faultRecord => none
  | .snapshotRequest => none
  | .snapshot => none
  | .energyControllerStep => none
  | .powerCeilingTrip => none
  | .powerCeilingRestore => none
  | .thermalTrip => none
  | .secureBoot => none
  | .deviceReset => none
  | .powerRemoval => none
  | .soloServiceStart => none
  | .joiningStart => none
  | .fullServiceStart => none
  | .hostSubmit => none
  | .invalidate => none
  | .preEmpt => none
  | .saveArea => none
  | .errorLog => none
  | .attest => none
  | .keyPage => none
  | .keyLinkSend => none
  | .keyLinkReceive => none
  | .contextCreate => none
  | .contextDestroy => none
  | .homeMap => none
  | .homeUnmap => none
  | .agree => none
  | .unknownCommand => none
  | .registerWrite => none
  | .hostHdmAccess => none
  | .hostSnoop => none
  | .releasePointReached => none
  | .countedPacketAdd => none
  | .hostWriteCompletion => none
  | .backInvalidateAnswer => none
  | .reportBatchDeadline => none
  | .missingRecordFetch => none
  | .buddyCopyRebuilt => none

/-- The word of an instruction, 0 (`nop`) for a step that no word encodes. -/
def encodeWord (i : Instr) : Word := (encode i).getD 0

/-- The functions of major 0x11 (R46, R47). -/
def decodeGroup11 (w : Word) : Instr :=
  match (fB w).toNat with
  | 0 => .pmovGet (fG w) (fD w) (fA w)
  | 1 => .pmovSet (fG w) (fD w) (fA w)
  | _ => .illegalInstruction w

/-- The functions of major 0x12 (R46, R47). -/
def decodeGroup12 (w : Word) : Instr :=
  match (fB w).toNat with
  | 0 => .voteAny (fG w) (fD w) (fA w)
  | 1 => .voteAll (fG w) (fD w) (fA w)
  | 2 => .voteBallot (fG w) (fD w) (fA w)
  | 3 => .voteUni (fG w) (fD w) (fA w)
  | _ => .illegalInstruction w

/-- The functions of major 0x30 (R46, R47). -/
def decodeGroup30 (w : Word) : Instr :=
  match (fB w).toNat with
  | 0 => .neg (fG w) (fD w) (fA w)
  | 1 => .abs (fG w) (fD w) (fA w)
  | 2 => .not (fG w) (fD w) (fA w)
  | 3 => .popc (fG w) (fD w) (fA w)
  | 4 => .clz (fG w) (fD w) (fA w)
  | 5 => .ctz (fG w) (fD w) (fA w)
  | 6 => .brev (fG w) (fD w) (fA w)
  | 7 => .bswap (fG w) (fD w) (fA w)
  | _ => .illegalInstruction w

/-- The functions of major 0x43 (R46, R47). -/
def decodeGroup43 (w : Word) : Instr :=
  match (fB w).toNat with
  | 0 => .fneg (fG w) (fD w) (fA w)
  | 1 => .fabs (fG w) (fD w) (fA w)
  | 2 => .frndRne (fG w) (fD w) (fA w)
  | 3 => .frndRtz (fG w) (fD w) (fA w)
  | 4 => .frndRdn (fG w) (fD w) (fA w)
  | 5 => .frndRup (fG w) (fD w) (fA w)
  | _ => .illegalInstruction w

/-- The functions of major 0x45 (R46, R47). -/
def decodeGroup45 (w : Word) : Instr :=
  match (fB w).toNat with
  | 0 => .frcp (fG w) (fD w) (fA w)
  | 1 => .frsq (fG w) (fD w) (fA w)
  | 2 => .fsqrt (fG w) (fD w) (fA w)
  | 3 => .fexp2 (fG w) (fD w) (fA w)
  | 4 => .flog2 (fG w) (fD w) (fA w)
  | 5 => .fsin (fG w) (fD w) (fA w)
  | 6 => .fcos (fG w) (fD w) (fA w)
  | 7 => .ftanh (fG w) (fD w) (fA w)
  | _ => .illegalInstruction w

/-- The functions of major 0x57 (R46, R47). -/
def decodeGroup57 (w : Word) : Instr :=
  match (fB w).toNat with
  | 0 => .vnmLo (fG w) (fD w) (fA w)
  | 1 => .vnmHi (fG w) (fD w) (fA w)
  | _ => .illegalInstruction w

/-- The functions of major 0x6B (R46, R47). -/
def decodeGroup6B (w : Word) : Instr :=
  match (fB w).toNat with
  | 0 => .cwb (fG w) (fD w) (fA w)
  | 1 => .cinv (fG w) (fD w) (fA w)
  | 2 => .cdrop (fG w) (fD w) (fA w)
  | _ => .illegalInstruction w

/-- The functions of major 0x73 (R46, R47). -/
def decodeGroup73 (w : Word) : Instr :=
  match (fB w).toNat with
  | 0 => .sinit (fG w) (fD w) (fA w)
  | 1 => .sarr (fG w) (fD w) (fA w)
  | 2 => .swait (fG w) (fD w) (fA w)
  | _ => .illegalInstruction w

/-- The functions of major 0x78 (R46, R47). -/
def decodeGroup78 (w : Word) : Instr :=
  match (fB w).toNat with
  | 0 => .mcfg (fG w) (fD w) (fA w)
  | 1 => .mzero (fG w) (fD w) (fA w)
  | 2 => .maloc (fG w) (fD w) (fA w)
  | 3 => .mfree (fG w) (fD w) (fA w)
  | 4 => .mburst (fG w) (fD w) (fA w)
  | _ => .illegalInstruction w

/-- The functions of major 0x79 (R46, R47). -/
def decodeGroup79 (w : Word) : Instr :=
  match (fB w).toNat with
  | 0 => .mget (fG w) (fD w) (fA w)
  | 1 => .mput (fG w) (fD w) (fA w)
  | _ => .illegalInstruction w

/-- The functions of major 0x7A (R46, R47). -/
def decodeGroup7A (w : Word) : Instr :=
  match (fB w).toNat with
  | 0 => .coll (fG w) (fD w) (fA w)
  | 1 => .put (fG w) (fD w) (fA w)
  | 2 => .get (fG w) (fD w) (fA w)
  | 3 => .putv (fG w) (fD w) (fA w)
  | 4 => .arm (fG w) (fD w) (fA w)
  | 5 => .await (fG w) (fD w) (fA w)
  | 6 => .grank (fG w) (fD w) (fA w)
  | 7 => .gsize (fG w) (fD w) (fA w)
  | 8 => .chput (fG w) (fD w) (fA w)
  | 9 => .chget (fG w) (fD w) (fA w)
  | _ => .illegalInstruction w

/-- The functions of major 0x7B (R46, R47). -/
def decodeGroup7B (w : Word) : Instr :=
  match (fB w).toNat with
  | 0 => .submit (fG w) (fD w) (fA w)
  | 1 => .trig (fG w) (fD w) (fA w)
  | 2 => .evpost (fG w) (fD w) (fA w)
  | 3 => .evwait (fG w) (fD w) (fA w)
  | 4 => .plrd (fG w) (fD w) (fA w)
  | 5 => .trap (fG w) (fD w) (fA w)
  | 6 => .tfence (fG w) (fD w) (fA w)
  | 7 => .mon (fG w) (fD w) (fA w)
  | 8 => .mwait (fG w) (fD w) (fA w)
  | 9 => .rfe (fG w) (fD w) (fA w)
  | 10 => .sysrd (fG w) (fD w) (fA w)
  | 11 => .syswr (fG w) (fD w) (fA w)
  | 12 => .sysset (fG w) (fD w) (fA w)
  | 13 => .sysclr (fG w) (fD w) (fA w)
  | 14 => .renter (fG w) (fD w) (fA w)
  | 15 => .rleave (fG w) (fD w) (fA w)
  | 16 => .stamp (fG w) (fD w) (fA w)
  | 17 => .brk (fG w) (fD w) (fA w)
  | 18 => .fltrd (fG w) (fD w) (fA w)
  | _ => .illegalInstruction w

/-- The instruction that a word is (R45 to R49). -/
def decodeWord (w : Word) : Instr :=
  match (fMajor w).toNat with
  | 0x00 => .nop (fG w) (fD w) (fA w) (fB w)
  | 0x01 => .br (fG w) (fOff w)
  | 0x02 => .brx (fG w) (fD w) (fA w) (fB w)
  | 0x03 => .call (fG w) (fOff w)
  | 0x04 => .callx (fG w) (fD w) (fA w) (fB w)
  | 0x05 => .ret (fG w) (fD w) (fA w) (fB w)
  | 0x06 => .fork (fG w) (fD w) (fA w) (fB w)
  | 0x07 => .fend (fG w) (fD w) (fA w) (fB w)
  | 0x08 => .exit (fG w) (fD w) (fA w) (fB w)
  | 0x09 => .enrol (fG w) (fD w) (fA w) (fB w)
  | 0x0A => .join (fG w) (fD w) (fA w) (fB w)
  | 0x0B => .bar (fG w) (fD w) (fA w) (fB w)
  | 0x0C => .gbar (fG w) (fD w) (fA w) (fB w)
  | 0x0D => .loop (fG w) (fD w) (fA w) (fB w)
  | 0x0E => .lbrk (fG w) (fD w) (fA w) (fB w)
  | 0x0F => .vtype (fG w) (fD w) (fA w) (fB w)
  | 0x10 => .plog (fG w) (fD w) (fA w) (fB w)
  | 0x11 => decodeGroup11 w
  | 0x12 => decodeGroup12 w
  | 0x13 => .cmp (fG w) (fD w) (fA w) (fB w)
  | 0x14 => .cmpi (fG w) (fD w) (fA w) (fB w)
  | 0x15 => .fcmp (fG w) (fD w) (fA w) (fB w)
  | 0x16 => if fclsAssigned (fB w) then .fcls (fG w) (fD w) (fA w) (fB w) else .illegalInstruction w
  | 0x17 => .sel (fG w) (fD w) (fA w) (fB w)
  | 0x18 => .add (fG w) (fD w) (fA w) (fB w)
  | 0x19 => .addi (fG w) (fD w) (fA w) (fB w)
  | 0x1A => .sub (fG w) (fD w) (fA w) (fB w)
  | 0x1B => .mul (fG w) (fD w) (fA w) (fB w)
  | 0x1C => .muli (fG w) (fD w) (fA w) (fB w)
  | 0x1D => .mulh (fG w) (fD w) (fA w) (fB w)
  | 0x1E => .mad (fG w) (fD w) (fA w) (fB w)
  | 0x1F => .div (fG w) (fD w) (fA w) (fB w)
  | 0x20 => .rem (fG w) (fD w) (fA w) (fB w)
  | 0x21 => .min (fG w) (fD w) (fA w) (fB w)
  | 0x22 => .max (fG w) (fD w) (fA w) (fB w)
  | 0x23 => .and (fG w) (fD w) (fA w) (fB w)
  | 0x24 => .andi (fG w) (fD w) (fA w) (fB w)
  | 0x25 => .or (fG w) (fD w) (fA w) (fB w)
  | 0x26 => .ori (fG w) (fD w) (fA w) (fB w)
  | 0x27 => .xor (fG w) (fD w) (fA w) (fB w)
  | 0x28 => .xori (fG w) (fD w) (fA w) (fB w)
  | 0x29 => .shl (fG w) (fD w) (fA w) (fB w)
  | 0x2A => .shli (fG w) (fD w) (fA w) (fB w)
  | 0x2B => .shr (fG w) (fD w) (fA w) (fB w)
  | 0x2C => .shri (fG w) (fD w) (fA w) (fB w)
  | 0x2D => .sar (fG w) (fD w) (fA w) (fB w)
  | 0x2E => .sari (fG w) (fD w) (fA w) (fB w)
  | 0x2F => .rot (fG w) (fD w) (fA w) (fB w)
  | 0x30 => decodeGroup30 w
  | 0x31 => .bfx (fG w) (fD w) (fA w) (fB w)
  | 0x32 => .bfi (fG w) (fD w) (fA w) (fB w)
  | 0x33 => .addc (fG w) (fD w) (fA w) (fB w)
  | 0x34 => .lea (fG w) (fD w) (fA w) (fB w)
  | 0x35 => .mov (fG w) (fD w) (fA w) (fB w)
  | 0x36 => .movi (fG w) (fD w) (fA w) (fB w)
  | 0x37 => .sad (fG w) (fD w) (fA w) (fB w)
  | 0x38 => .fadd (fG w) (fD w) (fA w) (fB w)
  | 0x39 => .fsub (fG w) (fD w) (fA w) (fB w)
  | 0x3A => .fmul (fG w) (fD w) (fA w) (fB w)
  | 0x3B => .fma (fG w) (fD w) (fA w) (fB w)
  | 0x3C => .fnma (fG w) (fD w) (fA w) (fB w)
  | 0x3D => .fmin (fG w) (fD w) (fA w) (fB w)
  | 0x3E => .fmax (fG w) (fD w) (fA w) (fB w)
  | 0x3F => .faddi (fG w) (fD w) (fA w) (fB w)
  | 0x40 => .fmuli (fG w) (fD w) (fA w) (fB w)
  | 0x41 => .fdot2 (fG w) (fD w) (fA w) (fB w)
  | 0x42 => .fscl (fG w) (fD w) (fA w) (fB w)
  | 0x43 => decodeGroup43 w
  | 0x44 => if cvtAssigned (fB w) then .cvt (fG w) (fD w) (fA w) (fB w) else .illegalInstruction w
  | 0x45 => decodeGroup45 w
  | 0x46 => .fdiv (fG w) (fD w) (fA w) (fB w)
  | 0x47 => .rndh (fG w) (fD w) (fA w) (fB w)
  | 0x48 => .rndq (fG w) (fD w) (fA w) (fB w)
  | 0x49 => .shfl (fG w) (fD w) (fA w) (fB w)
  | 0x4A => .shfx (fG w) (fD w) (fA w) (fB w)
  | 0x4B => if reduceAssigned (w.extractLsb' 3 4) ∧ w.extractLsb' 1 1 = 0 then .wred (fG w) (fD w) (fA w) (w.extractLsb' 3 4) (w.extractLsb' 2 1) (w.extractLsb' 0 1) else .illegalInstruction w
  | 0x4C => if reduceAssigned (w.extractLsb' 3 4) then .wscan (fG w) (fD w) (fA w) (w.extractLsb' 3 4) (w.extractLsb' 2 1) (w.extractLsb' 1 1) (w.extractLsb' 0 1) else .illegalInstruction w
  | 0x4D => .wscana (fG w) (fD w) (fA w) (fB w)
  | 0x4E => .rdl (fG w) (fD w) (fA w) (fB w)
  | 0x4F => .wrl (fG w) (fD w) (fA w) (fB w)
  | 0x50 => .salloc (fG w) (fD w) (fA w) (fB w)
  | 0x51 => .sfree (fG w) (fD w) (fA w) (fB w)
  | 0x52 => .tlook (fG w) (fD w) (fA w) (fB w)
  | 0x53 => .tset (fG w) (fD w) (fA w) (fB w)
  | 0x54 => .tinv (fG w) (fD w) (fA w) (fB w)
  | 0x55 => .lds (fG w) (fD w) (fA w) (w.extractLsb' 5 2) (w.extractLsb' 3 2) (w.extractLsb' 0 3)
  | 0x56 => .sts (fG w) (fD w) (fA w) (w.extractLsb' 5 2) (w.extractLsb' 3 2) (w.extractLsb' 0 3)
  | 0x57 => decodeGroup57 w
  | 0x58 => .wbase (fG w) (fD w) (fA w) (fB w)
  | 0x59 => .ldb (fG w) (fD w) (fA w) (w.extractLsb' 5 2) (w.extractLsb' 3 2) (w.extractLsb' 0 3)
  | 0x5A => .ldh (fG w) (fD w) (fA w) (w.extractLsb' 5 2) (w.extractLsb' 3 2) (w.extractLsb' 0 3)
  | 0x5B => .ldw (fG w) (fD w) (fA w) (w.extractLsb' 5 2) (w.extractLsb' 3 2) (w.extractLsb' 0 3)
  | 0x5C => .ldd (fG w) (fD w) (fA w) (w.extractLsb' 5 2) (w.extractLsb' 3 2) (w.extractLsb' 0 3)
  | 0x5D => .ldq (fG w) (fD w) (fA w) (w.extractLsb' 5 2) (w.extractLsb' 3 2) (w.extractLsb' 0 3)
  | 0x5E => .ldbs (fG w) (fD w) (fA w) (w.extractLsb' 5 2) (w.extractLsb' 3 2) (w.extractLsb' 0 3)
  | 0x5F => .ldhs (fG w) (fD w) (fA w) (w.extractLsb' 5 2) (w.extractLsb' 3 2) (w.extractLsb' 0 3)
  | 0x60 => .stb (fG w) (fD w) (fA w) (w.extractLsb' 5 2) (w.extractLsb' 3 2) (w.extractLsb' 0 3)
  | 0x61 => .sth (fG w) (fD w) (fA w) (w.extractLsb' 5 2) (w.extractLsb' 3 2) (w.extractLsb' 0 3)
  | 0x62 => .stw (fG w) (fD w) (fA w) (w.extractLsb' 5 2) (w.extractLsb' 3 2) (w.extractLsb' 0 3)
  | 0x63 => .std (fG w) (fD w) (fA w) (w.extractLsb' 5 2) (w.extractLsb' 3 2) (w.extractLsb' 0 3)
  | 0x64 => .stq (fG w) (fD w) (fA w) (w.extractLsb' 5 2) (w.extractLsb' 3 2) (w.extractLsb' 0 3)
  | 0x65 => if atomAssigned (w.extractLsb' 3 4) (w.extractLsb' 0 3) then .atom (fG w) (fD w) (fA w) (w.extractLsb' 3 4) (w.extractLsb' 0 3) else .illegalInstruction w
  | 0x66 => if redAssigned (w.extractLsb' 3 4) (w.extractLsb' 0 3) then .red (fG w) (fD w) (fA w) (w.extractLsb' 3 4) (w.extractLsb' 0 3) else .illegalInstruction w
  | 0x67 => if w.extractLsb' 3 4 = 0 ∧ casAssigned (w.extractLsb' 0 3) then .cas (fG w) (fD w) (fA w) (w.extractLsb' 0 3) else .illegalInstruction w
  | 0x68 => if w.extractLsb' 3 4 = 0 ∧ amxrAssigned (w.extractLsb' 0 3) then .amxr (fG w) (fD w) (fA w) (w.extractLsb' 0 3) else .illegalInstruction w
  | 0x69 => if fenceAssigned (w.extractLsb' 5 2) (w.extractLsb' 3 2) ∧ w.extractLsb' 0 3 = 0 then .fence (fG w) (fD w) (fA w) (w.extractLsb' 5 2) (w.extractLsb' 3 2) else .illegalInstruction w
  | 0x6A => .prf (fG w) (fD w) (fA w) (w.extractLsb' 5 2) (w.extractLsb' 3 2) (w.extractLsb' 0 3)
  | 0x6B => decodeGroup6B w
  | 0x6C => if rdcAssigned (w.extractLsb' 3 4) (w.extractLsb' 0 3) then .rdc (fG w) (fD w) (fA w) (w.extractLsb' 3 4) (w.extractLsb' 0 3) else .illegalInstruction w
  | 0x6D => .cp (fG w) (fD w) (fA w) (fB w)
  | 0x6E => .cp2d (fG w) (fD w) (fA w) (fB w)
  | 0x6F => .gath (fG w) (fD w) (fA w) (fB w)
  | 0x70 => .cpfr (fG w) (fD w) (fA w) (fB w)
  | 0x71 => .cpmeta (fG w) (fD w) (fA w) (fB w)
  | 0x72 => .owait (fG w) (fD w) (fA w) (fB w)
  | 0x73 => decodeGroup73 w
  | 0x74 => .mma (fG w) (fD w) (fA w) (fB w)
  | 0x75 => .mmaz (fG w) (fD w) (fA w) (fB w)
  | 0x76 => .mmas (fG w) (fD w) (fA w) (fB w)
  | 0x77 => if w.extractLsb' 6 1 = 0 then .mdrn (fG w) (fD w) (fA w) (w.extractLsb' 5 1) (w.extractLsb' 0 5) else .mdrnSt (fG w) (fD w) (fA w) (w.extractLsb' 5 1) (w.extractLsb' 0 5)
  | 0x78 => decodeGroup78 w
  | 0x79 => decodeGroup79 w
  | 0x7A => decodeGroup7A w
  | 0x7B => decodeGroup7B w
  | 0x7C => .ext (w.extractLsb' 0 25)
  | 0x7D => .hsch (w.extractLsb' 24 1) (w.extractLsb' 20 4) (w.extractLsb' 19 1) (w.extractLsb' 0 19)
  | 0x7E => .hmod (w.extractLsb' 18 7) (w.extractLsb' 17 1) (w.extractLsb' 16 1) (w.extractLsb' 15 1) (w.extractLsb' 0 15)
  | _ => .illegalInstruction w

/-- A well-formed instruction: one that some word encodes, or a step of the device. -/
def WellFormed (i : Instr) : Bool :=
  fieldsOk i && (match i with
    | .illegalInstruction w => decide (decodeWord w = .illegalInstruction w)
    | _ => true)

/-- Why bytes give no instruction. -/
inductive DecodeError
  /-- Fewer than four bytes stand there (R15). -/
  | truncated
deriving DecidableEq, Repr

/-- The word whose four bytes, lowest address first, are given (R3, R15). -/
def wordOfBytes (b0 b1 b2 b3 : Byte) : Word := b3 ++ b2 ++ b1 ++ b0

/-- The first instruction of a byte string and the rest of the string. -/
def decodeBytes : List Byte → Except DecodeError (Instr × List Byte)
  | b0 :: b1 :: b2 :: b3 :: r => .ok (decodeWord (wordOfBytes b0 b1 b2 b3), r)
  | _ => .error .truncated

/-- The decoder's reading of an instruction whose bits are `w`, numbered as the opcode table numbers them. -/
def decodeTableWord (_nbits w : Nat) : Option Instr :=
  let x : Word := BitVec.ofNat 32 w
  match decodeBytes [x.extractLsb' 0 8, x.extractLsb' 8 8, x.extractLsb' 16 8, x.extractLsb' 24 8] with
  | .ok (i, _) => some i
  | .error _ => none

end Sys2Proof
end

