-- ==== Sys2Proof/Machine/Fetch.lean ====
section
/-! DEFINITION. Fetching the issuing gang's next word, the order in which the machine's happenings are taken, and placing a word
where the next step fetches it (02 R15; 08 R239). -/

namespace Sys2Proof.Machine

/-- What stands at an address from which the issuing gang fetches. -/
inductive Fetched
  /-- The word's memory key. -/
  | key (key : Nat)
  | fault (c : Cause)
  | miss (home off : Nat)
  /-- The gang stands at the end of its warp's innermost loop iteration: it arrives there and issues nothing (R75). -/
  | loopEnd
  /-- There is no such gang. -/
  | gone
deriving DecidableEq, Repr

/-- Translation of an issuing gang's next word (R239). -/
def State.fetchPlace (s : State) (k : Nat) (m : Lanes) : Fetched :=
  match s.warp? k with
  | none => .gone
  | some w =>
    match w.gang? m, s.block? w.node with
    | some g, some b =>
      if g.pfx.words = 0 ∧ (w.innerLoop.map fun x => loopEndPc (s.codeBase w) x.2) = some g.pc then .loopEnd
      else match s.access b.chip b.ctx .fetch g.pc with
      | .ok key _ => .key key
      | .fault c => .fault c
      | .miss h o => .miss h o
    | _, _ => .gone

/-- The word at a memory key (R3, R15). -/
def State.wordAt (s : State) (key : Nat) : Word := BitVec.ofNat 32 (leNat (memBytes s.mem key 4))

/-- What a fetch that cannot be answered does: a fault traps at the word (R239), a miss waits for its walk; a gang that was
released at the end of a loop iteration arrives there (R75). In neither of the last two is the gang ready: its port's selection
cycle goes on. -/
def State.fetchMiss (s : State) (k : Nat) (m : Lanes) (f : Fetched) : State :=
  match f, s.warp? k with
  | .fault c, some w =>
    match w.gang? m with
    | some g =>
      -- the trap whose handler this is is unhandled (R239, R390)
      if w.intrap ∧ g.pfx.words = 0 ∧ g.pc = w.trapvec.toNat then (s.unhandled w (w.trapcause.extractLsb' 0 8).toNat).retire k
      else
      let first := g.pfx.firstOf g.pc g.pfx.ext.length
      ((s.modWarp k fun w => w.addWarn g.pfx.lost).takeTrap k m first ((g.pc - first) / 4 + 1) (g.pc + 4)
        { cause := c, sub := 4, lane := (lowestLane m).getD 0, addr := g.pc }).retire k
    | none => { s with issuing := none }
  | .miss h o, some w =>
    match s.block? w.node with
    | some b =>
      let r := s.beginWalk b.chip b.ctx h o
      { r.1.modWarp k (fun w => w.modGang m fun g =>
          { g with pc := if g.pfx.words = 0 then g.pc else g.pfx.start, pfx := {}, waits := 0, wait := .stall (.walk r.2) }) with
        issuing := none
        reselect := some w.portNum }
    | none => { s with issuing := none }
  | .loopEnd, some w => { s.retire k with reselect := some w.portNum }
  | _, _ => { s with issuing := none }

/-- The next step's instruction, with the state in which it runs. -/
inductive Next
  /-- The word that the issuing gang fetched. -/
  | word (i : Instr) (s : State)
  /-- A happening of the device. -/
  | event (i : Instr) (s : State)
  /-- A fetch that gives no word, or nothing at all to do. -/
  | idle (s : State)

/-- One step less to go for the happenings under way (log 2: DESIGN CHOICE). -/
def State.ticked (s : State) : State := { s with agenda := s.agenda.map fun d => { d with wait := d.wait - 1 } }

/-- Takes the first happening that is due out of the agenda; a message that a link still carries is not (R335). -/
def takeDue : List Due → Option (Due × List Due)
  | [] => none
  | d :: r => if d.wait = 0 ∧ d.held = false then some (d, r) else (takeDue r).map fun p => (p.1, d :: p.2)

/-- The ports that hold a resident warp, and which comes after the last (log 2: DESIGN CHOICE). -/
def State.nextPort (s : State) : Option Nat :=
  let ports := (s.warps.filter fun p => p.2.resident).map fun p => p.2.core * 4 + p.2.port
  let least := fun (l : List Nat) => l.foldl (fun a x => match a with
    | some y => some (min x y)
    | none => some x) none
  (least (ports.filter fun x => decide (s.turn ≤ x))).orElse fun _ => least ports

/-- What the next step does (log 2: DESIGN CHOICE): the issuing gang's word; else the rest of a selection cycle whose gang could
not issue; else a happening that is due, unless the last step took one; else a port's selection cycle. -/
def State.following (s : State) : Next :=
  match s.issuing with
  | some (k, m) =>
    match s.fetchPlace k m with
    | .key key => .word (decodeWord (s.wordAt key)) s
    | f => .idle (s.fetchMiss k m f)
  | none => match s.reselect with
  | some p => .event .gangSelection { s with reselect := none, cue := { core := p / 4, port := p % 4, num := 1 } }
  | none =>
    let s := s.ticked
    match (if s.took then none else takeDue s.agenda) with
    | some (d, r) => .event d.ev { s with agenda := r, cue := d.cue, took := true }
    | none =>
      let s := { s with took := false }
      match s.nextPort with
      | some p => .event .gangSelection { s with turn := p + 1, cue := { core := p / 4, port := p % 4 } }
      | none => .idle s

/-- A chip slews its copy of pod time as `n` ns pass: back by no more than passes, so that it never runs backwards (R337). -/
def Chip.slewed (n : Nat) (c : Chip) : Chip :=
  let d := max c.slew (-(n : Int))
  { c with offset := c.offset + d, slew := c.slew - d }

/-- A chip of the table slews, unless that would take it more than 10 ns from a chip in full service (R268; log 36: DESIGN CHOICE). -/
def slewOne (n : Nat) (t : Tab Chip) (x : Nat) : Tab Chip :=
  match tabLook t x with
  | none => t
  | some c => if c.slew = 0 ∨ !inStep (tabPut t x (c.slewed n)) x then t else tabPut t x (c.slewed n)

/-- Pod time passes; how much is a free value (log 3: DESIGN CHOICE). -/
def State.later (s : State) : State :=
  { s with
    now := s.now + Config.elapse s.fresh
    fresh := s.fresh + 1
    chips := if s.chips.any fun p => decide (p.2.slew ≠ 0) then (tabKeys s.chips).foldl (slewOne (Config.elapse s.fresh)) s.chips else s.chips }

/-- Stores a word at a memory key. -/
def State.placeAt (s : State) (key w : Nat) : State := { s with mem := memPut s.mem key (leBytes 4 w) }

/-- The page that a loaded program's code lies in, for a state in which nothing runs: context 1, virtual home 0, device memory of
chip 0 from 64 KiB on, at the same offset. -/
def codePage : TlbEntry := { ctx := 1, home := 0, base := 0x10000, size := 0x10000, leaf := 0x10383 }

/-- A state in which one warp of 96 rows runs at 64 KiB on core 0 of chip 0 and is at its port (log 15: DESIGN CHOICE). -/
def State.loaded (s : State) : State :=
  let n := s.nextNode
  let c := s.chip 0
  { s with
    chips := tabPut s.chips 0 { c with tlb := codePage :: c.tlb, remap := (1, 0, 0) :: c.remap }
    grids := tabPut s.grids 1 { gid := 1, ctx := 1, nblk := 1, code := 0x10000, codelen := 0x10000, regs := 96, warps := [(.gen, 0)] }
    blocks := tabPut s.blocks n { node := n, gid := 1, ctx := 1, cid := 0 }
    warps := tabPut s.warps (n * 32) { node := n, gangs := [{ mask := BitVec.allOnes 32, pc := 0x10000 }], rows := List.replicate 96 {} }
    nextNode := n + 1
    issuing := some (n * 32, BitVec.allOnes 32) }

/-- The state with a word where the next step fetches its instruction: at the issuing gang's next word, or at the code of a warp
loaded for it where nothing issues (log 15: DESIGN CHOICE). -/
def State.placeWord (s : State) (w : Nat) : State :=
  let at_ := fun (s : State) => match s.issuing with
    | some (k, m) => (match s.fetchPlace k m with
      | .key key => some key
      | _ => none)
    | none => none
  match at_ s with
  | some key => s.placeAt key w
  | none =>
    let s := s.loaded
    match at_ s with
    | some key => s.placeAt key w
    | none => s

end Sys2Proof.Machine
end

