-- ==== Sys2Proof/Machine/Step.lean ====
section
/-! DEFINITION. One step of the machine: the next instruction or happening runs, and pod time passes (log 2: DESIGN CHOICE). -/

namespace Sys2Proof.Machine

/-- The outcome of a step, with time passed after a next state. -/
def passed : Host.Outcome State Fault Refusal → Host.Outcome State Fault Refusal
  | .next s => .next s.later
  | r => r

/-- ONE STEP: the word the issuing gang fetches, a happening that is due, or a port's selection cycle. -/
def step (s : State) : Host.Outcome State Fault Refusal :=
  match s.following with
  | .word i s' => passed (exec i s')
  | .event i s' => passed (exec i s')
  | .idle s' => .next s'.later

/-- The state with a word placed where the next step fetches its instruction. -/
def State.withFetchWord (s : State) (_nbits w : Nat) : State := s.placeWord w

end Sys2Proof.Machine
end

