-- ==== Sys2Proof/Safety.lean ====
section
/-! DEFINITION. The terms in which statements about the machine are made: who issues, what a word leaves behind, and which
parts of the state a word leaves alone. -/

namespace Sys2Proof.Machine

/-! ## Who issues -/

/-- The gang `g` of lanes `m` of warp `w`, which is warp `k` of block `b`, is at its port with its next word fetched. -/
structure Issuing (s : State) (k : Nat) (m : Lanes) (w : Warp) (g : Gang) (b : Block) : Prop where
  port : s.issuing = some (k, m)
  warp : s.warp? k = some w
  gang : w.gang? m = some g
  block : s.block? w.node = some b
  runs : g.wait = .run

/-- What the issuing gang's word sees when it keeps the run and the chain of its group (R21, R27, R33): the values of its operands
are read here. `sat` is whether the word takes the modifier SAT, which a float immediate is then delivered under (R37, R38). -/
def seenBy (sat : Bool) (s : State) (k : Nat) (m : Lanes) (w : Warp) (g : Gang) (b : Block) : Cx :=
  contextOf { op := 0x18, producer := true, ext := true, sat := sat } s k m w g b

/-! ## What a word leaves behind -/

/-- A row without the sharing of its content (R174) and its error marks (R186): what reads and writes of it can tell. -/
def RowSt.bare (x : RowSt) : RowSt := { x with share := none, refs := [], ver := 0, own := 0, soft := 0, bad := 0 }

/-- A warp without what the frame of issue itself may change in it: gangs, RJ registers, the open run, WARN, what it is charged, and
which rows share contents. -/
def Warp.still (w : Warp) : Warp :=
  { w with gangs := [], rj := vecOf 4 fun _ => 0, run := none, warn := 0, enwarp := 0, lastCost := 0, rows := w.rows.map RowSt.bare }

/-- A core without its value table. -/
def Core.still (c : Core) : Core := { c with vtab := [] }

/-- A block without its charge, and a grid and a chip without theirs. -/
def Block.still (b : Block) : Block := { b with enblk := 0 }
def GridRun.still (g : GridRun) : GridRun := { g with energyUsed := 0 }
def Chip.still (c : Chip) : Chip := { c with enCtx := [] }

/-- The word is over and did not trap: the port is free, and the gang stands before the next word with a group of its own to begin. -/
structure PastWord (s t : State) (k : Nat) (m : Lanes) (g : Gang) : Prop where
  port : t.issuing = none
  gang : ∃ w w' g', s.warp? k = some w ∧ t.warp? k = some w' ∧ w'.gang? m = some g' ∧ g'.pc = (g.pc + 4) % 2 ^ 64 ∧ g'.pfx = {} ∧
    w'.intrap = w.intrap ∧ w'.trapcause = w.trapcause

/-- Nothing outside the warps has changed but charges, value tables, the happenings under way and the counter of free values. -/
structure Outside (s t : State) : Prop where
  now : t.now = s.now
  mem : t.mem = s.mem
  lines : t.lines = s.lines
  partials : t.partials = s.partials
  cores : ∀ n, (t.core n).still = (s.core n).still
  dies : t.dies = s.dies
  drafts : t.drafts = s.drafts
  mirrors : t.mirrors = s.mirrors
  copyRoots : t.copyRoots = s.copyRoots
  ghosts : t.ghosts = s.ghosts
  cfg : t.cfg = s.cfg
  colls : t.colls = s.colls
  homesAt : t.homesAt = s.homesAt
  losses : t.losses = s.losses
  nextNode : t.nextNode = s.nextNode
  cue : t.cue = s.cue
  blocks : ∀ n, (t.block? n).map Block.still = (s.block? n).map Block.still
  grids : ∀ n, (t.grid? n).map GridRun.still = (s.grid? n).map GridRun.still
  chips : ∀ n, (t.chip n).still = (s.chip n).still

/-! ## Operands of the pipes -/

/-- An operand: its code and how many registers it takes, 1, 2 for a pair, 4 for a quad (R24). -/
abbrev Operand := Code × Nat

/-- The first register code of an operand: a multiple of its size (R24). -/
def Operand.first (x : Operand) : Nat := x.1.toNat / x.2 * x.2

/-- Row of an operand's `i`-th register in fibre `j` (R164). -/
def Warp.rowOf (w : Warp) (x : Operand) (j i : Nat) : Nat := w.base j + x.first + i

/-- An operand's registers can be read by the fibres of a set: they lie within the allocation, await nothing, are valid and hold no
error (R164, R167, R168, R186). -/
def Warp.readable (w : Warp) (q : Lanes) (x : Operand) : Prop :=
  (x.1.toNat < 96 → ∀ j, j < 32 → inSet q j = true → ∀ i, i < x.2 →
    w.rowOf x j i < w.rows.length ∧ (w.row (w.rowOf x j i)).pend = 0 ∧ inSet (w.row (w.rowOf x j i)).valid j = true ∧
      inSet (w.row (w.rowOf x j i)).soft j = false ∧ inSet (w.row (w.rowOf x j i)).bad j = false) ∧
  (96 ≤ x.1.toNat → x.1.toNat < 112 → ∀ i, i < x.2 → vecAt w.spend (x.first - 96 + i) 0 = 0)

/-- An operand's registers can be written by the fibres of a set (R164, R168, R208). -/
def Warp.writable (w : Warp) (q : Lanes) (x : Operand) : Prop :=
  (x.1.toNat < 96 → ∀ j, j < 32 → inSet q j = true → ∀ i, i < x.2 →
    w.rowOf x j i < w.rows.length ∧ (w.row (w.rowOf x j i)).pend = 0 ∧ (w.row (w.rowOf x j i)).hold = 0) ∧
  (96 ≤ x.1.toNat → x.1.toNat < 112 → ∀ i, i < x.2 → vecAt w.spend (x.first - 96 + i) 0 = 0)

/-- A source names no latch, or one that the open run of the gang holds (R28). -/
def Warp.latched (w : Warp) (m : Lanes) (c : Code) : Prop :=
  120 ≤ c.toNat → ∃ r, w.run = some r ∧ r.mask = m ∧ c.toNat - 119 ≤ r.prod

/-- What an instruction of the pipes reads and writes: its guard, its destination, its sources, and the old destination where it is
a source too. -/
structure Shape where
  guard : BitVec 4
  dst : Operand
  srcs : List Operand
  old : List Operand := []

/-- How many registers a TI, a TF and a type code's operand takes (R24). -/
def Warp.tiSize (w : Warp) : Nat := if w.itype.wide then 2 else 1
def Warp.tfSize (w : Warp) : Nat := if w.fwide then 2 else 1
def codeSize (c : Nat) : Nat := if codeWidth c = 64 then 2 else 1

/-- The third source of a multiply-add: C under CEN, else the old destination (R42). -/
def accShape (p : Pfx) (g : BitVec 4) (d : Code) (n : Nat) (l : List Operand) : Shape :=
  match p.hmod with
  | some h => if h.cen then { guard := g, dst := (d, n), srcs := l ++ [(h.c, n)] } else { guard := g, dst := (d, n), srcs := l, old := [(d, n)] }
  | none => { guard := g, dst := (d, n), srcs := l, old := [(d, n)] }

/-- What the instructions of the pipes read and write in a warp, under the prefix of their group (05). -/
def shapeOf (i : Instr) (w : Warp) (p : Pfx) : Option Shape :=
  let n := w.tiSize
  let f := w.tfSize
  match i with
  | .add g d a b | .sub g d a b | .mul g d a b | .mulh g d a b | .div g d a b | .rem g d a b | .min g d a b | .max g d a b
  | .and g d a b | .or g d a b | .xor g d a b => some { guard := g, dst := (d, n), srcs := [(a, n), (b, n)] }
  | .addi g d a _ | .muli g d a _ | .andi g d a _ | .ori g d a _ | .xori g d a _ | .shli g d a _ | .shri g d a _ | .sari g d a _
  | .neg g d a | .abs g d a | .not g d a | .popc g d a | .clz g d a | .ctz g d a | .brev g d a | .bswap g d a | .mov g d a _
  | .shfx g d a _ => some { guard := g, dst := (d, n), srcs := [(a, n)] }
  | .shl g d a b | .shr g d a b | .sar g d a b | .rot g d a b | .bfx g d a b | .shfl g d a b | .rdl g d a b =>
    some { guard := g, dst := (d, n), srcs := [(a, n), (b, 1)] }
  | .mad g d a b => some (accShape p g d n [(a, n), (b, n)])
  | .bfi g d a b | .wrl g d a b => some { guard := g, dst := (d, n), srcs := [(a, n), (b, 1)], old := [(d, n)] }
  | .sad g d a b => some { guard := g, dst := (d, n), srcs := [(a, n), (b, n)], old := [(d, n)] }
  | .addc g d a b => some { guard := g, dst := (d, 2), srcs := [(a, 1), (b, 1)], old := [(highCode d, 1)] }
  | .lea g d a b => some { guard := g, dst := (d, 2), srcs := [(a, 2), (b, 1)] }
  | .movi g d _ _ => some { guard := g, dst := (d, n), srcs := [] }
  | .fadd g d a b | .fsub g d a b | .fmul g d a b | .fmin g d a b | .fmax g d a b | .fdiv g d a b =>
    some { guard := g, dst := (d, f), srcs := [(a, f), (b, f)] }
  | .fma g d a b | .fnma g d a b => some (accShape p g d f [(a, f), (b, f)])
  | .faddi g d a _ | .fmuli g d a _ | .fneg g d a | .fabs g d a | .frndRne g d a | .frndRtz g d a | .frndRdn g d a | .frndRup g d a
  | .frcp g d a | .frsq g d a | .fsqrt g d a | .fexp2 g d a | .flog2 g d a | .fsin g d a | .fcos g d a | .ftanh g d a =>
    some { guard := g, dst := (d, f), srcs := [(a, f)] }
  | .fdot2 g d a b =>
    let x := if w.tf = 3 ∨ w.tf = 0 then 2 else 1
    let y := if w.tf = 3 then 2 else 1
    some (accShape p g d y [(a, x), (b, x)])
  | .fscl g d a b => some { guard := g, dst := (d, f), srcs := [(a, f), (b, 1)] }
  | .cvt g d a c => some { guard := g, dst := (d, codeSize c.toNat), srcs := [(a, codeSize w.tc)] }
  | .rndh g d a b | .rndq g d a b => some { guard := g, dst := (d, 1), srcs := [(a, 1), (b, 1)] }
  | .wred g d a o _ _ | .wscan g d a o _ _ _ =>
    let x := if o.toNat < 6 then n else f
    some { guard := g, dst := (d, x), srcs := [(a, x)] }
  | .wscana g d a b => some { guard := g, dst := (d, 2 * f), srcs := [(a, f), (b, f)] }
  | _ => none

/-- The warp may issue an instruction of the pipes: the vector pipe takes words of `gen` and `vec` warps, the scalar pipe those of
any role (R25, R289). -/
def Shape.allowed (x : Shape) (w : Warp) : Prop :=
  w.role = .gen ∨ w.role = .vec ∨ ((∀ y, y ∈ x.srcs → scalarCode y.1 = true) ∧ scalarDst x.dst.1 = true)

/-- The operands of an instruction of the pipes are in order for its fibres. -/
structure Shape.ready (x : Shape) (w : Warp) (m : Lanes) : Prop where
  role : x.allowed w
  latches : ∀ y, y ∈ x.srcs → w.latched m y.1
  sources : ∀ y, y ∈ x.srcs → w.readable (guarded w m x.guard) y
  old : ∀ y, y ∈ x.old → w.readable (guarded w m x.guard) y
  dst : w.writable (guarded w m x.guard) x.dst

/-! ## What an instruction of the pipes leaves alone -/

/-- A warp without its registers and what results add to FSTAT, SUBRPL, REUSE and COLLIDE, and without what the frame of issue changes. -/
def Warp.bare (w : Warp) : Warp :=
  { w.still with rows := [], sregs := vecOf 16 fun _ => 0, fstat := 0, subrpl := 0, reuse := 0, collide := 0 }

/-- Of a warp only some lanes of rows and some scalar registers are written; WARN and FSTAT are added to. A result that the value
table shares stands for whole rows, and REUSE counts it (R180). -/
structure OnlyWrites (w w' : Warp) (rows : Nat → Nat → Prop) (scalars : Nat → Prop) : Prop where
  bare : w'.bare = w.bare
  len : w'.rows.length = w.rows.length
  waits : ∀ r, (w'.row r).pend = (w.row r).pend ∧ (w'.row r).hold = (w.row r).hold
  lane : ∀ r j, r < w.rows.length → j < 32 → ¬ rows r j → (w'.reuse = w.reuse ∨ ∀ i, i < 32 → ¬ rows r i) →
    laneWord (w'.row r).data j = laneWord (w.row r).data j ∧ inSet (w'.row r).valid j = inSet (w.row r).valid j
  scalar : ∀ c, c < 16 → ¬ scalars c → w'.sreg c = w.sreg c
  warn : ∃ x, w'.warn = w.warn ||| x
  flags : ∃ f : Flags, w'.fstat = w.fstat ||| f.setWidth 32

/-- The lanes of rows that a destination names for some fibres, and its scalar registers. -/
def Warp.dstRow (w : Warp) (q : Lanes) (x : Operand) (r j : Nat) : Prop :=
  x.1.toNat < 96 ∧ inSet q j = true ∧ ∃ i, i < x.2 ∧ r = w.rowOf x j i
def dstScalar (x : Operand) (c : Nat) : Prop :=
  96 ≤ x.1.toNat ∧ x.1.toNat < 112 ∧ ∃ i, i < x.2 ∧ c = x.first - 96 + i

/-- No other warp is changed but in what the frame of issue changes. -/
def OthersKept (s t : State) (k : Nat) : Prop :=
  ∀ j, j ≠ k → (t.warp? j).map Warp.still = (s.warp? j).map Warp.still

/-! ## Results -/

/-- The value of a register operand of one or two registers in fibre `j` (R22, R24). -/
def Warp.reg (w : Warp) (x : Operand) (j : Nat) : DWord :=
  if x.1.toNat < 96 then
    if x.2 = 2 then laneWord (w.row (w.rowOf x j 1)).data j ++ laneWord (w.row (w.rowOf x j 0)).data j
    else (laneWord (w.row (w.rowOf x j 0)).data j).setWidth 64
  else if x.2 = 2 then w.sreg (x.first - 96 + 1) ++ w.sreg (x.first - 96)
  else (w.sreg (x.first - 96)).setWidth 64

/-- The scalar pipe runs an instruction (R25). -/
def Shape.scalar (x : Shape) : Bool := (x.srcs.all fun y => scalarCode y.1) && scalarDst x.dst.1

/-- The fibres of a gang of lanes `m` that an instruction of the pipes acts in: those whose guard is true, or on the scalar pipe the
lowest active one when its guard is true (R21, R25, R128). -/
def Shape.acting (x : Shape) (w : Warp) (m : Lanes) : Lanes :=
  if x.scalar then (match (lowestLane m).filter (inSet (guarded w m x.guard)) with
    | some j => laneBit j
    | none => 0)
  else guarded w m x.guard

/-- The destination holds `v`: in every acting fibre of a vector destination; in a scalar one, the value of the lowest acting fibre
(R25, R128). One register takes the low 32 bits. -/
def Shape.holds (x : Shape) (w w' : Warp) (m : Lanes) (v : Nat → DWord) : Prop :=
  (x.dst.1.toNat < 96 → ∀ j, j < 32 → inSet (x.acting w m) j = true →
    w'.reg x.dst j = if x.dst.2 = 2 then v j else ((v j).setWidth 32).setWidth 64) ∧
  (96 ≤ x.dst.1.toNat → x.dst.1.toNat < 112 → ∀ j, lowestLane (x.acting w m) = some j →
    w'.reg x.dst j = if x.dst.2 = 2 then v j else ((v j).setWidth 32).setWidth 64)

/-- What a 32-bit source and what a source of two registers reads in fibre `j` as an instruction issues. -/
def Cx.word (cx : Cx) (c : Code) (j : Nat) : Word := cx.val32 { code := c } j
def Cx.pair (cx : Cx) (c : Code) (j : Nat) : DWord := cx.val (pairSrc c) j

/-! ## How words end -/

/-- Fibre `j` of a warp goes on at an address. -/
def Warp.standsAt (w : Warp) (j pc : Nat) : Prop := ∃ g, g ∈ w.gangs ∧ inSet g.mask j = true ∧ g.pc = pc

/-- A word is over, its gang stands before the next word, nothing outside the warps has changed but as `Outside` says, no other warp
has, and the warp before and after are as `R` says. -/
structure Leaves (s t : State) (k : Nat) (m : Lanes) (g : Gang) (R : Warp → Warp → Prop) : Prop where
  past : PastWord s t k m g
  outside : Outside s t
  others : OthersKept s t k
  own : ∃ w w', s.warp? k = some w ∧ t.warp? k = some w' ∧ R w w'

/-- The same of a word that sends each fibre of its gang to an address of its own. -/
structure Parts (s t : State) (k : Nat) (m : Lanes) (dest : Nat → Nat) (R : Warp → Warp → Prop) : Prop where
  port : t.issuing = none
  outside : Outside s t
  others : OthersKept s t k
  own : ∃ w w', s.warp? k = some w ∧ t.warp? k = some w' ∧ R w w' ∧ ∀ j, j < 32 → inSet m j = true → w'.standsAt j (dest j)

/-- Nothing of a warp changes but as `f` says; WARN is added to. -/
def Warp.becomes (f : Warp → Warp) (w w' : Warp) : Prop := w'.still = (f w).still ∧ ∃ x, w'.warn = (f w).warn ||| x

/-- The predicate that a destination code names; 32, which is none, for a latch-side code (R50). -/
def namedPred (d : Code) : Nat := if 120 ≤ d.toNat then 32 else (d.extractLsb' 0 5).toNat

/-- Of a warp only some predicates of the fibres `q` change: those from `first` on, as the lists of `f` say; p0 keeps its value (R71). -/
def Warp.setsPreds (q : Lanes) (first : Nat) (f : Nat → List Bool) (w w' : Warp) : Prop :=
  Warp.becomes (fun w => { w with preds := w'.preds }) w w' ∧
  ∀ j n, j < 32 → n < 32 → w'.predBit j n =
    if inSet q j = true ∧ n ≠ 0 ∧ first ≤ n ∧ n < first + (f j).length then (f j).getD (n - first) false else w.predBit j n

/-- Of a warp only a destination changes, and WARN is added to: in the fibres `q` it takes the values `v`, a scalar register that of
the lowest of them (R23, R24, R25). -/
structure Warp.takes (q : Lanes) (d : Operand) (v : Nat → DWord) (w w' : Warp) : Prop where
  only : OnlyWrites w w' (w.dstRow q d) (dstScalar d)
  counts : w'.fstat = w.fstat ∧ w'.subrpl = w.subrpl ∧ w'.reuse = w.reuse ∧ w'.collide = w.collide
  rows : d.1.toNat < 96 → ∀ j, j < 32 → inSet q j = true → w'.reg d j = if d.2 = 2 then v j else ((v j).setWidth 32).setWidth 64
  scalar : 96 ≤ d.1.toNat → d.1.toNat < 112 → ∀ j, lowestLane q = some j →
    w'.reg d j = if d.2 = 2 then v j else ((v j).setWidth 32).setWidth 64

/-- A fibre may go on at an address: it is aligned, and its page is translated and may be fetched from (R15, R239). -/
def Landing (s : State) (b : Block) (a : Nat) : Prop := a % 4 = 0 ∧ ∃ key x, s.access b.chip b.ctx .fetch a = .ok key x

/-- No read of pod time by some sources is logged (R438). -/
def Unlogged (s : State) (b : Block) (l : List Code) : Prop := s.debugBlock b.chip b.ctx = none ∨ (116 : Code) ∉ l

/-- X of a word with a chain (R32). -/
def Gang.x (g : Gang) (i : Code) : Nat := chainVal g.pfx.ext * 128 + i.toNat

/-- The gang's fibres stand in no other gang of the warp. -/
def Warp.apart (w : Warp) (g : Gang) : Prop := ∀ x, x ∈ w.gangs → x ≠ g → x.mask &&& g.mask = 0

/-- The value of an operand at the current integer and float type. -/
def Cx.ti (cx : Cx) (c : Code) (j : Nat) : DWord := cx.val (cx.tiSrc c) j
def Cx.tf (cx : Cx) (c : Code) (j : Nat) : DWord := cx.val (cx.tfSrc c) j

/-- The immediate of an I-form word with field `i`, as the type it is read at takes it (R34 to R37). -/
def Cx.imm (cx : Cx) (i : Code) (as_ : ImmAs) : DWord := BitVec.ofNat 64 ({ cx with info := { cx.info with imm7 := i } }.immX as_).1

/-- The offset of an M-form word in access units (R19, R32). -/
def Gang.mOff (g : Gang) (o : BitVec 3) : Int :=
  if g.pfx.ext = [] then o.toNat else ofPat true (25 * g.pfx.ext.length + 3) (chainVal g.pfx.ext * 8 + o.toNat)

/-- `Leaves` of a word that changes cores besides its warp, or the block of its warp. -/
structure LeavesBut (s t : State) (cores blocks : Prop) (k : Nat) (m : Lanes) (g : Gang) (R : Warp → Warp → Prop) : Prop where
  past : PastWord s t k m g
  outside : (cores ∧ ¬ blocks → Outside { s with cores := t.cores } t) ∧ (blocks ∧ ¬ cores → Outside { s with blocks := t.blocks } t) ∧
    (cores ∧ blocks → Outside { s with cores := t.cores, blocks := t.blocks } t)
  others : OthersKept s t k
  own : ∃ w w', s.warp? k = some w ∧ t.warp? k = some w' ∧ R w w'

/-! ## Accesses to memory -/

/-- The address of fibre `j` in an M-form access of `u` bytes (R19, R249). -/
def Cx.ea (cx : Cx) (g : Gang) (a : Code) (o : BitVec 3) (u j : Nat) : Nat :=
  ((cx.pair a j).toNat + (BitVec.ofInt 64 (u * g.mOff o)).toNat) % 2 ^ 64

/-- A global address passes every check of an access of `u` bytes, at a memory key of a page with some leaf (R234 to R239, R249). -/
def Reaches (s : State) (b : Block) (n : Need) (u ea key : Nat) (leaf : DWord) : Prop :=
  addrForm ea = 0 ∧ ea % u = 0 ∧ s.access b.chip b.ctx n ea = .ok key leaf

/-- A message of an issuing word about a line is under way to its home. -/
def Sent (t : State) (k : Nat) (b : Block) (ev : Instr) (line : Nat) (p : Cue → Prop) : Prop :=
  ∃ e, e ∈ t.agenda ∧ e.ev = ev ∧ e.cue.acc.line = line ∧ e.cue.acc.warp = k ∧ e.cue.acc.node = b.node ∧ p e.cue

/-- The place that a returned value of fibre `j` has in a destination: in a scalar register the lowest fibre's remains (R25, R168). -/
def Warp.placeIn (w : Warp) (d : Operand) (lanes : Lanes) (sx : Bool) (j : Nat) : Place :=
  if d.1.toNat < 96 then .reg (w.rowOf d j 0) j sx
  else if d.1.toNat < 112 ∧ lowestLane lanes = some j then .sreg (d.first - 96) sx else .drop

/-- A word that accesses memory is over: memory, the lines' records, the other warps and the blocks' results stand as before; its own
warp keeps its predicates, bases and loops. -/
structure Accessed (s t : State) (k : Nat) (m : Lanes) (g : Gang) : Prop where
  past : PastWord s t k m g
  mem : t.mem = s.mem
  lines : ∀ x, (t.line x).ver = (s.line x).ver ∧ (t.line x).h = (s.line x).h ∧ (t.line x).undo = (s.line x).undo
  others : OthersKept s t k
  own : ∃ w w', s.warp? k = some w ∧ t.warp? k = some w' ∧ w'.preds = w.preds ∧ w'.bases = w.bases ∧
    w'.loops = w.loops ∧ w'.live = w.live ∧ w'.rows.length = w.rows.length

/-- Registers outside a destination keep their contents, and FSTAT its flags. -/
def KeepsBut (w w' : Warp) (q : Lanes) (d : Operand) : Prop :=
  w'.fstat = w.fstat ∧
  (∀ r j, r < w.rows.length → j < 32 → ¬ w.dstRow q d r j →
    laneWord (w'.row r).data j = laneWord (w.row r).data j ∧ inSet (w'.row r).valid j = inSet (w.row r).valid j) ∧
  ∀ c, c < 16 → ¬ dstScalar d c → w'.sreg c = w.sreg c

/-! ## Happenings of the device -/

/-- A happening of a kind is under way with a message that a property holds of. -/
def UnderWay (t : State) (ev : Instr) (p : Cue → Prop) : Prop := ∃ e, e ∈ t.agenda ∧ e.ev = ev ∧ p e.cue

/-- A message between two chips is no packet, or is at its destination already; or the link of its source takes it. -/
def Here (src dst : Nat) (c : Cue) : Prop := src = dst ∨ c.tag = 0
def Open (s : State) (src dst : Nat) : Prop := src = dst ∨ (s.chip src).fenced = false

/-- A line at its home that nothing holds up: no switch, no merge, no owner at the host, no error. -/
def HomeLine.calm (h : HomeLine) : Prop := h.sync = none ∧ h.red = none ∧ h.hostHeld = false ∧ h.poison = [] ∧ h.violated = [] ∧
  h.soft = none ∧ h.l2soft = none ∧ h.l2bad = []

/-! ## Operations of engines -/

/-- Every piece of some strips passes its checks: its source may be read and is sound, and, where it names one, its destination written (R294). -/
def Cx.stripsPass (cx : Cx) (s : State) (align : Nat) (l : List Strip) (stored : Bool) : Prop :=
  ∀ x, x ∈ piecesOf l → (∃ y, cx.engineCheck s .load align x.1.src x.2.1 x.2.2 = .at_ y ∧ (cx.windowProblem s false x.2.2 [(x.1.lane, y)]).isNone = true ∧
      s.spotLost cx.b.node x.2.2 y = false) ∧
    (stored = true → ∃ y, cx.engineCheck s .store align x.1.dst x.2.1 x.2.2 = .at_ y)

/-- A word has put an operation of `n` pieces under way for its warp (R292), and is over; no content of memory or of a register changes. -/
structure Begins (s t : State) (k : Nat) (m : Lanes) (g : Gang) (cls : OpClass) (arv : Option (Nat × Nat)) (n : Nat) : Prop where
  past : PastWord s t k m g
  mem : t.mem = s.mem
  own : ∃ w w' o, s.warp? k = some w ∧ t.warp? k = some w' ∧ w'.ops = w.ops ++ [o] ∧ o.cls = cls ∧ o.arv = arv ∧ o.left = n ∧
    w'.sregs = w.sregs ∧ w'.preds = w.preds ∧ w'.fstat = w.fstat ∧
    ∀ r, (w'.row r).data = (w.row r).data ∧ (w'.row r).valid = (w.row r).valid

/-- A warp may issue vector words (R289). -/
def Warp.vectorRole (w : Warp) : Prop := w.role = .gen ∨ w.role = .vec

/-- The child slot that `fork` gives fibre `j` of `q`: free slots are taken in ascending order by the parents in ascending order (R80). -/
def forkSlot (w : Warp) (q : Lanes) (j : Nat) : Option Nat := (allLanes.filter fun c => !inSet w.live c)[(lanesOf q).idxOf j]?

/-- An instruction of the pipes whose operands are in order completes, and, where the value table does not serve it (R180), its
destination holds the lanes' results and FSTAT takes their flags (R116, R128). -/
def Yields (s : State) (k : Nat) (m : Lanes) (w : Warp) (g : Gang) (b : Block) (i : Instr) (x : Shape) (out : Nat → LaneOut) : Prop :=
  x.ready w m → (s.debugBlock b.chip b.ctx = none ∨ ∀ y, y ∈ x.srcs → y.1 ≠ 116) →
    ∃ t w', exec i s = .next t ∧ PastWord s t k m g ∧ t.warp? k = some w' ∧ (w'.reuse = w.reuse →
      x.holds w w' m (fun j => (out j).v) ∧ w'.fstat = w.fstat ||| (orFlags (x.acting w m) out).setWidth 32)

end Sys2Proof.Machine
end

