-- ==== Sys2Proof/Certificates/Slice0/Obligations.lean ====
section
/-! DEFINITION. Statements about the machine, for the provers: encoding, the frame of a step, the words family by family, and the
happenings of the device. -/

open Sys2Proof Sys2Proof.Machine

/-! ## Encoding -/

/-- R17 to R20, R46, R47: a well-formed instruction's word decodes to it, with every operand at every value. -/
def Obligations.DecodeOfEncode : Prop :=
  ∀ (i : Instr) (w : Word), WellFormed i = true → encode i = some w → decodeWord w = i

/-- R17 to R20, R46: decoding drops no bit: every word decodes to a well-formed instruction, and encoding that gives the word back. -/
def Obligations.EncodeOfDecode : Prop :=
  ∀ w : Word, WellFormed (decodeWord w) = true ∧ encode (decodeWord w) = some w

/-- R17 to R20, R46: words written out from the encoding tables decode to the instructions they stand for. -/
def Obligations.DecodeWords : Prop :=
  decodeWord 0x30019086 = .add 0 0x06 0x21 0x06 ∧
  decodeWord 0x7140C205 = .fadd 10 3 4 5 ∧
  decodeWord 0x12000000 = .enrol 0 0 0 0 ∧
  decodeWord 0x02200003 = .br 1 3 ∧
  decodeWord 0xF6003185 = .trap 0 0 0x63 ∧
  decodeWord 0xF6000009 = .rfe 0 0 0 ∧
  decodeWord 0xE4004000 = .owait 0 1 0 0 ∧
  decodeWord 0xF000C002 = .maloc 0 3 0

/-! ## The step -/

/-- R15, R31: where the bytes at the issuing gang's next address are the word of a well-formed instruction, the step is that
instruction, and pod time passes. -/
def Obligations.StepRunsWord : Prop :=
  ∀ (s : State) (k : Nat) (m : Lanes) (key : Nat) (i : Instr) (w : Word),
    s.issuing = some (k, m) → s.fetchPlace k m = .key key → WellFormed i = true → encode i = some w → s.wordAt key = w →
      step s = passed (exec i s)

/-- The model's order of happenings (log 2): where no gang issues, the step is the rest of a selection cycle whose gang could not issue;
else, unless the last step took a happening, the first happening that is due, with its message; else the selection cycle of the next
port that holds a resident warp. A happening is due once its steps have passed and no link still carries its flits. -/
def Obligations.StepTakesHappening : Prop :=
  ∀ s : State, s.issuing = none →
    (∀ p, s.reselect = some p → step s = passed (exec .gangSelection { s with reselect := none, cue := { core := p / 4, port := p % 4, num := 1 } })) ∧
    (s.reselect = none → ∀ d r, s.took = false → takeDue s.ticked.agenda = some (d, r) →
      step s = passed (exec d.ev { s.ticked with agenda := r, cue := d.cue, took := true })) ∧
    (∀ d r, takeDue s.agenda = some (d, r) → d ∈ s.agenda ∧ d.wait = 0 ∧ d.held = false) ∧
    (s.reselect = none → ∀ p, (s.took = true ∨ takeDue s.ticked.agenda = none) → s.nextPort = some p →
      step s = passed (exec .gangSelection { s.ticked with took := false, turn := p + 1, cue := { core := p / 4, port := p % 4 } }))

/-- The canonical form of memory: addresses rise strictly, and no listed byte is what an unlisted address reads as (log 1). Every
step keeps it. -/
def Obligations.MemoryFormKept : Prop :=
  ∀ s t : State, Memory.wf s.mem → step s = .next t → Memory.wf t.mem

/-- Memory has its canonical form at reset. -/
def Obligations.MemoryFormAtReset : Prop :=
  Memory.wf State.reset.mem

/-- R64 to R67: a port with an open run lets only a gang of an open run issue; else, of its ready gangs, one that none comes before in the order of
waits, roles, ages and numbers is selected. A gang that is held or waits is not.

R278, R292, R303: an operation whose pieces are all done and that has nothing further to do leaves its warp, raises its flags, counts its completion
time and makes its arrival; while the oldest of its class is not done, none leaves. -/
def Obligations.GangsAndOperations : Prop :=
  (∀ s : State, let mine := fun (w : Warp) => w.core = s.cue.core ∧ w.port = s.cue.port ∧ w.resident = true;
    let u : State := { s with warps := s.warps.map fun p => if p.2.core = s.cue.core ∧ p.2.port = s.cue.port ∧ p.2.resident = true then (p.1, s.wake p.2) else p };
    ∃ t, exec .gangSelection s = .next t ∧ t.mem = s.mem ∧ t.agenda = s.agenda ∧ t.cores = s.cores ∧ t.chips = s.chips ∧
      (∀ p r, p ∈ s.warps → mine p.2 → p.2.run = some r → (p.2.gang? r.mask).isSome = true →
        t.issuing = s.issuing ∨ ∃ q r, q ∈ s.warps ∧ mine q.2 ∧ q.2.run = some r ∧ t.issuing = some (q.1, r.mask)) ∧
      ((∀ p, p ∈ s.warps → mine p.2 → p.2.run = none) → (∀ p g, p ∈ u.warps → mine p.2 → g ∈ p.2.gangs → readyGang u p.2 g = false) → t.issuing = s.issuing) ∧
      ((∀ p, p ∈ s.warps → mine p.2 → p.2.run = none) → (∃ p g, p ∈ u.warps ∧ mine p.2 ∧ g ∈ p.2.gangs ∧ readyGang u p.2 g = true) →
        ∃ p g, p ∈ u.warps ∧ mine p.2 ∧ g ∈ p.2.gangs ∧ readyGang u p.2 g = true ∧ g.held = false ∧ g.wait = .run ∧ t.issuing = some (p.1, g.mask) ∧
          ∀ q x, q ∈ u.warps → mine q.2 → x ∈ q.2.gangs → readyGang u q.2 x = true → before (u.rank q.2 x) (u.rank p.2 g) = false)) ∧
  (∀ (s : State) (w : Warp) (b : Block), let k := s.cue.warp;
    s.warp? k = some w → s.block? w.node = some b → b.st = .running → w.live ≠ 0 →
    ((∀ o, o ∈ w.ops → o.cls = s.cue.cls → o.left ≠ 0) → ∃ t, exec .operationRetire s = .next t ∧ t = s) ∧
    (∀ o r, w.ops = o :: r → o.cls = s.cue.cls → o.left = 0 → o.job = .idle → (∀ x, x ∈ r → x.id ≠ o.id ∧ (x.cls = s.cue.cls → x.left ≠ 0)) →
      ∃ t w' b', exec .operationRetire s = .next t ∧ t.mem = s.mem ∧ t.warp? k = some w' ∧ w'.ops = r ∧ w'.fstat = w.fstat ||| o.fl.setWidth 32 ∧
        w'.relChip = (if o.ct = 0 then w.relChip else max w.relChip o.ct) ∧ w'.relPod = (if o.ct = 0 then w.relPod else max w.relPod (o.ct + 25)) ∧
        w'.rows = w.rows ∧ w'.sregs = w.sregs ∧ w'.preds = w.preds ∧ t.block? w.node = some b' ∧ b'.rings = (match o.arv with
          | none => b.rings
          | some (n, i) => b.rings.set n ((b.rings.getD n {}).arrive i))))

/-! ## Traps and the frame of issue -/

/-- R31 to R33, R42, R44: a prefix word joins the group of the word after it: the gang stays at the port, one word on; a chain keeps its last
three words; an `hmod` gives the modifiers, an `hsch` begins a group of its own and drops what stood before it.

R31, R50, R78: `nop` completes; its reserved fields, its guard and what its prefixes were ignored for are noted in WARN, and
nothing else changes.

R40: `vtype` sets the warp's types when the guard of the lowest active fibre is true; a code that its position does not take leaves
that type. -/
def Obligations.PrefixesAndTypes : Prop :=
  (∀ (s : State) (k : Nat) (m : Lanes) (w : Warp) (g : Gang) (b : Block), Issuing s k m w g b →
    (∀ x, ∃ t w' g', exec (.ext x) s = .next t ∧ t.issuing = some (k, m) ∧ t.warp? k = some w' ∧ w'.gang? m = some g' ∧
      g'.pc = (g.pc + 4) % 2 ^ 64 ∧ g'.wait = g.wait ∧ g'.pfx.ext = (g.pfx.ext ++ [x]).drop ((g.pfx.ext ++ [x]).length - 3) ∧ g'.pfx.hmod = g.pfx.hmod ∧
      g'.pfx.words = g.pfx.words + 1 ∧ w'.still = w.still ∧ w'.warn = w.warn ∧ OthersKept s t k ∧ Outside s t) ∧
    (∀ y dep vt r, ∃ t w' g', exec (.hsch y dep vt r) s = .next t ∧ t.issuing = some (k, m) ∧ t.warp? k = some w' ∧ w'.gang? m = some g' ∧
      g'.pc = (g.pc + 4) % 2 ^ 64 ∧ g'.wait = g.wait ∧ g'.pfx.ext = [] ∧ g'.pfx.hmod = none ∧ g'.pfx.head = some g.pc ∧ g'.pfx.vt = decide (vt = 1) ∧
      g'.pfx.words = g.pfx.words + 1 ∧ w'.still = w.still ∧ w'.warn = w.warn ∧ OthersKept s t k ∧ Outside s t) ∧
    (∀ c cen fresh sat r, ∃ t w' g', exec (.hmod c cen fresh sat r) s = .next t ∧ t.issuing = some (k, m) ∧ t.warp? k = some w' ∧
      w'.gang? m = some g' ∧ g'.pc = (g.pc + 4) % 2 ^ 64 ∧ g'.wait = g.wait ∧ g'.pfx.ext = [] ∧
      g'.pfx.hmod = some { c := c, cen := decide (cen = 1), fresh := decide (fresh = 1), sat := decide (sat = 1) } ∧
      g'.pfx.words = g.pfx.words + 1 ∧ w'.still = w.still ∧ w'.warn = w.warn ∧ OthersKept s t k ∧ Outside s t)) ∧
  (∀ (s : State) (k : Nat) (m : Lanes) (w : Warp) (g : Gang) (b : Block) (gd : BitVec 4) (d a c : Code), Issuing s k m w g b →
    ∃ t, exec (.nop gd d a c) s = .next t ∧ Leaves s t k m g fun w w' => w'.still = w.still ∧
      w'.warn = w.warn ||| g.pfx.warn ||| warnIf (gd = 8) wGRD ||| warnIf (!g.pfx.ext.isEmpty) wEXT |||
        warnIf ((g.pfx.hmod.getD {}).sat || (g.pfx.hmod.getD {}).cen) wMOD |||
        warnIf (decide ((g.pfx.hmod.getD {}).c ≠ 0) && !(g.pfx.hmod.getD {}).cen) wRSV ||| warnIf (decide (d ≠ 0) || decide (a ≠ 0) || decide (c ≠ 0)) wRSV) ∧
  (∀ (s : State) (k : Nat) (m : Lanes) (w : Warp) (g : Gang) (b : Block) (gd : BitVec 4) (d a i : Code) (j : Nat), Issuing s k m w g b →
    lowestLane m = some j →
    ∃ t, exec (.vtype gd d a i) s = .next t ∧ Leaves s t k m g (Warp.becomes fun w => if inSet (guarded w m gd) j then
      { w with ti := if tiOk d.toNat then d.toNat else w.ti, tf := if tfOk a.toNat then a.toNat else w.tf, tc := if tcOk i.toNat then i.toNat else w.tc } else w))

/-- R384: a precise trap of a gang whose warp has a handler and is in none saves where the group began, the cause and the address,
closes the run into TRAPOPS, and sends the gang's fibres to the handler; the other gangs of the warp are held, and nothing else
changes.

R390: a trap in a handler, or with none set, stops the node at once: its block is dead and none of its gangs issues again; the
fault of the grid is posted.

R49, R387, R388: an unassigned word takes the illegal-instruction trap, which names the group's first word and holds the word. -/
def Obligations.TrapsTaken : Prop :=
  (∀ (s : State) (k : Nat) (m : Lanes) (first glen next : Nat) (tr : Trap) (w : Warp), s.warp? k = some w → w.intrap = false → w.trapvec ≠ 0 →
    ∃ w', (s.takeTrap k m first glen next tr) = { s with warps := (s.setWarp k w').warps } ∧
      w'.trappc = BitVec.ofNat 64 (if tr.cause.after then next else first) ∧ w'.trapcause = trapCauseOf tr glen ∧ w'.trapaddr = BitVec.ofNat 64 tr.addr ∧
      w'.intrap = true ∧ w'.trapMask = some m ∧ w'.run = none ∧ w'.trapops = trapOpsOf w.trapops w.run ∧
      (∀ x, x ∈ w.gangs → x.mask = m → ∀ j, inSet m j = true → w'.standsAt j w.trapvec.toNat) ∧
      (∀ x, x ∈ w.gangs → x.mask ≠ m → { x with held := true } ∈ w'.gangs) ∧
      { w' with trappc := w.trappc, trapcause := w.trapcause, trapaddr := w.trapaddr, intrap := w.intrap, trapMask := w.trapMask, run := w.run,
                trapops := w.trapops, gangs := w.gangs } = w) ∧
  (∀ (s : State) (k : Nat) (m : Lanes) (first glen next : Nat) (tr : Trap) (w : Warp) (b : Block), s.warp? k = some w → s.block? w.node = some b →
    (w.intrap = true ∨ w.trapvec = 0) →
      ((s.takeTrap k m first glen next tr).block? w.node).map (·.st) = some .dead ∧
      (∀ j v, (s.takeTrap k m first glen next tr).warp? j = some v → v.node = w.node → v.gangs = []) ∧
      (∃ e, (e ∈ ((s.takeTrap k m first glen next tr).chip b.chip).evq ∨ e ∈ ((s.takeTrap k m first glen next tr).chip b.chip).heldReports) ∧
        e.type = 3 ∧ e.ctx = b.ctx ∧ e.payload = leBytes 4 b.gid ++ leBytes 4 0 ++ leBytes 4 (0x200 + tr.cause.code))) ∧
  (∀ (s : State) (k : Nat) (m : Lanes) (w : Warp) (g : Gang) (b : Block) (x : Word), Issuing s k m w g b → w.intrap = false → w.trapvec ≠ 0 →
    ∃ t w', exec (.illegalInstruction x) s = .next t ∧ t.issuing = none ∧ t.warp? k = some w' ∧ w'.intrap = true ∧
      w'.trappc = BitVec.ofNat 64 (g.pfx.firstOf g.pc 0) ∧ w'.trapaddr = BitVec.ofNat 64 x.toNat ∧
      w'.trapcause.extractLsb' 0 8 = 0x01 ∧ w'.trapcause.extractLsb' 21 5 = BitVec.ofNat 5 ((lowestLane m).getD 0) ∧
      (∀ j, inSet m j = true → w'.standsAt j w.trapvec.toNat) ∧ OthersKept s t k ∧ t.mem = s.mem)

/-! ## Control flow -/

/-- R15, R18, R79: a branch, a call or a return sends the fibres whose guard is true to their targets and the others to the next word; a
call gives those fibres the address after it.

R15, R79: a branch to an address that is not a multiple of 4 takes the misaligned-fetch trap before any effect. -/
def Obligations.BranchesGo : Prop :=
  (∀ (s : State) (k : Nat) (m : Lanes) (w : Warp) (g : Gang) (b : Block), Issuing s k m w g b →
    (∀ gd off, (∀ j, j < 32 → inSet (guarded w m gd) j = true → Landing s b (branchTarget g.pc off)) →
      ∃ t, exec (.br gd off) s = .next t ∧
        Parts s t k m (fun j => if inSet (guarded w m gd) j then branchTarget g.pc off else (g.pc + 4) % 2 ^ 64) (Warp.becomes id)) ∧
    (∀ gd d a c, let cx := seenBy false s k m w g b
      let dest := fun j => (cx.pair a j + 4 * (cx.word c j).signExtend 64).toNat
      a.toNat < 120 → c.toNat < 120 → w.readable (guarded w m gd) (a, 2) → w.readable (guarded w m gd) (c, 1) → Unlogged s b [a, c] →
      (∀ j, j < 32 → inSet (guarded w m gd) j = true → Landing s b (dest j)) →
      ∃ t, exec (.brx gd d a c) s = .next t ∧
        Parts s t k m (fun j => if inSet (guarded w m gd) j then dest j else (g.pc + 4) % 2 ^ 64) (Warp.becomes id)) ∧
    (∀ gd off, w.writable (guarded w m gd) (94, 2) → (∀ j, j < 32 → inSet (guarded w m gd) j = true → Landing s b (branchTarget g.pc off)) →
      ∃ t, exec (.call gd off) s = .next t ∧
        Parts s t k m (fun j => if inSet (guarded w m gd) j then branchTarget g.pc off else (g.pc + 4) % 2 ^ 64)
          (Warp.takes (guarded w m gd) (94, 2) fun _ => BitVec.ofNat 64 (g.pc + 4))) ∧
    (∀ gd d a c, let cx := seenBy false s k m w g b
      a.toNat < 120 → w.readable (guarded w m gd) (a, 2) → w.writable (guarded w m gd) (d, 2) → Unlogged s b [a] →
      (∀ j, j < 32 → inSet (guarded w m gd) j = true → Landing s b (cx.pair a j).toNat) →
      ∃ t, exec (.callx gd d a c) s = .next t ∧
        Parts s t k m (fun j => if inSet (guarded w m gd) j then (cx.pair a j).toNat else (g.pc + 4) % 2 ^ 64)
          (Warp.takes (guarded w m gd) (d, 2) fun _ => BitVec.ofNat 64 (g.pc + 4))) ∧
    (∀ gd d a c, let cx := seenBy false s k m w g b
      a.toNat < 120 → w.readable (guarded w m gd) (a, 2) → Unlogged s b [a] →
      (∀ j, j < 32 → inSet (guarded w m gd) j = true → Landing s b (cx.pair a j).toNat) →
      ∃ t, exec (.ret gd d a c) s = .next t ∧
        Parts s t k m (fun j => if inSet (guarded w m gd) j then (cx.pair a j).toNat else (g.pc + 4) % 2 ^ 64) (Warp.becomes id))) ∧
  (∀ (s : State) (k : Nat) (m : Lanes) (w : Warp) (g : Gang) (b : Block) (gd : BitVec 4) (d a c : Code), Issuing s k m w g b →
    w.intrap = false → w.trapvec ≠ 0 → a.toNat < 120 → w.readable (guarded w m gd) (a, 2) → Unlogged s b [a] →
    ∀ j, lowestLane (guarded w m gd) = some j → ((seenBy false s k m w g b).pair a j).toNat % 4 ≠ 0 →
      ∃ t w', exec (.ret gd d a c) s = .next t ∧ t.issuing = none ∧ t.warp? k = some w' ∧ w'.intrap = true ∧
        w'.trapcause.extractLsb' 0 8 = 0x02 ∧ w'.trapcause.extractLsb' 21 5 = BitVec.ofNat 5 j ∧ w'.trapaddr = (seenBy false s k m w g b).pair a j ∧
        w'.rows = w.rows ∧ w'.sregs = w.sregs ∧ t.mem = s.mem)

/-- R80: `fork` gives each fibre whose guard is true a child in the lowest free slot, which starts at the address in the pair with the
parent's window, p0 alone and copies of v0 to v7, and tells the parent the slot, or 0xFFFFFFFF where none is free. -/
def Obligations.ForkMakesChildren : Prop :=
  ∀ (s : State) (k : Nat) (m : Lanes) (w : Warp) (g : Gang) (b : Block) (gd : BitVec 4) (d a i : Code), Issuing s k m w g b →
    let q := guarded w m gd
    let cx := seenBy false s k m w g b
    m ≠ 0 → m &&& ~~~w.live = 0 → a.toNat < 120 → w.readable q (a, 2) → w.writable q (d, 1) → w.writable q (0, 8) → Unlogged s b [a] →
    (∀ j, j < 32 → inSet q j = true → Landing s b (cx.pair a j).toNat) →
      ∃ t w', exec (.fork gd d a i) s = .next t ∧ PastWord s t k m g ∧ Outside s t ∧ OthersKept s t k ∧ t.warp? k = some w' ∧
        (∀ c, c < 32 → (inSet w'.live c = true ↔ inSet w.live c = true ∨ ∃ j, j < 32 ∧ inSet q j = true ∧ forkSlot w q j = some c)) ∧
        (∀ j, j < 32 → inSet q j = true → ∀ c, forkSlot w q j = some c →
          w'.standsAt c (cx.pair a j).toNat ∧ w'.base c = w.base j ∧ w'.pred c = 1 ∧
          ∀ v, v < 8 → inSet (w'.row (w.base j + v)).valid c = inSet (w.row (w.base j + v)).valid j ∧
            (inSet (w.row (w.base j + v)).valid j = true → laneWord (w'.row (w.base j + v)).data c = laneWord (w.row (w.base j + v)).data j)) ∧
        (∀ j, j < 32 → inSet q j = true → (d.toNat < 96 ∨ d.toNat < 112 ∧ lowestLane q = some j) → w'.reg (d, 1) j = match forkSlot w q j with
          | some c => BitVec.ofNat 64 c
          | none => 0xFFFFFFFF)

/-- R81: fibres that end leave the live set; their predicates and valid bits are clear; the warp's other fibres keep their registers, and
those of the gang go on at the next word. Nothing outside the warps changes, but for a group barrier that they alone held back.

R81, R82: the warp ends where its last live fibre does, or where `exit` finds the guard true in an active fibre; no fibre of it is
left and memory stays as it is. An `exit` whose guard is false everywhere has no effect.

R73: `enrol` adds the fibres whose guard is true to RJn; `join` lets those that RJn holds wait there until every fibre of it has come,
and the others go on; when the last has come the register is clear and none waits there. -/
def Obligations.FibresPart : Prop :=
  (∀ (s : State) (k : Nat) (m : Lanes) (w : Warp) (g : Gang) (b : Block) (gd : BitVec 4) (d a c : Code), Issuing s k m w g b →
    let q := guarded w m gd;
    w.live &&& ~~~q ≠ 0 →
      ∃ t w', exec (.fend gd d a c) s = .next t ∧ t.issuing = none ∧ t.mem = s.mem ∧ OthersKept s t k ∧
        ((∀ p x n, p ∈ s.warps → p.2.node = w.node → x ∈ p.2.gangs → x.wait ≠ .gbar n) → Outside s t) ∧ t.warp? k = some w' ∧
        w'.live = w.live &&& ~~~q ∧ w'.sregs = w.sregs ∧ w'.fstat = w.fstat ∧
        (∀ j, j < 32 → inSet m j = true → inSet q j = false → w'.standsAt j ((g.pc + 4) % 2 ^ 64)) ∧
        (∀ j r, j < 32 → r < w.rows.length → inSet (w'.row r).valid j = (inSet (w.row r).valid j && !inSet q j)) ∧
        (∀ j r, j < 32 → r < w.rows.length → inSet q j = false → laneWord (w'.row r).data j = laneWord (w.row r).data j) ∧
        (∀ j, j < 32 → vecAt w'.preds j 1 = if inSet q j = true then 0 else vecAt w.preds j 1)) ∧
  (∀ (s : State) (k : Nat) (m : Lanes) (w : Warp) (g : Gang) (b : Block) (gd : BitVec 4) (d a c : Code), Issuing s k m w g b →
    (w.live &&& ~~~(guarded w m gd) = 0 → ∃ t w', exec (.fend gd d a c) s = .next t ∧ t.issuing = none ∧ t.warp? k = some w' ∧
      w'.live = 0 ∧ w'.gangs = [] ∧ (s.debugBlock b.chip b.ctx = none → t.mem = s.mem)) ∧
    (guarded w m gd ≠ 0 → ∃ t w', exec (.exit gd d a c) s = .next t ∧ t.issuing = none ∧ t.warp? k = some w' ∧
      w'.live = 0 ∧ w'.gangs = [] ∧ (s.debugBlock b.chip b.ctx = none → t.mem = s.mem)) ∧
    (guarded w m gd = 0 → ∃ t, exec (.exit gd d a c) s = .next t ∧ Leaves s t k m g (Warp.becomes id))) ∧
  (∀ (s : State) (k : Nat) (m : Lanes) (w : Warp) (g : Gang) (b : Block) (gd : BitVec 4) (d a i : Code), Issuing s k m w g b → w.apart g →
    let q := guarded w m gd;
    let n := g.x i % 4;
    let there := w.lanesWhere fun x => decide (x.mask ≠ m) && decide (x.wait = .join n);
    let need := vecAt w.rj n 0;
    (∃ t, exec (.enrol gd d a i) s = .next t ∧ Leaves s t k m g fun w w' => Warp.becomes id w w' ∧ (q ≠ 0 → vecAt w'.rj n 0 = vecAt w.rj n 0 ||| q)) ∧
    (∃ t, exec (.join gd d a i) s = .next t ∧ Parts s t k m (fun _ => (g.pc + 4) % 2 ^ 64) fun w w' => Warp.becomes id w w' ∧
      (q &&& need ≠ 0 → need &&& ~~~(there ||| (m &&& (q &&& need))) ≠ 0 → vecAt w'.rj n 0 = need ∧
        ∃ x, x ∈ w'.gangs ∧ x.wait = .join n ∧ x.mask = m &&& (q &&& need)) ∧
      (q &&& need ≠ 0 → need &&& ~~~(there ||| (m &&& (q &&& need))) = 0 → vecAt w'.rj n 0 = 0 ∧ ∀ x, x ∈ w'.gangs → x.wait ≠ .join n)))

/-- R83, R84, R272: with no write of the warp outstanding, the fibres whose guard is true arrive at a barrier; they wait there while another
live fibre of the block has not come. The last to come releases it: they go on once the loads they had made are back; a group barrier
counts its episode then. A barrier of a group that the block has no entry for traps. -/
def Obligations.BarriersHold : Prop :=
  ∀ (s : State) (k : Nat) (m : Lanes) (w : Warp) (g : Gang) (b : Block) (gd : BitVec 4) (d a i : Code), Issuing s k m w g b →
    let q := guarded w m gd
    let last := fun (p : Wait) => tabSorted s.warps = true ∧ w.live ≠ 0 ∧ (∀ j v, j ≠ k → s.warp? j = some v → v.node = w.node → v.live ≠ 0 → v.allAt p = true) ∧
      w.live &&& ~~~(q ||| w.lanesWhere fun x => decide (x.mask ≠ m) && decide (x.wait = p)) = 0
    let back := fun (v : Warp) => ∀ x, x ∈ v.gangs → ∃ n, x.wait = .stall (.loads n)
    (q = 0 → (∃ t, exec (.bar gd d a i) s = .next t ∧ Leaves s t k m g (Warp.becomes id)) ∧
      ∃ t, exec (.gbar gd d a i) s = .next t ∧ Leaves s t k m g (Warp.becomes id)) ∧
    (q ≠ 0 → (g.half = true ∨ w.releaseMet s.fresh 0 (s.podTime b.chip) = true) → last (.bar (g.x i % 16)) →
      ∃ t, exec (.bar gd d a i) s = .next t ∧ t.issuing = none ∧ OthersKept s t k ∧ ∀ j v, t.warp? j = some v → v.node = w.node → v.live ≠ 0 → back v) ∧
    (∀ gr grp, s.grid? b.gid = some gr → tabLook gr.groups (g.x i % 256) = some grp → s.nodeOf b.gid b.bid = some b → b.node = w.node → b.bid ∈ grp.members →
      let n := g.x i % 256
      let rel := (tabLook gr.released n).getD 0
      q ≠ 0 → (g.half = true ∨ w.releaseMet s.fresh 2 (s.podTime b.chip) = true) → (∃ p, p ∈ b.groups ∧ p.1 = n) → last (.gbar n) →
      (tabLook b.episodes n).getD 0 = rel → (∀ bid, bid ∈ grp.members → bid = b.bid ∨ ∃ x, s.nodeOf b.gid bid = some x ∧ rel ≤ (tabLook x.episodes n).getD 0 ∧
        (x.isOver = true ∨ (s.atGbar x.node n = true ∧ (tabLook x.episodes n).getD 0 = rel))) →
      ∃ t gr' v, exec (.gbar gd d a i) s = .next t ∧ t.issuing = none ∧ t.grid? b.gid = some gr' ∧ tabLook gr'.released n = some (rel + 1) ∧ t.warp? k = some v ∧ back v) ∧
    (q ≠ 0 → (g.half = true ∨ w.releaseMet s.fresh 0 (s.podTime b.chip) = true) → w.apart g →
      ∃ t, exec (.bar gd d a i) s = .next t ∧ Parts s t k m (fun _ => (g.pc + 4) % 2 ^ 64) fun w w' => Warp.becomes id w w' ∧
        ((∃ j v, j ≠ k ∧ s.warp? j = some v ∧ v.node = w.node ∧ v.live ≠ 0 ∧ v.allAt (.bar (g.x i % 16)) = false) →
          ∃ x, x ∈ w'.gangs ∧ x.wait = .bar (g.x i % 16) ∧ x.mask = q)) ∧
    (q ≠ 0 → (g.half = true ∨ w.releaseMet s.fresh 2 (s.podTime b.chip) = true) → (∃ p, p ∈ b.groups ∧ p.1 = g.x i % 256) → w.apart g →
      ∃ t w', exec (.gbar gd d a i) s = .next t ∧ t.issuing = none ∧ t.mem = s.mem ∧ OthersKept s t k ∧ t.warp? k = some w' ∧ Warp.becomes id w w' ∧
        ∀ j, j < 32 → inSet m j = true → w'.standsAt j ((g.pc + 4) % 2 ^ 64)) ∧
    (q ≠ 0 → (∀ p, p ∈ b.groups → p.1 ≠ g.x i % 256) → w.intrap = false → w.trapvec ≠ 0 →
      ∃ t w', exec (.gbar gd d a i) s = .next t ∧ t.warp? k = some w' ∧ w'.intrap = true ∧ w'.trapcause.extractLsb' 0 8 = 0x09)

/-- R74, R75, R85, R86: `loop` takes its count from the lowest active fibre and starts the next idle level, or skips a body of no words or
no iterations; `lbrk` sets the break of the innermost level and sends fibres to its body's end.

R75: when every live fibre stands at the body's end, the fibres are one gang again; the body runs again while iterations are left and
no break is set, else the level is idle and the warp goes on after the body. -/
def Obligations.LoopsRun : Prop :=
  (∀ (s : State) (k : Nat) (m : Lanes) (w : Warp) (g : Gang) (b : Block), Issuing s k m w g b →
    let cx := seenBy false s k m w g b;
    (∀ gd d a i j, lowestLane m = some j → inSet (guarded w m gd) j = true → a.toNat < 120 → w.readable (laneBit j) (a, 1) → Unlogged s b [a] →
      ((cx.word a j = 0 ∨ g.x i % 4096 = 0) → ∃ t, exec (.loop gd d a i) s = .next t ∧
        Parts s t k m (fun _ => (g.pc + 4 + 4 * (g.x i % 4096)) % 2 ^ 64) (Warp.becomes id)) ∧
      (cx.word a j ≠ 0 → g.x i % 4096 ≠ 0 → m = w.live → w.loopDepth < 3 → s.codeBase w ≤ g.pc + 4 → (g.pc + 4 - s.codeBase w) / 4 < 2 ^ 19 →
        ∃ t, exec (.loop gd d a i) s = .next t ∧ Leaves s t k m g (Warp.becomes fun w =>
          { w with loops := vecPut w.loops w.loopDepth (loopOf false (g.x i % 4096) ((g.pc + 4 - s.codeBase w) / 4) (cx.word a j).toNat) })) ∧
      (cx.word a j ≠ 0 → g.x i % 4096 ≠ 0 → (m ≠ w.live ∨ 3 ≤ w.loopDepth) → w.intrap = false → w.trapvec ≠ 0 →
        ∃ t w', exec (.loop gd d a i) s = .next t ∧ t.warp? k = some w' ∧ w'.intrap = true ∧ w'.trapcause.extractLsb' 0 8 = 0x08)) ∧
    (∀ gd d a i j, lowestLane m = some j → inSet (guarded w m gd) j = false → ∃ t, exec (.loop gd d a i) s = .next t ∧
      Parts s t k m (fun _ => (g.pc + 4 + 4 * (g.x i % 4096)) % 2 ^ 64) (Warp.becomes id)) ∧
    (∀ gd d a i n x, guarded w m gd ≠ 0 → w.innerLoop = some (n, x) → ∃ t, exec (.lbrk gd d a i) s = .next t ∧
      Parts s t k m (fun j => (if inSet (guarded w m gd) j then loopEndPc (s.codeBase w) x else g.pc + 4) % 2 ^ 64) (Warp.becomes fun w =>
        { w with loops := vecPut w.loops n (x ||| BitVec.ofNat 64 (2 ^ 63)) })) ∧
    (∀ gd d a i, guarded w m gd = 0 → ∃ t, exec (.lbrk gd d a i) s = .next t ∧ Leaves s t k m g (Warp.becomes id))) ∧
  (∀ (s : State) (w : Warp) (n : Nat) (x : DWord), s.warp? s.cue.warp = some w → w.innerLoop = some (n, x) → w.allAt .loopEnd = true →
    let again := decide (loopCount x - 1 ≠ 0) && !loopBrk x;
    ∃ t w', exec .loopIterationEnd s = .next t ∧ t.warp? s.cue.warp = some w' ∧ t.mem = s.mem ∧ OthersKept s t s.cue.warp ∧
      (∀ j, j < 32 → inSet w.live j = true → w'.standsAt j (if again then s.codeBase w + 4 * loopStart x else loopEndPc (s.codeBase w) x)) ∧
      Warp.becomes (fun w => { w with
        loops := vecPut w.loops n (loopOf false (if again then loopLen x else 0) (loopStart x) (loopCount x - 1)) }) w w')

/-! ## Predicates -/

/-- R71, R88, R89: `plog` combines two predicates by its truth table; `pmov` moves the predicate word, p0 kept set.

R90: the votes of the fibres whose guard is true: whether any, and whether every, is not 0, as a predicate of each; the mask of those
that are not 0, and whether all are equal, as a value. A latch-side code names no predicate (R50). -/
def Obligations.PredicatesAndVotes : Prop :=
  (∀ (s : State) (k : Nat) (m : Lanes) (w : Warp) (g : Gang) (b : Block), Issuing s k m w g b →
    let cx := seenBy false s k m w g b;
    (∀ gd d a c, let table := d.extractLsb' 5 2 ++ a.extractLsb' 5 2
      let f := fun j => table.getLsbD ((if w.predBit j (a.extractLsb' 0 5).toNat then 2 else 0) + (if w.predBit j (c.extractLsb' 0 5).toNat then 1 else 0))
      let n := (d.extractLsb' 0 5).toNat
      ∃ t, exec (.plog gd d a c) s = .next t ∧ Leaves s t k m g (Warp.setsPreds (guarded w m gd) n fun j =>
        [if c.extractLsb' 5 2 = 1 then w.predBit j n && f j else if c.extractLsb' 5 2 = 2 then w.predBit j n || f j else f j])) ∧
    (∀ gd d a, w.writable (guarded w m gd) (d, 1) → ∃ t, exec (.pmovGet gd d a) s = .next t ∧
      Leaves s t k m g (Warp.takes (guarded w m gd) (d, 1) fun j => (w.pred j).setWidth 64)) ∧
    (∀ gd d a, w.readable (guarded w m gd) (a, 1) → w.latched m a → Unlogged s b [a] → ∃ t, exec (.pmovSet gd d a) s = .next t ∧
      Leaves s t k m g fun w w' => Warp.becomes (fun w => { w with preds := w'.preds }) w w' ∧
        ∀ j, j < 32 → w'.pred j = if inSet (guarded w m gd) j then cx.word a j ||| 1 else w.pred j)) ∧
  (∀ (s : State) (k : Nat) (m : Lanes) (w : Warp) (g : Gang) (b : Block) (gd : BitVec 4) (d a : Code), Issuing s k m w g b →
    let q := guarded w m gd;
    let v := (seenBy false s k m w g b).word a;
    w.readable q (a, 1) → w.latched m a → Unlogged s b [a] →
      (∃ t, exec (.voteAny gd d a) s = .next t ∧ Leaves s t k m g (Warp.setsPreds q (namedPred d) fun _ =>
        [(lanesOf q).any fun j => decide (v j ≠ 0)])) ∧
      (∃ t, exec (.voteAll gd d a) s = .next t ∧ Leaves s t k m g (Warp.setsPreds q (namedPred d) fun _ =>
        [(lanesOf q).all fun j => decide (v j ≠ 0)])) ∧
      (w.writable q (d, 1) → (∃ t, exec (.voteBallot gd d a) s = .next t ∧ Leaves s t k m g fun w w' => ∃ x : Word,
          (∀ j, j < 32 → x.getLsbD j = (inSet q j && decide (v j ≠ 0))) ∧ Warp.takes q (d, 1) (fun _ => x.setWidth 64) w w') ∧
        ∃ t, exec (.voteUni gd d a) s = .next t ∧ Leaves s t k m g (Warp.takes q (d, 1) fun _ =>
          if (lanesOf q).all fun j => decide (v j = v ((lanesOf q).headD 0)) then 1 else 0)))

/-- R91: compares of integers set three predicates, less, equal and greater, from the first element of each fibre's operands.

R92, R93: compares of floats set four predicates, unordered alone where either operand is a NaN, and NV where one is signalling; `fcls`
sets one, whether the operand is of a class of the mask.

R94: `sel` gives every active fibre its first source where the guard holds and its second elsewhere; on the scalar pipe the lowest
active fibre chooses. -/
def Obligations.ComparesSet : Prop :=
  (∀ (s : State) (k : Nat) (m : Lanes) (w : Warp) (g : Gang) (b : Block) (gd : BitVec 4) (d a : Code), Issuing s k m w g b → w.vectorRole →
    let q := guarded w m gd;
    let cx := seenBy false s k m w g b;
    let val := fun (x : DWord) => ofPat w.itype.signed w.itype.width (elemOf x w.itype.width 0);
    w.readable q (a, w.tiSize) → w.latched m a → Unlogged s b [a] →
      (∀ c, w.readable q (c, w.tiSize) → w.latched m c → Unlogged s b [c] → ∃ t, exec (.cmp gd d a c) s = .next t ∧
        Leaves s t k m g (Warp.setsPreds q (namedPred d) fun j =>
          [decide (val (cx.ti a j) < val (cx.ti c j)), decide (val (cx.ti a j) = val (cx.ti c j)), decide (val (cx.ti a j) > val (cx.ti c j))])) ∧
      (∀ i, ∃ t, exec (.cmpi gd d a i) s = .next t ∧
        Leaves s t k m g (Warp.setsPreds q (namedPred d) fun j => let x := cx.imm i w.itype.imm
          [decide (val (cx.ti a j) < val x), decide (val (cx.ti a j) = val x), decide (val (cx.ti a j) > val x)]))) ∧
  (∀ (s : State) (k : Nat) (m : Lanes) (w : Warp) (g : Gang) (b : Block) (gd : BitVec 4) (d a : Code), Issuing s k m w g b → w.vectorRole →
    let q := guarded w m gd;
    let val := fun c j => fdec w.ftype (elemOf ((seenBy false s k m w g b).tf c j) w.ftype.width 0);
    let order := fun (x y : FV) => if x.isNaN || y.isNaN then [false, false, false, true] else [fvLt x y, fvEq x y, fvLt y x, false];
    w.readable q (a, w.tfSize) → w.latched m a → Unlogged s b [a] →
      (∀ c, w.readable q (c, w.tfSize) → w.latched m c → Unlogged s b [c] → ∃ t, exec (.fcmp gd d a c) s = .next t ∧
        Leaves s t k m g fun w w' => w'.fstat = w.fstat ||| (if (lanesOf q).any fun j => (val a j).isSig || (val c j).isSig
            then flNV.setWidth 32 else 0) ∧
          Warp.setsPreds q (namedPred d) (fun j => order (val a j) (val c j)) { w with fstat := w'.fstat } w') ∧
      (∀ x, ∃ t, exec (.fcls gd d a x) s = .next t ∧ Leaves s t k m g (Warp.setsPreds q (namedPred d) fun j =>
        [inClass w.ftype x (elemOf ((seenBy false s k m w g b).tf a j) w.ftype.width 0)]))) ∧
  (∀ (s : State) (k : Nat) (m : Lanes) (w : Warp) (g : Gang) (b : Block) (gd : BitVec 4) (d a c : Code) (low : Nat), Issuing s k m w g b →
    let n := w.tiSize;
    let x : Shape := { guard := 0, dst := (d, n), srcs := [(a, n), (c, n)] };
    let lanes := if x.scalar then laneBit low else m;
    let q := guarded w m gd;
    let cx := seenBy false s k m w g b;
    let val := fun e j => cx.val { code := e, wide := w.itype.wide, imm := .int (if w.itype.wide then 64 else 32) } j;
    lowestLane m = some low → x.allowed w → w.latched m a → w.latched m c → Unlogged s b [a, c] →
    w.readable (lanes &&& q) (a, n) → w.readable (lanes &&& ~~~q) (c, n) → w.writable lanes (d, n) →
      ∃ t, exec (.sel gd d a c) s = .next t ∧ Leaves s t k m g (Warp.takes lanes (d, n) fun j => if inSet q j then val a j else val c j))

/-! ## The pipes -/

/-- R21, R25, R128, R164 to R168: every instruction of the pipes whose operands are in order completes. Where no read of pod time is logged, nothing
but its destination in the fibres whose guard is true, WARN, FSTAT and the counters of its warp has changed. -/
def Obligations.PipeWordsComplete : Prop :=
  ∀ (i : Instr) (s : State) (k : Nat) (m : Lanes) (w : Warp) (g : Gang) (b : Block) (x : Shape), Issuing s k m w g b →
    shapeOf i w g.pfx = some x → x.ready w m →
    ∃ t, exec i s = .next t ∧ PastWord s t k m g ∧ ((s.debugBlock b.chip b.ctx = none ∨ ∀ y, y ∈ x.srcs → y.1 ≠ 116) → Outside s t ∧ OthersKept s t k ∧
      ∃ w', t.warp? k = some w' ∧ OnlyWrites w w' (w.dstRow (guarded w m x.guard) x.dst) (dstScalar x.dst))

/-- R95, R96, R131, R132, R134, R139: integer arithmetic takes every element of its operands at TI, computes exactly, and delivers the low bits, or under SAT
the nearest value of the type, with the flag SAT where that differs in any fibre. -/
def Obligations.IntegersComputed : Prop :=
  ∀ (s : State) (k : Nat) (m : Lanes) (w : Warp) (g : Gang) (b : Block) (gd : BitVec 4) (d a c : Code), Issuing s k m w g b →
    let t := w.itype
    let n := w.tiSize
    let sat := (g.pfx.hmod.getD {}).sat
    let cx := fun on => seenBy on s k m w g b
    let val := fun (x : DWord) (e : Nat) => ofPat t.signed t.width (elemOf x t.width e)
    let kept := fun (on : Bool) (r : Int) => if on = true then max (intMin t.signed t.width) (min (intMax t.signed t.width) r) else r
    let out := fun (on : Bool) (f : Nat → Int) => ({ v := placeElems t ((List.range t.count).map fun e => toPat t.width (kept on (f e))),
                                                     fl := flagIf ((List.range t.count).any fun e => decide (kept on (f e) ≠ f e)) flSAT } : LaneOut)
    let one := fun (i : Instr) (on : Bool) (f : Int → Int) => Yields s k m w g b i { guard := gd, dst := (d, n), srcs := [(a, n)] }
      fun j => out (on && sat) fun e => f (val ((cx on).ti a j) e)
    let two := fun (i : Instr) (on : Bool) (f : Int → Int → Int) => Yields s k m w g b i { guard := gd, dst := (d, n), srcs := [(a, n), (c, n)] }
      fun j => out (on && sat) fun e => f (val ((cx on).ti a j) e) (val ((cx on).ti c j) e)
    let imm := fun (i : Instr) (f : Int → Int → Int) => Yields s k m w g b i { guard := gd, dst := (d, n), srcs := [(a, n)] }
      fun j => out sat fun e => f (val ((cx true).ti a j) e) (val ((cx true).imm c t.imm) e)
    two (.add gd d a c) true (fun x y => x + y) ∧ two (.sub gd d a c) true (fun x y => x - y) ∧ two (.mul gd d a c) true (fun x y => x * y) ∧
    imm (.addi gd d a c) (fun x y => x + y) ∧ imm (.muli gd d a c) (fun x y => x * y) ∧
    one (.neg gd d a) true (fun x => -x) ∧ one (.abs gd d a) true (fun x => x.natAbs) ∧
    two (.mulh gd d a c) false (fun x y => x * y / 2 ^ t.width) ∧ two (.min gd d a c) false min ∧ two (.max gd d a c) false max ∧
    two (.div gd d a c) false (fun x y => if y = 0 then 2 ^ t.width - 1 else Int.tdiv x y) ∧
    two (.rem gd d a c) false (fun x y => if y = 0 then x else Int.tmod x y) ∧
    (∀ x : Shape, x = accShape g.pfx gd d n [(a, n), (c, n)] → (d.toNat < 112 ∨ (g.pfx.hmod.getD {}).cen = true) → Yields s k m w g b (.mad gd d a c) x fun j =>
      out sat fun e => val ((cx true).ti a j) e * val ((cx true).ti c j) e +
        val (if (g.pfx.hmod.getD {}).cen then (cx true).ti (g.pfx.hmod.getD {}).c j else w.reg (d, n) j) e)

/-- R95, R133, R134, R139: bitwise instructions, shifts, counts and reversals work on the pattern of every element at TI; a shift takes the low five bits
of its count, six at a 64-bit type, and one by the element's width or more shifts everything out. -/
def Obligations.PatternsComputed : Prop :=
  ∀ (s : State) (k : Nat) (m : Lanes) (w : Warp) (g : Gang) (b : Block) (gd : BitVec 4) (d a c : Code), Issuing s k m w g b →
    let t := w.itype
    let n := w.tiSize
    let cx := seenBy false s k m w g b
    let pat := fun (x : DWord) (e : Nat) => elemOf x t.width e
    let out := fun (f : Nat → Nat) => ({ v := placeElems t ((List.range t.count).map f) } : LaneOut)
    let low := fun (x : Nat) => x % (if t.wide then 64 else 32)
    let signed := fun (x : Nat) => ofPat true t.width x
    let one := fun (i : Instr) (f : Nat → Nat) => Yields s k m w g b i { guard := gd, dst := (d, n), srcs := [(a, n)] }
      fun j => out fun e => f (pat (cx.ti a j) e)
    let two := fun (i : Instr) (f : Nat → Nat → Nat) => Yields s k m w g b i { guard := gd, dst := (d, n), srcs := [(a, n), (c, n)] }
      fun j => out fun e => f (pat (cx.ti a j) e) (pat (cx.ti c j) e)
    let shift := fun (i : Instr) (f : Nat → Nat → Nat) => Yields s k m w g b i { guard := gd, dst := (d, n), srcs := [(a, n), (c, 1)] }
      fun j => out fun e => f (pat (cx.ti a j) e) (low (cx.word c j).toNat)
    let imm := fun (i : Instr) (f : Nat → Nat → Nat) => Yields s k m w g b i { guard := gd, dst := (d, n), srcs := [(a, n)] }
      fun j => out fun e => f (pat (cx.ti a j) e) (pat (cx.imm c t.imm) e)
    let left := fun (x y : Nat) => x * 2 ^ y % 2 ^ t.width
    let right := fun (x y : Nat) => x / 2 ^ y
    let arith := fun (x y : Nat) => toPat t.width (signed x / 2 ^ y)
    two (.and gd d a c) (fun x y => x &&& y) ∧ two (.or gd d a c) (fun x y => x ||| y) ∧ two (.xor gd d a c) (fun x y => x ^^^ y) ∧
    imm (.andi gd d a c) (fun x y => x &&& y) ∧ imm (.ori gd d a c) (fun x y => x ||| y) ∧ imm (.xori gd d a c) (fun x y => x ^^^ y) ∧ one (.not gd d a) (fun x => 2 ^ t.width - 1 - x) ∧
    shift (.shl gd d a c) left ∧ shift (.shr gd d a c) right ∧ shift (.sar gd d a c) arith ∧
    shift (.rot gd d a c) (fun x y => (BitVec.ofNat t.width x |>.rotateLeft y).toNat) ∧
    one (.shli gd d a c) (fun x => left x (low (g.x c))) ∧ one (.shri gd d a c) (fun x => right x (low (g.x c))) ∧
    one (.sari gd d a c) (fun x => arith x (low (g.x c))) ∧
    one (.popc gd d a) (fun x => (List.range t.width).countP fun i => x.testBit i) ∧
    one (.clz gd d a) (fun x => ((List.range t.width).map fun i => x.testBit (t.width - 1 - i)).findIdx id) ∧
    one (.ctz gd d a) (fun x => ((List.range t.width).map fun i => x.testBit i).findIdx id) ∧
    one (.brev gd d a) (fun x => (BitVec.ofNat t.width x).reverse.toNat) ∧
    one (.bswap gd d a) (fun x => leNat (leBytes (t.width / 8) x).reverse)

/-- R135 to R138, R149, R150: moves give a value unchanged, an immediate, a pair plus a scaled index, or a sum with its carry; fields are taken out of a value
and put into the old destination; `sad` adds absolute differences to it; `rndh` and `rndq` give their patterns. -/
def Obligations.ValuesMoved : Prop :=
  ∀ (s : State) (k : Nat) (m : Lanes) (w : Warp) (g : Gang) (b : Block) (gd : BitVec 4) (d a c : Code), Issuing s k m w g b →
    let t := w.itype
    let n := w.tiSize
    let u := if t.count > 1 then 32 else t.width
    let cx := seenBy false s k m w g b
    let pos := fun j => (cx.word c j).toNat % 256
    let len := fun j => min ((cx.word c j).toNat / 256 % 256) (u - pos j)
    let field := fun (x : Nat) j => x / 2 ^ pos j % 2 ^ len j
    Yields s k m w g b (.mov gd d a c) { guard := gd, dst := (d, n), srcs := [(a, n)] }
      (fun j => { v := cx.val { code := a, wide := t.wide, imm := .int (if t.wide then 64 else 32) } j }) ∧
    Yields s k m w g b (.movi gd d a c) { guard := gd, dst := (d, n), srcs := [] }
      (fun _ => { v := placeElems t ((List.range t.count).map fun e => elemOf (cx.imm c t.imm) t.width e) }) ∧
    Yields s k m w g b (.lea gd d a c) { guard := gd, dst := (d, 2), srcs := [(a, 2), (c, 1)] }
      (fun j => { v := cx.pair a j + (cx.word c j).signExtend 64 * BitVec.ofNat 64 (t.width / 8) }) ∧
    (d.toNat < 112 → Yields s k m w g b (.addc gd d a c) { guard := gd, dst := (d, 2), srcs := [(a, 1), (c, 1)], old := [(highCode d, 1)] }
      fun j => { v := (cx.word a j).setWidth 64 + (cx.word c j).setWidth 64 + (w.reg (highCode d, 1) j &&& 1) }) ∧
    Yields s k m w g b (.bfx gd d a c) { guard := gd, dst := (d, n), srcs := [(a, n), (c, 1)] }
      (fun j => { v := if len j = 0 then 0 else placeInt t.signed u (toPat u (ofPat t.signed (len j) (field ((cx.ti a j).toNat % 2 ^ u) j))) }) ∧
    (d.toNat < 112 → Yields s k m w g b (.bfi gd d a c) { guard := gd, dst := (d, n), srcs := [(a, n), (c, 1)], old := [(d, n)] }
      fun j => { v := placeInt t.signed u ((w.reg (d, n) j).toNat % 2 ^ u - field ((w.reg (d, n) j).toNat % 2 ^ u) j * 2 ^ pos j +
        (cx.ti a j).toNat % 2 ^ len j * 2 ^ pos j) }) ∧
    (d.toNat < 112 → Yields s k m w g b (.sad gd d a c) { guard := gd, dst := (d, n), srcs := [(a, n), (c, n)], old := [(d, n)] }
      fun j => { v := BitVec.ofNat 64 (((w.reg (d, n) j).toNat + ((List.range t.count).map fun e =>
        (ofPat t.signed t.width (elemOf (cx.ti a j) t.width e) - ofPat t.signed t.width (elemOf (cx.ti c j) t.width e)).natAbs).sum) %
          2 ^ (if t.wide then 64 else 32)) }) ∧
    Yields s k m w g b (.rndh gd d a c) { guard := gd, dst := (d, 1), srcs := [(a, 1), (c, 1)] } (fun j => { v := (hash32 (cx.word a j) (cx.word c j)).setWidth 64 }) ∧
    Yields s k m w g b (.rndq gd d a c) { guard := gd, dst := (d, 1), srcs := [(a, 1), (c, 1)] }
      (fun j => { v := ((cx.word a j).reverse ^^^ cx.word c j).setWidth 64 })

/-- R97, R106, R109 to R111, R118, R129, R140 to R148: float instructions take every element of their operands at TF; sums and products are exact and rounded once, in
the mode of FSTAT or as the instruction says; their flags join FSTAT. `cvt` goes from TC to the type of its code. -/
def Obligations.FloatsComputed : Prop :=
  ∀ (s : State) (k : Nat) (m : Lanes) (w : Warp) (g : Gang) (b : Block) (gd : BitVec 4) (d a c : Code), Issuing s k m w g b →
    let f := w.ftype
    let n := w.tfSize
    let h := g.pfx.hmod.getD {}
    let cx := fun on => seenBy on s k m w g b
    let el := fun (x : DWord) (e : Nat) => elemOf x f.width e
    let out := fun (r : Nat → FRes) => ({ v := BitVec.ofNat 64 (joinElems f.width ((List.range (codeCount w.tf)).map fun e => (r e).bits)),
                                          fl := (List.range (codeCount w.tf)).foldl (fun x e => x ||| (r e).fl) 0 } : LaneOut)
    let one := fun (i : Instr) (r : Nat → FRes) => Yields s k m w g b i { guard := gd, dst := (d, n), srcs := [(a, n)] } fun j => out fun e => r (el ((cx false).tf a j) e)
    let two := fun (i : Instr) (on : Bool) (r : Nat → Nat → FRes) => Yields s k m w g b i { guard := gd, dst := (d, n), srcs := [(a, n), (c, n)] }
      fun j => out fun e => r (el ((cx on).tf a j) e) (el ((cx on).tf c j) e)
    let imm := fun (i : Instr) (r : Nat → Nat → FRes) => Yields s k m w g b i { guard := gd, dst := (d, n), srcs := [(a, n)] }
      fun j => out fun e => r (el ((cx true).tf a j) e) (el ((cx true).imm c (.flt w.tf)) e)
    let third := fun j => if h.cen = true then (cx true).tf h.c j else w.reg (d, n) j
    let three := fun (i : Instr) (r : Nat → Nat → Nat → FRes) => ∀ x : Shape, x = accShape g.pfx gd d n [(a, n), (c, n)] → (d.toNat < 112 ∨ h.cen = true) →
      Yields s k m w g b i x fun j => out fun e => r (el ((cx true).tf a j) e) (el ((cx true).tf c j) e) (el (third j) e)
    two (.fadd gd d a c) true (faddRes h.sat f w.mode) ∧ two (.fsub gd d a c) true (fsubRes h.sat f w.mode) ∧ two (.fmul gd d a c) true (fmulRes h.sat f w.mode) ∧
    imm (.faddi gd d a c) (faddRes h.sat f w.mode) ∧ imm (.fmuli gd d a c) (fmulRes h.sat f w.mode) ∧
    three (.fma gd d a c) (fmaRes h.sat f w.mode) ∧ three (.fnma gd d a c) (fnmaRes h.sat f w.mode) ∧
    two (.fmin gd d a c) false (fminmax f false) ∧ two (.fmax gd d a c) false (fminmax f true) ∧
    two (.fdiv gd d a c) false (fun x y => fdivRes f w.mode (fdec f x) (fdec f y)) ∧
    one (.fneg gd d a) (fnegRes f) ∧ one (.fabs gd d a) (fabsRes f) ∧ one (.frndRne gd d a) (frndRes f .rne) ∧ one (.frndRtz gd d a) (frndRes f .rtz) ∧
    one (.frndRdn gd d a) (frndRes f .rdn) ∧ one (.frndRup gd d a) (frndRes f .rup) ∧
    one (.frcp gd d a) (sfuRes .rcp f w.mode) ∧ one (.frsq gd d a) (sfuRes .rsq f w.mode) ∧ one (.fsqrt gd d a) (sfuRes .sqrt f w.mode) ∧
    one (.fexp2 gd d a) (sfuRes .exp2 f w.mode) ∧ one (.flog2 gd d a) (sfuRes .log2 f w.mode) ∧ one (.fsin gd d a) (sfuRes .sin f w.mode) ∧
    one (.fcos gd d a) (sfuRes .cos f w.mode) ∧ one (.ftanh gd d a) (sfuRes .tanh f w.mode) ∧
    Yields s k m w g b (.fscl gd d a c) { guard := gd, dst := (d, n), srcs := [(a, n), (c, 1)] }
      (fun j => out fun e => fsclRes f w.mode h.sat (el ((cx true).tf a j) e) ((cx true).word c j).toInt) ∧
    (d.toNat < 112 ∨ h.cen = true → ∀ (p q : Nat) (x : Shape), p = (if w.tf = 3 ∨ w.tf = 0 then 2 else 1) → q = (if w.tf = 3 then 2 else 1) →
      x = accShape g.pfx gd d q [(a, p), (c, p)] → Yields s k m w g b (.fdot2 gd d a c) x
        fun j => dotLane w h.sat ((cx true).val { code := a, wide := decide (p = 2), imm := .flt w.tf } j)
          ((cx true).val { code := c, wide := decide (p = 2), imm := .flt w.tf } j)
          (if h.cen = true then (cx true).val { code := h.c, wide := decide (q = 2), imm := .flt (if q = 2 then 3 else 0) } j else w.reg (d, q) j)) ∧
    (∀ z : Code, Yields s k m w g b (.cvt gd d a z) { guard := gd, dst := (d, codeSize z.toNat), srcs := [(a, codeSize w.tc)] } fun j =>
      let x := (cx true).val { code := a, wide := decide (codeWidth w.tc = 64), imm := (match itypeOf w.tc with
        | some t => .int t.width
        | none => .flt w.tc) } j
      let r := convertRes w.tc z.toNat w.mode h.sat (elemOf x (codeWidth w.tc) 0)
      { v := placeCode z.toNat r.bits, fl := r.fl })

/-- R102 to R105, R109: rounding leaves a value of the format as it is, in every mode, and raises nothing. -/
def Obligations.RepresentedValuesKept : Prop :=
  ∀ (c : Nat) (f : Fmt) (mode : Mode) (sat neg : Bool) (x n : Nat) (e : Int), fmtOf c = some f → x < 2 ^ f.width → fdec f x = .fin neg n e →
    (roundFV f mode sat (fdec f x)).bits = x ∧ (roundFV f mode sat (fdec f x)).fl = 0

/-- R151 to R157: the cross-lane instructions exchange values among the fibres of the gang whose guard is true, an absent one giving a fibre's own value;
reductions and scans join them in a fixed tree, or in lane order. That
only the lowest fibre's element of a scalar `wrl` counts follows from R25 (log 14: DEDUCED). -/
def Obligations.LanesExchange : Prop :=
  ∀ (s : State) (k : Nat) (m : Lanes) (w : Warp) (g : Gang) (b : Block) (gd : BitVec 4) (d a c : Code), Issuing s k m w g b →
    let n := w.tiSize
    let cx := seenBy false s k m w g b
    let move := fun j => cx.val (cx.moveSrc a) j
    let index := fun j => (cx.word c j).toNat % 32
    let low := fun (l : Lanes) => (lowestLane l).getD 0
    let one : Shape := { guard := gd, dst := (d, n), srcs := [(a, n)] }
    let two : Shape := { guard := gd, dst := (d, n), srcs := [(a, n), (c, 1)] }
    let old : Shape := { two with old := [(d, n)] }
    let other := fun (l : Lanes) (j i : Nat) => if i < 32 ∧ inSet l i = true then move i else move j
    Yields s k m w g b (.shfl gd d a c) two (fun j => { v := other (two.acting w m) j (index j) }) ∧
    Yields s k m w g b (.shfx gd d a c) one (fun j => { v := match g.x c / 32 % 4 with
      | 0 => other (one.acting w m) j (j ^^^ (g.x c % 32))
      | 1 => if g.x c % 32 ≤ j then other (one.acting w m) j (j - g.x c % 32) else move j
      | 2 => other (one.acting w m) j (j + g.x c % 32)
      | _ => other (one.acting w m) j ((j + g.x c % 32) % 32) }) ∧
    Yields s k m w g b (.rdl gd d a c) two (fun _ => { v := other (two.acting w m) (low (two.acting w m)) (index (low (two.acting w m))) }) ∧
    (d.toNat < 112 → Yields s k m w g b (.wrl gd d a c) old fun j => { v := if j = index (low (old.acting w m)) then move (low (old.acting w m)) else w.reg (d, n) j }) ∧
    (w.fwide = false → ∀ x : Shape, x = { guard := gd, dst := (d, 2), srcs := [(a, 1), (c, 1)] } → Yields s k m w g b (.wscana gd d a c) x fun j =>
      let l := (List.range (codeCount w.tf)).filterMap fun e => ((affineScan w.ftype w.mode (fun i => elemOf (cx.tf a i) w.ftype.width e)
        (fun i => elemOf (cx.tf c i) w.ftype.width e) (lanesOf (x.acting w m)) none).find? fun p => decide (p.1 = j)).map Prod.snd
      { v := BitVec.ofNat 64 (joinElems w.ftype.width (l.map fun p => p.1.x) + joinElems w.ftype.width (l.map fun p => p.2.x) * 2 ^ 32),
        fl := l.foldl (fun y p => y ||| p.1.fl ||| p.2.fl) 0 }) ∧
    (∀ (o : BitVec 4) (ord r : BitVec 1) (x : Shape), x = { guard := gd, dst := (d, if o.toNat < 6 then n else w.tfSize), srcs := [(a, if o.toNat < 6 then n else w.tfSize)] } →
      Yields s k m w g b (.wred gd d a o ord r) x (fun _ => (cx.reducer a o.toNat).run (decide (ord = 1)) (cx.val (cx.reducer a o.toNat).src) (x.acting w m)) ∧
      ∀ ex : BitVec 1, Yields s k m w g b (.wscan gd d a o ord ex r) x fun j =>
        (cx.reducer a o.toNat).run (decide (ord = 1)) (cx.val (cx.reducer a o.toNat).src) (lanesBelow (x.acting w m) (if ex = 1 then j else j + 1)))

/-! ## The bank store -/

/-- R169, R170: where the guard of the lowest active fibre is true, `salloc` queues a request and its gang waits for the grant, or is told 0
where the count is 0, above 32, or would pass 1,024 rows; `sfree` gives back the top rows, none of them awaited, and tells the rows that are
left, or 0 where the count is 0 or would leave none.

R202: `wbase` sets the window base of each fibre whose guard is true to its operand plus the immediate; a base at or above the warp's rows
takes the register-range trap in the lowest such fibre, and no base changes. -/
def Obligations.RegistersAndWindows : Prop :=
  (∀ (s : State) (k : Nat) (m : Lanes) (w : Warp) (g : Gang) (b : Block) (gd : BitVec 4) (d a i : Code) (low : Nat), Issuing s k m w g b →
    lowestLane m = some low →
    let q := guarded w m gd;
    let keep := 32 * (w.rows.length / 32 - g.x i);
    (inSet q low = false → (∃ t, exec (.salloc gd d a i) s = .next t ∧ Leaves s t k m g (Warp.becomes id)) ∧
      ∃ t, exec (.sfree gd d a i) s = .next t ∧ Leaves s t k m g (Warp.becomes id)) ∧
    (inSet q low = true → w.writable q (d, 1) →
      (g.x i = 0 ∨ 32 < g.x i ∨ 1024 < w.rows.length + 32 * g.x i → ∃ t, exec (.salloc gd d a i) s = .next t ∧
        Leaves s t k m g (Warp.takes q (d, 1) fun _ => 0)) ∧
      (0 < g.x i → g.x i ≤ 32 → w.rows.length + 32 * g.x i ≤ 1024 → ∃ t w' g' r, exec (.salloc gd d a i) s = .next t ∧ t.issuing = none ∧
        OthersKept s t k ∧ Outside { s with cores := t.cores } t ∧ t.warp? k = some w' ∧ Warp.becomes id w w' ∧ w'.gang? m = some g' ∧
        g'.pc = (g.pc + 4) % 2 ^ 64 ∧ g'.wait = .stall .grant ∧ (t.core w.core).sallocQ = (s.core w.core).sallocQ ++ [r] ∧
        r.warp = k ∧ r.units = g.x i ∧ r.d = d ∧ r.q = q ∧ r.mask = m) ∧
      (g.x i = 0 ∨ w.rows.length / 32 ≤ g.x i → ∃ t, exec (.sfree gd d a i) s = .next t ∧
        Leaves s t k m g (Warp.takes q (d, 1) fun _ => 0)) ∧
      (0 < g.x i → g.x i < w.rows.length / 32 → (∀ r, keep ≤ r → (w.row r).pend = 0 ∧ (w.row r).hold = 0) →
        (d.toNat < 96 → ∀ j, j < 32 → inSet q j = true → w.rowOf (d, 1) j 0 < keep) → ∃ t, exec (.sfree gd d a i) s = .next t ∧
        LeavesBut s t True False k m g fun w w' => Warp.takes q (d, 1) (fun _ => BitVec.ofNat 64 keep) { w with rows := w.rows.take keep, rowVer := w'.rowVer } w'))) ∧
  (∀ (s : State) (k : Nat) (m : Lanes) (w : Warp) (g : Gang) (b : Block) (gd : BitVec 4) (d a i : Code), Issuing s k m w g b →
    let q := guarded w m gd;
    let new := fun j => ((seenBy false s k m w g b).word a j).toNat + g.x i;
    w.readable q (a, 1) → w.latched m a → Unlogged s b [a] →
      ((∀ j, j < 32 → inSet q j = true → new j < w.rows.length) → ∃ t, exec (.wbase gd d a i) s = .next t ∧
        Leaves s t k m g fun w w' => Warp.becomes (fun w => { w with bases := w'.bases }) w w' ∧
          ∀ j, j < 32 → w'.base j = if inSet q j = true then new j else w.base j) ∧
      (∀ j, j < 32 → inSet q j = true → w.rows.length ≤ new j → (∀ i, i < j → inSet q i = true → new i < w.rows.length) → w.intrap = false → w.trapvec ≠ 0 →
        ∃ t w', exec (.wbase gd d a i) s = .next t ∧ t.warp? k = some w' ∧ w'.intrap = true ∧ w'.trapcause.extractLsb' 0 8 = 0x05 ∧ w'.trapcause.extractLsb' 21 5 = BitVec.ofNat 5 j ∧
          w'.trapaddr = BitVec.ofNat 64 (new j) ∧ w'.bases = w.bases))

/-- R166, R200: `lds` and `sts` read and write one word of the block's scratchpad for each acting fibre, at the address in a pair plus 4 times
the offset; a store of a higher lane stands over one of a lower. A word read holds no error, and a word written holds none any more
(R186).

R175, R201: `vnm` gives every acting fibre half of the name of the content that the lowest of them holds in a register, and 0 for a code that
is none; it reads no valid bit. -/
def Obligations.ScratchpadAndNames : Prop :=
  (∀ (s : State) (k : Nat) (m : Lanes) (w : Warp) (g : Gang) (b : Block) (gd : BitVec 4) (d a : Code) (rd ps : BitVec 2) (o : BitVec 3),
    Issuing s k m w g b → b.node = w.node → Memory.wf b.scratch →
    let cx := seenBy false s k m w g b;
    let off := fun j => ((cx.pair a j).toNat : Int) + 4 * g.mOff o;
    let fits := fun (l : Lanes) => ∀ j, j < 32 → inSet l j = true → (cx.pair a j).toNat < 2 ^ 32 ∧ 0 ≤ off j ∧ off j < (b.scratchSize : Int) ∧ off j % 4 = 0;
    (∀ x : Shape, x = { guard := gd, dst := (d, 1), srcs := [(a, 2)] } →
      w.latched m a → Unlogged s b [a] → w.readable (x.acting w m) (a, 2) → w.writable (x.acting w m) (d, 1) → fits (x.acting w m) →
      (∀ n, n ∈ b.scrSoft ++ b.scrBad → ∀ j, j < 32 → inSet (x.acting w m) j = true → n ≠ (off j).toNat / 4) →
      ∃ t, exec (.lds gd d a rd ps o) s = .next t ∧
        Leaves s t k m g (Warp.takes (x.acting w m) (d, 1) fun j => (b.word (off j).toNat).setWidth 64)) ∧
    (∀ x : Shape, x = { guard := gd, dst := (127, 1), srcs := [(a, 2), (d, 1)] } →
      w.latched m a → w.latched m d → Unlogged s b [a, d] → w.readable (x.acting w m) (a, 2) → w.readable (x.acting w m) (d, 1) → fits (x.acting w m) →
      ∃ t b', exec (.sts gd d a rd ps o) s = .next t ∧ LeavesBut s t False True k m g (Warp.becomes id) ∧ t.block? w.node = some b' ∧
        { b'.still with scratch := b.scratch, scrSoft := b.scrSoft, scrBad := b.scrBad } = b.still ∧ (∀ n, n ≠ w.node → (t.block? n).map Block.still = (s.block? n).map Block.still) ∧
        (∀ j, j < 32 → inSet (x.acting w m) j = true → (∀ i, i < 32 → inSet (x.acting w m) i = true → j < i → off i ≠ off j) →
          b'.word (off j).toNat = cx.word d j) ∧
        (∀ j, j < 32 → inSet (x.acting w m) j = true → (off j).toNat / 4 ∉ b'.scrBad ++ b'.scrSoft) ∧
        (∀ p, (∀ j, j < 32 → inSet (x.acting w m) j = true → p < (off j).toNat ∨ (off j).toNat + 4 ≤ p) → memGet b'.scratch p = memGet b.scratch p))) ∧
  (∀ (s : State) (k : Nat) (m : Lanes) (w : Warp) (g : Gang) (b : Block) (gd : BitVec 4) (d a : Code), Issuing s k m w g b →
    let q := guarded w m gd;
    let name := fun j => if a.toNat < 96 then rowName (w.row (w.rowOf (a, 1) j 0)).data else 0;
    w.writable q (d, 1) → (a.toNat < 96 → ∀ j, lowestLane q = some j → w.writable (laneBit j) (a, 1)) →
      (∃ t, exec (.vnmLo gd d a) s = .next t ∧ Leaves s t k m g fun w w' =>
        Warp.takes q (d, 1) (fun _ => match lowestLane q with
          | some j => ((name j).extractLsb' 0 32).setWidth 64
          | none => 0) w w') ∧
      (∃ t, exec (.vnmHi gd d a) s = .next t ∧ Leaves s t k m g fun w w' =>
        Warp.takes q (d, 1) (fun _ => match lowestLane q with
          | some j => ((name j).extractLsb' 32 32).setWidth 64
          | none => 0) w w'))

/-- R194 to R197: the tag words act for the acting fibres in ascending order on the table of the core: the lowest fibre's answer, and where it is
the only one the table after it, are those of a lookup, an installation or a removal of its tag for the block. That a change refused
with 10 comes before one refused with 11 is the model's reading (log 16).

R195 to R197: what an installation answered with 0 puts into the table a lookup by the same block finds, resident or pending, with its slot;
a removal leaves no entry of the tag where no two entries hold it. -/
def Obligations.TagTableWords : Prop :=
  (∀ (s : State) (k : Nat) (m : Lanes) (w : Warp) (g : Gang) (b : Block) (gd : BitVec 4) (d a c : Code), Issuing s k m w g b →
    let cx := seenBy false s k m w g b;
    let ends := fun (x : Shape) (i : Instr) (f : Nat → Core → Core × DWord) =>
      w.latched m a → Unlogged s b (x.srcs.map Prod.fst) → (∀ y, y ∈ x.srcs → w.readable (x.acting w m) y) → w.writable (x.acting w m) (d, 1) →
      ∃ t v, exec i s = .next t ∧ LeavesBut s t True False k m g (Warp.takes (x.acting w m) (d, 1) v) ∧
        (∀ j, lowestLane (x.acting w m) = some j → v j = (f j (s.core w.core)).2 ∧
          (x.acting w m = laneBit j → (t.core w.core).tags = (f j (s.core w.core)).1.tags)) ∧
        (x.acting w m = 0 → (t.core w.core).tags = (s.core w.core).tags);
    ends { guard := gd, dst := (d, 1), srcs := [(a, 2)] } (.tlook gd d a c) (fun j => tagLook b.node (cx.pair a j)) ∧
    (w.latched m c → ends { guard := gd, dst := (d, 1), srcs := [(a, 2), (c, 1)] } (.tset gd d a c) (fun j => tagPut b.node (cx.pair a j) (cx.word c j))) ∧
    ends { guard := gd, dst := (d, 1), srcs := [(a, 2)] } (.tinv gd d a c) (fun j => tagDrop b.node (cx.pair a j))) ∧
  (∀ (c : Core) (node : Nat) (x : DWord) (v : Word),
    ((tagPut node x v c).2 = 0 → (∀ e, c.tagOf node x = some e → e = (v.extractLsb' 16 11).toNat) →
      (tagPut node x v c).1.lookTag node x = tagStatus (if v.getLsbD 31 then 1 else 0) false (v.extractLsb' 16 11).toNat (v.extractLsb' 0 16).toNat) ∧
    ((∀ e f p r, tabLook c.tags e = some p → tabLook c.tags f = some r → p.node = node → r.node = node → p.tag = x → r.tag = x → e = f) →
      (tagDrop node x c).1.tagOf node x = none))

/-- R169 to R173: a queued request that fits is granted in the order of launch: the warp's rows grow, its destination takes the new count, and its
gang may issue again. A move of the Burnisher changes no content: only where the highest piece that can move lies. While nothing is queued, no
deadlock is looked for; in one, the block whose request can never fit faults, or the youngest other block leaves, and the request is
tried again.

R187 to R189: bank evacuation copies the entries of one bank after another, corrects single-bit errors in them and changes no content; with the last a spare takes the bank's place.
A withdrawn group takes 64 KiB from the core's capacity once what is left fits below; one that would leave less than 128 KiB disables the core. -/
def Obligations.BankStoreSteps : Prop :=
  ((∀ (s : State) (r : Sreq) (c' : Core) (w : Warp) (g : Gang), leastBy Sreq.key (s.core s.cue.core).sallocQ = some r →
    (s.core s.cue.core).allocate r.warp false r.units = some c' → s.warp? r.warp = some w → w.gang? r.mask = some g → g.wait = .stall .grant →
    ∃ t w' g', exec .sallocGrant s = .next t ∧ t.mem = s.mem ∧ t.warp? r.warp = some w' ∧ w'.rows.length = w.rows.length + 32 * r.units ∧
      w'.gang? r.mask = some g' ∧ g'.wait = .run ∧ g'.pc = g.pc ∧ r ∉ (t.core s.cue.core).sallocQ ∧ (t.core s.cue.core).pieces = c'.pieces ∧
      (r.d.toNat < 96 → ∀ j, j < 32 → inSet r.q j = true → w.base j + r.d.toNat < w'.rows.length →
        w'.reg (r.d, 1) j = BitVec.ofNat 64 (w.rows.length + 32 * r.units) % 2 ^ 32) ∧
      (∀ x j, x < w.rows.length → j < 32 → ¬ (r.d.toNat < 96 ∧ inSet r.q j = true ∧ x = w.base j + r.d.toNat) →
        laneWord (w'.row x).data j = laneWord (w.row x).data j ∧ inSet (w'.row x).valid j = inSet (w.row x).valid j)) ∧
  (∀ (s : State) (r : Sreq), leastBy Sreq.key (s.core s.cue.core).sallocQ = some r → (s.core s.cue.core).allocate r.warp false r.units = none →
    ∃ t, exec .sallocGrant s = .next t ∧ t.warps = s.warps ∧ t.mem = s.mem ∧ t.cores = s.cores ∧
      t.awaits .allocationDeadlock { core := s.cue.core } = true ∧
      ((s.core s.cue.core).used + 32 * r.units ≤ (s.core s.cue.core).limit → t.awaits .burnisherMove { core := s.cue.core } = true)) ∧
  (∀ s : State, (s.core s.cue.core).sallocQ = [] → ∃ t, exec .sallocGrant s = .next t ∧ t = s) ∧
  (∀ s : State, (s.core s.cue.core).sallocQ = [] → ∃ t, exec .allocationDeadlock s = .next t ∧ t = s) ∧
  (∀ (s : State) (r : Sreq), leastBy Sreq.key (s.core s.cue.core).sallocQ = some r → s.blockedCore s.cue.core = false →
    ∃ t, exec .allocationDeadlock s = .next t ∧ t.warps = s.warps ∧ t.blocks = s.blocks ∧ t.cores = s.cores ∧
      t.awaits .allocationDeadlock { core := s.cue.core } = true) ∧
  (∀ (s : State) (r : Sreq) (b : Block), let c := s.core s.cue.core
    let others := (s.residents s.cue.core).filter fun x => decide (x.node ≠ b.node)
    leastBy Sreq.key c.sallocQ = some r → s.blockedCore s.cue.core = true → s.departing s.cue.core = false → s.block? (r.warp / 32) = some b → b.node = r.warp / 32 →
    ∃ t, exec .allocationDeadlock s = .next t ∧ t.mem = s.mem ∧ t.awaits .allocationDeadlock { core := s.cue.core } = true ∧
      (c.limit < c.nodeRows b.node + 32 * r.units → (t.block? b.node).map Block.leaving = some true ∧
        (((s.grid? b.gid).map GridRun.resume).getD false = false → t.awaits .blockRollback { node := b.node, num := 0 } = true)) ∧
      (c.nodeRows b.node + 32 * r.units ≤ c.limit → t.awaits .sallocGrant { core := s.cue.core } = true ∧
        ∀ y, s.youngest others = some y → s.block? y.node = some y → (t.block? y.node).map Block.leaving = some true ∧
          ∀ p, p ∈ s.warps → p.2.node = y.node → p.2.resident = true → p.2.live ≠ 0 → t.awaits .eviction { warp := p.1, num := 1 } = true)) ∧
  (∀ (s : State) (p : Piece) (n : Nat), let c := s.core s.cue.core
    p ∈ c.pieces → c.freeBase p.order = some n → n < p.base → s.movable c p = true →
    (∀ q z, q ∈ c.pieces → q ≠ p → p.base ≤ q.base → c.freeBase q.order = some z → z < q.base → s.movable c q = false) →
    ∃ t, exec .burnisherMove s = .next t ∧ (t.core s.cue.core).pieces = c.pieces.map fun x => if x = p then { x with base := n } else x) ∧
  (∀ s : State, ∃ t, exec .burnisherMove s = .next t ∧ t.warps = s.warps ∧ t.blocks = s.blocks ∧ t.mem = s.mem ∧
    (t.core s.cue.core).pieces.map (fun p => (p.owner, p.scr, p.order)) = (s.core s.cue.core).pieces.map (fun p => (p.owner, p.scr, p.order)))) ∧
  ((∀ s : State, let c := s.core s.cue.core
    let sound := fun (w : Warp) => ({ w with rows := w.rows.map fun (x : RowSt) => { x with soft := 0 } } : Warp)
    ∃ t, exec .bankEvacuation s = .next t ∧ t.mem = s.mem ∧ (t.core s.cue.core).kib = c.kib ∧ (∀ k, (t.warp? k).map sound = (s.warp? k).map sound) ∧
      (∀ n, (t.block? n).map (fun (b : Block) => { b with scrSoft := [] }) = (s.block? n).map fun (b : Block) => { b with scrSoft := [] }) ∧
      (∀ p r v, c.kib ≠ 0 → c.evac.head? = some s.cue.unit → c.holder (8 * c.moved + s.cue.unit / 8) = some (p, r) → p.scr = false → s.warp? p.owner = some v →
        ∃ v', t.warp? p.owner = some v' ∧ ∀ j, 4 * (s.cue.unit % 8) ≤ j → j < 4 * (s.cue.unit % 8) + 4 → inSet (v'.row r).soft j = false) ∧
      (c.kib ≠ 0 → c.evac.contains s.cue.unit = false → c.evac.length < c.spare → (t.core s.cue.core).evac = c.evac ++ [s.cue.unit]) ∧
      (c.kib ≠ 0 → c.evac.head? = some s.cue.unit → c.moved < 511 → (t.core s.cue.core).moved = c.moved + 1) ∧
      (c.kib ≠ 0 → c.evac.head? = some s.cue.unit → c.moved = 511 → (t.core s.cue.core).evac = c.evac.drop 1 ∧ (t.core s.cue.core).moved = 0 ∧
        (t.core s.cue.core).retired = c.retired + 1 ∧ (t.core s.cue.core).spare = c.spare - 1 ∧
        tabLook (t.core s.cue.core).bankMap s.cue.unit = some (c.spares.headD s.cue.unit))) ∧
  (∀ s : State, let c := s.core s.cue.core
    let l := (s.residents s.cue.core).map fun b => c.nodeRows b.node
    (c.kib = 0 → ∃ t, exec .bankGroupWithdrawal s = .next t ∧ t = s) ∧
    (0 < c.kib → c.kib < 192 → ∃ t, exec .bankGroupWithdrawal s = .next t ∧ t.mem = s.mem ∧ (t.core s.cue.core).kib = 0) ∧
    (192 ≤ c.kib → l.foldl (· + ·) 0 ≤ (c.kib - 64) * 8 - 256 → c.used ≤ (c.kib - 64) * 8 - 256 → (∀ p, p ∈ c.pieces → p.base + p.rows ≤ (c.kib - 64) * 8) →
      ∃ t, exec .bankGroupWithdrawal s = .next t ∧ t.mem = s.mem ∧ t.warps = s.warps ∧ (t.core s.cue.core).kib = c.kib - 64 ∧
        (t.core s.cue.core).retired = c.retired + 1 ∧ (t.core s.cue.core).spare = c.spare + 7 ∧ (t.core s.cue.core).wdr = false)))

/-! ## Memory -/

/-- R83, R248, R249, R269: a load of `u` bytes whose addresses are global, aligned, translated and readable, in a warp none of whose fibres has arrived
at a barrier, completes where its core's copies hold no store under way: each acting fibre's bytes are asked
of the line's home, or come from a copy that the core or its die holds under a lease that runs on.

R239, R249: the lowest acting fibre whose address is not a multiple of the access takes the alignment trap, before any effect. -/
def Obligations.LoadsAsk : Prop :=
  (∀ (s : State) (k : Nat) (m : Lanes) (w : Warp) (g : Gang) (b : Block) (gd : BitVec 4) (d a : Code) (rd ps : BitVec 2) (o : BitVec 3)
    (key : Nat → Nat) (leaf : Nat → DWord), Issuing s k m w g b → w.flights = [] → (s.chip (chipOfCore w.core)).fenced = false →
    w.atBarrier = false → w.latched m a → Unlogged s b [a] →
    let ends := fun (i : Instr) (u : Nat) (sx : Bool) => ∀ x : Shape, x = { guard := gd, dst := (d, max 1 (u / 4)), srcs := [(a, 2)] } →
      w.readable (x.acting w m) (a, 2) → (ps ≠ 0 → w.readable (x.acting w m) (BitVec.ofNat 7 (96 + ps.toNat), 1)) → w.writable (x.acting w m) x.dst →
      (∀ j, j < 32 → inSet (x.acting w m) j = true → Reaches s b .load u ((seenBy false s k m w g b).ea g a o u j) (key j) (leaf j)) →
      (∀ j c, j < 32 → inSet (x.acting w m) j = true → tabLook (s.core w.core).copies (key j / 128) = some c → c.stores = []) →
      ∃ t w', exec i s = .next t ∧ Accessed s t k m g ∧ t.warp? k = some w' ∧ ((ps = 0 → polReuse w.pold = false) → (ps ≠ 0 → polReuse (w.sreg ps.toNat) = false) →
        KeepsBut w w' (x.acting w m) x.dst ∧
        ∀ j, j < 32 → inSet (x.acting w m) j = true →
          Sent t k b .readRequest (key j / 128) (fun c => ∃ p, p ∈ c.parts ∧ p.off = key j % 128 ∧ p.len = u ∧ p.place = w.placeIn x.dst (x.acting w m) sx j) ∨
          ∃ c, (tabLook (s.core w.core).copies (key j / 128) = some c ∨ tabLook (s.die (dieOfCore w.core)).replicas (key j / 128) = some c) ∧
            c.live = true ∧ s.podTime b.chip < c.exp ∧ (d.toNat < 96 → ∀ i, i < x.dst.2 →
              laneWord (w'.row (w.rowOf x.dst j i)).data j = (wordsOf sx (lineBytes c.data (key j % 128) u)).getD i 0));
    ends (.ldb gd d a rd ps o) 1 false ∧ ends (.ldh gd d a rd ps o) 2 false ∧ ends (.ldw gd d a rd ps o) 4 false ∧ ends (.ldd gd d a rd ps o) 8 false ∧
    ends (.ldq gd d a rd ps o) 16 false ∧ ends (.ldbs gd d a rd ps o) 1 true ∧ ends (.ldhs gd d a rd ps o) 2 true) ∧
  (∀ (s : State) (k : Nat) (m : Lanes) (w : Warp) (g : Gang) (b : Block) (gd : BitVec 4) (d a : Code) (rd : BitVec 2) (o : BitVec 3) (j : Nat),
    Issuing s k m w g b → w.intrap = false → w.trapvec ≠ 0 → w.latched m a → Unlogged s b [a] →
    let x : Shape := { guard := gd, dst := (d, 1), srcs := [(a, 2)] };
    let ea := (seenBy false s k m w g b).ea g a o 4 j;
    w.readable (x.acting w m) (a, 2) → w.writable (x.acting w m) (d, 1) → lowestLane (x.acting w m) = some j → addrForm ea = 0 → ea % 4 ≠ 0 →
      ∃ t w', exec (.ldw gd d a rd 0 o) s = .next t ∧ t.issuing = none ∧ t.warp? k = some w' ∧ w'.intrap = true ∧
        w'.trapcause.extractLsb' 0 8 = 0x13 ∧ w'.trapcause.extractLsb' 8 8 = 0 ∧ w'.trapcause.extractLsb' 21 5 = BitVec.ofNat 5 j ∧
        w'.trapaddr = BitVec.ofNat 64 ea ∧ w'.rows = w.rows ∧ w'.sregs = w.sregs ∧ t.mem = s.mem)

/-- R248, R249, R271, R281: a store of `u` bytes whose addresses are global, aligned, translated and writable, and whose lines the block's staging
budget holds, completes: each acting fibre's bytes are on their way to the line's home. -/
def Obligations.StoresSend : Prop :=
  ∀ (s : State) (k : Nat) (m : Lanes) (w : Warp) (g : Gang) (b : Block) (gd : BitVec 4) (d a : Code) (rd ps : BitVec 2) (o : BitVec 3)
    (key : Nat → Nat) (leaf : Nat → DWord), Issuing s k m w g b → b.node = w.node → w.flights = [] → w.fenced = false →
    (s.chip (chipOfCore w.core)).fenced = false → w.latched m a → w.latched m d → Unlogged s b [a, d] →
    let cx := seenBy false s k m w g b
    let ends := fun (i : Instr) (u : Nat) => ∀ x : Shape, x = { guard := gd, dst := (127, 1), srcs := [(a, 2), (d, max 1 (u / 4))] } →
      (∀ y, y ∈ x.srcs → w.readable (x.acting w m) y) → (ps ≠ 0 → w.readable (x.acting w m) (BitVec.ofNat 7 (96 + ps.toNat), 1)) →
      (b.norev = true ∨ b.staged.length + (((lanesOf (x.acting w m)).map fun j => key j / 128).eraseDups).length ≤ b.budget) →
      (∀ j, j < 32 → inSet (x.acting w m) j = true → Reaches s b .store u (cx.ea g a o u j) (key j) (leaf j)) →
      ∃ t w', exec i s = .next t ∧ Accessed s t k m g ∧ t.warp? k = some w' ∧ KeepsBut w w' 0 (127, 1) ∧
        ∀ j, j < 32 → inSet (x.acting w m) j = true → (u = 16 → d.toNat < 112) →
          Sent t k b .write (key j / 128) fun c => ∃ l, c.op = .store l ∧ (key j % 128, if u = 16 then
            dwBytes 8 (cx.pair (BitVec.ofNat 7 (d.toNat / 4 * 4)) j) ++ dwBytes 8 (cx.pair (BitVec.ofNat 7 (d.toNat / 4 * 4) + 2) j)
            else dwBytes u (if u = 8 then cx.pair d j else (cx.word d j).setWidth 64)) ∈ l
    ends (.stb gd d a rd ps o) 1 ∧ ends (.sth gd d a rd ps o) 2 ∧ ends (.stw gd d a rd ps o) 4 ∧ ends (.std gd d a rd ps o) 8 ∧ ends (.stq gd d a rd ps o) 16

/-- R251 to R255: the read-modify-writes complete where their addresses pass, those that return a value where no fibre of the warp has arrived at a
barrier and the core's copies hold no store under way (R83, R276): each acting fibre's operation is on its way to the line's home, or
joins the warp's partial of the line, and the core's own copy is gone. -/
def Obligations.AtomicsSend : Prop :=
  ∀ (s : State) (k : Nat) (m : Lanes) (w : Warp) (g : Gang) (b : Block) (gd : BitVec 4) (d a : Code) (op : BitVec 4) (ty : BitVec 3)
    (key : Nat → Nat) (leaf : Nat → DWord), Issuing s k m w g b → b.node = w.node → w.flights = [] → w.fenced = false →
    (s.chip (chipOfCore w.core)).fenced = false → w.latched m a → Unlogged s b [a] →
    let cx := seenBy false s k m w g b
    let y := ty.toNat
    let u := atomBytes y
    let n := u / 4
    let val := fun j => if u = 8 then cx.pair d j else (cx.word d j).setWidth 64
    let free := fun (x : Shape) => w.atBarrier = false ∧ ∀ j c, j < 32 → inSet (x.acting w m) j = true →
      tabLook (s.core w.core).copies (key j / 128) = some c → c.stores = []
    let ends := fun (i : Instr) (x : Shape) (sent : State → Nat → Prop) => (∀ z, z ∈ x.srcs → w.readable (x.acting w m) z) →
      w.writable (x.acting w m) x.dst →
      (b.norev = true ∨ b.staged.length + (((lanesOf (x.acting w m)).map fun j => key j / 128).eraseDups).length ≤ b.budget) →
      (∀ j, j < 32 → inSet (x.acting w m) j = true → Reaches s b .atomic u (cx.pair a j).toNat (key j) (leaf j)) →
      ∃ t w', exec i s = .next t ∧ Accessed s t k m g ∧ t.warp? k = some w' ∧ KeepsBut w w' 0 (127, 1) ∧
        ∀ j, j < 32 → inSet (x.acting w m) j = true → sent t j ∧ ∀ c, tabLook (t.core w.core).copies (key j / 128) = some c → c.live = false
    (w.latched m d → Unlogged s b [d] → ∀ x : Shape, x = { guard := gd, dst := (d, n), srcs := [(a, 2), (d, n)] } → free x →
      ends (.atom gd d a op ty) x fun t j => Sent t k b .write (key j / 128) fun c => ∃ l e, c.op = .atom op.toNat y l ∧ e ∈ l ∧ e.off = key j % 128 ∧
        e.x = (if 6 ≤ y then ((val j).setWidth 16).setWidth 64 else val j) ∧
        e.back = (if 6 ≤ y then halfPlace 0 (w.placeIn x.dst (x.acting w m) false j) else w.placeIn x.dst (x.acting w m) false j)) ∧
    (w.latched m d → Unlogged s b [d] → ends (.red gd d a op ty) { guard := gd, dst := (127, 1), srcs := [(a, 2), (d, n)] } fun t j =>
      Sent t k b .write (key j / 128) fun c => ∃ l e, c.op = .atom op.toNat y l ∧ e ∈ l ∧ e.off = key j % 128 ∧
        e.x = if 6 ≤ y then ((val j).setWidth 16).setWidth 64 else val j) ∧
    (w.latched m d → Unlogged s b [d] → y < 6 → ∀ x : Shape, x = { guard := gd, dst := (if d.toNat < 112 then BitVec.ofNat 7 (d.toNat / (2 * n) * (2 * n)) else d, n), srcs := [(a, 2), (d, 2 * n)] } → free x →
      ends (.cas gd d a ty) x fun t j => Sent t k b .write (key j / 128) fun c => ∃ l e, c.op = .cas y l ∧ e ∈ l ∧ e.off = key j % 128 ∧
        (n = 1 → e.x = ((cx.pair d j).setWidth 32).setWidth 64 ∧ e.y = ((cx.pair d j).extractLsb' 32 32).setWidth 64) ∧
        e.back = w.placeIn x.dst (x.acting w m) false j) ∧
    (∀ x : Shape, x = { guard := gd, dst := (d, n), srcs := [(a, 2)] } → free x →
      ends (.amxr gd d a ty) x fun t j => Sent t k b .write (key j / 128) fun c => ∃ l e, c.op = .amxr y l ∧ e ∈ l ∧ e.off = key j % 128 ∧
        e.back = if 6 ≤ y then halfPlace 0 (w.placeIn x.dst (x.acting w m) false j) else w.placeIn x.dst (x.acting w m) false j) ∧
    (w.latched m d → Unlogged s b [d] → ends (.rdc gd d a op ty) { guard := gd, dst := (127, 1), srcs := [(a, 2), (d, n)] } fun t j =>
      ∃ p, p ∈ t.partials ∧ p.line = key j / 128 ∧ p.warp = k ∧ p.merged = none ∧ p.op = op.toNat ∧ p.ty = y ∧ (tabLook p.elems (key j % 128)).isSome = true)

/-- R259, R272, R275: an acquire holds back what the warp asks for later until its earlier loads have returned; a release or a full fence
completes once the warp's release point of the scope is reached, and until then waits at its group. A fence whose guard is false in the
lowest active fibre has no effect. -/
def Obligations.FencesOrder : Prop :=
  ∀ (s : State) (k : Nat) (m : Lanes) (w : Warp) (g : Gang) (b : Block) (gd : BitVec 4) (d a : Code) (sc : BitVec 2) (low : Nat), Issuing s k m w g b →
    lowestLane m = some low →
    let on := inSet (guarded w m gd) low
    let met := g.half || w.releaseMet s.fresh sc.toNat (s.podTime b.chip)
    (∃ t, exec (.fence gd d a 0 sc) s = .next t ∧ Leaves s t k m g (Warp.becomes fun w => if on then { w with acq := s.fresh } else w)) ∧
    (on = false ∨ met = true → (∃ t, exec (.fence gd d a 1 sc) s = .next t ∧
        Leaves s t k m g (Warp.becomes fun w => if on then { w with sacq := s.fresh } else w)) ∧
      ∃ t, exec (.fence gd d a 2 sc) s = .next t ∧ Leaves s t k m g (Warp.becomes fun w => if on then { w with acq := s.fresh } else w)) ∧
    (on = true → met = false → ∀ kind : BitVec 2, kind = 1 ∨ kind = 2 → ∃ t w' g', exec (.fence gd d a kind sc) s = .next t ∧ t.issuing = none ∧
      t.warp? k = some w' ∧ w'.gang? m = some g' ∧ g'.wait = .stall (.release s.fresh sc.toNat (decide (kind = 2))) ∧
      g'.pc = (if g.pfx.words = 0 then g.pc else g.pfx.start) ∧ w'.still = w.still ∧ Outside s t)

/-- R260, R261: a prefetch asks for the lines that its fibres may read and never faults; `cwb` asks the home to write a line back; `cinv` and `cdrop`
drop the core's copy and the die's replica, and `cdrop` makes the line the next victim at its home. -/
def Obligations.CachesKept : Prop :=
  ∀ (s : State) (k : Nat) (m : Lanes) (w : Warp) (g : Gang) (b : Block) (gd : BitVec 4) (d a : Code) (key : Nat → Nat) (leaf : Nat → DWord),
    Issuing s k m w g b → w.flights = [] → (s.chip (chipOfCore w.core)).fenced = false → w.latched m a → Unlogged s b [a] →
    let cx := seenBy false s k m w g b
    let x : Shape := { guard := gd, dst := (127, 1), srcs := [(a, 2)] }
    let at_ := fun (n : Need) => ∀ j, j < 32 → inSet (x.acting w m) j = true → Reaches s b n 1 (cx.pair a j).toNat (key j) (leaf j)
    w.readable (x.acting w m) (a, 2) →
    (∀ rd o, w.atBarrier = false → (∀ j, j < 32 → inSet (x.acting w m) j = true → addrForm (cx.ea g a o 128 j) = 0 → cx.ea g a o 128 j % 128 = 0 →
        ∀ h f, s.access b.chip b.ctx .load (cx.ea g a o 128 j) ≠ .miss h f) →
      ∃ t w', exec (.prf gd d a rd 0 o) s = .next t ∧ Accessed s t k m g ∧ t.warp? k = some w' ∧ Warp.becomes id w w' ∧
        ∀ j, j < 32 → inSet (x.acting w m) j = true → Reaches s b .load 128 (cx.ea g a o 128 j) (key j) (leaf j) →
          Sent t k b .readRequest (key j / 128) fun c => c.parts = [{ off := 0, len := 128, place := .drop }]) ∧
    (at_ .store → ∃ t w', exec (.cwb gd d a) s = .next t ∧ Accessed s t k m g ∧ t.warp? k = some w' ∧ Warp.becomes (fun w => { w with flights := w'.flights }) w w' ∧
      ∀ j, j < 32 → inSet (x.acting w m) j = true → Sent t k b .write (key j / 128) fun c => c.op = .writeBack) ∧
    (at_ .any → (∃ t w', exec (.cinv gd d a) s = .next t ∧ Accessed s t k m g ∧ t.warp? k = some w' ∧ Warp.becomes id w w' ∧
        ∀ j c, j < 32 → inSet (x.acting w m) j = true → (tabLook (t.core w.core).copies (key j / 128) = some c ∨
          tabLook (t.die (dieOfCore w.core)).replicas (key j / 128) = some c) → c.live = false) ∧
      ∃ t w', exec (.cdrop gd d a) s = .next t ∧ Accessed s t k m g ∧ t.warp? k = some w' ∧ Warp.becomes id w w' ∧
        ∀ j, j < 32 → inSet (x.acting w m) j = true → (t.line (key j / 128)).rv = 11 ∧
          ∀ c, (tabLook (t.core w.core).copies (key j / 128) = some c ∨ tabLook (t.die (dieOfCore w.core)).replicas (key j / 128) = some c) → c.live = false)

/-- R251, R252, R271, R281: a write that arrives at a calm line is performed there: the line holds what the operation makes of it, every other byte of
memory stays, the line's count of writes rises, the old contents are kept for the writing block, the write is acknowledged, and old values go back.

R252 to R254: two fibres that name one element of an `atom` receive, in ascending order, the old value and the value after the first, and the
element takes both; a `cas` writes its second value where the element equals its first; `amxr` returns the element and leaves +0. -/
def Obligations.WritesPerformed : Prop :=
  (∀ (s : State) (b : Block), let a := s.cue.acc;
    let home := s.homeOf a.line;
    let r := runHome s.cue.op (s.lineData a.line);
    Memory.wf s.mem → s.block? a.node = some b → b.st = .running → a.op = 0 → a.sync = false → s.cue.peer = 0 → (s.line a.line).calm →
    Here (chipOfCore a.core) home s.cue → Open s home (chipOfCore a.core) → (∀ p, p ∈ (s.chip home).saves → p.1 ≠ b.ctx) →
    s.cue.op ≠ .join → s.cue.op ≠ .writeBack → s.cue.op ≠ .merge → s.cue.came = none →
      ∃ t, exec .write s = .next t ∧ Memory.wf t.mem ∧ (∀ i, i < 128 → memGet t.mem (128 * a.line + i) = lineByte r.1 i) ∧
        (∀ p, p < 128 * a.line ∨ 128 * a.line + 128 ≤ p → memGet t.mem p = memGet s.mem p) ∧ (t.line a.line).ver = (s.line a.line).ver + 1 ∧
        (b.norev = false → (∀ u, u ∈ (s.line a.line).undo → u.1 ≠ a.node) →
          (a.node, (s.line a.line).ver, s.lineData a.line) ∈ (t.line a.line).undo) ∧
        UnderWay t .acknowledge (fun c => c.acc.id = a.id ∧ c.acc.warp = a.warp ∧ c.num = (s.line a.line).ver + 1 ∧ s.podTime home ≤ c.ct) ∧
        (r.2.1 ≠ [] → UnderWay t .readReply fun c => c.acc.id = a.id ∧ c.data = r.2.1.flatMap (fun x => leBytes (backBytes s.cue.op) x.2) ∧
          c.parts.map Part.place = r.2.1.map Prod.fst)) ∧
  (∀ (op ty : Nat) (x y : LaneOp) (l : Line), x.off + elemBytes ty ≤ 128 →
    let old := lineElem l x.off ty;
    (∀ r, r = runHome (.atom op ty [x]) l →
      r.2.1 = [(x.back, old)] ∧ r.1 = setLineElem l x.off ty (elemOp op ty old x.x.toNat)) ∧
    (y.off = x.off → ∀ r, r = runHome (.atom op ty [x, y]) l →
      r.2.1 = [(x.back, old), (y.back, elemOp op ty old x.x.toNat)] ∧
        r.1 = setLineElem l x.off ty (elemOp op ty old (elemOp op ty x.x.toNat y.x.toNat))) ∧
    (∀ r, r = runHome (.cas ty [x]) l →
      r.2.1 = [(x.back, old)] ∧ r.1 = if old = x.x.toNat % 2 ^ (8 * elemBytes ty) then setLineElem l x.off ty x.y.toNat else l) ∧
    (∀ r, r = runHome (.amxr ty [x]) l →
      r.2.1 = [(x.back, old)] ∧ lineElem r.1 x.off ty = 0 ∧ ∀ i, i < 128 → i < x.off ∨ x.off + elemBytes ty ≤ i → lineByte r.1 i = lineByte l i))

/-- R256, R261, R274: a contribution notes its warp at the line, which is then in the reduction state; a write-back asked of a calm line leaves it
clean and is acknowledged; a `.sync` store to a calm line begins a switch, and while one is under way other writes wait; so do writes to a line
that the host holds, which is asked back.

R256 to R258, R271, R274, R422: a switch that is due performs its store, acknowledged, and then the writes that waited; until pod time reaches
it a switch is awaited. The host's answer gives the line up and lets the write that waited be performed. A merge puts the ranked contributions of
one kind into the line as one write; contributions of two kinds leave it and fault their blocks; a merge waits for a switch. -/
def Obligations.LineStates : Prop :=
  (∀ (s : State) (b : Block), let a := s.cue.acc;
    let home := s.homeOf a.line;
    s.block? a.node = some b → b.st = .running → a.op = 0 → Here (chipOfCore a.core) home s.cue → Open s home (chipOfCore a.core) →
      ((s.line a.line).calm → s.cue.op = .join → a.id ≠ 0 → ∃ t, exec .write s = .next t ∧ t.mem = s.mem ∧ (t.line a.line).red = some [a.warp] ∧
        UnderWay t .acknowledge fun c => c.acc.id = a.id) ∧
      ((s.line a.line).calm → s.cue.op = .writeBack → ∃ t, exec .write s = .next t ∧ t.mem = s.mem ∧ (t.line a.line).dirty = false ∧
        UnderWay t .acknowledge fun c => c.acc.id = a.id ∧ c.ct = if (s.line a.line).dirty then s.podTime home else 0) ∧
      ((s.line a.line).calm → a.sync = true → (∃ l, s.cue.op = .store l) → ∃ t x, exec .write s = .next t ∧ t.mem = s.mem ∧ (t.line a.line).sync = some x ∧
        x.due = x.ct + 25 ∧ UnderWay t .syncSwitch fun c => c.line = a.line) ∧
      (∀ x, (s.line a.line).hostHeld = false → (s.line a.line).sync = some x → ∃ t, exec .write s = .next t ∧ t.mem = s.mem ∧
        (t.line a.line).waiting = (s.line a.line).waiting ++ [{ s.cue with tag := 0, came := some (s.cue.came.getD (s.podTime home)) }]) ∧
      ((s.line a.line).hostHeld = true → ∃ t, exec .write s = .next t ∧ t.mem = s.mem ∧ (t.line a.line).backInv = true ∧
        (t.line a.line).waiting = (s.line a.line).waiting ++ [{ s.cue with tag := 0, came := some (s.cue.came.getD (s.podTime home)) }] ∧
        ((s.line a.line).backInv = false → UnderWay t .backInvalidateAnswer fun c => c.line = a.line))) ∧
  (∀ s : State, let h := s.line s.cue.line;
    let now := s.podTime (s.homeOf s.cue.line);
    let mine := fun (p : Partial) => decide (p.line = s.cue.line) && p.merged.isNone;
    (∀ x, h.sync = some x → now < x.due → ∃ t, exec .syncSwitch s = .next t ∧ t.mem = s.mem ∧
      (t.line s.cue.line).sync = some x ∧ UnderWay t .syncSwitch fun c => c.line = s.cue.line) ∧
    (∀ x, h.sync = some x → x.due ≤ now → h.hostHeld = false → s.gone x.cue.acc.node = true → h.waiting = [] →
      ∃ t, exec .syncSwitch s = .next t ∧ t.mem = s.mem ∧ (t.line s.cue.line).sync = none) ∧
    (∀ x l, Memory.wf s.mem → h.sync = some x → x.due ≤ now → h.hostHeld = false → s.gone x.cue.acc.node = false → h.waiting = [] →
      x.cue.acc.line = s.cue.line → x.cue.op = .store l → x.cue.peer = 0 → x.cue.acc.node ≠ 0 → Open s (s.homeOf s.cue.line) (chipOfCore x.cue.acc.core) →
      ∃ t, exec .syncSwitch s = .next t ∧ (t.line s.cue.line).sync = none ∧ (t.line s.cue.line).ver = h.ver + 1 ∧
        (∀ i, i < 128 → memGet t.mem (128 * s.cue.line + i) = lineByte (runHome x.cue.op (s.lineData s.cue.line)).1 i) ∧
        UnderWay t .acknowledge fun c => c.acc.id = x.cue.acc.id ∧ c.ct = x.ct ∧ c.num = h.ver + 1) ∧
    (h.sync ≠ none ∨ h.waiting = [] → ∃ t, exec .backInvalidateAnswer s = .next t ∧ t.mem = s.mem ∧ (t.line s.cue.line).hostHeld = false ∧
      (t.line s.cue.line).backInv = false) ∧
    (∀ c l, Memory.wf s.mem → h.waiting = [c] → h.sync = none → h.red = none → s.gone c.acc.node = false → c.acc.node ≠ 0 → c.acc.line = s.cue.line →
      c.op = .store l → c.acc.sync = false → c.peer = 0 → Open s (s.homeOf s.cue.line) (chipOfCore c.acc.core) →
      ∃ t, exec .backInvalidateAnswer s = .next t ∧ (t.line s.cue.line).hostHeld = false ∧ (t.line s.cue.line).waiting = [] ∧
        (∀ i, i < 128 → memGet t.mem (128 * s.cue.line + i) = lineByte (runHome c.op (s.lineData s.cue.line)).1 i) ∧
        UnderWay t .acknowledge fun x => x.acc.id = c.acc.id ∧ now ≤ x.ct) ∧
    (h.sync = none → ∃ t, exec .reductionMerge s = .next t ∧ (t.line s.cue.line).red = none ∧ (h.red = none → t = s) ∧
      ∀ p, p < 128 * s.cue.line ∨ 128 * s.cue.line + 128 ≤ p → Memory.wf s.mem → memGet t.mem p = memGet s.mem p) ∧
    (∀ p r, Memory.wf s.mem → h.sync = none → h.red ≠ none → (s.partials.filter mine).foldr insertPartial [] = p :: r →
      (∀ q, q ∈ r → q.op = p.op ∧ q.ty = p.ty) → ∃ t, exec .reductionMerge s = .next t ∧ (t.line s.cue.line).red = none ∧
        (t.line s.cue.line).ver = h.ver + 1 ∧ (∀ q, q ∈ t.partials → q.line = s.cue.line → q.merged ≠ none) ∧
        ∀ i, i < 128 → memGet t.mem (128 * s.cue.line + i) = lineByte (mergeParts p.op p.ty (p :: r) (s.lineData s.cue.line)) i) ∧
    (∀ p r q b, h.sync = none → h.red ≠ none → (s.partials.filter mine).foldr insertPartial [] = p :: r → q ∈ r → (q.op ≠ p.op ∨ q.ty ≠ p.ty) →
      s.block? q.node = some b → ∃ t, exec .reductionMerge s = .next t ∧ t.mem = s.mem ∧ (t.line s.cue.line).red = none ∧
        t.awaits .faultRecord { node := q.node, record := recordOf b 4 (128 * s.cue.line) 0 } = true) ∧
    (h.sync ≠ none → (∀ c, c ∈ h.waiting → c.op ≠ .merge) → ∃ t, exec .reductionMerge s = .next t ∧ t.mem = s.mem ∧ (t.line s.cue.line).red = h.red ∧
      (t.line s.cue.line).waiting = h.waiting ++ [{ acc := { line := s.cue.line }, op := .merge, came := some now }]))

/-- R269, R277: the home serves a read of a calm line with its bytes, its count of writes and a lease that it will not write before; memory and the
count stay.

R168, R242, R248: a reply puts its bytes into the register that awaits them, extended as the load says; the register awaits one reply less, and the
request is answered. Other registers and memory stay. -/
def Obligations.ReadsReturn : Prop :=
  (∀ s : State, let a := s.cue.acc;
    let home := s.homeOf a.line;
    let now := s.podTime home;
    scratchLine a.line = false → s.gone a.node = false → (s.line a.line).calm → Here (chipOfCore a.core) home s.cue → Open s home (chipOfCore a.core) →
      ∃ t, exec .readRequest s = .next t ∧ t.mem = s.mem ∧ (t.line a.line).ver = (s.line a.line).ver ∧
        (a.lease ≠ 0 → now + a.lease ≤ (t.line a.line).h) ∧
        UnderWay t .readReply fun c => c.acc.id = a.id ∧ c.parts = s.cue.parts ∧ c.data = memBytes s.mem (128 * a.line) 128 ∧
          c.num = (s.line a.line).ver ∧ c.ct = if a.lease = 0 then 0 else now + a.lease) ∧
  (∀ (s : State) (b : Block) (w : Warp) (row lane off len : Nat) (sx : Bool), let a := s.cue.acc;
    let bytes := (s.cue.data.drop off).take len;
    s.block? a.node = some b → b.st = .running → s.warp? a.warp = some w → w.node = a.node → w.live ≠ 0 → a.op = 0 → scratchLine a.line = false →
    Here (s.homeOf a.line) (chipOfCore a.core) s.cue → s.cue.parts = [{ off := off, len := len, place := .reg row lane sx }] →
    vecAt w.forgot lane 0 ≤ a.id → lane < 32 → len ∈ [1, 2, 4, 8, 16] → off + len ≤ s.cue.data.length → row + max 1 (len / 4) ≤ w.rows.length →
      ∃ t w', exec .readReply s = .next t ∧ t.mem = s.mem ∧ t.warp? a.warp = some w' ∧
        (∀ i, i < max 1 (len / 4) → laneWord (w'.row (row + i)).data lane = (wordsOf sx bytes).getD i 0 ∧ inSet (w'.row (row + i)).valid lane = true ∧
          (w'.row (row + i)).pend = (w.row (row + i)).pend - 1) ∧
        (∀ r j, r < w.rows.length → j < 32 → ¬ (j = lane ∧ row ≤ r ∧ r < row + max 1 (len / 4)) →
          laneWord (w'.row r).data j = laneWord (w.row r).data j ∧ inSet (w'.row r).valid j = inSet (w.row r).valid j) ∧
        (∀ f, f ∈ w'.flights → f.id = a.id → f.load = false) ∧ w'.sregs = w.sregs ∧ w'.gangs = w.gangs)

/-- R271, R272: an acknowledgement answers the warp's write, and its completion time raises the warp's release points; gangs whose release wait is met
go on.

R238, R269: a completed walk caches its leaf for every requester and is over; a copy whose lease has run out, as its holder's pod time tells, is
dropped, and one that runs on is kept. -/
def Obligations.ReleasesAndCopies : Prop :=
  ((∀ (s : State) (b : Block) (w : Warp), let a := s.cue.acc
    s.block? a.node = some b → b.st = .running → s.warp? a.warp = some w → w.node = a.node → w.live ≠ 0 → a.op = 0 →
    Here (s.homeOf a.line) (chipOfCore a.core) s.cue →
      ∃ t w', exec .acknowledge s = .next t ∧ t.mem = s.mem ∧ t.warp? a.warp = some w' ∧ w'.rows = w.rows ∧ w'.gangs = w.gangs ∧
        (∀ f, f ∈ w'.flights → f.id = a.id → f.write = false) ∧
        w'.relChip = (if s.cue.ct = 0 then w.relChip else max w.relChip s.cue.ct) ∧
        w'.relPod = if s.cue.ct = 0 then w.relPod else max w.relPod (s.cue.ct + 25)) ∧
  (∀ (s : State) (w : Warp) (b : Block), s.warp? s.cue.warp = some w → s.block? w.node = some b →
    ∃ t w', exec .releasePointReached s = .next t ∧ t.warp? s.cue.warp = some w' ∧ w'.gangs = w.gangs.map (fun g => match g.wait with
        | .stall (.release n sc _) => if w.releaseMet n sc (s.podTime b.chip) then { g with wait := .run } else g
        | _ => g) ∧ { w' with gangs := w.gangs } = w ∧ Outside s t ∧ OthersKept s t s.cue.warp)) ∧
  ((∀ (s : State) (x : Walk), (s.chip s.cue.chip).walks.find? (fun w => decide (w.num = s.cue.num)) = some x →
    ∃ t, exec .translationWalk s = .next t ∧ t.mem = s.mem ∧ t.warps = s.warps ∧ (∀ y, y ∈ (t.chip s.cue.chip).walks → y.num ≠ s.cue.num) ∧
      (∀ e, e ∈ (s.chip s.cue.chip).tlb → e ∈ (t.chip s.cue.chip).tlb) ∧
      ∀ sp e, s.homeSpace s.cue.chip x.ctx x.home = some sp → s.walkLeaf sp x.ctx x.home x.off = some e → e ∈ (t.chip s.cue.chip).tlb) ∧
  (∀ (s : State) (x : Copy), s.copyAt s.cue.unit s.cue.line = some x → x.live = true →
    (x.exp ≤ s.podTime (holderChip s.cue.unit) → ∃ t y, exec .leaseExpiry s = .next t ∧ t.mem = s.mem ∧ t.copyAt s.cue.unit s.cue.line = some y ∧ y.live = false) ∧
    (s.podTime (holderChip s.cue.unit) < x.exp → ∃ t, exec .leaseExpiry s = .next t ∧ t.mem = s.mem ∧ t.copyAt s.cue.unit s.cue.line = some x ∧
      UnderWay t .leaseExpiry fun c => c.unit = s.cue.unit ∧ c.line = s.cue.line)))

/-- R344 to R348: a transfer's bytes reach the scratchpad of a running block, whose counter record, if one is named, takes the count; a counted packet's
add is made once the home's clock has reached its time. -/
def Obligations.BlocksReceive : Prop :=
  (∀ (s : State) (src b : Block) (bid off len : Nat) (cnt : Option Nat), let a := s.cue.acc
    Here s.cue.peer s.cue.chip s.cue → s.gone a.node = false → s.block? a.node = some src → s.nodeOf src.gid bid = some b → s.block? b.node = some b →
    b.st = .running → b.chip = s.cue.chip → s.cue.parts = [{ off := 0, len := len, place := .blk bid off cnt }] →
    s.writtenBefore a (blkKey bid off) len = false → Memory.wf b.scratch → s.cue.data.length = len →
      ∃ t b', exec .blockWrite s = .next t ∧ t.mem = s.mem ∧ t.block? b.node = some b' ∧ b'.scratch =
        (match cnt with
          | some r => addCount (memPut b.scratch off s.cue.data) r len
          | none => memPut b.scratch off s.cue.data)) ∧
  (∀ (s : State) (b : Block), s.gone s.cue.acc.node = false → s.target s.cue.gid s.cue.num = .write b → s.block? b.node = some b →
    s.cue.ct ≤ s.podTime s.cue.chip → ∃ t b', exec .countedPacketAdd s = .next t ∧ t.mem = s.mem ∧ t.block? b.node = some b' ∧
      b'.scratch = addCount b.scratch s.cue.unit s.cue.tag) ∧
  (∀ s : State, s.gone s.cue.acc.node = false → s.podTime s.cue.chip < s.cue.ct →
    ∃ t, exec .countedPacketAdd s = .next t ∧ t.blocks = s.blocks ∧ UnderWay t .countedPacketAdd fun c => c = s.cue)

/-- R283, R284, R455: a block that is ready, with all that it depends on, commits at once with them: none of their old contents is kept any more. Until
then nothing happens. A block stalled on its staging budget for 10,000 ns that depends on none gives up its old contents and can roll back no more.

R285, R398: a block that fails alone is rolled back: every line of which it holds an old copy has that copy's bytes again and every other byte of
memory stays; its node is dead, and a fresh node of the same block, of the next generation, waits for a core. -/
def Obligations.BlocksSettle : Prop :=
  ((∀ (s : State) (b : Block), s.block? s.cue.node = some b → b.node = s.cue.node → b.open_ = true → ((s.needed [b.node]).all s.ready) = true →
    ∃ t, exec .blockCommit s = .next t ∧ t.mem = s.mem ∧ t.warps = s.warps ∧
      (∀ n x, n ∈ s.needed [b.node] → t.block? n = some x → x.st = .committed ∧ x.staged = []) ∧
      (∀ x u, u ∈ (t.line x).undo → u.1 ∉ s.needed [b.node])) ∧
  (∀ (s : State) (b : Block), s.block? s.cue.node = some b → (b.open_ = false ∨ ((s.needed [b.node]).all s.ready) = false) →
    ∃ t, exec .blockCommit s = .next t ∧ t = s) ∧
  (∀ (s : State) (b : Block) (n : Nat), s.block? s.cue.node = some b → b.stallSince = some n → b.open_ = true → b.norev = false →
    (n + 10000 ≤ s.podTime b.chip → (s.needed [s.cue.node]).length = 1 → s.needed [s.cue.node] = [s.cue.node] →
      ∃ t b', exec .stagingEarlyCommit s = .next t ∧ t.mem = s.mem ∧ t.block? s.cue.node = some b' ∧ b'.norev = true ∧ b'.staged = [] ∧ b'.stallSince = none ∧
        ∀ x u, u ∈ (t.line x).undo → u.1 ≠ s.cue.node) ∧
    (s.podTime b.chip < n + 10000 → ∃ t, exec .stagingEarlyCommit s = .next t ∧ t.blocks = s.blocks ∧ t.mem = s.mem ∧
      t.awaits .stagingEarlyCommit { node := s.cue.node } = true))) ∧
  (∀ (s : State) (b : Block), let n := s.cue.node;
    Memory.wf s.mem → s.block? n = some b → b.node = n → b.open_ = true → b.norev = false → b.failures < 7 → s.cue.num ≠ 0 → s.dependants [n] = [n] →
    s.partials = [] → s.debugBlock b.chip b.ctx = none → s.nextNode ≠ n → s.block? s.nextNode = none →
      ∃ t b' f, exec .blockRollback s = .next t ∧
        (∀ x u, (s.line x).undo.find? (fun u => decide (u.1 = n)) = some u → ∀ i, i < 128 → memGet t.mem (128 * x + i) = lineByte u.2.2 i) ∧
        (∀ x, (s.line x).undo.find? (fun u => decide (u.1 = n)) = none → ∀ i, i < 128 → memGet t.mem (128 * x + i) = memGet s.mem (128 * x + i)) ∧
        t.block? n = some b' ∧ b'.st = .dead ∧ t.block? s.nextNode = some f ∧ f.st = .queued ∧ f.gid = b.gid ∧ f.bid = b.bid ∧ f.gen = b.gen + 1 ∧
        f.failures = b.failures + 1 ∧ UnderWay t .blockStart fun c => c.chip = b.chip ∧ c.gid = b.gid ∧ c.num = b.bid)

/-! ## Engines and the matrix unit -/

/-- R21, R292 to R300: an engine word of a `copy` warp whose parameters, stage slot and addresses pass their checks puts one operation of its class under
way, with a piece for every stretch of bytes that crosses no line; nothing has moved yet.

R289, R294, R296: an engine word is of `copy` warps alone; a copy of a length that is not a multiple of 16 from 16 to 1,048,576 takes the
copy-parameter trap at the parameter's first byte. -/
def Obligations.EnginesBegin : Prop :=
  (∀ (s : State) (k : Nat) (m : Lanes) (w : Warp) (g : Gang) (b : Block) (gd : BitVec 4) (d a c : Code) (j : Nat), Issuing s k m w g b →
    w.role = .copy → lowestLane m = some j → inSet (guarded w m gd) j = true → d.toNat < 120 → a.toNat < 120 → c.toNat < 120 → Unlogged s b [d, a, c] →
    let cx := seenBy false s k m w g b;
    let q := guarded w m gd;
    let slotOk := fun (x : Word) => ∀ r n, arrivalOf x = some (r, n) → n < (b.rings.getD r {}).s;
    let pieces := fun (l : List Strip) => (piecesOf l).length;
    w.readable (laneBit j) (a, 2) →
    (∀ l : List Strip, let x := cx.word c j
      let len := (x.extractLsb' 0 21).toNat
      w.readable (laneBit j) (d, 2) → w.readable (laneBit j) (c, 1) → len % 16 = 0 → 16 ≤ len → len ≤ 1048576 → x.extractLsb' 21 3 = 0 → slotOk x →
      w.osc .copy < 63 → l = [{ lane := j, src := (cx.pair a j).toNat, dst := (cx.pair d j).toNat, len := len }] → cx.stripsPass s 16 l true →
      ∃ t, exec (.cp gd d a c) s = .next t ∧ Begins s t k m g .copy (arrivalOf x) (pieces l)) ∧
    (∀ l : List Strip, let x := fun i => w.sreg (c.toNat - 96 + i)
      let len := ((x 0).extractLsb' 0 21).toNat
      let n := ((x 1).extractLsb' 0 13).toNat
      w.readable (laneBit j) (d, 2) → w.readable (laneBit j) (c, 4) → c ∈ ([96, 100, 104, 108] : List Code) → len % 16 = 0 → 16 ≤ len → len ≤ 65536 →
      (x 0).extractLsb' 21 3 = 0 → 0 < n → n ≤ 4096 → n * len ≤ 1048576 → (x 1).extractLsb' 13 19 = 0 → (x 2).extractLsb' 0 4 = 0 → (x 3).extractLsb' 0 4 = 0 →
      slotOk (x 0) → w.osc .copy < 63 → l = (List.range n).map (fun r => { lane := j, len := len, src := (cx.pair a j + (x 2).signExtend 64 * BitVec.ofNat 64 r).toNat, dst := (cx.pair d j + (x 3).signExtend 64 * BitVec.ofNat 64 r).toNat }) →
      cx.stripsPass s 16 l true → ∃ t, exec (.cp2d gd d a c) s = .next t ∧ Begins s t k m g .copy (arrivalOf (x 0)) (pieces l)) ∧
    (∀ l : List Strip, let x := cx.word c j
      let u := 4 * 2 ^ (x.extractLsb' 0 3).toNat
      w.readable q (a, 2) → w.readable (laneBit j) (d, 2) → w.readable (laneBit j) (c, 1) → (x.extractLsb' 0 3).toNat < 6 → x.extractLsb' 3 21 = 0 → slotOk x →
      w.osc .gath < 63 → l = (lanesOf q).map (fun i => { lane := i, src := (cx.pair a i).toNat, dst := ((cx.pair d j).toNat + i * u) % 2 ^ 64, len := u }) →
      cx.stripsPass s u l true → ∃ t, exec (.gath gd d a c) s = .next t ∧ Begins s t k m g .gath (arrivalOf x) (pieces l)) ∧
    (∀ (l : List Strip) (v : Warp), let y := cx.word d j
      let x := cx.word c j
      let bytes := if x.getLsbD 20 then 1024 else 512
      let stride := (x.extractLsb' 0 20).toNat
      let row := (y.extractLsb' 0 16).toNat
      w.readable (laneBit j) (d, 1) → w.readable (laneBit j) (c, 1) → row % 8 = 0 → y.extractLsb' 21 11 = 0 → s.warp? (b.node * 32 + (y.extractLsb' 16 5).toNat) = some v →
      v.live ≠ 0 → row + 16 * bytes / 128 ≤ v.rows.length → (∀ r, row ≤ r → r < row + 16 * bytes / 128 → (v.row r).pend = 0) →
      stride % 64 = 0 → bytes ≤ stride → stride ≤ 1048512 → x.extractLsb' 21 3 = 0 → slotOk x → w.osc .copy < 63 →
      l = (List.range 16).map (fun r => { lane := j, src := ((cx.pair a j).toNat + r * stride) % 2 ^ 64, dst := r * bytes, len := bytes }) →
      cx.stripsPass s 64 l false → ∃ t, exec (.cpfr gd d a c) s = .next t ∧ Begins s t k m g .copy (arrivalOf x) (pieces l)) ∧
    (∀ l : List Strip, let x := cx.word c j
      w.readable (laneBit j) (d, 1) → w.readable (laneBit j) (c, 1) → x.extractLsb' 0 24 = 0 → (cx.word d j).toNat < (b.ntiles + 7) / 8 → slotOk x → w.osc .copy < 63 →
      l = [{ lane := j, src := (cx.pair a j).toNat, dst := 0, len := 2048 }] → cx.stripsPass s 128 l false →
      ∃ t, exec (.cpmeta gd d a c) s = .next t ∧ Begins s t k m g .copy (arrivalOf x) (pieces l))) ∧
  (∀ (s : State) (k : Nat) (m : Lanes) (w : Warp) (g : Gang) (b : Block) (gd : BitVec 4) (d a c : Code) (j : Nat), Issuing s k m w g b →
    w.intrap = false → w.trapvec ≠ 0 →
    (w.role ≠ .copy → ∃ t w', exec (.cp gd d a c) s = .next t ∧ t.warp? k = some w' ∧ w'.intrap = true ∧ w'.trapcause.extractLsb' 0 8 = 0x06 ∧
      w'.trapaddr = 0x6D ∧ w'.ops = w.ops ∧ t.mem = s.mem) ∧
    (w.role = .copy → lowestLane m = some j → inSet (guarded w m gd) j = true → d.toNat < 120 → a.toNat < 120 → c.toNat < 120 → Unlogged s b [d, a, c] →
      w.readable (laneBit j) (d, 2) → w.readable (laneBit j) (a, 2) → w.readable (laneBit j) (c, 1) →
      (∀ len, len = (((seenBy false s k m w g b).word c j).extractLsb' 0 21).toNat → len % 16 ≠ 0 ∨ len < 16 ∨ 1048576 < len) → ∃ t w', exec (.cp gd d a c) s = .next t ∧ t.warp? k = some w' ∧ w'.intrap = true ∧
      w'.trapcause.extractLsb' 0 8 = 0x16 ∧ w'.trapaddr = 0 ∧ w'.ops = w.ops ∧ t.mem = s.mem))

/-- R21, R293, R303: `owait` lets its gang go on while at most the given number of operations of the class are outstanding, and else lets it wait. `sinit`
sets a ring up, `sarr` adds an arrival to a slot, whose phase turns with the last, and `swait` goes on when the slot's phase differs from the one
given, as an acquire.

R21: where the guard of the lowest active fibre is false, the words that act once for their gang have no effect. -/
def Obligations.StagesAndGuards : Prop :=
  (∀ (s : State) (k : Nat) (m : Lanes) (w : Warp) (g : Gang) (b : Block) (gd : BitVec 4) (d a i : Code) (j : Nat), Issuing s k m w g b → b.node = w.node →
    lowestLane m = some j → inSet (guarded w m gd) j = true →
    let v := (seenBy false s k m w g b).word a j;
    let r := d.toNat % 8;
    let ring := b.rings.getD r {};
    let n := min (g.x i) 63;
    (w.osc (classOf (d.toNat % 4)) ≤ n → ∃ t, exec (.owait gd d a i) s = .next t ∧ Leaves s t k m g (Warp.becomes id)) ∧
    (n < w.osc (classOf (d.toNat % 4)) → ∃ t w' g', exec (.owait gd d a i) s = .next t ∧ t.issuing = none ∧ t.warp? k = some w' ∧ w'.gang? m = some g' ∧
      g'.wait = .stall (.osc (classOf (d.toNat % 4)) n) ∧ w'.still = w.still ∧ Outside s t) ∧
    (w.latched m a → w.readable (laneBit j) (a, 1) → Unlogged s b [a] →
      (0 < (v.extractLsb' 0 5).toNat → (v.extractLsb' 0 5).toNat ≤ 16 → 0 < (v.extractLsb' 8 6).toNat → (v.extractLsb' 8 6).toNat ≤ 32 →
        (∀ p, p ∈ s.warps → p.2.node = w.node → ∀ o, o ∈ p.2.ops → o.arv.map Prod.fst ≠ some r) → (∀ o, o ∈ w.ops → o.arv.map Prod.fst ≠ some r) →
        ∃ t b', exec (.sinit gd d a) s = .next t ∧ LeavesBut s t False True k m g (Warp.becomes id) ∧ t.block? w.node = some b' ∧
          b'.rings = b.rings.set r { s := (v.extractLsb' 0 5).toNat, e := (v.extractLsb' 8 6).toNat }) ∧
      (v.toNat % 16 < ring.s → (g.half = true ∨ w.releaseMet s.fresh 0 (s.podTime b.chip) = true) →
        ∃ t b', exec (.sarr gd d a) s = .next t ∧ LeavesBut s t False True k m g (Warp.becomes id) ∧ t.block? w.node = some b' ∧
          b'.rings = b.rings.set r (if ring.cnt.getD (v.toNat % 16) 0 + 1 = ring.e then
              { ring with cnt := ring.cnt.set (v.toNat % 16) 0, ph := ring.ph.set (v.toNat % 16) (!ring.ph.getD (v.toNat % 16) false) }
            else { ring with cnt := ring.cnt.set (v.toNat % 16) (ring.cnt.getD (v.toNat % 16) 0 + 1) })) ∧
      (v.toNat % 16 < ring.s → ring.ph.getD (v.toNat % 16) false ≠ v.getLsbD 8 → ∃ t, exec (.swait gd d a) s = .next t ∧
        Leaves s t k m g (Warp.becomes fun w => { w with acq := s.fresh })) ∧
      (v.toNat % 16 < ring.s → ring.ph.getD (v.toNat % 16) false = v.getLsbD 8 → ∃ t w' g', exec (.swait gd d a) s = .next t ∧ t.issuing = none ∧
        t.warp? k = some w' ∧ w'.gang? m = some g' ∧ g'.wait = .stall (.stage r (v.toNat % 16) (v.getLsbD 8)) ∧ Outside s t) ∧
      (ring.s ≤ v.toNat % 16 → w.intrap = false → w.trapvec ≠ 0 → ∃ t w', exec (.sarr gd d a) s = .next t ∧ t.warp? k = some w' ∧ w'.intrap = true ∧
        w'.trapcause.extractLsb' 0 8 = 0x0A ∧ w'.trapaddr = BitVec.ofNat 64 (16 * r + v.toNat % 16)))) ∧
  (∀ (s : State) (k : Nat) (m : Lanes) (w : Warp) (g : Gang) (b : Block) (gd : BitVec 4) (d a c : Code) (j : Nat), Issuing s k m w g b →
    lowestLane m = some j → inSet (guarded w m gd) j = false → d.toNat < 120 → a.toNat < 120 → c.toNat < 120 →
    (w.role = .copy → ∀ i, i ∈ [Instr.cp gd d a c, .cp2d gd d a c, .gath gd d a c, .cpfr gd d a c, .cpmeta gd d a c] →
      ∃ t, exec i s = .next t ∧ Leaves s t k m g (Warp.becomes id)) ∧
    (∀ i, i ∈ [Instr.owait gd d a c, .sinit gd d a, .sarr gd d a, .swait gd d a, .submit gd d a, .evpost gd d a, .evwait gd d a, .plrd gd d a, .trap gd d a,
        .tfence gd d a, .mon gd d a, .mwait gd d a, .rfe gd d a, .sysrd gd d a, .syswr gd d a, .sysset gd d a, .sysclr gd d a, .renter gd d a, .rleave gd d a,
        .stamp gd d a, .brk gd d a, .fltrd gd d a] → ∃ t, exec i s = .next t ∧ Leaves s t k m g (Warp.becomes id)) ∧
    (w.role = .gen ∨ w.role = .copy → ∀ i, i ∈ [Instr.coll gd d a, .put gd d a, .get gd d a, .putv gd d a, .arm gd d a, .await gd d a, .chput gd d a, .chget gd d a] →
      ∃ t, exec i s = .next t ∧ Leaves s t k m g (Warp.becomes id)) ∧
    (guarded w m gd = 0 → ∃ t, exec (.trig gd d a) s = .next t ∧ Leaves s t k m g (Warp.becomes id)))

/-- R204, R208, R218 to R222, R225, R227: a matrix word of an `mtx` warp that owns its tile, whose rows are in order, queues one instruction for the core's
engine and counts it on MTX; no register has changed yet. A multiply of a declared burst waits for its cluster's power token (R65 read
so: log 109). Without a selected fibre it has no effect, which is the model's reading (log 21). -/
def Obligations.MatrixQueued : Prop :=
  ∀ (s : State) (k : Nat) (m : Lanes) (w : Warp) (g : Gang) (b : Block) (gd : BitVec 4) (d a c : Code) (j : Nat), Issuing s k m w g b → w.role = .mtx →
    let q := guarded w m gd
    let cx := seenBy false s k m w g b
    let owned := d.toNat % 64 < b.ntiles ∧ (b.tiles.getD (d.toNat % 64) {}).owner = some w.idx
    let rowsOk := fun (x n : Nat) (valid : Lanes) (write : Bool) => x + n ≤ w.rows.length ∧ ∀ r, x ≤ r → r < x + n → (w.row r).pend = 0 ∧
      (write = true → (w.row r).hold = 0) ∧ ∀ i, i < 32 → inSet valid i = true → inSet (w.row r).valid i = true ∧ inSet (w.row r).bad i = false
    let queues := fun (i : Instr) (kind : MatKind) (row : Nat) => ∃ t w' o e, exec i s = .next t ∧ PastWord s t k m g ∧ t.mem = s.mem ∧ OthersKept s t k ∧
      t.warp? k = some w' ∧ (t.core w.core).mq = (s.core w.core).mq ++ [o] ∧ o.kind = kind ∧ o.tile = d.toNat % 64 ∧ o.q = q ∧ o.cfg = w.mxcfg ∧ o.warp = k ∧
      o.a = row ∧ w'.ops = w.ops ++ [e] ∧ e.cls = .mtx ∧ e.id = o.id ∧ w'.sregs = w.sregs ∧ w'.fstat = w.fstat ∧
      ∀ r, (w'.row r).data = (w.row r).data ∧ (w'.row r).valid = (w.row r).valid
    let x := (cx.word a j).toNat
    (lowestLane q = some j → owned → w.osc .mtx < 63 →
      (rowsOk (8 * a.toNat) 64 (BitVec.allOnes 32) false → (w.burst = 0 ∨ s.powered w.core = true) →
        (rowsOk (8 * c.toNat) (16 * MatKind.perCol .mma) (BitVec.allOnes 32) false → queues (.mma gd d a c) .mma (8 * a.toNat)) ∧
        (rowsOk (8 * c.toNat) (16 * MatKind.perCol .mmaz) (BitVec.allOnes 32) false → queues (.mmaz gd d a c) .mmaz (8 * a.toNat)) ∧
        (rowsOk (8 * c.toNat) (16 * MatKind.perCol .mmas) (BitVec.allOnes 32) false → cfgSlot w.mxcfg < (b.ntiles + 7) / 8 → queues (.mmas gd d a c) .mmas (8 * a.toNat))) ∧
      (rowsOk (8 * a.toNat) 64 (BitVec.allOnes 32) false → rowsOk (8 * c.toNat) (16 * MatKind.perCol .mma) (BitVec.allOnes 32) false → w.burst ≠ 0 →
        s.powered w.core = false → ∃ t w' g', exec (.mma gd d a c) s = .next t ∧ t.issuing = none ∧ t.warp? k = some w' ∧ w'.gang? m = some g' ∧
        g'.wait = .stall .token ∧ Outside s t) ∧
      (∀ amx r, rowsOk (8 * a.toNat) (drainRows w.mxcfg + amx.toNat) 0 true → queues (.mdrn gd d a amx r) .mdrn (8 * a.toNat)) ∧
      (∀ amx r, a.toNat < 120 → w.readable (laneBit j) (a, 2) → Unlogged s b [a] → (cx.pair a j).toNat % 64 = 0 → addrForm (cx.pair a j).toNat = 0 →
        (∀ i, i < (16 * drainStride w.mxcfg + 64 * amx.toNat) / 64 → ∃ key leaf, s.access b.chip b.ctx .store (((cx.pair a j).toNat + 64 * i) % 2 ^ 64) = .ok key leaf) →
        queues (.mdrnSt gd d a amx r) .mdrnSt 0) ∧
      queues (.mzero gd d a) .mzero 0 ∧
      (a.toNat < 120 → w.readable (laneBit j) (a, 1) → Unlogged s b [a] → x ≤ 127 → (rowsOk (8 * x) 8 0 true → queues (.mget gd d a) .mget (8 * x)) ∧
        (rowsOk (8 * x) 8 q false → queues (.mput gd d a) .mput (8 * x)))) ∧
    (q = 0 → a.toNat < 120 → ∀ i, i ∈ [Instr.mma gd d a c, .mmaz gd d a c, .mmas gd d a c, .mdrn gd d a 0 0, .mdrnSt gd d a 0 0, .mzero gd d a, .mget gd d a, .mput gd d a] →
      ∃ t, exec i s = .next t ∧ Leaves s t k m g (Warp.becomes id)) ∧
    (lowestLane q = some j → ¬ owned → w.intrap = false → w.trapvec ≠ 0 → ∃ t w', exec (.mma gd d a c) s = .next t ∧ t.warp? k = some w' ∧ w'.intrap = true ∧
      w'.trapcause.extractLsb' 0 8 = 0x07 ∧ w'.trapaddr = BitVec.ofNat 64 (d.toNat % 64) ∧ w'.ops = w.ops)

/-- R223, R224, R226: `mcfg` tells the old MXCFG and sets the fields of the new that name formats; `maloc` takes a free tile and waits for one that
another warp owns; `mfree` gives it back, with no instruction of the warp on it; `mburst` declares multiplies to come. -/
def Obligations.TilesOwned : Prop :=
  ∀ (s : State) (k : Nat) (m : Lanes) (w : Warp) (g : Gang) (b : Block) (gd : BitVec 4) (d a : Code) (j : Nat), Issuing s k m w g b → w.role = .mtx →
    b.node = w.node → lowestLane m = some j → inSet (guarded w m gd) j = true →
    let q := guarded w m gd
    let v := (seenBy false s k m w g b).word a j
    let n := d.toNat % 64
    (a.toNat < 120 → w.readable (laneBit j) (a, 1) → Unlogged s b [a] →
      (w.writable q (d, 1) → ∃ t, exec (.mcfg gd d a) s = .next t ∧ Leaves s t k m g fun w w' =>
        Warp.takes q (d, 1) (fun _ => w.mxcfg.setWidth 64) { w with mxcfg := (cfgWrite w.mxcfg v).1 } w') ∧
      ∃ t, exec (.mburst gd d a) s = .next t ∧ Leaves s t k m g (Warp.becomes fun w => { w with burst := v.toNat })) ∧
    (n < b.ntiles → (b.tiles.getD n {}).owner = none → ∃ t b', exec (.maloc gd d a) s = .next t ∧ LeavesBut s t False True k m g (Warp.becomes id) ∧
      t.block? w.node = some b' ∧ b'.tiles = b.tiles.set n { owner := some w.idx }) ∧
    (n < b.ntiles → (b.tiles.getD n {}).owner = some w.idx → ∃ t, exec (.maloc gd d a) s = .next t ∧ Leaves s t k m g (Warp.becomes id)) ∧
    (∀ i, n < b.ntiles → (b.tiles.getD n {}).owner = some i → i ≠ w.idx → ∃ t w' g', exec (.maloc gd d a) s = .next t ∧ t.issuing = none ∧
      t.warp? k = some w' ∧ w'.gang? m = some g' ∧ g'.wait = .stall (.tiles [n]) ∧ Outside s t) ∧
    (n < b.ntiles → (b.tiles.getD n {}).owner = some w.idx → (∀ o, o ∈ w.ops → o.tile ≠ some n) →
      (∀ p, p ∈ s.warps → p.2.node = w.node → ∀ x, x ∈ p.2.gangs → x.wait ≠ .stall (.tiles [n])) → (∀ x, x ∈ w.gangs → x.wait ≠ .stall (.tiles [n])) →
      ∃ t b', exec (.mfree gd d a) s = .next t ∧ LeavesBut s t False True k m g (Warp.becomes id) ∧ t.block? w.node = some b' ∧
        b'.tiles = b.tiles.set n { b.tiles.getD n {} with owner := none }) ∧
    (b.ntiles ≤ n → w.intrap = false → w.trapvec ≠ 0 → ∃ t w', exec (.maloc gd d a) s = .next t ∧ t.warp? k = some w' ∧ w'.intrap = true ∧
      w'.trapcause.extractLsb' 0 8 = 0x07 ∧ w'.trapaddr = BitVec.ofNat 64 n)

/-- R205, R213 to R218, R225, R227, R229: the engine starts the first instruction of its queue that may start; `mzero` clears the selected rows' accumulators and scales,
`mput` takes them from register rows, and a multiply leaves in the tile what the multiply of its operands makes of it. One that reads a tile with an
uncorrectable error, or that the shadow twice finds wrong, changes no tile, and its block rolls back.

R218, R227, R230: an empty queue, or one whose first instructions all await a token, starts nothing; a token that its cluster holds and wants stays
where it is; one held for 4,000 ns is given up at the next move. -/
def Obligations.MatrixEngine : Prop :=
  (∀ (s : State) (o : MatOp) (w : Warp) (b : Block), let core := s.cue.core;
    startable (s.powered core) (s.core core).mq = some o → s.warp? o.warp = some w → s.block? (o.warp / 32) = some b → o.tile < b.tiles.length → w.live ≠ 0 →
    let x := b.tiles.getD o.tile {};
    let right := ∀ n, o.mismatch (s.core core).mcount n = false;
    let lost := fun (cause : Nat) => ∃ t b', exec .matrixStart s = .next t ∧ t.mem = s.mem ∧ t.block? (o.warp / 32) = some b' ∧
      (b'.tiles.getD o.tile {}).acc = x.acc ∧ t.awaits .blockRollback { node := o.warp / 32, num := cause } = true;
    let after := fun (p : Tile → Prop) => ∃ t b', exec .matrixStart s = .next t ∧ t.mem = s.mem ∧ t.block? (o.warp / 32) = some b' ∧
      (∀ y, y ∈ (t.core core).mq → y.id ≠ o.id) ∧ p (b'.tiles.getD o.tile {});
    (o.kind = .mzero → after fun y => (∀ n, n < 256 → y.acc.getD n 0 = if rowSel o.q (n / 16) then 0 else x.acc.getD n 0) ∧
      ∀ i, i < 16 → y.sa.getD i 127 = if rowSel o.q i then 127 else x.sa.getD i 127) ∧
    (o.kind = .mput → after fun y => ∀ n, n < 256 → y.acc.getD n 0 = if inSet o.q (2 * (n / 16) + n % 16 / 8) then
      laneWord (o.opA.getD (n % 8) 0) (2 * (n / 16) + n % 16 / 8) else x.acc.getD n 0) ∧
    (o.kind = .mma ∨ o.kind = .mmaz ∨ o.kind = .mmas → right → x.soft = [] → x.bad = [] → after fun y => y = (multiply o (memBytes b.slots (cfgSlot o.cfg * 2048) 2048) x).1) ∧
    (o.kind = .mget → x.bad = [] → o.a + 8 ≤ w.rows.length → ∃ t w', exec .matrixStart s = .next t ∧ t.mem = s.mem ∧ t.warp? o.warp = some w' ∧
      ∀ n lane, n < 8 → lane < 32 → inSet o.q lane = true → laneWord (w'.row (o.a + n)).data lane = x.acc.getD (16 * (lane / 2) + 8 * (lane % 2) + n) 0) ∧
    (o.kind.reads = true → x.bad ≠ [] → lost 0x0402) ∧
    (o.kind.reads = false ∨ x.bad = [] → o.mismatch (s.core core).mcount 0 = true → o.mismatch (s.core core).mcount 1 = true → lost 0x0400)) ∧
  ((∀ s : State, startable (s.powered s.cue.core) (s.core s.cue.core).mq = none → ∃ t, exec .matrixStart s = .next t ∧ t = s) ∧
  (∀ s : State, let die := s.cue.die
    ∃ t, exec .tokenMove s = .next t ∧ t.mem = s.mem ∧ t.blocks = s.blocks ∧ t.cores = s.cores ∧ (t.die die).limited = [] ∧
      (∀ x, x ∈ (s.die die).tokens → x.held.isSome = true → s.wantsToken die x.pos = true → x.pos ∉ (s.die die).limited → x ∈ (t.die die).tokens) ∧
      ((s.die die).tokens.length = (s.die die).tokenCount → (t.die die).tokens.length = (s.die die).tokenCount)) ∧
  (∀ (s : State) (x : Token), let die := s.cue.die
    (s.die die).tokens.find? (fun x => decide (x.pos = s.cue.unit) && x.held.isSome) = some x →
    (x.held.getD 0 + 4000 ≤ s.podTime (die / 4) → ∃ t, exec .tokenHoldLimit s = .next t ∧ (t.die die).limited = s.cue.unit :: (s.die die).limited ∧
      (t.die die).tokens = (s.die die).tokens ∧ t.warps = s.warps) ∧
    (s.podTime (die / 4) < x.held.getD 0 + 4000 → ∃ t, exec .tokenHoldLimit s = .next t ∧ t.dies = s.dies ∧
      UnderWay t .tokenHoldLimit fun c => c.die = die ∧ c.unit = s.cue.unit)))

/-! ## Transfers and collectives -/

/-- R346 to R349: `put`, `get` and `putv`, whose parameters, block, counter and addresses pass their checks, put an operation of the transfer class under
way; `putv` sends one word of each acting fibre, 0 for the others, to a block's scratchpad.

R312, R350, R351: `arm` writes TARGET of a counter record; `await` goes on, as an acquire, once COUNT has reached TARGET and waits before; a gang that
has waited and is let go on completes; a record
outside the scratchpad or misaligned takes the trap. `grank` and `gsize` give the block's rank in a group and the group's size. -/
def Obligations.TransfersAndCounters : Prop :=
  (∀ (s : State) (k : Nat) (m : Lanes) (w : Warp) (g : Gang) (b : Block) (gd : BitVec 4) (d a : Code) (j : Nat), Issuing s k m w g b →
    lowestLane m = some j → inSet (guarded w m gd) j = true → w.role = .gen ∨ w.role = .copy → w.osc .coll < 63 →
    let q := guarded w m gd;
    let cx := seenBy false s k m w g b;
    let blocks := ((s.grid? b.gid).map GridRun.nblk).getD 0;
    let slotOk := fun (x : Word) => ∀ r n, arrivalOf x = some (r, n) → n < (b.rings.getD r {}).s;
    let D := fun (i : Nat) => w.sreg (d.toNat - 96 + i);
    let P := fun (i : Nat) => w.sreg (a.toNat - 96 + i);
    let dst := (D 1 ++ D 0).toNat;
    let src := (D 3 ++ D 2).toNat;
    let len := ((P 0).extractLsb' 0 24).toNat;
    let spd := (P 2).getLsbD 30;
    (∀ l : List Strip, d ∈ ([96, 100, 104, 108] : List Code) → a ∈ ([96, 100, 104, 108] : List Code) → w.readable (laneBit j) (d, 4) → w.readable (laneBit j) (a, 4) →
      0 < len → len % 4 = 0 → (P 2).extractLsb' 16 14 = 0 → ((P 2).getLsbD 31 = true → 16 * ((P 2).extractLsb' 0 16).toNat + 16 ≤ b.scratchSize) → slotOk (P 0) →
      l = [{ lane := j, src := src, dst := dst, len := len }] →
      ((P 1).toNat < blocks → (addrForm src = 15 → src / 2 ^ 30 % 4 = 0) →
        (if spd then dst < 2 ^ 25 ∧ dst + len ≤ b.scratchSize ∧ dst % 4 = 0 else addrForm dst ≠ 15) → cx.stripsPass s 4 l (!spd) →
        ∃ t, exec (.put gd d a) s = .next t ∧ Begins s t k m g .coll (arrivalOf (P 0)) (piecesOf l).length) ∧
      ((addrForm dst = 15 → dst / 2 ^ 25 % 2 ^ 35 = 0 → dst % 2 ^ 25 + len ≤ b.scratchSize) → addrForm src ≠ 15 → cx.stripsPass s 4 l true →
        ∃ t, exec (.get gd d a) s = .next t ∧ Begins s t k m g .coll (arrivalOf (P 0)) (piecesOf l).length)) ∧
    (96 ≤ d.toNat → d.toNat < 112 → w.readable (laneBit j) (d, 2) → w.readable q (a, 1) → a.toNat < 120 → Unlogged s b [a] →
      let v := cx.pair d j
      let bid := (v.extractLsb' 0 32).toNat
      let off := 128 * (v.extractLsb' 48 12).toNat
      let mark := 16 * (v.extractLsb' 32 16).toNat
      bid < blocks → v.extractLsb' 60 3 = 0 → off + 128 ≤ b.scratchSize → (v.getLsbD 63 = true → mark + 16 ≤ b.scratchSize) →
      ∃ t, exec (.putv gd d a) s = .next t ∧ Begins s t k m g .coll none 1 ∧ ((s.chip b.chip).fenced = false → UnderWay t .blockWrite fun c =>
        c.acc.node = b.node ∧ c.parts = [{ off := 0, len := 128, place := .blk bid off (if v.getLsbD 63 then some mark else none) }] ∧
        c.data = allLanes.flatMap fun i => leBytes 4 (if inSet q i then (cx.word a i).toNat else 0)))) ∧
  (∀ (s : State) (k : Nat) (m : Lanes) (w : Warp) (g : Gang) (b : Block) (gd : BitVec 4) (d a : Code) (j : Nat), Issuing s k m w g b → b.node = w.node →
    let q := guarded w m gd;
    let cx := seenBy false s k m w g b;
    (lowestLane m = some j → inSet q j = true → w.role = .gen ∨ w.role = .copy → d.toNat < 120 → Unlogged s b [d] → w.readable (laneBit j) (d, 1) →
      let off := (cx.word d j).toNat
      let fault := fun (i : Instr) (c : Word) => w.intrap = false → w.trapvec ≠ 0 → ∃ t w', exec i s = .next t ∧ t.warp? k = some w' ∧ w'.intrap = true ∧
        (w'.trapcause.extractLsb' 0 8).setWidth 32 = c ∧ w'.trapaddr = BitVec.ofNat 64 off ∧ (t.block? w.node).map Block.scratch = some b.scratch
      (a.toNat < 120 → Unlogged s b [a] → w.readable (laneBit j) (a, 2) →
        (off + 16 ≤ b.scratchSize → off % 16 = 0 → ∃ t b', exec (.arm gd d a) s = .next t ∧ LeavesBut s t False True k m g (Warp.becomes id) ∧
          t.block? w.node = some b' ∧ { b'.still with scratch := b.scratch, scrSoft := b.scrSoft, scrBad := b.scrBad } = b.still ∧ b'.scratch = memPut b.scratch (off + 8) (dwBytes 8 (cx.pair a j)) ∧
          ∀ n, n ≠ w.node → (t.block? n).map Block.still = (s.block? n).map Block.still) ∧
        (b.scratchSize < off + 16 → fault (.arm gd d a) 0x15) ∧ (off + 16 ≤ b.scratchSize → off % 16 ≠ 0 → fault (.arm gd d a) 0x13)) ∧
      (b.scratchSize < off + 16 → fault (.await gd d a) 0x15) ∧ (off + 16 ≤ b.scratchSize → off % 16 ≠ 0 → fault (.await gd d a) 0x13) ∧
      (off + 16 ≤ b.scratchSize → off % 16 = 0 → (∀ x, x ∈ b.scrSoft ++ b.scrBad → 4 * x + 3 < off ∨ off + 16 ≤ 4 * x) →
        (g.half = true ∨ leNat (memBytes b.scratch (off + 8) 8) ≤ leNat (memBytes b.scratch off 8) → ∃ t, exec (.await gd d a) s = .next t ∧
          Leaves s t k m g (Warp.becomes fun w => { w with acq := s.fresh })) ∧
        (g.half = false → leNat (memBytes b.scratch off 8) < leNat (memBytes b.scratch (off + 8) 8) → ∃ t w' g', exec (.await gd d a) s = .next t ∧ t.issuing = none ∧
          t.warp? k = some w' ∧ w'.still = w.still ∧ w'.gang? m = some g' ∧ g'.wait = .stall (.counter off) ∧ Outside s t))) ∧
    (∀ scalar : Bool, scalar = (scalarCode a && decide (96 ≤ d.toNat) && decide (d.toNat < 112)) → w.role = .gen ∨ w.role = .copy ∨ scalar = true → lowestLane q = some j → (scalar = true → lowestLane m = some j) → a.toNat < 120 → Unlogged s b [a] →
      w.readable (laneBit j) (a, 1) → w.writable q (d, 1) →
      let n := (cx.word a j).toNat
      let tells := fun (i : Instr) (v : Nat) => ∃ t, exec i s = .next t ∧ Leaves s t k m g (Warp.takes q (d, 1) fun _ => BitVec.ofNat 64 v)
      (∀ (r : GridRun) (x : Group), n < 256 → s.grid? b.gid = some r → tabLook r.groups n = some x → tells (.gsize gd d a) x.members.length ∧
        (b.bid ∉ x.members → tells (.grank gd d a) 0xFFFFFFFF) ∧
        ∀ i, x.members[i]? = some b.bid → b.bid ∉ x.members.take i → tells (.grank gd d a) i) ∧
      (256 ≤ n ∨ s.grid? b.gid = none ∨ (∀ r, s.grid? b.gid = some r → tabLook r.groups n = none) →
        tells (.gsize gd d a) 0 ∧ tells (.grank gd d a) 0xFFFFFFFF)))

/-- R313, R314, R318: `coll`, whose parameter block and ranges pass their checks, joins its block to the next instance of the collective on its group, with
its rank and parameters, and puts the operation under way.

R323 to R325: `chput` and `chget`, whose descriptor, slot, data and word pass their checks, advance SLOT and SEQ of the descriptor, at once or, on a
`.sync` page, at the switch, and put an operation under way that names what it writes. -/
def Obligations.CollectivesAndChannels : Prop :=
  (∀ (s : State) (k : Nat) (m : Lanes) (w : Warp) (g : Gang) (b : Block) (gd : BitVec 4) (d a : Code) (j : Nat), Issuing s k m w g b → b.node = w.node →
    lowestLane m = some j → inSet (guarded w m gd) j = true → w.role = .gen ∨ w.role = .copy → a.toNat < 120 → w.readable (laneBit j) (a, 2) → Unlogged s b [a] →
    w.osc .coll < 63 → d.toNat < 120 →
    let cx := contextOf { tInfo 0 gd [a] (decide (d ≠ 0)) with names := [d] } s k m w g b;
    let s0 := cx.noteSrcs [pairSrc a] (s.setWarp k cx.w);
    let base := ((seenBy false s k m w g b).pair a j).toNat;
    ∀ key leaf s1 l, Reaches s b .load 128 base key leaf →
    let acc : Access := { cx.access s0 (key / 128) base 0 w.pold 0 with rc := leafRec leaf, enc := leafEnc leaf, alloc := decide (leafCache leaf ≠ 2), sync := polSync w.pold || decide (leafOrd leaf = 1) };
    s0.readNow acc key 128 = (s1, some l) →
    let f := fieldAt l;
    let op := f 0 1;
    let group := f 6 2;
    let members := ((s.groupOf b group).map Group.members).getD [];
    let size := elemSize op (f 1 1) (f 2 1);
    let part := fun (need : Bool) (base len : Nat) => if need then piecesOf [rangeStrip j base len] else [];
    let free := fun (s : State) (n : Need) (l : List (Strip × Nat × Nat)) => ∀ x, x ∈ l → ∃ y, cx.engineCheck s n 1 x.1.src x.2.1 x.2.2 = .at_ y;
    let cnts := part (decide (op = 3)) (f 48 8) (4 * members.length);
    let spots := cnts.filterMap fun x => match cx.engineCheck s1 .load 1 x.1.src x.2.1 x.2.2 with
      | .at_ y => some y
      | _ => none;
    ∀ r s2 cl, (∀ x, x ∈ collBad j l members → x.1 = false) → members[r]? = some b.bid → b.bid ∉ members.take r →
    (∀ x n, arrivalOf (BitVec.ofNat 32 (f 37 1 * 2 ^ 24)) = some (x, n) → n < (b.rings.getD x {}).s) →
    (op = 7 → g.half = true ∨ w.releaseMet s.fresh 2 (s.podTime b.chip) = true) → free s1 .load cnts →
    readPlaces acc (cx.placed spots cnts) s1 = (s2, some cl) →
    let total := (((List.range members.length).map fun i => fieldAt cl (4 * i) 4).foldl (· + ·) 0) * f 44 4;
    free s2 .load (part (decide (op ≠ 7) && (decide (op ≠ 4) || decide (f 8 4 = r))) (f 16 8)
      (if op = 3 then total else if op = 1 then members.length * f 12 4 * size else f 12 4 * size)) →
    free s2 (if f 3 1 = 3 then .atomic else .store) (part (decide (op ≠ 7)) (f 24 8)
      (if op = 3 then f 40 4 * f 44 4 else if op = 2 then members.length * f 12 4 * size else f 12 4 * size)) →
    free s2 .store (part (decide (op = 3)) (f 56 8) (4 * members.length)) → free s2 .store (part true (f 64 8) 32) →
      ∃ t w' e c x b', exec (.coll gd d a) s = .next t ∧ PastWord s t k m g ∧ t.warp? k = some w' ∧ w'.ops = w.ops ++ [e] ∧ e.cls = .coll ∧
        e.arv = arrivalOf (BitVec.ofNat 32 (f 37 1 * 2 ^ 24)) ∧ w'.sregs = w.sregs ∧ w'.fstat = w.fstat ∧
        c ∈ t.colls ∧ c.gid = b.gid ∧ c.group = group ∧ c.inst = (tabLook b.collCount group).getD 0 ∧
        x ∈ c.mem ∧ x.bid = b.bid ∧ x.rank = r ∧ x.warp = k ∧ x.op = e.id ∧ x.pars = l ∧
        t.block? w.node = some b' ∧ tabLook b'.collCount group = some ((tabLook b.collCount group).getD 0 + 1)) ∧
  (∀ (s : State) (k : Nat) (m : Lanes) (w : Warp) (g : Gang) (b : Block) (gd : BitVec 4) (d a : Code) (j : Nat), Issuing s k m w g b → b.node = w.node →
    lowestLane m = some j → inSet (guarded w m gd) j = true → w.role = .gen ∨ w.role = .copy → d.toNat < 120 → a.toNat < 120 →
    w.readable (laneBit j) (d, 2) → w.readable (laneBit j) (a, 2) → Unlogged s b [d, a] → w.osc .coll < 63 → Memory.wf s.mem →
    let cx := seenBy false s k m w g b;
    let da := (cx.pair d j).toNat;
    let data := (cx.pair a j).toNat;
    ∀ key leaf l, Reaches s b .load 64 da key leaf → Reaches s b .store 64 da key leaf → (s.line (key / 128)).calm →
    l = memBytes s.mem key 64 → (∀ o, o ∈ w.ops → ∀ r, r ∈ o.dst → r.1 + r.2 ≤ key ∨ key + 64 ≤ r.1) →
    let f := fieldAt l;
    let lines := f 8 4;
    let free := fun (n : Need) (al base len : Nat) => ∀ x, x ∈ piecesOf [rangeStrip j base len] →
      ∃ y, cx.engineCheck s n al base x.2.1 x.2.2 = .at_ y ∧ (n = .load → (cx.windowProblem s false x.2.2 [(j, y)]).isNone = true ∧ s.spotLost cx.b.node x.2.2 y = false);
    let slot := f 0 8 + f 13 1 * lines * 128;
    (∀ x, x ∈ descBad j l → x.1 = false) → (∀ r n, arrivalOf (BitVec.ofNat 32 (f 14 1 * 2 ^ 24)) = some (r, n) → n < (b.rings.getD r {}).s) →
    (b.norev = true ∨ b.staged.length + 1 ≤ b.budget) → (∀ p, p ∈ (s.chip (s.homeOf (key / 128))).saves → p.1 ≠ b.ctx) →
    let ends := fun (i : Instr) => ∃ t w' e, exec i s = .next t ∧ PastWord s t k m g ∧ t.warp? k = some w' ∧ w'.ops = w.ops ++ [e] ∧ e.cls = .coll ∧
      e.arv = arrivalOf (BitVec.ofNat 32 (f 14 1 * 2 ^ 24)) ∧ w'.sregs = w.sregs ∧ w'.fstat = w.fstat ∧
      (leafOrd leaf ≠ 1 → memGet t.mem (key + 13) = BitVec.ofNat 8 ((f 13 1 + 1) % f 12 1) ∧
        memBytes t.mem (key + 24) 4 = leBytes 4 (if f 24 4 + 1 = 2 ^ 24 then 1 else f 24 4 + 1) ∧
        ∀ p, p ≠ key + 13 → p < key + 24 ∨ key + 28 ≤ p → memGet t.mem p = memGet s.mem p) ∧
      (leafOrd leaf = 1 → t.mem = s.mem ∧ UnderWay t .syncSwitch fun x => x.line = key / 128);
    ((∀ i, i < lines → free .load 1 ((data + 124 * i) % 2 ^ 64) 124) → free .load 4 (f 16 8) 4 → free .store 128 slot (128 * lines) → ends (.chput gd d a)) ∧
    (free .load 128 slot (128 * lines) → (∀ i, i < lines → free .store 1 ((data + 124 * i) % 2 ^ 64) 124) → free .store 4 (f 16 8) 4 → ends (.chget gd d a)))

/-! ## The system group -/

/-- R397: `sysrd` reads every system register by its number and index; `syswr`, `sysset` and `sysclr` change the writable fields of the registers that
have any, in the ways of RW and of W1C bits, and no others; a number or an index that the table does not have takes the trap. -/
def Obligations.SystemRegisters : Prop :=
  ∀ (s : State) (k : Nat) (m : Lanes) (w : Warp) (g : Gang) (b : Block) (gd : BitVec 4) (d a : Code) (j : Nat), Issuing s k m w g b →
    lowestLane m = some j → inSet (guarded w m gd) j = true → a.toNat < 120 → w.readable (laneBit j) (a, 1) → Unlogged s b [a] →
    let q := guarded w m gd
    let v := (seenBy false s k m w g b).word a j
    let x := (seenBy false s k m w g b).pair d j
    let n := v.toNat % 256
    let i := v.toNat / 2 ^ 16
    let count := fun (n : Nat) => if n = 0x07 then 4 else if n = 0x1C then 257 else if n = 0x1D then 32 else 1
    let c := s.core w.core
    let chip := s.chip b.chip
    let gone := (s.die (b.chip * 4 + i)).l2Retired
    let values : List Nat :=
      [w.tokwait % 2 ^ 32 * 2 ^ 32 + w.resumes % 256 * 256 + chip.tskew.toNat * 8 + b.norev.toNat * 4 + w.intrap.toNat * 2,
        w.warn.toNat, w.fstat.toNat, s.podTime b.chip, w.pold.toNat, w.mxcfg.toNat,
        c.wdr.toNat * 2 ^ 31 + c.spare % 16 * 2 ^ 24 + c.retired % 256 * 2 ^ 16 + c.kib, gone * 2 ^ 20 + (786432 - 768 * gone), w.reuse.toNat,
        w.collide.toNat, w.subrpl.toNat, w.enwarp, b.enblk, (vecAt w.loops 0 0).toNat, (vecAt w.loops 1 0).toNat, (vecAt w.loops 2 0).toNat,
        (vecAt w.rj 0 0).toNat, (vecAt w.rj 1 0).toNat, (vecAt w.rj 2 0).toNat, (vecAt w.rj 3 0).toNat,
        w.osc .copy + w.osc .mtx * 2 ^ 6 + w.osc .gath * 2 ^ 12 + w.osc .coll * 2 ^ 18, chip.inc,
        chip.num % 512 * 2 ^ 12 + chip.group % 128 * 2 ^ 5 + chip.pos % 32, b.ctx, w.trapvec.toNat, w.trappc.toNat, w.trapcause.toNat, w.trapaddr.toNat,
        (vecAt w.trapops i 0).toNat, w.regions.length * 2 ^ 56 + w.runf.toNat * 2 ^ 49 + w.rovf.toNat * 2 ^ 48 + (w.regions.getD i 0).toNat, chip.incdrop]
    let fields := fun (f : DWord → DWord → DWord → DWord) => ([
      (0x01, fun w => { w with warn := (f (w.warn.setWidth 64) 0 0x7FF).setWidth 32 }),
      (0x02, fun w => { w with fstat := (f (w.fstat.setWidth 64) 0x03FF0000 0xFF).setWidth 32 }),
      (0x04, fun w => { w with pold := (f (w.pold.setWidth 64) 0xFFFFFFFE 0).setWidth 32 }),
      (0x05, fun w => { w with mxcfg := (cfgWrite w.mxcfg ((f (w.mxcfg.setWidth 64) 0xFFFFFFFF 0).setWidth 32)).1 }),
      (0x18, fun w => { w with trapvec := f w.trapvec 0xFFFFFFFFFFFFFFFC 0 }),
      (0x19, fun w => { w with trappc := f w.trappc 0xFFFFFFFFFFFFFFFC 0 }),
      (0x1C, fun w => { w with trapops := vecPut w.trapops i (f (vecAt w.trapops i 0) 0xFFFFFFFFFFFFFFFF 0) })] : List (Nat × (Warp → Warp)))
    let ways : List (Instr × (DWord → DWord → DWord → DWord)) :=
      [(.syswr gd d a, fun old rw clears => ((old &&& ~~~rw) ||| (x &&& rw)) &&& ~~~(x &&& clears)), (.sysset gd d a, fun old rw _ => old ||| (x &&& rw)),
        (.sysclr gd d a, fun old rw clears => old &&& ~~~(x &&& (rw ||| clears)))]
    (n ≤ 0x1E → i < count n → w.writable q (d, 2) → (n = 0x03 → s.debugBlock b.chip b.ctx = none) → ∃ t, exec (.sysrd gd d a) s = .next t ∧
      Leaves s t k m g (Warp.takes q (d, 2) fun _ => BitVec.ofNat 64 (values.getD n 0))) ∧
    (n ≤ 0x1E → i < count n → d.toNat < 120 → w.readable (laneBit j) (d, 2) → Unlogged s b [d] → ∀ y, y ∈ ways →
      (∀ z, z ∈ fields y.2 → z.1 = n → ∃ t, exec y.1 s = .next t ∧ Leaves s t k m g (Warp.becomes z.2)) ∧
      ((∀ z, z ∈ fields y.2 → z.1 ≠ n) → ∃ t, exec y.1 s = .next t ∧ Leaves s t k m g (Warp.becomes id))) ∧
    (0x1E < n ∨ count n ≤ i → w.intrap = false → w.trapvec ≠ 0 → ∀ y, y ∈ [Instr.sysrd gd d a, .syswr gd d a, .sysset gd d a, .sysclr gd d a] →
      (y = .sysrd gd d a → w.writable q (d, 2)) → (y ≠ .sysrd gd d a → d.toNat < 120 ∧ w.readable (laneBit j) (d, 2)) →
      ∃ t w', exec y s = .next t ∧ t.warp? k = some w' ∧ w'.intrap = true ∧ w'.trapcause.extractLsb' 0 8 = 0x18 ∧
        w'.trapaddr = (v &&& 0xFFFF00FF).setWidth 64 ∧ w'.sregs = w.sregs ∧ w'.rows = w.rows ∧ t.mem = s.mem)

/-- R428, R429, R431, R434: `renter` pushes a region id on a stack of 32 and `rleave` pops one, with a sticky bit for an overflow and one for an underflow;
at the edge that a stop is armed for, the stop is disarmed and the breakpoint trap taken after the edge. `brk` traps, arms or disarms; `stamp`
marks the block's stamp record with pod time and the warp's regions.

R117, R393, R394: `trap` takes the user trap with its operand, after the word; `tfence` the arithmetic trap where an enabled flag is set, and has no
effect where none is. `rfe` outside a handler has no effect; in one it sends the trapping fibres back to TRAPPC, releases the gangs held, leaves the
handler and restores the run that TRAPOPS holds. -/
def Obligations.RegionsAndHandlers : Prop :=
  (∀ (s : State) (k : Nat) (m : Lanes) (w : Warp) (g : Gang) (b : Block) (gd : BitVec 4) (d a : Code) (j : Nat), Issuing s k m w g b →
    lowestLane m = some j → inSet (guarded w m gd) j = true →
    let reads := a.toNat < 120 ∧ w.readable (laneBit j) (a, 1) ∧ Unlogged s b [a];
    let v := (seenBy false s k m w g b).word a j;
    let id16 : BitVec 16 := v.extractLsb' 0 16;
    let mode := v.toNat / 2 ^ 16 % 4;
    let pushed := fun (w : Warp) => { w with regions := (id16 :: w.regions).take 32, rovf := w.rovf || decide (32 ≤ w.regions.length) };
    let stops := fun (i : Instr) (after : Warp) (x : Nat) => w.intrap = false → w.trapvec ≠ 0 → ∃ t w', exec i s = .next t ∧ t.warp? k = some w' ∧
      w'.intrap = true ∧ w'.trapcause.extractLsb' 0 8 = 0x23 ∧ w'.trapaddr = BitVec.ofNat 64 x ∧ w'.trappc = BitVec.ofNat 64 (g.pc + 4) ∧
      w'.regions = after.regions ∧ w'.rovf = after.rovf ∧ w'.runf = after.runf ∧ w'.stop = after.stop ∧ t.mem = s.mem;
    (reads → w.stop ≠ some (id16, 1) → ∃ t, exec (.renter gd d a) s = .next t ∧ Leaves s t k m g (Warp.becomes pushed)) ∧
    (reads → w.stop = some (id16, 1) → stops (.renter gd d a) { pushed w with stop := none } (2 ^ 16 + id16.toNat)) ∧
    (w.regions = [] → ∃ t, exec (.rleave gd d a) s = .next t ∧ Leaves s t k m g (Warp.becomes fun w => { w with runf := true })) ∧
    (∀ x r, w.regions = x :: r → (w.stop ≠ some (x, 2) → ∃ t, exec (.rleave gd d a) s = .next t ∧
        Leaves s t k m g (Warp.becomes fun w => { w with regions := r })) ∧
      (w.stop = some (x, 2) → stops (.rleave gd d a) { w with regions := r, stop := none } (2 * 2 ^ 16 + x.toNat))) ∧
    (reads → mode = 0 → stops (.brk gd d a) w id16.toNat) ∧
    (reads → mode = 1 ∨ mode = 2 → ∃ t, exec (.brk gd d a) s = .next t ∧
      Leaves s t k m g (Warp.becomes fun w => { w with stop := some (id16, BitVec.ofNat 16 mode) })) ∧
    (reads → mode = 3 → ∃ t, exec (.brk gd d a) s = .next t ∧ Leaves s t k m g (Warp.becomes fun w => { w with stop := none })) ∧
    (b.node = w.node → ∃ t b', exec (.stamp gd d a) s = .next t ∧ LeavesBut s t False True k m g (Warp.becomes id) ∧ t.block? w.node = some b' ∧
      { b'.still with stamp := b.stamp } = b.still ∧ b'.stamp.mark = some (s.podTime b.chip) ∧ b'.stamp.rdepth = w.regions.length ∧
      (∀ i, i < 4 → b'.stamp.region / 2 ^ (16 * i) % 2 ^ 16 = (w.regions.getD i 0).toNat) ∧
      { b'.stamp with mark := b.stamp.mark, region := b.stamp.region, rdepth := b.stamp.rdepth } = b.stamp)) ∧
  (∀ (s : State) (k : Nat) (m : Lanes) (w : Warp) (g : Gang) (b : Block) (gd : BitVec 4) (d a : Code) (j : Nat), Issuing s k m w g b →
    lowestLane m = some j → inSet (guarded w m gd) j = true →
    let fl : BitVec 8 := w.fstat.extractLsb' 0 8 &&& w.fstat.extractLsb' 16 8;
    (a.toNat < 120 → w.readable (laneBit j) (a, 1) → Unlogged s b [a] → w.intrap = false → w.trapvec ≠ 0 →
      ∃ t w', exec (.trap gd d a) s = .next t ∧ t.issuing = none ∧ t.warp? k = some w' ∧ w'.intrap = true ∧ w'.trapcause.extractLsb' 0 8 = 0x21 ∧
        w'.trapcause.extractLsb' 21 5 = BitVec.ofNat 5 j ∧ w'.trapaddr = ((seenBy false s k m w g b).word a j).setWidth 64 ∧
        w'.trappc = BitVec.ofNat 64 (g.pc + 4) ∧ (∀ i, inSet m i = true → w'.standsAt i w.trapvec.toNat) ∧ OthersKept s t k ∧ t.mem = s.mem) ∧
    (fl = 0 → ∃ t, exec (.tfence gd d a) s = .next t ∧ Leaves s t k m g (Warp.becomes id)) ∧
    (fl ≠ 0 → w.intrap = false → w.trapvec ≠ 0 → ∃ t w', exec (.tfence gd d a) s = .next t ∧ t.warp? k = some w' ∧ w'.intrap = true ∧
      w'.trapcause.extractLsb' 0 8 = 0x20 ∧ w'.trapaddr = fl.setWidth 64 ∧ w'.fstat = w.fstat ∧ t.mem = s.mem) ∧
    (w.intrap = false → ∃ t, exec (.rfe gd d a) s = .next t ∧ Leaves s t k m g (Warp.becomes id)) ∧
    (w.intrap = true → let tm := w.trapMask.getD m &&& w.live
      ∃ t w', exec (.rfe gd d a) s = .next t ∧ t.issuing = none ∧ Outside s t ∧ OthersKept s t k ∧ t.warp? k = some w' ∧
        Warp.becomes (fun w => { w with intrap := false, trapMask := none }) w w' ∧ (∀ x, x ∈ w'.gangs → x.held = false) ∧
        (∀ i, i < 32 → inSet tm i = true → w'.standsAt i (w.trappc.toNat / 4 * 4)) ∧
        (∀ x, x ∈ w.gangs → x.mask &&& tm = 0 → x.mask ≠ m → x.wait = .run → w.innerLoop = none → { x with held := false } ∈ w'.gangs) ∧
        (w.innerLoop = none → w'.run = runOfTrapOps tm w.trapops)))

/-- R395, R396: `mon` arms the warp's monitor on the line of an address. `mwait` ends at once, disarmed, where the monitor is not armed or has fired, and
acts as an acquire; else its gang waits, for at most as many ns as its operand says, where that is not 0; when pod time has reached the deadline, the gang
issues again and takes the monitor-timeout trap. That the trap is taken as the word issues again is the model's reading (log 68). -/
def Obligations.MonitorsWait : Prop :=
  (∀ (s : State) (k : Nat) (m : Lanes) (w : Warp) (g : Gang) (b : Block) (gd : BitVec 4) (d a : Code) (j : Nat), Issuing s k m w g b →
    lowestLane m = some j → inSet (guarded w m gd) j = true → a.toNat < 120 → Unlogged s b [a] →
    let ea := ((seenBy false s k m w g b).pair a j).toNat
    let n := ((seenBy false s k m w g b).word a j).toNat
    let now := s.podTime b.chip
    let waits := fun (due : Option Nat) => ∃ t w' g', exec (.mwait gd d a) s = .next t ∧ t.issuing = none ∧ Outside s t ∧ OthersKept s t k ∧
      t.warp? k = some w' ∧ w'.still = { w.still with deadline := due } ∧ w'.gang? m = some g' ∧ g'.wait = .stall .monitor ∧ g'.half = true ∧
      (g.half = false → due ≠ none → t.awaits .mwaitTimeout { warp := k } = true)
    (∀ key leaf, w.readable (laneBit j) (a, 2) → Reaches s b .load 1 ea key leaf → ∃ t, exec (.mon gd d a) s = .next t ∧
      Leaves s t k m g (Warp.becomes fun w => { w with monitor := some (key / 128, false), monVa := ea / 128 * 128 })) ∧
    (w.readable (laneBit j) (a, 1) →
      ((∀ x, w.monitor ≠ some (x, false)) → ∃ t, exec (.mwait gd d a) s = .next t ∧
        Leaves s t k m g (Warp.becomes fun w => { w with monitor := none, deadline := none, acq := s.fresh })) ∧
      (∀ x, w.monitor = some (x, false) → (g.half = false → waits (if n = 0 then none else some (now + n))) ∧
        (g.half = true → (∀ t, w.deadline = some t → now < t) → waits w.deadline) ∧
        (∀ due, g.half = true → w.deadline = some due → due ≤ now → w.intrap = false → w.trapvec ≠ 0 → ∃ t w', exec (.mwait gd d a) s = .next t ∧
          t.warp? k = some w' ∧ w'.intrap = true ∧ w'.trapcause.extractLsb' 0 8 = 0x22 ∧ w'.trapaddr = BitVec.ofNat 64 w.monVa ∧
          w'.trappc = BitVec.ofNat 64 (g.pc + 4) ∧ w'.monitor = none ∧ w'.deadline = none ∧ t.mem = s.mem)))) ∧
  (∀ (s : State) (w : Warp) (b : Block) (due : Nat), s.warp? s.cue.warp = some w → s.block? w.node = some b → w.deadline = some due →
    (s.podTime b.chip < due → ∃ t, exec .mwaitTimeout s = .next t ∧ t.warps = s.warps ∧ t.mem = s.mem ∧ UnderWay t .mwaitTimeout fun c => c.warp = s.cue.warp) ∧
    (due ≤ s.podTime b.chip → ∃ t w', exec .mwaitTimeout s = .next t ∧ t.mem = s.mem ∧ t.warp? s.cue.warp = some w' ∧
      w' = { w with gangs := w.gangs.map fun g => if g.wait = .stall .monitor then { g with wait := .run } else g } ∧ OthersKept s t s.cue.warp))

/-- R279, R378 to R382: a `trig` whose writes are released marks its fibres as triggered; `submit` queues the SUBMIT of a launch that passes every check
and answers 0, or answers the refusal's code; `evpost` queues a USER event of its key and its 40 bytes; `evwait` gives the least number of a delivered
event of its key that is not below the one asked for, as an acquire, and waits while there is none; `plrd` reads the chip's Plate. -/
def Obligations.EventsTold : Prop :=
  ∀ (s : State) (k : Nat) (m : Lanes) (w : Warp) (g : Gang) (b : Block) (gd : BitVec 4) (d a : Code) (j : Nat), Issuing s k m w g b →
    lowestLane m = some j → inSet (guarded w m gd) j = true →
    let q := guarded w m gd
    let reads := fun (n : Nat) => a.toNat < 120 ∧ Unlogged s b [a] ∧ w.readable (laneBit j) (a, n)
    let cx := contextOf (sysInfo 0 gd [a] false) s k m w g b
    let s0 := cx.noteSrcs [pairSrc a] (s.setWarp k cx.w)
    let x := (seenBy false s k m w g b).pair a j
    let ea := x.toNat
    let out := g.half = true ∨ w.releaseMet s.fresh 2 (s.podTime b.chip) = true
    let p := (s.chip b.chip).plate
    let may := fun (base len : Nat) => ∀ y, y ∈ piecesOf [rangeStrip j base len] → ∃ key leaf, s.access b.chip b.ctx .load ((base + y.2.1) % 2 ^ 64) = .ok key leaf
    let queued := fun (s t : State) (f : Event → Prop) => ∃ e, (t.chip b.chip).evq = (s.chip b.chip).evq ++ [e] ∧ e.ctx = b.ctx ∧ f e ∧
      t.awaits .eventQueuePost { chip := b.chip } = true
    (out → ∃ t, exec (.trig gd d a) s = .next t ∧ Leaves s t k m g (Warp.becomes fun w => { w with triggered := w.triggered ||| q }) ∧
      t.awaits .triggerReport { chip := b.chip, gid := b.gid, row := b.row } = true) ∧
    (∀ s1 l, out → reads 2 → w.writable q (d, 1) → addrForm ea = 0 → ea % 128 = 0 → may ea 128 →
      s0.pull b.chip b.ctx { cx.access s0 0 ea 0 0 0 with id := s0.fresh } ea 128 = (s1, some l) →
      (fieldAt l 0 8 % 128 = 0 → addrForm (fieldAt l 0 8) = 0 ∧ may (fieldAt l 0 8) 896 ∧
        (fieldAt l 32 8 ≠ 0 → addrForm (fieldAt l 32 8) = 0 ∧ may (fieldAt l 32 8) 4096)) →
      let solo := decide ((s.chip b.chip).power = .solo) || (decide ((s.chip b.chip).power = .joining) && !(s.chip b.chip).inPod)
      let r := s1.judge b.chip { cx.access s0 0 ea 0 0 0 with id := s0.fresh } (some b.ctx) solo l
      (∀ image run, r.2 = .accepted b.ctx image run → (r.1.chip b.chip).room = true → ∃ t w', exec (.submit gd d a) s = .next t ∧ PastWord s t k m g ∧
          t.warp? k = some w' ∧ (d.toNat < 96 → ∀ i, i < 32 → inSet q i = true → w'.reg (d, 1) i = 0) ∧
          queued r.1 t fun e => e.type = 0 ∧ e.cont = image ∧ e.payload = leBytes 2 image.length ++ [0]) ∧
      (∀ code crec, r.2 = .refused code b.ctx crec → code < 2 ^ 32 → ∃ t w', exec (.submit gd d a) s = .next t ∧ PastWord s t k m g ∧ t.warp? k = some w' ∧
        (d.toNat < 96 → ∀ i, i < 32 → inSet q i = true → w'.reg (d, 1) i = BitVec.ofNat 64 code))) ∧
    (∀ key : Nat → Nat, out → reads 2 → d.toNat < 120 → Unlogged s b [d] → w.readable (laneBit j) (d, 1) → addrForm ea = 0 → ea % 8 = 0 → (s.chip b.chip).room = true →
      (∀ y, y ∈ piecesOf [rangeStrip j ea 40] → (∃ leaf, s.access b.chip b.ctx .load ((ea + y.2.1) % 2 ^ 64) = .ok (key y.2.1) leaf) ∧
        (s.line (key y.2.1 / 128)).red = none ∧ (s.line (key y.2.1 / 128)).poison = [] ∧ (s.line (key y.2.1 / 128)).violated = [] ∧
        (s.line (key y.2.1 / 128)).soft = none ∧ (s.line (key y.2.1 / 128)).l2soft = none ∧ (s.line (key y.2.1 / 128)).l2bad = []) →
      ∃ t, exec (.evpost gd d a) s = .next t ∧ PastWord s t k m g ∧ t.mem = s.mem ∧ OthersKept s t k ∧
        queued s t fun e => e.type = 10 ∧ e.payload = leBytes 4 ((seenBy false s k m w g b).word d j).toNat ++
          (piecesOf [rangeStrip j ea 40]).flatMap fun y => memBytes s.mem (key y.2.1) y.2.2) ∧
    (reads 2 → w.writable q (d, 2) → let fits := fun (u : PUser) => u.ctx = b.ctx ∧ u.key = (x.extractLsb' 0 32).toNat ∧ (x.extractLsb' 32 32).toNat ≤ u.num
      (∀ u, u ∈ p.users → fits u → (∀ y, y ∈ p.users → fits y → u.num ≤ y.num) → ∃ t, exec (.evwait gd d a) s = .next t ∧
        Leaves s t k m g fun w w' => Warp.takes q (d, 2) (fun _ => BitVec.ofNat 64 u.num) { w with acq := s.fresh } w') ∧
      ((∀ y, y ∈ p.users → ¬ fits y) → ∃ t w' g', exec (.evwait gd d a) s = .next t ∧ t.issuing = none ∧ t.warp? k = some w' ∧ w'.still = w.still ∧
        w'.gang? m = some g' ∧ g'.wait = .stall (.event (x.extractLsb' 0 32).toNat (x.extractLsb' 32 32).toNat) ∧ Outside s t)) ∧
    (reads 1 → w.writable q (d, 2) →
      let sel := ((seenBy false s k m w g b).word a j).toNat
      let y := sel % 2 ^ 28
      let timed := fun (v : Option Nat) => if s.isDet b then none else v
      let state := fun (c : CState) => match c with
        | .live => 0
        | .fenced => 1
        | .lost => 2
        | .absent => 3
      let c := (tabLook p.chips y).getD { st := .absent, inc := 0 }
      let v : Option Nat :=
        if sel = 0 then timed (some (p.index % 2 ^ 32)) else if sel = 1 then timed (some (p.index / 2 ^ 32 % 2 ^ 32))
        else if sel = 2 then timed (some (p.chips.filter fun c => decide (c.2.st = .live)).length) else if sel = 3 then some (b.gid % 2 ^ 32)
        else if sel = 4 then some b.row else if sel / 2 ^ 28 = 0 then none
        else if sel / 2 ^ 28 = 1 then timed (if y < 512 then some (c.inc % 2 ^ 8 + state c.st * 2 ^ 8 + c.out % 2 ^ 22 * 2 ^ 10) else none)
        else if sel / 2 ^ 28 = 2 then timed ((p.rows.find? fun r => decide (r.gid = b.gid) && decide (r.row = y)).map fun r => r.chip % 2 ^ 9 + (match r.st with
          | .pending => 0
          | .placed => 1
          | .finished => 2) * 2 ^ 29)
        else if sel / 2 ^ 28 = 3 then (if 10 ≤ y % 16 then none
          else (p.users.find? fun u => decide (u.ctx = b.ctx) && decide (u.num % 2 ^ 24 = y / 16)).map fun u => fieldAt u.data (4 * (y % 16)) 4)
        else none
      ∃ t, exec (.plrd gd d a) s = .next t ∧ Leaves s t k m g (Warp.takes q (d, 2) fun _ => match v with
        | some n => BitVec.ofNat 64 n
        | none => 2 ^ 32))

/-- R398 to R400, R402: a fault record joins the queue of its block, which fails for it; an integrity violation and a record of kind 6 fault the grid;
a record beyond sixteen is lost and noted.

R399, R401: `fltrd` answers all ones where the block's queue of fault records is empty; else it takes the oldest out of the queue, sends its 64 bytes to
the home of its operand's address as a store, and answers how many are left.

R280, R365: the completion record of a grid whose blocks have all committed, with no reduction line open and every completion time passed by 25 ns,
says that it is done; until then it is not written. A refused grid's says why, at once; a faulted grid's says its cause, once its reduction lines
are merged. -/
def Obligations.FaultsAndCompletion : Prop :=
  (∀ (s : State) (b : Block), s.block? s.cue.node = some b → b.open_ = true → s.cue.tag = 0 →
    let ended := ((s.warp? (b.node * 32 + s.cue.record.warp)).map fun w => decide (w.live = 0)).getD false;
    ∃ t b', exec .faultRecord s = .next t ∧ t.mem = s.mem ∧ t.warps = s.warps ∧ t.block? s.cue.node = some b' ∧
      (b.faults.length < 16 → b'.faults = b.faults ++ [{ s.cue.record with exited := ended, ovf := b.faultOvf }] ∧ b'.faultOvf = false) ∧
      (16 ≤ b.faults.length → b'.faults = b.faults ∧ b'.faultOvf = true) ∧
      (s.cue.record.kind ≠ 5 → s.cue.record.kind ≠ 6 → t.awaits .blockRollback { node := s.cue.node, num := 0x0100 + s.cue.record.kind } = true) ∧
      (s.cue.record.kind = 5 ∨ s.cue.record.kind = 6 → ∃ e, (e ∈ (t.chip b.chip).evq ∨ e ∈ (t.chip b.chip).heldReports) ∧ e.type = 3 ∧ e.ctx = b.ctx ∧
        e.payload = leBytes 4 b.gid ++ leBytes 4 0 ++ leBytes 4 (0x0100 + s.cue.record.kind))) ∧
  (∀ (s : State) (k : Nat) (m : Lanes) (w : Warp) (g : Gang) (b : Block) (gd : BitVec 4) (d a : Code) (j key : Nat) (leaf : DWord), Issuing s k m w g b →
    lowestLane m = some j → inSet (guarded w m gd) j = true → a.toNat < 120 → Unlogged s b [a] → w.readable (laneBit j) (a, 2) →
    let q := guarded w m gd;
    w.writable q (d, 1) → Reaches s b .store 64 ((seenBy false s k m w g b).pair a j).toNat key leaf →
    (b.faults = [] → ∃ t, exec (.fltrd gd d a) s = .next t ∧ Leaves s t k m g (Warp.takes q (d, 1) fun _ => 0xFFFFFFFF)) ∧
    (∀ r rest, b.faults = r :: rest → b.node = w.node → w.flights = [] → w.fenced = false → (s.chip (chipOfCore w.core)).fenced = false →
      (b.norev = true ∨ b.staged.length + 1 ≤ b.budget) → ∃ t w' b', exec (.fltrd gd d a) s = .next t ∧ Accessed s t k m g ∧ t.warp? k = some w' ∧
        t.block? w.node = some b' ∧ b'.faults = rest ∧ KeepsBut w w' q (d, 1) ∧
        (d.toNat < 96 → ∀ i, i < 32 → inSet q i = true → w'.reg (d, 1) i = BitVec.ofNat 64 rest.length % 2 ^ 32) ∧
        Sent t k b .write (key / 128) fun c => ∃ l, c.op = .store [(key % 128, l)] ∧ l.length = 64 ∧ l.take 8 = leBytes 8 r.pc ∧ (l.drop 8).take 8 = leBytes 8 r.addr ∧
          (l.drop 16).take 4 = leBytes 4 r.block ∧ (l.drop 20).take 3 = [BitVec.ofNat 8 r.warp, BitVec.ofNat 8 r.wgen, BitVec.ofNat 8 r.kind] ∧
          (l.drop 23).take 1 = [BitVec.ofNat 8 (r.exited.toNat + 2 * r.ovf.toNat)] ∧ (l.drop 24).take 4 = leBytes 4 r.ngen ∧ (l.drop 32).take 8 = dwBytes 8 r.syn)) ∧
  (∀ (s : State) (pg : PGrid), tabLook (s.chip s.cue.chip).plate.grids s.cue.gid = some pg →
    let crec := fieldAt pg.image 56 8;
    (pg.st = .refused → ∀ key leaf, s.resolve s.cue.chip pg.ctx crec = some (key, leaf) → leafW leaf = true → Memory.wf s.mem → key % 128 + 32 ≤ 128 →
      (s.line (key / 128)).calm → ∃ t, exec .completionRecordWrite s = .next t ∧
        memBytes t.mem key 4 = leBytes 4 (2 ^ 31 + pg.cause % 256 * 256 + 1) ∧ memBytes t.mem (key + 8) 4 = leBytes 4 s.cue.gid) ∧
    (pg.st = .waiting ∨ pg.st = .eligible ∨ pg.st = .running → ∃ t, exec .completionRecordWrite s = .next t ∧ t = s) ∧
    (pg.st = .complete → (∃ b, b ∈ tabVals s.blocks ∧ b.gid = s.cue.gid ∧ b.st ≠ .dead ∧ b.st ≠ .committed) →
      ∃ t, exec .completionRecordWrite s = .next t ∧ t.mem = s.mem ∧ t.blocks = s.blocks ∧
        t.awaits .completionRecordWrite { gid := s.cue.gid, chip := s.cue.chip } = true) ∧
    (pg.st = .complete → (∀ b, b ∈ tabVals s.blocks → b.gid = s.cue.gid → b.st ≠ .dead → b.st = .committed ∧ b.lastCt + 25 < s.podTime s.cue.chip) →
      25 < s.podTime s.cue.chip → s.partials = [] → ∀ key leaf, s.resolve s.cue.chip pg.ctx crec = some (key, leaf) → leafW leaf = true →
      Memory.wf s.mem → key % 128 + 32 ≤ 128 → (s.line (key / 128)).calm →
      ∃ t, exec .completionRecordWrite s = .next t ∧ memBytes t.mem key 4 = leBytes 4 (2 ^ 31) ∧ memBytes t.mem (key + 8) 4 = leBytes 4 s.cue.gid) ∧
    (pg.st = .faulted → s.partials = [] → ∀ key leaf, s.resolve s.cue.chip pg.ctx crec = some (key, leaf) → leafW leaf = true →
      Memory.wf s.mem → key % 128 + 32 ≤ 128 → (s.line (key / 128)).calm →
      ∃ t, exec .completionRecordWrite s = .next t ∧ memBytes t.mem key 4 = leBytes 4 (2 ^ 31 + 2) ∧ memBytes t.mem (key + 8) 4 = leBytes 4 s.cue.gid ∧
        memBytes t.mem (key + 12) 4 = leBytes 4 pg.cause))

/-! ## The Plate and the distributor -/

/-- R341, R342, R357, R358, R360: an event or a heartbeat that the hub drops is counted; an event of a source is held once, with its SEQ, unless it comes after what the chip's HORIZON has passed; records that a chip asks for
are sent to it; a heartbeat tells a source's last SEQ, HORIZON and suspects every 2,000 ns.

R354, R356, R357: a queued event is posted under a permit once pod time exceeds the last STAMP: it takes pod time as its STAMP, its chip as SRC and the
next SEQ, and goes to the other chips of the pod; a permit comes back every 10,000 ns, up to 64. -/
def Obligations.EventsTravel : Prop :=
  ((∀ s : State, let x := s.cue.chip
    let e := s.cue.event
    let h := (s.hear x e.src e.sinc e.stamp).chip x
    let admitted := s.cue.peer = x ∨ s.cue.tag = 0 ∨ s.dropsEvent s.cue.peer x s.cue.acc = false
    (¬ admitted → ∃ t, exec .eventReceive s = .next t ∧ t = s.modChip x fun c => { c with incdrop := (c.incdrop + 1) % 2 ^ 32 }) ∧
    (admitted → s.listens x e.src e.sinc = false → ∃ t, exec .eventReceive s = .next t ∧ t = s) ∧
    (admitted → s.listens x e.src e.sinc = true → ((s.chip x).info e.src).suspect = none → (h.info e.src).upto < e.seq →
      (∀ y, y ∈ h.events → ¬ (y.src = e.src ∧ y.sinc = e.sinc ∧ y.seq = e.seq)) → (h.inPod = false ∨ h.horizon x < e.stamp) →
      ∃ t, exec .eventReceive s = .next t ∧ t.mem = s.mem ∧ t.warps = s.warps ∧ (t.chip x).events = h.events ++ [e] ∧ (t.chip x).plate = (s.chip x).plate ∧
        ((h.info e.src).inc = e.sinc → (h.info e.src).upto + 1 = e.seq → e.seq ≤ ((t.chip x).info e.src).upto)) ∧
    (admitted → s.listens x e.src e.sinc = true → e.seq ≤ (h.info e.src).upto → ∃ t, exec .eventReceive s = .next t ∧ (t.chip x).events = h.events)) ∧
  (∀ s : State, let c := s.cue
    ∃ t, exec .missingRecordFetch s = .next t ∧ (∀ x, (t.chip x).events = (s.chip x).events ∧ (t.chip x).plate = (s.chip x).plate) ∧ t.mem = s.mem ∧ ∀ e, e ∈ (s.chip c.chip).events → e.src = c.unit → c.num ≤ e.seq → e.seq ≤ c.ct →
      UnderWay t .eventReceive fun q => q.chip = c.peer ∧ q.peer = c.chip ∧ q.event = e) ∧
  (∀ s : State, let x := s.cue.chip
    let c := s.chip x
    let now := s.podTime x
    (c.fenced = true ∨ c.inPod = false → ∃ t, exec .heartbeatSend s = .next t ∧ t = s) ∧
    (c.fenced = false → c.power = .full ∨ c.power = .joining → c.inPod = true →
      (now < (c.info x).beatStamp + 2000 → ∃ t, exec .heartbeatSend s = .next t ∧ t.chips = s.chips ∧ t.awaits .heartbeatSend { chip := x } = true) ∧
      ((c.info x).beatStamp + 2000 ≤ now → ∃ t, exec .heartbeatSend s = .next t ∧ t.mem = s.mem ∧ t.awaits .heartbeatSend { chip := x } = true ∧
        ∀ y, y ∈ s.cfg.chips → y ≠ x → UnderWay t .heartbeat fun q => q.chip = y ∧ q.beat.stamp = now ∧ q.beat.src = x ∧ q.beat.sinc = c.inc ∧ q.beat.seq = c.seq ∧
          q.beat.horizon = c.horizon x))) ∧
  (∀ s : State, let x := s.cue.chip
    let b := s.cue.beat
    let i := (s.chip x).info b.src
    let taken := b.src = x ∨ s.cue.tag = 0 ∨ s.dropsEvent b.src x s.cue.acc = false
    (¬ taken → ∃ t, exec .heartbeat s = .next t ∧ t = s.modChip x fun c => { c with incdrop := (c.incdrop + 1) % 2 ^ 32 }) ∧
    (taken → s.listens x b.src b.sinc = false → ∃ t, exec .heartbeat s = .next t ∧ t = s) ∧
    (taken → s.listens x b.src b.sinc = true → i.inc = b.sinc → i.beatStamp < b.stamp → ∃ t, exec .heartbeat s = .next t ∧ t.mem = s.mem ∧ t.warps = s.warps ∧
      ((t.chip x).info b.src).beatStamp = b.stamp ∧ ((t.chip x).info b.src).beatSeq = b.seq ∧ ((t.chip x).info b.src).horizon = max i.horizon b.horizon ∧
      s.podTime x ≤ ((t.chip x).info b.src).heard))) ∧
  (∀ s : State, let x := s.cue.chip;
    let c := s.chip x;
    let now := s.podTime x;
    (c.evq = [] → ∃ t, exec .eventQueuePost s = .next t ∧ t = s) ∧
    (∀ e r, c.evq = e :: r → c.fenced = false → c.power ≠ .off → c.permits ≠ 0 →
      (now ≤ c.lastStamp → ∃ t, exec .eventQueuePost s = .next t ∧ t.chips = s.chips ∧ t.awaits .eventQueuePost { chip := x } = true) ∧
      (c.lastStamp < now → let sent := { e with stamp := now, src := x, sinc := c.inc, seq := c.seq + 1 }
        ∃ t, exec .eventQueuePost s = .next t ∧ t.mem = s.mem ∧ t.warps = s.warps ∧ (t.chip x).lastStamp = now ∧ (t.chip x).seq = c.seq + 1 ∧
          (t.chip x).permits = c.permits - 1 ∧ (t.chip x).evq = r ++ c.heldReports.take (256 - r.length) ∧
          (c.inPod = true → ∀ y, y ∈ s.cfg.chips → y ≠ x → UnderWay t .eventReceive fun q => q.chip = y ∧ q.peer = x ∧ q.event = sent) ∧
          (c.inPod = false → UnderWay t (deliveryOf sent) fun q => q.chip = x ∧ q.event = sent))) ∧
    (64 ≤ c.permits → ∃ t, exec .permitRefill s = .next t ∧ t = s) ∧
    (c.permits < 64 → c.refill ≤ now → ∃ t, exec .permitRefill s = .next t ∧ t.mem = s.mem ∧ (t.chip x).permits = c.permits + 1 ∧
      (t.chip x).refill = c.refill + 10000) ∧
    (c.permits < 64 → now < c.refill → ∃ t, exec .permitRefill s = .next t ∧ t.chips = s.chips ∧ t.awaits .permitRefill { chip := x } = true))

/-- R360, R361, R368, R373: a live chip that has not been heard for 20,000 ns becomes suspect and its loss is posted, once; a chip without its quorum that has
held an event for 200,000 ns is fenced; when pod time reaches an interval the lowest live chip posts its budget.

R69, R229, R266, R267, R403: a compute error whose second pair of passes agreed is logged, and else fails the block, and no gang of the warp goes on; a spared row and a retired way are
counted, sixteen of a bank and four of a slice at most, and change no content; a retired
way holds no line any more. -/
def Obligations.SilenceAndErrors : Prop :=
  (∀ s : State, let x := s.cue.chip;
    let c := s.chip x;
    let now := s.podTime x;
    let posted := fun (t : State) (f : Event → Prop) => ∃ e, (e ∈ (t.chip x).evq ∨ e ∈ (t.chip x).heldReports) ∧ f e;
    (∀ i, i = c.info s.cue.peer → c.fenced = false → x ≠ s.cue.peer → s.cue.peer ∈ c.plate.live → i.posted = false →
      (now ≤ i.heard + 20000 → ∃ t, exec .chipSilence s = .next t ∧ t = s) ∧
      (i.heard + 20000 < now → ∃ t, exec .chipSilence s = .next t ∧ t.mem = s.mem ∧ ((t.chip x).info s.cue.peer).suspect ≠ none ∧
        ((t.chip x).info s.cue.peer).posted = true ∧ posted t fun e => e.type = 4 ∧ e.payload.take 2 = leBytes 2 s.cue.peer)) ∧
    ((c.info s.cue.peer).posted = true → ∃ t, exec .chipSilence s = .next t ∧ t = s) ∧
    (c.fenced = false → c.power ≠ .off →
      (now < s.cue.num * s.cfg.len → ∃ t, exec .energyInterval s = .next t ∧ t.chips = s.chips ∧ t.awaits .energyInterval s.cue = true) ∧
      (s.cue.num * s.cfg.len ≤ now → ∃ t, exec .energyInterval s = .next t ∧ t.mem = s.mem ∧ t.awaits .energyInterval { chip := x, num := s.cue.num + 1 } = true ∧
        (c.plate.live.head? = some x → c.plate.interval < s.cue.num → posted t fun e => e.type = 9 ∧ e.payload = leBytes 4 0 ++ leBytes 8 s.cue.num ++
          leBytes 8 ((c.plate.live.map fun y => ((tabLook s.cfg.plan y).getD 0 - (tabLook s.cfg.idle y).getD 160) * s.cfg.len).foldl (· + ·) 0)) ∧
        (c.plate.live.head? ≠ some x → t.chips = s.chips))) ∧
    (∀ n, c.heldSince = some n → c.fenced = false →
      (c.quorum x now = true → ∃ t, exec .quorumTimeout s = .next t ∧ t = s) ∧
      (c.quorum x now = false → now < n + 200000 → ∃ t, exec .quorumTimeout s = .next t ∧ t.chips = s.chips ∧ t.awaits .quorumTimeout { chip := x } = true) ∧
      (c.quorum x now = false → n + 200000 ≤ now → ∃ t, exec .quorumTimeout s = .next t ∧ t.mem = s.mem ∧ (t.chip x).fenced = true ∧ (t.chip x).power = .fenced))) ∧
  ((∀ (s : State) (w : Warp), s.warp? s.cue.warp = some w →
    (s.cue.ok = true → ∃ t, ∃ x : DWord, ∃ n : Nat, exec .computeRetry s = .next t ∧ t.mem = s.mem ∧ t.warp? s.cue.warp = some { w with enwarp := n } ∧
      (t.chip (chipOfCore w.core)).errlog = (s.chip (chipOfCore w.core)).errlog ++ [(x, s.podTime (chipOfCore w.core))] ∧ x.extractLsb' 60 4 = 1) ∧
    (s.cue.ok = false → ∃ t, exec .computeRetry s = .next t ∧ t.mem = s.mem ∧ t.awaits .blockRollback { node := w.node, num := 0x0400 } = true ∧
      ∀ w' x, t.warp? s.cue.warp = some w' → x ∈ w'.gangs → x.wait = .stall .told)) ∧
  (∀ s : State, let n := fun (d : Die) => (tabLook d.rowsSpared s.cue.unit).getD 0
    ∃ t, exec .dramRowSpare s = .next t ∧ t.mem = s.mem ∧ t.lines = s.lines ∧ n (t.die s.cue.die) = if n (s.die s.cue.die) < 16 then n (s.die s.cue.die) + 1 else
      n (s.die s.cue.die)) ∧
  (∀ s : State, let n := fun (d : Die) => (tabLook d.waysRetired s.cue.unit).getD 0
    let out := (s.die s.cue.die).waysOut.contains (s.cue.unit, s.cue.num)
    ∃ t, exec .l2WayRetire s = .next t ∧ t.mem = s.mem ∧
      (n (s.die s.cue.die) < 4 → out = false → n (t.die s.cue.die) = n (s.die s.cue.die) + 1 ∧ (t.die s.cue.die).l2Retired = (s.die s.cue.die).l2Retired + 1 ∧
        (s.cue.unit, s.cue.num) ∈ (t.die s.cue.die).waysOut ∧
        ∀ x, s.dieOf x = s.cue.die → lineSlice x = s.cue.unit → (t.line x).way ≠ some s.cue.num ∧ ((s.line x).way = some s.cue.num → (t.line x).dirty = false)) ∧
      (4 ≤ n (s.die s.cue.die) ∨ out = true → t = s)))

/-- R359, R366, R370, R371, R419: a chip delivers the event that its horizon and quorum let it deliver next, and no other; in solo service it delivers
its own events, the earliest first. The spans that are due are judged; where the source is live in its present incarnation, or the event is its REJOIN,
the Plate takes the event's effect; then rows are placed, and the event is counted. Each of the thirteen deliveries completes so. Where the other
chips' homes have done their part before, which is the model's order (log 24), memory and warps stay.

R362, R366 to R369, R374: what the events do to the Plate: a FINISH ends the rows it names, and with the last its grid is complete; TRIGGER marks
rows; REJOIN makes a lost chip live, CAPACITY sets a core's, ENERGY begins an interval, USER keeps the event under the next number of its context; a
FAULT does nothing to a grid that has ended. A pending row goes to the chip that may take it with the fewest rows outstanding, ties to the lowest number. -/
def Obligations.PlateDelivers : Prop :=
  (∀ s : State, let x := s.cue.chip;
    let e := s.cue.event;
    let c := s.chip x;
    let p := c.plate;
    let touch := fun (k : Nat) => s.touchedAt p.chips p.index k;
    let proof := fun (gid : Nat) => s.lastProof x gid e.stamp;
    let j := p.judge e.stamp touch proof;
    let source := ∃ y, tabLook j.chips e.src = some y ∧ (y.st = .live ∧ y.inc = e.sinc ∨ e.type = 5 ∧ (y.st = .fenced ∨ y.st = .lost));
    let turn := (c.inPod = true ∧ s.deliverable x = some e ∧ source) ∨
      (c.inPod = false ∧ c.fenced = false ∧ (c.power = .solo ∨ c.power = .joining) ∧
        ∀ d, d ∈ s.agenda → d.cue.chip = x → d.ev = deliveryOf d.cue.event → d.cue.event.src = x → e.stamp ≤ d.cue.event.stamp);
    let takes := fun (f : Plate → Plate) => let q := ((f j).placement e.stamp).close e
      if e.type ≠ 8 ∧ q.count % 256 = 0 then { q with span := [], decs := [] } else q;
    let delivers := fun (i : Instr) (f : Plate → Plate) =>
      (c.inPod = true → s.deliverable x ≠ some e → ∃ t, exec i s = .next t ∧ t = s) ∧
      (turn → ∃ t, exec i s = .next t ∧ (t.chip x).plate = takes f ∧ (c.inPod = true → (t.chip x).lastKey = (e.stamp, e.src))) ∧
      (turn → p.spans = [] → c.inPod = true → p.index < s.homesAt → c.saves = [] → ∃ t, exec i s = .next t ∧ t.mem = s.mem ∧ t.warps = s.warps);
    delivers .submitDelivery (fun p => p.submit e) ∧ delivers .finishDelivery (fun p => p.finish e) ∧ delivers .blockedDelivery (fun p => p.blocked e) ∧
    delivers .faultGridDelivery (fun p => p.faultGrid e) ∧ delivers .faultRollbackDelivery (fun p => p.faultProof e (proof (p.gid e))) ∧
    delivers .chiplossDelivery (fun p => p.chipLoss e touch proof) ∧ delivers .rejoinDelivery (fun p => p.rejoin e) ∧
    delivers .capacityDelivery (fun p => p.capacity e) ∧ delivers .triggerDelivery (fun p => p.trigger e) ∧ delivers .digestDelivery (fun p => p.digest e) ∧
    delivers .energyDelivery (fun p => p.energy e) ∧ delivers .userDelivery (fun p => p.user e) ∧ delivers .reservedEventDelivery (fun p => p)) ∧
  (∀ (p : Plate) (e : Event), let f := evField e;
    let gid := p.base + f 20 4;
    let hit := fun (r : PRow) => r.gid = gid ∧ f 24 4 ≤ r.row ∧ r.row < f 24 4 + f 28 4 ∧ r.st = .placed ∧ r.chip = e.src;
    (∀ g, p.grid? gid = some g → g.st = .running → p.rows ≠ [] → (∀ r, r ∈ p.rows → hit r) → ((p.finish e).grid? gid).map PGrid.st = some .complete ∨
      (p.finish e).grid? gid = none) ∧
    (∀ r, r ∈ (p.trigger e).rows → r.triggered = true → (∃ y, y ∈ p.rows ∧ y.gid = r.gid ∧ y.row = r.row ∧ (y.triggered = true ∨ hit y))) ∧
    (∀ y, tabLook p.chips e.src = some y → y.st = .lost ∨ y.st = .fenced → tabLook (p.rejoin e).chips e.src = some { y with st := .live, inc := f 20 1, out := 0 }) ∧
    (∀ y, tabLook p.chips e.src = some y → y.st = .live → p.rejoin e = p) ∧
    (∀ y, tabLook p.chips e.src = some y → tabLook (p.capacity e).chips e.src = some { y with caps := tabPut y.caps (f 20 2) (f 22 1) }) ∧
    (p.energy e = if p.interval < f 24 8 then { p with interval := f 24 8, budget := f 32 8, committed := 0 } else p) ∧
    (∃ u, u ∈ (p.user e).users ∧ u.ctx = e.ctx ∧ u.num = (tabLook p.userNum e.ctx).getD 0 + 1 ∧ u.key = f 20 4 ∧ u.data.length = 40 ∧
      tabLook (p.user e).userNum e.ctx = some u.num) ∧
    (∀ c y, tabLook p.chips c = some y → f 20 2 = c → y.st ≠ .live ∨ y.inc ≠ f 22 1 → ∀ touch proof, p.chipLoss e touch proof = p) ∧
    (∀ g, p.grid? gid = some g → g.st = .faulted ∨ g.st = .refused → p.faultGrid e = p) ∧
    (∀ g, p.grid? gid = some g → g.st = .waiting ∨ g.st = .eligible ∨ g.st = .faulted ∨ g.st = .refused → p.faultProof e none = p) ∧
    (∀ g r c, p.row? r.gid r.row = some r → p.grid? r.gid = some g → r.st = .pending → p.gangOf r = none → g.energy = 0 →
      bestChip (p.chipsFor g r) = some c → (∀ y, y ∈ p.chipsFor g r → ¬ (y.2.out < c.2.out ∨ (y.2.out = c.2.out ∧ y.1 < c.1))) ∧
        ((Plate.placeRow e.stamp (p, false) (r.gid, r.row)).1.row? r.gid r.row).map (fun y => (y.st, y.chip)) = some (.placed, c.1)))

/-- R60, R172, R308, R337, R375, R462: the first fresh block of a chip starts on the core that has room for it, behind its task gate, each warp with one gang of
all lanes at its entry and its arguments; while the chip's clock is out, or no core has room, it waits, and a core
that only fragmentation keeps from it is defragmented; one that no core can ever hold is reported.

R198: with every tile of its list in place the gated block starts; the gate fills the next tile, whose tag is installed pending; a tile whose
pages do not translate fails the block with a fault record; a block that is not gated is left alone.

R405 to R410: a warp at a switch point, with its copies and gathers retired and room in the save area, leaves its core with all it holds; before that it
stays, and without room it does not leave. A block with warps away gets them back where they fit, resumed once more and with the same registers and gangs.

R356, R369, R375: a row whose blocks on the chip have all finished, or triggered, joins a batch of reports, once for each of its generations; a batch
that is due is posted as an event of its type. -/
def Obligations.BlocksRun : Prop :=
  (∀ s : State, let chip := s.cue.chip;
    (s.firstQueued chip = none → ∃ t, exec .blockStart s = .next t ∧ t = s) ∧
    (∀ b g, s.firstQueued chip = some b → s.block? b.node = some b → s.grid? b.gid = some g → (s.chip chip).fenced = false →
      let waits := fun (t : State) => t.awaits .blockStart { chip := chip, gid := b.gid, row := b.row, num := b.bid } = true
      ((s.chip chip).tskew = true → ∃ t, exec .blockStart s = .next t ∧ t.blocks = s.blocks ∧ t.warps = s.warps ∧ waits t) ∧
      ((s.chip chip).tskew = false → s.coverable chip (s.demand b) = false → ∃ t, exec .blockStart s = .next t ∧ t.warps = s.warps ∧
        (t.block? b.node).map (·.leaving) = some true ∧ ∃ e, (e ∈ (t.chip chip).evq ∨ e ∈ (t.chip chip).heldReports) ∧ e.type = 2 ∧ e.ctx = b.ctx ∧
          e.payload = leBytes 4 b.gid ++ leBytes 4 b.bid ++ leBytes 4 b.row ++ [1]) ∧
      ((s.chip chip).tskew = false → s.coverable chip (s.demand b) = true → s.placeAll (s.together b) = none → ∃ t, exec .blockStart s = .next t ∧
        t.blocks = s.blocks ∧ t.warps = s.warps ∧ waits t ∧
        ∀ core, s.evicting b.chip = false → ((List.range 2048).map (b.chip * 2048 + ·)).find? (fun core => s.fragmented core (s.demand b)) = some core →
          t.awaits .burnisherMove { core := core } = true) ∧
      (∀ core c, (s.chip chip).tskew = false → s.coverable chip (s.demand b) = true → s.together b = [b] → s.bestCore b.chip (s.demand b) = some (core, c) →
        ∃ t b', exec .blockStart s = .next t ∧ t.mem = s.mem ∧ t.block? b.node = some b' ∧ b'.st = .gated ∧ b'.core = core ∧ b'.ntiles = g.tiles ∧
          b'.scratchSize = g.scratch ∧ b'.rings = g.stage.map (fun n => { s := n }) ∧ t.awaits .taskGateStart { node := b.node } = true ∧
          ∀ i r, i < 32 → g.warps[i]? = some r → ∃ w, t.warp? (b.node * 32 + i) = some w ∧ w.node = b.node ∧ w.idx = i ∧ w.core = core ∧ w.role = r.1 ∧
            w.gangs = [{ mask := BitVec.allOnes 32, pc := g.code + r.2 }] ∧ w.rows.length = g.regs ∧ w.sreg 0 ++ w.sreg 1 = BitVec.ofNat 32 g.args ++ BitVec.ofNat 32 (g.args / 2 ^ 32) ∧
            w.sreg 2 = BitVec.ofNat 32 g.arglen ∧ w.sreg 3 = BitVec.ofNat 32 g.nblk ∧ w.sreg 4 = BitVec.ofNat 32 g.gid))) ∧
  (∀ (s : State) (b : Block), s.block? s.cue.node = some b →
    let l := ((s.grid? b.gid).map GridRun.inputs).getD [];
    (b.st ≠ .gated → ∃ t, exec .taskGateStart s = .next t ∧ t = s) ∧
    (b.st = .gated → l.length ≤ b.gate.length → (∀ x, x ∈ b.gate → x.done = true) → ∃ t b', exec .taskGateStart s = .next t ∧ t.mem = s.mem ∧
      t.block? s.cue.node = some b' ∧ b'.st = .running) ∧
    (b.st = .gated → ∀ x i e, s.gateNext b l = .fill x i e → ∃ t b', exec .taskGateStart s = .next t ∧ t.mem = s.mem ∧ t.block? s.cue.node = some b' ∧
      b'.st = .gated ∧ b'.gate = b.gate ++ [{ idx := i, entry := some e, left := (x.pieces b.bid).length }] ∧
      (tabLook (t.core b.core).tags e).map (fun y => (y.tag, y.pending, y.node)) = some (x.tagb + BitVec.ofNat 64 b.bid, true, s.cue.node) ∧
      t.awaits .taskGateStart { node := s.cue.node } = true) ∧
    (b.st = .gated → ∀ i p, s.gateNext b l = .fault i p → ∃ t, exec .taskGateStart s = .next t ∧ t.mem = s.mem ∧ t.blocks = s.blocks ∧
      UnderWay t .faultRecord fun c => c.node = s.cue.node ∧ c.record.kind = 6 ∧ c.record.addr = p)) ∧
  ((∀ (s : State) (w : Warp) (b : Block), s.warp? s.cue.warp = some w → s.block? w.node = some b →
    let ready := w.resident = true ∧ w.live ≠ 0 ∧ b.st = .running
    let quiet := w.atSwitch = true ∧ ∀ o, o ∈ w.ops → o.cls ≠ .copy ∧ o.cls ≠ .gath
    (w.resident = false ∨ w.live = 0 → ∃ t, exec .eviction s = .next t ∧ t = s) ∧
    (ready → ¬ quiet → ∃ t, exec .eviction s = .next t ∧ t.warps = s.warps ∧ t.blocks = s.blocks ∧ UnderWay t .eviction fun c => c = s.cue) ∧
    (ready → quiet → s.saveRoom b.chip b.ctx [w.rows.length] = false → ∃ t, exec .eviction s = .next t ∧ t.warps = s.warps ∧ t.mem = s.mem ∧
      (s.cue.num = 1 → t.awaits .blockRollback { node := w.node } = true)) ∧
    (ready → quiet → s.saveRoom b.chip b.ctx [w.rows.length] = true → ∃ t w', exec .eviction s = .next t ∧ t.mem = s.mem ∧ t.warp? s.cue.warp = some w' ∧
      w'.resident = false ∧ w'.gangs = w.gangs ∧ w'.sregs = w.sregs ∧ w'.live = w.live ∧ (∀ r, (w'.row r).data = (w.row r).data ∧ (w'.row r).valid = (w.row r).valid) ∧
      t.awaits .blockResume { node := w.node, core := w.core } = true)) ∧
  (∀ (s : State) (b : Block), s.block? s.cue.node = some b → b.node = s.cue.node →
    (b.st ≠ .running → b.st ≠ .saved → ∃ t, exec .blockResume s = .next t ∧ t = s) ∧
    (b.st = .running → s.images b.node = [] → ∃ t, exec .blockResume s = .next t ∧ t = s) ∧
    (b.st = .running → b.leaving = true ∨ s.heldOff b = true → s.images b.node ≠ [] → ∃ t, exec .blockResume s = .next t ∧ t.warps = s.warps ∧
      t.awaits .blockResume s.cue = true) ∧
    (∀ c k w, b.st = .running → b.leaving = false → s.heldOff b = false → s.fitsOn b.core (s.demand b) = some c → (k, w) ∈ s.images b.node → tabSorted s.warps = true →
      ∃ t w', exec .blockResume s = .next t ∧ t.mem = s.mem ∧ t.warp? k = some w' ∧ w'.resident = true ∧ w'.core = b.core ∧ w'.resumes = (w.resumes + 1) % 256 ∧
        w'.sregs = w.sregs ∧ w'.gangs = w.gangs.map (fun g => { g with waits := 0 }) ∧ ∀ r, (w'.row r).data = (w.row r).data) ∧
    (b.st = .saved → b.leaving = false → (s.chip b.chip).fenced = false → s.coverable b.chip (s.demand b) = false → ∃ t, exec .blockResume s = .next t ∧
      t.warps = s.warps ∧ ∃ e, (e ∈ (t.chip b.chip).evq ∨ e ∈ (t.chip b.chip).heldReports) ∧ e.type = 2 ∧
        e.payload = leBytes 4 b.gid ++ leBytes 4 b.bid ++ leBytes 4 b.row ++ [0]) ∧
    (∀ core c, b.st = .saved → b.leaving = false → (s.chip b.chip).fenced = false → s.coverable b.chip (s.demand b) = true → s.heldOff b = false → s.matesLeaving b = false → s.together b = [b] →
      s.bestCore b.chip (s.demand b) = some (core, c) → ∃ t b', exec .blockResume s = .next t ∧ t.block? b.node = some b' ∧ b'.st = .running ∧ b'.core = core))) ∧
  ((∀ (s : State) (r : PRow), let c := s.cue
    let chip := s.chip c.chip
    chip.plate.row? c.gid c.row = some r →
    let reports := fun (i : Instr) (type : Nat) (ok : Block → Bool) =>
      (r.st ≠ .placed ∨ r.chip ≠ c.chip ∨ chip.reported.contains (type, c.gid, c.row, r.gen) = true → ∃ t, exec i s = .next t ∧ t = s) ∧
      ((∃ bid, bid ∈ chip.plate.blocksOf r ∧ ∀ b, s.nodeOf c.gid bid = some b → ok b = false) → ∃ t, exec i s = .next t ∧ t = s) ∧
      (r.st = .placed → r.chip = c.chip → chip.reported.contains (type, c.gid, c.row, r.gen) = false →
        (∀ bid, bid ∈ chip.plate.blocksOf r → ∃ b, s.nodeOf c.gid bid = some b ∧ b.chip = c.chip ∧ ok b = true) → ∃ t, exec i s = .next t ∧ t.mem = s.mem ∧
          t.warps = s.warps ∧ t.blocks = s.blocks ∧ (t.chip c.chip).reported = chip.reported ++ [(type, c.gid, c.row, r.gen)] ∧
          (∃ b, b ∈ (t.chip c.chip).batches ∧ b.type = type ∧ b.gid = c.gid ∧ b.first ≤ c.row ∧ c.row < b.first + b.count) ∧
          t.awaits .reportBatchDeadline { chip := c.chip } = true)
    reports .finishReport 1 (fun b => b.finished) ∧ reports .triggerReport 7 s.triggered) ∧
  (∀ s : State, let c := s.chip s.cue.chip
    ∃ t, exec .reportBatchDeadline s = .next t ∧ t.mem = s.mem ∧ t.warps = s.warps ∧ (t.chip s.cue.chip).batches = [] ∧ ∀ b, b ∈ c.batches →
      ∃ e, (e ∈ (t.chip s.cue.chip).evq ∨ e ∈ (t.chip s.cue.chip).heldReports) ∧ e.type = b.type ∧ e.ctx = b.ctx ∧
        e.payload = leBytes 4 b.gid ++ leBytes 4 b.first ++ leBytes 4 b.count))

/-! ## The fabric, power and the host -/

/-- R332, R334 to R336: a flit that fails its check is logged and moves nothing else on; the next data, lane-map or key-marker flit in sequence is taken and
moves the sequence on, and one of another sequence is not; an acknowledgement empties the retry buffer up to the flit it names, and an idle flit carries
nothing. The layout of a flit's body is the model's choice (log 31).

R331, R334 to R336: a lane that fails leaves the map from an announced sequence on, one that returns joins it, and a link without a lane is down; a key switch
names the sequence after its marker; retraining brings both ends up with what they hold, or down with nothing.

R335, R339: a packet that has not been acknowledged for 50,000 ns is sent again, three times at most, and is then reported to its node; a dropped packet of
bulk waits for a window that its target grants, 2,000 ns ahead at least, and goes again in it. -/
def Obligations.LinksCarry : Prop :=
  (∀ (s : State), let x := s.cue.chip;
    let e := s.cue.link;
    let l := s.linkOf x e;
    (l.st ≠ .up ∨ linkOk e = false ∨ (s.chip x).power = .off → ∀ i, i ∈ [Instr.dataFlit, .idleFlit, .acknowledgeFlit, .negativeAcknowledgeFlit, .laneMapFlit,
      .keyMarkerFlit, .timeFlit] → ∃ t, exec i s = .next t ∧ t = s) ∧
    (l.st = .up → linkOk e = true → (s.chip x).power ≠ .off →
      (∀ l', l.check s.cue.flit = (l', none) → ∀ i, i ∈ [Instr.dataFlit, .idleFlit, .acknowledgeFlit, .negativeAcknowledgeFlit, .laneMapFlit, .keyMarkerFlit, .timeFlit] →
        ∃ t y, exec i s = .next t ∧ t.mem = s.mem ∧ (t.chip x).errlog = (s.chip x).errlog ++ [y] ∧ (t.linkOf x e).expect = l'.expect ∧ (t.linkOf x e).retry = l'.retry ∧
          (t.linkOf x e).body = l'.body) ∧
      (∀ l' f, l.check s.cue.flit = (l', some f) →
        (flitType f = 0 → flitSeq f = l'.expect → ∃ t, exec .dataFlit s = .next t ∧ t.mem = s.mem ∧ (t.linkOf x e).expect = (l'.expect + 1) % 4096 ∧
          (t.linkOf x e).body = (packetsOf 16 (l'.body ++ flitBody f)).2) ∧
        (flitType f = 0 → flitSeq f ≠ l'.expect → ∃ t, exec .dataFlit s = .next t ∧ t.mem = s.mem ∧ (t.linkOf x e).expect = l'.expect ∧ (t.linkOf x e).body = l'.body) ∧
        (flitType f = 1 → ∃ t, exec .idleFlit s = .next t ∧ t = s.setLink x e l') ∧
        (flitType f = 2 → (∃ y, y ∈ l'.retry ∧ flitSeq y = flitSeq f) → l'.queue = [] → ∃ t, exec .acknowledgeFlit s = .next t ∧ t.mem = s.mem ∧
          (t.linkOf x e).retry = (fromSeq (flitSeq f) l'.retry).drop 1 ∧ (t.linkOf x e).fails = 0) ∧
        (flitType f = 3 → fromSeq (flitSeq f) l'.retry ≠ [] → l'.fails < 8 → ∃ t, exec .negativeAcknowledgeFlit s = .next t ∧ t.mem = s.mem ∧
          (t.linkOf x e).fails = l'.fails + 1 ∧ (t.linkOf x e).retry = l'.retry) ∧
        (flitType f = 3 → fromSeq (flitSeq f) l'.retry ≠ [] → 8 ≤ l'.fails → ∃ t, exec .negativeAcknowledgeFlit s = .next t ∧ (t.linkOf x e).st = .training ∧
          t.awaits .linkRetrain { chip := x, link := e } = true) ∧
        (flitType f = 4 → flitSeq f = l'.expect → ∃ t, exec .laneMapFlit s = .next t ∧ t.mem = s.mem ∧ (t.linkOf x e).expect = (l'.expect + 1) % 4096 ∧
          (t.linkOf x e).rxMap = some (leNat ((flitBody f).take 2) % 4096,
            (List.range (laneCount e)).filter fun n => decide (leNat (((flitBody f).drop 2).take 2) / 2 ^ n % 2 = 1))) ∧
        (flitType f = 5 → flitSeq f = l'.expect → ∃ t, exec .keyMarkerFlit s = .next t ∧ t.mem = s.mem ∧ (t.linkOf x e).expect = (l'.expect + 1) % 4096 ∧
          (t.linkOf x e).rx.switch = some (leNat ((flitBody f).take 2) % 4096))))) ∧
  (∀ (s : State), let x := s.cue.chip;
    let e := s.cue.link;
    let l := s.linkOf x e;
    let first := (l.next + 1) % 4096;
    let kept := l.lanesTo e;
    let room := l.retry.length < 4096 ∧ l.queue = [];
    (linkOk e = true → s.cue.unit ∈ kept → kept.filter (fun n => decide (n ≠ s.cue.unit)) ≠ [] → l.lanes ≠ [] → kept.Nodup → room →
      ∃ t r, exec .laneOutOfService s = .next t ∧ t.mem = s.mem ∧ (t.linkOf x e).newMap = some (first, r) ∧
        ∀ n, n ∈ r ↔ n < laneCount e ∧ n ∈ kept ∧ n ≠ s.cue.unit) ∧
    (linkOk e = true → s.cue.unit ∈ kept → kept.filter (fun n => decide (n ≠ s.cue.unit)) = [] → ∃ t, exec .laneOutOfService s = .next t ∧ t.mem = s.mem ∧
      (t.linkOf x e).st = .down ∧ (t.linkOf x e).retry = []) ∧
    (s.cue.unit ∉ kept → ∃ t, exec .laneOutOfService s = .next t ∧ t = s) ∧
    (linkOk e = true → s.cue.unit < laneCount e → s.cue.unit ∉ kept → l.lanes ≠ [] → room → ∃ t r, exec .laneReturn s = .next t ∧ t.mem = s.mem ∧
      (t.linkOf x e).newMap = some (first, r) ∧ ∀ n, n ∈ r ↔ n < laneCount e ∧ (n ∈ kept ∨ n = s.cue.unit)) ∧
    (linkOk e = true → s.cue.unit < laneCount e → s.cue.unit ∉ kept → l.lanes = [] → ∃ t, exec .laneReturn s = .next t ∧ t.mem = s.mem ∧
      (t.linkOf x e).st = .training ∧ s.cue.unit ∈ (t.linkOf x e).lanes ∧ t.awaits .linkRetrain { chip := x, link := e } = true) ∧
    (s.cue.unit ∈ kept → ∃ t, exec .laneReturn s = .next t ∧ t = s) ∧
    (linkOk e = true → l.tx.switch = none → l.tx.old = false → (l.tx.slot (1 - l.tx.cur)).isSome = true → room → ∃ t, exec .keySwitch s = .next t ∧ t.mem = s.mem ∧
      (t.linkOf x e).tx.switch = some first) ∧
    (l.tx.slot (1 - l.tx.cur) = none → ∃ t, exec .keySwitch s = .next t ∧ t = s) ∧
    (linkOk e = true → s.peerOf x e = none → ∃ t, exec .linkRetrain s = .next t ∧ (t.linkOf x e).st = .down) ∧
    (∀ y k, linkOk e = true → s.peerOf x e = some (y, k) → (y, k) ≠ (x, e) →
      (s.cue.ok = false → ∃ t, exec .linkRetrain s = .next t ∧ t.mem = s.mem ∧ (t.linkOf x e).st = .down ∧ (t.linkOf x e).retry = [] ∧ (t.linkOf y k).st = .down ∧
        (t.linkOf y k).retry = []) ∧
      (s.cue.ok = true → l.lanes ≠ [] → (s.linkOf y k).lanes ≠ [] → ∃ t, exec .linkRetrain s = .next t ∧ t.mem = s.mem ∧ (t.linkOf x e).st = .up ∧
        (t.linkOf x e).retry = l.retry ∧ (t.linkOf y k).st = .up ∧ (t.linkOf y k).retry = (s.linkOf y k).retry))) ∧
  (∀ (s : State), let x := s.cue.chip;
    let c := s.chip x;
    let now := s.podTime x;
    let tag := s.cue.tag;
    let heard := s.cue.peer = x ∨ tag = 0 ∨ s.drops s.cue.peer x s.cue.acc = false;
    (c.packet? tag = none → ∀ i, i ∈ [Instr.packetResend, .reservationWindow] → ∃ t, exec i s = .next t ∧ t = s) ∧
    (c.packet? tag = none → heard → ∀ i, i ∈ [Instr.dropNotice, .reservationGrant] → ∃ t, exec i s = .next t ∧ t = s) ∧
    (¬ heard → ∀ i, i ∈ [Instr.dropNotice, .reservationGrant, .reservationRequest] → ∃ t, exec i s = .next t ∧
      t = s.modChip x fun c => { c with incdrop := (c.incdrop + 1) % 2 ^ 32 }) ∧
    (∀ p, c.packet? tag = some p → c.fenced = false → p.node ≠ 0 → s.gone p.node = true → ∃ t, exec .packetResend s = .next t ∧ t = s.forgetTag tag) ∧
    (∀ p, c.packet? tag = some p → c.fenced = false → (p.node = 0 ∨ s.gone p.node = false) →
      (now < p.sent + 50000 ∨ (p.taken = true ∧ p.answers = []) → ∃ t, exec .packetResend s = .next t ∧ t.chips = s.chips ∧ t.awaits .packetResend { chip := x, tag := tag } = true) ∧
      (p.sent + 50000 ≤ now → p.taken = false → p.resends < 3 → ∃ t, exec .packetResend s = .next t ∧ t.mem = s.mem ∧
        (t.chip x).packet? tag = some { p with sent := now, resends := p.resends + 1 } ∧ (s.underWay tag = false → UnderWay t p.ev fun q => q.tag = p.cue.tag ∧
          q.acc.line = p.cue.acc.line ∧ q.acc.inj = now ∧ q.acc.sinc = c.inc)) ∧
      (p.sent + 50000 ≤ now → p.taken = false → 3 ≤ p.resends → tag ≤ s.fresh → ∃ t, exec .packetResend s = .next t ∧ t.mem = s.mem ∧ (t.chip x).packet? tag = none)) ∧
    (∀ p, c.packet? tag = some p →
      (heard → s.bulk p.ev p.cue = false ∨ (∀ d, d ∈ s.agenda → d.cue.tag = tag → d.ev ≠ p.ev) ∨ p.waits = true ∨ p.window.isSome = true →
        ∃ t, exec .dropNotice s = .next t ∧ t = s) ∧
      (heard → s.bulk p.ev p.cue = true → (∃ d, d ∈ s.agenda ∧ d.cue.tag = tag ∧ d.ev = p.ev) → p.waits = false → p.window = none →
        (∀ q, q ∈ s.bulkOf x p → q.waits = false) → ∃ t, exec .dropNotice s = .next t ∧ t.mem = s.mem ∧ ((t.chip x).packet? tag).map (·.waits) = some true ∧
        UnderWay t .reservationRequest fun q => q.chip = p.dst ∧ q.peer = x ∧ q.tag = tag ∧ q.num = min (s.bulkLeft x p) 1048576) ∧
      (heard → ∃ t, exec .reservationGrant s = .next t ∧ t.mem = s.mem ∧ ((t.chip x).packet? tag).map (·.window) = some (some (s.cue.ct, s.cue.num)) ∧
        t.awaits .reservationWindow { chip := x, tag := tag } = true) ∧
      (∀ a b, p.window = some (a, b) → (now < a → ∃ t, exec .reservationWindow s = .next t ∧ t.chips = s.chips ∧ t.awaits .reservationWindow { chip := x, tag := tag } = true) ∧
        (a ≤ now → 1048576 < p.left → ∃ t, exec .reservationWindow s = .next t ∧ ((t.chip x).packet? tag).map (·.left) = some (p.left - 1048576) ∧
          UnderWay t .reservationRequest fun q => q.chip = p.dst ∧ q.tag = tag) ∧
        (a ≤ now → p.left ≤ 1048576 → s.underWay tag = false → p.taken = false → p.cue.tag = tag → ∃ t, exec .reservationWindow s = .next t ∧ ((t.chip x).packet? tag).map (·.window) = some none ∧
          UnderWay t p.ev fun q => q.tag = p.cue.tag ∧ q.acc.inj = now))) ∧
    (heard → let later := c.ingress.filter fun w => decide (now < w.1 + w.2)
      let len := min 100000 (s.cue.num / 100 + 1)
      ∃ t start, exec .reservationRequest s = .next t ∧ t.mem = s.mem ∧ now + 2000 ≤ start ∧ fitsWindow c.ingressRate later start len = true ∧
        (∀ u, (u = now + 2000 ∨ ∃ w, w ∈ later ∧ u = w.1 + w.2) → now + 2000 ≤ u → u < start → fitsWindow c.ingressRate later u len = false) ∧
        (t.chip x).ingress = later ++ [(start, len)] ∧
        UnderWay t .reservationGrant fun q => q.chip = s.cue.peer ∧ q.tag = tag ∧ q.ct = start ∧ q.num = len))

/-- R337, R374, R419, R420: solo service begins with a local Plate of one chip and 16 tokens a die; a joining chip asks a neighbour in full service for a snapshot,
takes its Plate and posts REJOIN, or forms the pod; full service begins once its pod time is set and near its neighbours', with 64 tokens a die.

R268, R337, R373: a time flit of a neighbour that has set its copy sets that of a chip that has not, and is measured against that of one that has; every
1,000 ns a chip sends its own; a chip whose offset has stayed above 8 ns for 1,000,000 ns is fenced. The body of a time
flit, and what a measurement adds, are the model's choice (log 31, log 36). -/
def Obligations.TimeAndService : Prop :=
  (∀ (s : State), let x := s.cue.chip;
    let c := s.chip x;
    let posted := fun (t : State) (f : Event → Prop) => ∃ e, (e ∈ (t.chip x).evq ∨ e ∈ (t.chip x).heldReports) ∧ f e;
    (c.power ≠ .off ∨ c.fwOk = false ∨ c.repaired = false → ∃ t, exec .soloServiceStart s = .next t ∧ t = s) ∧
    (c.power = .off → c.fwOk = true → c.repaired = true → ∃ t, exec .soloServiceStart s = .next t ∧ t.mem = s.mem ∧ (t.chip x).power = .solo ∧
      (t.chip x).inPod = false ∧ tabKeys (t.chip x).plate.chips = [x] ∧ (t.chip x).plate.live = [x] ∧ (∀ d, d < 4 → (t.die (4 * x + d)).tokenCount = 16)) ∧
    (c.inPod = true ∨ x ∉ s.cfg.chips → ∃ t, exec .joiningStart s = .next t ∧ t = s) ∧
    (c.power = .solo ∨ c.power = .joining → c.inPod = false → x ∈ s.cfg.chips →
      ((∃ g, g ∈ c.plate.grids ∧ g.2.st.isOver = false) → ∃ t, exec .joiningStart s = .next t ∧ t.mem = s.mem ∧ (t.chip x).power = .joining ∧ (t.chip x).inPod = false ∧
        t.awaits .joiningStart { chip := x } = true) ∧
      ((∀ g, g ∈ c.plate.grids → g.2.st.isOver = true) → c.evq = [] → (∀ d, d ∈ s.agenda → d.cue.chip = x → d.ev ≠ .completionRecordWrite ∧ d.ev ≠ .submitDelivery) →
        ((∃ y, y ∈ s.chips ∧ y.1 ≠ x ∧ y.2.inPod = true ∧ y.2.fenced = false ∧ y.2.power = .full) → ∃ t, exec .joiningStart s = .next t ∧
          (UnderWay t .snapshotRequest fun q => q.peer = x) ∧ t.awaits .joiningStart { chip := x } = true) ∧
        ((∀ y, y ∈ s.chips → y.1 ≠ x → y.2.inPod = false ∨ y.2.fenced = true ∨ y.2.power ≠ .full) → ∃ t, exec .joiningStart s = .next t ∧ (t.chip x).inPod = true ∧
          (t.chip x).power = .joining ∧ (t.chip x).inc = 1 ∧ (t.chip x).plate.index = 0 ∧ t.awaits .fullServiceStart { chip := x } = true))) ∧
    (c.power = .joining → c.inPod = true → x ∈ c.plate.live →
      let near := (∀ e, e ∈ s.setNeighbours x → ((tabLook c.nbr e).map fun n => decide (n.natAbs < 4)) = some true) ∧
        inStep (tabPut s.chips x { c with power := .full }) x = true
      (c.timeSet = false ∨ ¬ near → ∃ t, exec .fullServiceStart s = .next t ∧ t.chips = s.chips ∧ t.awaits .fullServiceStart { chip := x } = true) ∧
      (c.timeSet = true → near → ∃ t, exec .fullServiceStart s = .next t ∧ t.mem = s.mem ∧ (t.chip x).power = .full ∧ (t.chip x).heldSubmits = [] ∧
        (∀ d, d < 4 → (t.die (4 * x + d)).tokenCount = 64) ∧ t.awaits .heartbeatSend { chip := x } = true ∧
        t.awaits .proof { chip := x, num := s.podTime x / (s.cfg.t * 1000000) + 1 } = true)) ∧
    (c.fenced = false → c.power = .full → c.inPod = true → ∃ t y, exec .snapshotRequest s = .next t ∧ t.mem = s.mem ∧ (t.chip s.cue.peer).snap = some y ∧ y.plate = c.plate ∧
      y.lastKey = c.lastKey ∧ y.events = c.events ∧ t.awaits .snapshot { chip := s.cue.peer, peer := x } = true) ∧
    (c.snap = none → ∃ t, exec .snapshot s = .next t ∧ t = s) ∧
    (∀ y, c.snap = some y → c.power = .joining → c.inPod = false →
      let me := tabLook y.plate.chips x
      let lost := ((s.chip s.cue.peer).info x).lostAt + 64000
      (s.podTime s.cue.peer < lost ∨ me.map PChip.st = some .live → ∃ t, exec .snapshot s = .next t ∧ t.chips = s.chips ∧ t.awaits .snapshot s.cue = true) ∧
      (lost ≤ s.podTime s.cue.peer → me.map PChip.st ≠ some .live → ∃ t, exec .snapshot s = .next t ∧ t.mem = s.mem ∧ (t.chip x).inPod = true ∧ (t.chip x).plate = y.plate ∧
        (t.chip x).lastKey = y.lastKey ∧ (t.chip x).inc = (me.map PChip.inc).getD 0 % 255 + 1 ∧
        posted t fun e => e.type = 5 ∧ e.payload = leBytes 1 ((me.map PChip.inc).getD 0 % 255 + 1) ++ [0, 0, 0] ++ leBytes 8 y.plate.index))) ∧
  (∀ (s : State), let x := s.cue.chip;
    let e := s.cue.link;
    let c := s.chip x;
    let now := s.podTime x;
    (∀ l' f, (s.linkOf x e).st = .up → linkOk e = true → c.power ≠ .off → (s.linkOf x e).check s.cue.flit = (l', some f) → flitType f = 6 →
      (c.inPod = false ∨ (flitBody f).getD 8 0 = 0 → ∃ t, exec .timeFlit s = .next t ∧ t = s.setLink x e l') ∧
      (c.inPod = true → (flitBody f).getD 8 0 ≠ 0 → c.timeSet = false → ∃ t, ∃ d : Int, exec .timeFlit s = .next t ∧ t.mem = s.mem ∧ -3 ≤ d ∧ d ≤ 3 ∧
        (t.chip x).timeSet = true ∧ (t.chip x).offset = (leNat ((flitBody f).take 8) : Int) + ((s.now - s.cue.ct : Nat) : Int) + d - (s.now : Int)) ∧
      (c.inPod = true → (flitBody f).getD 8 0 ≠ 0 → c.timeSet = true → ∃ t, ∃ d : Int, exec .timeFlit s = .next t ∧ t.mem = s.mem ∧ -3 ≤ d ∧ d ≤ 3 ∧
        (t.chip x).offset = c.offset ∧ tabLook (t.chip x).nbr e = some ((leNat ((flitBody f).take 8) : Int) + ((s.now - s.cue.ct : Nat) : Int) + d - (now : Int)))) ∧
    (c.power = .off → ∃ t, exec .timeFlitSend s = .next t ∧ t = s) ∧
    (c.power ≠ .off → (∀ d, d ∈ s.agenda → ¬ (d.ev = .timeFlitSend ∧ d.cue.chip = x)) →
      (now < s.cue.ct → ∃ t, exec .timeFlitSend s = .next t ∧ t.chips = s.chips ∧ UnderWay t .timeFlitSend fun q => q = s.cue) ∧
      (s.cue.ct ≤ now → ∃ t, exec .timeFlitSend s = .next t ∧ t.mem = s.mem ∧ UnderWay t .timeFlitSend fun q => q.chip = x ∧ q.ct = now + 1000)) ∧
    (c.skewSince = none → ∃ t, exec .skewFence s = .next t ∧ t = s) ∧
    (∀ n, c.skewSince = some n → c.fenced = false →
      (now < n + 1000000 → ∃ t, exec .skewFence s = .next t ∧ t.chips = s.chips ∧ t.awaits .skewFence { chip := x } = true) ∧
      (n + 1000000 ≤ now → ∃ t, exec .skewFence s = .next t ∧ t.mem = s.mem ∧ (t.chip x).fenced = true)))

/-- R232, R415 to R418, R425: the energy controller moves every die's tokens and caps down above the plan and up below 95 % of it; a power trip takes the tokens
and the restore gives them back; a thermal trip fences the chip; only an image that verifies boots; a reset and a loss of power leave what they keep.

R372, R373, R436: at its time a proof leaves with the buddy the committed value of every line to be mirrored; the buddy's answer completes it, and one
that is late fences the chip. A page whose copy has been rebuilt counts as whole. -/
def Obligations.PowerAndProofs : Prop :=
  (∀ (s : State), let x := s.cue.chip;
    let c := s.chip x;
    let p := s.cue.num;
    let plan := 1000 * (tabLook s.cfg.plan x).getD 0;
    let dies := fun (t : State) (f : Die → Die → Prop) => ∀ d, d < 4 → f (s.die (4 * x + d)) (t.die (4 * x + d));
    let caps := fun (f : Nat → Nat) (a b : Die) => b.dramCap = f a.dramCap ∧ b.fabricCap = f a.fabricCap;
    (∃ t, exec .energyControllerStep s = .next t ∧ t.mem = s.mem ∧ t.warps = s.warps ∧
      (plan < p → c.tripped = false → dies t fun a b => b.tokenCount = max 1 (a.tokenCount - 4) ∧ caps (fun n => max 25 (n - 5)) a b) ∧
      (100 * p < 95 * plan → p ≤ plan → c.tripped = false → dies t fun a b => b.tokenCount = min 64 (a.tokenCount + 4) ∧ caps (fun n => min 100 (n + 5)) a b) ∧
      (p ≤ plan → 95 * plan ≤ 100 * p → t.dies = s.dies) ∧ (c.tripped = true → dies t fun a b => b.tokenCount = a.tokenCount)) ∧
    (c.tripped = false → ∃ t, exec .powerCeilingTrip s = .next t ∧ t.mem = s.mem ∧ (t.chip x).tripped = true ∧ dies t (fun _ b => b.tokenCount = 0) ∧
      ∀ d, d < 4 → tabLook (t.chip x).tokenSave (4 * x + d) = some (s.die (4 * x + d)).tokenCount) ∧
    (c.tripped = true → ∃ t, exec .powerCeilingTrip s = .next t ∧ t = s) ∧
    (c.tripped = true → ∃ t, exec .powerCeilingRestore s = .next t ∧ t.mem = s.mem ∧ (t.chip x).tripped = false ∧
      ∀ d n, d < 4 → tabLook c.tokenSave (4 * x + d) = some n → (t.die (4 * x + d)).tokenCount = n) ∧
    (∃ t, exec .thermalTrip s = .next t ∧ t.mem = s.mem ∧ dies t (fun _ b => b.tokenCount = 0) ∧ (t.chip x).fenced = true) ∧
    (c.power ≠ .off → ∃ t, exec .secureBoot s = .next t ∧ t = s) ∧
    (c.power = .off → let f := s.cue.firmware
      let good := Config.sha512 (leBytes 32 f.key.toNat) = Config.fusedKeyDigest ∧ Config.ed25519Verifies f.key f.image f.sig = true ∧ c.fwMin ≤ f.version
      ∃ t, exec .secureBoot s = .next t ∧ t.mem = s.mem ∧
        (good → (t.chip x).fwOk = true ∧ (t.chip x).fwMin = max c.fwMin f.raiseMin ∧ t.awaits .soloServiceStart { chip := x } = true) ∧
        (¬ good → (t.chip x).fwOk = false ∧ (t.chip x).power = .off ∧ (t.chip x).fwMin = c.fwMin)) ∧
    (∃ t, exec .deviceReset s = .next t ∧ (t.chip x).power = .off ∧ (t.chip x).fenced = false ∧ (t.chip x).inPod = false ∧ (t.chip x).contexts = [] ∧
      (t.chip x).fwMin = c.fwMin ∧ (t.chip x).links = c.links ∧ (t.chip x).pageKeys = c.pageKeys ∧ (t.chip x).inc = c.inc ∧ (t.chip x).group = s.cue.repair.group ∧
      (t.chip x).pos = s.cue.repair.pos ∧ (c.inPod = false → t.mem = s.mem) ∧ (c.fwOk = true → t.awaits .soloServiceStart { chip := x } = true)) ∧
    (∃ t, exec .powerRemoval s = .next t ∧ (t.chip x).power = .off ∧ (t.chip x).fwMin = c.fwMin ∧ (t.chip x).pageKeys = [] ∧ (t.chip x).links = [] ∧
      ∀ y, y ∈ t.mem → y.1 / 2 ^ 60 ≠ x)) ∧
  (∀ (s : State), let x := s.cue.chip;
    let n := s.cue.num;
    let c := s.chip x;
    let due := n * s.cfg.t * 1000000;
    let up := fun (y : Nat) => (s.chip y).power = .full ∧ (s.chip y).fenced = false;
    (c.fenced = true ∨ c.power ≠ .full → ∀ i, i ∈ [Instr.proof, .proofDeadline] → ∃ t, exec i s = .next t ∧ t = s) ∧
    (c.fenced = false → c.power = .full →
      (s.cue.unit ≠ 1 → s.podTime x < due → ∃ t, exec .proof s = .next t ∧ t.chips = s.chips ∧ t.awaits .proof s.cue = true) ∧
      (∀ b, s.cue.unit ≠ 1 → due ≤ s.podTime x → c.saves = [] → s.buddy x = some b → up b → (∀ l, l ∈ s.proofLines x → (s.line l).red = none) → ∃ t p, exec .proof s = .next t ∧ t.mem = s.mem ∧ p ∈ (t.chip b).proofs ∧
        p.home = x ∧ p.num = n ∧ (∀ l, l ∈ s.proofLines x → (s.line l).touched = true → tabLook p.lines l = some (s.committed l)) ∧ (∀ l, l ∈ s.proofLines x → (t.line l).dirty = false) ∧ t.awaits .proof { chip := x, num := n + 1 } = true ∧
        t.awaits .proofDeadline { chip := x, num := n } = true) ∧
      (∀ b, s.cue.unit = 1 → s.buddy x = some b → up b → ∃ t, exec .proof s = .next t ∧ t.mem = s.mem ∧ (t.chip x).proofDone = c.proofDone ++ [(n, s.podTime x)]) ∧
      ((∃ d, d ∈ c.proofDone ∧ d.1 = n) → ∃ t, exec .proofDeadline s = .next t ∧ t = s) ∧
      ((∀ d, d ∈ c.proofDone → d.1 ≠ n) → s.podTime x < due + s.cfg.t * 500000 → ∃ t, exec .proofDeadline s = .next t ∧ t.chips = s.chips ∧
        t.awaits .proofDeadline s.cue = true) ∧
      ((∀ d, d ∈ c.proofDone → d.1 ≠ n) → due + s.cfg.t * 500000 ≤ s.podTime x → ∃ t, exec .proofDeadline s = .next t ∧ t.mem = s.mem ∧ (t.chip x).fenced = true)) ∧
    (∃ t, exec .buddyCopyRebuilt s = .next t ∧ t.mem = s.mem ∧ (t.chip x).rebuilding = c.rebuilding.filter fun p => decide (p ≠ n)))

/-- R240, R343, R403, R405, R420, R423, R424: the first record of the ring that is well formed and whose context exists is carried out, and STATUS is written with
DONE; one with a reserved byte set answers 5, an unknown OP 0xFF, one of a context that does not exist 6; the ring then moves on. The order
of the answers is the model's choice (log 85). -/
def Obligations.CommandsDone : Prop :=
  ∀ (s : State), let x := s.cue.chip
    let n := s.cue.num
    let c := s.chip x
    let key := s.recordKey x n
    let l := s.record x n
    let f := fieldAt l
    Memory.wf s.mem → key % 128 = 0 → (s.line (key / 128)).calm → c.power ≠ .off → c.fenced = false → c.ringTodo ≠ 0 → c.ringNext = n →
    let told := fun (t : State) (status : Nat) => memBytes t.mem (key + 96) 4 = leBytes 4 (2 ^ 31 + status) ∧ (t.chip x).ringNext = (n + 1) % max 1 c.ringSize ∧
      (t.chip x).ringTodo = c.ringTodo - 1
    let ends := fun (i : Instr) (status : Nat) (p : State → Prop) => ∃ t, exec i s = .next t ∧ told t status ∧ p t
    let ctx := f 8 2
    let known := ctx ∈ c.contexts
    let kept := fun (t : State) => (t.chip x).contexts = c.contexts ∧ (t.chip x).remap = c.remap ∧ (t.chip x).ptroot = c.ptroot ∧ (t.chip x).saves = c.saves
    let homeArgs := recordBad l [(8, 2), (10, 2), (12, 2), (14, 1), (16, 8)] = false ∧ homeBad l = false
    let sound := ∀ p, p ∈ s.lines → p.2.soft = none ∧ p.2.l2soft = none
    let others := fun (r : Nat × Nat × Nat) => decide (r.1 ≠ ctx) || decide (r.2.1 ≠ f 10 2)
    ends .unknownCommand 0xFF kept ∧
    ((∃ i, 1 ≤ i ∧ i < 8 ∧ l.getD i 0 ≠ 0) → ∀ i, i ∈ [Instr.hostSubmit, .invalidate, .preEmpt, .saveArea, .errorLog, .attest, .agree, .keyPage, .keyLinkSend, .keyLinkReceive,
      .contextCreate, .contextDestroy, .homeMap, .homeUnmap] → (i = .hostSubmit → s.cue.ok = true) → ends i 5 kept) ∧
    (recordBad l [(8, 2), (10, 1)] = false → ctx ≠ 0 → f 10 1 ≤ 1 →
      (known → ends .contextCreate 0 kept) ∧
      (¬ known → c.contexts.length < 1024 → ends .contextCreate 0 fun t => (t.chip x).contexts = c.contexts ++ [ctx] ∧ (t.chip x).remap = c.remap) ∧
      (¬ known → 1024 ≤ c.contexts.length → ends .contextCreate 8 kept)) ∧
    (recordBad l [(8, 2), (10, 1)] = false → ctx ≠ 0 → (¬ known → ends .contextDestroy 6 kept) ∧ (known → s.busyContext x ctx = true → ends .contextDestroy 7 kept) ∧
      (known → s.busyContext x ctx = false → ends .contextDestroy 0 fun t => ctx ∉ (t.chip x).contexts ∧ (∀ r, r ∈ (t.chip x).remap → r.1 ≠ ctx) ∧
        (∀ r, r ∈ (t.chip x).ptroot → r.1 ≠ ctx) ∧ ∀ e, e ∈ (t.chip x).tlb → e.ctx ≠ ctx)) ∧
    (homeArgs → (¬ known → ends .homeMap 6 kept ∧ ends .homeUnmap 6 kept) ∧
      (known → (f 12 2 ≠ x → ends .homeMap 0 fun t => (t.chip x).remap = c.remap.filter others ++ [(ctx, f 10 2, f 12 2)] ∧ (t.chip x).ptroot = c.ptroot) ∧
        (f 12 2 = x → (c.ptroot.filter others).length < 16384 → ends .homeMap 0 fun t => (t.chip x).remap = c.remap.filter others ++ [(ctx, f 10 2, x)] ∧
          (t.chip x).ptroot = c.ptroot.filter others ++ [(ctx, f 10 2, f 16 8)]) ∧
        ends .homeUnmap 0 fun t => (t.chip x).remap = c.remap.filter others)) ∧
    (recordBad l [(8, 2), (10, 2), (16, 8), (24, 8)] = false → ctx ≠ 0 → f 10 2 ≤ 4095 → f 16 8 % 65536 = 0 → f 16 8 + 65536 * f 24 8 ≤ 2 ^ 48 → known →
      ends .invalidate 0 fun t => ∀ k e, e ∈ (t.chip k).tlb → e.ctx = ctx → e.home = f 10 2 → e.base < f 16 8 + 65536 * f 24 8 → e.base + e.size ≤ f 16 8) ∧
    (recordBad l [(8, 2), (16, 8), (24, 8)] = false → ctx ≠ 0 → f 16 8 % 4096 = 0 → f 24 8 % 4096 = 0 → 8192 ≤ f 24 8 → deviceRange (f 16 8) (f 24 8) = true → known →
      ends .saveArea 0 fun t => (t.chip x).saves = (c.saves.filter fun r => decide (r.1 ≠ ctx)) ++ [(ctx, f 16 8, f 24 8)]) ∧
    (recordBad l [(8, 2)] = false → ctx ≠ 0 → (¬ known → ends .preEmpt 6 kept) ∧ (known → c.preempt = none → s.contextWarps x ctx = [] → ends .preEmpt 0 kept) ∧
      (known → c.preempt = none → s.contextWarps x ctx ≠ [] → s.saveRoom x ctx ((s.contextWarps x ctx).map fun p => p.2.rows.length) = false → ends .preEmpt 2 kept) ∧
      (known → c.preempt = none → s.contextWarps x ctx ≠ [] → s.saveRoom x ctx ((s.contextWarps x ctx).map fun p => p.2.rows.length) = true →
        ∃ t, exec .preEmpt s = .next t ∧ t.mem = s.mem ∧ (∀ p, p ∈ s.contextWarps x ctx → t.awaits .eviction { warp := p.1 } = true) ∧
          t.awaits .preEmpt { chip := x, num := n } = true)) ∧
    (recordBad l [(8, 8), (16, 4)] = false → f 8 8 % 16 = 0 → f 16 4 = 0 → sound → ends .errorLog 0 fun t => (t.chip x).errlog = c.errlog) ∧
    (recordBad l [(8, 8), (16, 4)] = false → f 8 8 % 16 = 0 → c.errlog.length ≤ f 16 4 → sound → ends .errorLog 0 fun t => (t.chip x).errlog = []) ∧
    (c.power = .joining → s.cue.ok = true → recordBad l [(8, 8), (16, 2)] = false → f 8 8 % 128 = 0 → f 16 2 ≠ 0 → ∃ t, exec .hostSubmit s = .next t ∧
      t.mem = s.mem ∧ (t.chip x).heldSubmits = c.heldSubmits ++ [n] ∧ (t.chip x).ringTodo = c.ringTodo - 1)

/-- R426, R427: Attest and Agree write their reports, and Agree the wrapping key; Key loads an unwrapped page key of a context or a key into a slot of a link
that does not serve, and answers 3 where the key does not unwrap and 4 where the slot serves.

R378, R421 to R424: a host submission that passes every check queues its SUBMIT; a register write sets the ring's base or size or takes the doorbell; a host
write is performed at its line's home and completes 25 ns after its completion time, and waits while a switch of the line is pending; a host read gives the line's bytes once no old copy
is kept, and a snoop is answered at once. That an answer waits for old copies by a mark on the line is the model's choice (log 86). -/
def Obligations.KeysAndHostAccesses : Prop :=
  (∀ (s : State), let x := s.cue.chip;
    let n := s.cue.num;
    let c := s.chip x;
    let key := s.recordKey x n;
    let l := s.record x n;
    let f := fieldAt l;
    Memory.wf s.mem → key % 128 = 0 → (s.line (key / 128)).calm → c.power ≠ .off → c.fenced = false → c.ringTodo ≠ 0 → c.ringNext = n →
    let ends := fun (i : Instr) (status : Nat) (p : State → Prop) => ∃ t, exec i s = .next t ∧ memBytes t.mem (key + 96) 4 = leBytes 4 (2 ^ 31 + status) ∧
      (t.chip x).ringTodo = c.ringTodo - 1 ∧ p t;
    let apart := fun (base : Nat) => hostKey x base / 128 + 1 < key / 128 ∨ key / 128 < hostKey x base / 128;
    let plain := recordBad l [(8, 1), (9, 1), (10, 2), (12, 4), (16, 40)] = false;
    (recordBad l [(8, 32), (40, 8)] = false → f 40 8 % 64 = 0 → (s.line (hostKey x (f 40 8) / 128)).calm → (s.line (hostKey x (f 40 8) / 128 + 1)).calm → apart (f 40 8) →
      (ends .attest 0 fun t => memBytes t.mem (hostKey x (f 40 8)) 32 = (l.drop 8).take 32 ∧ memBytes t.mem (hostKey x (f 40 8) + 160) 4 = leBytes 4 (c.num % 512 * 2 ^ 12 + c.group % 128 * 2 ^ 5 + c.pos % 32)) ∧
      ends .agree 0 fun t => memBytes t.mem (hostKey x (f 40 8)) 32 = leBytes 32 (Config.x25519Public s.fresh).toNat ∧
        (t.chip x).wrapKey = some (Config.wrapKey s.fresh (BitVec.ofNat 256 (leNat ((l.drop 8).take 32))) (c.num % 512 * 2 ^ 12 + c.group % 128 * 2 ^ 5 + c.pos % 32))) ∧
    (plain → f 8 1 = 0 → f 9 1 = 0 → f 10 2 ≠ 0 → f 10 2 ∈ c.contexts →
      match s.unwrap x l with
      | none => ends .keyPage 3 fun t => (t.chip x).pageKeys = c.pageKeys
      | some k => ends .keyPage 0 fun t => (t.chip x).pageKeys = (c.pageKeys.filter fun y => decide (y.1 ≠ f 10 2)) ++ [(f 10 2, f 12 4, k)]) ∧
    (plain → f 9 1 ≤ 1 → linkOk (f 10 2) = true → ∀ d, d = (tabLook c.links (f 10 2)).getD {} →
      (match s.unwrap x l, d.tx.liveSlot (f 9 1) with
      | none, _ => ends .keyLinkSend 3 fun t => (t.chip x).links = c.links
      | some _, true => ends .keyLinkSend 4 fun t => (t.chip x).links = c.links
      | some k, false => ends .keyLinkSend 0 fun t => (t.chip x).links = tabPut c.links (f 10 2) { d with tx := d.tx.setSlot (f 9 1) (some { id := f 12 4, key := k }) }) ∧
      match s.unwrap x l, d.rx.liveSlot (f 9 1) with
      | none, _ => ends .keyLinkReceive 3 fun t => (t.chip x).links = c.links
      | some _, true => ends .keyLinkReceive 4 fun t => (t.chip x).links = c.links
      | some k, false => ends .keyLinkReceive 0 fun t => (t.chip x).links = tabPut c.links (f 10 2) { d with rx := d.rx.setSlot (f 9 1) (some { id := f 12 4, key := k }) })) ∧
  (∀ (s : State), let x := s.cue.chip;
    let c := s.chip x;
    let v := s.cue.num;
    let tag := s.cue.tag;
    let key := devKey x v;
    let h := s.line (key / 128);
    let live := c.power ≠ .off ∧ c.fenced = false;
    (c.power = .off → ∃ t, exec .registerWrite s = .next t ∧ t = s) ∧
    (c.power ≠ .off → (s.cue.unit = 0 → v % 4096 = 0 → ∃ t, exec .registerWrite s = .next t ∧ t = s.setChip x { c with ringBase := v, ringNext := 0, ringTodo := 0 }) ∧
      (s.cue.unit = 1 → ∀ k, 4 ≤ k → k ≤ 12 → v = 2 ^ k → ∃ t, exec .registerWrite s = .next t ∧ t = s.setChip x { c with ringSize := v, ringNext := 0, ringTodo := 0 }) ∧
      (s.cue.unit = 2 → v < c.ringSize → ∃ t, exec .registerWrite s = .next t ∧ t.mem = s.mem ∧ (t.chip x).doorbell = v ∧
        (t.chip x).ringTodo = (v + c.ringSize - c.ringNext) % c.ringSize + 1 ∧ t.awaits (commandStep (s.record x c.ringNext)) { chip := x, num := c.ringNext } = true)) ∧
    (∀ l, live → paOk v = true → s.cue.wr = some l → h.sync = none → h.red = none → Memory.wf s.mem → 0 < l.length → v % 128 + l.length ≤ 128 →
      ∃ t, exec .hostHdmAccess s = .next t ∧ memBytes t.mem key l.length = l ∧ (∀ p, p < 128 * (key / 128) ∨ 128 * (key / 128) + 128 ≤ p → memGet t.mem p = memGet s.mem p) ∧
        UnderWay t .hostWriteCompletion fun q => q.chip = x ∧ q.tag = tag ∧ max (s.podTime (s.homeOf (key / 128))) h.h + 25 ≤ q.ct) ∧
    (live → paOk v = true → s.cue.wr ≠ none → h.sync ≠ none → ∃ t, exec .hostHdmAccess s = .next t ∧ t.mem = s.mem ∧ t.chips = s.chips ∧
      UnderWay t .hostHdmAccess fun q => q = s.cue) ∧
    (live → paOk v = true → s.cue.wr = none → h.red = none → h.sync = none →
      (h.undo ≠ [] → ∃ t, exec .hostHdmAccess s = .next t ∧ t.mem = s.mem ∧ t.chips = s.chips ∧ UnderWay t .hostHdmAccess fun q => q = s.cue) ∧
      (h.undo = [] → ∃ t, exec .hostHdmAccess s = .next t ∧ t.mem = s.mem ∧ (t.line (key / 128)).hostHeld = true ∧
        (t.chip x).toHost = c.toHost ++ [(tag, memBytes s.mem key (min s.cue.ct (128 - v % 128)))])) ∧
    (s.podTime x < s.cue.ct → ∃ t, exec .hostWriteCompletion s = .next t ∧ t.chips = s.chips ∧ UnderWay t .hostWriteCompletion fun q => q = s.cue) ∧
    (s.cue.ct ≤ s.podTime x → ∃ t, exec .hostWriteCompletion s = .next t ∧ t.mem = s.mem ∧ (t.chip x).toHost = c.toHost ++ [(tag, [])]) ∧
    (∃ t, exec .hostSnoop s = .next t ∧ t.mem = s.mem ∧ t.lines = s.lines ∧ (t.chip x).toHost = c.toHost ++ [(s.cue.line, [])]) ∧
    (∀ l, l = s.record x v → live → s.cue.ok = false → fieldAt l 16 2 ∈ c.contexts → c.room = true → ∀ a : Access, a = { id := s.fresh } →
      ∀ s1 r, s.counted.pull x (fieldAt l 16 2) a (fieldAt l 8 8) 128 = (s1, some r) → ∀ y, y = s1.judge x a (some (fieldAt l 16 2)) false r →
      ∀ image run, y.2 = .accepted (fieldAt l 16 2) image run → (y.1.chip x).room = true → ∃ t e, exec .hostSubmit s = .next t ∧
        (t.chip x).evq = (y.1.chip x).evq ++ [e] ∧ e.type = 0 ∧ e.ctx = fieldAt l 16 2 ∧ e.cont = image ∧ e.payload = leBytes 2 image.length ++ [1]))
end

