-- ==== Sys2Proof/Laws/Tab.lean ====
section
/-! SUPPORT. What a lookup in a sparse table gives after an update. -/

namespace Sys2Proof.Machine

variable {α : Type}

@[simp] theorem tabLook_tabPut_same (t : Tab α) (k : Nat) (v : α) : tabLook (tabPut t k v) k = some v := by
  induction t with
  | nil => simp [tabPut, tabLook]
  | cons p r ih =>
    obtain ⟨j, x⟩ := p
    by_cases h1 : k < j
    · simp [tabPut, tabLook, h1]
    · by_cases h2 : k = j
      · simp [tabPut, tabLook, h2]
      · have h3 : ¬ j = k := fun h => h2 h.symm
        simp [tabPut, tabLook, h1, h2, h3, ih]

theorem tabLook_tabPut_other (t : Tab α) (k k' : Nat) (v : α) (h : k' ≠ k) : tabLook (tabPut t k v) k' = tabLook t k' := by
  have h' : ¬ k = k' := fun e => h e.symm
  induction t with
  | nil => simp [tabPut, tabLook, h']
  | cons p r ih =>
    obtain ⟨j, x⟩ := p
    by_cases h1 : k < j
    · simp [tabPut, tabLook, h1, h']
    · by_cases h2 : k = j
      · subst h2; simp [tabPut, tabLook, h']
      · have e : tabPut ((j, x) :: r) k v = (j, x) :: tabPut r k v := by simp [tabPut, h1, h2]
        rw [e]
        simp only [tabLook, ih]

theorem tabLook_tabPut (t : Tab α) (k k' : Nat) (v : α) :
    tabLook (tabPut t k v) k' = if k' = k then some v else tabLook t k' := by
  by_cases h : k' = k
  · subst h; simp
  · simp [tabLook_tabPut_other t k k' v h, h]

@[simp] theorem tabLook_tabUpd_same (t : Tab α) (k : Nat) (f : α → α) : tabLook (tabUpd t k f) k = (tabLook t k).map f := by
  unfold tabUpd
  split <;> simp_all

theorem tabLook_tabUpd_other (t : Tab α) (k k' : Nat) (f : α → α) (h : k' ≠ k) : tabLook (tabUpd t k f) k' = tabLook t k' := by
  unfold tabUpd
  split
  · exact tabLook_tabPut_other _ _ _ _ h
  · rfl

theorem tabLook_tabUpd (t : Tab α) (k k' : Nat) (f : α → α) :
    tabLook (tabUpd t k f) k' = if k' = k then (tabLook t k).map f else tabLook t k' := by
  by_cases h : k' = k
  · subst h; simp
  · simp [tabLook_tabUpd_other t k k' f h, h]

@[simp] theorem tabLook_tabDel_same (t : Tab α) (k : Nat) : tabLook (tabDel t k) k = none := by
  induction t with
  | nil => rfl
  | cons p r ih =>
    obtain ⟨j, x⟩ := p
    by_cases h : j = k <;> simp [tabDel, tabLook, h, ih]

theorem tabLook_tabDel_other (t : Tab α) (k k' : Nat) (h : k' ≠ k) : tabLook (tabDel t k) k' = tabLook t k' := by
  induction t with
  | nil => rfl
  | cons p r ih =>
    obtain ⟨j, x⟩ := p
    by_cases h1 : j = k
    · subst h1
      have h' : ¬ j = k' := fun e => h e.symm
      simp [tabDel, tabLook, ih, h']
    · have e : tabDel ((j, x) :: r) k = (j, x) :: tabDel r k := by simp [tabDel, h1]
      rw [e]
      simp only [tabLook, ih]

/-- A map over a table's entries maps what a lookup gives. -/
theorem tabLook_map (t : Tab α) (k : Nat) (f : Nat → α → α) :
    tabLook (t.map fun p => (p.1, f p.1 p.2)) k = (tabLook t k).map (f k) := by
  induction t with
  | nil => rfl
  | cons p r ih =>
    obtain ⟨j, x⟩ := p
    by_cases h : j = k
    · subst h; simp [tabLook]
    · simp [tabLook, h, ih]

/-! ## Register files -/

theorem vecAt_vecPut {n : Nat} (v : Vector α n) (i j : Nat) (x d : α) :
    vecAt (vecPut v i x) j d = if i = j ∧ j < n then x else vecAt v j d := by
  have e : (vecPut v i x).toList = v.toList.set i x := rfl
  have hl : v.toList.length = n := by simp
  unfold vecAt
  rw [e]
  simp only [List.getD_eq_getElem?_getD, List.getElem?_set]
  by_cases h : i = j
  · subst h
    by_cases h2 : i < n
    · simp [h2]
    · have h3 : v.toList[i]? = none := List.getElem?_eq_none (by omega)
      simp [h2]
  · simp [h]

@[simp] theorem vecAt_vecPut_same {n : Nat} (v : Vector α n) (i : Nat) (x d : α) (h : i < n) : vecAt (vecPut v i x) i d = x := by
  rw [vecAt_vecPut]; simp [h]

theorem vecAt_vecPut_other {n : Nat} (v : Vector α n) (i j : Nat) (x d : α) (h : i ≠ j) : vecAt (vecPut v i x) j d = vecAt v j d := by
  rw [vecAt_vecPut]; simp [h]

@[simp] theorem vecAt_vecOf {n : Nat} (f : Nat → α) (i : Nat) (d : α) (h : i < n) : vecAt (vecOf n f) i d = f i := by
  have e : (vecOf n f).toList = (List.range n).map f := rfl
  unfold vecAt
  rw [e]
  simp [List.getD_eq_getElem?_getD, h]

end Sys2Proof.Machine
end

