-- ==== Sys2Proof/Laws/State.lean ====
section
/-! SUPPORT. What each update of the state leaves of each field, and what a lookup gives after it. -/

namespace Sys2Proof.Machine

/-! ## State.setWarp -/

@[simp] theorem State.setWarp_now (s : State) (k : Nat) (w : Warp) : (s.setWarp k w).now = s.now := rfl
@[simp] theorem State.setWarp_mem (s : State) (k : Nat) (w : Warp) : (s.setWarp k w).mem = s.mem := rfl
@[simp] theorem State.setWarp_lines (s : State) (k : Nat) (w : Warp) : (s.setWarp k w).lines = s.lines := rfl
@[simp] theorem State.setWarp_partials (s : State) (k : Nat) (w : Warp) : (s.setWarp k w).partials = s.partials := rfl
@[simp] theorem State.setWarp_cores (s : State) (k : Nat) (w : Warp) : (s.setWarp k w).cores = s.cores := rfl
@[simp] theorem State.setWarp_dies (s : State) (k : Nat) (w : Warp) : (s.setWarp k w).dies = s.dies := rfl
@[simp] theorem State.setWarp_blocks (s : State) (k : Nat) (w : Warp) : (s.setWarp k w).blocks = s.blocks := rfl
@[simp] theorem State.setWarp_grids (s : State) (k : Nat) (w : Warp) : (s.setWarp k w).grids = s.grids := rfl
@[simp] theorem State.setWarp_drafts (s : State) (k : Nat) (w : Warp) : (s.setWarp k w).drafts = s.drafts := rfl
@[simp] theorem State.setWarp_chips (s : State) (k : Nat) (w : Warp) : (s.setWarp k w).chips = s.chips := rfl
@[simp] theorem State.setWarp_mirrors (s : State) (k : Nat) (w : Warp) : (s.setWarp k w).mirrors = s.mirrors := rfl
@[simp] theorem State.setWarp_copyRoots (s : State) (k : Nat) (w : Warp) : (s.setWarp k w).copyRoots = s.copyRoots := rfl
@[simp] theorem State.setWarp_ghosts (s : State) (k : Nat) (w : Warp) : (s.setWarp k w).ghosts = s.ghosts := rfl
@[simp] theorem State.setWarp_cfg (s : State) (k : Nat) (w : Warp) : (s.setWarp k w).cfg = s.cfg := rfl
@[simp] theorem State.setWarp_colls (s : State) (k : Nat) (w : Warp) : (s.setWarp k w).colls = s.colls := rfl
@[simp] theorem State.setWarp_homesAt (s : State) (k : Nat) (w : Warp) : (s.setWarp k w).homesAt = s.homesAt := rfl
@[simp] theorem State.setWarp_losses (s : State) (k : Nat) (w : Warp) : (s.setWarp k w).losses = s.losses := rfl
@[simp] theorem State.setWarp_nextNode (s : State) (k : Nat) (w : Warp) : (s.setWarp k w).nextNode = s.nextNode := rfl
@[simp] theorem State.setWarp_agenda (s : State) (k : Nat) (w : Warp) : (s.setWarp k w).agenda = s.agenda := rfl
@[simp] theorem State.setWarp_cue (s : State) (k : Nat) (w : Warp) : (s.setWarp k w).cue = s.cue := rfl
@[simp] theorem State.setWarp_fresh (s : State) (k : Nat) (w : Warp) : (s.setWarp k w).fresh = s.fresh := rfl
@[simp] theorem State.setWarp_issuing (s : State) (k : Nat) (w : Warp) : (s.setWarp k w).issuing = s.issuing := rfl
@[simp] theorem State.setWarp_turn (s : State) (k : Nat) (w : Warp) : (s.setWarp k w).turn = s.turn := rfl
@[simp] theorem State.setWarp_took (s : State) (k : Nat) (w : Warp) : (s.setWarp k w).took = s.took := rfl
@[simp] theorem State.setWarp_reselect (s : State) (k : Nat) (w : Warp) : (s.setWarp k w).reselect = s.reselect := rfl

/-! ## State.setBlock -/

@[simp] theorem State.setBlock_now (s : State) (k : Nat) (b : Block) : (s.setBlock k b).now = s.now := rfl
@[simp] theorem State.setBlock_mem (s : State) (k : Nat) (b : Block) : (s.setBlock k b).mem = s.mem := rfl
@[simp] theorem State.setBlock_lines (s : State) (k : Nat) (b : Block) : (s.setBlock k b).lines = s.lines := rfl
@[simp] theorem State.setBlock_partials (s : State) (k : Nat) (b : Block) : (s.setBlock k b).partials = s.partials := rfl
@[simp] theorem State.setBlock_cores (s : State) (k : Nat) (b : Block) : (s.setBlock k b).cores = s.cores := rfl
@[simp] theorem State.setBlock_dies (s : State) (k : Nat) (b : Block) : (s.setBlock k b).dies = s.dies := rfl
@[simp] theorem State.setBlock_warps (s : State) (k : Nat) (b : Block) : (s.setBlock k b).warps = s.warps := rfl
@[simp] theorem State.setBlock_grids (s : State) (k : Nat) (b : Block) : (s.setBlock k b).grids = s.grids := rfl
@[simp] theorem State.setBlock_drafts (s : State) (k : Nat) (b : Block) : (s.setBlock k b).drafts = s.drafts := rfl
@[simp] theorem State.setBlock_chips (s : State) (k : Nat) (b : Block) : (s.setBlock k b).chips = s.chips := rfl
@[simp] theorem State.setBlock_mirrors (s : State) (k : Nat) (b : Block) : (s.setBlock k b).mirrors = s.mirrors := rfl
@[simp] theorem State.setBlock_copyRoots (s : State) (k : Nat) (b : Block) : (s.setBlock k b).copyRoots = s.copyRoots := rfl
@[simp] theorem State.setBlock_ghosts (s : State) (k : Nat) (b : Block) : (s.setBlock k b).ghosts = s.ghosts := rfl
@[simp] theorem State.setBlock_cfg (s : State) (k : Nat) (b : Block) : (s.setBlock k b).cfg = s.cfg := rfl
@[simp] theorem State.setBlock_colls (s : State) (k : Nat) (b : Block) : (s.setBlock k b).colls = s.colls := rfl
@[simp] theorem State.setBlock_homesAt (s : State) (k : Nat) (b : Block) : (s.setBlock k b).homesAt = s.homesAt := rfl
@[simp] theorem State.setBlock_losses (s : State) (k : Nat) (b : Block) : (s.setBlock k b).losses = s.losses := rfl
@[simp] theorem State.setBlock_nextNode (s : State) (k : Nat) (b : Block) : (s.setBlock k b).nextNode = s.nextNode := rfl
@[simp] theorem State.setBlock_agenda (s : State) (k : Nat) (b : Block) : (s.setBlock k b).agenda = s.agenda := rfl
@[simp] theorem State.setBlock_cue (s : State) (k : Nat) (b : Block) : (s.setBlock k b).cue = s.cue := rfl
@[simp] theorem State.setBlock_fresh (s : State) (k : Nat) (b : Block) : (s.setBlock k b).fresh = s.fresh := rfl
@[simp] theorem State.setBlock_issuing (s : State) (k : Nat) (b : Block) : (s.setBlock k b).issuing = s.issuing := rfl
@[simp] theorem State.setBlock_turn (s : State) (k : Nat) (b : Block) : (s.setBlock k b).turn = s.turn := rfl
@[simp] theorem State.setBlock_took (s : State) (k : Nat) (b : Block) : (s.setBlock k b).took = s.took := rfl
@[simp] theorem State.setBlock_reselect (s : State) (k : Nat) (b : Block) : (s.setBlock k b).reselect = s.reselect := rfl

/-! ## State.setCore -/

@[simp] theorem State.setCore_now (s : State) (k : Nat) (c : Core) : (s.setCore k c).now = s.now := rfl
@[simp] theorem State.setCore_mem (s : State) (k : Nat) (c : Core) : (s.setCore k c).mem = s.mem := rfl
@[simp] theorem State.setCore_lines (s : State) (k : Nat) (c : Core) : (s.setCore k c).lines = s.lines := rfl
@[simp] theorem State.setCore_partials (s : State) (k : Nat) (c : Core) : (s.setCore k c).partials = s.partials := rfl
@[simp] theorem State.setCore_dies (s : State) (k : Nat) (c : Core) : (s.setCore k c).dies = s.dies := rfl
@[simp] theorem State.setCore_blocks (s : State) (k : Nat) (c : Core) : (s.setCore k c).blocks = s.blocks := rfl
@[simp] theorem State.setCore_warps (s : State) (k : Nat) (c : Core) : (s.setCore k c).warps = s.warps := rfl
@[simp] theorem State.setCore_grids (s : State) (k : Nat) (c : Core) : (s.setCore k c).grids = s.grids := rfl
@[simp] theorem State.setCore_drafts (s : State) (k : Nat) (c : Core) : (s.setCore k c).drafts = s.drafts := rfl
@[simp] theorem State.setCore_chips (s : State) (k : Nat) (c : Core) : (s.setCore k c).chips = s.chips := rfl
@[simp] theorem State.setCore_mirrors (s : State) (k : Nat) (c : Core) : (s.setCore k c).mirrors = s.mirrors := rfl
@[simp] theorem State.setCore_copyRoots (s : State) (k : Nat) (c : Core) : (s.setCore k c).copyRoots = s.copyRoots := rfl
@[simp] theorem State.setCore_ghosts (s : State) (k : Nat) (c : Core) : (s.setCore k c).ghosts = s.ghosts := rfl
@[simp] theorem State.setCore_cfg (s : State) (k : Nat) (c : Core) : (s.setCore k c).cfg = s.cfg := rfl
@[simp] theorem State.setCore_colls (s : State) (k : Nat) (c : Core) : (s.setCore k c).colls = s.colls := rfl
@[simp] theorem State.setCore_homesAt (s : State) (k : Nat) (c : Core) : (s.setCore k c).homesAt = s.homesAt := rfl
@[simp] theorem State.setCore_losses (s : State) (k : Nat) (c : Core) : (s.setCore k c).losses = s.losses := rfl
@[simp] theorem State.setCore_nextNode (s : State) (k : Nat) (c : Core) : (s.setCore k c).nextNode = s.nextNode := rfl
@[simp] theorem State.setCore_agenda (s : State) (k : Nat) (c : Core) : (s.setCore k c).agenda = s.agenda := rfl
@[simp] theorem State.setCore_cue (s : State) (k : Nat) (c : Core) : (s.setCore k c).cue = s.cue := rfl
@[simp] theorem State.setCore_fresh (s : State) (k : Nat) (c : Core) : (s.setCore k c).fresh = s.fresh := rfl
@[simp] theorem State.setCore_issuing (s : State) (k : Nat) (c : Core) : (s.setCore k c).issuing = s.issuing := rfl
@[simp] theorem State.setCore_turn (s : State) (k : Nat) (c : Core) : (s.setCore k c).turn = s.turn := rfl
@[simp] theorem State.setCore_took (s : State) (k : Nat) (c : Core) : (s.setCore k c).took = s.took := rfl
@[simp] theorem State.setCore_reselect (s : State) (k : Nat) (c : Core) : (s.setCore k c).reselect = s.reselect := rfl

/-! ## State.setDie -/

@[simp] theorem State.setDie_now (s : State) (k : Nat) (d : Die) : (s.setDie k d).now = s.now := rfl
@[simp] theorem State.setDie_mem (s : State) (k : Nat) (d : Die) : (s.setDie k d).mem = s.mem := rfl
@[simp] theorem State.setDie_lines (s : State) (k : Nat) (d : Die) : (s.setDie k d).lines = s.lines := rfl
@[simp] theorem State.setDie_partials (s : State) (k : Nat) (d : Die) : (s.setDie k d).partials = s.partials := rfl
@[simp] theorem State.setDie_cores (s : State) (k : Nat) (d : Die) : (s.setDie k d).cores = s.cores := rfl
@[simp] theorem State.setDie_blocks (s : State) (k : Nat) (d : Die) : (s.setDie k d).blocks = s.blocks := rfl
@[simp] theorem State.setDie_warps (s : State) (k : Nat) (d : Die) : (s.setDie k d).warps = s.warps := rfl
@[simp] theorem State.setDie_grids (s : State) (k : Nat) (d : Die) : (s.setDie k d).grids = s.grids := rfl
@[simp] theorem State.setDie_drafts (s : State) (k : Nat) (d : Die) : (s.setDie k d).drafts = s.drafts := rfl
@[simp] theorem State.setDie_chips (s : State) (k : Nat) (d : Die) : (s.setDie k d).chips = s.chips := rfl
@[simp] theorem State.setDie_mirrors (s : State) (k : Nat) (d : Die) : (s.setDie k d).mirrors = s.mirrors := rfl
@[simp] theorem State.setDie_copyRoots (s : State) (k : Nat) (d : Die) : (s.setDie k d).copyRoots = s.copyRoots := rfl
@[simp] theorem State.setDie_ghosts (s : State) (k : Nat) (d : Die) : (s.setDie k d).ghosts = s.ghosts := rfl
@[simp] theorem State.setDie_cfg (s : State) (k : Nat) (d : Die) : (s.setDie k d).cfg = s.cfg := rfl
@[simp] theorem State.setDie_colls (s : State) (k : Nat) (d : Die) : (s.setDie k d).colls = s.colls := rfl
@[simp] theorem State.setDie_homesAt (s : State) (k : Nat) (d : Die) : (s.setDie k d).homesAt = s.homesAt := rfl
@[simp] theorem State.setDie_losses (s : State) (k : Nat) (d : Die) : (s.setDie k d).losses = s.losses := rfl
@[simp] theorem State.setDie_nextNode (s : State) (k : Nat) (d : Die) : (s.setDie k d).nextNode = s.nextNode := rfl
@[simp] theorem State.setDie_agenda (s : State) (k : Nat) (d : Die) : (s.setDie k d).agenda = s.agenda := rfl
@[simp] theorem State.setDie_cue (s : State) (k : Nat) (d : Die) : (s.setDie k d).cue = s.cue := rfl
@[simp] theorem State.setDie_fresh (s : State) (k : Nat) (d : Die) : (s.setDie k d).fresh = s.fresh := rfl
@[simp] theorem State.setDie_issuing (s : State) (k : Nat) (d : Die) : (s.setDie k d).issuing = s.issuing := rfl
@[simp] theorem State.setDie_turn (s : State) (k : Nat) (d : Die) : (s.setDie k d).turn = s.turn := rfl
@[simp] theorem State.setDie_took (s : State) (k : Nat) (d : Die) : (s.setDie k d).took = s.took := rfl
@[simp] theorem State.setDie_reselect (s : State) (k : Nat) (d : Die) : (s.setDie k d).reselect = s.reselect := rfl

/-! ## State.setChip -/

@[simp] theorem State.setChip_now (s : State) (k : Nat) (c : Chip) : (s.setChip k c).now = s.now := rfl
@[simp] theorem State.setChip_mem (s : State) (k : Nat) (c : Chip) : (s.setChip k c).mem = s.mem := rfl
@[simp] theorem State.setChip_lines (s : State) (k : Nat) (c : Chip) : (s.setChip k c).lines = s.lines := rfl
@[simp] theorem State.setChip_partials (s : State) (k : Nat) (c : Chip) : (s.setChip k c).partials = s.partials := rfl
@[simp] theorem State.setChip_cores (s : State) (k : Nat) (c : Chip) : (s.setChip k c).cores = s.cores := rfl
@[simp] theorem State.setChip_dies (s : State) (k : Nat) (c : Chip) : (s.setChip k c).dies = s.dies := rfl
@[simp] theorem State.setChip_blocks (s : State) (k : Nat) (c : Chip) : (s.setChip k c).blocks = s.blocks := rfl
@[simp] theorem State.setChip_warps (s : State) (k : Nat) (c : Chip) : (s.setChip k c).warps = s.warps := rfl
@[simp] theorem State.setChip_grids (s : State) (k : Nat) (c : Chip) : (s.setChip k c).grids = s.grids := rfl
@[simp] theorem State.setChip_drafts (s : State) (k : Nat) (c : Chip) : (s.setChip k c).drafts = s.drafts := rfl
@[simp] theorem State.setChip_mirrors (s : State) (k : Nat) (c : Chip) : (s.setChip k c).mirrors = s.mirrors := rfl
@[simp] theorem State.setChip_copyRoots (s : State) (k : Nat) (c : Chip) : (s.setChip k c).copyRoots = s.copyRoots := rfl
@[simp] theorem State.setChip_ghosts (s : State) (k : Nat) (c : Chip) : (s.setChip k c).ghosts = s.ghosts := rfl
@[simp] theorem State.setChip_cfg (s : State) (k : Nat) (c : Chip) : (s.setChip k c).cfg = s.cfg := rfl
@[simp] theorem State.setChip_colls (s : State) (k : Nat) (c : Chip) : (s.setChip k c).colls = s.colls := rfl
@[simp] theorem State.setChip_homesAt (s : State) (k : Nat) (c : Chip) : (s.setChip k c).homesAt = s.homesAt := rfl
@[simp] theorem State.setChip_losses (s : State) (k : Nat) (c : Chip) : (s.setChip k c).losses = s.losses := rfl
@[simp] theorem State.setChip_nextNode (s : State) (k : Nat) (c : Chip) : (s.setChip k c).nextNode = s.nextNode := rfl
@[simp] theorem State.setChip_agenda (s : State) (k : Nat) (c : Chip) : (s.setChip k c).agenda = s.agenda := rfl
@[simp] theorem State.setChip_cue (s : State) (k : Nat) (c : Chip) : (s.setChip k c).cue = s.cue := rfl
@[simp] theorem State.setChip_fresh (s : State) (k : Nat) (c : Chip) : (s.setChip k c).fresh = s.fresh := rfl
@[simp] theorem State.setChip_issuing (s : State) (k : Nat) (c : Chip) : (s.setChip k c).issuing = s.issuing := rfl
@[simp] theorem State.setChip_turn (s : State) (k : Nat) (c : Chip) : (s.setChip k c).turn = s.turn := rfl
@[simp] theorem State.setChip_took (s : State) (k : Nat) (c : Chip) : (s.setChip k c).took = s.took := rfl
@[simp] theorem State.setChip_reselect (s : State) (k : Nat) (c : Chip) : (s.setChip k c).reselect = s.reselect := rfl

/-! ## State.setLine -/

@[simp] theorem State.setLine_now (s : State) (k : Nat) (l : HomeLine) : (s.setLine k l).now = s.now := rfl
@[simp] theorem State.setLine_mem (s : State) (k : Nat) (l : HomeLine) : (s.setLine k l).mem = s.mem := rfl
@[simp] theorem State.setLine_partials (s : State) (k : Nat) (l : HomeLine) : (s.setLine k l).partials = s.partials := rfl
@[simp] theorem State.setLine_cores (s : State) (k : Nat) (l : HomeLine) : (s.setLine k l).cores = s.cores := rfl
@[simp] theorem State.setLine_dies (s : State) (k : Nat) (l : HomeLine) : (s.setLine k l).dies = s.dies := rfl
@[simp] theorem State.setLine_blocks (s : State) (k : Nat) (l : HomeLine) : (s.setLine k l).blocks = s.blocks := rfl
@[simp] theorem State.setLine_warps (s : State) (k : Nat) (l : HomeLine) : (s.setLine k l).warps = s.warps := rfl
@[simp] theorem State.setLine_grids (s : State) (k : Nat) (l : HomeLine) : (s.setLine k l).grids = s.grids := rfl
@[simp] theorem State.setLine_drafts (s : State) (k : Nat) (l : HomeLine) : (s.setLine k l).drafts = s.drafts := rfl
@[simp] theorem State.setLine_chips (s : State) (k : Nat) (l : HomeLine) : (s.setLine k l).chips = s.chips := rfl
@[simp] theorem State.setLine_mirrors (s : State) (k : Nat) (l : HomeLine) : (s.setLine k l).mirrors = s.mirrors := rfl
@[simp] theorem State.setLine_copyRoots (s : State) (k : Nat) (l : HomeLine) : (s.setLine k l).copyRoots = s.copyRoots := rfl
@[simp] theorem State.setLine_ghosts (s : State) (k : Nat) (l : HomeLine) : (s.setLine k l).ghosts = s.ghosts := rfl
@[simp] theorem State.setLine_cfg (s : State) (k : Nat) (l : HomeLine) : (s.setLine k l).cfg = s.cfg := rfl
@[simp] theorem State.setLine_colls (s : State) (k : Nat) (l : HomeLine) : (s.setLine k l).colls = s.colls := rfl
@[simp] theorem State.setLine_homesAt (s : State) (k : Nat) (l : HomeLine) : (s.setLine k l).homesAt = s.homesAt := rfl
@[simp] theorem State.setLine_losses (s : State) (k : Nat) (l : HomeLine) : (s.setLine k l).losses = s.losses := rfl
@[simp] theorem State.setLine_nextNode (s : State) (k : Nat) (l : HomeLine) : (s.setLine k l).nextNode = s.nextNode := rfl
@[simp] theorem State.setLine_agenda (s : State) (k : Nat) (l : HomeLine) : (s.setLine k l).agenda = s.agenda := rfl
@[simp] theorem State.setLine_cue (s : State) (k : Nat) (l : HomeLine) : (s.setLine k l).cue = s.cue := rfl
@[simp] theorem State.setLine_fresh (s : State) (k : Nat) (l : HomeLine) : (s.setLine k l).fresh = s.fresh := rfl
@[simp] theorem State.setLine_issuing (s : State) (k : Nat) (l : HomeLine) : (s.setLine k l).issuing = s.issuing := rfl
@[simp] theorem State.setLine_turn (s : State) (k : Nat) (l : HomeLine) : (s.setLine k l).turn = s.turn := rfl
@[simp] theorem State.setLine_took (s : State) (k : Nat) (l : HomeLine) : (s.setLine k l).took = s.took := rfl
@[simp] theorem State.setLine_reselect (s : State) (k : Nat) (l : HomeLine) : (s.setLine k l).reselect = s.reselect := rfl

/-! ## State.setGrid -/

@[simp] theorem State.setGrid_now (s : State) (k : Nat) (g : GridRun) : (s.setGrid k g).now = s.now := rfl
@[simp] theorem State.setGrid_mem (s : State) (k : Nat) (g : GridRun) : (s.setGrid k g).mem = s.mem := rfl
@[simp] theorem State.setGrid_lines (s : State) (k : Nat) (g : GridRun) : (s.setGrid k g).lines = s.lines := rfl
@[simp] theorem State.setGrid_partials (s : State) (k : Nat) (g : GridRun) : (s.setGrid k g).partials = s.partials := rfl
@[simp] theorem State.setGrid_cores (s : State) (k : Nat) (g : GridRun) : (s.setGrid k g).cores = s.cores := rfl
@[simp] theorem State.setGrid_dies (s : State) (k : Nat) (g : GridRun) : (s.setGrid k g).dies = s.dies := rfl
@[simp] theorem State.setGrid_blocks (s : State) (k : Nat) (g : GridRun) : (s.setGrid k g).blocks = s.blocks := rfl
@[simp] theorem State.setGrid_warps (s : State) (k : Nat) (g : GridRun) : (s.setGrid k g).warps = s.warps := rfl
@[simp] theorem State.setGrid_drafts (s : State) (k : Nat) (g : GridRun) : (s.setGrid k g).drafts = s.drafts := rfl
@[simp] theorem State.setGrid_chips (s : State) (k : Nat) (g : GridRun) : (s.setGrid k g).chips = s.chips := rfl
@[simp] theorem State.setGrid_mirrors (s : State) (k : Nat) (g : GridRun) : (s.setGrid k g).mirrors = s.mirrors := rfl
@[simp] theorem State.setGrid_copyRoots (s : State) (k : Nat) (g : GridRun) : (s.setGrid k g).copyRoots = s.copyRoots := rfl
@[simp] theorem State.setGrid_ghosts (s : State) (k : Nat) (g : GridRun) : (s.setGrid k g).ghosts = s.ghosts := rfl
@[simp] theorem State.setGrid_cfg (s : State) (k : Nat) (g : GridRun) : (s.setGrid k g).cfg = s.cfg := rfl
@[simp] theorem State.setGrid_colls (s : State) (k : Nat) (g : GridRun) : (s.setGrid k g).colls = s.colls := rfl
@[simp] theorem State.setGrid_homesAt (s : State) (k : Nat) (g : GridRun) : (s.setGrid k g).homesAt = s.homesAt := rfl
@[simp] theorem State.setGrid_losses (s : State) (k : Nat) (g : GridRun) : (s.setGrid k g).losses = s.losses := rfl
@[simp] theorem State.setGrid_nextNode (s : State) (k : Nat) (g : GridRun) : (s.setGrid k g).nextNode = s.nextNode := rfl
@[simp] theorem State.setGrid_agenda (s : State) (k : Nat) (g : GridRun) : (s.setGrid k g).agenda = s.agenda := rfl
@[simp] theorem State.setGrid_cue (s : State) (k : Nat) (g : GridRun) : (s.setGrid k g).cue = s.cue := rfl
@[simp] theorem State.setGrid_fresh (s : State) (k : Nat) (g : GridRun) : (s.setGrid k g).fresh = s.fresh := rfl
@[simp] theorem State.setGrid_issuing (s : State) (k : Nat) (g : GridRun) : (s.setGrid k g).issuing = s.issuing := rfl
@[simp] theorem State.setGrid_turn (s : State) (k : Nat) (g : GridRun) : (s.setGrid k g).turn = s.turn := rfl
@[simp] theorem State.setGrid_took (s : State) (k : Nat) (g : GridRun) : (s.setGrid k g).took = s.took := rfl
@[simp] theorem State.setGrid_reselect (s : State) (k : Nat) (g : GridRun) : (s.setGrid k g).reselect = s.reselect := rfl

/-! ## State.modWarp -/

@[simp] theorem State.modWarp_now (s : State) (k : Nat) (f : Warp → Warp) : (s.modWarp k f).now = s.now := rfl
@[simp] theorem State.modWarp_mem (s : State) (k : Nat) (f : Warp → Warp) : (s.modWarp k f).mem = s.mem := rfl
@[simp] theorem State.modWarp_lines (s : State) (k : Nat) (f : Warp → Warp) : (s.modWarp k f).lines = s.lines := rfl
@[simp] theorem State.modWarp_partials (s : State) (k : Nat) (f : Warp → Warp) : (s.modWarp k f).partials = s.partials := rfl
@[simp] theorem State.modWarp_cores (s : State) (k : Nat) (f : Warp → Warp) : (s.modWarp k f).cores = s.cores := rfl
@[simp] theorem State.modWarp_dies (s : State) (k : Nat) (f : Warp → Warp) : (s.modWarp k f).dies = s.dies := rfl
@[simp] theorem State.modWarp_blocks (s : State) (k : Nat) (f : Warp → Warp) : (s.modWarp k f).blocks = s.blocks := rfl
@[simp] theorem State.modWarp_grids (s : State) (k : Nat) (f : Warp → Warp) : (s.modWarp k f).grids = s.grids := rfl
@[simp] theorem State.modWarp_drafts (s : State) (k : Nat) (f : Warp → Warp) : (s.modWarp k f).drafts = s.drafts := rfl
@[simp] theorem State.modWarp_chips (s : State) (k : Nat) (f : Warp → Warp) : (s.modWarp k f).chips = s.chips := rfl
@[simp] theorem State.modWarp_mirrors (s : State) (k : Nat) (f : Warp → Warp) : (s.modWarp k f).mirrors = s.mirrors := rfl
@[simp] theorem State.modWarp_copyRoots (s : State) (k : Nat) (f : Warp → Warp) : (s.modWarp k f).copyRoots = s.copyRoots := rfl
@[simp] theorem State.modWarp_ghosts (s : State) (k : Nat) (f : Warp → Warp) : (s.modWarp k f).ghosts = s.ghosts := rfl
@[simp] theorem State.modWarp_cfg (s : State) (k : Nat) (f : Warp → Warp) : (s.modWarp k f).cfg = s.cfg := rfl
@[simp] theorem State.modWarp_colls (s : State) (k : Nat) (f : Warp → Warp) : (s.modWarp k f).colls = s.colls := rfl
@[simp] theorem State.modWarp_homesAt (s : State) (k : Nat) (f : Warp → Warp) : (s.modWarp k f).homesAt = s.homesAt := rfl
@[simp] theorem State.modWarp_losses (s : State) (k : Nat) (f : Warp → Warp) : (s.modWarp k f).losses = s.losses := rfl
@[simp] theorem State.modWarp_nextNode (s : State) (k : Nat) (f : Warp → Warp) : (s.modWarp k f).nextNode = s.nextNode := rfl
@[simp] theorem State.modWarp_agenda (s : State) (k : Nat) (f : Warp → Warp) : (s.modWarp k f).agenda = s.agenda := rfl
@[simp] theorem State.modWarp_cue (s : State) (k : Nat) (f : Warp → Warp) : (s.modWarp k f).cue = s.cue := rfl
@[simp] theorem State.modWarp_fresh (s : State) (k : Nat) (f : Warp → Warp) : (s.modWarp k f).fresh = s.fresh := rfl
@[simp] theorem State.modWarp_issuing (s : State) (k : Nat) (f : Warp → Warp) : (s.modWarp k f).issuing = s.issuing := rfl
@[simp] theorem State.modWarp_turn (s : State) (k : Nat) (f : Warp → Warp) : (s.modWarp k f).turn = s.turn := rfl
@[simp] theorem State.modWarp_took (s : State) (k : Nat) (f : Warp → Warp) : (s.modWarp k f).took = s.took := rfl
@[simp] theorem State.modWarp_reselect (s : State) (k : Nat) (f : Warp → Warp) : (s.modWarp k f).reselect = s.reselect := rfl

/-! ## State.modBlock -/

@[simp] theorem State.modBlock_now (s : State) (k : Nat) (f : Block → Block) : (s.modBlock k f).now = s.now := rfl
@[simp] theorem State.modBlock_mem (s : State) (k : Nat) (f : Block → Block) : (s.modBlock k f).mem = s.mem := rfl
@[simp] theorem State.modBlock_lines (s : State) (k : Nat) (f : Block → Block) : (s.modBlock k f).lines = s.lines := rfl
@[simp] theorem State.modBlock_partials (s : State) (k : Nat) (f : Block → Block) : (s.modBlock k f).partials = s.partials := rfl
@[simp] theorem State.modBlock_cores (s : State) (k : Nat) (f : Block → Block) : (s.modBlock k f).cores = s.cores := rfl
@[simp] theorem State.modBlock_dies (s : State) (k : Nat) (f : Block → Block) : (s.modBlock k f).dies = s.dies := rfl
@[simp] theorem State.modBlock_warps (s : State) (k : Nat) (f : Block → Block) : (s.modBlock k f).warps = s.warps := rfl
@[simp] theorem State.modBlock_grids (s : State) (k : Nat) (f : Block → Block) : (s.modBlock k f).grids = s.grids := rfl
@[simp] theorem State.modBlock_drafts (s : State) (k : Nat) (f : Block → Block) : (s.modBlock k f).drafts = s.drafts := rfl
@[simp] theorem State.modBlock_chips (s : State) (k : Nat) (f : Block → Block) : (s.modBlock k f).chips = s.chips := rfl
@[simp] theorem State.modBlock_mirrors (s : State) (k : Nat) (f : Block → Block) : (s.modBlock k f).mirrors = s.mirrors := rfl
@[simp] theorem State.modBlock_copyRoots (s : State) (k : Nat) (f : Block → Block) : (s.modBlock k f).copyRoots = s.copyRoots := rfl
@[simp] theorem State.modBlock_ghosts (s : State) (k : Nat) (f : Block → Block) : (s.modBlock k f).ghosts = s.ghosts := rfl
@[simp] theorem State.modBlock_cfg (s : State) (k : Nat) (f : Block → Block) : (s.modBlock k f).cfg = s.cfg := rfl
@[simp] theorem State.modBlock_colls (s : State) (k : Nat) (f : Block → Block) : (s.modBlock k f).colls = s.colls := rfl
@[simp] theorem State.modBlock_homesAt (s : State) (k : Nat) (f : Block → Block) : (s.modBlock k f).homesAt = s.homesAt := rfl
@[simp] theorem State.modBlock_losses (s : State) (k : Nat) (f : Block → Block) : (s.modBlock k f).losses = s.losses := rfl
@[simp] theorem State.modBlock_nextNode (s : State) (k : Nat) (f : Block → Block) : (s.modBlock k f).nextNode = s.nextNode := rfl
@[simp] theorem State.modBlock_agenda (s : State) (k : Nat) (f : Block → Block) : (s.modBlock k f).agenda = s.agenda := rfl
@[simp] theorem State.modBlock_cue (s : State) (k : Nat) (f : Block → Block) : (s.modBlock k f).cue = s.cue := rfl
@[simp] theorem State.modBlock_fresh (s : State) (k : Nat) (f : Block → Block) : (s.modBlock k f).fresh = s.fresh := rfl
@[simp] theorem State.modBlock_issuing (s : State) (k : Nat) (f : Block → Block) : (s.modBlock k f).issuing = s.issuing := rfl
@[simp] theorem State.modBlock_turn (s : State) (k : Nat) (f : Block → Block) : (s.modBlock k f).turn = s.turn := rfl
@[simp] theorem State.modBlock_took (s : State) (k : Nat) (f : Block → Block) : (s.modBlock k f).took = s.took := rfl
@[simp] theorem State.modBlock_reselect (s : State) (k : Nat) (f : Block → Block) : (s.modBlock k f).reselect = s.reselect := rfl

/-! ## State.modCore -/

@[simp] theorem State.modCore_now (s : State) (k : Nat) (f : Core → Core) : (s.modCore k f).now = s.now := rfl
@[simp] theorem State.modCore_mem (s : State) (k : Nat) (f : Core → Core) : (s.modCore k f).mem = s.mem := rfl
@[simp] theorem State.modCore_lines (s : State) (k : Nat) (f : Core → Core) : (s.modCore k f).lines = s.lines := rfl
@[simp] theorem State.modCore_partials (s : State) (k : Nat) (f : Core → Core) : (s.modCore k f).partials = s.partials := rfl
@[simp] theorem State.modCore_dies (s : State) (k : Nat) (f : Core → Core) : (s.modCore k f).dies = s.dies := rfl
@[simp] theorem State.modCore_blocks (s : State) (k : Nat) (f : Core → Core) : (s.modCore k f).blocks = s.blocks := rfl
@[simp] theorem State.modCore_warps (s : State) (k : Nat) (f : Core → Core) : (s.modCore k f).warps = s.warps := rfl
@[simp] theorem State.modCore_grids (s : State) (k : Nat) (f : Core → Core) : (s.modCore k f).grids = s.grids := rfl
@[simp] theorem State.modCore_drafts (s : State) (k : Nat) (f : Core → Core) : (s.modCore k f).drafts = s.drafts := rfl
@[simp] theorem State.modCore_chips (s : State) (k : Nat) (f : Core → Core) : (s.modCore k f).chips = s.chips := rfl
@[simp] theorem State.modCore_mirrors (s : State) (k : Nat) (f : Core → Core) : (s.modCore k f).mirrors = s.mirrors := rfl
@[simp] theorem State.modCore_copyRoots (s : State) (k : Nat) (f : Core → Core) : (s.modCore k f).copyRoots = s.copyRoots := rfl
@[simp] theorem State.modCore_ghosts (s : State) (k : Nat) (f : Core → Core) : (s.modCore k f).ghosts = s.ghosts := rfl
@[simp] theorem State.modCore_cfg (s : State) (k : Nat) (f : Core → Core) : (s.modCore k f).cfg = s.cfg := rfl
@[simp] theorem State.modCore_colls (s : State) (k : Nat) (f : Core → Core) : (s.modCore k f).colls = s.colls := rfl
@[simp] theorem State.modCore_homesAt (s : State) (k : Nat) (f : Core → Core) : (s.modCore k f).homesAt = s.homesAt := rfl
@[simp] theorem State.modCore_losses (s : State) (k : Nat) (f : Core → Core) : (s.modCore k f).losses = s.losses := rfl
@[simp] theorem State.modCore_nextNode (s : State) (k : Nat) (f : Core → Core) : (s.modCore k f).nextNode = s.nextNode := rfl
@[simp] theorem State.modCore_agenda (s : State) (k : Nat) (f : Core → Core) : (s.modCore k f).agenda = s.agenda := rfl
@[simp] theorem State.modCore_cue (s : State) (k : Nat) (f : Core → Core) : (s.modCore k f).cue = s.cue := rfl
@[simp] theorem State.modCore_fresh (s : State) (k : Nat) (f : Core → Core) : (s.modCore k f).fresh = s.fresh := rfl
@[simp] theorem State.modCore_issuing (s : State) (k : Nat) (f : Core → Core) : (s.modCore k f).issuing = s.issuing := rfl
@[simp] theorem State.modCore_turn (s : State) (k : Nat) (f : Core → Core) : (s.modCore k f).turn = s.turn := rfl
@[simp] theorem State.modCore_took (s : State) (k : Nat) (f : Core → Core) : (s.modCore k f).took = s.took := rfl
@[simp] theorem State.modCore_reselect (s : State) (k : Nat) (f : Core → Core) : (s.modCore k f).reselect = s.reselect := rfl

/-! ## State.modDie -/

@[simp] theorem State.modDie_now (s : State) (k : Nat) (f : Die → Die) : (s.modDie k f).now = s.now := rfl
@[simp] theorem State.modDie_mem (s : State) (k : Nat) (f : Die → Die) : (s.modDie k f).mem = s.mem := rfl
@[simp] theorem State.modDie_lines (s : State) (k : Nat) (f : Die → Die) : (s.modDie k f).lines = s.lines := rfl
@[simp] theorem State.modDie_partials (s : State) (k : Nat) (f : Die → Die) : (s.modDie k f).partials = s.partials := rfl
@[simp] theorem State.modDie_cores (s : State) (k : Nat) (f : Die → Die) : (s.modDie k f).cores = s.cores := rfl
@[simp] theorem State.modDie_blocks (s : State) (k : Nat) (f : Die → Die) : (s.modDie k f).blocks = s.blocks := rfl
@[simp] theorem State.modDie_warps (s : State) (k : Nat) (f : Die → Die) : (s.modDie k f).warps = s.warps := rfl
@[simp] theorem State.modDie_grids (s : State) (k : Nat) (f : Die → Die) : (s.modDie k f).grids = s.grids := rfl
@[simp] theorem State.modDie_drafts (s : State) (k : Nat) (f : Die → Die) : (s.modDie k f).drafts = s.drafts := rfl
@[simp] theorem State.modDie_chips (s : State) (k : Nat) (f : Die → Die) : (s.modDie k f).chips = s.chips := rfl
@[simp] theorem State.modDie_mirrors (s : State) (k : Nat) (f : Die → Die) : (s.modDie k f).mirrors = s.mirrors := rfl
@[simp] theorem State.modDie_copyRoots (s : State) (k : Nat) (f : Die → Die) : (s.modDie k f).copyRoots = s.copyRoots := rfl
@[simp] theorem State.modDie_ghosts (s : State) (k : Nat) (f : Die → Die) : (s.modDie k f).ghosts = s.ghosts := rfl
@[simp] theorem State.modDie_cfg (s : State) (k : Nat) (f : Die → Die) : (s.modDie k f).cfg = s.cfg := rfl
@[simp] theorem State.modDie_colls (s : State) (k : Nat) (f : Die → Die) : (s.modDie k f).colls = s.colls := rfl
@[simp] theorem State.modDie_homesAt (s : State) (k : Nat) (f : Die → Die) : (s.modDie k f).homesAt = s.homesAt := rfl
@[simp] theorem State.modDie_losses (s : State) (k : Nat) (f : Die → Die) : (s.modDie k f).losses = s.losses := rfl
@[simp] theorem State.modDie_nextNode (s : State) (k : Nat) (f : Die → Die) : (s.modDie k f).nextNode = s.nextNode := rfl
@[simp] theorem State.modDie_agenda (s : State) (k : Nat) (f : Die → Die) : (s.modDie k f).agenda = s.agenda := rfl
@[simp] theorem State.modDie_cue (s : State) (k : Nat) (f : Die → Die) : (s.modDie k f).cue = s.cue := rfl
@[simp] theorem State.modDie_fresh (s : State) (k : Nat) (f : Die → Die) : (s.modDie k f).fresh = s.fresh := rfl
@[simp] theorem State.modDie_issuing (s : State) (k : Nat) (f : Die → Die) : (s.modDie k f).issuing = s.issuing := rfl
@[simp] theorem State.modDie_turn (s : State) (k : Nat) (f : Die → Die) : (s.modDie k f).turn = s.turn := rfl
@[simp] theorem State.modDie_took (s : State) (k : Nat) (f : Die → Die) : (s.modDie k f).took = s.took := rfl
@[simp] theorem State.modDie_reselect (s : State) (k : Nat) (f : Die → Die) : (s.modDie k f).reselect = s.reselect := rfl

/-! ## State.modChip -/

@[simp] theorem State.modChip_now (s : State) (k : Nat) (f : Chip → Chip) : (s.modChip k f).now = s.now := rfl
@[simp] theorem State.modChip_mem (s : State) (k : Nat) (f : Chip → Chip) : (s.modChip k f).mem = s.mem := rfl
@[simp] theorem State.modChip_lines (s : State) (k : Nat) (f : Chip → Chip) : (s.modChip k f).lines = s.lines := rfl
@[simp] theorem State.modChip_partials (s : State) (k : Nat) (f : Chip → Chip) : (s.modChip k f).partials = s.partials := rfl
@[simp] theorem State.modChip_cores (s : State) (k : Nat) (f : Chip → Chip) : (s.modChip k f).cores = s.cores := rfl
@[simp] theorem State.modChip_dies (s : State) (k : Nat) (f : Chip → Chip) : (s.modChip k f).dies = s.dies := rfl
@[simp] theorem State.modChip_blocks (s : State) (k : Nat) (f : Chip → Chip) : (s.modChip k f).blocks = s.blocks := rfl
@[simp] theorem State.modChip_warps (s : State) (k : Nat) (f : Chip → Chip) : (s.modChip k f).warps = s.warps := rfl
@[simp] theorem State.modChip_grids (s : State) (k : Nat) (f : Chip → Chip) : (s.modChip k f).grids = s.grids := rfl
@[simp] theorem State.modChip_drafts (s : State) (k : Nat) (f : Chip → Chip) : (s.modChip k f).drafts = s.drafts := rfl
@[simp] theorem State.modChip_mirrors (s : State) (k : Nat) (f : Chip → Chip) : (s.modChip k f).mirrors = s.mirrors := rfl
@[simp] theorem State.modChip_copyRoots (s : State) (k : Nat) (f : Chip → Chip) : (s.modChip k f).copyRoots = s.copyRoots := rfl
@[simp] theorem State.modChip_ghosts (s : State) (k : Nat) (f : Chip → Chip) : (s.modChip k f).ghosts = s.ghosts := rfl
@[simp] theorem State.modChip_cfg (s : State) (k : Nat) (f : Chip → Chip) : (s.modChip k f).cfg = s.cfg := rfl
@[simp] theorem State.modChip_colls (s : State) (k : Nat) (f : Chip → Chip) : (s.modChip k f).colls = s.colls := rfl
@[simp] theorem State.modChip_homesAt (s : State) (k : Nat) (f : Chip → Chip) : (s.modChip k f).homesAt = s.homesAt := rfl
@[simp] theorem State.modChip_losses (s : State) (k : Nat) (f : Chip → Chip) : (s.modChip k f).losses = s.losses := rfl
@[simp] theorem State.modChip_nextNode (s : State) (k : Nat) (f : Chip → Chip) : (s.modChip k f).nextNode = s.nextNode := rfl
@[simp] theorem State.modChip_agenda (s : State) (k : Nat) (f : Chip → Chip) : (s.modChip k f).agenda = s.agenda := rfl
@[simp] theorem State.modChip_cue (s : State) (k : Nat) (f : Chip → Chip) : (s.modChip k f).cue = s.cue := rfl
@[simp] theorem State.modChip_fresh (s : State) (k : Nat) (f : Chip → Chip) : (s.modChip k f).fresh = s.fresh := rfl
@[simp] theorem State.modChip_issuing (s : State) (k : Nat) (f : Chip → Chip) : (s.modChip k f).issuing = s.issuing := rfl
@[simp] theorem State.modChip_turn (s : State) (k : Nat) (f : Chip → Chip) : (s.modChip k f).turn = s.turn := rfl
@[simp] theorem State.modChip_took (s : State) (k : Nat) (f : Chip → Chip) : (s.modChip k f).took = s.took := rfl
@[simp] theorem State.modChip_reselect (s : State) (k : Nat) (f : Chip → Chip) : (s.modChip k f).reselect = s.reselect := rfl

/-! ## State.modLine -/

@[simp] theorem State.modLine_now (s : State) (k : Nat) (f : HomeLine → HomeLine) : (s.modLine k f).now = s.now := rfl
@[simp] theorem State.modLine_mem (s : State) (k : Nat) (f : HomeLine → HomeLine) : (s.modLine k f).mem = s.mem := rfl
@[simp] theorem State.modLine_partials (s : State) (k : Nat) (f : HomeLine → HomeLine) : (s.modLine k f).partials = s.partials := rfl
@[simp] theorem State.modLine_cores (s : State) (k : Nat) (f : HomeLine → HomeLine) : (s.modLine k f).cores = s.cores := rfl
@[simp] theorem State.modLine_dies (s : State) (k : Nat) (f : HomeLine → HomeLine) : (s.modLine k f).dies = s.dies := rfl
@[simp] theorem State.modLine_blocks (s : State) (k : Nat) (f : HomeLine → HomeLine) : (s.modLine k f).blocks = s.blocks := rfl
@[simp] theorem State.modLine_warps (s : State) (k : Nat) (f : HomeLine → HomeLine) : (s.modLine k f).warps = s.warps := rfl
@[simp] theorem State.modLine_grids (s : State) (k : Nat) (f : HomeLine → HomeLine) : (s.modLine k f).grids = s.grids := rfl
@[simp] theorem State.modLine_drafts (s : State) (k : Nat) (f : HomeLine → HomeLine) : (s.modLine k f).drafts = s.drafts := rfl
@[simp] theorem State.modLine_chips (s : State) (k : Nat) (f : HomeLine → HomeLine) : (s.modLine k f).chips = s.chips := rfl
@[simp] theorem State.modLine_mirrors (s : State) (k : Nat) (f : HomeLine → HomeLine) : (s.modLine k f).mirrors = s.mirrors := rfl
@[simp] theorem State.modLine_copyRoots (s : State) (k : Nat) (f : HomeLine → HomeLine) : (s.modLine k f).copyRoots = s.copyRoots := rfl
@[simp] theorem State.modLine_ghosts (s : State) (k : Nat) (f : HomeLine → HomeLine) : (s.modLine k f).ghosts = s.ghosts := rfl
@[simp] theorem State.modLine_cfg (s : State) (k : Nat) (f : HomeLine → HomeLine) : (s.modLine k f).cfg = s.cfg := rfl
@[simp] theorem State.modLine_colls (s : State) (k : Nat) (f : HomeLine → HomeLine) : (s.modLine k f).colls = s.colls := rfl
@[simp] theorem State.modLine_homesAt (s : State) (k : Nat) (f : HomeLine → HomeLine) : (s.modLine k f).homesAt = s.homesAt := rfl
@[simp] theorem State.modLine_losses (s : State) (k : Nat) (f : HomeLine → HomeLine) : (s.modLine k f).losses = s.losses := rfl
@[simp] theorem State.modLine_nextNode (s : State) (k : Nat) (f : HomeLine → HomeLine) : (s.modLine k f).nextNode = s.nextNode := rfl
@[simp] theorem State.modLine_agenda (s : State) (k : Nat) (f : HomeLine → HomeLine) : (s.modLine k f).agenda = s.agenda := rfl
@[simp] theorem State.modLine_cue (s : State) (k : Nat) (f : HomeLine → HomeLine) : (s.modLine k f).cue = s.cue := rfl
@[simp] theorem State.modLine_fresh (s : State) (k : Nat) (f : HomeLine → HomeLine) : (s.modLine k f).fresh = s.fresh := rfl
@[simp] theorem State.modLine_issuing (s : State) (k : Nat) (f : HomeLine → HomeLine) : (s.modLine k f).issuing = s.issuing := rfl
@[simp] theorem State.modLine_turn (s : State) (k : Nat) (f : HomeLine → HomeLine) : (s.modLine k f).turn = s.turn := rfl
@[simp] theorem State.modLine_took (s : State) (k : Nat) (f : HomeLine → HomeLine) : (s.modLine k f).took = s.took := rfl
@[simp] theorem State.modLine_reselect (s : State) (k : Nat) (f : HomeLine → HomeLine) : (s.modLine k f).reselect = s.reselect := rfl

/-! ## State.modGrid -/

@[simp] theorem State.modGrid_now (s : State) (k : Nat) (f : GridRun → GridRun) : (s.modGrid k f).now = s.now := rfl
@[simp] theorem State.modGrid_mem (s : State) (k : Nat) (f : GridRun → GridRun) : (s.modGrid k f).mem = s.mem := rfl
@[simp] theorem State.modGrid_lines (s : State) (k : Nat) (f : GridRun → GridRun) : (s.modGrid k f).lines = s.lines := rfl
@[simp] theorem State.modGrid_partials (s : State) (k : Nat) (f : GridRun → GridRun) : (s.modGrid k f).partials = s.partials := rfl
@[simp] theorem State.modGrid_cores (s : State) (k : Nat) (f : GridRun → GridRun) : (s.modGrid k f).cores = s.cores := rfl
@[simp] theorem State.modGrid_dies (s : State) (k : Nat) (f : GridRun → GridRun) : (s.modGrid k f).dies = s.dies := rfl
@[simp] theorem State.modGrid_blocks (s : State) (k : Nat) (f : GridRun → GridRun) : (s.modGrid k f).blocks = s.blocks := rfl
@[simp] theorem State.modGrid_warps (s : State) (k : Nat) (f : GridRun → GridRun) : (s.modGrid k f).warps = s.warps := rfl
@[simp] theorem State.modGrid_drafts (s : State) (k : Nat) (f : GridRun → GridRun) : (s.modGrid k f).drafts = s.drafts := rfl
@[simp] theorem State.modGrid_chips (s : State) (k : Nat) (f : GridRun → GridRun) : (s.modGrid k f).chips = s.chips := rfl
@[simp] theorem State.modGrid_mirrors (s : State) (k : Nat) (f : GridRun → GridRun) : (s.modGrid k f).mirrors = s.mirrors := rfl
@[simp] theorem State.modGrid_copyRoots (s : State) (k : Nat) (f : GridRun → GridRun) : (s.modGrid k f).copyRoots = s.copyRoots := rfl
@[simp] theorem State.modGrid_ghosts (s : State) (k : Nat) (f : GridRun → GridRun) : (s.modGrid k f).ghosts = s.ghosts := rfl
@[simp] theorem State.modGrid_cfg (s : State) (k : Nat) (f : GridRun → GridRun) : (s.modGrid k f).cfg = s.cfg := rfl
@[simp] theorem State.modGrid_colls (s : State) (k : Nat) (f : GridRun → GridRun) : (s.modGrid k f).colls = s.colls := rfl
@[simp] theorem State.modGrid_homesAt (s : State) (k : Nat) (f : GridRun → GridRun) : (s.modGrid k f).homesAt = s.homesAt := rfl
@[simp] theorem State.modGrid_losses (s : State) (k : Nat) (f : GridRun → GridRun) : (s.modGrid k f).losses = s.losses := rfl
@[simp] theorem State.modGrid_nextNode (s : State) (k : Nat) (f : GridRun → GridRun) : (s.modGrid k f).nextNode = s.nextNode := rfl
@[simp] theorem State.modGrid_agenda (s : State) (k : Nat) (f : GridRun → GridRun) : (s.modGrid k f).agenda = s.agenda := rfl
@[simp] theorem State.modGrid_cue (s : State) (k : Nat) (f : GridRun → GridRun) : (s.modGrid k f).cue = s.cue := rfl
@[simp] theorem State.modGrid_fresh (s : State) (k : Nat) (f : GridRun → GridRun) : (s.modGrid k f).fresh = s.fresh := rfl
@[simp] theorem State.modGrid_issuing (s : State) (k : Nat) (f : GridRun → GridRun) : (s.modGrid k f).issuing = s.issuing := rfl
@[simp] theorem State.modGrid_turn (s : State) (k : Nat) (f : GridRun → GridRun) : (s.modGrid k f).turn = s.turn := rfl
@[simp] theorem State.modGrid_took (s : State) (k : Nat) (f : GridRun → GridRun) : (s.modGrid k f).took = s.took := rfl
@[simp] theorem State.modGrid_reselect (s : State) (k : Nat) (f : GridRun → GridRun) : (s.modGrid k f).reselect = s.reselect := rfl

/-! ## State.send and State.counted -/

@[simp] theorem State.send_now (s : State) (ev : Instr) (c : Cue) : (s.send ev c).now = s.now := rfl
@[simp] theorem State.sendOnce_now (s : State) (ev : Instr) (c : Cue) : (s.sendOnce ev c).now = s.now := by
  unfold State.sendOnce; split <;> rfl
@[simp] theorem State.counted_now (s : State) : s.counted.now = s.now := rfl
@[simp] theorem State.send_mem (s : State) (ev : Instr) (c : Cue) : (s.send ev c).mem = s.mem := rfl
@[simp] theorem State.sendOnce_mem (s : State) (ev : Instr) (c : Cue) : (s.sendOnce ev c).mem = s.mem := by
  unfold State.sendOnce; split <;> rfl
@[simp] theorem State.counted_mem (s : State) : s.counted.mem = s.mem := rfl
@[simp] theorem State.send_lines (s : State) (ev : Instr) (c : Cue) : (s.send ev c).lines = s.lines := rfl
@[simp] theorem State.sendOnce_lines (s : State) (ev : Instr) (c : Cue) : (s.sendOnce ev c).lines = s.lines := by
  unfold State.sendOnce; split <;> rfl
@[simp] theorem State.counted_lines (s : State) : s.counted.lines = s.lines := rfl
@[simp] theorem State.send_partials (s : State) (ev : Instr) (c : Cue) : (s.send ev c).partials = s.partials := rfl
@[simp] theorem State.sendOnce_partials (s : State) (ev : Instr) (c : Cue) : (s.sendOnce ev c).partials = s.partials := by
  unfold State.sendOnce; split <;> rfl
@[simp] theorem State.counted_partials (s : State) : s.counted.partials = s.partials := rfl
@[simp] theorem State.send_cores (s : State) (ev : Instr) (c : Cue) : (s.send ev c).cores = s.cores := rfl
@[simp] theorem State.sendOnce_cores (s : State) (ev : Instr) (c : Cue) : (s.sendOnce ev c).cores = s.cores := by
  unfold State.sendOnce; split <;> rfl
@[simp] theorem State.counted_cores (s : State) : s.counted.cores = s.cores := rfl
@[simp] theorem State.send_dies (s : State) (ev : Instr) (c : Cue) : (s.send ev c).dies = s.dies := rfl
@[simp] theorem State.sendOnce_dies (s : State) (ev : Instr) (c : Cue) : (s.sendOnce ev c).dies = s.dies := by
  unfold State.sendOnce; split <;> rfl
@[simp] theorem State.counted_dies (s : State) : s.counted.dies = s.dies := rfl
@[simp] theorem State.send_blocks (s : State) (ev : Instr) (c : Cue) : (s.send ev c).blocks = s.blocks := rfl
@[simp] theorem State.sendOnce_blocks (s : State) (ev : Instr) (c : Cue) : (s.sendOnce ev c).blocks = s.blocks := by
  unfold State.sendOnce; split <;> rfl
@[simp] theorem State.counted_blocks (s : State) : s.counted.blocks = s.blocks := rfl
@[simp] theorem State.send_warps (s : State) (ev : Instr) (c : Cue) : (s.send ev c).warps = s.warps := rfl
@[simp] theorem State.sendOnce_warps (s : State) (ev : Instr) (c : Cue) : (s.sendOnce ev c).warps = s.warps := by
  unfold State.sendOnce; split <;> rfl
@[simp] theorem State.counted_warps (s : State) : s.counted.warps = s.warps := rfl
@[simp] theorem State.send_grids (s : State) (ev : Instr) (c : Cue) : (s.send ev c).grids = s.grids := rfl
@[simp] theorem State.sendOnce_grids (s : State) (ev : Instr) (c : Cue) : (s.sendOnce ev c).grids = s.grids := by
  unfold State.sendOnce; split <;> rfl
@[simp] theorem State.counted_grids (s : State) : s.counted.grids = s.grids := rfl
@[simp] theorem State.send_drafts (s : State) (ev : Instr) (c : Cue) : (s.send ev c).drafts = s.drafts := rfl
@[simp] theorem State.sendOnce_drafts (s : State) (ev : Instr) (c : Cue) : (s.sendOnce ev c).drafts = s.drafts := by
  unfold State.sendOnce; split <;> rfl
@[simp] theorem State.counted_drafts (s : State) : s.counted.drafts = s.drafts := rfl
@[simp] theorem State.send_chips (s : State) (ev : Instr) (c : Cue) : (s.send ev c).chips = s.chips := rfl
@[simp] theorem State.sendOnce_chips (s : State) (ev : Instr) (c : Cue) : (s.sendOnce ev c).chips = s.chips := by
  unfold State.sendOnce; split <;> rfl
@[simp] theorem State.counted_chips (s : State) : s.counted.chips = s.chips := rfl
@[simp] theorem State.send_mirrors (s : State) (ev : Instr) (c : Cue) : (s.send ev c).mirrors = s.mirrors := rfl
@[simp] theorem State.sendOnce_mirrors (s : State) (ev : Instr) (c : Cue) : (s.sendOnce ev c).mirrors = s.mirrors := by
  unfold State.sendOnce; split <;> rfl
@[simp] theorem State.counted_mirrors (s : State) : s.counted.mirrors = s.mirrors := rfl
@[simp] theorem State.send_copyRoots (s : State) (ev : Instr) (c : Cue) : (s.send ev c).copyRoots = s.copyRoots := rfl
@[simp] theorem State.sendOnce_copyRoots (s : State) (ev : Instr) (c : Cue) : (s.sendOnce ev c).copyRoots = s.copyRoots := by
  unfold State.sendOnce; split <;> rfl
@[simp] theorem State.counted_copyRoots (s : State) : s.counted.copyRoots = s.copyRoots := rfl
@[simp] theorem State.send_ghosts (s : State) (ev : Instr) (c : Cue) : (s.send ev c).ghosts = s.ghosts := rfl
@[simp] theorem State.sendOnce_ghosts (s : State) (ev : Instr) (c : Cue) : (s.sendOnce ev c).ghosts = s.ghosts := by
  unfold State.sendOnce; split <;> rfl
@[simp] theorem State.counted_ghosts (s : State) : s.counted.ghosts = s.ghosts := rfl
@[simp] theorem State.send_cfg (s : State) (ev : Instr) (c : Cue) : (s.send ev c).cfg = s.cfg := rfl
@[simp] theorem State.sendOnce_cfg (s : State) (ev : Instr) (c : Cue) : (s.sendOnce ev c).cfg = s.cfg := by
  unfold State.sendOnce; split <;> rfl
@[simp] theorem State.counted_cfg (s : State) : s.counted.cfg = s.cfg := rfl
@[simp] theorem State.send_colls (s : State) (ev : Instr) (c : Cue) : (s.send ev c).colls = s.colls := rfl
@[simp] theorem State.sendOnce_colls (s : State) (ev : Instr) (c : Cue) : (s.sendOnce ev c).colls = s.colls := by
  unfold State.sendOnce; split <;> rfl
@[simp] theorem State.counted_colls (s : State) : s.counted.colls = s.colls := rfl
@[simp] theorem State.send_homesAt (s : State) (ev : Instr) (c : Cue) : (s.send ev c).homesAt = s.homesAt := rfl
@[simp] theorem State.sendOnce_homesAt (s : State) (ev : Instr) (c : Cue) : (s.sendOnce ev c).homesAt = s.homesAt := by
  unfold State.sendOnce; split <;> rfl
@[simp] theorem State.counted_homesAt (s : State) : s.counted.homesAt = s.homesAt := rfl
@[simp] theorem State.send_losses (s : State) (ev : Instr) (c : Cue) : (s.send ev c).losses = s.losses := rfl
@[simp] theorem State.sendOnce_losses (s : State) (ev : Instr) (c : Cue) : (s.sendOnce ev c).losses = s.losses := by
  unfold State.sendOnce; split <;> rfl
@[simp] theorem State.counted_losses (s : State) : s.counted.losses = s.losses := rfl
@[simp] theorem State.send_nextNode (s : State) (ev : Instr) (c : Cue) : (s.send ev c).nextNode = s.nextNode := rfl
@[simp] theorem State.sendOnce_nextNode (s : State) (ev : Instr) (c : Cue) : (s.sendOnce ev c).nextNode = s.nextNode := by
  unfold State.sendOnce; split <;> rfl
@[simp] theorem State.counted_nextNode (s : State) : s.counted.nextNode = s.nextNode := rfl
@[simp] theorem State.counted_agenda (s : State) : s.counted.agenda = s.agenda := rfl
@[simp] theorem State.send_cue (s : State) (ev : Instr) (c : Cue) : (s.send ev c).cue = s.cue := rfl
@[simp] theorem State.sendOnce_cue (s : State) (ev : Instr) (c : Cue) : (s.sendOnce ev c).cue = s.cue := by
  unfold State.sendOnce; split <;> rfl
@[simp] theorem State.counted_cue (s : State) : s.counted.cue = s.cue := rfl
@[simp] theorem State.send_issuing (s : State) (ev : Instr) (c : Cue) : (s.send ev c).issuing = s.issuing := rfl
@[simp] theorem State.sendOnce_issuing (s : State) (ev : Instr) (c : Cue) : (s.sendOnce ev c).issuing = s.issuing := by
  unfold State.sendOnce; split <;> rfl
@[simp] theorem State.counted_issuing (s : State) : s.counted.issuing = s.issuing := rfl
@[simp] theorem State.send_turn (s : State) (ev : Instr) (c : Cue) : (s.send ev c).turn = s.turn := rfl
@[simp] theorem State.sendOnce_turn (s : State) (ev : Instr) (c : Cue) : (s.sendOnce ev c).turn = s.turn := by
  unfold State.sendOnce; split <;> rfl
@[simp] theorem State.counted_turn (s : State) : s.counted.turn = s.turn := rfl
@[simp] theorem State.send_took (s : State) (ev : Instr) (c : Cue) : (s.send ev c).took = s.took := rfl
@[simp] theorem State.sendOnce_took (s : State) (ev : Instr) (c : Cue) : (s.sendOnce ev c).took = s.took := by
  unfold State.sendOnce; split <;> rfl
@[simp] theorem State.counted_took (s : State) : s.counted.took = s.took := rfl
@[simp] theorem State.send_reselect (s : State) (ev : Instr) (c : Cue) : (s.send ev c).reselect = s.reselect := rfl
@[simp] theorem State.sendOnce_reselect (s : State) (ev : Instr) (c : Cue) : (s.sendOnce ev c).reselect = s.reselect := by
  unfold State.sendOnce; split <;> rfl
@[simp] theorem State.counted_reselect (s : State) : s.counted.reselect = s.reselect := rfl

@[simp] theorem State.counted_fresh (s : State) : s.counted.fresh = s.fresh + 1 := rfl
@[simp] theorem State.send_fresh (s : State) (ev : Instr) (c : Cue) : (s.send ev c).fresh = s.fresh + 1 := rfl
@[simp] theorem State.send_agenda (s : State) (ev : Instr) (c : Cue) :
    (s.send ev c).agenda = s.agenda ++ [{ wait := Config.latency s.fresh, ev := ev, cue := c }] := rfl

/-! ## Lookups -/

@[simp] theorem State.setWarp_warp_same (s : State) (k : Nat) (x : Warp) : (s.setWarp k x).warp? k = some x := by
  simp [State.warp?, State.setWarp]
theorem State.setWarp_warp_other (s : State) (k k' : Nat) (x : Warp) (h : k' ≠ k) : (s.setWarp k x).warp? k' = s.warp? k' :=
  tabLook_tabPut_other _ _ _ _ h
@[simp] theorem State.modWarp_warp_same (s : State) (k : Nat) (f : Warp → Warp) : (s.modWarp k f).warp? k = (s.warp? k).map f := by
  simp [State.warp?, State.modWarp]
theorem State.modWarp_warp_other (s : State) (k k' : Nat) (f : Warp → Warp) (h : k' ≠ k) : (s.modWarp k f).warp? k' = s.warp? k' :=
  tabLook_tabUpd_other _ _ _ _ h
@[simp] theorem State.setBlock_block_same (s : State) (k : Nat) (x : Block) : (s.setBlock k x).block? k = some x := by
  simp [State.block?, State.setBlock]
theorem State.setBlock_block_other (s : State) (k k' : Nat) (x : Block) (h : k' ≠ k) : (s.setBlock k x).block? k' = s.block? k' :=
  tabLook_tabPut_other _ _ _ _ h
@[simp] theorem State.modBlock_block_same (s : State) (k : Nat) (f : Block → Block) : (s.modBlock k f).block? k = (s.block? k).map f := by
  simp [State.block?, State.modBlock]
theorem State.modBlock_block_other (s : State) (k k' : Nat) (f : Block → Block) (h : k' ≠ k) : (s.modBlock k f).block? k' = s.block? k' :=
  tabLook_tabUpd_other _ _ _ _ h
@[simp] theorem State.setGrid_grid_same (s : State) (k : Nat) (x : GridRun) : (s.setGrid k x).grid? k = some x := by
  simp [State.grid?, State.setGrid]
theorem State.setGrid_grid_other (s : State) (k k' : Nat) (x : GridRun) (h : k' ≠ k) : (s.setGrid k x).grid? k' = s.grid? k' :=
  tabLook_tabPut_other _ _ _ _ h
@[simp] theorem State.modGrid_grid_same (s : State) (k : Nat) (f : GridRun → GridRun) : (s.modGrid k f).grid? k = (s.grid? k).map f := by
  simp [State.grid?, State.modGrid]
theorem State.modGrid_grid_other (s : State) (k k' : Nat) (f : GridRun → GridRun) (h : k' ≠ k) : (s.modGrid k f).grid? k' = s.grid? k' :=
  tabLook_tabUpd_other _ _ _ _ h
@[simp] theorem State.setCore_core_same (s : State) (k : Nat) (x : Core) : (s.setCore k x).core k = x := by
  simp [State.core, State.setCore]
theorem State.setCore_core_other (s : State) (k k' : Nat) (x : Core) (h : k' ≠ k) : (s.setCore k x).core k' = s.core k' := by
  simp [State.core, State.setCore, tabLook_tabPut_other _ _ _ _ h]
@[simp] theorem State.modCore_core_same (s : State) (k : Nat) (f : Core → Core) : (s.modCore k f).core k = f (s.core k) := by
  simp [State.modCore]
theorem State.modCore_core_other (s : State) (k k' : Nat) (f : Core → Core) (h : k' ≠ k) : (s.modCore k f).core k' = s.core k' :=
  State.setCore_core_other _ _ _ _ h
@[simp] theorem State.setDie_die_same (s : State) (k : Nat) (x : Die) : (s.setDie k x).die k = x := by
  simp [State.die, State.setDie]
theorem State.setDie_die_other (s : State) (k k' : Nat) (x : Die) (h : k' ≠ k) : (s.setDie k x).die k' = s.die k' := by
  simp [State.die, State.setDie, tabLook_tabPut_other _ _ _ _ h]
@[simp] theorem State.modDie_die_same (s : State) (k : Nat) (f : Die → Die) : (s.modDie k f).die k = f (s.die k) := by
  simp [State.modDie]
theorem State.modDie_die_other (s : State) (k k' : Nat) (f : Die → Die) (h : k' ≠ k) : (s.modDie k f).die k' = s.die k' :=
  State.setDie_die_other _ _ _ _ h
@[simp] theorem State.setChip_chip_same (s : State) (k : Nat) (x : Chip) : (s.setChip k x).chip k = x := by
  simp [State.chip, State.setChip]
theorem State.setChip_chip_other (s : State) (k k' : Nat) (x : Chip) (h : k' ≠ k) : (s.setChip k x).chip k' = s.chip k' := by
  simp [State.chip, State.setChip, tabLook_tabPut_other _ _ _ _ h]
@[simp] theorem State.modChip_chip_same (s : State) (k : Nat) (f : Chip → Chip) : (s.modChip k f).chip k = f (s.chip k) := by
  simp [State.modChip]
theorem State.modChip_chip_other (s : State) (k k' : Nat) (f : Chip → Chip) (h : k' ≠ k) : (s.modChip k f).chip k' = s.chip k' :=
  State.setChip_chip_other _ _ _ _ h
@[simp] theorem State.setLine_line_same (s : State) (k : Nat) (x : HomeLine) : (s.setLine k x).line k = x := by
  simp [State.line, State.setLine]
theorem State.setLine_line_other (s : State) (k k' : Nat) (x : HomeLine) (h : k' ≠ k) : (s.setLine k x).line k' = s.line k' := by
  simp [State.line, State.setLine, tabLook_tabPut_other _ _ _ _ h]
@[simp] theorem State.modLine_line_same (s : State) (k : Nat) (f : HomeLine → HomeLine) : (s.modLine k f).line k = f (s.line k) := by
  simp [State.modLine]
theorem State.modLine_line_other (s : State) (k k' : Nat) (f : HomeLine → HomeLine) (h : k' ≠ k) : (s.modLine k f).line k' = s.line k' :=
  State.setLine_line_other _ _ _ _ h
@[simp] theorem State.setBlock_warp (s : State) (k : Nat) (b : Block) (n : Nat) : (s.setBlock k b).warp? n = s.warp? n := rfl
@[simp] theorem State.setCore_warp (s : State) (k : Nat) (c : Core) (n : Nat) : (s.setCore k c).warp? n = s.warp? n := rfl
@[simp] theorem State.setDie_warp (s : State) (k : Nat) (d : Die) (n : Nat) : (s.setDie k d).warp? n = s.warp? n := rfl
@[simp] theorem State.setChip_warp (s : State) (k : Nat) (c : Chip) (n : Nat) : (s.setChip k c).warp? n = s.warp? n := rfl
@[simp] theorem State.setLine_warp (s : State) (k : Nat) (l : HomeLine) (n : Nat) : (s.setLine k l).warp? n = s.warp? n := rfl
@[simp] theorem State.setGrid_warp (s : State) (k : Nat) (g : GridRun) (n : Nat) : (s.setGrid k g).warp? n = s.warp? n := rfl
@[simp] theorem State.modBlock_warp (s : State) (k : Nat) (f : Block → Block) (n : Nat) : (s.modBlock k f).warp? n = s.warp? n := rfl
@[simp] theorem State.modCore_warp (s : State) (k : Nat) (f : Core → Core) (n : Nat) : (s.modCore k f).warp? n = s.warp? n := rfl
@[simp] theorem State.modDie_warp (s : State) (k : Nat) (f : Die → Die) (n : Nat) : (s.modDie k f).warp? n = s.warp? n := rfl
@[simp] theorem State.modChip_warp (s : State) (k : Nat) (f : Chip → Chip) (n : Nat) : (s.modChip k f).warp? n = s.warp? n := rfl
@[simp] theorem State.modLine_warp (s : State) (k : Nat) (f : HomeLine → HomeLine) (n : Nat) : (s.modLine k f).warp? n = s.warp? n := rfl
@[simp] theorem State.modGrid_warp (s : State) (k : Nat) (f : GridRun → GridRun) (n : Nat) : (s.modGrid k f).warp? n = s.warp? n := rfl
@[simp] theorem State.send_warp (s : State) (ev : Instr) (c : Cue) (n : Nat) : (s.send ev c).warp? n = s.warp? n := rfl
@[simp] theorem State.sendOnce_warp (s : State) (ev : Instr) (c : Cue) (n : Nat) : (s.sendOnce ev c).warp? n = s.warp? n := by
  unfold State.sendOnce; split <;> rfl
@[simp] theorem State.counted_warp (s : State) (n : Nat) : s.counted.warp? n = s.warp? n := rfl
@[simp] theorem State.setWarp_block (s : State) (k : Nat) (w : Warp) (n : Nat) : (s.setWarp k w).block? n = s.block? n := rfl
@[simp] theorem State.setCore_block (s : State) (k : Nat) (c : Core) (n : Nat) : (s.setCore k c).block? n = s.block? n := rfl
@[simp] theorem State.setDie_block (s : State) (k : Nat) (d : Die) (n : Nat) : (s.setDie k d).block? n = s.block? n := rfl
@[simp] theorem State.setChip_block (s : State) (k : Nat) (c : Chip) (n : Nat) : (s.setChip k c).block? n = s.block? n := rfl
@[simp] theorem State.setLine_block (s : State) (k : Nat) (l : HomeLine) (n : Nat) : (s.setLine k l).block? n = s.block? n := rfl
@[simp] theorem State.setGrid_block (s : State) (k : Nat) (g : GridRun) (n : Nat) : (s.setGrid k g).block? n = s.block? n := rfl
@[simp] theorem State.modWarp_block (s : State) (k : Nat) (f : Warp → Warp) (n : Nat) : (s.modWarp k f).block? n = s.block? n := rfl
@[simp] theorem State.modCore_block (s : State) (k : Nat) (f : Core → Core) (n : Nat) : (s.modCore k f).block? n = s.block? n := rfl
@[simp] theorem State.modDie_block (s : State) (k : Nat) (f : Die → Die) (n : Nat) : (s.modDie k f).block? n = s.block? n := rfl
@[simp] theorem State.modChip_block (s : State) (k : Nat) (f : Chip → Chip) (n : Nat) : (s.modChip k f).block? n = s.block? n := rfl
@[simp] theorem State.modLine_block (s : State) (k : Nat) (f : HomeLine → HomeLine) (n : Nat) : (s.modLine k f).block? n = s.block? n := rfl
@[simp] theorem State.modGrid_block (s : State) (k : Nat) (f : GridRun → GridRun) (n : Nat) : (s.modGrid k f).block? n = s.block? n := rfl
@[simp] theorem State.send_block (s : State) (ev : Instr) (c : Cue) (n : Nat) : (s.send ev c).block? n = s.block? n := rfl
@[simp] theorem State.sendOnce_block (s : State) (ev : Instr) (c : Cue) (n : Nat) : (s.sendOnce ev c).block? n = s.block? n := by
  unfold State.sendOnce; split <;> rfl
@[simp] theorem State.counted_block (s : State) (n : Nat) : s.counted.block? n = s.block? n := rfl
@[simp] theorem State.setWarp_grid (s : State) (k : Nat) (w : Warp) (n : Nat) : (s.setWarp k w).grid? n = s.grid? n := rfl
@[simp] theorem State.setBlock_grid (s : State) (k : Nat) (b : Block) (n : Nat) : (s.setBlock k b).grid? n = s.grid? n := rfl
@[simp] theorem State.setCore_grid (s : State) (k : Nat) (c : Core) (n : Nat) : (s.setCore k c).grid? n = s.grid? n := rfl
@[simp] theorem State.setDie_grid (s : State) (k : Nat) (d : Die) (n : Nat) : (s.setDie k d).grid? n = s.grid? n := rfl
@[simp] theorem State.setChip_grid (s : State) (k : Nat) (c : Chip) (n : Nat) : (s.setChip k c).grid? n = s.grid? n := rfl
@[simp] theorem State.setLine_grid (s : State) (k : Nat) (l : HomeLine) (n : Nat) : (s.setLine k l).grid? n = s.grid? n := rfl
@[simp] theorem State.modWarp_grid (s : State) (k : Nat) (f : Warp → Warp) (n : Nat) : (s.modWarp k f).grid? n = s.grid? n := rfl
@[simp] theorem State.modBlock_grid (s : State) (k : Nat) (f : Block → Block) (n : Nat) : (s.modBlock k f).grid? n = s.grid? n := rfl
@[simp] theorem State.modCore_grid (s : State) (k : Nat) (f : Core → Core) (n : Nat) : (s.modCore k f).grid? n = s.grid? n := rfl
@[simp] theorem State.modDie_grid (s : State) (k : Nat) (f : Die → Die) (n : Nat) : (s.modDie k f).grid? n = s.grid? n := rfl
@[simp] theorem State.modChip_grid (s : State) (k : Nat) (f : Chip → Chip) (n : Nat) : (s.modChip k f).grid? n = s.grid? n := rfl
@[simp] theorem State.modLine_grid (s : State) (k : Nat) (f : HomeLine → HomeLine) (n : Nat) : (s.modLine k f).grid? n = s.grid? n := rfl
@[simp] theorem State.send_grid (s : State) (ev : Instr) (c : Cue) (n : Nat) : (s.send ev c).grid? n = s.grid? n := rfl
@[simp] theorem State.sendOnce_grid (s : State) (ev : Instr) (c : Cue) (n : Nat) : (s.sendOnce ev c).grid? n = s.grid? n := by
  unfold State.sendOnce; split <;> rfl
@[simp] theorem State.counted_grid (s : State) (n : Nat) : s.counted.grid? n = s.grid? n := rfl
@[simp] theorem State.setWarp_core (s : State) (k : Nat) (w : Warp) (n : Nat) : (s.setWarp k w).core n = s.core n := rfl
@[simp] theorem State.setBlock_core (s : State) (k : Nat) (b : Block) (n : Nat) : (s.setBlock k b).core n = s.core n := rfl
@[simp] theorem State.setDie_core (s : State) (k : Nat) (d : Die) (n : Nat) : (s.setDie k d).core n = s.core n := rfl
@[simp] theorem State.setChip_core (s : State) (k : Nat) (c : Chip) (n : Nat) : (s.setChip k c).core n = s.core n := rfl
@[simp] theorem State.setLine_core (s : State) (k : Nat) (l : HomeLine) (n : Nat) : (s.setLine k l).core n = s.core n := rfl
@[simp] theorem State.setGrid_core (s : State) (k : Nat) (g : GridRun) (n : Nat) : (s.setGrid k g).core n = s.core n := rfl
@[simp] theorem State.modWarp_core (s : State) (k : Nat) (f : Warp → Warp) (n : Nat) : (s.modWarp k f).core n = s.core n := rfl
@[simp] theorem State.modBlock_core (s : State) (k : Nat) (f : Block → Block) (n : Nat) : (s.modBlock k f).core n = s.core n := rfl
@[simp] theorem State.modDie_core (s : State) (k : Nat) (f : Die → Die) (n : Nat) : (s.modDie k f).core n = s.core n := rfl
@[simp] theorem State.modChip_core (s : State) (k : Nat) (f : Chip → Chip) (n : Nat) : (s.modChip k f).core n = s.core n := rfl
@[simp] theorem State.modLine_core (s : State) (k : Nat) (f : HomeLine → HomeLine) (n : Nat) : (s.modLine k f).core n = s.core n := rfl
@[simp] theorem State.modGrid_core (s : State) (k : Nat) (f : GridRun → GridRun) (n : Nat) : (s.modGrid k f).core n = s.core n := rfl
@[simp] theorem State.send_core (s : State) (ev : Instr) (c : Cue) (n : Nat) : (s.send ev c).core n = s.core n := rfl
@[simp] theorem State.sendOnce_core (s : State) (ev : Instr) (c : Cue) (n : Nat) : (s.sendOnce ev c).core n = s.core n := by
  unfold State.sendOnce; split <;> rfl
@[simp] theorem State.counted_core (s : State) (n : Nat) : s.counted.core n = s.core n := rfl
@[simp] theorem State.setWarp_die (s : State) (k : Nat) (w : Warp) (n : Nat) : (s.setWarp k w).die n = s.die n := rfl
@[simp] theorem State.setBlock_die (s : State) (k : Nat) (b : Block) (n : Nat) : (s.setBlock k b).die n = s.die n := rfl
@[simp] theorem State.setCore_die (s : State) (k : Nat) (c : Core) (n : Nat) : (s.setCore k c).die n = s.die n := rfl
@[simp] theorem State.setChip_die (s : State) (k : Nat) (c : Chip) (n : Nat) : (s.setChip k c).die n = s.die n := rfl
@[simp] theorem State.setLine_die (s : State) (k : Nat) (l : HomeLine) (n : Nat) : (s.setLine k l).die n = s.die n := rfl
@[simp] theorem State.setGrid_die (s : State) (k : Nat) (g : GridRun) (n : Nat) : (s.setGrid k g).die n = s.die n := rfl
@[simp] theorem State.modWarp_die (s : State) (k : Nat) (f : Warp → Warp) (n : Nat) : (s.modWarp k f).die n = s.die n := rfl
@[simp] theorem State.modBlock_die (s : State) (k : Nat) (f : Block → Block) (n : Nat) : (s.modBlock k f).die n = s.die n := rfl
@[simp] theorem State.modCore_die (s : State) (k : Nat) (f : Core → Core) (n : Nat) : (s.modCore k f).die n = s.die n := rfl
@[simp] theorem State.modChip_die (s : State) (k : Nat) (f : Chip → Chip) (n : Nat) : (s.modChip k f).die n = s.die n := rfl
@[simp] theorem State.modLine_die (s : State) (k : Nat) (f : HomeLine → HomeLine) (n : Nat) : (s.modLine k f).die n = s.die n := rfl
@[simp] theorem State.modGrid_die (s : State) (k : Nat) (f : GridRun → GridRun) (n : Nat) : (s.modGrid k f).die n = s.die n := rfl
@[simp] theorem State.send_die (s : State) (ev : Instr) (c : Cue) (n : Nat) : (s.send ev c).die n = s.die n := rfl
@[simp] theorem State.sendOnce_die (s : State) (ev : Instr) (c : Cue) (n : Nat) : (s.sendOnce ev c).die n = s.die n := by
  unfold State.sendOnce; split <;> rfl
@[simp] theorem State.counted_die (s : State) (n : Nat) : s.counted.die n = s.die n := rfl
@[simp] theorem State.setWarp_chip (s : State) (k : Nat) (w : Warp) (n : Nat) : (s.setWarp k w).chip n = s.chip n := rfl
@[simp] theorem State.setBlock_chip (s : State) (k : Nat) (b : Block) (n : Nat) : (s.setBlock k b).chip n = s.chip n := rfl
@[simp] theorem State.setCore_chip (s : State) (k : Nat) (c : Core) (n : Nat) : (s.setCore k c).chip n = s.chip n := rfl
@[simp] theorem State.setDie_chip (s : State) (k : Nat) (d : Die) (n : Nat) : (s.setDie k d).chip n = s.chip n := rfl
@[simp] theorem State.setLine_chip (s : State) (k : Nat) (l : HomeLine) (n : Nat) : (s.setLine k l).chip n = s.chip n := rfl
@[simp] theorem State.setGrid_chip (s : State) (k : Nat) (g : GridRun) (n : Nat) : (s.setGrid k g).chip n = s.chip n := rfl
@[simp] theorem State.modWarp_chip (s : State) (k : Nat) (f : Warp → Warp) (n : Nat) : (s.modWarp k f).chip n = s.chip n := rfl
@[simp] theorem State.modBlock_chip (s : State) (k : Nat) (f : Block → Block) (n : Nat) : (s.modBlock k f).chip n = s.chip n := rfl
@[simp] theorem State.modCore_chip (s : State) (k : Nat) (f : Core → Core) (n : Nat) : (s.modCore k f).chip n = s.chip n := rfl
@[simp] theorem State.modDie_chip (s : State) (k : Nat) (f : Die → Die) (n : Nat) : (s.modDie k f).chip n = s.chip n := rfl
@[simp] theorem State.modLine_chip (s : State) (k : Nat) (f : HomeLine → HomeLine) (n : Nat) : (s.modLine k f).chip n = s.chip n := rfl
@[simp] theorem State.modGrid_chip (s : State) (k : Nat) (f : GridRun → GridRun) (n : Nat) : (s.modGrid k f).chip n = s.chip n := rfl
@[simp] theorem State.send_chip (s : State) (ev : Instr) (c : Cue) (n : Nat) : (s.send ev c).chip n = s.chip n := rfl
@[simp] theorem State.sendOnce_chip (s : State) (ev : Instr) (c : Cue) (n : Nat) : (s.sendOnce ev c).chip n = s.chip n := by
  unfold State.sendOnce; split <;> rfl
@[simp] theorem State.counted_chip (s : State) (n : Nat) : s.counted.chip n = s.chip n := rfl
@[simp] theorem State.setWarp_line (s : State) (k : Nat) (w : Warp) (n : Nat) : (s.setWarp k w).line n = s.line n := rfl
@[simp] theorem State.setBlock_line (s : State) (k : Nat) (b : Block) (n : Nat) : (s.setBlock k b).line n = s.line n := rfl
@[simp] theorem State.setCore_line (s : State) (k : Nat) (c : Core) (n : Nat) : (s.setCore k c).line n = s.line n := rfl
@[simp] theorem State.setDie_line (s : State) (k : Nat) (d : Die) (n : Nat) : (s.setDie k d).line n = s.line n := rfl
@[simp] theorem State.setChip_line (s : State) (k : Nat) (c : Chip) (n : Nat) : (s.setChip k c).line n = s.line n := rfl
@[simp] theorem State.setGrid_line (s : State) (k : Nat) (g : GridRun) (n : Nat) : (s.setGrid k g).line n = s.line n := rfl
@[simp] theorem State.modWarp_line (s : State) (k : Nat) (f : Warp → Warp) (n : Nat) : (s.modWarp k f).line n = s.line n := rfl
@[simp] theorem State.modBlock_line (s : State) (k : Nat) (f : Block → Block) (n : Nat) : (s.modBlock k f).line n = s.line n := rfl
@[simp] theorem State.modCore_line (s : State) (k : Nat) (f : Core → Core) (n : Nat) : (s.modCore k f).line n = s.line n := rfl
@[simp] theorem State.modDie_line (s : State) (k : Nat) (f : Die → Die) (n : Nat) : (s.modDie k f).line n = s.line n := rfl
@[simp] theorem State.modChip_line (s : State) (k : Nat) (f : Chip → Chip) (n : Nat) : (s.modChip k f).line n = s.line n := rfl
@[simp] theorem State.modGrid_line (s : State) (k : Nat) (f : GridRun → GridRun) (n : Nat) : (s.modGrid k f).line n = s.line n := rfl
@[simp] theorem State.send_line (s : State) (ev : Instr) (c : Cue) (n : Nat) : (s.send ev c).line n = s.line n := rfl
@[simp] theorem State.sendOnce_line (s : State) (ev : Instr) (c : Cue) (n : Nat) : (s.sendOnce ev c).line n = s.line n := by
  unfold State.sendOnce; split <;> rfl
@[simp] theorem State.counted_line (s : State) (n : Nat) : s.counted.line n = s.line n := rfl

end Sys2Proof.Machine
end

