-- ==== Sys2Proof/Laws/Memory.lean ====
section
/-! SUPPORT. Sparse bytes: what is read after a write, and that every operation on memory keeps its canonical form. -/

namespace Sys2Proof.Machine

/-! ## The canonical form -/

theorem memFrom_weaken {m : List Host.Cell} {lo lo' : Nat} (h : memFrom lo m = true) (hl : lo' ≤ lo) : memFrom lo' m = true := by
  cases m with
  | nil => rfl
  | cons p r =>
    obtain ⟨j, b⟩ := p
    simp only [memFrom, Bool.and_eq_true, decide_eq_true_eq] at h ⊢
    exact ⟨⟨by omega, h.1.2⟩, h.2⟩

theorem memGet_below {m : List Host.Cell} {lo k : Nat} (h : memFrom lo m = true) (hk : k < lo) : memGet m k = 0 := by
  cases m with
  | nil => rfl
  | cons p r =>
    obtain ⟨j, b⟩ := p
    simp only [memFrom, Bool.and_eq_true, decide_eq_true_eq] at h
    have h1 : ¬ j = k := by omega
    have h2 : k < j := by omega
    simp [memGet, h1, h2]

theorem memSet_from {m : List Host.Cell} {lo : Nat} (k : Nat) (b : Byte) (h : memFrom lo m = true) (hk : lo ≤ k) :
    memFrom lo (memSet m k b) = true := by
  induction m generalizing lo with
  | nil =>
    by_cases hb : b = 0
    · simp only [memSet, if_pos hb]; rfl
    · simp only [memSet, if_neg hb, memFrom, Bool.and_eq_true, decide_eq_true_eq]; exact ⟨⟨hk, hb⟩, trivial⟩
  | cons p r ih =>
    obtain ⟨j, x⟩ := p
    simp only [memFrom, Bool.and_eq_true, decide_eq_true_eq] at h
    obtain ⟨⟨hj, hx⟩, hr⟩ := h
    simp only [memSet]
    split
    · rename_i hlt
      split
      · simp only [memFrom, Bool.and_eq_true, decide_eq_true_eq]; exact ⟨⟨hj, hx⟩, hr⟩
      · rename_i hb
        simp only [memFrom, Bool.and_eq_true, decide_eq_true_eq]; exact ⟨⟨hk, hb⟩, ⟨⟨by omega, hx⟩, hr⟩⟩
    · split
      · rename_i hlt he
        subst he
        split
        · exact memFrom_weaken hr (by omega)
        · rename_i hb
          simp only [memFrom, Bool.and_eq_true, decide_eq_true_eq]; exact ⟨⟨hj, hb⟩, hr⟩
      · rename_i hlt he
        simp only [memFrom, Bool.and_eq_true, decide_eq_true_eq]
        exact ⟨⟨hj, hx⟩, ih hr (by omega)⟩

theorem memSet_wf {m : List Host.Cell} (k : Nat) (b : Byte) (h : Memory.wf m) : Memory.wf (memSet m k b) :=
  memSet_from k b h (Nat.zero_le k)

theorem memPut_wf {m : List Host.Cell} (k : Nat) (l : List Byte) (h : Memory.wf m) : Memory.wf (memPut m k l) := by
  induction l generalizing m k with
  | nil => exact h
  | cons b r ih => exact ih (k + 1) (memSet_wf k b h)

theorem filter_from {m : List Host.Cell} {lo : Nat} (p : Host.Cell → Bool) (h : memFrom lo m = true) :
    memFrom lo (m.filter p) = true := by
  induction m generalizing lo with
  | nil => rfl
  | cons c r ih =>
    obtain ⟨j, b⟩ := c
    simp only [memFrom, Bool.and_eq_true, decide_eq_true_eq] at h
    simp only [List.filter]
    split
    · simp only [memFrom, Bool.and_eq_true, decide_eq_true_eq]; exact ⟨h.1, ih h.2⟩
    · exact memFrom_weaken (ih h.2) (by omega)

theorem filter_wf {m : List Host.Cell} (p : Host.Cell → Bool) (h : Memory.wf m) : Memory.wf (m.filter p) := filter_from p h

theorem foldl_memSet_wf {m : List Host.Cell} (l : List Host.Cell) (h : Memory.wf m) :
    Memory.wf (l.foldl (fun (m : List Host.Cell) (p : Host.Cell) => memSet m p.1 p.2) m) := by
  induction l generalizing m with
  | nil => exact h
  | cons c r ih => exact ih (memSet_wf c.1 c.2 h)

theorem State.setLineData_mem (s : State) (line : Nat) (l : Line) :
    (s.setLineData line l).mem = memPut s.mem (128 * line) (lineBytes l 0 128) := by
  simp only [State.setLineData]

theorem setLineData_wf {s : State} (line : Nat) (l : Line) (h : Memory.wf s.mem) : Memory.wf (s.setLineData line l).mem := by
  rw [State.setLineData_mem]
  generalize lineBytes l 0 128 = b
  exact memPut_wf (128 * line) b h

/-! ## Read after write -/

theorem memGet_memSet_same {m : List Host.Cell} {lo : Nat} (k : Nat) (b : Byte) (h : memFrom lo m = true) (hk : lo ≤ k) :
    memGet (memSet m k b) k = b := by
  induction m generalizing lo with
  | nil =>
    by_cases hb : b = 0
    · simp only [memSet, if_pos hb, memGet]; exact hb.symm
    · simp only [memSet, if_neg hb, memGet, if_true]
  | cons p r ih =>
    obtain ⟨j, x⟩ := p
    simp only [memFrom, Bool.and_eq_true, decide_eq_true_eq] at h
    obtain ⟨⟨hj, hx⟩, hr⟩ := h
    simp only [memSet]
    split
    · rename_i hlt
      split
      · rename_i hb
        have h1 : ¬ j = k := by omega
        simp [memGet, h1, hlt, hb]
      · simp [memGet]
    · split
      · rename_i he
        subst he
        split
        · rename_i hb
          rw [memGet_below hr (by omega), hb]
        · simp [memGet]
      · rename_i hlt he
        have h1 : ¬ j = k := by omega
        have h2 : ¬ k < j := by omega
        simp only [memGet, h1, h2, if_false]
        exact ih hr (by omega)

theorem memGet_memSet_other {m : List Host.Cell} {lo : Nat} (k k' : Nat) (b : Byte) (h : memFrom lo m = true) (hne : k' ≠ k) :
    memGet (memSet m k b) k' = memGet m k' := by
  have hne' : ¬ k = k' := fun e => hne e.symm
  induction m generalizing lo with
  | nil =>
    by_cases hb : b = 0
    · simp only [memSet, if_pos hb]
    · simp only [memSet, if_neg hb, memGet, hne', if_false, ite_self]
  | cons p r ih =>
    obtain ⟨j, x⟩ := p
    simp only [memFrom, Bool.and_eq_true, decide_eq_true_eq] at h
    obtain ⟨⟨hj, hx⟩, hr⟩ := h
    simp only [memSet]
    split
    · rename_i hlt
      split
      · rfl
      · by_cases hk : k' < k
        · have h1 : ¬ j = k' := by omega
          have h2 : k' < j := by omega
          simp [memGet, hne', hk, h1, h2]
        · simp [memGet, hne', hk]
    · split
      · rename_i he
        subst he
        split
        · have : ¬ k = k' := hne'
          simp only [memGet, this, if_false]
          split
          · rename_i hk; exact memGet_below hr (by omega)
          · rfl
        · simp [memGet, hne']
      · rename_i hlt he
        simp only [memGet]
        split
        · rfl
        · split
          · rfl
          · exact ih hr

/-- A byte outside the bytes put reads as before. -/
theorem memGet_memPut_other {m : List Host.Cell} (k k' : Nat) (l : List Byte) (h : Memory.wf m) (hk : k' < k ∨ k + l.length ≤ k') :
    memGet (memPut m k l) k' = memGet m k' := by
  induction l generalizing m k with
  | nil => rfl
  | cons b r ih =>
    simp only [List.length_cons] at hk
    simp only [memPut]
    rw [ih (k + 1) (memSet_wf k b h) (by omega)]
    exact memGet_memSet_other k k' b h (by omega)

/-- A byte put reads as it was put. -/
theorem memGet_memPut_at {m : List Host.Cell} (k i : Nat) (l : List Byte) (h : Memory.wf m) (hi : i < l.length) :
    memGet (memPut m k l) (k + i) = l[i] := by
  induction l generalizing m k i with
  | nil => exact absurd hi (Nat.not_lt_zero i)
  | cons b r ih =>
    simp only [memPut]
    cases i with
    | zero =>
      have e : k + 0 = k := rfl
      rw [e, memGet_memPut_other (k + 1) k r (memSet_wf k b h) (by omega)]
      exact memGet_memSet_same k b h (Nat.zero_le k)
    | succ n =>
      have hn : n < r.length := by simpa using hi
      have e : k + (n + 1) = k + 1 + n := by omega
      rw [e, ih (k + 1) n (memSet_wf k b h) hn]
      simp

/-- Reading back what was put. -/
theorem memBytes_memPut {m : List Host.Cell} (k : Nat) (l : List Byte) (h : Memory.wf m) : memBytes (memPut m k l) k l.length = l := by
  have key : ∀ (l : List Byte) (f : List Host.Cell) (k : Nat), (∀ i (hi : i < l.length), memGet f (k + i) = l[i]) → memBytes f k l.length = l := by
    intro l
    induction l with
    | nil => intros; rfl
    | cons b r ih =>
      intro f k hf
      have h0 := hf 0 (by simp)
      simp only [List.length_cons, memBytes]
      rw [show memGet f k = b from by simpa using h0]
      rw [ih f (k + 1) (fun i hi => by
        have := hf (i + 1) (by simpa using hi)
        rw [show k + 1 + i = k + (i + 1) by omega, this]; simp)]
  exact key l _ k fun i hi => memGet_memPut_at k i l h hi

end Sys2Proof.Machine
end

