-- ==== Sys2Proof/Laws/Issue.lean ====
section
/-! SUPPORT. What the frame of issue does around an instruction's own effect: releases of waiting gangs, charges, warnings, and
where the gang stands afterwards. -/

namespace Sys2Proof.Machine

/-! ## Nothing outside the warps -/

theorem Outside.refl (s : State) : Outside s s := by constructor <;> first | rfl | (intro; rfl)

theorem Outside.trans {r s t : State} (h : Outside r s) (i : Outside s t) : Outside r t := by
  constructor
  case blocks => exact fun n => (i.blocks n).trans (h.blocks n)
  case cores => exact fun n => (i.cores n).trans (h.cores n)
  case grids => exact fun n => (i.grids n).trans (h.grids n)
  case chips => exact fun n => (i.chips n).trans (h.chips n)
  all_goals first
    | exact i.now.trans h.now | exact i.mem.trans h.mem | exact i.lines.trans h.lines | exact i.partials.trans h.partials
    | exact i.dies.trans h.dies | exact i.drafts.trans h.drafts | exact i.mirrors.trans h.mirrors
    | exact i.copyRoots.trans h.copyRoots | exact i.ghosts.trans h.ghosts | exact i.cfg.trans h.cfg | exact i.colls.trans h.colls
    | exact i.homesAt.trans h.homesAt | exact i.losses.trans h.losses | exact i.nextNode.trans h.nextNode | exact i.cue.trans h.cue

/-- A state that differs in its warps, its agenda, its counter and its port alone. -/
theorem outside_of_warps (s : State) (ws : Tab Warp) (ag : List Due) (fr : Nat) (p : Option (Nat × Lanes)) :
    Outside s { s with warps := ws, agenda := ag, fresh := fr, issuing := p } := by
  constructor <;> first | rfl | (intro; rfl)

theorem outside_modWarp (s : State) (k : Nat) (f : Warp → Warp) : Outside s (s.modWarp k f) :=
  outside_of_warps s _ s.agenda s.fresh s.issuing

theorem outside_setWarp (s : State) (k : Nat) (w : Warp) : Outside s (s.setWarp k w) :=
  outside_of_warps s _ s.agenda s.fresh s.issuing

/-! ## Gangs -/

theorem find_filter_keep {α : Type} {p q : α → Bool} {l : List α} {x : α} (h : l.find? p = some x) (hq : q x = true) :
    (l.filter q).find? p = some x := by
  induction l with
  | nil => simp at h
  | cons y r ih =>
    simp only [List.find?] at h
    split at h
    · rename_i hp
      cases h
      simp [List.filter, hq, hp]
    · rename_i hp
      simp only [List.filter]
      split
      · simp [hp, ih h]
      · exact ih h

theorem find_append_left {α : Type} {p : α → Bool} {l r : List α} {x : α} (h : l.find? p = some x) :
    (l ++ r).find? p = some x := by simp [h]

theorem find_map_mask {l : List Gang} {m : Lanes} {g : Gang} (f : Gang → Gang) (hf : ∀ x, (f x).mask = x.mask)
    (h : l.find? (fun x => decide (x.mask = m)) = some g) : (l.map f).find? (fun x => decide (x.mask = m)) = some (f g) := by
  induction l with
  | nil => simp at h
  | cons y r ih =>
    simp only [List.map, List.find?, hf] at h ⊢
    split at h
    · rename_i hp
      cases h; rfl
    · exact ih h

theorem gang_mask {w : Warp} {m : Lanes} {g : Gang} (h : w.gang? m = some g) : g.mask = m := by
  simpa using List.find?_some h

/-- Fusing other gangs leaves a gang that the test does not pick. -/
theorem fuse_gang {w : Warp} {m : Lanes} {g : Gang} {sel : Gang → Bool} (h : w.gang? m = some g) (hs : sel g = false) :
    (w.fuse sel).gang? m = some g :=
  find_append_left (find_filter_keep h (by simp [hs]))

theorem map_gang {w w' : Warp} {m : Lanes} {g : Gang} (f : Gang → Gang) (hf : ∀ x, (f x).mask = x.mask)
    (hw : w'.gangs = w.gangs.map f) (h : w.gang? m = some g) : w'.gang? m = some (f g) := by
  unfold Warp.gang? at h ⊢
  rw [hw]
  exact find_map_mask f hf h

theorem modGang_gang {w : Warp} {m : Lanes} {g : Gang} (f : Gang → Gang) (hf : ∀ x, (f x).mask = x.mask) (h : w.gang? m = some g) :
    (w.modGang m f).gang? m = some (f g) := by
  have e := map_gang (w := w) (w' := w.modGang m f) (fun g => if g.mask = m then f g else g)
    (fun x => by split <;> simp_all) rfl h
  rw [e, if_pos (gang_mask h)]

/-! ## What a change of a warp lets go on -/

/-- A gang that no barrier holds. -/
def Wait.free : Wait → Bool
  | .join _ | .bar _ => false
  | _ => true

/-- What letting waiting gangs go on may do to one warp. -/
structure Eased (w w' : Warp) : Prop where
  still : w'.still = w.still
  warn : w'.warn = w.warn
  gang : ∀ m g, w.gang? m = some g → g.wait.free = true → ∃ x, x.free = true ∧ w'.gang? m = some { g with wait := x }
  every : ∀ g, g ∈ w.gangs → g.wait.free = true → ∃ x, x.free = true ∧ { g with wait := x } ∈ w'.gangs

theorem Eased.refl (w : Warp) : Eased w w := ⟨rfl, rfl, fun _ g h hf => ⟨g.wait, hf, h⟩, fun g h hf => ⟨g.wait, hf, h⟩⟩

theorem Eased.trans {u v w : Warp} (h : Eased u v) (i : Eased v w) : Eased u w :=
  ⟨i.still.trans h.still, i.warn.trans h.warn, fun m g hg hf => by
    obtain ⟨x, hx, h1⟩ := h.gang m g hg hf
    obtain ⟨y, hy, h2⟩ := i.gang m _ h1 hx
    exact ⟨y, hy, h2⟩, fun g hg hf => by
    obtain ⟨x, hx, h1⟩ := h.every g hg hf
    obtain ⟨y, hy, h2⟩ := i.every _ h1 hx
    exact ⟨y, hy, h2⟩⟩

/-- The gangs that a test picks are fused, none of them free. -/
theorem fuse_eased (w : Warp) (sel : Gang → Bool) (h : ∀ g, sel g = true → g.wait.free = false) : Eased w (w.fuse sel) :=
  have out : ∀ g : Gang, g.wait.free = true → sel g = false := fun g hf => by
    cases hs : sel g with
    | false => rfl
    | true => rw [h g hs] at hf; cases hf
  ⟨rfl, rfl, fun _ g hg hf => ⟨g.wait, hf, fuse_gang hg (out g hf)⟩,
   fun g hg hf => ⟨g.wait, hf, List.mem_append_left _ (List.mem_filter.mpr ⟨hg, by simp [out g hf]⟩)⟩⟩

/-- Waits are changed to free ones. -/
theorem waits_eased {w w' : Warp} (f : Gang → Wait) (hs : w'.still = w.still) (hn : w'.warn = w.warn) (hw : w'.gangs = w.gangs.map fun g => { g with wait := f g })
    (hf : ∀ g, g.wait.free = true → (f g).free = true) : Eased w w' :=
  ⟨hs, hn, fun _ g hg hr => ⟨f g, hf g hr, map_gang (fun g => { g with wait := f g }) (fun _ => rfl) hw hg⟩,
   fun g hg hr => ⟨f g, hf g hr, by rw [hw]; exact List.mem_map.mpr ⟨g, hg, rfl⟩⟩⟩

theorem releaseJoins_eased (w : Warp) : Eased w (releaseJoins w) := by
  have key : ∀ (l : List Nat) (w : Warp), Eased w (l.foldl (fun w n =>
      let need := vecAt w.rj n 0
      let there := w.lanesWhere fun g => decide (g.wait = .join n)
      if need ≠ 0 ∧ need &&& ~~~there = 0 then
        { w.fuse (fun g => decide (g.wait = .join n)) with rj := vecPut w.rj n 0 }
      else w) w) := by
    intro l
    induction l with
    | nil => exact Eased.refl
    | cons n r ih =>
      intro w
      rw [List.foldl_cons]
      refine Eased.trans ?_ (ih _)
      dsimp only
      split
      · have e := fuse_eased w (fun g => decide (g.wait = .join n)) (fun g hg => by
          have h := of_decide_eq_true hg
          rw [h]; rfl)
        exact ⟨e.still, e.warn, e.gang, e.every⟩
      · exact Eased.refl w
  exact key _ w

theorem arriveLoop_eased (c : Nat) (w : Warp) : Eased w (arriveLoop c w) := by
  unfold arriveLoop
  split
  · exact Eased.refl w
  · rename_i n x hx
    refine waits_eased (fun g => if decide (g.wait = .run) && decide (g.pfx.words = 0) && decide (g.pc = loopEndPc c x) then .loopEnd else g.wait)
      rfl rfl ?_ ?_
    · dsimp only
      congr 1
      funext g
      split <;> rfl
    · intro g hg
      split
      · rfl
      · exact hg

/-- What letting gangs go on may do to the warps of a state. -/
structure WarpsEased (s t : State) : Prop where
  gone : ∀ j, s.warp? j = none → t.warp? j = none
  kept : ∀ j w, s.warp? j = some w → ∃ w', t.warp? j = some w' ∧ Eased w w'

theorem WarpsEased.refl (s : State) : WarpsEased s s := ⟨fun _ h => h, fun _ w h => ⟨w, h, Eased.refl w⟩⟩

theorem WarpsEased.trans {r s t : State} (h : WarpsEased r s) (i : WarpsEased s t) : WarpsEased r t :=
  ⟨fun j e => i.gone j (h.gone j e), fun j w e => by
    obtain ⟨w', e', h'⟩ := h.kept j w e
    obtain ⟨w'', e'', i'⟩ := i.kept j w' e'
    exact ⟨w'', e'', h'.trans i'⟩⟩

/-- The tables of two states agree on their warps. -/
theorem warpsEased_of_eq {s t : State} (h : t.warps = s.warps) : WarpsEased s t := by
  have e : ∀ j, t.warp? j = s.warp? j := fun j => by unfold State.warp?; rw [h]
  exact ⟨fun j hj => (e j).trans hj, fun j w hj => ⟨w, (e j).trans hj, Eased.refl w⟩⟩

theorem warpsEased_modWarp (s : State) (k : Nat) (f : Warp → Warp) (h : ∀ w, Eased w (f w)) : WarpsEased s (s.modWarp k f) := by
  constructor
  · intro j hj
    simp only [State.warp?, State.modWarp] at hj ⊢
    rw [tabLook_tabUpd]; split
    · rename_i e; subst e; rw [hj]; rfl
    · exact hj
  · intro j w hj
    simp only [State.warp?, State.modWarp] at hj ⊢
    rw [tabLook_tabUpd]; split
    · rename_i e; subst e; rw [hj]; exact ⟨f w, rfl, h w⟩
    · exact ⟨w, hj, Eased.refl w⟩

theorem warpsEased_setWarp {s : State} {k : Nat} {w w' : Warp} (hk : s.warp? k = some w) (h : Eased w w') :
    WarpsEased s (s.setWarp k w') := by
  constructor
  · intro j hj
    simp only [State.warp?, State.setWarp] at hj hk ⊢
    rw [tabLook_tabPut]; split
    · rename_i e; subst e; rw [hk] at hj; cases hj
    · exact hj
  · intro j v hj
    simp only [State.warp?, State.setWarp] at hj hk ⊢
    rw [tabLook_tabPut]; split
    · rename_i e; subst e; rw [hk] at hj; cases hj; exact ⟨w', rfl, h⟩
    · exact ⟨v, hj, Eased.refl v⟩

theorem foldl_eased {α : Type} (l : List α) (f : State → α → State) (h : ∀ s a, WarpsEased s (f s a) ∧ Outside s (f s a) ∧ (f s a).issuing = s.issuing)
    (s : State) : WarpsEased s (l.foldl f s) ∧ Outside s (l.foldl f s) ∧ (l.foldl f s).issuing = s.issuing := by
  induction l generalizing s with
  | nil => exact ⟨WarpsEased.refl s, Outside.refl s, rfl⟩
  | cons a r ih =>
    rw [List.foldl_cons]
    obtain ⟨h1, h2, h3⟩ := h s a
    obtain ⟨i1, i2, i3⟩ := ih (f s a)
    exact ⟨h1.trans i1, h2.trans i2, i3.trans h3⟩

theorem releaseBar_eased (s : State) (node n : Nat) :
    WarpsEased s (s.releaseBar node n) ∧ Outside s (s.releaseBar node n) ∧ (s.releaseBar node n).issuing = s.issuing := by
  unfold State.releaseBar
  dsimp only
  split
  · apply foldl_eased
    intro s p
    refine ⟨warpsEased_modWarp s p.1 _ (fun w => ?_), outside_modWarp s p.1 _, rfl⟩
    refine Eased.trans (fuse_eased w (fun g => decide (g.wait = .bar n)) (fun g hg => by rw [of_decide_eq_true hg]; rfl)) ?_
    exact waits_eased (fun _ => .stall (.loads s.fresh)) rfl rfl rfl (fun _ _ => rfl)
  · exact ⟨WarpsEased.refl s, Outside.refl s, rfl⟩

theorem outside_sendOnce (s : State) (e : Instr) (c : Cue) : Outside s (s.sendOnce e c) := by
  unfold State.sendOnce State.send
  split
  · exact Outside.refl s
  · exact outside_of_warps s s.warps _ _ s.issuing

theorem warps_sendOnce (s : State) (e : Instr) (c : Cue) : (s.sendOnce e c).warps = s.warps := by
  unfold State.sendOnce State.send
  split <;> rfl

theorem issuing_sendOnce (s : State) (e : Instr) (c : Cue) : (s.sendOnce e c).issuing = s.issuing := by
  unfold State.sendOnce State.send
  split <;> rfl

/-- SETTLING says what a change of a warp's fibres lets go on: gangs stop waiting, and nothing else changes. -/
theorem settle_eased (s : State) (k : Nat) :
    WarpsEased s (s.settle k) ∧ Outside s (s.settle k) ∧ (s.settle k).issuing = s.issuing := by
  unfold State.settle
  split
  · exact ⟨WarpsEased.refl s, Outside.refl s, rfl⟩
  · rename_i w hw
    dsimp only
    have hset := warpsEased_setWarp hw ((releaseJoins_eased w).trans (arriveLoop_eased (s.codeBase w) (releaseJoins w)))
    generalize arriveLoop (s.codeBase w) (releaseJoins w) = w' at hset
    have hmid : ∀ t : State, t = (if (w'.gangs.any fun g => decide (g.wait = Wait.loopEnd)) = true then
        if w'.allAt Wait.loopEnd = true then (s.setWarp k w').sendOnce Instr.loopIterationEnd { warp := k } else s.setWarp k w'
        else s.setWarp k w') → WarpsEased s t ∧ Outside s t ∧ t.issuing = s.issuing := by
      intro t ht
      subst ht
      split
      · split
        · refine ⟨hset.trans (warpsEased_of_eq (warps_sendOnce _ _ _)), (outside_setWarp s k w').trans (outside_sendOnce _ _ _), ?_⟩
          rw [issuing_sendOnce]; rfl
        · exact ⟨hset, outside_setWarp s k w', rfl⟩
      · exact ⟨hset, outside_setWarp s k w', rfl⟩
    generalize (if (w'.gangs.any fun g => decide (g.wait = Wait.loopEnd)) = true then
        if w'.allAt Wait.loopEnd = true then (s.setWarp k w').sendOnce Instr.loopIterationEnd { warp := k } else s.setWarp k w'
        else s.setWarp k w') = t at hmid ⊢
    obtain ⟨h1, h2, h3⟩ := hmid t rfl
    obtain ⟨i1, i2, i3⟩ := foldl_eased _ (fun s n => s.releaseBar w.node n) (fun s n => releaseBar_eased s w.node n) t
    exact ⟨h1.trans i1, h2.trans i2, i3.trans h3⟩

/-! ## Charges and warnings -/

theorem outside_chargeBlock (s : State) (node n : Nat) : Outside s (s.chargeBlock node n) := by
  unfold State.chargeBlock
  split
  · exact Outside.refl s
  · rename_i b hb
    constructor
    case blocks =>
      intro j
      simp only [State.block?, State.modBlock, State.modGrid, State.modChip, State.setChip, tabLook_tabUpd]
      split
      · rename_i e; subst e; cases tabLook s.blocks _ <;> rfl
      · rfl
    case grids =>
      intro j
      simp only [State.grid?, State.modBlock, State.modGrid, State.modChip, State.setChip, tabLook_tabUpd]
      split
      · rename_i e; subst e; cases tabLook s.grids _ <;> rfl
      · rfl
    case chips =>
      intro j
      simp only [State.chip, State.modBlock, State.modGrid, State.modChip, State.setChip, tabLook_tabPut]
      split
      · rename_i e; subst e; rfl
      · rfl
    case cores => exact fun _ => rfl
    all_goals rfl

theorem outside_charge (s : State) (k n : Nat) : Outside s (s.charge k n) := by
  unfold State.charge
  split
  · exact Outside.refl s
  · exact (outside_modWarp s k (fun w => { w with enwarp := (w.enwarp + n) % 2 ^ 64 })).trans (outside_chargeBlock _ _ _)

/-- A warp that only what it is charged, or its warnings, tell from another. -/
structure Charged (w w' : Warp) : Prop where
  still : w'.still = w.still
  gangs : w'.gangs = w.gangs
  run : w'.run = w.run
  rj : w'.rj = w.rj

theorem warp_charge (s : State) (k n j : Nat) :
    (s.charge k n).warp? j = if j = k then (s.warp? k).map (fun w => { w with enwarp := if n = 0 then w.enwarp else (w.enwarp + n) % 2 ^ 64 })
      else s.warp? j := by
  unfold State.charge
  split
  · rename_i h
    subst h
    split
    · rename_i e; subst e
      cases h : s.warp? j <;> simp
    · rfl
  · rename_i h
    have e : ∀ t : State, (t.chargeBlock (k / 32) n).warps = t.warps := by
      intro t; unfold State.chargeBlock; split <;> rfl
    unfold State.warp?
    rw [e]
    simp only [State.modWarp, tabLook_tabUpd]

theorem issuing_charge (s : State) (k n : Nat) : (s.charge k n).issuing = s.issuing := by
  unfold State.charge
  split
  · rfl
  · have e : ∀ t : State, (t.chargeBlock (k / 32) n).issuing = t.issuing := by
      intro t; unfold State.chargeBlock; split <;> rfl
    rw [e]; rfl

/-- The warnings that the frame of a word sets, with those that ignored prefix words set (R50). -/
def Cx.frameWarns (cx : Cx) (p : Pfx) : Word := p.warn ||| frameWarn cx.info p

theorem noted_form (cx : Cx) (p : Pfx) (s : State) :
    ∃ c c', cx.noted p s = (s.charge cx.k c).modWarp cx.k fun w => { (w.addWarn (cx.frameWarns p)) with lastCost := c' } :=
  ⟨_, _, rfl⟩

theorem outside_noted (cx : Cx) (p : Pfx) (s : State) : Outside s (cx.noted p s) := by
  obtain ⟨c, c', e⟩ := noted_form cx p s
  rw [e]
  exact (outside_charge s cx.k c).trans (outside_modWarp _ cx.k _)

theorem noted_other (cx : Cx) (p : Pfx) (s : State) (j : Nat) (h : j ≠ cx.k) : (cx.noted p s).warp? j = s.warp? j := by
  obtain ⟨c, c', e⟩ := noted_form cx p s
  rw [e]
  have e := warp_charge s cx.k c j
  rw [if_neg h] at e
  rw [← e]
  simp only [State.warp?, State.modWarp, tabLook_tabUpd, if_neg h]

theorem noted_own (cx : Cx) (p : Pfx) (s : State) (w : Warp) (h : s.warp? cx.k = some w) :
    ∃ w', (cx.noted p s).warp? cx.k = some w' ∧ Charged w w' ∧ w'.warn = w.warn ||| cx.frameWarns p := by
  obtain ⟨c, c', e⟩ := noted_form cx p s
  rw [e]
  have e := warp_charge s cx.k c cx.k
  rw [if_pos rfl, h] at e
  simp only [State.warp?] at e
  simp only [State.warp?, State.modWarp, tabLook_tabUpd, if_true, e]
  exact ⟨_, rfl, ⟨rfl, rfl, rfl, rfl⟩, rfl⟩

/-! ## How an issued word is over -/

/-- The state after a word that is done: the port is free, the gang stands before the next word, and of the rest nothing but
charges, warnings and released waits tells it from the state that the word's own effect left. -/
structure DoneFrom (cx : Cx) (p : Pfx) (s t : State) (w : Warp) (g : Gang) : Prop where
  port : t.issuing = none
  outside : Outside s t
  others : ∀ j, j ≠ cx.k → s.warp? j = none → t.warp? j = none
  eased : ∀ j v, j ≠ cx.k → s.warp? j = some v → ∃ v', t.warp? j = some v' ∧ Eased v v'
  own : ∃ w', t.warp? cx.k = some w' ∧ w'.still = w.still ∧ w'.warn = w.warn ||| cx.frameWarns p ∧
    ∃ g', w'.gang? cx.m = some g' ∧ g'.pc = (cx.pc + 4) % 2 ^ 64 ∧ g'.pfx = {} ∧ g'.mask = g.mask ∧ g'.held = g.held

theorem retire_outside (s : State) (k : Nat) : Outside s (s.retire k) := by
  unfold State.retire
  have h := (settle_eased s k).2.1
  exact h.trans (outside_of_warps _ _ _ _ _)

theorem warp_retire (s : State) (k j : Nat) : (s.retire k).warp? j = (s.settle k).warp? j := rfl

theorem ranOn_form (cx : Cx) (p : Pfx) (push : Option (List DWord)) (w : Warp) :
    (cx.ranOn p push w).still = w.still ∧ (cx.ranOn p push w).gangs = w.gangs ∧ (cx.ranOn p push w).warn = w.warn := by
  unfold Cx.ranOn
  dsimp only
  split
  · exact ⟨rfl, rfl, rfl⟩
  · split <;> split <;> exact ⟨rfl, rfl, rfl⟩

theorem still_warn {w w' : Warp} (h : w'.still = w.still) : w'.intrap = w.intrap ∧ w'.trapcause = w.trapcause ∧ w'.trappc = w.trappc := by
  simp only [Warp.still, Warp.mk.injEq] at h
  simp_all

/-- A WORD THAT IS DONE goes on to the next word. -/
theorem concluded_done (cx : Cx) (p : Pfx) (s0 s : State) (push : Option (List DWord)) (w : Warp) (g : Gang)
    (hw : s.warp? cx.k = some w) (hg : w.gang? cx.m = some g) (hr : g.wait.free = true) :
    DoneFrom cx p s (cx.concluded p s0 (.done s push)) w g := by
  obtain ⟨w1, h1, c1, hwarn⟩ := noted_own cx p s w hw
  simp only [Cx.concluded]
  generalize hn : cx.noted p s = n at h1
  have hout : Outside s n := hn ▸ outside_noted cx p s
  have hoth : ∀ j, j ≠ cx.k → n.warp? j = s.warp? j := fun j hj => hn ▸ noted_other cx p s j hj
  generalize ha : (n.modWarp cx.k (cx.ranOn p push)).modWarp cx.k (cx.stepped none) = a
  have hoa : Outside n a := ha ▸ (outside_modWarp n cx.k _).trans (outside_modWarp _ cx.k _)
  have hoth' : ∀ j, j ≠ cx.k → a.warp? j = n.warp? j := fun j hj => by
    subst ha; simp only [State.warp?, State.modWarp, tabLook_tabUpd, if_neg hj]
  have hown : a.warp? cx.k = some (cx.stepped none (cx.ranOn p push w1)) := by
    subst ha; simp only [State.warp?, State.modWarp, tabLook_tabUpd, if_true] at h1 ⊢; rw [h1]; rfl
  have hg1 : (cx.ranOn p push w1).gang? cx.m = some g := by
    unfold Warp.gang? at hg ⊢
    rw [(ranOn_form cx p push w1).2.1, c1.gangs]; exact hg
  have hg2 := modGang_gang (w := cx.ranOn p push w1) (m := cx.m)
    (fun g => { g with pc := (cx.pc + 4) % 2 ^ 64, pfx := {}, half := false, waits := 0, wait := (none : Option Wait).getD g.wait })
    (fun _ => rfl) hg1
  obtain ⟨se, so, si⟩ := settle_eased a cx.k
  obtain ⟨w', hw', e'⟩ := se.kept cx.k _ hown
  refine ⟨rfl, (hout.trans hoa).trans (retire_outside a cx.k), ?_, ?_, ?_⟩
  · intro j hj hs
    rw [warp_retire]
    exact se.gone j (by rw [hoth' j hj, hoth j hj, hs])
  · intro j v hj hs
    rw [warp_retire]
    exact se.kept j v (by rw [hoth' j hj, hoth j hj, hs])
  · refine ⟨w', hw', ?_, ?_, ?_⟩
    · rw [e'.still]
      exact ((ranOn_form cx p push w1).1).trans c1.still
    · rw [e'.warn, ← hwarn]
      exact (ranOn_form cx p push w1).2.2
    · obtain ⟨x, -, hx⟩ := e'.gang cx.m _ hg2 hr
      exact ⟨_, hx, rfl, rfl, rfl, rfl⟩

/-! ## Words that split their gang, and words that place it themselves -/

theorem laneBit_inSet {i j : Nat} (h : i < 32) : inSet (laneBit j) i = decide (i = j) := by
  unfold laneBit inSet
  rw [BitVec.getLsbD_shiftLeft]
  simp only [h, decide_true, Bool.true_and]
  by_cases e : i = j
  · subst e; simp
  · by_cases l : i < j
    · simp [l, e]
    · have : i - j ≠ 0 := by omega
      simp [l, e, this]

theorem addToGang_mem (pc j : Nat) (hj : j < 32) (l : List Gang) :
    (∃ g, g ∈ addToGang pc j l ∧ inSet g.mask j = true ∧ g.pc = pc ∧ (g.wait = .run ∨ ∃ x, x ∈ l ∧ g.wait = x.wait)) := by
  induction l with
  | nil => exact ⟨_, List.mem_singleton.mpr rfl, by simp [laneBit_inSet hj], rfl, Or.inl rfl⟩
  | cons x r ih =>
    unfold addToGang
    split
    · rename_i e
      refine ⟨_, List.mem_cons_self, ?_, e, Or.inr ⟨x, List.mem_cons_self, rfl⟩⟩
      have := laneBit_inSet (j := j) hj
      simp only [inSet, BitVec.getLsbD_or] at this ⊢
      simp [this]
    · obtain ⟨g, h1, h2, h3, h4⟩ := ih
      refine ⟨g, List.mem_cons_of_mem _ h1, h2, h3, ?_⟩
      rcases h4 with h4 | ⟨y, hy, h4⟩
      · exact Or.inl h4
      · exact Or.inr ⟨y, List.mem_cons_of_mem _ hy, h4⟩

theorem addToGang_keeps (pc j i a : Nat) (l : List Gang) (h : ∃ g, g ∈ l ∧ inSet g.mask i = true ∧ g.pc = a ∧ g.wait = .run) :
    ∃ g, g ∈ addToGang pc j l ∧ inSet g.mask i = true ∧ g.pc = a ∧ g.wait = .run := by
  induction l with
  | nil => obtain ⟨g, h, -⟩ := h; cases h
  | cons x r ih =>
    obtain ⟨g, hm, h1, h2, h3⟩ := h
    unfold addToGang
    split
    · rename_i e
      rcases List.mem_cons.mp hm with rfl | hm
      · refine ⟨_, List.mem_cons_self, ?_, h2, h3⟩
        simp only [inSet, BitVec.getLsbD_or] at h1 ⊢; simp [h1]
      · exact ⟨g, List.mem_cons_of_mem _ hm, h1, h2, h3⟩
    · rcases List.mem_cons.mp hm with rfl | hm
      · exact ⟨g, List.mem_cons_self, h1, h2, h3⟩
      · obtain ⟨g', q⟩ := ih ⟨g, hm, h1, h2, h3⟩
        exact ⟨g', List.mem_cons_of_mem _ q.1, q.2⟩

/-- Grouping puts every lane into a gang at its address. -/
theorem groupBy_stands (next : Nat → Nat) (lanes : List Nat) (hl : ∀ j, j ∈ lanes → j < 32) :
    ∀ j, j ∈ lanes → ∃ g, g ∈ groupBy next lanes ∧ inSet g.mask j = true ∧ g.pc = next j ∧ g.wait = .run := by
  have runs : ∀ (l : List Nat) (acc : List Gang), (∀ g, g ∈ acc → g.wait = .run) →
      ∀ g, g ∈ l.foldl (fun l j => addToGang (next j) j l) acc → g.wait = .run := by
    have one : ∀ pc j (acc : List Gang), (∀ g, g ∈ acc → g.wait = .run) → ∀ g, g ∈ addToGang pc j acc → g.wait = .run := by
      intro pc j acc
      induction acc with
      | nil => intro _ g hg; simp only [addToGang, List.mem_singleton] at hg; rw [hg]
      | cons x r ih =>
        intro h g hg
        unfold addToGang at hg
        split at hg
        · rcases List.mem_cons.mp hg with rfl | hg
          · exact h x List.mem_cons_self
          · exact h g (List.mem_cons_of_mem _ hg)
        · rcases List.mem_cons.mp hg with rfl | hg
          · exact h g List.mem_cons_self
          · exact ih (fun g hg => h g (List.mem_cons_of_mem _ hg)) g hg
    intro l
    induction l with
    | nil => intro acc h g hg; exact h g hg
    | cons j r ih => intro acc h; exact ih _ (one _ _ _ h)
  have key : ∀ (l : List Nat) (acc : List Gang), (∀ j, j ∈ l → j < 32) → (∀ g, g ∈ acc → g.wait = .run) →
      ∀ j, (j ∈ l ∨ ∃ g, g ∈ acc ∧ inSet g.mask j = true ∧ g.pc = next j ∧ g.wait = .run) →
      ∃ g, g ∈ l.foldl (fun l j => addToGang (next j) j l) acc ∧ inSet g.mask j = true ∧ g.pc = next j ∧ g.wait = .run := by
    intro l
    induction l with
    | nil =>
      intro acc _ _ j h
      rcases h with h | h
      · cases h
      · exact h
    | cons i r ih =>
      intro acc hl ha j h
      rw [List.foldl_cons]
      apply ih
      · exact fun j hj => hl j (List.mem_cons_of_mem _ hj)
      · exact runs [i] acc ha
      · rcases h with h | h
        · rcases List.mem_cons.mp h with rfl | h
          · right
            obtain ⟨g, h1, h2, h3, h4⟩ := addToGang_mem (next j) j (hl j List.mem_cons_self) acc
            refine ⟨g, h1, h2, h3, ?_⟩
            rcases h4 with h4 | ⟨x, hx, h4⟩
            · exact h4
            · rw [h4]; exact ha x hx
          · exact Or.inl h
        · exact Or.inr (addToGang_keeps _ _ _ _ _ h)
  intro j hj
  exact key lanes [] hl (fun _ h => by cases h) j (Or.inl hj)

theorem lanesOf_mem {m : Lanes} {j : Nat} : j ∈ lanesOf m ↔ j < 32 ∧ inSet m j = true := by
  unfold lanesOf allLanes
  simp [List.mem_filter]

theorem Eased.stands {w w' : Warp} (h : Eased w w') {j pc : Nat}
    (hs : ∃ g, g ∈ w.gangs ∧ inSet g.mask j = true ∧ g.pc = pc ∧ g.wait.free = true) : w'.standsAt j pc := by
  obtain ⟨g, h1, h2, h3, h4⟩ := hs
  obtain ⟨x, -, hx⟩ := h.every g h1 h4
  exact ⟨_, hx, h2, h3⟩

/-- The state after a word whose effect left the gangs of its warp as they are to stand. -/
structure PlacedFrom (cx : Cx) (s t : State) (w : Warp) : Prop where
  port : t.issuing = none
  outside : Outside s t
  others : ∀ j, j ≠ cx.k → s.warp? j = none → t.warp? j = none
  eased : ∀ j v, j ≠ cx.k → s.warp? j = some v → ∃ v', t.warp? j = some v' ∧ Eased v v'
  own : ∃ w', t.warp? cx.k = some w' ∧ Eased w w'

theorem retire_placed (cx : Cx) (s n a : State) (w1 : Warp) (hout : Outside s n) (hoth : ∀ j, j ≠ cx.k → n.warp? j = s.warp? j)
    (hoa : Outside n a) (hoth' : ∀ j, j ≠ cx.k → a.warp? j = n.warp? j) (hown : a.warp? cx.k = some w1) :
    PlacedFrom cx s (a.retire cx.k) w1 := by
  obtain ⟨se, so, si⟩ := settle_eased a cx.k
  obtain ⟨w', hw', e'⟩ := se.kept cx.k _ hown
  refine ⟨rfl, (hout.trans hoa).trans (retire_outside a cx.k), ?_, ?_, ⟨w', hw', e'⟩⟩
  · intro j hj hs
    rw [warp_retire]
    exact se.gone j (by rw [hoth' j hj, hoth j hj, hs])
  · intro j v hj hs
    rw [warp_retire]
    exact se.kept j v (by rw [hoth' j hj, hoth j hj, hs])

theorem modWarp_other (s : State) (k j : Nat) (f : Warp → Warp) (h : j ≠ k) : (s.modWarp k f).warp? j = s.warp? j := by
  simp only [State.warp?, State.modWarp, tabLook_tabUpd, if_neg h]

theorem modWarp_own {s : State} {k : Nat} {w : Warp} (f : Warp → Warp) (h : s.warp? k = some w) : (s.modWarp k f).warp? k = some (f w) := by
  simp only [State.warp?, State.modWarp, tabLook_tabUpd, if_true] at h ⊢
  rw [h]; rfl

/-- A WORD THAT SPLITS ITS GANG sends every fibre of it to its own next address. -/
theorem concluded_split (cx : Cx) (p : Pfx) (s0 s : State) (next : Nat → Nat) (w : Warp) (hw : s.warp? cx.k = some w) :
    ∃ w1, PlacedFrom cx s (cx.concluded p s0 (.split s next)) w1 ∧ w1.still = w.still ∧ w1.warn = w.warn ||| cx.frameWarns p ∧ w1.rj = w.rj ∧
      w1.gangs = w.gangs.filter (fun g => decide (g.mask ≠ cx.m)) ++ groupBy (fun j => next j % 2 ^ 64) (lanesOf cx.m) := by
  obtain ⟨w1, h1, c1, hwarn⟩ := noted_own cx p s w hw
  simp only [Cx.concluded]
  refine ⟨(w1.split cx.m fun j => next j % 2 ^ 64).closeRun, ?_, ?_, hwarn, ?_, ?_⟩
  · exact retire_placed cx s _ _ _ (outside_noted cx p s) (fun j hj => noted_other cx p s j hj) (outside_modWarp _ cx.k _)
      (fun j hj => modWarp_other _ _ _ _ hj) (modWarp_own _ h1)
  · exact c1.still
  · exact c1.rj
  · simp only [Warp.closeRun, Warp.split, c1.gangs]

/-- A WORD THAT PLACES ITS GANG. -/
theorem concluded_placed (cx : Cx) (p : Pfx) (s0 s : State) (w : Warp) (hw : s.warp? cx.k = some w) :
    ∃ w1, PlacedFrom cx s (cx.concluded p s0 (.placed s)) w1 ∧ w1.still = w.still ∧ w1.warn = w.warn ||| cx.frameWarns p ∧ w1.rj = w.rj ∧ w1.gangs = w.gangs := by
  obtain ⟨w1, h1, c1, hwarn⟩ := noted_own cx p s w hw
  simp only [Cx.concluded]
  refine ⟨w1.closeRun, ?_, c1.still, hwarn, c1.rj, c1.gangs⟩
  exact retire_placed cx s _ _ _ (outside_noted cx p s) (fun j hj => noted_other cx p s j hj) (outside_modWarp _ cx.k _)
      (fun j hj => modWarp_other _ _ _ _ hj) (modWarp_own _ h1)

/-! ## The issue of a word -/

/-- A WORD ISSUES: its meaning runs in its context, and the frame goes on as the meaning says. -/
theorem issue_eq {s : State} {k : Nat} {m : Lanes} {w : Warp} {g : Gang} {b : Block} (h : Issuing s k m w g b) (i : OpInfo)
    (body : Cx → State → Res) (hb : (contextOf i s k m w g b).barred g.pfx = none) :
    issue i s body = (contextOf i s k m w g b).concluded g.pfx (s.setWarp k (contextOf i s k m w g b).w)
      (body (contextOf i s k m w g b) (s.setWarp k (contextOf i s k m w g b).w)) := by
  unfold issue
  rw [h.port]
  simp only [h.warp, h.gang, h.block, hb]

/-- A word that the warp may not issue traps. -/
theorem issue_barred {s : State} {k : Nat} {m : Lanes} {w : Warp} {g : Gang} {b : Block} (h : Issuing s k m w g b) (i : OpInfo)
    (body : Cx → State → Res) (t : Trap) (hb : (contextOf i s k m w g b).barred g.pfx = some t) :
    issue i s body = (contextOf i s k m w g b).trapped g.pfx (s.setWarp k (contextOf i s k m w g b).w) t := by
  unfold issue
  rw [h.port]
  simp only [h.warp, h.gang, h.block, hb]

/-- The warp that a word's context holds is the issuing one, its run closed perhaps. -/
theorem contextOf_w (i : OpInfo) (s : State) (k : Nat) (m : Lanes) (w : Warp) (g : Gang) (b : Block) :
    (contextOf i s k m w g b).w = w ∨ (contextOf i s k m w g b).w = w.closeRun := by
  unfold contextOf
  dsimp only
  split
  · split
    · exact Or.inr rfl
    · exact Or.inl rfl
  · exact Or.inl rfl

end Sys2Proof.Machine
end

