-- ==== Sys2Proof/Laws/Rows.lean ====
section
/-! SUPPORT. What writes of register rows do: the lanes written, and nothing else that a read can tell. -/

namespace Sys2Proof.Machine

/-! ## Lanes of a row -/

theorem laneWord_setLaneWord (l : Line) (i j : Nat) (x : Word) (hi : i < 32) (hj : j < 32) :
    laneWord (setLaneWord l j x) i = if i = j then x else laneWord l i := by
  apply BitVec.eq_of_getLsbD_eq
  intro b hb
  unfold laneWord setLaneWord
  simp only [BitVec.getLsbD_extractLsb', BitVec.getLsbD_or, BitVec.getLsbD_and, BitVec.getLsbD_not, BitVec.getLsbD_shiftLeft,
    BitVec.getLsbD_setWidth, BitVec.getLsbD_allOnes, hb, decide_true, Bool.true_and]
  have h1 : 32 * i + b < 1024 := by omega
  simp only [h1, decide_true, Bool.true_and]
  by_cases e : i = j
  · subst e
    have h2 : ¬ (32 * i + b < 32 * i) := by omega
    have h3 : 32 * i + b - 32 * i = b := by omega
    have h4 : b < 1024 := by omega
    simp [h3, h4, h2, hb]
  · rw [if_neg e]
    simp only [BitVec.getLsbD_extractLsb', hb, decide_true, Bool.true_and]
    by_cases h2 : 32 * i + b < 32 * j
    · simp [h2]
    · have h3 : ¬ (32 * i + b - 32 * j < 32) := by omega
      have h5 : x.getLsbD (32 * i + b - 32 * j) = false := BitVec.getLsbD_of_ge _ _ (by omega)
      simp [h2, h3, h5]

theorem laneWord_foldl_set (v : Nat → Word) (ls : List Nat) (l : Line) (i : Nat) (hi : i < 32) (hl : ∀ j, j ∈ ls → j < 32) :
    laneWord (ls.foldl (fun l j => setLaneWord l j (v j)) l) i = if i ∈ ls then v i else laneWord l i := by
  induction ls generalizing l with
  | nil => simp
  | cons j r ih =>
    rw [List.foldl_cons, ih _ (fun j hj => hl j (List.mem_cons_of_mem _ hj)), laneWord_setLaneWord _ _ _ _ hi (hl j List.mem_cons_self)]
    by_cases h1 : i ∈ r
    · simp [h1]
    · by_cases h2 : i = j
      · subst h2; simp [h1]
      · simp [h1, h2]

/-- A row after a write: the lanes written hold their values and are valid, the others stand. -/
theorem put_lane (x : RowSt) (lanes : Lanes) (v : Nat → Word) (j : Nat) (hj : j < 32) :
    laneWord (x.put lanes v).data j = (if inSet lanes j then v j else laneWord x.data j) ∧
    inSet (x.put lanes v).valid j = (inSet lanes j || inSet x.valid j) := by
  constructor
  · simp only [RowSt.put]
    rw [laneWord_foldl_set v _ _ _ hj (fun i hi => (lanesOf_mem.mp hi).1)]
    simp [lanesOf_mem, hj]
  · simp only [RowSt.put, inSet, BitVec.getLsbD_or]
    exact Bool.or_comm _ _

/-! ## Rows of a warp -/

theorem getD_set {α : Type} (l : List α) (i j : Nat) (x d : α) : (l.set i x).getD j d = if i = j ∧ j < l.length then x else l.getD j d := by
  simp only [List.getD_eq_getElem?_getD, List.getElem?_set]
  by_cases h : i = j
  · subst h
    by_cases h2 : i < l.length
    · simp [h2]
    · simp [h2]
  · simp [h]

theorem setRow_row (w : Warp) (r r' : Nat) (x : RowSt) : (w.setRow r x).row r' = if r = r' ∧ r' < w.rows.length then x else w.row r' :=
  getD_set _ _ _ _ _

/-- Two warps that differ only in which rows share contents. -/
structure SameRows (w w' : Warp) : Prop where
  rest : { w' with rows := [] } = ({ w with rows := [] } : Warp)
  bare : w'.rows.map RowSt.bare = w.rows.map RowSt.bare

theorem SameRows.refl (w : Warp) : SameRows w w := ⟨rfl, rfl⟩
theorem SameRows.trans {u v w : Warp} (h : SameRows u v) (i : SameRows v w) : SameRows u w := ⟨i.rest.trans h.rest, i.bare.trans h.bare⟩

theorem SameRows.len {w w' : Warp} (h : SameRows w w') : w'.rows.length = w.rows.length := by
  have := congrArg List.length h.bare
  simpa using this

theorem SameRows.row {w w' : Warp} (h : SameRows w w') (r : Nat) : (w'.row r).bare = (w.row r).bare := by
  have e : ∀ (l : List RowSt) (r : Nat), (l.getD r {}).bare = (l.map RowSt.bare).getD r {} := by
    intro l r
    simp only [List.getD_eq_getElem?_getD, List.getElem?_map]
    cases l[r]? <;> rfl
  unfold Warp.row
  rw [e, e, h.bare]

theorem SameRows.still {w w' : Warp} (h : SameRows w w') : w'.still = w.still := by
  obtain ⟨h1, h2⟩ := h
  cases w; cases w'
  simp only [Warp.mk.injEq, Warp.still] at h1 h2 ⊢
  simp_all

theorem setRow_same {w : Warp} {r : Nat} {x : RowSt} (h : x.bare = (w.row r).bare) : SameRows w (w.setRow r x) := by
  refine ⟨rfl, ?_⟩
  simp only [Warp.setRow]
  rw [List.map_set, h]
  apply List.ext_getElem
  · simp
  · intro i h1 h2
    simp only [List.getElem_set, List.getElem_map]
    split
    · rename_i e
      subst e
      simp only [List.length_map, List.length_set] at h1
      simp [Warp.row, h1]
    · rfl

/-! ## Sharing undone -/

/-- What changes the sharing of rows does to a state. -/
structure Reshared (s t : State) : Prop where
  outside : Outside s t
  port : t.issuing = s.issuing
  gone : ∀ j, s.warp? j = none → t.warp? j = none
  kept : ∀ j w, s.warp? j = some w → ∃ w', t.warp? j = some w' ∧ SameRows w w'

theorem Reshared.refl (s : State) : Reshared s s := ⟨Outside.refl s, rfl, fun _ h => h, fun _ w h => ⟨w, h, SameRows.refl w⟩⟩

theorem Reshared.trans {r s t : State} (h : Reshared r s) (i : Reshared s t) : Reshared r t :=
  ⟨h.outside.trans i.outside, i.port.trans h.port, fun j e => i.gone j (h.gone j e), fun j w e => by
    obtain ⟨w', e', h'⟩ := h.kept j w e
    obtain ⟨w'', e'', i'⟩ := i.kept j w' e'
    exact ⟨w'', e'', h'.trans i'⟩⟩

theorem reshared_modWarp (s : State) (k : Nat) (f : Warp → Warp) (h : ∀ w, SameRows w (f w)) : Reshared s (s.modWarp k f) := by
  refine ⟨outside_modWarp s k f, rfl, ?_, ?_⟩
  · intro j hj
    by_cases e : j = k
    · subst e; simp only [State.warp?, State.modWarp, tabLook_tabUpd, if_true] at hj ⊢; rw [hj]; rfl
    · rw [modWarp_other _ _ _ _ e]; exact hj
  · intro j w hj
    by_cases e : j = k
    · subst e; exact ⟨f w, modWarp_own f hj, h w⟩
    · exact ⟨w, by rw [modWarp_other _ _ _ _ e]; exact hj, SameRows.refl w⟩

theorem reshared_setCore (s : State) (c : Nat) (x : Core) (h : x.still = (s.core c).still) : Reshared s (s.setCore c x) := by
  refine ⟨?_, rfl, fun _ h => h, fun j w h => ⟨w, h, SameRows.refl w⟩⟩
  constructor
  case cores =>
    intro n
    simp only [State.core, State.setCore, tabLook_tabPut] at h ⊢
    split
    · rename_i e; subst e; exact h
    · rfl
  case blocks => exact fun _ => rfl
  case grids => exact fun _ => rfl
  case chips => exact fun _ => rfl
  all_goals rfl

theorem reshared_foldl {α : Type} (f : State → α → State) (h : ∀ s a, Reshared s (f s a)) (l : List α) (s : State) :
    Reshared s (l.foldl f s) := by
  induction l generalizing s with
  | nil => exact Reshared.refl s
  | cons a r ih => rw [List.foldl_cons]; exact (h s a).trans (ih _)

/-- R182, steps 1 and 2, change no content. -/
theorem unshare_reshared (s : State) (k r : Nat) : Reshared s (s.unshare k r) := by
  unfold State.unshare
  split
  · exact Reshared.refl s
  · rename_i w hw
    dsimp only
    have last : ∀ (t : State) (c : Nat), Reshared s t → Reshared s (if ((t.core c).vtab.any fun e => e.res.contains (k, r)) = true then
        t.setCore c { t.core c with vtab := (t.core c).vtab.filter fun e => !e.res.contains (k, r) } else t) := by
      intro t c ht
      split
      · exact ht.trans (reshared_setCore t c _ rfl)
      · exact ht
    apply last
    refine Reshared.trans (Reshared.trans ?_ (reshared_foldl (fun s (p : Nat × Nat) => s.modWarp p.1 fun v => v.setRow p.2 { v.row p.2 with share := none, ver := (v.row p.2).ver + 1 })
      (fun s p => reshared_modWarp _ _ _ (fun v => setRow_same rfl)) (w.row r).refs _)) (reshared_modWarp _ _ _ (fun v => setRow_same rfl))
    split
    · exact reshared_modWarp _ _ _ (fun v => setRow_same rfl)
    · exact Reshared.refl s

/-! ## Words written into registers -/

/-- The registers of a warp after writes: `P r j` is the word written into lane `j` of row `r`, `S c` the word written into scalar
register `c`, when one is. -/
structure Written (w w' : Warp) (P : Nat → Nat → Option Word) (S : Nat → Option Word) : Prop where
  rest : { w' with rows := [], sregs := vecOf 16 fun _ => 0 } = ({ w with rows := [], sregs := vecOf 16 fun _ => 0 } : Warp)
  len : w'.rows.length = w.rows.length
  waits : ∀ r, (w'.row r).pend = (w.row r).pend ∧ (w'.row r).hold = (w.row r).hold
  lane : ∀ r j, r < w.rows.length → j < 32 → laneWord (w'.row r).data j = (P r j).getD (laneWord (w.row r).data j)
  valid : ∀ r j, r < w.rows.length → j < 32 → inSet (w'.row r).valid j = ((P r j).isSome || inSet (w.row r).valid j)
  scalar : ∀ c, c < 16 → w'.sreg c = (S c).getD (w.sreg c)

theorem SameRows.rest' {w w' : Warp} (h : SameRows w w') :
    { w' with rows := [], sregs := vecOf 16 fun _ => 0 } = ({ w with rows := [], sregs := vecOf 16 fun _ => 0 } : Warp) ∧ w'.sregs = w.sregs := by
  have e := h.rest
  cases w; cases w'
  simp only [Warp.mk.injEq] at e ⊢
  simp_all

theorem Written.of_same {w w' : Warp} (h : SameRows w w') : Written w w' (fun _ _ => none) (fun _ => none) := by
  have field : ∀ r, (w'.row r).pend = (w.row r).pend ∧ (w'.row r).hold = (w.row r).hold ∧ (w'.row r).data = (w.row r).data ∧
      (w'.row r).valid = (w.row r).valid := by
    intro r
    have := h.row r
    simp only [RowSt.bare, RowSt.mk.injEq] at this
    simp_all
  exact ⟨h.rest'.1, h.len, fun r => ⟨(field r).1, (field r).2.1⟩, fun r j _ _ => by rw [(field r).2.2.1]; rfl,
    fun r j _ _ => by rw [(field r).2.2.2]; rfl, fun c _ => by simp [Warp.sreg, h.rest'.2]⟩

theorem Written.refl (w : Warp) : Written w w (fun _ _ => none) (fun _ => none) := Written.of_same (SameRows.refl w)

theorem Written.trans {u v w : Warp} {P Q : Nat → Nat → Option Word} {S T : Nat → Option Word} (h : Written u v P S)
    (i : Written v w Q T) : Written u w (fun r j => (Q r j).or (P r j)) (fun c => (T c).or (S c)) := by
  refine ⟨i.rest.trans h.rest, i.len.trans h.len, fun r => ⟨(i.waits r).1.trans (h.waits r).1, (i.waits r).2.trans (h.waits r).2⟩, ?_, ?_, ?_⟩
  · intro r j hr hj
    rw [i.lane r j (h.len ▸ hr) hj, h.lane r j hr hj]
    cases Q r j <;> simp
  · intro r j hr hj
    rw [i.valid r j (h.len ▸ hr) hj, h.valid r j hr hj]
    cases Q r j <;> simp
  · intro c hc
    rw [i.scalar c hc, h.scalar c hc]
    cases T c <;> simp

theorem Written.congr {w w' : Warp} {P Q : Nat → Nat → Option Word} {S T : Nat → Option Word} (h : Written w w' P S)
    (e : ∀ r j, r < w.rows.length → j < 32 → Q r j = P r j) (f : ∀ c, c < 16 → T c = S c) : Written w w' Q T :=
  ⟨h.rest, h.len, h.waits, fun r j hr hj => by rw [e r j hr hj]; exact h.lane r j hr hj,
   fun r j hr hj => by rw [e r j hr hj]; exact h.valid r j hr hj, fun c hc => by rw [f c hc]; exact h.scalar c hc⟩

theorem setRow_written (w : Warp) (r : Nat) (lanes : Lanes) (v : Nat → Word) :
    Written w (w.setRow r ((w.row r).put lanes v)) (fun r' j => if r' = r ∧ inSet lanes j = true then some (v j) else none)
      (fun _ => none) := by
  refine ⟨rfl, ?_, ?_, ?_, ?_, fun _ _ => rfl⟩
  · simp [Warp.setRow]
  · intro r'
    rw [setRow_row]
    split
    · rename_i h; obtain ⟨rfl, -⟩ := h; exact ⟨rfl, rfl⟩
    · exact ⟨rfl, rfl⟩
  · intro r' j hr hj
    rw [setRow_row]
    by_cases e : r = r'
    · subst e
      rw [if_pos ⟨rfl, hr⟩, (put_lane _ _ _ _ hj).1]
      by_cases hl : inSet lanes j = true <;> simp [hl]
    · have e' : ¬ r' = r := fun x => e x.symm
      simp [e, e']
  · intro r' j hr hj
    rw [setRow_row]
    by_cases e : r = r'
    · subst e
      rw [if_pos ⟨rfl, hr⟩, (put_lane _ _ _ _ hj).2]
      by_cases hl : inSet lanes j = true <;> simp [hl]
    · have e' : ¬ r' = r := fun x => e x.symm
      simp [e, e']

theorem sreg_written (w : Warp) (c : Nat) (x : Word) :
    Written w { w with sregs := vecPut w.sregs c x } (fun _ _ => none) (fun c' => if c' = c then some x else none) := by
  refine ⟨rfl, rfl, fun _ => ⟨rfl, rfl⟩, fun _ _ _ _ => rfl, fun _ _ _ _ => by simp; rfl, ?_⟩
  intro c' hc
  unfold Warp.sreg
  rw [vecAt_vecPut]
  by_cases e : c' = c
  · subst e; simp [hc]
  · have e' : ¬ c = c' := fun x => e x.symm
    simp [e, e']

/-- What writes into registers of warp `k` do to a state. -/
structure RegsWritten (k : Nat) (s t : State) (P : Nat → Nat → Option Word) (S : Nat → Option Word) : Prop where
  outside : Outside s t
  port : t.issuing = s.issuing
  gone : ∀ j, s.warp? j = none → t.warp? j = none
  kept : ∀ j w, j ≠ k → s.warp? j = some w → ∃ w', t.warp? j = some w' ∧ SameRows w w'
  own : ∀ w, s.warp? k = some w → ∃ w', t.warp? k = some w' ∧ Written w w' P S

section
variable {k : Nat} {r s t : State} {P Q : Nat → Nat → Option Word} {S T : Nat → Option Word}

theorem RegsWritten.of_reshared (h : Reshared s t) : RegsWritten k s t (fun _ _ => none) (fun _ => none) :=
  ⟨h.outside, h.port, h.gone, fun j w _ e => h.kept j w e, fun w e => by
    obtain ⟨w', e', i⟩ := h.kept k w e
    exact ⟨w', e', Written.of_same i⟩⟩

theorem RegsWritten.refl (s : State) : RegsWritten k s s (fun _ _ => none) (fun _ => none) := RegsWritten.of_reshared (Reshared.refl s)

theorem RegsWritten.trans (h : RegsWritten k r s P S) (i : RegsWritten k s t Q T) :
    RegsWritten k r t (fun r j => (Q r j).or (P r j)) (fun c => (T c).or (S c)) :=
  ⟨h.outside.trans i.outside, i.port.trans h.port, fun j e => i.gone j (h.gone j e), fun j w hj e => by
    obtain ⟨w', e', h'⟩ := h.kept j w hj e
    obtain ⟨w'', e'', i'⟩ := i.kept j w' hj e'
    exact ⟨w'', e'', h'.trans i'⟩, fun w e => by
    obtain ⟨w', e', h'⟩ := h.own w e
    obtain ⟨w'', e'', i'⟩ := i.own w' e'
    exact ⟨w'', e'', h'.trans i'⟩⟩

theorem RegsWritten.congr (h : RegsWritten k s t P S) (e : ∀ r j, j < 32 → Q r j = P r j) (f : ∀ c, c < 16 → T c = S c) :
    RegsWritten k s t Q T :=
  ⟨h.outside, h.port, h.gone, h.kept, fun v hv => by
    obtain ⟨w', e', i⟩ := h.own v hv
    exact ⟨w', e', i.congr (fun r j _ hj => e r j hj) f⟩⟩

theorem regsWritten_modWarp (s : State) (k : Nat) (f : Warp → Warp) (h : ∀ w, Written w (f w) P S) : RegsWritten k s (s.modWarp k f) P S := by
  refine ⟨outside_modWarp _ _ _, rfl, ?_, ?_, ?_⟩
  · intro j hj
    by_cases e : j = k
    · subst e; simp only [State.warp?, State.modWarp, tabLook_tabUpd, if_true] at hj ⊢; rw [hj]; rfl
    · rw [modWarp_other _ _ _ _ e]; exact hj
  · intro j w hj e
    exact ⟨w, by rw [modWarp_other _ _ _ _ hj]; exact e, SameRows.refl w⟩
  · intro w e
    exact ⟨_, modWarp_own _ e, h w⟩

end

/-- A WRITE OF A ROW (R182). -/
theorem writeRow_written (s : State) (k r : Nat) (lanes : Lanes) (v : Nat → Word) :
    RegsWritten k s (s.writeRow k r lanes v) (fun r' j => if r' = r ∧ inSet lanes j = true then some (v j) else none) (fun _ => none) := by
  unfold State.writeRow
  split
  · rename_i h
    subst h
    exact (RegsWritten.refl s).congr (fun r j _ => by simp [inSet]) (fun _ _ => rfl)
  · refine ((RegsWritten.of_reshared (unshare_reshared s k r)).trans (regsWritten_modWarp _ k _ (fun w => setRow_written w r lanes v))).congr
      (fun r j _ => by simp) (fun _ _ => rfl)

/-- A WRITE OF A SCALAR REGISTER. -/
theorem writeSreg_written (s : State) (k c : Nat) (x : Word) :
    RegsWritten k s (s.writeSreg k c x) (fun _ _ => none) (fun c' => if c' = c then some x else none) :=
  regsWritten_modWarp s k _ (fun w => sreg_written w c x)

/-! ## Destinations (R23, R24, R164) -/

theorem foldl_rows_written (k : Nat) (mask : Nat → Lanes) (v : Nat → Word) (rs : List Nat) (s : State) :
    RegsWritten k s (rs.foldl (fun s r => s.writeRow k r (mask r) v) s)
      (fun r j => if r ∈ rs ∧ inSet (mask r) j = true then some (v j) else none) (fun _ => none) := by
  induction rs generalizing s with
  | nil => exact (RegsWritten.refl s).congr (fun _ _ _ => by simp) (fun _ _ => rfl)
  | cons a r ih =>
    rw [List.foldl_cons]
    refine ((writeRow_written s k a (mask a) v).trans (ih _)).congr (fun r' j _ => ?_) (fun _ _ => rfl)
    by_cases h1 : r' = a
    · subst h1
      by_cases h2 : inSet (mask r') j = true <;> by_cases h3 : r' ∈ r <;> simp [h2, h3]
    · by_cases h2 : inSet (mask r') j = true <;> by_cases h3 : r' ∈ r <;> simp [h1, h2, h3]

theorem mem_dedup_foldl (f : Nat → Nat) (l : List Nat) (acc : List Nat) (r : Nat) :
    r ∈ l.foldl (fun l j => let r := f j; if l.contains r then l else l ++ [r]) acc ↔ r ∈ acc ∨ ∃ j, j ∈ l ∧ f j = r := by
  induction l generalizing acc with
  | nil => simp
  | cons a t ih =>
    rw [List.foldl_cons, ih]
    dsimp only
    by_cases h : acc.contains (f a) = true
    · rw [if_pos h]
      have h' : f a ∈ acc := by simpa using h
      constructor
      · rintro (h1 | ⟨j, hj, e⟩)
        · exact Or.inl h1
        · exact Or.inr ⟨j, List.mem_cons_of_mem _ hj, e⟩
      · rintro (h1 | ⟨j, hj, e⟩)
        · exact Or.inl h1
        · rcases List.mem_cons.mp hj with rfl | hj
          · exact Or.inl (e ▸ h')
          · exact Or.inr ⟨j, hj, e⟩
    · rw [if_neg h]
      constructor
      · rintro (h1 | ⟨j, hj, e⟩)
        · rcases List.mem_append.mp h1 with h1 | h1
          · exact Or.inl h1
          · exact Or.inr ⟨a, List.mem_cons_self, (List.mem_singleton.mp h1).symm⟩
        · exact Or.inr ⟨j, List.mem_cons_of_mem _ hj, e⟩
      · rintro (h1 | ⟨j, hj, e⟩)
        · exact Or.inl (List.mem_append_left _ h1)
        · rcases List.mem_cons.mp hj with rfl | hj
          · exact Or.inl (List.mem_append_right _ (List.mem_singleton.mpr e.symm))
          · exact Or.inr ⟨j, hj, e⟩

theorem inSet_or (a b : Lanes) (j : Nat) : inSet (a ||| b) j = (inSet a j || inSet b j) := by
  simp only [inSet, BitVec.getLsbD_or]

theorem inSet_foldl_or (p : Nat → Bool) (l : List Nat) (acc : Lanes) (j : Nat) (hj : j < 32) :
    inSet (l.foldl (fun m i => if p i then m ||| laneBit i else m) acc) j = (inSet acc j || (decide (j ∈ l) && p j)) := by
  induction l generalizing acc with
  | nil => simp
  | cons a t ih =>
    rw [List.foldl_cons, ih]
    by_cases h : j = a
    · subst h
      cases hp : p j <;> simp [inSet_or, laneBit_inSet hj]
    · cases hp : p a <;> simp [inSet_or, laneBit_inSet hj, h]

/-- A write of register code `c` in some fibres, each at its own window (R164). -/
theorem writeV_written (cx : Cx) (s : State) (c : Nat) (lanes : Lanes) (v : Nat → Word) :
    RegsWritten cx.k s (cx.writeV s c lanes v)
      (fun r j => if inSet lanes j = true ∧ cx.w.base j + c = r then some (v j) else none) (fun _ => none) := by
  unfold Cx.writeV
  dsimp only
  refine (foldl_rows_written cx.k (fun r => (lanesOf lanes).foldl (fun m j => if cx.w.base j + c = r then m ||| laneBit j else m) 0) v _ s).congr
    (fun r j hj => ?_) (fun _ _ => rfl)
  have hm := mem_dedup_foldl (fun j => cx.w.base j + c) (lanesOf lanes) [] r
  have hi := inSet_foldl_or (fun i => decide (cx.w.base i + c = r)) (lanesOf lanes) 0 j hj
  simp only [decide_eq_true_eq] at hi
  dsimp only at hm
  by_cases h : inSet lanes j = true ∧ cx.w.base j + c = r
  · rw [if_pos h, if_pos]
    refine ⟨hm.mpr (Or.inr ⟨j, lanesOf_mem.mpr ⟨hj, h.1⟩, h.2⟩), ?_⟩
    rw [hi]
    simp [lanesOf_mem, hj, h.1, h.2]
  · rw [if_neg h, if_neg]
    rintro ⟨-, h2⟩
    rw [hi] at h2
    simp [lanesOf_mem, hj] at h2
    exact h h2

/-- The words that a destination of code `d` receives in the lanes of `lanes` from the values `v`. -/
def dstWords (base : Nat → Nat) (d : Code) (wide : Bool) (lanes : Lanes) (v : Nat → DWord) (r j : Nat) : Option Word :=
  if d.toNat < 96 ∧ inSet lanes j = true then
    if wide = true ∧ base j + (regCode d wide + 1) = r then some ((v j).extractLsb' 32 32)
    else if base j + regCode d wide = r then some ((v j).setWidth 32) else none
  else none

/-- The words that scalar registers receive. -/
def dstScalars (d : Code) (wide : Bool) (lanes : Lanes) (v : Nat → DWord) (c : Nat) : Option Word :=
  if 96 ≤ d.toNat ∧ d.toNat < 112 then
    match lowestLane lanes with
    | some j =>
      if wide = true ∧ c = regCode d wide - 96 + 1 then some ((v j).extractLsb' 32 32)
      else if c = regCode d wide - 96 then some ((v j).setWidth 32) else none
    | none => none
  else none

/-- A WRITE OF A DESTINATION. -/
theorem writeDst_written (cx : Cx) (s : State) (d : Code) (wide : Bool) (lanes : Lanes) (v : Nat → DWord) :
    RegsWritten cx.k s (cx.writeDst s d wide lanes v) (dstWords cx.w.base d wide lanes v) (dstScalars d wide lanes v) := by
  unfold Cx.writeDst dstWords dstScalars
  dsimp only
  by_cases h : d.toNat < 96
  · have h2 : ¬ (96 ≤ d.toNat ∧ d.toNat < 112) := by omega
    simp only [h, if_true, true_and, h2, if_false]
    cases wide with
    | false =>
      simp only [Bool.false_eq_true, if_false, false_and]
      refine (writeV_written cx s _ lanes _).congr (fun r j _ => ?_) (fun _ _ => rfl)
      by_cases h3 : inSet lanes j = true <;> simp [h3]
    | true =>
      simp only [if_true, true_and]
      refine ((writeV_written cx s _ lanes _).trans (writeV_written cx _ _ lanes _)).congr (fun r j _ => ?_) (fun _ _ => rfl)
      by_cases h3 : inSet lanes j = true
      · by_cases h4 : cx.w.base j + (regCode d true + 1) = r <;> by_cases h5 : cx.w.base j + regCode d true = r <;> simp [h3, h4, h5]
      · simp [h3]
  · simp only [h, if_false, false_and]
    by_cases h2 : d.toNat < 112
    · have h3 : 96 ≤ d.toNat ∧ d.toNat < 112 := by omega
      simp only [h2, if_true, h3, and_self]
      cases hj : lowestLane lanes with
      | none => exact RegsWritten.refl s
      | some j =>
        dsimp only
        cases wide with
        | false =>
          simp only [Bool.false_eq_true, if_false, false_and]
          exact writeSreg_written s cx.k _ _
        | true =>
          simp only [if_true, true_and]
          refine ((writeSreg_written s cx.k _ _).trans (writeSreg_written _ cx.k _ _)).congr (fun _ _ _ => rfl) (fun c _ => ?_)
          by_cases h4 : c = regCode d true - 96 + 1 <;> by_cases h5 : c = regCode d true - 96 <;> simp [h4, h5]
    · have h3 : ¬ (96 ≤ d.toNat ∧ d.toNat < 112) := by omega
      simp only [h2, if_false, and_false]
      exact RegsWritten.refl s

end Sys2Proof.Machine
end

