-- ==== Sys2Proof/Laws/Hub.lean ====
section
/-! SUPPORT. Writes of the hub leave every warp as it is, its monitor apart. -/

namespace Sys2Proof.Machine

/-- Warps stand as they were, but that monitors may have fired. -/
structure HubKeeps (s t : State) : Prop where
  port : t.issuing = s.issuing
  gone : ∀ j, s.warp? j = none → t.warp? j = none
  kept : ∀ j w, s.warp? j = some w → ∃ x, t.warp? j = some { w with monitor := x }

theorem HubKeeps.refl (s : State) : HubKeeps s s := ⟨rfl, fun _ h => h, fun _ w h => ⟨w.monitor, h⟩⟩

theorem HubKeeps.trans {r s t : State} (h : HubKeeps r s) (i : HubKeeps s t) : HubKeeps r t :=
  ⟨i.port.trans h.port, fun j e => i.gone j (h.gone j e), fun j w e => by
    obtain ⟨x, e1⟩ := h.kept j w e
    obtain ⟨y, e2⟩ := i.kept j _ e1
    exact ⟨y, e2⟩⟩

theorem hubKeeps_of {s t : State} (hw : t.warps = s.warps) (hp : t.issuing = s.issuing) : HubKeeps s t := by
  have e : ∀ j, t.warp? j = s.warp? j := fun j => by unfold State.warp?; rw [hw]
  exact ⟨hp, fun j h => (e j).trans h, fun j w h => ⟨w.monitor, (e j).trans h⟩⟩

theorem hubKeeps_foldl {α : Type} (f : State → α → State) (h : ∀ s a, HubKeeps s (f s a)) (l : List α) (s : State) :
    HubKeeps s (l.foldl f s) := by
  induction l generalizing s with
  | nil => exact HubKeeps.refl s
  | cons a r ih => rw [List.foldl_cons]; exact (h s a).trans (ih _)

theorem hubKeeps_fire (s : State) (line : Nat) : HubKeeps s (s.fire line) := by
  unfold State.fire
  split
  · have e : ∀ (l : Tab Warp) (j : Nat), tabLook (l.map fun p => if p.2.monitor.map Prod.fst = some line then (p.1, { p.2 with monitor := some (line, true) }) else p) j
        = (tabLook l j).map fun w => if w.monitor.map Prod.fst = some line then { w with monitor := some (line, true) } else w := by
      intro l j
      induction l with
      | nil => rfl
      | cons p r ih =>
        obtain ⟨i, w⟩ := p
        simp only [List.map]
        by_cases h : i = j
        · subst h
          by_cases h2 : w.monitor.map Prod.fst = some line <;> simp only [tabLook, h2, if_true, if_false, Option.map_some]
        · by_cases h2 : w.monitor.map Prod.fst = some line <;> simp only [tabLook, h, h2, if_true, if_false, ih]
    refine ⟨rfl, ?_, ?_⟩
    · intro j h
      simp only [State.warp?] at h ⊢
      rw [e, h]; rfl
    · intro j w h
      simp only [State.warp?] at h ⊢
      rw [e, h]
      simp only [Option.map_some]
      split
      · exact ⟨_, rfl⟩
      · exact ⟨w.monitor, rfl⟩
  · exact HubKeeps.refl s

theorem hubKeeps_sendOnce (s : State) (e : Instr) (c : Cue) : HubKeeps s (s.sendOnce e c) :=
  hubKeeps_of (warps_sendOnce s e c) (issuing_sendOnce s e c)

theorem hubKeeps_dependOn (s : State) (n line : Nat) : HubKeeps s (s.dependOn n line) := by
  unfold State.dependOn
  split
  · exact HubKeeps.refl s
  · dsimp only
    split
    · exact HubKeeps.refl s
    · exact hubKeeps_of rfl rfl

theorem hubKeeps_stageUndo (s : State) (n line : Nat) : HubKeeps s (s.stageUndo n line) := by
  unfold State.stageUndo
  split
  · exact HubKeeps.refl s
  · split
    · exact HubKeeps.refl s
    · exact hubKeeps_of rfl rfl

theorem hubKeeps_gridSave (s : State) (n line rc : Nat) : HubKeeps s (s.gridSave n line rc) := by
  unfold State.gridSave
  split
  · exact HubKeeps.refl s
  · dsimp only
    split
    · exact HubKeeps.refl s
    · exact hubKeeps_of rfl rfl

theorem hubKeeps_modLine (s : State) (n : Nat) (f : HomeLine → HomeLine) : HubKeeps s (s.modLine n f) := hubKeeps_of rfl rfl

theorem hubKeeps_corrected (s : State) (die : Nat) (e : PEntry) : HubKeeps s (s.corrected die e) := by
  unfold State.corrected
  dsimp only
  have h0 : ∀ (u : State), HubKeeps s u → ∀ ev c, HubKeeps s (u.sendOnce ev c) := fun u h ev c => h.trans (hubKeeps_sendOnce _ _ _)
  have h1 : ∀ f g, HubKeeps s ((s.modDie die f).modChip (die / 4) g) := fun f g => hubKeeps_of rfl rfl
  repeat' split
  all_goals first | exact h0 _ (h1 _ _) _ _ | exact h1 _ _

theorem hubKeeps_checkL2 (s : State) (line : Nat) : HubKeeps s (s.checkL2 line) := by
  unfold State.checkL2
  dsimp only
  have h1 : HubKeeps s (if (s.line line).l2bad.isEmpty then s else s.modLine line fun h =>
      let l := if h.dirty then h.l2bad else []
      { h with l2bad := [], poison := h.poison ++ l.filter (fun k => !h.poison.contains k), fromL2 := h.fromL2 ++ l.filter fun k => !h.fromL2.contains k }) := by
    split
    · exact HubKeeps.refl s
    · exact hubKeeps_modLine _ _ _
  generalize (if (s.line line).l2bad.isEmpty then s else _) = u at h1 ⊢
  split
  · exact h1
  · exact (h1.trans (hubKeeps_modLine _ _ _)).trans (hubKeeps_corrected _ _ _)

theorem hubKeeps_examine (s : State) (line : Nat) : HubKeeps s (s.examine line) := by
  unfold State.examine
  split
  · exact hubKeeps_checkL2 s line
  · unfold State.repairSoft
    split
    · exact HubKeeps.refl s
    · exact (hubKeeps_modLine _ _ _).trans (hubKeeps_corrected _ _ _)

theorem hubKeeps_leaveL2 (s : State) (line : Nat) : HubKeeps s (s.leaveL2 line) := by
  unfold State.leaveL2
  dsimp only
  have h := hubKeeps_checkL2 s line
  generalize s.checkL2 line = u at h ⊢
  exact h.trans (hubKeeps_of rfl rfl)

theorem hubKeeps_enterL2 (s : State) (line rv : Nat) : HubKeeps s (s.enterL2 line rv) := by
  unfold State.enterL2
  dsimp only
  repeat' split
  all_goals first
    | exact hubKeeps_modLine _ _ _
    | exact HubKeeps.refl s
    | exact ((hubKeeps_foldl _ (fun s p => hubKeeps_modLine s _ _) _ s).trans (hubKeeps_leaveL2 _ _)).trans (hubKeeps_modLine _ _ _)

theorem hubKeeps_touch (s : State) (line : Nat) (rv : Nat := 4) (alloc : Bool := true) : HubKeeps s (s.touch line rv alloc) := by
  unfold State.touch
  split
  · exact hubKeeps_modLine _ _ _
  · split
    · exact hubKeeps_enterL2 s line rv
    · exact HubKeeps.refl s

theorem hubKeeps_setLineData (s : State) (line : Nat) (l : Line) : HubKeeps s (s.setLineData line l) :=
  hubKeeps_of (by simp only [State.setLineData]) (by simp only [State.setLineData])

theorem hubKeeps_putLine (s : State) (line : Nat) (ns : List Nat) (ct : Nat) (b : BitVec 128) (l : Line) :
    HubKeeps s (s.putLine line ns ct b l) := by
  unfold State.putLine
  dsimp only
  refine HubKeeps.trans (HubKeeps.trans (hubKeeps_setLineData s line l) ?_) (hubKeeps_fire _ line)
  generalize s.setLineData line l = u
  exact hubKeeps_of rfl rfl

theorem hubKeeps_modBlock (s : State) (n : Nat) (f : Block → Block) : HubKeeps s (s.modBlock n f) := hubKeeps_of rfl rfl

theorem hubKeeps_mergeLine (s : State) (line : Nat) : HubKeeps s (s.mergeLine line) := by
  unfold State.mergeLine
  split
  · exact HubKeeps.refl s
  · dsimp only
    split
    · exact hubKeeps_of rfl rfl
    · split
      · refine HubKeeps.trans ?_ (hubKeeps_foldl _ (fun s n => ?_) _ _)
        · exact hubKeeps_of rfl rfl
        · split
          · exact hubKeeps_sendOnce _ _ _
          · exact HubKeeps.refl s
      · refine HubKeeps.trans ?_ (hubKeeps_foldl _ (fun s n => hubKeeps_modBlock s n _) _ _)
        have h1 := hubKeeps_of (s := s) (t := s.modLine line fun l => { l with red := none }) rfl rfl
        generalize s.modLine line (fun l => { l with red := none }) = s1 at h1 ⊢
        generalize (List.map Partial.node _).eraseDups = nodes
        have h2 := h1.trans (hubKeeps_foldl _ (fun s n => hubKeeps_dependOn s n line) nodes s1)
        generalize nodes.foldl (fun s n => s.dependOn n line) s1 = s2 at h2 ⊢
        generalize List.foldl (fun m q => max m (Partial.rc q)) 0 _ = rc
        have h3 := h2.trans (hubKeeps_foldl _ (fun s n => (hubKeeps_stageUndo s n line).trans (hubKeeps_gridSave _ n line rc)) nodes s2)
        generalize nodes.foldl (fun s n => (s.stageUndo n line).gridSave n line rc) s2 = s3 at h3 ⊢
        have h4 := (h3.trans (hubKeeps_examine s3 line)).trans (hubKeeps_touch _ line)
        generalize (s3.examine line).touch line = s4 at h4 ⊢
        exact (h4.trans (hubKeeps_putLine s4 line nodes _ _ _)).trans (hubKeeps_of rfl rfl)

theorem hubKeeps_heldBack {s t : State} {line : Nat} (h : s.heldBack line = some t) : HubKeeps s t := by
  unfold State.heldBack at h
  dsimp only at h
  split at h
  · cases h
    split
    · exact HubKeeps.refl s
    · exact hubKeeps_of rfl rfl
  · split at h
    · cases h; exact HubKeeps.refl s
    · cases h

theorem hubKeeps_hubPut (s : State) (key : Nat) (d : List Byte) : HubKeeps s (s.hubPut key d) := by
  unfold State.hubPut
  exact (((hubKeeps_mergeLine s _).trans (hubKeeps_examine _ _)).trans (hubKeeps_touch _ _)).trans (hubKeeps_putLine _ _ _ _ _ _)

theorem hubKeeps_hubLine (s : State) (key : Nat) (d : List Byte) : HubKeeps s (s.hubLine key d) := by
  unfold State.hubLine
  dsimp only
  split
  · rename_i h
    exact (hubKeeps_heldBack h).trans (hubKeeps_of rfl rfl)
  · exact hubKeeps_hubPut s key d

theorem hubKeeps_hubLines (n : Nat) (s : State) (key : Nat) (d : List Byte) : HubKeeps s (hubLines n s key d) := by
  induction n generalizing s key d with
  | zero => exact HubKeeps.refl s
  | succ n ih =>
    unfold hubLines
    dsimp only
    split
    · exact HubKeeps.refl s
    · exact (hubKeeps_hubLine s _ _).trans (ih _ _ _)

theorem hubKeeps_hubWrite (s : State) (key : Nat) (d : List Byte) : HubKeeps s (s.hubWrite key d) := hubKeeps_hubLines _ s key d

theorem hubKeeps_orderLog (s : State) (chip ctx : Nat) (r : List Byte) : HubKeeps s (s.orderLog chip ctx r) := by
  unfold State.orderLog
  split
  · exact HubKeeps.refl s
  · dsimp only
    split
    · exact HubKeeps.refl s
    · split
      · exact (hubKeeps_hubWrite s _ _).trans (hubKeeps_hubWrite _ _ _)
      · exact hubKeeps_hubWrite s _ _

/-- An order log that a context does not have changes nothing. -/
theorem orderLog_none (s : State) (chip ctx : Nat) (r : List Byte) (h : s.debugBlock chip ctx = none) : s.orderLog chip ctx r = s := by
  unfold State.orderLog
  rw [h]

end Sys2Proof.Machine
end

