-- ==== Sys2Proof/Laws/PerInstr.lean ====
section
/-! SUPPORT. What well-formedness comes to, instruction by instruction. -/

namespace Sys2Proof.Laws.Fields

/-- Beside the unassigned words, an instruction is well formed when its fields hold values that its encoding assigns, and a step of
the device, which no word encodes, always is. -/
def Statement (i : Instr) : Prop :=
  ((∀ w, i ≠ .illegalInstruction w) → WellFormed i = fieldsOk i) ∧ (encode i = none → WellFormed i = true)

theorem of_word {i : Instr} {w : Word} (h : WellFormed i = fieldsOk i) (e : encode i = some w) : Statement i :=
  ⟨fun _ => h, fun n => by rw [n] at e; cases e⟩

theorem of_step {i : Instr} (h : WellFormed i = true) (f : fieldsOk i = true) : Statement i := ⟨fun _ => h.trans f.symm, fun _ => h⟩

theorem nop (g : BitVec 4) (d a b : Code) : Statement (.nop g d a b) := of_word (Bool.and_true _) rfl
theorem br (g : BitVec 4) (off : BitVec 21) : Statement (.br g off) := of_word (Bool.and_true _) rfl
theorem brx (g : BitVec 4) (d a b : Code) : Statement (.brx g d a b) := of_word (Bool.and_true _) rfl
theorem call (g : BitVec 4) (off : BitVec 21) : Statement (.call g off) := of_word (Bool.and_true _) rfl
theorem callx (g : BitVec 4) (d a b : Code) : Statement (.callx g d a b) := of_word (Bool.and_true _) rfl
theorem ret (g : BitVec 4) (d a b : Code) : Statement (.ret g d a b) := of_word (Bool.and_true _) rfl
theorem fork (g : BitVec 4) (d a i : Code) : Statement (.fork g d a i) := of_word (Bool.and_true _) rfl
theorem fend (g : BitVec 4) (d a b : Code) : Statement (.fend g d a b) := of_word (Bool.and_true _) rfl
theorem exit (g : BitVec 4) (d a b : Code) : Statement (.exit g d a b) := of_word (Bool.and_true _) rfl
theorem enrol (g : BitVec 4) (d a i : Code) : Statement (.enrol g d a i) := of_word (Bool.and_true _) rfl
theorem join (g : BitVec 4) (d a i : Code) : Statement (.join g d a i) := of_word (Bool.and_true _) rfl
theorem bar (g : BitVec 4) (d a i : Code) : Statement (.bar g d a i) := of_word (Bool.and_true _) rfl
theorem gbar (g : BitVec 4) (d a i : Code) : Statement (.gbar g d a i) := of_word (Bool.and_true _) rfl
theorem loop (g : BitVec 4) (d a i : Code) : Statement (.loop g d a i) := of_word (Bool.and_true _) rfl
theorem lbrk (g : BitVec 4) (d a i : Code) : Statement (.lbrk g d a i) := of_word (Bool.and_true _) rfl
theorem vtype (g : BitVec 4) (d a i : Code) : Statement (.vtype g d a i) := of_word (Bool.and_true _) rfl
theorem plog (g : BitVec 4) (d a b : Code) : Statement (.plog g d a b) := of_word (Bool.and_true _) rfl
theorem pmovGet (g : BitVec 4) (d a : Code) : Statement (.pmovGet g d a) := of_word (Bool.and_true _) rfl
theorem pmovSet (g : BitVec 4) (d a : Code) : Statement (.pmovSet g d a) := of_word (Bool.and_true _) rfl
theorem voteAny (g : BitVec 4) (d a : Code) : Statement (.voteAny g d a) := of_word (Bool.and_true _) rfl
theorem voteAll (g : BitVec 4) (d a : Code) : Statement (.voteAll g d a) := of_word (Bool.and_true _) rfl
theorem voteBallot (g : BitVec 4) (d a : Code) : Statement (.voteBallot g d a) := of_word (Bool.and_true _) rfl
theorem voteUni (g : BitVec 4) (d a : Code) : Statement (.voteUni g d a) := of_word (Bool.and_true _) rfl
theorem cmp (g : BitVec 4) (d a b : Code) : Statement (.cmp g d a b) := of_word (Bool.and_true _) rfl
theorem cmpi (g : BitVec 4) (d a i : Code) : Statement (.cmpi g d a i) := of_word (Bool.and_true _) rfl
theorem fcmp (g : BitVec 4) (d a b : Code) : Statement (.fcmp g d a b) := of_word (Bool.and_true _) rfl
theorem fcls (g : BitVec 4) (d a m : Code) : Statement (.fcls g d a m) := of_word (Bool.and_true _) rfl
theorem sel (g : BitVec 4) (d a b : Code) : Statement (.sel g d a b) := of_word (Bool.and_true _) rfl
theorem add (g : BitVec 4) (d a b : Code) : Statement (.add g d a b) := of_word (Bool.and_true _) rfl
theorem addi (g : BitVec 4) (d a i : Code) : Statement (.addi g d a i) := of_word (Bool.and_true _) rfl
theorem sub (g : BitVec 4) (d a b : Code) : Statement (.sub g d a b) := of_word (Bool.and_true _) rfl
theorem mul (g : BitVec 4) (d a b : Code) : Statement (.mul g d a b) := of_word (Bool.and_true _) rfl
theorem muli (g : BitVec 4) (d a i : Code) : Statement (.muli g d a i) := of_word (Bool.and_true _) rfl
theorem mulh (g : BitVec 4) (d a b : Code) : Statement (.mulh g d a b) := of_word (Bool.and_true _) rfl
theorem mad (g : BitVec 4) (d a b : Code) : Statement (.mad g d a b) := of_word (Bool.and_true _) rfl
theorem div (g : BitVec 4) (d a b : Code) : Statement (.div g d a b) := of_word (Bool.and_true _) rfl
theorem rem (g : BitVec 4) (d a b : Code) : Statement (.rem g d a b) := of_word (Bool.and_true _) rfl
theorem min (g : BitVec 4) (d a b : Code) : Statement (.min g d a b) := of_word (Bool.and_true _) rfl
theorem max (g : BitVec 4) (d a b : Code) : Statement (.max g d a b) := of_word (Bool.and_true _) rfl
theorem and (g : BitVec 4) (d a b : Code) : Statement (.and g d a b) := of_word (Bool.and_true _) rfl
theorem andi (g : BitVec 4) (d a i : Code) : Statement (.andi g d a i) := of_word (Bool.and_true _) rfl
theorem or (g : BitVec 4) (d a b : Code) : Statement (.or g d a b) := of_word (Bool.and_true _) rfl
theorem ori (g : BitVec 4) (d a i : Code) : Statement (.ori g d a i) := of_word (Bool.and_true _) rfl
theorem xor (g : BitVec 4) (d a b : Code) : Statement (.xor g d a b) := of_word (Bool.and_true _) rfl
theorem xori (g : BitVec 4) (d a i : Code) : Statement (.xori g d a i) := of_word (Bool.and_true _) rfl
theorem shl (g : BitVec 4) (d a b : Code) : Statement (.shl g d a b) := of_word (Bool.and_true _) rfl
theorem shli (g : BitVec 4) (d a i : Code) : Statement (.shli g d a i) := of_word (Bool.and_true _) rfl
theorem shr (g : BitVec 4) (d a b : Code) : Statement (.shr g d a b) := of_word (Bool.and_true _) rfl
theorem shri (g : BitVec 4) (d a i : Code) : Statement (.shri g d a i) := of_word (Bool.and_true _) rfl
theorem sar (g : BitVec 4) (d a b : Code) : Statement (.sar g d a b) := of_word (Bool.and_true _) rfl
theorem sari (g : BitVec 4) (d a i : Code) : Statement (.sari g d a i) := of_word (Bool.and_true _) rfl
theorem rot (g : BitVec 4) (d a b : Code) : Statement (.rot g d a b) := of_word (Bool.and_true _) rfl
theorem neg (g : BitVec 4) (d a : Code) : Statement (.neg g d a) := of_word (Bool.and_true _) rfl
theorem abs (g : BitVec 4) (d a : Code) : Statement (.abs g d a) := of_word (Bool.and_true _) rfl
theorem not (g : BitVec 4) (d a : Code) : Statement (.not g d a) := of_word (Bool.and_true _) rfl
theorem popc (g : BitVec 4) (d a : Code) : Statement (.popc g d a) := of_word (Bool.and_true _) rfl
theorem clz (g : BitVec 4) (d a : Code) : Statement (.clz g d a) := of_word (Bool.and_true _) rfl
theorem ctz (g : BitVec 4) (d a : Code) : Statement (.ctz g d a) := of_word (Bool.and_true _) rfl
theorem brev (g : BitVec 4) (d a : Code) : Statement (.brev g d a) := of_word (Bool.and_true _) rfl
theorem bswap (g : BitVec 4) (d a : Code) : Statement (.bswap g d a) := of_word (Bool.and_true _) rfl
theorem bfx (g : BitVec 4) (d a b : Code) : Statement (.bfx g d a b) := of_word (Bool.and_true _) rfl
theorem bfi (g : BitVec 4) (d a b : Code) : Statement (.bfi g d a b) := of_word (Bool.and_true _) rfl
theorem addc (g : BitVec 4) (d a b : Code) : Statement (.addc g d a b) := of_word (Bool.and_true _) rfl
theorem lea (g : BitVec 4) (d a b : Code) : Statement (.lea g d a b) := of_word (Bool.and_true _) rfl
theorem mov (g : BitVec 4) (d a b : Code) : Statement (.mov g d a b) := of_word (Bool.and_true _) rfl
theorem movi (g : BitVec 4) (d a i : Code) : Statement (.movi g d a i) := of_word (Bool.and_true _) rfl
theorem sad (g : BitVec 4) (d a b : Code) : Statement (.sad g d a b) := of_word (Bool.and_true _) rfl
theorem fadd (g : BitVec 4) (d a b : Code) : Statement (.fadd g d a b) := of_word (Bool.and_true _) rfl
theorem fsub (g : BitVec 4) (d a b : Code) : Statement (.fsub g d a b) := of_word (Bool.and_true _) rfl
theorem fmul (g : BitVec 4) (d a b : Code) : Statement (.fmul g d a b) := of_word (Bool.and_true _) rfl
theorem fma (g : BitVec 4) (d a b : Code) : Statement (.fma g d a b) := of_word (Bool.and_true _) rfl
theorem fnma (g : BitVec 4) (d a b : Code) : Statement (.fnma g d a b) := of_word (Bool.and_true _) rfl
theorem fmin (g : BitVec 4) (d a b : Code) : Statement (.fmin g d a b) := of_word (Bool.and_true _) rfl
theorem fmax (g : BitVec 4) (d a b : Code) : Statement (.fmax g d a b) := of_word (Bool.and_true _) rfl
theorem faddi (g : BitVec 4) (d a i : Code) : Statement (.faddi g d a i) := of_word (Bool.and_true _) rfl
theorem fmuli (g : BitVec 4) (d a i : Code) : Statement (.fmuli g d a i) := of_word (Bool.and_true _) rfl
theorem fdot2 (g : BitVec 4) (d a b : Code) : Statement (.fdot2 g d a b) := of_word (Bool.and_true _) rfl
theorem fscl (g : BitVec 4) (d a b : Code) : Statement (.fscl g d a b) := of_word (Bool.and_true _) rfl
theorem fneg (g : BitVec 4) (d a : Code) : Statement (.fneg g d a) := of_word (Bool.and_true _) rfl
theorem fabs (g : BitVec 4) (d a : Code) : Statement (.fabs g d a) := of_word (Bool.and_true _) rfl
theorem frndRne (g : BitVec 4) (d a : Code) : Statement (.frndRne g d a) := of_word (Bool.and_true _) rfl
theorem frndRtz (g : BitVec 4) (d a : Code) : Statement (.frndRtz g d a) := of_word (Bool.and_true _) rfl
theorem frndRdn (g : BitVec 4) (d a : Code) : Statement (.frndRdn g d a) := of_word (Bool.and_true _) rfl
theorem frndRup (g : BitVec 4) (d a : Code) : Statement (.frndRup g d a) := of_word (Bool.and_true _) rfl
theorem cvt (g : BitVec 4) (d a c : Code) : Statement (.cvt g d a c) := of_word (Bool.and_true _) rfl
theorem frcp (g : BitVec 4) (d a : Code) : Statement (.frcp g d a) := of_word (Bool.and_true _) rfl
theorem frsq (g : BitVec 4) (d a : Code) : Statement (.frsq g d a) := of_word (Bool.and_true _) rfl
theorem fsqrt (g : BitVec 4) (d a : Code) : Statement (.fsqrt g d a) := of_word (Bool.and_true _) rfl
theorem fexp2 (g : BitVec 4) (d a : Code) : Statement (.fexp2 g d a) := of_word (Bool.and_true _) rfl
theorem flog2 (g : BitVec 4) (d a : Code) : Statement (.flog2 g d a) := of_word (Bool.and_true _) rfl
theorem fsin (g : BitVec 4) (d a : Code) : Statement (.fsin g d a) := of_word (Bool.and_true _) rfl
theorem fcos (g : BitVec 4) (d a : Code) : Statement (.fcos g d a) := of_word (Bool.and_true _) rfl
theorem ftanh (g : BitVec 4) (d a : Code) : Statement (.ftanh g d a) := of_word (Bool.and_true _) rfl
theorem fdiv (g : BitVec 4) (d a b : Code) : Statement (.fdiv g d a b) := of_word (Bool.and_true _) rfl
theorem rndh (g : BitVec 4) (d a b : Code) : Statement (.rndh g d a b) := of_word (Bool.and_true _) rfl
theorem rndq (g : BitVec 4) (d a b : Code) : Statement (.rndq g d a b) := of_word (Bool.and_true _) rfl
theorem shfl (g : BitVec 4) (d a b : Code) : Statement (.shfl g d a b) := of_word (Bool.and_true _) rfl
theorem shfx (g : BitVec 4) (d a i : Code) : Statement (.shfx g d a i) := of_word (Bool.and_true _) rfl
theorem wred (g : BitVec 4) (d a : Code) (o : BitVec 4) (ord r0 : BitVec 1) : Statement (.wred g d a o ord r0) := of_word (Bool.and_true _) rfl
theorem wscan (g : BitVec 4) (d a : Code) (o : BitVec 4) (ord ex r0 : BitVec 1) : Statement (.wscan g d a o ord ex r0) := of_word (Bool.and_true _) rfl
theorem wscana (g : BitVec 4) (d a b : Code) : Statement (.wscana g d a b) := of_word (Bool.and_true _) rfl
theorem rdl (g : BitVec 4) (d a b : Code) : Statement (.rdl g d a b) := of_word (Bool.and_true _) rfl
theorem wrl (g : BitVec 4) (d a b : Code) : Statement (.wrl g d a b) := of_word (Bool.and_true _) rfl
theorem salloc (g : BitVec 4) (d a i : Code) : Statement (.salloc g d a i) := of_word (Bool.and_true _) rfl
theorem sfree (g : BitVec 4) (d a i : Code) : Statement (.sfree g d a i) := of_word (Bool.and_true _) rfl
theorem tlook (g : BitVec 4) (d a b : Code) : Statement (.tlook g d a b) := of_word (Bool.and_true _) rfl
theorem tset (g : BitVec 4) (d a b : Code) : Statement (.tset g d a b) := of_word (Bool.and_true _) rfl
theorem tinv (g : BitVec 4) (d a b : Code) : Statement (.tinv g d a b) := of_word (Bool.and_true _) rfl
theorem lds (g : BitVec 4) (d a : Code) (rd ps : BitVec 2) (o : BitVec 3) : Statement (.lds g d a rd ps o) := of_word (Bool.and_true _) rfl
theorem sts (g : BitVec 4) (d a : Code) (rd ps : BitVec 2) (o : BitVec 3) : Statement (.sts g d a rd ps o) := of_word (Bool.and_true _) rfl
theorem vnmLo (g : BitVec 4) (d a : Code) : Statement (.vnmLo g d a) := of_word (Bool.and_true _) rfl
theorem vnmHi (g : BitVec 4) (d a : Code) : Statement (.vnmHi g d a) := of_word (Bool.and_true _) rfl
theorem wbase (g : BitVec 4) (d a i : Code) : Statement (.wbase g d a i) := of_word (Bool.and_true _) rfl
theorem ldb (g : BitVec 4) (d a : Code) (rd ps : BitVec 2) (o : BitVec 3) : Statement (.ldb g d a rd ps o) := of_word (Bool.and_true _) rfl
theorem ldh (g : BitVec 4) (d a : Code) (rd ps : BitVec 2) (o : BitVec 3) : Statement (.ldh g d a rd ps o) := of_word (Bool.and_true _) rfl
theorem ldw (g : BitVec 4) (d a : Code) (rd ps : BitVec 2) (o : BitVec 3) : Statement (.ldw g d a rd ps o) := of_word (Bool.and_true _) rfl
theorem ldd (g : BitVec 4) (d a : Code) (rd ps : BitVec 2) (o : BitVec 3) : Statement (.ldd g d a rd ps o) := of_word (Bool.and_true _) rfl
theorem ldq (g : BitVec 4) (d a : Code) (rd ps : BitVec 2) (o : BitVec 3) : Statement (.ldq g d a rd ps o) := of_word (Bool.and_true _) rfl
theorem ldbs (g : BitVec 4) (d a : Code) (rd ps : BitVec 2) (o : BitVec 3) : Statement (.ldbs g d a rd ps o) := of_word (Bool.and_true _) rfl
theorem ldhs (g : BitVec 4) (d a : Code) (rd ps : BitVec 2) (o : BitVec 3) : Statement (.ldhs g d a rd ps o) := of_word (Bool.and_true _) rfl
theorem stb (g : BitVec 4) (d a : Code) (rd ps : BitVec 2) (o : BitVec 3) : Statement (.stb g d a rd ps o) := of_word (Bool.and_true _) rfl
theorem sth (g : BitVec 4) (d a : Code) (rd ps : BitVec 2) (o : BitVec 3) : Statement (.sth g d a rd ps o) := of_word (Bool.and_true _) rfl
theorem stw (g : BitVec 4) (d a : Code) (rd ps : BitVec 2) (o : BitVec 3) : Statement (.stw g d a rd ps o) := of_word (Bool.and_true _) rfl
theorem std (g : BitVec 4) (d a : Code) (rd ps : BitVec 2) (o : BitVec 3) : Statement (.std g d a rd ps o) := of_word (Bool.and_true _) rfl
theorem stq (g : BitVec 4) (d a : Code) (rd ps : BitVec 2) (o : BitVec 3) : Statement (.stq g d a rd ps o) := of_word (Bool.and_true _) rfl
theorem atom (g : BitVec 4) (d a : Code) (o : BitVec 4) (t : BitVec 3) : Statement (.atom g d a o t) := of_word (Bool.and_true _) rfl
theorem red (g : BitVec 4) (d a : Code) (o : BitVec 4) (t : BitVec 3) : Statement (.red g d a o t) := of_word (Bool.and_true _) rfl
theorem cas (g : BitVec 4) (d a : Code) (t : BitVec 3) : Statement (.cas g d a t) := of_word (Bool.and_true _) rfl
theorem amxr (g : BitVec 4) (d a : Code) (t : BitVec 3) : Statement (.amxr g d a t) := of_word (Bool.and_true _) rfl
theorem fence (g : BitVec 4) (d a : Code) (k sc : BitVec 2) : Statement (.fence g d a k sc) := of_word (Bool.and_true _) rfl
theorem prf (g : BitVec 4) (d a : Code) (rd ps : BitVec 2) (o : BitVec 3) : Statement (.prf g d a rd ps o) := of_word (Bool.and_true _) rfl
theorem cwb (g : BitVec 4) (d a : Code) : Statement (.cwb g d a) := of_word (Bool.and_true _) rfl
theorem cinv (g : BitVec 4) (d a : Code) : Statement (.cinv g d a) := of_word (Bool.and_true _) rfl
theorem cdrop (g : BitVec 4) (d a : Code) : Statement (.cdrop g d a) := of_word (Bool.and_true _) rfl
theorem rdc (g : BitVec 4) (d a : Code) (o : BitVec 4) (t : BitVec 3) : Statement (.rdc g d a o t) := of_word (Bool.and_true _) rfl
theorem cp (g : BitVec 4) (d a b : Code) : Statement (.cp g d a b) := of_word (Bool.and_true _) rfl
theorem cp2d (g : BitVec 4) (d a b : Code) : Statement (.cp2d g d a b) := of_word (Bool.and_true _) rfl
theorem gath (g : BitVec 4) (d a b : Code) : Statement (.gath g d a b) := of_word (Bool.and_true _) rfl
theorem cpfr (g : BitVec 4) (d a b : Code) : Statement (.cpfr g d a b) := of_word (Bool.and_true _) rfl
theorem cpmeta (g : BitVec 4) (d a b : Code) : Statement (.cpmeta g d a b) := of_word (Bool.and_true _) rfl
theorem owait (g : BitVec 4) (d a i : Code) : Statement (.owait g d a i) := of_word (Bool.and_true _) rfl
theorem sinit (g : BitVec 4) (d a : Code) : Statement (.sinit g d a) := of_word (Bool.and_true _) rfl
theorem sarr (g : BitVec 4) (d a : Code) : Statement (.sarr g d a) := of_word (Bool.and_true _) rfl
theorem swait (g : BitVec 4) (d a : Code) : Statement (.swait g d a) := of_word (Bool.and_true _) rfl
theorem mma (g : BitVec 4) (t a b : Code) : Statement (.mma g t a b) := of_word (Bool.and_true _) rfl
theorem mmaz (g : BitVec 4) (t a b : Code) : Statement (.mmaz g t a b) := of_word (Bool.and_true _) rfl
theorem mmas (g : BitVec 4) (t a b : Code) : Statement (.mmas g t a b) := of_word (Bool.and_true _) rfl
theorem mdrn (g : BitVec 4) (t d : Code) (amx : BitVec 1) (r5 : BitVec 5) : Statement (.mdrn g t d amx r5) := of_word (Bool.and_true _) rfl
theorem mdrnSt (g : BitVec 4) (t d : Code) (amx : BitVec 1) (r5 : BitVec 5) : Statement (.mdrnSt g t d amx r5) := of_word (Bool.and_true _) rfl
theorem mcfg (g : BitVec 4) (d a : Code) : Statement (.mcfg g d a) := of_word (Bool.and_true _) rfl
theorem mzero (g : BitVec 4) (d a : Code) : Statement (.mzero g d a) := of_word (Bool.and_true _) rfl
theorem maloc (g : BitVec 4) (d a : Code) : Statement (.maloc g d a) := of_word (Bool.and_true _) rfl
theorem mfree (g : BitVec 4) (d a : Code) : Statement (.mfree g d a) := of_word (Bool.and_true _) rfl
theorem mburst (g : BitVec 4) (d a : Code) : Statement (.mburst g d a) := of_word (Bool.and_true _) rfl
theorem mget (g : BitVec 4) (d a : Code) : Statement (.mget g d a) := of_word (Bool.and_true _) rfl
theorem mput (g : BitVec 4) (d a : Code) : Statement (.mput g d a) := of_word (Bool.and_true _) rfl
theorem coll (g : BitVec 4) (d a : Code) : Statement (.coll g d a) := of_word (Bool.and_true _) rfl
theorem put (g : BitVec 4) (d a : Code) : Statement (.put g d a) := of_word (Bool.and_true _) rfl
theorem get (g : BitVec 4) (d a : Code) : Statement (.get g d a) := of_word (Bool.and_true _) rfl
theorem putv (g : BitVec 4) (d a : Code) : Statement (.putv g d a) := of_word (Bool.and_true _) rfl
theorem arm (g : BitVec 4) (d a : Code) : Statement (.arm g d a) := of_word (Bool.and_true _) rfl
theorem await (g : BitVec 4) (d a : Code) : Statement (.await g d a) := of_word (Bool.and_true _) rfl
theorem grank (g : BitVec 4) (d a : Code) : Statement (.grank g d a) := of_word (Bool.and_true _) rfl
theorem gsize (g : BitVec 4) (d a : Code) : Statement (.gsize g d a) := of_word (Bool.and_true _) rfl
theorem chput (g : BitVec 4) (d a : Code) : Statement (.chput g d a) := of_word (Bool.and_true _) rfl
theorem chget (g : BitVec 4) (d a : Code) : Statement (.chget g d a) := of_word (Bool.and_true _) rfl
theorem submit (g : BitVec 4) (d a : Code) : Statement (.submit g d a) := of_word (Bool.and_true _) rfl
theorem trig (g : BitVec 4) (d a : Code) : Statement (.trig g d a) := of_word (Bool.and_true _) rfl
theorem evpost (g : BitVec 4) (d a : Code) : Statement (.evpost g d a) := of_word (Bool.and_true _) rfl
theorem evwait (g : BitVec 4) (d a : Code) : Statement (.evwait g d a) := of_word (Bool.and_true _) rfl
theorem plrd (g : BitVec 4) (d a : Code) : Statement (.plrd g d a) := of_word (Bool.and_true _) rfl
theorem trap (g : BitVec 4) (d a : Code) : Statement (.trap g d a) := of_word (Bool.and_true _) rfl
theorem tfence (g : BitVec 4) (d a : Code) : Statement (.tfence g d a) := of_word (Bool.and_true _) rfl
theorem mon (g : BitVec 4) (d a : Code) : Statement (.mon g d a) := of_word (Bool.and_true _) rfl
theorem mwait (g : BitVec 4) (d a : Code) : Statement (.mwait g d a) := of_word (Bool.and_true _) rfl
theorem rfe (g : BitVec 4) (d a : Code) : Statement (.rfe g d a) := of_word (Bool.and_true _) rfl
theorem sysrd (g : BitVec 4) (d a : Code) : Statement (.sysrd g d a) := of_word (Bool.and_true _) rfl
theorem syswr (g : BitVec 4) (d a : Code) : Statement (.syswr g d a) := of_word (Bool.and_true _) rfl
theorem sysset (g : BitVec 4) (d a : Code) : Statement (.sysset g d a) := of_word (Bool.and_true _) rfl
theorem sysclr (g : BitVec 4) (d a : Code) : Statement (.sysclr g d a) := of_word (Bool.and_true _) rfl
theorem renter (g : BitVec 4) (d a : Code) : Statement (.renter g d a) := of_word (Bool.and_true _) rfl
theorem rleave (g : BitVec 4) (d a : Code) : Statement (.rleave g d a) := of_word (Bool.and_true _) rfl
theorem stamp (g : BitVec 4) (d a : Code) : Statement (.stamp g d a) := of_word (Bool.and_true _) rfl
theorem brk (g : BitVec 4) (d a : Code) : Statement (.brk g d a) := of_word (Bool.and_true _) rfl
theorem fltrd (g : BitVec 4) (d a : Code) : Statement (.fltrd g d a) := of_word (Bool.and_true _) rfl
theorem ext (p : BitVec 25) : Statement (.ext p) := of_word (Bool.and_true _) rfl
theorem hsch (yld : BitVec 1) (dep : BitVec 4) (vt : BitVec 1) (r : BitVec 19) : Statement (.hsch yld dep vt r) := of_word (Bool.and_true _) rfl
theorem hmod (c : Code) (cen fresh sat : BitVec 1) (r : BitVec 15) : Statement (.hmod c cen fresh sat r) := of_word (Bool.and_true _) rfl
theorem illegalInstruction (w : Word) : Statement (.illegalInstruction w) := ⟨fun h => absurd rfl (h w), fun n => nomatch n⟩
theorem gangSelection : Statement .gangSelection := of_step rfl rfl
theorem computeRetry : Statement .computeRetry := of_step rfl rfl
theorem loopIterationEnd : Statement .loopIterationEnd := of_step rfl rfl
theorem readReply : Statement .readReply := of_step rfl rfl
theorem acknowledge : Statement .acknowledge := of_step rfl rfl
theorem sallocGrant : Statement .sallocGrant := of_step rfl rfl
theorem allocationDeadlock : Statement .allocationDeadlock := of_step rfl rfl
theorem burnisherMove : Statement .burnisherMove := of_step rfl rfl
theorem bankEvacuation : Statement .bankEvacuation := of_step rfl rfl
theorem bankGroupWithdrawal : Statement .bankGroupWithdrawal := of_step rfl rfl
theorem taskGateStart : Statement .taskGateStart := of_step rfl rfl
theorem matrixStart : Statement .matrixStart := of_step rfl rfl
theorem tokenMove : Statement .tokenMove := of_step rfl rfl
theorem tokenHoldLimit : Statement .tokenHoldLimit := of_step rfl rfl
theorem operationRetire : Statement .operationRetire := of_step rfl rfl
theorem translationWalk : Statement .translationWalk := of_step rfl rfl
theorem write : Statement .write := of_step rfl rfl
theorem readRequest : Statement .readRequest := of_step rfl rfl
theorem leaseExpiry : Statement .leaseExpiry := of_step rfl rfl
theorem syncSwitch : Statement .syncSwitch := of_step rfl rfl
theorem reductionMerge : Statement .reductionMerge := of_step rfl rfl
theorem mwaitTimeout : Statement .mwaitTimeout := of_step rfl rfl
theorem stagingEarlyCommit : Statement .stagingEarlyCommit := of_step rfl rfl
theorem blockCommit : Statement .blockCommit := of_step rfl rfl
theorem blockRollback : Statement .blockRollback := of_step rfl rfl
theorem completionRecordWrite : Statement .completionRecordWrite := of_step rfl rfl
theorem proof : Statement .proof := of_step rfl rfl
theorem proofDeadline : Statement .proofDeadline := of_step rfl rfl
theorem dramRowSpare : Statement .dramRowSpare := of_step rfl rfl
theorem l2WayRetire : Statement .l2WayRetire := of_step rfl rfl
theorem dataFlit : Statement .dataFlit := of_step rfl rfl
theorem idleFlit : Statement .idleFlit := of_step rfl rfl
theorem acknowledgeFlit : Statement .acknowledgeFlit := of_step rfl rfl
theorem negativeAcknowledgeFlit : Statement .negativeAcknowledgeFlit := of_step rfl rfl
theorem laneMapFlit : Statement .laneMapFlit := of_step rfl rfl
theorem keyMarkerFlit : Statement .keyMarkerFlit := of_step rfl rfl
theorem timeFlit : Statement .timeFlit := of_step rfl rfl
theorem timeFlitSend : Statement .timeFlitSend := of_step rfl rfl
theorem skewFence : Statement .skewFence := of_step rfl rfl
theorem linkRetrain : Statement .linkRetrain := of_step rfl rfl
theorem laneOutOfService : Statement .laneOutOfService := of_step rfl rfl
theorem laneReturn : Statement .laneReturn := of_step rfl rfl
theorem packetResend : Statement .packetResend := of_step rfl rfl
theorem keySwitch : Statement .keySwitch := of_step rfl rfl
theorem blockWrite : Statement .blockWrite := of_step rfl rfl
theorem dropNotice : Statement .dropNotice := of_step rfl rfl
theorem reservationRequest : Statement .reservationRequest := of_step rfl rfl
theorem reservationGrant : Statement .reservationGrant := of_step rfl rfl
theorem reservationWindow : Statement .reservationWindow := of_step rfl rfl
theorem heartbeatSend : Statement .heartbeatSend := of_step rfl rfl
theorem heartbeat : Statement .heartbeat := of_step rfl rfl
theorem eventReceive : Statement .eventReceive := of_step rfl rfl
theorem eventQueuePost : Statement .eventQueuePost := of_step rfl rfl
theorem permitRefill : Statement .permitRefill := of_step rfl rfl
theorem submitDelivery : Statement .submitDelivery := of_step rfl rfl
theorem finishDelivery : Statement .finishDelivery := of_step rfl rfl
theorem blockedDelivery : Statement .blockedDelivery := of_step rfl rfl
theorem faultGridDelivery : Statement .faultGridDelivery := of_step rfl rfl
theorem faultRollbackDelivery : Statement .faultRollbackDelivery := of_step rfl rfl
theorem chiplossDelivery : Statement .chiplossDelivery := of_step rfl rfl
theorem rejoinDelivery : Statement .rejoinDelivery := of_step rfl rfl
theorem capacityDelivery : Statement .capacityDelivery := of_step rfl rfl
theorem triggerDelivery : Statement .triggerDelivery := of_step rfl rfl
theorem digestDelivery : Statement .digestDelivery := of_step rfl rfl
theorem energyDelivery : Statement .energyDelivery := of_step rfl rfl
theorem userDelivery : Statement .userDelivery := of_step rfl rfl
theorem reservedEventDelivery : Statement .reservedEventDelivery := of_step rfl rfl
theorem chipSilence : Statement .chipSilence := of_step rfl rfl
theorem quorumTimeout : Statement .quorumTimeout := of_step rfl rfl
theorem energyInterval : Statement .energyInterval := of_step rfl rfl
theorem finishReport : Statement .finishReport := of_step rfl rfl
theorem triggerReport : Statement .triggerReport := of_step rfl rfl
theorem blockStart : Statement .blockStart := of_step rfl rfl
theorem eviction : Statement .eviction := of_step rfl rfl
theorem blockResume : Statement .blockResume := of_step rfl rfl
theorem faultRecord : Statement .faultRecord := of_step rfl rfl
theorem snapshotRequest : Statement .snapshotRequest := of_step rfl rfl
theorem snapshot : Statement .snapshot := of_step rfl rfl
theorem energyControllerStep : Statement .energyControllerStep := of_step rfl rfl
theorem powerCeilingTrip : Statement .powerCeilingTrip := of_step rfl rfl
theorem powerCeilingRestore : Statement .powerCeilingRestore := of_step rfl rfl
theorem thermalTrip : Statement .thermalTrip := of_step rfl rfl
theorem secureBoot : Statement .secureBoot := of_step rfl rfl
theorem deviceReset : Statement .deviceReset := of_step rfl rfl
theorem powerRemoval : Statement .powerRemoval := of_step rfl rfl
theorem soloServiceStart : Statement .soloServiceStart := of_step rfl rfl
theorem joiningStart : Statement .joiningStart := of_step rfl rfl
theorem fullServiceStart : Statement .fullServiceStart := of_step rfl rfl
theorem hostSubmit : Statement .hostSubmit := of_step rfl rfl
theorem invalidate : Statement .invalidate := of_step rfl rfl
theorem preEmpt : Statement .preEmpt := of_step rfl rfl
theorem saveArea : Statement .saveArea := of_step rfl rfl
theorem errorLog : Statement .errorLog := of_step rfl rfl
theorem attest : Statement .attest := of_step rfl rfl
theorem keyPage : Statement .keyPage := of_step rfl rfl
theorem keyLinkSend : Statement .keyLinkSend := of_step rfl rfl
theorem keyLinkReceive : Statement .keyLinkReceive := of_step rfl rfl
theorem contextCreate : Statement .contextCreate := of_step rfl rfl
theorem contextDestroy : Statement .contextDestroy := of_step rfl rfl
theorem homeMap : Statement .homeMap := of_step rfl rfl
theorem homeUnmap : Statement .homeUnmap := of_step rfl rfl
theorem agree : Statement .agree := of_step rfl rfl
theorem unknownCommand : Statement .unknownCommand := of_step rfl rfl
theorem registerWrite : Statement .registerWrite := of_step rfl rfl
theorem hostHdmAccess : Statement .hostHdmAccess := of_step rfl rfl
theorem hostSnoop : Statement .hostSnoop := of_step rfl rfl
theorem releasePointReached : Statement .releasePointReached := of_step rfl rfl
theorem countedPacketAdd : Statement .countedPacketAdd := of_step rfl rfl
theorem hostWriteCompletion : Statement .hostWriteCompletion := of_step rfl rfl
theorem backInvalidateAnswer : Statement .backInvalidateAnswer := of_step rfl rfl
theorem reportBatchDeadline : Statement .reportBatchDeadline := of_step rfl rfl
theorem missingRecordFetch : Statement .missingRecordFetch := of_step rfl rfl
theorem buddyCopyRebuilt : Statement .buddyCopyRebuilt := of_step rfl rfl

end Sys2Proof.Laws.Fields
end

