-- ==== Sys2Proof/Laws/Pipe.lean ====
section
/-! SUPPORT. What an instruction of the vector and scalar pipes does (R128): it checks its registers, then writes its destination,
raises flags and warnings, and pushes a latch entry, or takes a recorded result from the value table. -/

namespace Sys2Proof.Machine

/-! ## The register checks -/

theorem findSome_none {α β : Type} {l : List α} {f : α → Option β} (h : ∀ a, a ∈ l → f a = none) : l.findSome? f = none := by
  induction l with
  | nil => rfl
  | cons a r ih =>
    simp only [List.findSome?]
    rw [h a List.mem_cons_self]
    exact ih fun b hb => h b (List.mem_cons_of_mem _ hb)

theorem flatMap_nil {α β : Type} {l : List α} {f : α → List β} (h : ∀ a, a ∈ l → f a = []) : l.flatMap f = [] := by
  induction l with
  | nil => rfl
  | cons a r ih => rw [List.flatMap_cons, h a List.mem_cons_self, ih fun b hb => h b (List.mem_cons_of_mem _ hb)]; rfl

/-- Nothing stands in the way of a use of registers. -/
def Cx.clear (cx : Cx) (u : Use) : Prop :=
  (∀ j r, j < 32 → inSet u.lanes j = true → r ∈ cx.rowsOf u.code u.n u.wide j →
    r < cx.w.rows.length ∧ (cx.w.row r).pend = 0 ∧ (u.read = false → (cx.w.row r).hold = 0) ∧
      (u.read = true → inSet (cx.w.row r).valid j = true ∧ inSet (cx.w.row r).soft j = false ∧ inSet (cx.w.row r).bad j = false)) ∧
  (u.lanes ≠ 0 → ∀ c, c ∈ sregsOf u.code u.n u.wide → vecAt cx.w.spend c 0 = 0)

theorem useProblem_none (cx : Cx) (us : List Use) (h : ∀ u, u ∈ us → cx.clear u) : cx.useProblem us = none := by
  have find : ∀ p : Use → Nat → Nat → Bool, (∀ u, u ∈ us → ∀ j r, j < 32 → inSet u.lanes j = true → r ∈ cx.rowsOf u.code u.n u.wide j →
      p u r j = false) → cx.findRow us p = none := by
    intro p hp
    unfold Cx.findRow
    refine findSome_none fun u hu => findSome_none fun j hj => ?_
    obtain ⟨h1, h2⟩ := lanesOf_mem.mp hj
    rw [Option.map_eq_none_iff, List.find?_eq_none]
    intro r hr
    rw [hp u hu j r h1 h2 hr]
    exact Bool.false_ne_true
  unfold Cx.useProblem
  rw [find _ (fun u hu j r hj hl hr => by simpa using ((h u hu).1 j r hj hl hr).1)]
  dsimp only
  have hrows : (us.flatMap fun u => (lanesOf u.lanes).flatMap fun j => (cx.rowsOf u.code u.n u.wide j).filter
      fun r => decide ((cx.w.row r).pend ≠ 0) || (!u.read && decide ((cx.w.row r).hold ≠ 0))) = [] := by
    refine flatMap_nil fun u hu => flatMap_nil fun j hj => ?_
    obtain ⟨h1, h2⟩ := lanesOf_mem.mp hj
    rw [List.filter_eq_nil_iff]
    intro r hr
    obtain ⟨-, hp, hh, -⟩ := (h u hu).1 j r h1 h2 hr
    cases hu' : u.read with
    | true => simp [hp]
    | false => simp [hp, hh hu']
  have hsregs : (us.flatMap fun u => if u.lanes = 0 then [] else (sregsOf u.code u.n u.wide).filter fun r => decide (vecAt cx.w.spend r 0 ≠ 0)) = [] := by
    refine flatMap_nil fun u hu => ?_
    split
    · rfl
    · rename_i hl
      rw [List.filter_eq_nil_iff]
      intro c hc
      simp [(h u hu).2 hl c hc]
  rw [hrows, hsregs]
  simp only [List.isEmpty_nil, Bool.not_true, Bool.or_self, Bool.false_eq_true, if_false]
  rw [find _ (fun u hu j r hj hl hr => ?_)]
  · rfl
  · obtain ⟨-, -, -, hv⟩ := (h u hu).1 j r hj hl hr
    cases hu' : u.read with
    | true => simp [(hv hu').1]
    | false => simp

/-- A mark that stands in no lane read is found nowhere (R186). -/
theorem marked_nil (cx : Cx) (us : List Use) (mark : RowSt → Lanes)
    (h : ∀ u, u ∈ us → u.read = true → ∀ j r, j < 32 → inSet u.lanes j = true → r ∈ cx.rowsOf u.code u.n u.wide j →
      inSet (mark (cx.w.row r)) j = false) : cx.marked us mark = [] := by
  unfold Cx.marked
  refine flatMap_nil fun u hu => ?_
  split
  · rename_i hr
    refine flatMap_nil fun j hj => ?_
    obtain ⟨h1, h2⟩ := lanesOf_mem.mp hj
    rw [List.map_eq_nil_iff, List.filter_eq_nil_iff]
    intro r hm
    rw [h u hu hr j r h1 h2 hm]
    exact Bool.false_ne_true
  · rfl

theorem sound_clear (cx : Cx) (us : List Use) (s : State) (f : State → Res) (h : ∀ u, u ∈ us → cx.clear u) : cx.sound us s f = f s := by
  unfold Cx.sound
  rw [marked_nil cx us RowSt.bad fun u hu hr j r h1 h2 h3 => (((h u hu).1 j r h1 h2 h3).2.2.2 hr).2.2,
    marked_nil cx us RowSt.soft fun u hu hr j r h1 h2 h3 => (((h u hu).1 j r h1 h2 h3).2.2.2 hr).2.1]
  rfl

theorem checked_none (cx : Cx) (us : List Use) (s : State) (f : State → Res) (h : ∀ u, u ∈ us → cx.clear u) : cx.checked us s f = f s := by
  unfold Cx.checked
  rw [useProblem_none cx us h]
  exact sound_clear cx us s f h

/-! ## What computing leaves of a warp -/

/-- A warp without what an instruction of the pipes may change in it. -/
def Warp.off (w : Warp) : Warp :=
  { w with rows := [], sregs := vecOf 16 fun _ => 0, warn := 0, fstat := 0, subrpl := 0, reuse := 0, collide := 0 }

/-- A warp after results have been written: as `Written`, with warnings and flags added. -/
structure Calced (w w' : Warp) (P : Nat → Nat → Option Word) (S : Nat → Option Word) (F : Flags) : Prop where
  rest : w'.off = w.off
  len : w'.rows.length = w.rows.length
  waits : ∀ r, (w'.row r).pend = (w.row r).pend ∧ (w'.row r).hold = (w.row r).hold
  lane : ∀ r j, r < w.rows.length → j < 32 → laneWord (w'.row r).data j = (P r j).getD (laneWord (w.row r).data j)
  valid : ∀ r j, r < w.rows.length → j < 32 → inSet (w'.row r).valid j = ((P r j).isSome || inSet (w.row r).valid j)
  scalar : ∀ c, c < 16 → w'.sreg c = (S c).getD (w.sreg c)
  warn : ∃ x, w'.warn = w.warn ||| x
  flags : w'.fstat = w.fstat ||| F.setWidth 32
  reuse : w'.reuse = w.reuse

theorem off_of_rest {w w' : Warp}
    (h : { w' with rows := [], sregs := vecOf 16 fun _ => 0 } = ({ w with rows := [], sregs := vecOf 16 fun _ => 0 } : Warp)) :
    w'.off = w.off ∧ w'.warn = w.warn ∧ w'.fstat = w.fstat ∧ w'.reuse = w.reuse := by
  cases w; cases w'
  simp only [Warp.mk.injEq, Warp.off] at h ⊢
  simp_all

theorem Written.calced {w w' : Warp} {P : Nat → Nat → Option Word} {S : Nat → Option Word} (h : Written w w' P S) : Calced w w' P S 0 := by
  obtain ⟨h1, h2, h3, h4⟩ := off_of_rest h.rest
  exact ⟨h1, h.len, h.waits, h.lane, h.valid, h.scalar, ⟨0, by rw [h2]; simp⟩, by rw [h3]; simp, h4⟩

theorem Calced.refl (w : Warp) : Calced w w (fun _ _ => none) (fun _ => none) 0 := (Written.refl w).calced

theorem Calced.trans {u v w : Warp} {P Q : Nat → Nat → Option Word} {S T : Nat → Option Word} {F G : Flags} (h : Calced u v P S F)
    (i : Calced v w Q T G) : Calced u w (fun r j => (Q r j).or (P r j)) (fun c => (T c).or (S c)) (F ||| G) := by
  refine ⟨i.rest.trans h.rest, i.len.trans h.len, fun r => ⟨(i.waits r).1.trans (h.waits r).1, (i.waits r).2.trans (h.waits r).2⟩, ?_, ?_, ?_,
    ?_, ?_, i.reuse.trans h.reuse⟩
  · intro r j hr hj
    rw [i.lane r j (h.len ▸ hr) hj, h.lane r j hr hj]
    cases Q r j <;> simp
  · intro r j hr hj
    rw [i.valid r j (h.len ▸ hr) hj, h.valid r j hr hj]
    cases Q r j <;> simp
  · intro c hc
    rw [i.scalar c hc, h.scalar c hc]
    cases T c <;> simp
  · obtain ⟨x, hx⟩ := h.warn
    obtain ⟨y, hy⟩ := i.warn
    exact ⟨x ||| y, by rw [hy, hx, BitVec.or_assoc]⟩
  · rw [i.flags, h.flags, BitVec.or_assoc, BitVec.setWidth_or]

theorem Calced.congr {w w' : Warp} {P Q : Nat → Nat → Option Word} {S T : Nat → Option Word} {F G : Flags}
    (h : Calced w w' P S F) (e : ∀ r j, j < 32 → Q r j = P r j) (f : ∀ c, c < 16 → T c = S c) (x : G = F) : Calced w w' Q T G :=
  ⟨h.rest, h.len, h.waits, fun r j hr hj => by rw [e r j hj]; exact h.lane r j hr hj,
   fun r j hr hj => by rw [e r j hj]; exact h.valid r j hr hj, fun c hc => by rw [f c hc]; exact h.scalar c hc, h.warn, by rw [x]; exact h.flags, h.reuse⟩

theorem calced_status {w w' : Warp} (x : Word) (f : Flags) (h : w'.off = w.off) (hr : w'.rows = w.rows) (hs : w'.sregs = w.sregs)
    (hw : w'.warn = w.warn ||| x) (hf : w'.fstat = w.fstat ||| f.setWidth 32) (hu : w'.reuse = w.reuse) :
    Calced w w' (fun _ _ => none) (fun _ => none) f := by
  have e : ∀ r, w'.row r = w.row r := fun r => by unfold Warp.row; rw [hr]
  exact ⟨h, by rw [hr], fun r => by rw [e]; exact ⟨rfl, rfl⟩, fun r j _ _ => by rw [e]; rfl, fun r j _ _ => by rw [e]; simp,
    fun c _ => by unfold Warp.sreg; rw [hs]; rfl, ⟨x, hw⟩, hf, hu⟩

/-- What computing in warp `k` does to a state. -/
structure Computed (k : Nat) (s t : State) (P : Nat → Nat → Option Word) (S : Nat → Option Word) (F : Flags) : Prop where
  outside : Outside s t
  port : t.issuing = s.issuing
  gone : ∀ j, s.warp? j = none → t.warp? j = none
  kept : ∀ j w, j ≠ k → s.warp? j = some w → ∃ w', t.warp? j = some w' ∧ SameRows w w'
  own : ∀ w, s.warp? k = some w → ∃ w', t.warp? k = some w' ∧ Calced w w' P S F

section
variable {k : Nat} {r s t : State} {P Q : Nat → Nat → Option Word} {S T : Nat → Option Word} {F G : Flags}

theorem RegsWritten.computed (h : RegsWritten k s t P S) : Computed k s t P S 0 :=
  ⟨h.outside, h.port, h.gone, h.kept, fun w e => by
    obtain ⟨w', e', i⟩ := h.own w e
    exact ⟨w', e', i.calced⟩⟩

theorem Computed.refl (s : State) : Computed k s s (fun _ _ => none) (fun _ => none) 0 := (RegsWritten.refl s).computed

theorem Computed.trans (h : Computed k r s P S F) (i : Computed k s t Q T G) :
    Computed k r t (fun r j => (Q r j).or (P r j)) (fun c => (T c).or (S c)) (F ||| G) :=
  ⟨h.outside.trans i.outside, i.port.trans h.port, fun j e => i.gone j (h.gone j e), fun j w hj e => by
    obtain ⟨w', e', h'⟩ := h.kept j w hj e
    obtain ⟨w'', e'', i'⟩ := i.kept j w' hj e'
    exact ⟨w'', e'', h'.trans i'⟩, fun w e => by
    obtain ⟨w', e', h'⟩ := h.own w e
    obtain ⟨w'', e'', i'⟩ := i.own w' e'
    exact ⟨w'', e'', h'.trans i'⟩⟩

theorem Computed.congr (h : Computed k s t P S F) (e : ∀ r j, j < 32 → Q r j = P r j) (f : ∀ c, c < 16 → T c = S c) (x : G = F) :
    Computed k s t Q T G :=
  ⟨h.outside, h.port, h.gone, h.kept, fun v hv => by
    obtain ⟨w', e', i⟩ := h.own v hv
    exact ⟨w', e', i.congr e f x⟩⟩

theorem computed_modWarp (s : State) (k : Nat) (f : Warp → Warp) (h : ∀ w, Calced w (f w) P S F) : Computed k s (s.modWarp k f) P S F := by
  refine ⟨outside_modWarp _ _ _, rfl, ?_, ?_, ?_⟩
  · intro j hj
    by_cases e : j = k
    · subst e; simp only [State.warp?, State.modWarp, tabLook_tabUpd, if_true] at hj ⊢; rw [hj]; rfl
    · rw [modWarp_other _ _ _ _ e]; exact hj
  · intro j w hj e
    exact ⟨w, by rw [modWarp_other _ _ _ _ hj]; exact e, SameRows.refl w⟩
  · intro w e
    exact ⟨_, modWarp_own _ e, h w⟩

theorem sendOnce_reshared (s : State) (e : Instr) (c : Cue) : Reshared s (s.sendOnce e c) := by
  unfold State.sendOnce
  split
  · exact Reshared.refl s
  · exact ⟨outside_of_warps s s.warps _ _ s.issuing, rfl, fun _ h => h, fun _ w h => ⟨w, h, SameRows.refl w⟩⟩

theorem lostRows_computed (s : State) (l : List Nat) : Computed k s (s.lostRows l) (fun _ _ => none) (fun _ => none) 0 := by
  have h : ∀ l s, Reshared s (State.lostRows s l) := by
    intro l
    induction l with
    | nil => exact fun s => Reshared.refl s
    | cons n r ih => exact fun s => (sendOnce_reshared s _ _).trans (ih _)
  exact (RegsWritten.of_reshared (h l s)).computed

end

theorem warn_computed (cx : Cx) (s : State) (x : Word) : Computed cx.k s (cx.warn s x) (fun _ _ => none) (fun _ => none) 0 := by
  unfold Cx.warn
  split
  · exact Computed.refl s
  · exact computed_modWarp s cx.k _ fun w => calced_status x 0 rfl rfl rfl rfl (by simp [Warp.addWarn]) rfl

theorem modCore_computed (k : Nat) (s : State) (c : Nat) (f : Core → Core) (h : ∀ x, (f x).still = x.still) :
    Computed k s (s.modCore c f) (fun _ _ => none) (fun _ => none) 0 :=
  (RegsWritten.of_reshared (reshared_setCore s c _ (h _))).computed

theorem insert_still (c : Core) (e : VEntry) : (c.insert e).still = c.still := by
  unfold Core.insert
  split
  · rfl
  · split <;> rfl

/-! ## Before a result is written -/

/-- What noting the sources does to the issuing warp: warnings are added, and its monitor may fire where a log record is stored. -/
structure Noted (k : Nat) (s t : State) : Prop where
  port : t.issuing = s.issuing
  own : ∀ w, s.warp? k = some w → ∃ x y, t.warp? k = some { w with monitor := x, warn := w.warn ||| y }

theorem Noted.refl (k : Nat) (s : State) : Noted k s s := ⟨rfl, fun w h => ⟨w.monitor, 0, by simp [h]⟩⟩

theorem Noted.trans {k : Nat} {r s t : State} (h : Noted k r s) (i : Noted k s t) : Noted k r t :=
  ⟨i.port.trans h.port, fun w e => by
    obtain ⟨x, y, e1⟩ := h.own w e
    obtain ⟨x', y', e2⟩ := i.own _ e1
    exact ⟨x', y ||| y', by rw [e2, ← BitVec.or_assoc]⟩⟩

theorem HubKeeps.noted {k : Nat} {s t : State} (h : HubKeeps s t) : Noted k s t :=
  ⟨h.port, fun w e => by
    obtain ⟨x, hx⟩ := h.kept k w e
    exact ⟨x, 0, by simp [hx]⟩⟩

theorem warn_noted (cx : Cx) (s : State) (x : Word) : Noted cx.k s (cx.warn s x) := by
  unfold Cx.warn
  split
  · exact Noted.refl _ s
  · exact ⟨rfl, fun w h => ⟨w.monitor, x, modWarp_own _ h⟩⟩

theorem readTime_noted (cx : Cx) (n : Nat) (s : State) : Noted cx.k s (cx.readTime n s) := by
  unfold Cx.readTime State.logTick
  exact (warn_noted cx s _).trans (hubKeeps_orderLog _ _ _ _).noted

theorem noteSrcs_noted (cx : Cx) (srcs : List Src) (s : State) (q : Lanes) : Noted cx.k s (cx.noteSrcs srcs s q) := by
  unfold Cx.noteSrcs
  dsimp only
  split
  · exact (warn_noted cx s _).trans (readTime_noted cx _ _)
  · exact warn_noted cx s _

theorem debugBlock_warn (cx : Cx) (s : State) (x : Word) (a b : Nat) : (cx.warn s x).debugBlock a b = s.debugBlock a b := by
  unfold Cx.warn
  split <;> rfl

/-- No log is kept, or no pod time is read. -/
def Cx.unlogged (cx : Cx) (s : State) (srcs : List Src) : Prop :=
  s.debugBlock cx.b.chip cx.b.ctx = none ∨ ∀ x, x ∈ srcs → x.old = false → x.code ≠ 116

/-- Warnings of a warp, and nothing else, are added to. -/
structure WarnsOnly (k : Nat) (s t : State) : Prop where
  outside : Outside s t
  port : t.issuing = s.issuing
  others : ∀ j, j ≠ k → t.warp? j = s.warp? j
  own : ∀ w, s.warp? k = some w → ∃ y, t.warp? k = some { w with warn := w.warn ||| y }

theorem WarnsOnly.refl (k : Nat) (s : State) : WarnsOnly k s s := ⟨Outside.refl s, rfl, fun _ _ => rfl, fun w h => ⟨0, by simp [h]⟩⟩

theorem WarnsOnly.trans {k : Nat} {r s t : State} (h : WarnsOnly k r s) (i : WarnsOnly k s t) : WarnsOnly k r t :=
  ⟨h.outside.trans i.outside, i.port.trans h.port, fun j hj => (i.others j hj).trans (h.others j hj), fun w e => by
    obtain ⟨x, e1⟩ := h.own w e
    obtain ⟨y, e2⟩ := i.own _ e1
    exact ⟨x ||| y, by rw [e2, ← BitVec.or_assoc]⟩⟩

theorem warn_only (cx : Cx) (s : State) (x : Word) : WarnsOnly cx.k s (cx.warn s x) := by
  unfold Cx.warn
  split
  · exact WarnsOnly.refl _ s
  · exact ⟨outside_modWarp _ _ _, rfl, fun j hj => modWarp_other _ _ _ _ hj, fun w h => ⟨x, modWarp_own _ h⟩⟩

theorem noteSrcs_only (cx : Cx) (srcs : List Src) (s : State) (q : Lanes) (h : cx.unlogged s srcs) : WarnsOnly cx.k s (cx.noteSrcs srcs s q) := by
  unfold Cx.noteSrcs
  dsimp only
  have h1 := warn_only cx s (cx.srcWarn srcs)
  split
  · rename_i x hx
    rcases h with h | h
    · unfold Cx.readTime State.logTick
      rw [orderLog_none _ _ _ _ (by rw [debugBlock_warn, debugBlock_warn]; exact h)]
      exact h1.trans (warn_only cx _ _)
    · have hp := List.find?_some hx
      have hm := List.mem_of_find?_eq_some hx
      simp only [Bool.and_eq_true, decide_eq_true_eq, Bool.not_eq_true'] at hp
      exact absurd hp.1.1 (h x hm hp.1.2)
  · exact h1

/-! ## Results of the value table (R180) -/

/-- Rows of a warp replaced by shared contents. -/
structure Replaced (w w' : Warp) (rows : List Nat) : Prop where
  rest : { w' with rows := [] } = ({ w with rows := [] } : Warp)
  len : w'.rows.length = w.rows.length
  waits : ∀ r, (w'.row r).pend = (w.row r).pend ∧ (w'.row r).hold = (w.row r).hold
  others : ∀ r, r ∉ rows → (w'.row r).bare = (w.row r).bare

theorem Replaced.of_same {w w' : Warp} (h : SameRows w w') (l : List Nat) : Replaced w w' l :=
  ⟨h.rest, h.len, fun r => by
    have := h.row r
    simp only [RowSt.bare, RowSt.mk.injEq] at this
    exact ⟨this.2.2.1, this.2.2.2.1⟩, fun r _ => h.row r⟩

theorem Replaced.trans {u v w : Warp} {l m : List Nat} (h : Replaced u v l) (i : Replaced v w m) : Replaced u w (l ++ m) :=
  ⟨i.rest.trans h.rest, i.len.trans h.len, fun r => ⟨(i.waits r).1.trans (h.waits r).1, (i.waits r).2.trans (h.waits r).2⟩,
   fun r hr => by
    rw [List.mem_append, not_or] at hr
    exact (i.others r hr.2).trans (h.others r hr.1)⟩

structure RowsReplaced (k : Nat) (s t : State) (rows : List Nat) : Prop where
  outside : Outside s t
  port : t.issuing = s.issuing
  gone : ∀ j, s.warp? j = none → t.warp? j = none
  kept : ∀ j w, j ≠ k → s.warp? j = some w → ∃ w', t.warp? j = some w' ∧ SameRows w w'
  own : ∀ w, s.warp? k = some w → ∃ w', t.warp? k = some w' ∧ Replaced w w' rows

theorem RowsReplaced.of_reshared {k : Nat} {s t : State} (h : Reshared s t) (l : List Nat) : RowsReplaced k s t l :=
  ⟨h.outside, h.port, h.gone, fun j w _ e => h.kept j w e, fun w e => by
    obtain ⟨w', e', i⟩ := h.kept k w e
    exact ⟨w', e', Replaced.of_same i l⟩⟩

theorem RowsReplaced.trans {k : Nat} {r s t : State} {l m : List Nat} (h : RowsReplaced k r s l) (i : RowsReplaced k s t m) :
    RowsReplaced k r t (l ++ m) :=
  ⟨h.outside.trans i.outside, i.port.trans h.port, fun j e => i.gone j (h.gone j e), fun j w hj e => by
    obtain ⟨w', e', h'⟩ := h.kept j w hj e
    obtain ⟨w'', e'', i'⟩ := i.kept j w' hj e'
    exact ⟨w'', e'', h'.trans i'⟩, fun w e => by
    obtain ⟨w', e', h'⟩ := h.own w e
    obtain ⟨w'', e'', i'⟩ := i.own w' e'
    exact ⟨w'', e'', h'.trans i'⟩⟩

theorem shareRow_replaced (cx : Cx) (s : State) (r : Nat) (p : Nat × Nat) : RowsReplaced cx.k s (cx.shareRow s r p) [r] := by
  unfold Cx.shareRow
  split
  · rename_i w v hw hv
    split
    · exact RowsReplaced.of_reshared (Reshared.refl s) _
    · dsimp only
      generalize (w.row r).ver = ver
      generalize (w.row r).held = own
      have h1 := (unshare_reshared s cx.k r).trans (reshared_modWarp (s.unshare cx.k r) p.1
        (fun v => v.setRow p.2 { v.row p.2 with refs := (v.row p.2).refs ++ [(cx.k, r)] }) (fun v => setRow_same rfl))
      generalize (s.unshare cx.k r).modWarp p.1 (fun v => v.setRow p.2 { v.row p.2 with refs := (v.row p.2).refs ++ [(cx.k, r)] }) = s1 at h1
      have h2 : RowsReplaced cx.k s1 (s1.modWarp cx.k fun w => w.setRow r
          { w.row r with data := (v.row p.2).data, valid := (v.row p.2).valid, ver := ver, share := some p, refs := [], own := own }) [r] := by
        refine ⟨outside_modWarp _ _ _, rfl, ?_, ?_, ?_⟩
        · intro j hj
          by_cases e : j = cx.k
          · subst e; simp only [State.warp?, State.modWarp, tabLook_tabUpd, if_true] at hj ⊢; rw [hj]; rfl
          · rw [modWarp_other _ _ _ _ e]; exact hj
        · intro j w hj e
          exact ⟨w, by rw [modWarp_other _ _ _ _ hj]; exact e, SameRows.refl w⟩
        · intro w e
          refine ⟨_, modWarp_own _ e, rfl, by simp [Warp.setRow], ?_, ?_⟩
          · intro r'
            rw [setRow_row]
            split
            · rename_i e; obtain ⟨rfl, -⟩ := e; exact ⟨rfl, rfl⟩
            · exact ⟨rfl, rfl⟩
          · intro r' hr'
            rw [setRow_row, if_neg]
            rintro ⟨rfl, -⟩
            exact hr' (List.mem_singleton.mpr rfl)
      have h3 := (RowsReplaced.of_reshared (k := cx.k) h1 []).trans h2
      exact h3
  · exact RowsReplaced.of_reshared (Reshared.refl s) _

theorem foldl_shareRow (cx : Cx) (l : List (Nat × (Nat × Nat))) (s : State) :
    RowsReplaced cx.k s (l.foldl (fun s p => cx.shareRow s p.1 p.2) s) (l.map Prod.fst) := by
  induction l generalizing s with
  | nil => exact RowsReplaced.of_reshared (Reshared.refl s) _
  | cons a r ih =>
    rw [List.foldl_cons, List.map_cons]
    exact (shareRow_replaced cx s a.1 a.2).trans (ih _)

/-- What a hit does to the warp that takes it. -/
structure HitIn (w w' : Warp) (rows : List Nat) : Prop where
  rest : w'.off = w.off
  len : w'.rows.length = w.rows.length
  waits : ∀ r, (w'.row r).pend = (w.row r).pend ∧ (w'.row r).hold = (w.row r).hold
  others : ∀ r, r ∉ rows → (w'.row r).bare = (w.row r).bare
  scalar : w'.sregs = w.sregs
  warn : w'.warn = w.warn
  flags : ∃ f : Flags, w'.fstat = w.fstat ||| f.setWidth 32
  reuse : w'.reuse = w.reuse + 1

/-- A HIT (R180) changes the result rows, flags and REUSE alone. -/
structure HitTaken (k : Nat) (s t : State) (rows : List Nat) : Prop where
  outside : Outside s t
  port : t.issuing = s.issuing
  gone : ∀ j, s.warp? j = none → t.warp? j = none
  kept : ∀ j w, j ≠ k → s.warp? j = some w → ∃ w', t.warp? j = some w' ∧ SameRows w w'
  own : ∀ w, s.warp? k = some w → ∃ w', t.warp? k = some w' ∧ HitIn w w' rows

theorem takeHit_taken (cx : Cx) (s : State) (e : VEntry) (rows : List Nat) : HitTaken cx.k s (cx.takeHit s e rows) rows := by
  unfold Cx.takeHit
  dsimp only
  have h1 := foldl_shareRow cx (rows.zip e.res) s
  generalize (rows.zip e.res).foldl (fun s p => cx.shareRow s p.1 p.2) s = s1 at h1
  have sub : ∀ r, r ∉ rows → r ∉ (rows.zip e.res).map Prod.fst := by
    intro r hr hm
    obtain ⟨p, hp, rfl⟩ := List.mem_map.mp hm
    exact hr (List.of_mem_zip hp).1
  have hcore : ∀ t : State, Reshared t (t.modCore cx.w.core fun c =>
      if c.vtab.contains e = true then { c with vtab := e :: c.vtab.filter (fun x => decide (x ≠ e)) } else c) := by
    intro t
    refine reshared_setCore t _ _ ?_
    dsimp only
    split <;> rfl
  have h3 := hcore (s1.modWarp cx.k fun w => { w.addFlags e.fl with reuse := w.reuse + 1 })
  refine ⟨(h1.outside.trans (outside_modWarp _ _ _)).trans h3.outside, h3.port.trans h1.port, ?_, ?_, ?_⟩
  · intro j hj
    refine h3.gone j ?_
    have := h1.gone j hj
    by_cases e : j = cx.k
    · subst e; simp only [State.warp?, State.modWarp, tabLook_tabUpd, if_true] at this ⊢; rw [this]; rfl
    · rw [modWarp_other _ _ _ _ e]; exact this
  · intro j w hj hw
    obtain ⟨w', e', i⟩ := h1.kept j w hj hw
    obtain ⟨w'', e'', i'⟩ := h3.kept j w' (by rw [modWarp_other _ _ _ _ hj]; exact e')
    exact ⟨w'', e'', i.trans i'⟩
  · intro w hw
    obtain ⟨w', e', i⟩ := h1.own w hw
    obtain ⟨w'', e'', i'⟩ := h3.kept cx.k _ (modWarp_own _ e')
    have q := i'.rest
    have hrow := i'.row
    have hlen := i'.len
    refine ⟨w'', e'', ?_⟩
    have hr := i.rest
    cases w; cases w'; cases w''
    simp only [Warp.mk.injEq, Warp.addFlags] at hr q
    refine ⟨?_, hlen.trans i.len, ?_, ?_, ?_, ?_, ⟨e.fl, ?_⟩, ?_⟩
    · simp only [Warp.off, Warp.mk.injEq]; simp_all
    · intro r
      have := hrow r
      simp only [RowSt.bare, RowSt.mk.injEq] at this
      have w1 := i.waits r
      exact ⟨this.2.2.1.trans w1.1, this.2.2.2.1.trans w1.2⟩
    · intro r hr'
      exact (hrow r).trans (i.others r (sub r hr'))
    · simp_all
    · simp_all
    · simp_all
    · simp_all

/-! ## Running the pipes -/

/-- The words that a pipe instruction writes into rows, and into scalar registers. -/
def Cx.pipeWords (cx : Cx) (p : Pipe) (r j : Nat) : Option Word :=
  (match p.hi with
    | some h => if p.d.toNat < 112 then dstWords cx.w.base (p.dstCode + 2) p.wide (cx.wroteLanes p) (h (cx.opsOf p)) r j else none
    | none => none).or
  (dstWords cx.w.base p.dstCode p.wide (cx.wroteLanes p) (fun j => (p.f (cx.opsOf p) j).v) r j)

def Cx.pipeScalars (cx : Cx) (p : Pipe) (c : Nat) : Option Word :=
  (match p.hi with
    | some h => if p.d.toNat < 112 then dstScalars (p.dstCode + 2) p.wide (cx.wroteLanes p) (h (cx.opsOf p)) c else none
    | none => none).or
  (dstScalars p.dstCode p.wide (cx.wroteLanes p) (fun j => (p.f (cx.opsOf p) j).v) c)

theorem readied_noted (cx : Cx) (p : Pipe) (s : State) : Noted cx.k s (cx.readied p s) := by
  unfold Cx.readied
  exact (noteSrcs_noted cx p.srcs _ _).trans (warn_noted cx _ _)

theorem readied_only (cx : Cx) (p : Pipe) (s : State) (hl : cx.unlogged s p.srcs) : WarnsOnly cx.k s (cx.readied p s) := by
  unfold Cx.readied
  exact (noteSrcs_only cx p.srcs _ _ hl).trans (warn_only cx _ _)

/-- The flags that a pipe instruction raises (R116). -/
def Cx.pipeFlags (cx : Cx) (p : Pipe) : Flags := orFlags (cx.lanesFor p) (p.f (cx.opsOf p))

theorem calc_computed (cx : Cx) (p : Pipe) (s : State) : Computed cx.k s (cx.calc p s) (cx.pipeWords p) (cx.pipeScalars p) (cx.pipeFlags p) := by
  unfold Cx.calc
  dsimp only
  have h1 : Computed cx.k s (s.modWarp cx.k fun w => (w.addFlags (orFlags (cx.lanesFor p) (p.f (cx.opsOf p)))).addReplay
      ((lanesOf (cx.lanesFor p)).any fun j => (p.f (cx.opsOf p) j).sub)) (fun _ _ => none) (fun _ => none) (cx.pipeFlags p) :=
    computed_modWarp _ _ _ fun w => calced_status 0 _ rfl rfl rfl (by simp [Warp.addReplay, Warp.addFlags]) rfl rfl
  generalize (s.modWarp cx.k fun w => (w.addFlags (orFlags (cx.lanesFor p) (p.f (cx.opsOf p)))).addReplay
      ((lanesOf (cx.lanesFor p)).any fun j => (p.f (cx.opsOf p) j).sub)) = s1 at h1
  have h2 := h1.trans (writeDst_written cx s1 p.dstCode p.wide (cx.wroteLanes p) fun j => (p.f (cx.opsOf p) j).v).computed
  cases hh : p.hi with
  | some f =>
    dsimp only
    split
    · rename_i hd
      exact (h2.trans (writeDst_written cx _ _ p.wide _ _).computed).congr (fun _ _ _ => by simp [Cx.pipeWords, hh, hd])
        (fun _ _ => by simp [Cx.pipeScalars, hh, hd]) (by simp)
    · rename_i hd
      exact h2.congr (fun _ _ _ => by simp [Cx.pipeWords, hh, hd]) (fun _ _ => by simp [Cx.pipeScalars, hh, hd]) (by simp)
  | none => exact h2.congr (fun _ _ _ => by simp [Cx.pipeWords, hh]) (fun _ _ => by simp [Cx.pipeScalars, hh]) (by simp)

/-- THE PIPES (R128, R180): with its registers in order, an instruction of the pipes is done: it notes what its sources warn of,
then computes its destination, or takes it from the value table. -/
theorem pipe_done (cx : Cx) (p : Pipe) (s : State) (hu : ∀ u, u ∈ cx.usesOf p → cx.clear u) :
    ∃ t push, cx.pipe p s = .done t push ∧
      (Computed cx.k (cx.readied p s) t (cx.pipeWords p) (cx.pipeScalars p) (cx.pipeFlags p) ∨
        ∃ base, cx.tableBase p = some base ∧ HitTaken cx.k (cx.readied p s) t (p.dstRows base)) := by
  unfold Cx.pipe
  rw [checked_none cx _ s _ hu]
  dsimp only
  generalize cx.readied p s = n
  split
  · exact ⟨_, _, rfl, Or.inl (calc_computed cx p n)⟩
  · rename_i base hb
    split
    · exact ⟨_, _, rfl, Or.inr ⟨base, hb, takeHit_taken cx n _ _⟩⟩
    · rename_i collide lost _
      refine ⟨_, _, rfl, Or.inl ?_⟩
      have h0 := lostRows_computed (k := cx.k) n lost
      generalize n.lostRows lost = n0 at h0
      have h1 : Computed cx.k n (if collide = true then n0.modWarp cx.k (fun w => { w with collide := w.collide + 1 }) else n0)
          (fun _ _ => none) (fun _ => none) 0 := by
        split
        · have h := computed_modWarp n0 cx.k (fun w => { w with collide := w.collide + 1 }) (fun w => calced_status 0 0 rfl rfl rfl (by simp)
            (by simp) rfl)
          exact (h0.trans h).congr (G := 0) (fun _ _ _ => rfl) (fun _ _ => rfl) (by simp)
        · exact h0
      generalize (if collide = true then n0.modWarp cx.k (fun w => { w with collide := w.collide + 1 }) else n0) = n1 at h1
      have h2 := (h1.trans (calc_computed cx p n1)).congr (Q := cx.pipeWords p) (T := cx.pipeScalars p) (fun _ _ _ => by simp) (fun _ _ => by simp)
        (G := cx.pipeFlags p) (by simp)
      generalize cx.calc p n1 = n2 at h2
      exact (h2.trans (modCore_computed cx.k n2 cx.w.core _ fun c => insert_still c _)).congr (fun _ _ _ => by simp) (fun _ _ => by simp) (by simp)

end Sys2Proof.Machine
end

