-- ==== Sys2Proof/Laws/PipeIssue.lean ====
section
/-! SUPPORT. An instruction of the pipes from its issue to its end: what it leaves of the state, and what its destination holds. -/

namespace Sys2Proof.Machine

theorem bare_of_still {w w' : Warp} (h : w'.still = w.still) : w'.bare = w.bare := by
  unfold Warp.bare; rw [h]

theorem bare_of_off {w w' : Warp} (h : w'.off = w.off) : w'.bare = w.bare := by
  cases w; cases w'
  simp only [Warp.off, Warp.bare, Warp.still, Warp.mk.injEq] at h ⊢
  simp_all

theorem still_row {w w' : Warp} (h : w'.still = w.still) (r : Nat) : (w'.row r).bare = (w.row r).bare := by
  have hb : w'.rows.map RowSt.bare = w.rows.map RowSt.bare := by
    simp only [Warp.still, Warp.mk.injEq] at h; simp_all
  have e : ∀ (l : List RowSt) (r : Nat), (l.getD r {}).bare = (l.map RowSt.bare).getD r {} := by
    intro l r
    simp only [List.getD_eq_getElem?_getD, List.getElem?_map]
    cases l[r]? <;> rfl
  unfold Warp.row
  rw [e, e, hb]

theorem still_len {w w' : Warp} (h : w'.still = w.still) : w'.rows.length = w.rows.length := by
  have hb : w'.rows.map RowSt.bare = w.rows.map RowSt.bare := by
    simp only [Warp.still, Warp.mk.injEq] at h; simp_all
  simpa using congrArg List.length hb

theorem still_rest {w w' : Warp} (h : w'.still = w.still) : w'.sregs = w.sregs ∧ w'.fstat = w.fstat ∧ w'.reuse = w.reuse ∧ w'.intrap = w.intrap ∧
    w'.trapcause = w.trapcause ∧ w'.trappc = w.trappc := by
  simp only [Warp.still, Warp.mk.injEq] at h
  simp_all

theorem off_rest {w w' : Warp} (h : w'.off = w.off) : w'.gangs = w.gangs ∧ w'.intrap = w.intrap ∧ w'.trapcause = w.trapcause ∧ w'.trappc = w.trappc := by
  simp only [Warp.off, Warp.mk.injEq] at h
  simp_all

theorem bare_fields {x y : RowSt} (h : x.bare = y.bare) : x.data = y.data ∧ x.valid = y.valid ∧ x.pend = y.pend ∧ x.hold = y.hold := by
  simp only [RowSt.bare, RowSt.mk.injEq] at h
  simp_all

/-- What an instruction of the pipes has done to its own warp. -/
structure PipeOwn (w w' : Warp) (P : Nat → Nat → Option Word) (S : Nat → Option Word) (F : Flags)
    (shared : Option (List Nat)) : Prop where
  bare : w'.bare = w.bare
  len : w'.rows.length = w.rows.length
  waits : ∀ r, (w'.row r).pend = (w.row r).pend ∧ (w'.row r).hold = (w.row r).hold
  warn : ∃ x, w'.warn = w.warn ||| x
  flags : ∃ f : Flags, w'.fstat = w.fstat ||| f.setWidth 32
  result :
    (w'.reuse = w.reuse ∧ w'.fstat = w.fstat ||| F.setWidth 32 ∧
      (∀ r j, r < w.rows.length → j < 32 → laneWord (w'.row r).data j = (P r j).getD (laneWord (w.row r).data j)) ∧
      (∀ r j, r < w.rows.length → j < 32 → inSet (w'.row r).valid j = ((P r j).isSome || inSet (w.row r).valid j)) ∧
      (∀ c, c < 16 → w'.sreg c = (S c).getD (w.sreg c))) ∨
    (∃ rows, shared = some rows ∧ w'.reuse = w.reuse + 1 ∧ (∀ r, r ∉ rows → (w'.row r).bare = (w.row r).bare) ∧ w'.sregs = w.sregs)

theorem PipeOwn.of_calced {w w' : Warp} {P : Nat → Nat → Option Word} {S : Nat → Option Word} {F : Flags} (h : Calced w w' P S F)
    (sh : Option (List Nat)) : PipeOwn w w' P S F sh :=
  ⟨bare_of_off h.rest, h.len, h.waits, h.warn, ⟨F, h.flags⟩, Or.inl ⟨h.reuse, h.flags, h.lane, h.valid, h.scalar⟩⟩

theorem PipeOwn.of_hit {w w' : Warp} {P : Nat → Nat → Option Word} {S : Nat → Option Word} {F : Flags} {rows : List Nat}
    (h : HitIn w w' rows) : PipeOwn w w' P S F (some rows) :=
  ⟨bare_of_off h.rest, h.len, h.waits, ⟨0, by rw [h.warn]; simp⟩, h.flags, Or.inr ⟨rows, rfl, h.reuse, h.others, h.scalar⟩⟩

/-- What comes before only adds warnings. -/
theorem PipeOwn.after {u v w : Warp} {P : Nat → Nat → Option Word} {S : Nat → Option Word} {F : Flags} {sh : Option (List Nat)}
    (h : v.still = u.still) (hw : ∃ x, v.warn = u.warn ||| x) (i : PipeOwn v w P S F sh) : PipeOwn u w P S F sh := by
  have hr := fun r => bare_fields (still_row h r)
  have hl := still_len h
  obtain ⟨h1, h2, h3, -⟩ := still_rest h
  obtain ⟨x, hx⟩ := hw
  obtain ⟨y, hy⟩ := i.warn
  have hs : ∀ c, v.sreg c = u.sreg c := fun c => by unfold Warp.sreg; rw [h1]
  refine ⟨i.bare.trans (bare_of_still h), i.len.trans hl, fun r => ?_, ⟨x ||| y, by rw [hy, hx, BitVec.or_assoc]⟩, ?_, ?_⟩
  · rw [(i.waits r).1, (i.waits r).2]; exact ⟨(hr r).2.2.1, (hr r).2.2.2⟩
  · rw [← h2]; exact i.flags
  · rcases i.result with ⟨a, f, b, c, d⟩ | ⟨rows, a, b, c, d⟩
    · left
      refine ⟨a.trans h3, by rw [f, h2], fun r j hr' hj => ?_, fun r j hr' hj => ?_, fun k hk => ?_⟩
      · rw [b r j (hl ▸ hr') hj, (hr r).1]
      · rw [c r j (hl ▸ hr') hj, (hr r).2.1]
      · rw [d k hk, hs]
    · right
      exact ⟨rows, a, by rw [b, h3], fun r hr' => (c r hr').trans (still_row h r), d.trans h1⟩

/-- What comes afterwards does not matter. -/
theorem PipeOwn.before {u v w : Warp} {P : Nat → Nat → Option Word} {S : Nat → Option Word} {F : Flags} {sh : Option (List Nat)}
    (i : PipeOwn u v P S F sh) (h : w.still = v.still) (hw : ∃ x, w.warn = v.warn ||| x) : PipeOwn u w P S F sh := by
  have hr := fun r => bare_fields (still_row h r)
  have hl := still_len h
  obtain ⟨h1, h2, h3, -⟩ := still_rest h
  obtain ⟨x, hx⟩ := hw
  obtain ⟨y, hy⟩ := i.warn
  have hs : ∀ c, w.sreg c = v.sreg c := fun c => by unfold Warp.sreg; rw [h1]
  refine ⟨(bare_of_still h).trans i.bare, hl.trans i.len, fun r => ?_, ⟨y ||| x, by rw [hx, hy, BitVec.or_assoc]⟩, ?_, ?_⟩
  · rw [(hr r).2.2.1, (hr r).2.2.2]; exact i.waits r
  · rw [h2]; exact i.flags
  · rcases i.result with ⟨a, f, b, c, d⟩ | ⟨rows, a, b, c, d⟩
    · left
      refine ⟨h3.trans a, by rw [h2, f], fun r j hr' hj => ?_, fun r j hr' hj => ?_, fun k hk => ?_⟩
      · rw [(hr r).1]; exact b r j hr' hj
      · rw [(hr r).2.1]; exact c r j hr' hj
      · rw [hs]; exact d k hk
    · right
      exact ⟨rows, a, by rw [h3, b], fun r hr' => (still_row h r).trans (c r hr'), h1.trans d⟩

theorem closeRun_still (w : Warp) : w.closeRun.still = w.still := rfl

theorem contextOf_still (i : OpInfo) (s : State) (k : Nat) (m : Lanes) (w : Warp) (g : Gang) (b : Block) :
    (contextOf i s k m w g b).w.still = w.still ∧ (contextOf i s k m w g b).w.warn = w.warn ∧ (contextOf i s k m w g b).w.gangs = w.gangs := by
  rcases contextOf_w i s k m w g b with h | h <;> rw [h] <;> exact ⟨rfl, rfl, rfl⟩

theorem setWarp_own (s : State) (k : Nat) (w : Warp) : (s.setWarp k w).warp? k = some w := by
  simp [State.warp?, State.setWarp]

theorem setWarp_other (s : State) (k j : Nat) (w : Warp) (h : j ≠ k) : (s.setWarp k w).warp? j = s.warp? j := by
  simp only [State.warp?, State.setWarp]
  exact tabLook_tabPut_other _ _ _ _ h

theorem map_still_of_same {w w' : Warp} (h : SameRows w w') : w'.still = w.still := h.still

/-- AN INSTRUCTION OF THE PIPES FROM ISSUE TO END. With its role, its latches and its registers in order it completes; where no log
is written of a read of pod time, nothing but its own warp's results tells the state after it from the state before. -/
theorem issue_pipe {s : State} {k : Nat} {m : Lanes} {w : Warp} {g : Gang} {b : Block} (h : Issuing s k m w g b) (i : OpInfo) (p : Cx → Pipe)
    (hb : (contextOf i s k m w g b).barred g.pfx = none)
    (hu : ∀ u, u ∈ (contextOf i s k m w g b).usesOf (p (contextOf i s k m w g b)) → (contextOf i s k m w g b).clear u) :
    PastWord s (issue i s fun cx s => cx.pipe (p cx) s) k m g ∧
    ((contextOf i s k m w g b).unlogged s (p (contextOf i s k m w g b)).srcs →
      Outside s (issue i s fun cx s => cx.pipe (p cx) s) ∧ OthersKept s (issue i s fun cx s => cx.pipe (p cx) s) k ∧
      ∃ w', (issue i s fun cx s => cx.pipe (p cx) s).warp? k = some w' ∧
        PipeOwn w w' ((contextOf i s k m w g b).pipeWords (p (contextOf i s k m w g b))) ((contextOf i s k m w g b).pipeScalars (p (contextOf i s k m w g b)))
          ((contextOf i s k m w g b).pipeFlags (p (contextOf i s k m w g b)))
          (((contextOf i s k m w g b).tableBase (p (contextOf i s k m w g b))).map (p (contextOf i s k m w g b)).dstRows)) := by
  rw [issue_eq h i _ hb]
  obtain ⟨cs, cn, cg⟩ := contextOf_still i s k m w g b
  have hk : (contextOf i s k m w g b).k = k := rfl
  have hm : (contextOf i s k m w g b).m = m := rfl
  have hpc : (contextOf i s k m w g b).pc = g.pc := rfl
  generalize contextOf i s k m w g b = cx at *
  generalize p cx = q at *
  subst hk hm
  obtain ⟨t, push, e, he⟩ := pipe_done cx q (s.setWarp cx.k cx.w) hu
  rw [e]
  have hw0 := setWarp_own s cx.k cx.w
  -- the state before the results
  obtain ⟨x, y, hr⟩ := (readied_noted cx q (s.setWarp cx.k cx.w)).own _ hw0
  -- the state with the results
  have hres : ∃ w2, t.warp? cx.k = some w2 ∧ w2.gangs = w.gangs ∧ w2.intrap = w.intrap ∧ w2.trapcause = w.trapcause ∧ w2.trappc = w.trappc := by
    have hf := still_rest cs
    rcases he with hc | ⟨base, -, hh⟩
    · obtain ⟨w2, h2, i2⟩ := hc.own _ hr
      have o := off_rest i2.rest
      exact ⟨w2, h2, o.1.trans cg, o.2.1.trans hf.2.2.2.1, o.2.2.1.trans hf.2.2.2.2.1, o.2.2.2.trans hf.2.2.2.2.2⟩
    · obtain ⟨w2, h2, i2⟩ := hh.own _ hr
      have o := off_rest i2.rest
      exact ⟨w2, h2, o.1.trans cg, o.2.1.trans hf.2.2.2.1, o.2.2.1.trans hf.2.2.2.2.1, o.2.2.2.trans hf.2.2.2.2.2⟩
  obtain ⟨w2, hw2, g2, t1, t2, t3⟩ := hres
  have hg2 : w2.gang? cx.m = some g := by
    have := h.gang
    unfold Warp.gang? at this ⊢
    rw [g2]; exact this
  have done := concluded_done cx g.pfx (s.setWarp cx.k cx.w) t push w2 g hw2 hg2 (by rw [h.runs]; rfl)
  generalize cx.concluded g.pfx (s.setWarp cx.k cx.w) (Res.done t push) = u at done ⊢
  obtain ⟨w3, hw3, s3, n3, g3, hg3, p3, f3, -, -⟩ := done.own
  have r3 := still_rest s3
  refine ⟨⟨done.port, w, w3, g3, h.warp, hw3, hg3, by rw [p3, hpc], f3, r3.2.2.2.1.trans t1, r3.2.2.2.2.1.trans t2⟩, ?_⟩
  intro hl
  have hl' : cx.unlogged (s.setWarp cx.k cx.w) q.srcs := hl
  have hc1 := readied_only cx q _ hl'
  generalize cx.readied q (s.setWarp cx.k cx.w) = n at hc1 he
  obtain ⟨y1, hw1⟩ := hc1.own _ hw0
  have still1 : ({ cx.w with warn := cx.w.warn ||| y1 } : Warp).still = w.still := cs
  have he' : Outside n t ∧ (∀ j v, j ≠ cx.k → n.warp? j = some v → ∃ v', t.warp? j = some v' ∧ SameRows v v') ∧
      (∀ j, n.warp? j = none → t.warp? j = none) ∧
      PipeOwn { cx.w with warn := cx.w.warn ||| y1 } w2 (cx.pipeWords q) (cx.pipeScalars q) (cx.pipeFlags q) ((cx.tableBase q).map q.dstRows) := by
    rcases he with hc | ⟨base, hbase, hh⟩
    · refine ⟨hc.outside, hc.kept, hc.gone, ?_⟩
      obtain ⟨v, hv, i2⟩ := hc.own _ hw1
      rw [hw2] at hv; cases hv
      exact PipeOwn.of_calced i2 _
    · refine ⟨hh.outside, hh.kept, hh.gone, ?_⟩
      obtain ⟨v, hv, i2⟩ := hh.own _ hw1
      rw [hw2] at hv; cases hv
      rw [hbase]
      exact PipeOwn.of_hit i2
  obtain ⟨o2, kept2, gone2, own2⟩ := he'
  have o0 : Outside s (s.setWarp cx.k cx.w) := outside_setWarp s cx.k cx.w
  refine ⟨((o0.trans hc1.outside).trans o2).trans done.outside, ?_, w3, hw3, ?_⟩
  · intro j hj
    have e1 : n.warp? j = s.warp? j := (hc1.others j hj).trans (setWarp_other s cx.k j cx.w hj)
    cases hs : s.warp? j with
    | none =>
      rw [hs] at e1
      rw [done.others j hj (gone2 j e1)]
    | some v =>
      rw [hs] at e1
      obtain ⟨v1, h1, i1⟩ := kept2 j v hj e1
      obtain ⟨v2, h2, i2⟩ := done.eased j v1 hj h1
      rw [h2]
      simp only [Option.map_some]
      rw [i2.still, i1.still]
  · exact (own2.after still1 ⟨y1, by rw [← cn]⟩).before s3 ⟨_, n3⟩

/-! ## Shapes -/

/-- A pipe instruction uses the operands of a shape and no others. -/
structure Covers (cx : Cx) (x : Shape) (p : Pipe) : Prop where
  d : p.d = x.dst.1
  n : x.dst.2 = if p.hi.isSome then 4 else if p.wide then 2 else 1
  hiwide : p.hi.isSome = true → p.wide = true
  srcs : ∀ y, y ∈ p.srcs → (y.code, if y.wide then 2 else 1) ∈ (if y.old then x.old else x.srcs)
  scalar : ∀ y, y ∈ x.srcs → ∃ z, z ∈ p.srcs ∧ z.code = y.1 ∧ z.old = false
  reads : ∀ f, p.reads = some f → ∀ l, (∀ j, j < 32 → inSet l j = true → inSet cx.q j = true) → ∀ u, u ∈ f l → u.read = true ∧ (∃ y, (y ∈ x.srcs ∨ y ∈ x.old) ∧ u.code = y.1 ∧ u.n = y.2 ∧ (y.2 = 1 ∧ u.wide = false ∨ y.2 = 2 ∧ u.wide = true)) ∧
     ∀ j, j < 32 → inSet u.lanes j = true → inSet cx.q j = true
  only : ∀ f, p.only = some f → ∀ j, j < 32 → inSet (f (cx.opsOf p)) j = true → inSet cx.q j = true

/-- The frame's description of an instruction fits a shape. -/
structure InfoFits (i : OpInfo) (x : Shape) (p : Pfx) : Prop where
  g : i.g = x.guard
  dst : i.dst = some x.dst.1
  noLatch : i.noLatch = false
  control : i.control = false
  roles : i.roles = [.gen, .copy, .mtx, .vec]
  reads : i.reads p = x.srcs.map Prod.fst
  names : i.names = []

theorem q_of_lead (cx : Cx) (m : Lanes) (hq : cx.lead = (lowestLane m).filter (inSet cx.q)) (j : Nat) (h : cx.lead = some j) : inSet cx.q j = true ∧ j < 32 := by
  rw [hq] at h
  obtain ⟨h1, h2⟩ := Option.filter_eq_some_iff.mp h
  refine ⟨h2, ?_⟩
  unfold lowestLane at h1
  have := List.mem_of_head? h1
  exact (lanesOf_mem.mp this).1

theorem lanesFor_sub (cx : Cx) (p : Pipe) (m : Lanes) (hq : cx.lead = (lowestLane m).filter (inSet cx.q)) (j : Nat) (hj : j < 32) (h : inSet (cx.lanesFor p) j = true) : inSet cx.q j = true := by
  unfold Cx.lanesFor at h
  split at h
  · split at h
    · rename_i i hi
      rw [laneBit_inSet hj] at h
      have := of_decide_eq_true h
      subst this
      exact (q_of_lead cx m hq _ hi).1
    · simp [inSet] at h
  · exact h

theorem clear_of_readable (cx : Cx) (w : Warp) (y : Operand) (q : Lanes) (u : Use) (hr : cx.w.rows = w.rows) (hbs : cx.w.base = w.base) (hsp : cx.w.spend = w.spend)
   (hq : ∀ j, j < 32 → inSet u.lanes j = true → inSet q j = true)
   (h : w.readable q y) (hc : u.code = y.1) (hn : u.n = y.2) (hw : y.2 = 1 ∧ u.wide = false ∨ y.2 = 2 ∧ u.wide = true) (hread : u.read = true) : cx.clear u := by
  have hrow : ∀ r, cx.w.row r = w.row r := fun r => by unfold Warp.row; rw [hr]
  have hfirst : regCode u.code u.wide = y.first := by
    unfold regCode Operand.first pairCode
    rw [hc]
    rcases hw with ⟨h1, h2⟩ | ⟨h1, h2⟩ <;> rw [h1, h2] <;> simp
  constructor
  · intro j r hj hl hm
    unfold Cx.rowsOf at hm
    rw [hfirst] at hm
    split at hm
    · rename_i hlt
      obtain ⟨i, hi, rfl⟩ := List.mem_map.mp hm
      have := h.1 (by rw [← hc]; exact hlt) j hj (hq j hj hl) i (by rw [← hn]; exact List.mem_range.mp hi)
      unfold Warp.rowOf at this
      rw [hbs, hr]
      refine ⟨this.1, ?_, ?_, ?_⟩
      · rw [hrow]; exact this.2.1
      · intro hf; rw [hread] at hf; cases hf
      · intro _; rw [hrow]; exact this.2.2
    · cases hm
  · intro _ c hm
    unfold sregsOf at hm
    rw [hfirst] at hm
    split at hm
    · rename_i hlt
      obtain ⟨i, hi, rfl⟩ := List.mem_map.mp hm
      rw [hsp]
      exact h.2 (by rw [← hc]; exact hlt.1) (by rw [← hc]; exact hlt.2) i (by rw [← hn]; exact List.mem_range.mp hi)
    · cases hm

theorem clear_of_writable (cx : Cx) (w : Warp) (y : Operand) (q : Lanes) (u : Use) (hr : cx.w.rows = w.rows) (hbs : cx.w.base = w.base) (hsp : cx.w.spend = w.spend)
   (hq : ∀ j, j < 32 → inSet u.lanes j = true → inSet q j = true)
   (h : w.writable q y) (hlt : u.code.toNat < 96 ↔ y.1.toNat < 96) (hlt2 : u.code.toNat < 112 ↔ y.1.toNat < 112) (hn : u.n = y.2) (hfirst : y.1.toNat < 112 → regCode u.code u.wide = y.first) (hread : u.read = false) : cx.clear u := by
  have hrow : ∀ r, cx.w.row r = w.row r := fun r => by unfold Warp.row; rw [hr]
  constructor
  · intro j r hj hl hm
    unfold Cx.rowsOf at hm
    split at hm
    · rename_i hlt'
      rw [hfirst (by omega)] at hm
      obtain ⟨i, hi, rfl⟩ := List.mem_map.mp hm
      have := h.1 (hlt.mp hlt') j hj (hq j hj hl) i (by rw [← hn]; exact List.mem_range.mp hi)
      unfold Warp.rowOf at this
      rw [hbs, hr]
      refine ⟨this.1, ?_, ?_, ?_⟩
      · rw [hrow]; exact this.2.1
      · intro _; rw [hrow]; exact this.2.2
      · intro hf; rw [hread] at hf; cases hf
    · cases hm
  · intro _ c hm
    unfold sregsOf at hm
    split at hm
    · rename_i hlt'
      rw [hfirst (by omega)] at hm
      obtain ⟨i, hi, rfl⟩ := List.mem_map.mp hm
      rw [hsp]
      exact h.2 (by omega) (by omega) i (by rw [← hn]; exact List.mem_range.mp hi)
    · cases hm

theorem firstOf_quad (d : Code) (h : d.toNat < 112) : (BitVec.ofNat 7 (d.toNat / 4 * 4) : Code).toNat = d.toNat / 4 * 4 := by
  simp; omega

theorem uses_clear (cx : Cx) (w : Warp) (m : Lanes) (x : Shape) (p : Pipe) (hr : cx.w.rows = w.rows) (hbs : cx.w.base = w.base) (hsp : cx.w.spend = w.spend)
    (hlead : cx.lead = (lowestLane m).filter (inSet cx.q)) (hq : cx.q = guarded w m x.guard) (hx : x.ready w m) (hc : Covers cx x p) :
    ∀ u, u ∈ cx.usesOf p → cx.clear u := by
  intro u hu
  have sub := lanesFor_sub cx p m hlead
  have rd : ∀ y, (y ∈ x.srcs ∨ y ∈ x.old) → w.readable (guarded w m x.guard) y := fun y hy => hy.elim (hx.sources y) (hx.old y)
  unfold Cx.usesOf at hu
  rcases List.mem_append.mp hu with hu | hu
  · cases hf : p.reads with
    | some f =>
      rw [hf] at hu
      obtain ⟨h1, ⟨y, hy, h2, h3, h4⟩, h5⟩ := hc.reads f hf _ sub u hu
      exact clear_of_readable cx w y cx.q u hr hbs hsp h5 (hq ▸ rd y hy) h2 h3 h4 h1
    | none =>
      rw [hf] at hu
      obtain ⟨z, hz, rfl⟩ := List.mem_map.mp hu
      have := hc.srcs z hz
      refine clear_of_readable cx w (z.code, if z.wide then 2 else 1) cx.q _ hr hbs hsp sub (hq ▸ rd _ ?_) rfl rfl ?_ rfl
      · cases ho : z.old <;> rw [ho] at this
        · exact Or.inl this
        · exact Or.inr this
      · cases z.wide <;> simp
  · rw [List.mem_singleton] at hu
    subst hu
    have hd := hx.dst
    refine clear_of_writable cx w x.dst cx.q _ hr hbs hsp sub (hq ▸ hd) ?_ ?_ ?_ ?_ rfl
    · unfold Pipe.dstCode
      rw [hc.d]
      dsimp only
      split
      · rename_i h
        simp only [Bool.and_eq_true, decide_eq_true_eq] at h
        rw [firstOf_quad _ h.2]; omega
      · exact Iff.rfl
    · unfold Pipe.dstCode
      rw [hc.d]
      dsimp only
      split
      · rename_i h
        simp only [Bool.and_eq_true, decide_eq_true_eq] at h
        rw [firstOf_quad _ h.2]; omega
      · exact Iff.rfl
    · rw [hc.n]
    · intro h
      have hn := hc.n
      unfold Pipe.dstCode
      rw [hc.d]
      dsimp only
      unfold regCode Operand.first pairCode
      rw [hn]
      cases hh : p.hi.isSome with
      | true =>
        rw [hc.hiwide hh]
        simp [h]; omega
      | false =>
        cases p.wide <;> simp

theorem barred_none (i : OpInfo) (s : State) (k : Nat) (m : Lanes) (w : Warp) (g : Gang) (b : Block) (x : Shape) (hi : InfoFits i x g.pfx) (hx : x.ready w m) :
    (contextOf i s k m w g b).barred g.pfx = none := by
  unfold Cx.barred
  dsimp only
  have hrole : (contextOf i s k m w g b).w.role = w.role := by rcases contextOf_w i s k m w g b with h | h <;> rw [h] <;> rfl
  have hinfo : (contextOf i s k m w g b).info = i := rfl
  rw [hrole, hinfo]
  have hall : (i.allowed g.pfx).contains w.role = true := by
    unfold OpInfo.allowed
    rw [hi.dst, hi.roles]
    dsimp only
    rcases hx.role with h | h | ⟨h1, h2⟩
    · rw [h]; split <;> rfl
    · rw [h]; split <;> rfl
    · rw [if_pos]
      · cases w.role <;> rfl
      · rw [hi.reads, h2, Bool.and_true, List.all_eq_true]
        intro c hc
        obtain ⟨y, hy, rfl⟩ := List.mem_map.mp hc
        exact h1 y hy
  rw [hall]
  rw [hi.names]
  have orElse_none : ∀ o : Option Code, (o.orElse fun _ => none) = o := fun o => by cases o <;> rfl
  simp only [Bool.not_true, Bool.false_eq_true, if_false, Option.map_eq_none_iff, List.find?_nil, orElse_none, List.find?_eq_none]
  intro c hc
  obtain ⟨h1, h2⟩ := List.mem_filter.mp hc
  have h1' := h1
  rw [hi.reads] at h1
  obtain ⟨y, hy, rfl⟩ := List.mem_map.mp h1
  obtain ⟨r, hr, hm, hp⟩ := hx.latches y hy (by simpa [isLatch] using h2)
  have hw : (contextOf i s k m w g b).w = w := by
    unfold contextOf
    dsimp only
    rw [hr]
    dsimp only
    have hne : ((i.reads g.pfx).filter isLatch).isEmpty = false := by
      cases he : (i.reads g.pfx).filter isLatch with
      | nil => rw [he] at hc; cases hc
      | cons => rfl
    rw [hi.control, hne, hm]
    simp
  rw [hw, hr, hi.noLatch]
  simp; omega


theorem wrote_sub (cx : Cx) (p : Pipe) (m : Lanes) (x : Shape) (hlead : cx.lead = (lowestLane m).filter (inSet cx.q)) (hc : Covers cx x p) (j : Nat) (hj : j < 32)
    (h : inSet (cx.wroteLanes p) j = true) : inSet cx.q j = true := by
  unfold Cx.wroteLanes at h
  split at h
  · rename_i f hf
    exact hc.only f hf j hj h
  · exact lanesFor_sub cx p m hlead j hj h

theorem dstWords_some {base : Nat → Nat} {d : Code} {wide : Bool} {lanes : Lanes} {v : Nat → DWord} {r j : Nat}
    (h : (dstWords base d wide lanes v r j).isSome = true) :
    d.toNat < 96 ∧ inSet lanes j = true ∧ ∃ i, i < (if wide then 2 else 1) ∧ r = base j + regCode d wide + i := by
  unfold dstWords at h
  split at h
  · rename_i hd
    refine ⟨hd.1, hd.2, ?_⟩
    split at h
    · rename_i hw
      exact ⟨1, by simp [hw.1], by omega⟩
    · split at h
      · rename_i hw
        exact ⟨0, by split <;> omega, by omega⟩
      · cases h
  · cases h

theorem dstScalars_some {d : Code} {wide : Bool} {lanes : Lanes} {v : Nat → DWord} {c : Nat}
    (h : (dstScalars d wide lanes v c).isSome = true) :
    96 ≤ d.toNat ∧ d.toNat < 112 ∧ ∃ i, i < (if wide then 2 else 1) ∧ c = regCode d wide - 96 + i := by
  unfold dstScalars at h
  split at h
  · rename_i hd
    refine ⟨hd.1, hd.2, ?_⟩
    split at h
    · split at h
      · rename_i hw
        exact ⟨1, by simp [hw.1], hw.2⟩
      · split at h
        · rename_i hw
          exact ⟨0, by split <;> omega, by omega⟩
        · cases h
    · cases h
  · cases h

theorem regCode_dst (p : Pipe) (x : Shape) (cx : Cx) (hc : Covers cx x p) (h : p.d.toNat < 112) : regCode p.dstCode p.wide = x.dst.first := by
  have hn := hc.n
  unfold Pipe.dstCode regCode Operand.first pairCode
  rw [← hc.d, hn]
  cases hh : p.hi.isSome with
  | true =>
    rw [hc.hiwide hh]
    simp [h]; omega
  | false => cases p.wide <;> simp

theorem dstCode_lt (p : Pipe) : (p.dstCode.toNat < 96 ↔ p.d.toNat < 96) ∧ (p.dstCode.toNat < 112 ↔ p.d.toNat < 112) := by
  unfold Pipe.dstCode
  split
  · rename_i h
    simp only [Bool.and_eq_true, decide_eq_true_eq] at h
    rw [firstOf_quad _ h.2]; omega
  · exact ⟨Iff.rfl, Iff.rfl⟩

theorem dstCode2 (p : Pipe) (hh : p.hi.isSome = true) (h : p.d.toNat < 112) : (p.dstCode + 2).toNat = p.d.toNat / 4 * 4 + 2 ∧ p.dstCode.toNat = p.d.toNat / 4 * 4 := by
  have e : p.dstCode.toNat = p.d.toNat / 4 * 4 := by
    unfold Pipe.dstCode
    simp only [hh, h, decide_true, Bool.and_self, if_true]
    exact firstOf_quad _ h
  refine ⟨?_, e⟩
  rw [BitVec.toNat_add, e]
  have : (2 : Code).toNat = 2 := rfl
  rw [this]; omega

theorem pipeWords_dst (cx : Cx) (p : Pipe) (m : Lanes) (x : Shape) (w : Warp) (hbs : cx.w.base = w.base) (hlead : cx.lead = (lowestLane m).filter (inSet cx.q)) (hc : Covers cx x p) (r j : Nat) (hj : j < 32)
    (h : (cx.pipeWords p r j).isSome = true) : w.dstRow cx.q x.dst r j := by
  have sub := wrote_sub cx p m x hlead hc j hj
  unfold Cx.pipeWords at h
  rw [Option.isSome_or, Bool.or_eq_true] at h
  have hn := hc.n
  rcases h with h | h
  · cases hh : p.hi with
    | none => rw [hh] at h; cases h
    | some f =>
      rw [hh] at h
      dsimp only at h
      split at h
      · rename_i hd
        obtain ⟨h1, h2, i, h3, h4⟩ := dstWords_some h
        have hs : p.hi.isSome = true := by rw [hh]; rfl
        obtain ⟨e1, e2⟩ := dstCode2 p hs hd
        rw [e1] at h1
        rw [hs, if_pos rfl] at hn
        have hw := hc.hiwide hs
        rw [hw, if_pos rfl] at h3
        refine ⟨by rw [← hc.d]; omega, sub h2, i + 2, by omega, ?_⟩
        unfold Warp.rowOf Operand.first
        rw [hn, ← hc.d, ← hbs, h4]
        unfold regCode pairCode
        rw [hw, if_pos rfl, e1]
        omega
      · cases h
  · obtain ⟨h1, h2, i, h3, h4⟩ := dstWords_some h
    have h96 := (dstCode_lt p).1.mp h1
    refine ⟨by rw [← hc.d]; exact h96, sub h2, i, ?_, ?_⟩
    · rw [hn]
      split
      · rename_i hs; rw [hc.hiwide hs] at h3; simp at h3; omega
      · exact h3
    · unfold Warp.rowOf
      rw [← regCode_dst p x cx hc (by omega), ← hbs, h4]

theorem pipeScalars_dst (cx : Cx) (p : Pipe) (x : Shape) (hc : Covers cx x p) (c : Nat)
    (h : (cx.pipeScalars p c).isSome = true) : dstScalar x.dst c := by
  unfold Cx.pipeScalars at h
  rw [Option.isSome_or, Bool.or_eq_true] at h
  have hn := hc.n
  rcases h with h | h
  · cases hh : p.hi with
    | none => rw [hh] at h; cases h
    | some f =>
      rw [hh] at h
      dsimp only at h
      split at h
      · rename_i hd
        obtain ⟨h1, h2, i, h3, h4⟩ := dstScalars_some h
        have hs : p.hi.isSome = true := by rw [hh]; rfl
        obtain ⟨e1, e2⟩ := dstCode2 p hs hd
        rw [e1] at h1 h2
        rw [hs, if_pos rfl] at hn
        have hw := hc.hiwide hs
        rw [hw, if_pos rfl] at h3
        refine ⟨by rw [← hc.d]; omega, by rw [← hc.d]; omega, i + 2, by omega, ?_⟩
        unfold Operand.first
        rw [hn, ← hc.d, h4]
        unfold regCode pairCode
        rw [hw, if_pos rfl, e1]
        omega
      · cases h
  · obtain ⟨h1, h2, i, h3, h4⟩ := dstScalars_some h
    have h112 := (dstCode_lt p).2.mp h2
    have h96 : ¬ p.d.toNat < 96 := fun hx => by have := (dstCode_lt p).1.mpr hx; omega
    refine ⟨by rw [← hc.d]; omega, by rw [← hc.d]; omega, i, ?_, ?_⟩
    · rw [hn]
      split
      · rename_i hs; rw [hc.hiwide hs] at h3; simp at h3; omega
      · exact h3
    · rw [← regCode_dst p x cx hc (by omega), h4]

theorem sameBase_some {cx : Cx} {lanes : Lanes} {base : Nat} (h : cx.sameBase lanes = some base) : ∃ j, j < 32 ∧ inSet lanes j = true ∧ cx.w.base j = base := by
  unfold Cx.sameBase at h
  split at h
  · cases h
  · rename_i j hj
    split at h
    · cases h
      have := List.mem_of_head? hj
      obtain ⟨a, b⟩ := lanesOf_mem.mp this
      exact ⟨j, a, b, rfl⟩
    · cases h

theorem tableBase_dst (cx : Cx) (p : Pipe) (m : Lanes) (x : Shape) (w : Warp) (hbs : cx.w.base = w.base) (hlead : cx.lead = (lowestLane m).filter (inSet cx.q)) (hc : Covers cx x p) (base : Nat)
    (h : cx.tableBase p = some base) (r : Nat) (hr : r ∈ p.dstRows base) : ∃ j, j < 32 ∧ w.dstRow cx.q x.dst r j := by
  unfold Cx.tableBase at h
  split at h
  · rename_i hcond
    simp only [Bool.and_eq_true, decide_eq_true_eq] at hcond
    have hd : p.d.toNat < 96 := hcond.1.1.2
    have hh : p.hi = none := by simpa using hcond.1.1.1.1.1.2
    obtain ⟨j, hj, hl, hb⟩ := sameBase_some h
    refine ⟨j, hj, by rw [← hc.d]; exact hd, lanesFor_sub cx p m hlead j hj hl, ?_⟩
    unfold Pipe.dstRows at hr
    obtain ⟨i, hi, rfl⟩ := List.mem_map.mp hr
    have hn := hc.n
    rw [hh] at hn
    refine ⟨i, by rw [hn]; simpa using hi, ?_⟩
    unfold Warp.rowOf
    rw [← regCode_dst p x cx hc (by omega), ← hbs, hb]
    unfold Pipe.dstCode
    rw [hh]; rfl
  · cases h

/-- AN INSTRUCTION OF THE PIPES COMPLETES when its operands are in order, and leaves all but its destination alone. -/
theorem complete_of_pipe {i : OpInfo} {p : Cx → Pipe} {s : State} {k : Nat} {m : Lanes} {w : Warp} {g : Gang} {b : Block} {x : Shape} (h : Issuing s k m w g b) (hi : InfoFits i x g.pfx)
    (hx : x.ready w m)
    (hc : ∀ cx : Cx, (cx.w = w ∨ cx.w = w.closeRun) → cx.info = i → (cx.cen = match g.pfx.hmod with
        | some h => if h.cen && i.cen then some h.c else none
        | none => none) → (cx.lead = (lowestLane m).filter (inSet cx.q)) → Covers cx x (p cx)) :
    ∃ t, (Host.Outcome.next (issue i s fun cx s => cx.pipe (p cx) s) : Host.Outcome State Fault Refusal) = .next t ∧ PastWord s t k m g ∧
      ((s.debugBlock b.chip b.ctx = none ∨ ∀ y, y ∈ x.srcs → y.1 ≠ 116) →
        Outside s t ∧ OthersKept s t k ∧
        ∃ w', t.warp? k = some w' ∧ OnlyWrites w w' (w.dstRow (guarded w m x.guard) x.dst) (dstScalar x.dst)) := by
  have hb := barred_none i s k m w g b x hi hx
  have hcw := contextOf_w i s k m w g b
  have hq : (contextOf i s k m w g b).q = guarded w m x.guard := by
    have : (contextOf i s k m w g b).q = guarded (contextOf i s k m w g b).w m i.g := rfl
    rw [this, hi.g]
    rcases hcw with h | h <;> rw [h] <;> rfl
  have hlead : (contextOf i s k m w g b).lead = (lowestLane m).filter (inSet (contextOf i s k m w g b).q) := rfl
  have hcen : (contextOf i s k m w g b).cen = match g.pfx.hmod with
        | some h => if h.cen && i.cen then some h.c else none
        | none => none := by
    unfold contextOf
    dsimp only
    cases g.pfx.hmod <;> rfl
  have cov := hc _ hcw rfl hcen hlead
  have hrows : (contextOf i s k m w g b).w.rows = w.rows := by rcases hcw with h | h <;> rw [h] <;> rfl
  have hbase : (contextOf i s k m w g b).w.base = w.base := by rcases hcw with h | h <;> rw [h] <;> rfl
  have hspend : (contextOf i s k m w g b).w.spend = w.spend := by rcases hcw with h | h <;> rw [h] <;> rfl
  have hu := uses_clear (contextOf i s k m w g b) w m x _ hrows hbase hspend hlead hq hx cov
  obtain ⟨past, rest⟩ := issue_pipe h i p hb hu
  refine ⟨_, rfl, past, fun hlog => ?_⟩
  have hlog' : (contextOf i s k m w g b).unlogged s (p (contextOf i s k m w g b)).srcs := by
    rcases hlog with hl | hl
    · exact Or.inl hl
    · right
      intro z hz ho
      have := cov.srcs z hz
      rw [ho] at this
      exact hl _ this
  obtain ⟨o1, o2, w', hw', own⟩ := rest hlog'
  refine ⟨o1, o2, w', hw', own.bare, own.len, own.waits, ?_, ?_, own.warn, own.flags⟩
  · intro r j hr hj hn hreuse
    rcases own.result with ⟨-, -, h1, h2, -⟩ | ⟨rows, h1, h2, h3, -⟩
    · have hnone : (contextOf i s k m w g b).pipeWords (p (contextOf i s k m w g b)) r j = none := by
        cases hp : (contextOf i s k m w g b).pipeWords (p (contextOf i s k m w g b)) r j with
        | none => rfl
        | some v =>
          exact absurd (hq ▸ pipeWords_dst _ _ m x w hbase hlead cov r j hj (by rw [hp]; rfl)) hn
      rw [h1 r j hr hj, h2 r j hr hj, hnone]
      simp
    · rcases hreuse with hreuse | hall
      · rw [h2] at hreuse
        exact absurd hreuse (by bv_omega)
      · cases hb' : (contextOf i s k m w g b).tableBase (p (contextOf i s k m w g b)) with
        | none => rw [hb'] at h1; cases h1
        | some base =>
          rw [hb'] at h1
          cases h1
          have := bare_fields (h3 r (fun hm => by
            obtain ⟨j', hj', hd⟩ := tableBase_dst _ _ m x w hbase hlead cov base hb' r hm
            exact hall j' hj' (hq ▸ hd)))
          rw [this.1, this.2.1]
          exact ⟨rfl, rfl⟩
  · intro c hcl hn
    rcases own.result with ⟨-, -, -, -, h4⟩ | ⟨rows, -, -, -, h4⟩
    · have hnone : (contextOf i s k m w g b).pipeScalars (p (contextOf i s k m w g b)) c = none := by
        cases hp : (contextOf i s k m w g b).pipeScalars (p (contextOf i s k m w g b)) c with
        | none => rfl
        | some v => exact absurd (pipeScalars_dst _ _ x cov c (by rw [hp]; rfl)) hn
      rw [h4 c hcl, hnone]; rfl
    · unfold Warp.sreg; rw [h4]

theorem context_types {cx : Cx} {w : Warp} (h : cx.w = w ∨ cx.w = w.closeRun) :
    cx.w.itype = w.itype ∧ cx.w.ftype = w.ftype ∧ cx.w.tf = w.tf ∧ cx.w.tc = w.tc ∧ cx.w.fwide = w.fwide := by
  rcases h with h | h <;> rw [h] <;> exact ⟨rfl, rfl, rfl, rfl, rfl⟩

/-! ## Results -/

theorem scalar_of_covers {cx : Cx} {x : Shape} {p : Pipe} (hc : Covers cx x p) (ho : ∀ y, y ∈ x.old → scalarDst x.dst.1 = true → 96 ≤ y.1.toNat) :
    p.scalar = x.scalar := by
  unfold Pipe.scalar Shape.scalar
  rw [hc.d]
  cases hd : scalarDst x.dst.1 with
  | false => simp
  | true =>
    simp only [Bool.and_true]
    rw [Bool.eq_iff_iff, List.all_eq_true, List.all_eq_true]
    constructor
    · intro h y hy
      obtain ⟨z, hz, e1, e2⟩ := hc.scalar y hy
      have := h z hz
      unfold Src.scalar at this
      rw [e2] at this
      rw [← e1]
      exact this
    · intro h z hz
      have := hc.srcs z hz
      unfold Src.scalar
      cases hold : z.old with
      | true =>
        rw [hold] at this
        have := ho _ this hd
        simpa using this
      | false =>
        rw [hold] at this
        exact h _ this

theorem acting_eq {cx : Cx} {x : Shape} {p : Pipe} {w : Warp} {m : Lanes} (hs : p.scalar = x.scalar) (hq : cx.q = guarded w m x.guard)
    (hlead : cx.lead = (lowestLane m).filter (inSet cx.q)) (ho : p.once = false) : cx.lanesFor p = x.acting w m := by
  unfold Cx.lanesFor Shape.acting
  rw [ho, hs, Bool.or_false, hlead, hq]
  all_goals (cases x.scalar <;> rfl)

theorem sameBases {w w' : Warp} (h : w'.bare = w.bare) : w'.base = w.base := by
  have : w'.bases = w.bases := by
    simp only [Warp.bare, Warp.still, Warp.mk.injEq] at h; simp_all
  funext j
  unfold Warp.base
  rw [this]

/-- A destination of one or two registers holds what a pipe instruction writes. -/
theorem holds_of_own {cx : Cx} {x : Shape} {p : Pipe} {w w' : Warp} {m : Lanes} {sh : Option (List Nat)} (hbs : cx.w.base = w.base)
    (hc : Covers cx x p) (hact : cx.lanesFor p = x.acting w m) (hhi : p.hi = none) (honly : p.only = none)
    (hq : ∀ j, j < 32 → inSet (x.acting w m) j = true → inSet cx.q j = true) (hdst : w.writable cx.q x.dst)
    (own : PipeOwn w w' (cx.pipeWords p) (cx.pipeScalars p) (cx.pipeFlags p) sh) (hr : w'.reuse = w.reuse) :
    x.holds w w' m (fun j => (p.f (cx.opsOf p) j).v) := by
  have hn : x.dst.2 = if p.wide then 2 else 1 := by rw [hc.n, hhi]; rfl
  have hcode : p.dstCode = x.dst.1 := by unfold Pipe.dstCode; rw [hhi, hc.d]; rfl
  have hlanes : cx.wroteLanes p = x.acting w m := by unfold Cx.wroteLanes; rw [honly, hact]
  have hbase := sameBases own.bare
  rcases own.result with ⟨-, -, h1, -, h3⟩ | ⟨rows, -, h2, -, -⟩
  case inr => exact absurd (h2.symm.trans hr) (by bv_omega)
  have hreg : x.dst.1.toNat < 112 → regCode x.dst.1 p.wide = x.dst.first := by
    intro h
    have := regCode_dst p x cx hc (by rw [hc.d]; exact h)
    rw [hcode] at this
    exact this
  constructor
  · intro h96 j hj hl
    have hrow : ∀ i, i < x.dst.2 → laneWord (w'.row (w.rowOf x.dst j i)).data j = (cx.pipeWords p (w.rowOf x.dst j i) j).getD (laneWord (w.row (w.rowOf x.dst j i)).data j) :=
      fun i hi => h1 _ j (hdst.1 h96 j hj (hq j hj hl) i hi).1 hj
    have hw : ∀ i, cx.pipeWords p (w.rowOf x.dst j i) j = dstWords w.base x.dst.1 p.wide (x.acting w m) (fun j => (p.f (cx.opsOf p) j).v) (w.rowOf x.dst j i) j := by
      intro i
      unfold Cx.pipeWords
      rw [hhi, hcode, hlanes, hbs]
      rfl
    have hrowOf : ∀ i, w'.rowOf x.dst j i = w.rowOf x.dst j i := fun i => by unfold Warp.rowOf; rw [hbase]
    unfold Warp.reg
    rw [if_pos h96]
    rw [hrowOf, hrowOf]
    have hr' := hreg (by omega)
    cases hwide : p.wide with
    | true =>
      rw [hwide, if_pos rfl] at hn
      rw [if_pos hn, if_pos hn, hrow 1 (by omega), hrow 0 (by omega), hw, hw]
      unfold dstWords Warp.rowOf
      rw [hwide] at hr' ⊢
      simp only [h96, hl, and_self, if_true, hr', true_and]
      have : ¬ (w.base j + (x.dst.first + 1) = w.base j + x.dst.first + 0) := by omega
      rw [if_pos (by omega), if_neg this, if_pos (by omega)]
      simp only [Option.getD_some]
      apply BitVec.eq_of_getLsbD_eq
      intro b hb
      simp only [BitVec.getLsbD_append, BitVec.getLsbD_extractLsb', BitVec.getLsbD_setWidth]
      by_cases hb' : b < 32
      · simp [hb']
      · have e : 32 + (b - 32) = b := by omega
        have e2 : b - 32 < 32 := by omega
        simp [hb', e, e2]
    | false =>
      rw [hwide, if_neg (by simp)] at hn
      rw [if_neg (by omega), if_neg (by omega), hrow 0 (by omega), hw]
      unfold dstWords Warp.rowOf
      rw [hwide] at hr' ⊢
      simp only [h96, hl, and_self, if_true, hr', Bool.false_eq_true, false_and, if_false]
      rw [if_pos (by omega)]
      rfl
  · intro h96 h112 j hl
    have hs : ∀ c, c < 16 → w'.sreg c = (dstScalars x.dst.1 p.wide (x.acting w m) (fun j => (p.f (cx.opsOf p) j).v) c).getD (w.sreg c) := by
      intro c hc'
      rw [h3 c hc']
      unfold Cx.pipeScalars
      rw [hhi, hcode, hlanes]
      rfl
    have hr' := hreg h112
    unfold Warp.reg
    rw [if_neg (by omega)]
    have hfirst : x.dst.first - 96 + (x.dst.2 - 1) < 16 := by
      unfold Operand.first
      rw [hn]
      cases p.wide <;> simp <;> omega
    cases hwide : p.wide with
    | true =>
      rw [hwide, if_pos rfl] at hn
      rw [if_pos hn, if_pos hn, hs _ (by rw [hn] at hfirst; omega), hs _ (by rw [hn] at hfirst; omega)]
      unfold dstScalars
      rw [hwide] at hr' ⊢
      simp only [h96, h112, and_self, if_true, hl, hr', true_and]
      have : ¬ (x.dst.first - 96 = x.dst.first - 96 + 1) := by omega
      rw [if_neg this]
      simp only [Option.getD_some]
      apply BitVec.eq_of_getLsbD_eq
      intro b hb
      simp only [BitVec.getLsbD_append, BitVec.getLsbD_extractLsb', BitVec.getLsbD_setWidth]
      by_cases hb' : b < 32
      · simp [hb']
      · have e : 32 + (b - 32) = b := by omega
        have e2 : b - 32 < 32 := by omega
        simp [hb', e, e2]
    | false =>
      rw [hwide, if_neg (by simp)] at hn
      rw [if_neg (by omega), if_neg (by omega), hs _ (by rw [hn] at hfirst; omega)]
      unfold dstScalars
      rw [hwide] at hr' ⊢
      simp only [h96, h112, and_self, if_true, hl, hr', Bool.false_eq_true, false_and, if_false]
      rfl

theorem acting_sub {x : Shape} {w : Warp} {m : Lanes} {j : Nat} (hj : j < 32) (h : inSet (x.acting w m) j = true) :
    inSet (guarded w m x.guard) j = true := by
  unfold Shape.acting at h
  split at h
  · split at h
    · rename_i i hi
      rw [laneBit_inSet hj] at h
      have e := of_decide_eq_true h
      subst e
      exact (Option.filter_eq_some_iff.mp hi).2
    · simp [inSet] at h
  · exact h

/-- THE RESULT OF AN INSTRUCTION OF THE PIPES: where the value table did not supply it, the destination holds what the instruction
computes from its operands in each acting fibre, and FSTAT takes the flags of every acting fibre (R128, R116). -/
theorem result_of_pipe {i : OpInfo} {p : Cx → Pipe} {s : State} {k : Nat} {m : Lanes} {w : Warp} {g : Gang} {b : Block} {x : Shape}
    (h : Issuing s k m w g b) (hi : InfoFits i x g.pfx) (hx : x.ready w m) (hc : Covers (contextOf i s k m w g b) x (p (contextOf i s k m w g b)))
    (ho : ∀ y, y ∈ x.old → scalarDst x.dst.1 = true → 96 ≤ y.1.toNat) (hhi : (p (contextOf i s k m w g b)).hi = none)
    (honly : (p (contextOf i s k m w g b)).only = none) (honce : (p (contextOf i s k m w g b)).once = false)
    (hlog : s.debugBlock b.chip b.ctx = none ∨ ∀ y, y ∈ x.srcs → y.1 ≠ 116) :
    ∃ w', (issue i s fun cx s => cx.pipe (p cx) s).warp? k = some w' ∧ (w'.reuse = w.reuse →
      x.holds w w' m (fun j => ((p (contextOf i s k m w g b)).f ((contextOf i s k m w g b).opsOf (p (contextOf i s k m w g b))) j).v) ∧
      w'.fstat = w.fstat ||| (orFlags (x.acting w m)
        ((p (contextOf i s k m w g b)).f ((contextOf i s k m w g b).opsOf (p (contextOf i s k m w g b))))).setWidth 32) := by
  have hb := barred_none i s k m w g b x hi hx
  have hcw := contextOf_w i s k m w g b
  have hq : (contextOf i s k m w g b).q = guarded w m x.guard := by
    have : (contextOf i s k m w g b).q = guarded (contextOf i s k m w g b).w m i.g := rfl
    rw [this, hi.g]
    rcases hcw with h | h <;> rw [h] <;> rfl
  have hlead : (contextOf i s k m w g b).lead = (lowestLane m).filter (inSet (contextOf i s k m w g b).q) := rfl
  have hrows : (contextOf i s k m w g b).w.rows = w.rows := by rcases hcw with h | h <;> rw [h] <;> rfl
  have hbase : (contextOf i s k m w g b).w.base = w.base := by rcases hcw with h | h <;> rw [h] <;> rfl
  have hspend : (contextOf i s k m w g b).w.spend = w.spend := by rcases hcw with h | h <;> rw [h] <;> rfl
  have hu := uses_clear (contextOf i s k m w g b) w m x _ hrows hbase hspend hlead hq hx hc
  have hlog' : (contextOf i s k m w g b).unlogged s (p (contextOf i s k m w g b)).srcs := by
    rcases hlog with hl | hl
    · exact Or.inl hl
    · right
      intro z hz ho
      have := hc.srcs z hz
      rw [ho] at this
      exact hl _ this
  obtain ⟨-, -, w', hw', own⟩ := (issue_pipe h i p hb hu).2 hlog'
  have hact := acting_eq (scalar_of_covers hc ho) hq hlead honce
  refine ⟨w', hw', fun hr => ⟨?_, ?_⟩⟩
  · exact holds_of_own hbase hc hact hhi honly (fun j hj hl => hq ▸ acting_sub hj hl) (hq ▸ hx.dst) own hr
  · rcases own.result with ⟨-, h1, -⟩ | ⟨rows, -, h2, -⟩
    · rw [h1]
      unfold Cx.pipeFlags
      rw [hact]
    · exact absurd (h2.symm.trans hr) (by bv_omega)

/-- An operand reads the same in the context of any word that keeps its run and chain (R21, R27, R33). -/
theorem val_seenBy (i : OpInfo) (s : State) (k : Nat) (m : Lanes) (w : Warp) (g : Gang) (b : Block) (y : Src) (j : Nat)
    (hm : y.old = true ∨ y.code ∈ i.reads g.pfx) (hc : i.control = false) :
    (contextOf i s k m w g b).val y j = (seenBy i.sat s k m w g b).val y j := by
  have hw := contextOf_w i s k m w g b
  have hw' := contextOf_w { op := 0x18, producer := true, ext := true, sat := i.sat } s k m w g b
  have same : ∀ u v : Warp, (u = w ∨ u = w.closeRun) → (v = w ∨ v = w.closeRun) → u.base = v.base ∧ u.row = v.row ∧ u.sreg = v.sreg ∧ u.idx = v.idx ∧ u.loops = v.loops := by
    intro u v hu hv
    rcases hu with rfl | rfl <;> rcases hv with rfl | rfl <;> exact ⟨rfl, rfl, rfl, rfl, rfl⟩
  obtain ⟨e1, e2, e3, e4, e5⟩ := same _ _ hw hw'
  have hrun : 120 ≤ y.code.toNat → y.old = false → (contextOf i s k m w g b).w.run = (seenBy i.sat s k m w g b).w.run := by
    intro h1 h2
    have hmem : y.code ∈ i.reads g.pfx := by rcases hm with h | h; rw [h2] at h; cases h; exact h
    have hne : ((i.reads g.pfx).filter isLatch).isEmpty = false := by
      cases he : (i.reads g.pfx).filter isLatch with
      | nil =>
        have : y.code ∈ (i.reads g.pfx).filter isLatch := List.mem_filter.mpr ⟨hmem, by simp [isLatch, h1]⟩
        rw [he] at this; cases this
      | cons => rfl
    unfold seenBy contextOf
    dsimp only
    cases hr : w.run with
    | none => simp [hr]
    | some r =>
      dsimp only
      rw [hc, hne]
      simp
  have hext : y.code = 117 → y.old = false → (contextOf i s k m w g b).ext = (seenBy i.sat s k m w g b).ext := by
    intro h1 h2
    have hmem : y.code ∈ i.reads g.pfx := by rcases hm with h | h; rw [h2] at h; cases h; exact h
    rw [h1] at hmem
    unfold seenBy contextOf
    dsimp only
    have : (i.reads g.pfx).contains 117 = true := by simpa using hmem
    rw [this]
    simp
  have f1 : (contextOf i s k m w g b).pc = (seenBy i.sat s k m w g b).pc := rfl
  have f2 : (contextOf i s k m w g b).b = (seenBy i.sat s k m w g b).b := rfl
  have f4 : (contextOf i s k m w g b).sat = (seenBy i.sat s k m w g b).sat := rfl
  have f3 : (contextOf i s k m w g b).tick = (seenBy i.sat s k m w g b).tick := rfl
  have e1' : (contextOf i s k m w g b).w.base = (seenBy i.sat s k m w g b).w.base := e1
  have e2' : (contextOf i s k m w g b).w.row = (seenBy i.sat s k m w g b).w.row := e2
  have e3' : (contextOf i s k m w g b).w.sreg = (seenBy i.sat s k m w g b).w.sreg := e3
  have e4' : (contextOf i s k m w g b).w.idx = (seenBy i.sat s k m w g b).w.idx := e4
  have e5' : (contextOf i s k m w g b).w.loops = (seenBy i.sat s k m w g b).w.loops := e5
  generalize contextOf i s k m w g b = cx at *
  generalize seenBy i.sat s k m w g b = cy at *
  unfold Cx.val
  dsimp only
  have fp : cx.place j = cy.place j := by unfold Cx.place; rw [f2, e4', f1, e5']
  rw [e1', e2', e3', e4', fp, f2, f3]
  split
  · rfl
  · split
    · rfl
    · split
      · rfl
      · rename_i h1 h2 h3
        have ho : y.old = false := by simpa using h3
        split
        · rfl
        · rfl
        · rfl
        · rfl
        · rfl
        · rename_i h117
          have := hext (by apply BitVec.eq_of_toNat_eq; simpa using h117) ho
          unfold Cx.immV
          rw [this, f4]
        · rfl
        · rfl
        · have : 120 ≤ y.code.toNat := by
            have n (i : Nat) (h : y.code.toNat = i → False) : y.code.toNat ≠ i := h
            have := n 112 ‹_›; have := n 113 ‹_›; have := n 114 ‹_›; have := n 115 ‹_›
            have := n 116 ‹_›; have := n 117 ‹_›; have := n 118 ‹_›; have := n 119 ‹_›
            omega
          rw [hrun this ho]

end Sys2Proof.Machine
end

