-- ==== Sys2Proof/Tests/Slice0.lean ====
section
/-! SUPPORT. Tests: words written out from the encoding tables, terms that are not well formed, single steps on small states, and for
each statement states and operands that meet its premises. -/

namespace Sys2Proof.Tests

open Sys2Proof Sys2Proof.Machine

/- One theorem after another: in parallel, each of these evaluations would hold a thread of its own. -/
set_option Elab.async false
/-! ## Words (02 R17 to R20, R46) -/

theorem test_decode_nop : decodeWord 0x00000000 = .nop 0 0 0 0 := by decide
theorem test_decode_br : decodeWord 0x02200003 = .br 1 3 := by decide
theorem test_decode_loop : decodeWord 0x1A003182 = .loop 0 0 0x63 2 := by decide
theorem test_decode_vtype : decodeWord 0x1E020008 = .vtype 0 8 0 8 := by decide
theorem test_decode_cmpi : decodeWord 0x2800788C = .cmpi 0 1 0x71 0x0C := by decide
theorem test_decode_add : decodeWord 0x30019086 = .add 0 0x06 0x21 0x06 := by decide
theorem test_decode_xori : decodeWord 0x501B7981 = .xori 0 0x6D 0x73 1 := by decide
theorem test_decode_movi : decodeWord 0x6C198076 = .movi 0 0x66 0 0x76 := by decide
theorem test_decode_fadd : decodeWord 0x7140C205 = .fadd 10 3 4 5 := by decide
theorem test_decode_rndq : decodeWord 0x9000F8F0 = .rndq 0 3 0x71 0x70 := by decide
theorem test_decode_rdl : decodeWord 0x9C1B056A = .rdl 0 0x6C 0x0A 0x6A := by decide
theorem test_decode_wred : decodeWord 0x960140B0 = .wred 0 5 1 6 0 0 := by decide
theorem test_decode_salloc : decodeWord 0xA0188004 = .salloc 0 0x62 0 4 := by decide
theorem test_decode_lds : decodeWord 0xAA014443 = .lds 0 5 8 2 0 3 := by decide
theorem test_decode_wbase : decodeWord 0xB0003810 = .wbase 0 0 0x70 0x10 := by decide
theorem test_decode_ldw : decodeWord 0xB600C242 = .ldw 0 3 4 2 0 2 := by decide
theorem test_decode_stw : decodeWord 0xC4018441 = .stw 0 6 8 2 0 1 := by decide
theorem test_decode_atom : decodeWord 0xCA008504 = .atom 0 2 0x0A 0 4 := by decide
theorem test_decode_fence : decodeWord 0xD2000030 = .fence 0 0 0 1 2 := by decide
theorem test_decode_cp : decodeWord 0xDA193368 = .cp 0 0x64 0x66 0x68 := by decide
theorem test_decode_owait : decodeWord 0xE4004000 = .owait 0 1 0 0 := by decide
theorem test_decode_mma : decodeWord 0xE800C818 = .mma 0 3 0x10 0x18 := by decide
theorem test_decode_mdrnSt : decodeWord 0xEE00C260 = .mdrnSt 0 3 4 1 0 := by decide
theorem test_decode_maloc : decodeWord 0xF000C002 = .maloc 0 3 0 := by decide
theorem test_decode_mburst : decodeWord 0xF0003304 = .mburst 0 0 0x66 := by decide
theorem test_decode_coll : decodeWord 0xF4003200 = .coll 0 0 0x64 := by decide
theorem test_decode_put : decodeWord 0xF4183201 = .put 0 0x60 0x64 := by decide
theorem test_decode_grank : decodeWord 0xF418B186 = .grank 0 0x62 0x63 := by decide
theorem test_decode_sysrd : decodeWord 0xF618B18A = .sysrd 0 0x62 0x63 := by decide
theorem test_decode_trap : decodeWord 0xF6003185 = .trap 0 0 0x63 := by decide
theorem test_decode_unassigned : decodeWord 0xFE000000 = .illegalInstruction 0xFE000000 := by decide
theorem test_decode_bytes : decodeBytes [0x86, 0x90, 0x01, 0x30] = .ok (.add 0 0x06 0x21 0x06, []) := by rfl
theorem test_decode_short : decodeBytes [0x86, 0x90, 0x01] = .error .truncated := by rfl

/-! ## Terms that are not well formed -/

theorem test_refuses_atom : WellFormed (.atom 0 0 0 7 0) = false := by decide
theorem test_refuses_atom_type : WellFormed (.atom 0 0 0 3 4) = false := by decide
theorem test_refuses_red : WellFormed (.red 0 0 0 6 0) = false := by decide
theorem test_refuses_rdc : WellFormed (.rdc 0 0 0 3 0) = false := by decide
theorem test_refuses_cas : WellFormed (.cas 0 0 0 6) = false := by decide
theorem test_refuses_amxr : WellFormed (.amxr 0 0 0 3) = false := by decide
theorem test_refuses_fence_kind : WellFormed (.fence 0 0 0 3 0) = false := by decide
theorem test_refuses_fence_scope : WellFormed (.fence 0 0 0 0 3) = false := by decide
theorem test_refuses_wred : WellFormed (.wred 0 0 0 10 0 0) = false := by decide
theorem test_refuses_wscan : WellFormed (.wscan 0 0 0 10 0 0 0) = false := by decide
theorem test_refuses_fcls_empty : WellFormed (.fcls 0 0 0 0) = false := by decide
theorem test_refuses_fcls_sides : WellFormed (.fcls 0 0 0 0x61) = false := by decide
theorem test_refuses_cvt : WellFormed (.cvt 0 0 0 0x0C) = false := by decide
theorem test_refuses_assigned_word : WellFormed (.illegalInstruction 0) = false := by decide

/-! ## A small machine: one warp of one block on chip 0, with one page of code and one of data -/

def M : Lanes := BitVec.allOnes 32
def G : Gang := { mask := M, pc := 0x10000 }
def words (l : List Nat) : Vector Word 16 := vecOf 16 fun i => BitVec.ofNat 32 (l.getD i 0)
def row (f : Nat → Nat) : RowSt := { valid := M, data := allLanes.foldl (fun l j => putLineBytes l (4 * j) (leBytes 4 (f j))) 0 }

/-- Rows 0 to 3 hold two pairs of data addresses, rows 4 to 7 small integers, the others floats. -/
def rows : List RowSt := (List.range 96).map fun r => row fun j =>
  if r < 4 then (if r % 2 = 0 then 0x20000 + 64 * r + 4 * j else 0) else if r < 8 then r * 3 + j else 0x3F800000 + r * 0x10000 + j * 0x8000

def scalars : Vector Word 16 := words [0x20000, 0, 0x20100, 0, 16, 0, 3, 0x40400000, 0xFFFFFFFF, 0x7FFFFFFF, 0x10008, 0, 5, 1, 0, 2]
/-- p1 is true in every third fibre, from the lowest on, p2 in the others. -/
def W : Warp := { node := 1, gangs := [G], rows := rows, trapvec := 0x10100, sregs := scalars, preds := vecOf 32 fun j => if j % 3 = 0 then 0x13 else 0x25 }
def B : Block := { node := 1, gid := 1, ctx := 1, scratchSize := 4096, ntiles := 8, tiles := List.replicate 8 {}, groups := [(3, 0)], budget := 64 }
def page (base : Nat) (leaf : DWord) : TlbEntry := { ctx := 1, home := 0, base := base, size := 0x10000, leaf := leaf }
def C : Chip := { power := .full, inPod := true, contexts := [1], remap := [(1, 0, 0)], inc := 1, tlb := [page 0x10000 0x10383, page 0x20000 0x20783] }
def grid : GridRun := { gid := 1, ctx := 1, nblk := 4, code := 0x10000, codelen := 0x10000, regs := 96, warps := [(.gen, 0)], groups := [(3, { members := [0, 1] })] }
def atPort (w : Warp) (b : Block) : State :=
  { chips := [(0, C)], blocks := [(1, b)], warps := [(32, w)], grids := [(1, grid)], nextNode := 2, fresh := 5, now := 1000, issuing := some (32, M) }
def S : State := atPort W B

/-- The same with half of the fibres. -/
def GH : Gang := { mask := 0xFFFF, pc := 0x10000 }
def WH : Warp := { W with gangs := [GH], live := 0xFFFF }
def SH : State := { atPort WH B with issuing := some (32, 0xFFFF) }

/-! ## Premises that a test decides -/

theorem issuing_at (w : Warp) (g : Gang) (b : Block) (hg : w.gang? M = some g) (hb : w.node = 1) (hr : g.wait = .run) :
    Issuing (atPort w b) 32 M w g b := ⟨rfl, rfl, hg, by rw [hb]; rfl, hr⟩

theorem latched_low {w : Warp} {m : Lanes} {c : Code} (h : c.toNat < 120) : w.latched m c := fun x => absurd h (by omega)

def canRead (w : Warp) (q : Lanes) (x : Operand) : Bool :=
  (allLanes.all fun j => !inSet q j || decide (96 ≤ x.1.toNat) || (List.range x.2).all fun i =>
    decide (w.rowOf x j i < w.rows.length) && decide ((w.row (w.rowOf x j i)).pend = 0) && inSet (w.row (w.rowOf x j i)).valid j &&
      !inSet (w.row (w.rowOf x j i)).soft j && !inSet (w.row (w.rowOf x j i)).bad j) &&
  (List.range x.2).all fun i => decide (x.1.toNat < 96) || decide (112 ≤ x.1.toNat) || decide (vecAt w.spend (x.first - 96 + i) 0 = 0)

def canWrite (w : Warp) (q : Lanes) (x : Operand) : Bool :=
  (allLanes.all fun j => !inSet q j || decide (96 ≤ x.1.toNat) || (List.range x.2).all fun i =>
    decide (w.rowOf x j i < w.rows.length) && decide ((w.row (w.rowOf x j i)).pend = 0) && decide ((w.row (w.rowOf x j i)).hold = 0)) &&
  (List.range x.2).all fun i => decide (x.1.toNat < 96) || decide (112 ≤ x.1.toNat) || decide (vecAt w.spend (x.first - 96 + i) 0 = 0)

theorem readable_of {w : Warp} {q : Lanes} {x : Operand} (h : canRead w q x = true) : w.readable q x := by
  simp only [canRead, allLanes, Bool.and_eq_true, List.all_eq_true, List.mem_range, Bool.or_eq_true, Bool.not_eq_true', decide_eq_true_eq] at h
  refine ⟨fun hx j hj hq i hi => ?_, fun h1 h2 i hi => ?_⟩
  · rcases h.1 j hj with (h | h) | h
    · simp [hq] at h
    · omega
    · simpa [and_assoc] using h i hi
  · rcases h.2 i hi with (h | h) | h
    · omega
    · omega
    · exact h

theorem writable_of {w : Warp} {q : Lanes} {x : Operand} (h : canWrite w q x = true) : w.writable q x := by
  simp only [canWrite, allLanes, Bool.and_eq_true, List.all_eq_true, List.mem_range, Bool.or_eq_true, Bool.not_eq_true', decide_eq_true_eq] at h
  refine ⟨fun hx j hj hq i hi => ?_, fun h1 h2 i hi => ?_⟩
  · rcases h.1 j hj with (h | h) | h
    · simp [hq] at h
    · omega
    · simpa [and_assoc] using h i hi
  · rcases h.2 i hi with (h | h) | h
    · omega
    · omega
    · exact h

theorem one_key {α : Type} {v p : α} {k e : Nat} (h : tabLook [(k, v)] e = some p) : e = k := by
  by_cases hk : e = k
  · exact hk
  · simp [tabLook, Ne.symm hk] at h

/-- The key and the leaf that an address has. -/
def keyOf (s : State) (b : Block) (n : Need) (ea : Nat) : Nat := match s.access b.chip b.ctx n ea with
  | .ok key _ => key
  | _ => 0
def leafOf (s : State) (b : Block) (n : Need) (ea : Nat) : DWord := match s.access b.chip b.ctx n ea with
  | .ok _ x => x
  | _ => 0
def reachesB (s : State) (b : Block) (n : Need) (u ea : Nat) : Bool := decide (addrForm ea = 0) && decide (ea % u = 0) && match s.access b.chip b.ctx n ea with
  | .ok _ _ => true
  | _ => false

theorem reaches_of {s : State} {b : Block} {n : Need} {u ea : Nat} (h : reachesB s b n u ea = true) :
    Reaches s b n u ea (keyOf s b n ea) (leafOf s b n ea) := by
  simp only [reachesB, Bool.and_eq_true, decide_eq_true_eq] at h
  refine ⟨h.1.1, h.1.2, ?_⟩
  unfold keyOf leafOf
  split at h <;> simp_all

def calmB (h : HomeLine) : Bool := h.sync.isNone && h.red.isNone && !h.hostHeld && h.poison.isEmpty && h.violated.isEmpty && h.soft.isNone &&
  h.l2soft.isNone && h.l2bad.isEmpty

theorem others_none {s : State} {k : Nat} {w v0 : Warp} {p : Wait} (h : s.warps = [(k, v0)]) :
    ∀ j v, j ≠ k → s.warp? j = some v → v.node = w.node → v.live ≠ 0 → v.allAt p = true := by
  intro j v hj hv
  rw [State.warp?, h] at hv
  simp [tabLook, Ne.symm hj] at hv

theorem calm_of {h : HomeLine} (hh : calmB h = true) : h.calm := by
  simp only [calmB, Bool.and_eq_true, Option.isNone_iff_eq_none, Bool.not_eq_true', List.isEmpty_iff] at hh
  simp [HomeLine.calm, hh]

def readyB (x : Shape) (w : Warp) (m : Lanes) : Bool :=
  decide (w.role = .gen) && (x.srcs.all fun y => decide (y.1.toNat < 120) && canRead w (guarded w m x.guard) y) &&
    (x.old.all fun y => canRead w (guarded w m x.guard) y) && canWrite w (guarded w m x.guard) x.dst

theorem ready_of {x : Shape} {w : Warp} {m : Lanes} (h : readyB x w m = true) : x.ready w m := by
  simp only [readyB, Bool.and_eq_true, List.all_eq_true, decide_eq_true_eq] at h
  exact ⟨.inl h.1.1.1, fun y hy => latched_low (h.1.1.2 y hy).1, fun y hy => readable_of (h.1.1.2 y hy).2, fun y hy => readable_of (h.1.2 y hy),
    writable_of h.2⟩

theorem rows_calm {w : Warp} (h : (w.rows.all fun x => decide (x.pend = 0) && decide (x.hold = 0)) = true) (r : Nat) :
    (w.row r).pend = 0 ∧ (w.row r).hold = 0 := by
  simp only [List.all_eq_true, Bool.and_eq_true, decide_eq_true_eq] at h
  unfold Warp.row
  rw [List.getD_eq_getElem?_getD]
  cases hr : w.rows[r]? with
  | none => exact ⟨rfl, rfl⟩
  | some x => exact h _ (List.mem_of_getElem? hr)

theorem landings_of {s : State} {b : Block} {q : Lanes} {f : Nat → Nat}
    (h : (allLanes.all fun j => !inSet q j || decide (f j % 4 = 0) && reachesB s b .fetch 1 (f j)) = true) :
    ∀ j, j < 32 → inSet q j = true → Landing s b (f j) := by
  intro j hj hq
  have := List.all_eq_true.1 h j (List.mem_range.2 hj)
  simp only [hq, Bool.not_true, Bool.false_or, Bool.and_eq_true, decide_eq_true_eq] at this
  exact ⟨this.1, _, _, (reaches_of this.2).2.2⟩

theorem rows_ok {w : Warp} {x n : Nat} {valid : Lanes} {write : Bool}
    (h : (decide (x + n ≤ w.rows.length) && ((w.rows.drop x).take n).all fun r => decide (r.pend = 0) && decide (r.hold = 0) && decide (r.valid &&& valid = valid) && decide (r.bad = 0)) = true) :
    x + n ≤ w.rows.length ∧ ∀ r, x ≤ r → r < x + n → (w.row r).pend = 0 ∧ (write = true → (w.row r).hold = 0) ∧
      ∀ i, i < 32 → inSet valid i = true → inSet (w.row r).valid i = true ∧ inSet (w.row r).bad i = false := by
  simp only [Bool.and_eq_true, List.all_eq_true, decide_eq_true_eq] at h
  refine ⟨h.1, fun r h1 h2 => ?_⟩
  have hr : r < w.rows.length := by omega
  have hm : w.row r ∈ (w.rows.drop x).take n := by
    refine List.mem_iff_getElem?.2 ⟨r - x, ?_⟩
    rw [List.getElem?_take_of_lt (by omega), List.getElem?_drop, show x + (r - x) = r by omega]
    simp [Warp.row, List.getElem?_eq_getElem hr]
  have := h.2 _ hm
  refine ⟨this.1.1.1, fun _ => this.1.1.2, fun i _ hi => ?_⟩
  have hv := this.1.2
  simp only [inSet, this.2] at hi ⊢
  rw [← hv, BitVec.getLsbD_and, Bool.and_eq_true] at hi
  exact ⟨hi.1, by simp⟩

theorem drains_ok {s : State} {b : Block} {base n : Nat} (h : ((List.range n).all fun i => match s.access b.chip b.ctx .store ((base + 64 * i) % 2 ^ 64) with
      | .ok _ _ => true
      | _ => false) = true) : ∀ i, i < n → ∃ key leaf, s.access b.chip b.ctx .store ((base + 64 * i) % 2 ^ 64) = .ok key leaf := by
  intro i hi
  have := List.all_eq_true.1 h i (List.mem_range.2 hi)
  split at this
  · exact ⟨_, _, ‹_›⟩
  · cases this

theorem read_some {x : State × Option (List Byte)} (h : x.2.isSome = true) : x = (x.1, some (x.2.getD [])) := by
  obtain ⟨_, _ | _⟩ := x <;> simp_all

theorem spots_ok {cx : Cx} {s : State} {n : Need} {l : List (Strip × Nat × Nat)} (h : (l.all fun x => match cx.engineCheck s n 1 x.1.src x.2.1 x.2.2 with
      | .at_ _ => true
      | _ => false) = true) : ∀ x, x ∈ l → ∃ y, cx.engineCheck s n 1 x.1.src x.2.1 x.2.2 = .at_ y := by
  intro x hx
  have := List.all_eq_true.1 h x hx
  split at this
  · exact ⟨_, ‹_›⟩
  · cases this

def chanB (cx : Cx) (s : State) (j : Nat) (n : Need) (al base len : Nat) : Bool := (piecesOf [rangeStrip j base len]).all fun x =>
  match cx.engineCheck s n al base x.2.1 x.2.2 with
  | .at_ y => (cx.windowProblem s false x.2.2 [(j, y)]).isNone && !s.spotLost cx.b.node x.2.2 y
  | _ => false

theorem chan_ok {cx : Cx} {s : State} {j : Nat} {n : Need} {al base len : Nat} (h : chanB cx s j n al base len = true) :
    ∀ x, x ∈ piecesOf [rangeStrip j base len] → ∃ y, cx.engineCheck s n al base x.2.1 x.2.2 = .at_ y ∧
      (n = .load → (cx.windowProblem s false x.2.2 [(j, y)]).isNone = true ∧ s.spotLost cx.b.node x.2.2 y = false) := by
  intro x hx
  have := List.all_eq_true.1 h x hx
  split at this
  · exact ⟨_, ‹_›, fun _ => by simpa using this⟩
  · cases this

theorem chans_ok {cx : Cx} {s : State} {j k : Nat} {n : Need} {al len : Nat} {f : Nat → Nat}
    (h : ((List.range k).all fun i => chanB cx s j n al (f i) len) = true) : ∀ i, i < k → ∀ x, x ∈ piecesOf [rangeStrip j (f i) len] →
      ∃ y, cx.engineCheck s n al (f i) x.2.1 x.2.2 = .at_ y ∧ (n = .load → (cx.windowProblem s false x.2.2 [(j, y)]).isNone = true ∧
        s.spotLost cx.b.node x.2.2 y = false) :=
  fun i hi => chan_ok (List.all_eq_true.1 h i (List.mem_range.2 hi))

theorem may_ok {s : State} {b : Block} {n : Need} {base : Nat} {l : List (Strip × Nat × Nat)}
    (h : (l.all fun y => match s.access b.chip b.ctx n ((base + y.2.1) % 2 ^ 64) with
      | .ok _ _ => true
      | _ => false) = true) : ∀ y, y ∈ l → ∃ key leaf, s.access b.chip b.ctx n ((base + y.2.1) % 2 ^ 64) = .ok key leaf := by
  intro y hy
  have := List.all_eq_true.1 h y hy
  split at this
  · exact ⟨_, _, ‹_›⟩
  · cases this

theorem post_ok {s : State} {b : Block} {ea x j n : Nat} (he : ea = x) (h : ((piecesOf [rangeStrip j x n]).all fun y =>
      (match s.access b.chip b.ctx .load ((x + y.2.1) % 2 ^ 64) with
        | .ok _ _ => true
        | _ => false) && decide (s.line (keyOf s b .load ((x + y.2.1) % 2 ^ 64) / 128) = {})) = true) :
    ∀ y, y ∈ piecesOf [rangeStrip j ea n] → (∃ leaf, s.access b.chip b.ctx .load ((ea + y.2.1) % 2 ^ 64) = .ok (keyOf s b .load ((x + y.2.1) % 2 ^ 64)) leaf) ∧
      (s.line (keyOf s b .load ((x + y.2.1) % 2 ^ 64) / 128)).red = none ∧ (s.line (keyOf s b .load ((x + y.2.1) % 2 ^ 64) / 128)).poison = [] ∧
      (s.line (keyOf s b .load ((x + y.2.1) % 2 ^ 64) / 128)).violated = [] ∧ (s.line (keyOf s b .load ((x + y.2.1) % 2 ^ 64) / 128)).soft = none ∧
      (s.line (keyOf s b .load ((x + y.2.1) % 2 ^ 64) / 128)).l2soft = none ∧ (s.line (keyOf s b .load ((x + y.2.1) % 2 ^ 64) / 128)).l2bad = [] := by
  subst he
  intro y hy
  have h := List.all_eq_true.1 h y hy
  simp only [Bool.and_eq_true, decide_eq_true_eq] at h
  refine ⟨?_, ?_⟩
  case refine_2 => rw [h.2]; exact ⟨rfl, rfl, rfl, rfl, rfl, rfl⟩
  have h := h.1
  unfold keyOf
  split at h <;> simp_all

def launched : Launch → List Byte × GridRun
  | .accepted _ image run => (image, run)
  | _ => ([], {})

theorem accepted_of {x : Launch} {c : Nat} (h : (match x with
    | .accepted d _ _ => decide (d = c)
    | _ => false) = true) : x = .accepted c (launched x).1 (launched x).2 := by
  unfold launched
  split at h <;> simp_all

theorem refused_of {x : Launch} {e c d : Nat} (h : (match x with
    | .refused e' c' d' => decide (e' = e) && decide (c' = c) && decide (d' = d)
    | _ => false) = true) : x = .refused e c d := by
  split at h <;> simp_all

theorem some_getD {α : Type} {o : Option α} {x : α} (h : o.isSome = true) : o = some (o.getD x) := by cases o <;> simp_all

theorem low_of {q : Lanes} {i : Nat} {P : Nat → Prop} (h : lowestLane q = some i) (hp : P i) : ∀ j, lowestLane q = some j → P j := by
  intro j hj
  cases h.symm.trans hj
  exact hp

theorem the_one {α : Type} {o : Option α} {x : α} {P : α → Prop} (h : o = some x) (hp : P x) : ∀ y, o = some y → P y := by
  intro y hy
  cases h.symm.trans hy
  exact hp

theorem pair_some {α β : Type} {o : Option (α × β)} (x : α × β) (h : o.isSome = true) : o = some ((o.getD x).1, (o.getD x).2) := some_getD h

theorem fill_of {x : GateNext} {t : InTile} {i e : Nat} (h : (match x with
    | .fill t' i' e' => decide (t' = t) && decide (i' = i) && decide (e' = e)
    | _ => false) = true) : x = .fill t i e := by
  split at h <;> simp_all

theorem gate_fault_of {x : GateNext} {i p : Nat} (h : (match x with
    | .fault i' p' => decide (i' = i) && decide (p' = p)
    | _ => false) = true) : x = .fault i p := by
  split at h <;> simp_all

theorem no_miss {s : State} {b : Block} {n : Need} {q : Lanes} {f : Nat → Nat}
    (h : (allLanes.all fun j => !inSet q j || match s.access b.chip b.ctx n (f j) with
      | .miss _ _ => false
      | _ => true) = true) :
    ∀ j, j < 32 → inSet q j = true → addrForm (f j) = 0 → f j % 128 = 0 → ∀ h x, s.access b.chip b.ctx n (f j) ≠ .miss h x := by
  intro j hj hq _ _ _ _ hx
  have := List.all_eq_true.1 h j (List.mem_range.2 hj)
  simp [hq, hx] at this

theorem all_reach {s : State} {b : Block} {n : Need} {u : Nat} {q : Lanes} {f : Nat → Nat}
    (h : (allLanes.all fun j => !inSet q j || reachesB s b n u (f j)) = true) :
    ∀ j, j < 32 → inSet q j = true → Reaches s b n u (f j) (keyOf s b n (f j)) (leafOf s b n (f j)) := by
  intro j hj hq
  have := List.all_eq_true.1 h j (List.mem_range.2 hj)
  exact reaches_of (by simpa [hq] using this)

theorem no_slot {x : Word} {b : Block} (h : arrivalOf x = none) : ∀ r n, arrivalOf x = some (r, n) → n < (b.rings.getD r {}).s := by
  simp [h]

def stripsB (cx : Cx) (s : State) (align : Nat) (l : List Strip) (stored : Bool) : Bool := (piecesOf l).all fun x =>
  (match cx.engineCheck s .load align x.1.src x.2.1 x.2.2 with
    | .at_ y => (cx.windowProblem s false x.2.2 [(x.1.lane, y)]).isNone && !s.spotLost cx.b.node x.2.2 y
    | _ => false) && (!stored || match cx.engineCheck s .store align x.1.dst x.2.1 x.2.2 with
    | .at_ _ => true
    | _ => false)

theorem strips_of {cx : Cx} {s : State} {align : Nat} {l : List Strip} {stored : Bool} (h : stripsB cx s align l stored = true) :
    cx.stripsPass s align l stored := by
  intro x hx
  have := List.all_eq_true.1 h x hx
  simp only [Bool.and_eq_true, Bool.or_eq_true, Bool.not_eq_true'] at this
  refine ⟨?_, fun hs => ?_⟩
  · have h1 := this.1
    split at h1
    · exact ⟨_, ‹_›, by simpa using h1⟩
    · cases h1
  · have h2 := this.2
    simp only [hs, Bool.true_eq_false, false_or] at h2
    split at h2
    · exact ⟨_, ‹_›⟩
    · cases h2

/-! ### A flit whose CRC is right, whatever the CRC comes to -/

theorem leBytes_add (m n x : Nat) : leBytes (m + n) x = leBytes m x ++ leBytes n (x / 256 ^ m) := by
  induction m generalizing x with
  | zero => simp [leBytes]
  | succ m ih => simp [Nat.succ_add, leBytes, ih, Nat.div_div_eq_div_mul, Nat.pow_succ, Nat.mul_comm]

theorem leNat_leBytes (n x : Nat) : leNat (leBytes n x) = x % 256 ^ n := by
  induction n generalizing x with
  | zero => simp [leBytes, leNat, Nat.mod_one]
  | succ n ih => simp [leBytes, leNat, ih, Nat.pow_succ', Nat.mod_mul]

theorem leBytes_low (n x y : Nat) : leBytes n (x + 256 ^ n * y) = leBytes n x := by
  induction n generalizing x with
  | zero => simp [leBytes]
  | succ n ih =>
    have h : (x + 256 ^ (n + 1) * y) / 256 = x / 256 + 256 ^ n * y := by
      rw [Nat.pow_succ', Nat.mul_assoc, Nat.add_mul_div_left _ _ (by omega)]
    have h8 : BitVec.ofNat 8 (x + 256 ^ (n + 1) * y) = BitVec.ofNat 8 x := by
      apply BitVec.eq_of_toNat_eq
      simp [Nat.pow_succ', Nat.mul_assoc, Nat.add_mul_mod_self_left]
    simp [leBytes, h, ih, h8]

theorem leBytes_length (n x : Nat) : (leBytes n x).length = n := by
  induction n generalizing x with
  | zero => rfl
  | succ n ih => simp [leBytes, ih]

def crcOf (h : Nat) : Nat := (crc32 (leBytes 252 h)).toNat
/-- A flit of a header, with an empty body. -/
def flit (h : Nat) : Flit := { raw := BitVec.ofNat 2048 (h + 256 ^ 252 * crcOf h) }

theorem flit_raw {h : Nat} (hh : h < 2 ^ 128) : (flit h).raw.toNat = h + 256 ^ 252 * crcOf h := by
  have hc : crcOf h < 256 ^ 4 := (crc32 (leBytes 252 h)).isLt
  have : h + 256 ^ 252 * crcOf h < 256 ^ 252 * 256 ^ 4 := by
    have : (2 : Nat) ^ 128 ≤ 256 ^ 252 := by decide +kernel
    have : 256 ^ 252 * (crcOf h + 1) ≤ 256 ^ 252 * 256 ^ 4 := Nat.mul_le_mul_left _ hc
    rw [Nat.mul_add, Nat.mul_one] at this
    omega
  simp only [flit, BitVec.toNat_ofNat]
  rw [← Nat.pow_add] at this
  exact Nat.mod_eq_of_lt (Nat.lt_of_lt_of_eq this (Nat.pow_mul 2 8 256).symm)

theorem flit_bytes {h : Nat} (hh : h < 2 ^ 128) : flitBytes (flit h) = leBytes 252 h ++ leBytes 4 (crcOf h) := by
  have : h / 256 ^ 252 = 0 := Nat.div_eq_of_lt (Nat.lt_of_lt_of_le hh (by decide +kernel))
  rw [flitBytes, flit_raw hh, show 256 = 252 + 4 by rfl, leBytes_add, leBytes_low, Nat.add_mul_div_left _ _ (Nat.pow_pos (by omega)), this, Nat.zero_add]

theorem flit_body {h i : Nat} (hh : h < 2 ^ 128) (hi : i < 232) : (flitBody (flit h)).getD i 0 = (leBytes 252 h).getD (4 + i) 0 := by
  have hl := leBytes_length 252 h
  rw [flitBody, flit_bytes hh, List.getD_eq_getElem?_getD, List.getElem?_take_of_lt hi, List.getElem?_drop, List.getElem?_append_left (by omega),
    List.getD_eq_getElem?_getD]

theorem flit_crc {h : Nat} (hh : h < 2 ^ 128) : flitCrcOk (flit h) = true := by
  have h1 := flit_bytes hh
  have hl := leBytes_length 252 h
  simp only [flitCrcOk, h1, List.drop_left' hl, List.take_left' hl, leNat_leBytes, decide_eq_true_eq]
  exact Nat.mod_eq_of_lt (crc32 (leBytes 252 h)).isLt

theorem flit_low {h : Nat} (hh : h < 2 ^ 128) (a n : Nat) (hn : a + n ≤ 128) : ((flit h).raw.extractLsb' a n).toNat = h / 2 ^ a % 2 ^ n := by
  rw [BitVec.extractLsb'_toNat, flit_raw hh, Nat.shiftRight_eq_div_pow]
  rw [show (256 : Nat) ^ 252 = 2 ^ a * (2 ^ n * 2 ^ (2016 - a - n)) by
    rw [← Nat.pow_add, ← Nat.pow_add, show (256 : Nat) = 2 ^ 8 by rfl, ← Nat.pow_mul]; congr 1; omega]
  rw [Nat.mul_assoc, Nat.add_mul_div_left _ _ (Nat.pow_pos (by omega)), Nat.mul_assoc, Nat.add_mul_mod_self_left]

theorem flit_type {h n : Nat} (hh : h < 2 ^ 128) (hn : h % 256 = n) : flitType (flit h) = n := by
  rw [flitType, flit_low hh 0 8 (by omega), Nat.pow_zero, Nat.div_one]
  exact hn

theorem flit_seq {h n : Nat} (hh : h < 2 ^ 128) (hn : h / 256 % 4096 = n) : flitSeq (flit h) = n := by
  rw [flitSeq, flit_low hh 8 12 (by omega)]
  exact hn

theorem flit_checked {l : Link} {h : Nat} (hh : h < 2 ^ 128) (hl : l.rx.slot l.rx.cur = none) : l.check (flit h) = (l, some (flit h)) := by
  simp [Link.check, flit_crc hh, hl]

theorem flit_refused {l : Link} {h : Nat} (hh : h < 2 ^ 128) (hk : (l.rx.slot l.rx.cur).isNone = false) (hi : h / 2 ^ 24 % 2 ^ 1 ≠ l.rx.cur)
    (hs : l.rx.switch = none) : l.check (flit h) = ({ l with rx := l.rx.counted l.rx.cur, authFails := l.authFails + 1 }, none) := by
  have h1 : flitSlot (flit h) ≠ l.rx.cur := by rwa [flitSlot, flit_low hh 24 1 (by omega)]
  simp [Link.check, flit_crc hh, hk, h1, hs]

theorem fromSeq_ne {f y : Flit} {r : List Flit} (h : flitSeq y = flitSeq f) : fromSeq (flitSeq f) (y :: r) ≠ [] := by
  simp [fromSeq, h]

/-! ## Single steps; the expected values are worked out by hand from the rules named -/

def after (i : Instr) (s : State) : Warp := match exec i s with
  | .next t => (t.warp? 32).getD {}
  | _ => {}
def laneWord (w : Warp) (r j : Nat) : Nat := ((w.row r).data.extractLsb' (32 * j) 32).toNat

/-- R96: fibre 2 adds 14 and 17. -/
theorem test_add_rows : laneWord (after (.add 0 10 4 5) S) 10 2 = 31 := by decide +kernel

/-- R96: 0x7FFFFFFF and 5 wrap. -/
theorem test_add_wraps : ((after (.add 0 0x6D 0x69 0x6C) S).sreg 13).toNat = 0x80000004 := by decide +kernel

/-- R21: the source is the destination, and only the fibres of p1 are written. -/
theorem test_add_in_place : laneWord (after (.add 1 4 4 4) S) 4 3 = 30 ∧ laneWord (after (.add 1 4 4 4) S) 4 4 = 16 := by decide +kernel

/-- R62, R79: a branch that p1 takes goes three words on, and the other fibres go on to the next word. -/
theorem test_br_splits : (after (.br 1 3) S).gangs.map (fun g => (g.pc, g.mask)) = [(0x1000C, 0x49249249), (0x10004, 0xB6DB6DB6)] := by decide +kernel

/-- R49, R388: a word of no instruction traps at its own address to the handler. -/
theorem test_illegal_traps : (after (.illegalInstruction 0xFE000000) S).gangs.map (·.pc) = [0x10100] ∧
    (after (.illegalInstruction 0xFE000000) S).trappc = 0x10000 ∧ (after (.illegalInstruction 0xFE000000) S).intrap = true := by decide +kernel

/-- R15: a word lies in memory with its low byte first, and a step runs it: the spec's own `movi s4, -32`. -/
theorem test_fetch_runs : (match step (State.reset.withFetchWord 32 0x6C190060) with
    | .next t => ((t.warp? 32).getD {}).sreg 4
    | _ => 0) = 0xFFFFFFE0 := by decide +kernel

/-! ## Premises that something meets: for each statement, states and operands of each of its clauses -/

theorem witness_integersComputed :
    (∀ x : Shape, x ∈ ([{ guard := 0, dst := (9, 1), srcs := [(4, 1), (5, 1)] }, { guard := 1, dst := (9, 1), srcs := [(4, 1)] },
        accShape {} 0 9 1 [(4, 1), (5, 1)]] : List Shape) → Issuing S 32 M W G B ∧ W.itype = { signed := true, width := 32, count := 1 } ∧ x.ready W M) ∧
    (∀ p : Pfx, p = { hmod := some { c := 6, cen := true } } → Issuing (atPort { W with gangs := [{ G with pfx := p }] } B) 32 M { W with gangs := [{ G with pfx := p }] }
      { G with pfx := p } B ∧ (accShape p 0 9 1 [(4, 1), (5, 1)]).ready { W with gangs := [{ G with pfx := p }] } M) := by
  refine ⟨fun x hx => ⟨⟨rfl, rfl, rfl, rfl, rfl⟩, by decide, ?_⟩, fun p hp => ?_⟩
  · simp only [List.mem_cons, List.not_mem_nil, or_false] at hx
    rcases hx with rfl | rfl | rfl <;> exact ready_of (by decide +kernel)
  · subst hp; exact ⟨⟨rfl, rfl, rfl, rfl, rfl⟩, ready_of (by decide +kernel)⟩

theorem witness_patternsComputed :
    Issuing S 32 M W G B ∧ ∀ x : Shape, x ∈ ([{ guard := 0, dst := (9, 1), srcs := [(4, 1), (5, 1)] }, { guard := 0, dst := (9, 1), srcs := [(4, 1)] }] : List Shape) →
      x.ready W M := by
  refine ⟨⟨rfl, rfl, rfl, rfl, rfl⟩, fun x hx => ?_⟩
  simp only [List.mem_cons, List.not_mem_nil, or_false] at hx
  rcases hx with rfl | rfl <;> exact ready_of (by decide +kernel)

theorem witness_valuesMoved :
    Issuing S 32 M W G B ∧ ∀ x : Shape, x ∈ ([{ guard := 0, dst := (9, 1), srcs := [] }, { guard := 0, dst := (10, 2), srcs := [(0, 2), (4, 1)] },
      { guard := 0, dst := (10, 2), srcs := [(4, 1), (5, 1)], old := [(highCode 10, 1)] }, { guard := 0, dst := (9, 1), srcs := [(4, 1), (5, 1)] },
      { guard := 0, dst := (9, 1), srcs := [(4, 1), (5, 1)], old := [(9, 1)] }] : List Shape) → x.ready W M := by
  refine ⟨⟨rfl, rfl, rfl, rfl, rfl⟩, fun x hx => ?_⟩
  simp only [List.mem_cons, List.not_mem_nil, or_false] at hx
  rcases hx with rfl | rfl | rfl | rfl | rfl <;> exact ready_of (by decide +kernel)

theorem witness_floatsComputed :
    (Issuing S 32 M W G B ∧ ∀ x : Shape, x ∈ ([{ guard := 0, dst := (9, 1), srcs := [(10, 1), (11, 1)] }, { guard := 0, dst := (9, 1), srcs := [(10, 1)] },
      accShape {} 0 9 1 [(10, 1), (11, 1)], { guard := 0, dst := (9, codeSize 0), srcs := [(10, codeSize W.tc)] }] : List Shape) → x.ready W M) ∧
    (∀ w : Warp, w = { W with tf := 3 } → Issuing (atPort w B) 32 M w G B ∧
      ({ guard := 0, dst := (8, 2), srcs := [(10, 2), (12, 2)], old := [(8, 2)] } : Shape).ready w M) ∧
    (∀ w : Warp, w = { W with tf := 0 } → Issuing (atPort w B) 32 M w G B ∧
      ({ guard := 0, dst := (8, 1), srcs := [(10, 2), (12, 2)], old := [(8, 1)] } : Shape).ready w M) := by
  refine ⟨⟨⟨rfl, rfl, rfl, rfl, rfl⟩, fun x hx => ?_⟩, fun w hw => ?_, fun w hw => ?_⟩
  · simp only [List.mem_cons, List.not_mem_nil, or_false] at hx
    rcases hx with rfl | rfl | rfl | rfl <;> exact ready_of (by decide +kernel)
  · subst hw; exact ⟨⟨rfl, rfl, rfl, rfl, rfl⟩, ready_of (by decide +kernel)⟩
  · subst hw; exact ⟨⟨rfl, rfl, rfl, rfl, rfl⟩, ready_of (by decide +kernel)⟩

theorem witness_representedValuesKept :
    ∃ f neg n e, fmtOf 0 = some f ∧ 0x3F800000 < 2 ^ f.width ∧ fdec f 0x3F800000 = .fin neg n e :=
  ⟨_, _, _, _, rfl, by decide, rfl⟩

theorem witness_lanesExchange :
    Issuing S 32 M W G B ∧ W.fwide = false ∧ ∀ x : Shape, x ∈ ([{ guard := 0, dst := (9, 1), srcs := [(4, 1)] }, { guard := 0, dst := (9, 1), srcs := [(4, 1), (5, 1)] },
      { guard := 0, dst := (9, 1), srcs := [(4, 1), (5, 1)], old := [(9, 1)] }, { guard := 0, dst := (8, 2), srcs := [(10, 1), (11, 1)] }] : List Shape) → x.ready W M := by
  refine ⟨⟨rfl, rfl, rfl, rfl, rfl⟩, by decide, fun x hx => ?_⟩
  simp only [List.mem_cons, List.not_mem_nil, or_false] at hx
  rcases hx with rfl | rfl | rfl | rfl <;> exact ready_of (by decide +kernel)

theorem witness_loadsAsk :
    (Issuing S 32 M W G B ∧ W.flights = [] ∧ (S.chip (chipOfCore W.core)).fenced = false ∧ W.latched M 96 ∧
      Unlogged S B [96] ∧ ∀ u x, u ∈ [1, 2, 4, 8, 16] → x = ({ guard := 0, dst := (8, max 1 (u / 4)), srcs := [(96, 2)] } : Shape) →
        W.readable (x.acting W M) (96, 2) ∧ W.readable (x.acting W M) (BitVec.ofNat 7 98, 1) ∧ W.writable (x.acting W M) x.dst ∧
        ∃ (key : Nat → Nat) (leaf : Nat → DWord), ∀ j, j < 32 → inSet (x.acting W M) j = true → Reaches S B .load u ((seenBy false S 32 M W G B).ea G 96 0 u j) (key j) (leaf j)) ∧
    (∀ x : Shape, x = { guard := 0, dst := (9, 1), srcs := [(106, 2)] } → W.intrap = false ∧ W.trapvec ≠ 0 ∧ W.readable (x.acting W M) (108, 2) ∧
      W.writable (x.acting W M) (9, 1) ∧ lowestLane (x.acting W M) = some 0 ∧ addrForm ((seenBy false S 32 M W G B).ea G 108 0 4 0) = 0 ∧
      (seenBy false S 32 M W G B).ea G 108 0 4 0 % 4 ≠ 0) := by
  refine ⟨⟨⟨rfl, rfl, rfl, rfl, rfl⟩, rfl, rfl, latched_low (by decide), .inl rfl, fun u x hu hx => ?_⟩, fun x hx => ?_⟩
  · subst hx
    simp only [List.mem_cons, List.not_mem_nil, or_false] at hu
    rcases hu with rfl | rfl | rfl | rfl | rfl <;> exact ⟨readable_of (by decide +kernel), readable_of (by decide +kernel), writable_of (by decide +kernel),
      _, _, all_reach (by decide +kernel)⟩
  · subst hx
    exact ⟨rfl, by decide, readable_of (by decide +kernel), writable_of (by decide +kernel), by decide +kernel, by decide +kernel, by decide +kernel⟩

theorem witness_storesSend :
    Issuing S 32 M W G B ∧ B.node = W.node ∧ W.flights = [] ∧ W.fenced = false ∧ (S.chip (chipOfCore W.core)).fenced = false ∧ W.latched M 96 ∧
      W.latched M 8 ∧ Unlogged S B [96, 8] ∧ ∀ u x, u ∈ [1, 2, 4, 8, 16] →
        x = ({ guard := 1, dst := (127, 1), srcs := [(96, 2), (8, max 1 (u / 4))] } : Shape) → (∀ y, y ∈ x.srcs → W.readable (x.acting W M) y) ∧
        ∃ (key : Nat → Nat) (leaf : Nat → DWord), B.staged.length + (((lanesOf (x.acting W M)).map fun j => key j / 128).eraseDups).length ≤ B.budget ∧
        ∀ j, j < 32 → inSet (x.acting W M) j = true → Reaches S B .store u ((seenBy false S 32 M W G B).ea G 96 0 u j) (key j) (leaf j) := by
  refine ⟨⟨rfl, rfl, rfl, rfl, rfl⟩, rfl, rfl, rfl, rfl, latched_low (by decide), latched_low (by decide), .inl rfl, fun u x hu hx => ?_⟩
  subst hx
  simp only [List.mem_cons, List.not_mem_nil, or_false] at hu
  rcases hu with rfl | rfl | rfl | rfl | rfl <;>
  · refine ⟨fun y hy => ?_, fun j => keyOf S B .store ((seenBy false S 32 M W G B).ea G 96 0 _ j), _, by decide +kernel, all_reach (by decide +kernel)⟩
    simp only [List.mem_cons, List.not_mem_nil, or_false] at hy
    rcases hy with rfl | rfl <;> exact readable_of (by decide +kernel)

theorem witness_atomicsSend :
    ∃ (key : Nat → Nat) (leaf : Nat → DWord), Issuing S 32 M W G B ∧ B.node = W.node ∧ W.flights = [] ∧ W.fenced = false ∧ (S.chip (chipOfCore W.core)).fenced = false ∧
      W.latched M 0 ∧ W.latched M 8 ∧ Unlogged S B [0] ∧ Unlogged S B [8] ∧ ∀ x, x ∈ ([{ guard := 0, dst := (9, 1), srcs := [(0, 2), (8, 1)] },
        { guard := 0, dst := (127, 1), srcs := [(0, 2), (8, 1)] }, { guard := 0, dst := (8, 1), srcs := [(0, 2), (8, 2)] },
        { guard := 0, dst := (9, 1), srcs := [(0, 2)] }] : List Shape) → (∀ y, y ∈ x.srcs → W.readable (x.acting W M) y) ∧ W.writable (x.acting W M) x.dst ∧
        B.staged.length + (((lanesOf (x.acting W M)).map fun j => key j / 128).eraseDups).length ≤ B.budget ∧
        ∀ j, j < 32 → inSet (x.acting W M) j = true → Reaches S B .atomic 4 ((seenBy false S 32 M W G B).pair 0 j).toNat (key j) (leaf j) := by
  refine ⟨fun j => keyOf S B .atomic ((seenBy false S 32 M W G B).pair 0 j).toNat, fun j => leafOf S B .atomic ((seenBy false S 32 M W G B).pair 0 j).toNat,
    ⟨rfl, rfl, rfl, rfl, rfl⟩, rfl, rfl, rfl, rfl, latched_low (by decide), latched_low (by decide), .inl rfl, .inl rfl, fun x hx => ?_⟩
  simp only [List.mem_cons, List.not_mem_nil, or_false] at hx
  rcases hx with rfl | rfl | rfl | rfl <;>
  · refine ⟨fun y hy => ?_, writable_of (by decide +kernel), by decide +kernel, all_reach (by decide +kernel)⟩
    simp only [List.mem_cons, List.not_mem_nil, or_false] at hy
    first
      | rcases hy with rfl | rfl <;> exact readable_of (by decide +kernel)
      | subst hy; exact readable_of (by decide +kernel)

theorem witness_decodeOfEncode :
    ∃ (i : Instr) (w : Word), WellFormed i = true ∧ encode i = some w :=
  ⟨.add 0 0x06 0x21 0x06, 0x30019086, by decide, by decide⟩

theorem witness_stepRunsWord :
    ∃ (s : State) (k : Nat) (m : Lanes) (key : Nat) (i : Instr) (w : Word), s.issuing = some (k, m) ∧ s.fetchPlace k m = .key key ∧
      WellFormed i = true ∧ encode i = some w ∧ s.wordAt key = w :=
  ⟨S.withFetchWord 32 0x30019086, 32, M, _, .add 0 0x06 0x21 0x06, 0x30019086, rfl, rfl, by decide +kernel, rfl, by decide +kernel⟩

theorem witness_stepTakesHappening :
    (∃ (s : State), s.issuing = none ∧ ∃ p, s.reselect = some p) ∧
    (∃ (s : State), s.issuing = none ∧ (s.reselect = none ∧ ∃ d r, s.took = false ∧ takeDue s.ticked.agenda = some (d, r)) ∧ (∃ d r,
      takeDue s.agenda = some (d, r))) ∧
    (∃ (s : State), s.issuing = none ∧ s.reselect = none ∧ ∃ p, (s.took = true ∨ takeDue s.ticked.agenda = none) ∧ s.nextPort = some p) :=
  ⟨⟨{ S with issuing := none, reselect := some 2 }, by decide +kernel, _, rfl⟩,
  ⟨{ State.reset with agenda := [{ ev := .thermalTrip }] }, by decide +kernel, ⟨by decide +kernel, _, _, by decide +kernel, rfl⟩, ⟨_, _, rfl⟩⟩,
  ⟨{ S with issuing := none }, by decide +kernel, by decide +kernel, _, by decide +kernel, rfl⟩⟩

theorem witness_memoryFormKept :
    ∃ (s t : State), Memory.wf s.mem ∧ step s = .next t :=
  ⟨State.reset, _, by decide +kernel, rfl⟩

theorem witness_gangsAndOperations :
    (∃ (s : State) (w : Warp) (b : Block), let k := s.cue.warp; s.warp? k = some w ∧ s.block? w.node = some b ∧ b.st = .running ∧ w.live ≠ 0 ∧
      (∀ o, o ∈ w.ops → o.cls = s.cue.cls → o.left ≠ 0)) ∧
    (∃ (s : State) (w : Warp) (b : Block), let k := s.cue.warp; s.warp? k = some w ∧ s.block? w.node = some b ∧ b.st = .running ∧ w.live ≠ 0 ∧
      ∃ o r, w.ops = o :: r ∧ o.cls = s.cue.cls ∧ o.left = 0 ∧ o.job = .idle ∧ (∀ x, x ∈ r → x.id ≠ o.id ∧ (x.cls = s.cue.cls → x.left ≠ 0))) :=
  ⟨⟨{ S with cue := { warp := 32, cls := .copy } }, W, B, rfl, rfl, by decide +kernel⟩,
  ⟨{ atPort { W with ops := [{ id := 3, cls := .copy }] } B with cue := { warp := 32, cls := .copy } },
    { W with ops := [{ id := 3, cls := .copy }] }, B, rfl, rfl, by decide +kernel, by decide +kernel, { id := 3, cls := .copy }, [], rfl,
    by decide +kernel⟩⟩

theorem witness_prefixesAndTypes :
    ∃ (s : State) (k : Nat) (m : Lanes) (w : Warp) (g : Gang) (b : Block) (j : Nat), Issuing s k m w g b ∧ lowestLane m = some j :=
  ⟨S, 32, M, W, G, B, 0, ⟨rfl, rfl, rfl, rfl, rfl⟩, rfl⟩

theorem witness_trapsTaken :
    (∃ (s : State) (k : Nat) (w : Warp), s.warp? k = some w ∧ w.intrap = false ∧ w.trapvec ≠ 0) ∧
    (∃ (s : State) (k : Nat) (w : Warp) (b : Block), s.warp? k = some w ∧ s.block? w.node = some b ∧ (w.intrap = true ∨ w.trapvec = 0)) ∧
    (∃ (s : State) (k : Nat) (m : Lanes) (w : Warp) (g : Gang) (b : Block), Issuing s k m w g b ∧ w.intrap = false ∧ w.trapvec ≠ 0) :=
  ⟨⟨S, 32, W, rfl, by decide +kernel⟩,
  ⟨atPort ({ W with trapvec := 0 }) B, 32, { W with trapvec := 0 }, B, rfl, rfl, by decide +kernel⟩,
  ⟨S, 32, M, W, G, B, ⟨rfl, rfl, rfl, rfl, rfl⟩, by decide +kernel⟩⟩

theorem witness_branchesGo :
    (∃ (s : State) (k : Nat) (m : Lanes) (w : Warp) (g : Gang) (b : Block), Issuing s k m w g b ∧ (∃ gd off, (∀ j, j < 32 →
      inSet (guarded w m gd) j = true → Landing s b (branchTarget g.pc off))) ∧ (∃ gd a c, let cx := seenBy false s k m w g b;
      let dest := fun j => (cx.pair a j + 4 * (cx.word c j).signExtend 64).toNat; a.toNat < 120 ∧ c.toNat < 120 ∧
      w.readable (guarded w m gd) (a, 2) ∧ w.readable (guarded w m gd) (c, 1) ∧ Unlogged s b [a, c] ∧ (∀ j, j < 32 →
      inSet (guarded w m gd) j = true → Landing s b (dest j))) ∧ (∃ gd off, w.writable (guarded w m gd) (94, 2) ∧ (∀ j, j < 32 →
      inSet (guarded w m gd) j = true → Landing s b (branchTarget g.pc off))) ∧ (∃ gd d a, let cx := seenBy false s k m w g b; a.toNat < 120 ∧
      w.readable (guarded w m gd) (a, 2) ∧ (w.writable (guarded w m gd) (d, 2) ∧ Unlogged s b [a] ∧ (∀ j, j < 32 → inSet (guarded w m gd) j = true →
      Landing s b (cx.pair a j).toNat)) ∧ (Unlogged s b [a] ∧ (∀ j, j < 32 → inSet (guarded w m gd) j = true → Landing s b (cx.pair a j).toNat)))) ∧
    (∃ (s : State) (k : Nat) (m : Lanes) (w : Warp) (g : Gang) (b : Block) (gd : BitVec 4) (a : Code), Issuing s k m w g b ∧ w.intrap = false ∧
      w.trapvec ≠ 0 ∧ a.toNat < 120 ∧ w.readable (guarded w m gd) (a, 2) ∧ Unlogged s b [a] ∧ ∃ j, lowestLane (guarded w m gd) = some j ∧
      ((seenBy false s k m w g b).pair a j).toNat % 4 ≠ 0) :=
  ⟨⟨S, 32, M, W, G, B, ⟨rfl, rfl, rfl, rfl, rfl⟩, ⟨0, 1, landings_of (by decide +kernel)⟩, ⟨0, 106, 101, by decide +kernel, by decide +kernel,
    readable_of (by decide +kernel), readable_of (by decide +kernel), .inl rfl, landings_of (by decide +kernel)⟩, ⟨0, 1,
    writable_of (by decide +kernel), landings_of (by decide +kernel)⟩, ⟨0, 94, 106, by decide +kernel, readable_of (by decide +kernel),
    ⟨writable_of (by decide +kernel), .inl rfl, landings_of (by decide +kernel)⟩, ⟨.inl rfl, landings_of (by decide +kernel)⟩⟩⟩,
  ⟨S, 32, M, W, G, B, 0, 108, ⟨rfl, rfl, rfl, rfl, rfl⟩, by decide +kernel, by decide +kernel, by decide +kernel, readable_of (by decide +kernel),
    .inl rfl, 0, rfl, by decide +kernel⟩⟩

theorem witness_forkMakesChildren :
    ∃ (s : State) (k : Nat) (m : Lanes) (w : Warp) (g : Gang) (b : Block) (gd : BitVec 4) (d a : Code), Issuing s k m w g b ∧
      let q := guarded w m gd; let cx := seenBy false s k m w g b; m ≠ 0 ∧ m &&& ~~~w.live = 0 ∧ a.toNat < 120 ∧ w.readable q (a, 2) ∧
      w.writable q (d, 1) ∧ w.writable q (0, 8) ∧ Unlogged s b [a] ∧ (∀ j, j < 32 → inSet q j = true → Landing s b (cx.pair a j).toNat) :=
  ⟨SH, 32, 0xFFFF, WH, GH, B, 1, 9, 106, ⟨rfl, rfl, rfl, rfl, rfl⟩, by decide +kernel, by decide +kernel, by decide +kernel,
    readable_of (by decide +kernel), writable_of (by decide +kernel), writable_of (by decide +kernel), .inl rfl, landings_of (by decide +kernel)⟩

theorem witness_fibresPart :
    (∃ (s : State) (k : Nat) (m : Lanes) (w : Warp) (g : Gang) (b : Block) (gd : BitVec 4), Issuing s k m w g b ∧ let q := guarded w m gd;
      w.live &&& ~~~q ≠ 0) ∧
    (∃ (s : State) (k : Nat) (m : Lanes) (w : Warp) (g : Gang) (b : Block) (gd : BitVec 4), Issuing s k m w g b ∧
      w.live &&& ~~~(guarded w m gd) = 0 ∧ guarded w m gd ≠ 0) ∧
    (∃ (s : State) (k : Nat) (m : Lanes) (w : Warp) (g : Gang) (b : Block) (gd : BitVec 4), Issuing s k m w g b ∧ guarded w m gd = 0) ∧
    (∃ (s : State) (k : Nat) (m : Lanes) (w : Warp) (g : Gang) (b : Block), Issuing s k m w g b ∧ w.apart g) :=
  ⟨⟨S, 32, M, W, G, B, 1, ⟨rfl, rfl, rfl, rfl, rfl⟩, by decide +kernel⟩,
  ⟨S, 32, M, W, G, B, 0, ⟨rfl, rfl, rfl, rfl, rfl⟩, by decide +kernel⟩,
  ⟨S, 32, M, W, G, B, 7, ⟨rfl, rfl, rfl, rfl, rfl⟩, by decide +kernel⟩,
  ⟨S, 32, M, W, G, B, ⟨rfl, rfl, rfl, rfl, rfl⟩, fun _ hx hn => absurd (List.mem_singleton.1 hx) hn⟩⟩

theorem witness_barriersHold :
    (∃ (s : State) (k : Nat) (m : Lanes) (w : Warp) (g : Gang) (b : Block) (gd : BitVec 4), Issuing s k m w g b ∧ let q := guarded w m gd; q = 0) ∧
    (∃ (s : State) (k : Nat) (m : Lanes) (w : Warp) (g : Gang) (b : Block) (gd : BitVec 4) (i : Code), Issuing s k m w g b ∧
      let q := guarded w m gd;
      let last := fun (p : Wait) => tabSorted s.warps = true ∧ w.live ≠ 0 ∧ (∀ j v, j ≠ k → s.warp? j = some v → v.node = w.node → v.live ≠ 0 → v.allAt p = true) ∧ w.live &&& ~~~(q ||| w.lanesWhere fun x => decide (x.mask ≠ m) && decide (x.wait = p)) = 0;
      q ≠ 0 ∧ (g.half = true ∨ w.releaseMet s.fresh 0 (s.podTime b.chip) = true) ∧ last (.bar (g.x i % 16))) ∧
    (∃ (s : State) (k : Nat) (m : Lanes) (w : Warp) (g : Gang) (b : Block) (gd : BitVec 4) (i : Code), Issuing s k m w g b ∧
      let q := guarded w m gd;
      let last := fun (p : Wait) => tabSorted s.warps = true ∧ w.live ≠ 0 ∧ (∀ j v, j ≠ k → s.warp? j = some v → v.node = w.node → v.live ≠ 0 → v.allAt p = true) ∧ w.live &&& ~~~(q ||| w.lanesWhere fun x => decide (x.mask ≠ m) && decide (x.wait = p)) = 0;
      ∃ gr grp, s.grid? b.gid = some gr ∧ tabLook gr.groups (g.x i % 256) = some grp ∧ s.nodeOf b.gid b.bid = some b ∧ b.node = w.node ∧
      b.bid ∈ grp.members ∧ let n := g.x i % 256; let rel := (tabLook gr.released n).getD 0; q ≠ 0 ∧
      (g.half = true ∨ w.releaseMet s.fresh 2 (s.podTime b.chip) = true) ∧ (∃ p, p ∈ b.groups ∧ p.1 = n) ∧ last (.gbar n) ∧
      (tabLook b.episodes n).getD 0 = rel ∧ (∀ bid, bid ∈ grp.members → bid = b.bid ∨ ∃ x, s.nodeOf b.gid bid = some x ∧
      rel ≤ (tabLook x.episodes n).getD 0 ∧ (x.isOver = true ∨ (s.atGbar x.node n = true ∧ (tabLook x.episodes n).getD 0 = rel)))) ∧
    (∃ (s : State) (k : Nat) (m : Lanes) (w : Warp) (g : Gang) (b : Block) (gd : BitVec 4), Issuing s k m w g b ∧ let q := guarded w m gd; q ≠ 0 ∧
      (g.half = true ∨ w.releaseMet s.fresh 0 (s.podTime b.chip) = true) ∧ w.apart g) ∧
    (∃ (s : State) (k : Nat) (m : Lanes) (w : Warp) (g : Gang) (b : Block) (gd : BitVec 4) (i : Code), Issuing s k m w g b ∧
      let q := guarded w m gd; q ≠ 0 ∧ (g.half = true ∨ w.releaseMet s.fresh 2 (s.podTime b.chip) = true) ∧ (∃ p, p ∈ b.groups ∧
      p.1 = g.x i % 256) ∧ w.apart g) ∧
    (∃ (s : State) (k : Nat) (m : Lanes) (w : Warp) (g : Gang) (b : Block) (gd : BitVec 4) (i : Code), Issuing s k m w g b ∧
      let q := guarded w m gd; q ≠ 0 ∧ (∀ p, p ∈ b.groups → p.1 ≠ g.x i % 256) ∧ w.intrap = false ∧ w.trapvec ≠ 0) :=
  ⟨⟨S, 32, M, W, G, B, 7, ⟨rfl, rfl, rfl, rfl, rfl⟩, rfl⟩,
  ⟨S, 32, M, W, G, B, 0, 3, ⟨rfl, rfl, rfl, rfl, rfl⟩, by decide +kernel, .inr (by decide +kernel), ⟨rfl, by decide, others_none rfl,
    by decide +kernel⟩⟩,
  ⟨{ S with grids := [(1, { grid with groups := [(3, { members := [0] })] })] }, 32, M, W, G, B, 0, 3, ⟨rfl, rfl, rfl, rfl, rfl⟩,
    { grid with groups := [(3, { members := [0] })] }, { members := [0] }, rfl, rfl, rfl, by decide +kernel, by decide +kernel, by decide +kernel,
    .inr (by decide +kernel), ⟨(3, 0), by decide +kernel⟩, ⟨rfl, by decide, others_none rfl, by decide +kernel⟩, by decide +kernel,
    fun _ h => .inl (List.mem_singleton.1 h)⟩,
  ⟨S, 32, M, W, G, B, 0, ⟨rfl, rfl, rfl, rfl, rfl⟩, by decide +kernel, .inr (by decide +kernel),
    fun _ hx hne => absurd (List.mem_singleton.1 hx) hne⟩,
  ⟨S, 32, M, W, G, B, 0, 3, ⟨rfl, rfl, rfl, rfl, rfl⟩, by decide +kernel, .inr (by decide +kernel), ⟨(3, 0), by decide +kernel⟩,
    fun _ hx hne => absurd (List.mem_singleton.1 hx) hne⟩,
  ⟨S, 32, M, W, G, B, 0, 4, ⟨rfl, rfl, rfl, rfl, rfl⟩, by decide +kernel⟩⟩

theorem witness_loopsRun :
    (∃ (s : State) (k : Nat) (m : Lanes) (w : Warp) (g : Gang) (b : Block), Issuing s k m w g b ∧ let cx := seenBy false s k m w g b; (∃ gd a i j,
      lowestLane m = some j ∧ inSet (guarded w m gd) j = true ∧ a.toNat < 120 ∧ w.readable (laneBit j) (a, 1) ∧ Unlogged s b [a] ∧
      (cx.word a j = 0 ∨ g.x i % 4096 = 0)) ∧ (∃ gd a i j, lowestLane m = some j ∧ inSet (guarded w m gd) j = true ∧ a.toNat < 120 ∧
      w.readable (laneBit j) (a, 1) ∧ Unlogged s b [a] ∧ cx.word a j ≠ 0 ∧ g.x i % 4096 ≠ 0 ∧ m = w.live ∧ w.loopDepth < 3 ∧
      s.codeBase w ≤ g.pc + 4 ∧ (g.pc + 4 - s.codeBase w) / 4 < 2 ^ 19)) ∧
    (∃ (s : State) (k : Nat) (m : Lanes) (w : Warp) (g : Gang) (b : Block), Issuing s k m w g b ∧ let cx := seenBy false s k m w g b; ∃ gd a i j,
      lowestLane m = some j ∧ inSet (guarded w m gd) j = true ∧ a.toNat < 120 ∧ w.readable (laneBit j) (a, 1) ∧ Unlogged s b [a] ∧ cx.word a j ≠ 0 ∧
      g.x i % 4096 ≠ 0 ∧ (m ≠ w.live ∨ 3 ≤ w.loopDepth) ∧ w.intrap = false ∧ w.trapvec ≠ 0) ∧
    (∃ (s : State) (k : Nat) (m : Lanes) (w : Warp) (g : Gang) (b : Block), Issuing s k m w g b ∧ ∃ gd j, lowestLane m = some j ∧
      inSet (guarded w m gd) j = false) ∧
    (∃ (s : State) (k : Nat) (m : Lanes) (w : Warp) (g : Gang) (b : Block), Issuing s k m w g b ∧ ∃ gd n x, guarded w m gd ≠ 0 ∧
      w.innerLoop = some (n, x)) ∧
    (∃ (s : State) (k : Nat) (m : Lanes) (w : Warp) (g : Gang) (b : Block), Issuing s k m w g b ∧ ∃ gd, guarded w m gd = 0) ∧
    (∃ (s : State) (w : Warp) (n : Nat) (x : DWord), s.warp? s.cue.warp = some w ∧ w.innerLoop = some (n, x) ∧ w.allAt .loopEnd = true) :=
  ⟨⟨S, 32, M, W, G, B, ⟨rfl, rfl, rfl, rfl, rfl⟩, ⟨0, 101, 2, 0, rfl, by decide +kernel, by decide +kernel, readable_of (by decide +kernel),
    .inl rfl, by decide +kernel⟩, ⟨0, 102, 2, 0, rfl, by decide +kernel, by decide +kernel, readable_of (by decide +kernel), .inl rfl,
    by decide +kernel, by decide +kernel, rfl, by decide +kernel⟩⟩,
  ⟨atPort ({ W with loops := vecOf 3 fun _ => loopOf false 1 0 2 }) B, 32, M, { W with loops := vecOf 3 fun _ => loopOf false 1 0 2 }, G, B, ⟨rfl,
    rfl, rfl, rfl, rfl⟩, 0, 102, 2, 0, rfl, by decide +kernel, by decide +kernel, readable_of (by decide +kernel), .inl rfl, by decide +kernel⟩,
  ⟨S, 32, M, W, G, B, ⟨rfl, rfl, rfl, rfl, rfl⟩, 2, 0, rfl, by decide +kernel⟩,
  ⟨atPort ({ W with loops := vecPut W.loops 0 (loopOf false 1 0 2) }) B, 32, M, { W with loops := vecPut W.loops 0 (loopOf false 1 0 2) }, G, B,
    ⟨rfl, rfl, rfl, rfl, rfl⟩, 0, _, _, by decide +kernel, rfl⟩,
  ⟨S, 32, M, W, G, B, ⟨rfl, rfl, rfl, rfl, rfl⟩, 7, by decide +kernel⟩,
  ⟨{ atPort { W with gangs := [{ G with wait := .loopEnd }], loops := vecPut W.loops 0 (loopOf false 1 0 2) } B with cue := { warp := 32 } },
    { W with gangs := [{ G with wait := .loopEnd }], loops := vecPut W.loops 0 (loopOf false 1 0 2) }, _, _, rfl, rfl, by decide +kernel⟩⟩

theorem witness_predicatesAndVotes :
    (∃ (s : State) (k : Nat) (m : Lanes) (w : Warp) (g : Gang) (b : Block), Issuing s k m w g b ∧ ∃ gd d a, w.writable (guarded w m gd) (d, 1) ∧
      (w.readable (guarded w m gd) (a, 1) ∧ w.latched m a ∧ Unlogged s b [a])) ∧
    (∃ (s : State) (k : Nat) (m : Lanes) (w : Warp) (g : Gang) (b : Block) (gd : BitVec 4) (d a : Code), Issuing s k m w g b ∧
      let q := guarded w m gd; w.readable q (a, 1) ∧ w.latched m a ∧ Unlogged s b [a] ∧ w.writable q (d, 1)) :=
  ⟨⟨S, 32, M, W, G, B, ⟨rfl, rfl, rfl, rfl, rfl⟩, 0, 9, 4, writable_of (by decide +kernel), ⟨readable_of (by decide +kernel),
    latched_low (by decide), .inl rfl⟩⟩,
  ⟨S, 32, M, W, G, B, 0, 9, 4, ⟨rfl, rfl, rfl, rfl, rfl⟩, readable_of (by decide +kernel), latched_low (by decide), .inl rfl,
    writable_of (by decide +kernel)⟩⟩

theorem witness_comparesSet :
    (∃ (s : State) (k : Nat) (m : Lanes) (w : Warp) (g : Gang) (b : Block) (gd : BitVec 4) (a : Code), Issuing s k m w g b ∧ w.vectorRole ∧
      let q := guarded w m gd; (w.readable q (a, w.tiSize) ∧ w.latched m a ∧ Unlogged s b [a] ∧ ∃ c, w.readable q (c, w.tiSize) ∧ w.latched m c ∧
      Unlogged s b [c]) ∧ (w.readable q (a, w.tfSize) ∧ w.latched m a ∧ Unlogged s b [a] ∧ ∃ c, w.readable q (c, w.tfSize) ∧ w.latched m c ∧
      Unlogged s b [c])) ∧
    (∃ (s : State) (k : Nat) (m : Lanes) (w : Warp) (g : Gang) (b : Block) (gd : BitVec 4) (d a c : Code) (low : Nat), Issuing s k m w g b ∧
      let n := w.tiSize; let x : Shape := { guard := 0, dst := (d, n), srcs := [(a, n), (c, n)] }; let lanes := if x.scalar then laneBit low else m;
      let q := guarded w m gd; lowestLane m = some low ∧ x.allowed w ∧ w.latched m a ∧ w.latched m c ∧ Unlogged s b [a, c] ∧
      w.readable (lanes &&& q) (a, n) ∧ w.readable (lanes &&& ~~~q) (c, n) ∧ w.writable lanes (d, n)) :=
  ⟨⟨S, 32, M, W, G, B, 0, 4, ⟨rfl, rfl, rfl, rfl, rfl⟩, .inl rfl, ⟨readable_of (by decide +kernel), latched_low (by decide), .inl rfl, 5,
    readable_of (by decide +kernel), latched_low (by decide), .inl rfl⟩, ⟨readable_of (by decide +kernel), latched_low (by decide), .inl rfl, 5,
    readable_of (by decide +kernel), latched_low (by decide), .inl rfl⟩⟩,
  ⟨S, 32, M, W, G, B, 0, 9, 4, 5, 0, ⟨rfl, rfl, rfl, rfl, rfl⟩, rfl, .inl rfl, latched_low (by decide), latched_low (by decide), .inl rfl,
    readable_of (by decide +kernel), readable_of (by decide +kernel), writable_of (by decide +kernel)⟩⟩

theorem witness_pipeWordsComplete :
    ∃ (i : Instr) (s : State) (k : Nat) (m : Lanes) (w : Warp) (g : Gang) (b : Block) (x : Shape), Issuing s k m w g b ∧
      shapeOf i w g.pfx = some x ∧ x.ready w m :=
  ⟨.add 0 9 4 5, S, 32, M, W, G, B, _, ⟨rfl, rfl, rfl, rfl, rfl⟩, rfl, ready_of (by decide +kernel)⟩

theorem witness_registersAndWindows :
    (∃ (s : State) (k : Nat) (m : Lanes) (w : Warp) (g : Gang) (b : Block) (gd : BitVec 4) (low : Nat), Issuing s k m w g b ∧
      lowestLane m = some low ∧ let q := guarded w m gd; inSet q low = false) ∧
    (∃ (s : State) (k : Nat) (m : Lanes) (w : Warp) (g : Gang) (b : Block) (gd : BitVec 4) (d i : Code) (low : Nat), Issuing s k m w g b ∧
      lowestLane m = some low ∧ let q := guarded w m gd; inSet q low = true ∧ w.writable q (d, 1) ∧
      (g.x i = 0 ∨ 32 < g.x i ∨ 1024 < w.rows.length + 32 * g.x i)) ∧
    (∃ (s : State) (k : Nat) (m : Lanes) (w : Warp) (g : Gang) (b : Block) (gd : BitVec 4) (d i : Code) (low : Nat), Issuing s k m w g b ∧
      lowestLane m = some low ∧ let q := guarded w m gd; inSet q low = true ∧ w.writable q (d, 1) ∧ 0 < g.x i ∧ g.x i ≤ 32 ∧
      w.rows.length + 32 * g.x i ≤ 1024) ∧
    (∃ (s : State) (k : Nat) (m : Lanes) (w : Warp) (g : Gang) (b : Block) (gd : BitVec 4) (d i : Code) (low : Nat), Issuing s k m w g b ∧
      lowestLane m = some low ∧ let q := guarded w m gd; inSet q low = true ∧ w.writable q (d, 1) ∧ (g.x i = 0 ∨ w.rows.length / 32 ≤ g.x i)) ∧
    (∃ (s : State) (k : Nat) (m : Lanes) (w : Warp) (g : Gang) (b : Block) (gd : BitVec 4) (d i : Code) (low : Nat), Issuing s k m w g b ∧
      lowestLane m = some low ∧ let q := guarded w m gd; let keep := 32 * (w.rows.length / 32 - g.x i); inSet q low = true ∧ w.writable q (d, 1) ∧
      0 < g.x i ∧ g.x i < w.rows.length / 32 ∧ (∀ r, keep ≤ r → (w.row r).pend = 0 ∧ (w.row r).hold = 0) ∧ (d.toNat < 96 → ∀ j, j < 32 →
      inSet q j = true → w.rowOf (d, 1) j 0 < keep)) ∧
    (∃ (s : State) (k : Nat) (m : Lanes) (w : Warp) (g : Gang) (b : Block) (gd : BitVec 4) (a i : Code), Issuing s k m w g b ∧
      let q := guarded w m gd; let new := fun j => ((seenBy false s k m w g b).word a j).toNat + g.x i; w.readable q (a, 1) ∧ w.latched m a ∧
      Unlogged s b [a] ∧ (∀ j, j < 32 → inSet q j = true → new j < w.rows.length)) ∧
    (∃ (s : State) (k : Nat) (m : Lanes) (w : Warp) (g : Gang) (b : Block) (gd : BitVec 4) (a i : Code), Issuing s k m w g b ∧
      let q := guarded w m gd; let new := fun j => ((seenBy false s k m w g b).word a j).toNat + g.x i; w.readable q (a, 1) ∧ w.latched m a ∧
      Unlogged s b [a] ∧ ∃ j, j < 32 ∧ inSet q j = true ∧ w.rows.length ≤ new j ∧ (∀ i, i < j → inSet q i = true → new i < w.rows.length) ∧
      w.intrap = false ∧ w.trapvec ≠ 0) :=
  ⟨⟨S, 32, M, W, G, B, 2, 0, ⟨rfl, rfl, rfl, rfl, rfl⟩, rfl, by decide +kernel⟩,
  ⟨S, 32, M, W, G, B, 0, 9, 0, 0, ⟨rfl, rfl, rfl, rfl, rfl⟩, rfl, by decide +kernel, writable_of (by decide +kernel), by decide +kernel⟩,
  ⟨S, 32, M, W, G, B, 0, 9, 29, 0, ⟨rfl, rfl, rfl, rfl, rfl⟩, rfl, by decide +kernel, writable_of (by decide +kernel), by decide +kernel⟩,
  ⟨S, 32, M, W, G, B, 0, 9, 3, 0, ⟨rfl, rfl, rfl, rfl, rfl⟩, rfl, by decide +kernel, writable_of (by decide +kernel), by decide +kernel⟩,
  ⟨S, 32, M, W, G, B, 0, 9, 1, 0, ⟨rfl, rfl, rfl, rfl, rfl⟩, rfl, by decide +kernel, writable_of (by decide +kernel), by decide +kernel,
    by decide +kernel, fun _ _ => rows_calm (by decide +kernel) _, by decide +kernel⟩,
  ⟨S, 32, M, W, G, B, 0, 101, 95, ⟨rfl, rfl, rfl, rfl, rfl⟩, readable_of (by decide +kernel), latched_low (by decide), .inl rfl, by decide +kernel⟩,
  ⟨S, 32, M, W, G, B, 0, 101, 96, ⟨rfl, rfl, rfl, rfl, rfl⟩, readable_of (by decide +kernel), latched_low (by decide), .inl rfl, 0,
    by decide +kernel⟩⟩

theorem witness_scratchpadAndNames :
    (∃ (s : State) (k : Nat) (m : Lanes) (w : Warp) (g : Gang) (b : Block) (gd : BitVec 4) (d a : Code) (o : BitVec 3), Issuing s k m w g b ∧
      b.node = w.node ∧ Memory.wf b.scratch ∧ let cx := seenBy false s k m w g b; let off := fun j => ((cx.pair a j).toNat : Int) + 4 * g.mOff o;
      let fits := fun (l : Lanes) => ∀ j, j < 32 → inSet l j = true → (cx.pair a j).toNat < 2 ^ 32 ∧ 0 ≤ off j ∧ off j < (b.scratchSize : Int) ∧ off j % 4 = 0;
      (∃ (x : Shape), (x = { guard := gd, dst := (d, 1), srcs := [(a, 2)] }) ∧ w.latched m a ∧ Unlogged s b [a] ∧ w.readable (x.acting w m) (a, 2) ∧
      w.writable (x.acting w m) (d, 1) ∧ fits (x.acting w m) ∧ (∀ n, n ∈ b.scrSoft ++ b.scrBad → ∀ j, j < 32 → inSet (x.acting w m) j = true →
      n ≠ (off j).toNat / 4)) ∧ (∃ (x : Shape), (x = { guard := gd, dst := (127, 1), srcs := [(a, 2), (d, 1)] }) ∧ w.latched m a ∧ w.latched m d ∧
      Unlogged s b [a, d] ∧ w.readable (x.acting w m) (a, 2) ∧ w.readable (x.acting w m) (d, 1) ∧ fits (x.acting w m))) ∧
    (∃ (s : State) (k : Nat) (m : Lanes) (w : Warp) (g : Gang) (b : Block) (gd : BitVec 4) (d a : Code), Issuing s k m w g b ∧
      let q := guarded w m gd; w.writable q (d, 1) ∧ (a.toNat < 96 → ∀ j, lowestLane q = some j → w.writable (laneBit j) (a, 1))) :=
  ⟨⟨S, 32, M, W, G, B, 0, 9, 100, 0, ⟨rfl, rfl, rfl, rfl, rfl⟩, by decide +kernel, by decide +kernel,
    ⟨{ guard := 0, dst := (9, 1), srcs := [(100, 2)] }, rfl, latched_low (by decide), .inl rfl, readable_of (by decide +kernel),
    writable_of (by decide +kernel), by decide +kernel⟩, ⟨{ guard := 0, dst := (127, 1), srcs := [(100, 2), (9, 1)] }, rfl, latched_low (by decide),
    latched_low (by decide), .inl rfl, readable_of (by decide +kernel), readable_of (by decide +kernel), by decide +kernel⟩⟩,
  ⟨S, 32, M, W, G, B, 0, 9, 4, ⟨rfl, rfl, rfl, rfl, rfl⟩, writable_of (by decide +kernel),
    fun _ => low_of (i := 0) (by decide +kernel) (writable_of (by decide +kernel))⟩⟩

theorem witness_tagTableWords :
    (∃ (s : State) (k : Nat) (m : Lanes) (w : Warp) (g : Gang) (b : Block) (c : Code), Issuing s k m w g b ∧ w.latched m c) ∧
    (∃ (c : Core) (node : Nat) (x : DWord) (v : Word), (tagPut node x v c).2 = 0 ∧ (∀ e, c.tagOf node x = some e →
      e = (v.extractLsb' 16 11).toNat)) ∧
    (∃ (c : Core) (node : Nat) (x : DWord), (∀ e f p r, tabLook c.tags e = some p → tabLook c.tags f = some r → p.node = node → r.node = node →
      p.tag = x → r.tag = x → e = f)) :=
  ⟨⟨S, 32, M, W, G, B, 4, ⟨rfl, rfl, rfl, rfl, rfl⟩, latched_low (by decide)⟩,
  ⟨{}, 1, 0, 0, by decide +kernel, fun _ h => nomatch (show (none : Option Nat) = some _ from h)⟩,
  ⟨{ tags := [(0, { node := 1, tag := 7 })] }, 1, 7, fun e f _ _ he hf _ _ _ _ => (one_key he).trans (one_key hf).symm⟩⟩

theorem witness_bankStoreSteps :
    (∃ (s : State) (r : Sreq) (c' : Core) (w : Warp) (g : Gang), leastBy Sreq.key (s.core s.cue.core).sallocQ = some r ∧
      (s.core s.cue.core).allocate r.warp false r.units = some c' ∧ s.warp? r.warp = some w ∧ w.gang? r.mask = some g ∧ g.wait = .stall .grant) ∧
    (∃ (s : State) (r : Sreq), leastBy Sreq.key (s.core s.cue.core).sallocQ = some r ∧ (s.core s.cue.core).allocate r.warp false r.units = none) ∧
    (∃ (s : State), (s.core s.cue.core).sallocQ = []) ∧
    (∃ (s : State) (r : Sreq), leastBy Sreq.key (s.core s.cue.core).sallocQ = some r ∧ s.blockedCore s.cue.core = false) ∧
    (∃ (s : State) (r : Sreq) (b : Block), let c := s.core s.cue.core; leastBy Sreq.key c.sallocQ = some r ∧ s.blockedCore s.cue.core = true ∧
      s.departing s.cue.core = false ∧ s.block? (r.warp / 32) = some b ∧ b.node = r.warp / 32) ∧
    (∃ (s : State) (p : Piece) (n : Nat), let c := s.core s.cue.core; p ∈ c.pieces ∧ c.freeBase p.order = some n ∧ n < p.base ∧
      s.movable c p = true ∧ (∀ q z, q ∈ c.pieces → q ≠ p → p.base ≤ q.base → c.freeBase q.order = some z → z < q.base → s.movable c q = false)) ∧
    (∃ (s : State), let c := s.core s.cue.core; c.kib = 0) ∧
    (∃ (s : State), let c := s.core s.cue.core; 0 < c.kib ∧ c.kib < 192) ∧
    (∃ (s : State), let c := s.core s.cue.core; let l := (s.residents s.cue.core).map fun b => c.nodeRows b.node; 192 ≤ c.kib ∧
      l.foldl (· + ·) 0 ≤ (c.kib - 64) * 8 - 256 ∧ c.used ≤ (c.kib - 64) * 8 - 256 ∧ (∀ p, p ∈ c.pieces → p.base + p.rows ≤ (c.kib - 64) * 8)) :=
  ⟨⟨(atPort { W with gangs := [{ G with wait := .stall .grant }] } B).setCore 0 { sallocQ := [{ warp := 32, mask := M, units := 1 }] },
    { warp := 32, mask := M, units := 1 }, (Core.allocate { sallocQ := [{ warp := 32, mask := M, units := 1 }] } 32 false 1).getD {},
    { W with gangs := [{ G with wait := .stall .grant }] }, { G with wait := .stall .grant }, rfl, some_getD (by decide +kernel), rfl, rfl,
    by decide +kernel⟩,
  ⟨S.setCore 0 { sallocQ := [{ warp := 32, mask := M, units := 32 }], kib := 128 }, _, rfl, by decide +kernel⟩,
  ⟨S, by decide +kernel⟩,
  ⟨S.setCore 0 { sallocQ := [{ warp := 64, mask := M, units := 32 }] }, _, rfl, by decide +kernel⟩,
  ⟨S.setCore 0 { sallocQ := [{ warp := 32, mask := M, units := 32 }] }, { warp := 32, mask := M, units := 32 }, B, rfl, by decide +kernel,
    by decide +kernel, rfl, by decide +kernel⟩,
  ⟨S.setCore 0 { pieces := [{ owner := 32, base := 32 }] }, { owner := 32, base := 32 }, 0, List.mem_cons_self, rfl, by decide +kernel,
    by decide +kernel, fun _ _ hq hne => absurd (List.mem_singleton.1 hq) hne⟩,
  ⟨S.setCore 0 { kib := 0 }, by decide +kernel⟩,
  ⟨S.setCore 0 { kib := 128 }, by decide +kernel⟩,
  ⟨S.setCore 0 { kib := 192 }, by decide +kernel⟩⟩

theorem witness_fencesOrder :
    (∃ (s : State) (k : Nat) (m : Lanes) (w : Warp) (g : Gang) (b : Block) (gd : BitVec 4) (sc : BitVec 2) (low : Nat), Issuing s k m w g b ∧
      lowestLane m = some low ∧ let on := inSet (guarded w m gd) low; let met := g.half || w.releaseMet s.fresh sc.toNat (s.podTime b.chip);
      (on = false ∨ met = true)) ∧
    (∃ (s : State) (k : Nat) (m : Lanes) (w : Warp) (g : Gang) (b : Block) (gd : BitVec 4) (sc : BitVec 2) (low : Nat), Issuing s k m w g b ∧
      lowestLane m = some low ∧ let on := inSet (guarded w m gd) low; let met := g.half || w.releaseMet s.fresh sc.toNat (s.podTime b.chip);
      on = true ∧ met = false ∧ ∃ (kind : BitVec 2), (kind = 1 ∨ kind = 2)) :=
  ⟨⟨S, 32, M, W, G, B, 2, 2, 0, ⟨rfl, rfl, rfl, rfl, rfl⟩, rfl, by decide +kernel⟩,
  ⟨atPort { W with relPod := 5000 } B, 32, M, { W with relPod := 5000 }, G, B, 0, 2, 0, ⟨rfl, rfl, rfl, rfl, rfl⟩, rfl, rfl, rfl, 1,
    by decide +kernel⟩⟩

theorem witness_cachesKept :
    (∃ (s : State) (k : Nat) (m : Lanes) (w : Warp) (g : Gang) (b : Block) (gd : BitVec 4) (a : Code), Issuing s k m w g b ∧ w.flights = [] ∧
      (s.chip (chipOfCore w.core)).fenced = false ∧ w.latched m a ∧ Unlogged s b [a] ∧ let cx := seenBy false s k m w g b;
      let x : Shape := { guard := gd, dst := (127, 1), srcs := [(a, 2)] }; w.readable (x.acting w m) (a, 2) ∧ ∃ o, w.atBarrier = false ∧
      (∀ j, j < 32 → inSet (x.acting w m) j = true → addrForm (cx.ea g a o 128 j) = 0 → cx.ea g a o 128 j % 128 = 0 →
      ∀ h f, s.access b.chip b.ctx .load (cx.ea g a o 128 j) ≠ .miss h f)) ∧
    (∃ (s : State) (k : Nat) (m : Lanes) (w : Warp) (g : Gang) (b : Block) (gd : BitVec 4) (a : Code) (key : Nat → Nat) (leaf : Nat →
      DWord), Issuing s k m w g b ∧ w.flights = [] ∧ (s.chip (chipOfCore w.core)).fenced = false ∧ w.latched m a ∧ Unlogged s b [a] ∧
      let cx := seenBy false s k m w g b; let x : Shape := { guard := gd, dst := (127, 1), srcs := [(a, 2)] };
      let at_ := fun (n : Need) => ∀ j, j < 32 → inSet (x.acting w m) j = true → Reaches s b n 1 (cx.pair a j).toNat (key j) (leaf j);
      w.readable (x.acting w m) (a, 2) ∧ at_ .store) ∧
    (∃ (s : State) (k : Nat) (m : Lanes) (w : Warp) (g : Gang) (b : Block) (gd : BitVec 4) (a : Code) (key : Nat → Nat) (leaf : Nat →
      DWord), Issuing s k m w g b ∧ w.flights = [] ∧ (s.chip (chipOfCore w.core)).fenced = false ∧ w.latched m a ∧ Unlogged s b [a] ∧
      let cx := seenBy false s k m w g b; let x : Shape := { guard := gd, dst := (127, 1), srcs := [(a, 2)] };
      let at_ := fun (n : Need) => ∀ j, j < 32 → inSet (x.acting w m) j = true → Reaches s b n 1 (cx.pair a j).toNat (key j) (leaf j);
      w.readable (x.acting w m) (a, 2) ∧ at_ .any) :=
  ⟨⟨S, 32, M, W, G, B, 0, 96, ⟨rfl, rfl, rfl, rfl, rfl⟩, by decide +kernel, by decide +kernel, latched_low (by decide), .inl rfl,
    readable_of (by decide +kernel), 0, by decide +kernel, no_miss (by decide +kernel)⟩,
  ⟨S, 32, M, W, G, B, 0, 96, fun j => keyOf S B .store ((seenBy false S 32 M W G B).pair 96 j).toNat,
    fun j => leafOf S B .store ((seenBy false S 32 M W G B).pair 96 j).toNat, ⟨rfl, rfl, rfl, rfl, rfl⟩, by decide +kernel, by decide +kernel,
    latched_low (by decide), .inl rfl, readable_of (by decide +kernel), all_reach (by decide +kernel)⟩,
  ⟨S, 32, M, W, G, B, 0, 96, fun j => keyOf S B .any ((seenBy false S 32 M W G B).pair 96 j).toNat,
    fun j => leafOf S B .any ((seenBy false S 32 M W G B).pair 96 j).toNat, ⟨rfl, rfl, rfl, rfl, rfl⟩, by decide +kernel, by decide +kernel,
    latched_low (by decide), .inl rfl, readable_of (by decide +kernel), all_reach (by decide +kernel)⟩⟩

theorem witness_writesPerformed :
    (∃ (s : State) (b : Block), let a := s.cue.acc; let home := s.homeOf a.line; Memory.wf s.mem ∧ s.block? a.node = some b ∧ b.st = .running ∧
      a.op = 0 ∧ a.sync = false ∧ s.cue.peer = 0 ∧ (s.line a.line).calm ∧ Here (chipOfCore a.core) home s.cue ∧ Open s home (chipOfCore a.core) ∧
      (∀ p, p ∈ (s.chip home).saves → p.1 ≠ b.ctx) ∧ s.cue.op ≠ .join ∧ s.cue.op ≠ .writeBack ∧ s.cue.op ≠ .merge ∧ s.cue.came = none) ∧
    (∃ (op ty : Nat) (x y : LaneOp) (l : Line), x.off + elemBytes ty ≤ 128 ∧ (∃ r, r = runHome (.atom op ty [x]) l) ∧ (y.off = x.off ∧ ∃ r,
      r = runHome (.atom op ty [x, y]) l) ∧ (∃ r, r = runHome (.cas ty [x]) l) ∧ (∃ r, r = runHome (.amxr ty [x]) l ∧ ∃ i, i < 128 ∧
      (i < x.off ∨ x.off + elemBytes ty ≤ i))) :=
  ⟨⟨{ S with cue := { acc := { node := 1, warp := 32, line := 0x400 }, op := .store [(0, [1, 2])] } }, B, by decide +kernel, rfl, by decide +kernel,
    by decide +kernel, by decide +kernel, by decide +kernel, calm_of (by decide +kernel), .inl rfl, .inl rfl, by decide +kernel⟩,
  ⟨0, 0, { off := 124 }, { off := 124 }, 0, by decide +kernel, ⟨runHome (.atom 0 0 [{ off := 124 }]) 0, rfl⟩, ⟨by decide +kernel,
    runHome (.atom 0 0 [{ off := 124 }, { off := 124 }]) 0, rfl⟩, ⟨runHome (.cas 0 [{ off := 124 }]) 0, rfl⟩, ⟨runHome (.amxr 0 [{ off := 124 }]) 0,
    rfl, 123, by decide +kernel⟩⟩⟩

theorem witness_lineStates :
    (∃ (s : State) (b : Block), let a := s.cue.acc; let home := s.homeOf a.line; s.block? a.node = some b ∧ b.st = .running ∧ a.op = 0 ∧
      Here (chipOfCore a.core) home s.cue ∧ Open s home (chipOfCore a.core) ∧ (s.line a.line).calm ∧ s.cue.op = .join ∧ a.id ≠ 0) ∧
    (∃ (s : State) (b : Block), let a := s.cue.acc; let home := s.homeOf a.line; s.block? a.node = some b ∧ b.st = .running ∧ a.op = 0 ∧
      Here (chipOfCore a.core) home s.cue ∧ Open s home (chipOfCore a.core) ∧ (s.line a.line).calm ∧ s.cue.op = .writeBack) ∧
    (∃ (s : State) (b : Block), let a := s.cue.acc; let home := s.homeOf a.line; s.block? a.node = some b ∧ b.st = .running ∧ a.op = 0 ∧
      Here (chipOfCore a.core) home s.cue ∧ Open s home (chipOfCore a.core) ∧ (s.line a.line).calm ∧ a.sync = true ∧ ∃ l, s.cue.op = .store l) ∧
    (∃ (s : State) (b : Block), let a := s.cue.acc; let home := s.homeOf a.line; s.block? a.node = some b ∧ b.st = .running ∧ a.op = 0 ∧
      Here (chipOfCore a.core) home s.cue ∧ Open s home (chipOfCore a.core) ∧ ∃ x, (s.line a.line).hostHeld = false ∧
      (s.line a.line).sync = some x) ∧
    (∃ (s : State) (b : Block), let a := s.cue.acc; let home := s.homeOf a.line; s.block? a.node = some b ∧ b.st = .running ∧ a.op = 0 ∧
      Here (chipOfCore a.core) home s.cue ∧ Open s home (chipOfCore a.core) ∧ (s.line a.line).hostHeld = true) ∧
    (∃ (s : State), let h := s.line s.cue.line; let now := s.podTime (s.homeOf s.cue.line); ∃ x, h.sync = some x ∧ now < x.due) ∧
    (∃ (s : State), let h := s.line s.cue.line; let now := s.podTime (s.homeOf s.cue.line); ∃ x, h.sync = some x ∧ x.due ≤ now ∧
      h.hostHeld = false ∧ s.gone x.cue.acc.node = true ∧ h.waiting = []) ∧
    (∃ (s : State), let h := s.line s.cue.line; let now := s.podTime (s.homeOf s.cue.line); ∃ x l, Memory.wf s.mem ∧ h.sync = some x ∧ x.due ≤ now ∧
      h.hostHeld = false ∧ s.gone x.cue.acc.node = false ∧ h.waiting = [] ∧ x.cue.acc.line = s.cue.line ∧ x.cue.op = .store l ∧ x.cue.peer = 0 ∧
      x.cue.acc.node ≠ 0 ∧ Open s (s.homeOf s.cue.line) (chipOfCore x.cue.acc.core)) ∧
    (∃ (s : State), let h := s.line s.cue.line; (h.sync ≠ none ∨ h.waiting = [])) ∧
    (∃ (s : State), let h := s.line s.cue.line; ∃ c l, Memory.wf s.mem ∧ h.waiting = [c] ∧ h.sync = none ∧ h.red = none ∧
      s.gone c.acc.node = false ∧ c.acc.node ≠ 0 ∧ c.acc.line = s.cue.line ∧ c.op = .store l ∧ c.acc.sync = false ∧ c.peer = 0 ∧
      Open s (s.homeOf s.cue.line) (chipOfCore c.acc.core)) ∧
    (∃ (s : State), let h := s.line s.cue.line; let mine := fun (p : Partial) => decide (p.line = s.cue.line) && p.merged.isNone; ∃ p r,
      Memory.wf s.mem ∧ h.sync = none ∧ h.red ≠ none ∧ (s.partials.filter mine).foldr insertPartial [] = p :: r ∧ (∀ q, q ∈ r → q.op = p.op ∧
      q.ty = p.ty)) ∧
    (∃ (s : State), let h := s.line s.cue.line; let mine := fun (p : Partial) => decide (p.line = s.cue.line) && p.merged.isNone; ∃ p r q b,
      h.sync = none ∧ h.red ≠ none ∧ (s.partials.filter mine).foldr insertPartial [] = p :: r ∧ q ∈ r ∧ (q.op ≠ p.op ∨ q.ty ≠ p.ty) ∧
      s.block? q.node = some b) ∧
    (∃ (s : State), let h := s.line s.cue.line; h.sync ≠ none ∧ (∀ c, c ∈ h.waiting → c.op ≠ .merge)) :=
  ⟨⟨{ S with cue := { acc := { id := 4, node := 1, warp := 32, line := 0x400 }, op := .join } }, B, rfl, by decide +kernel, by decide +kernel,
    .inl rfl, .inl rfl, calm_of (by decide +kernel), by decide +kernel⟩,
  ⟨{ S with cue := { acc := { node := 1, warp := 32, line := 0x400 }, op := .writeBack } }, B, rfl, by decide +kernel, by decide +kernel, .inl rfl,
    .inl rfl, calm_of (by decide +kernel), by decide +kernel⟩,
  ⟨{ S with cue := { acc := { node := 1, warp := 32, line := 0x400, sync := true } } }, B, rfl, by decide +kernel, by decide +kernel, .inl rfl,
    .inl rfl, calm_of (by decide +kernel), by decide +kernel, ⟨_, rfl⟩⟩,
  ⟨{ S with cue := { acc := { node := 1, warp := 32, line := 0x400 } }, lines := [(0x400, { sync := some {} })] }, B, rfl, by decide +kernel,
    by decide +kernel, .inl rfl, .inl rfl, _, by decide +kernel, rfl⟩,
  ⟨{ S with cue := { acc := { node := 1, warp := 32, line := 0x400 } }, lines := [(0x400, { hostHeld := true })] }, B, rfl, by decide +kernel,
    by decide +kernel, .inl rfl, .inl rfl, by decide +kernel⟩,
  ⟨{ S with cue := { line := 0x400 }, lines := [(0x400, { sync := some { due := 1001 } })] }, _, rfl, by decide +kernel⟩,
  ⟨{ S with cue := { line := 0x400 }, lines := [(0x400, { sync := some { due := 1000, cue := { acc := { node := 9 } } } })] }, _, rfl,
    by decide +kernel⟩,
  ⟨{ S with cue := { line := 0x400 }, lines := [(0x400, { sync := some { due := 1000, cue := { acc := { node := 1, line := 0x400 } } } })] }, _, _,
    by decide +kernel, rfl, by decide +kernel, by decide +kernel, by decide +kernel, by decide +kernel, by decide +kernel, rfl, by decide +kernel,
    by decide +kernel, .inl rfl⟩,
  ⟨{ S with cue := { line := 0x400 }, lines := [(0x400, { hostHeld := true, backInv := true })] }, by decide +kernel⟩,
  ⟨{ S with cue := { line := 0x400 }, lines := [(0x400, { hostHeld := true, backInv := true, waiting := [{ acc := { node := 1, line := 0x400 }, op := .store [(127, [5])] }] })] },
    _, _, by decide +kernel, rfl, by decide +kernel, by decide +kernel, by decide +kernel, by decide +kernel, by decide +kernel, rfl,
    by decide +kernel, by decide +kernel, .inl rfl⟩,
  ⟨{ S with cue := { line := 0x400 }, lines := [(0x400, { red := some [32, 33] })], partials := [{ line := 0x400, node := 1, warp := 33, idx := 1 }, { line := 0x400, node := 1, warp := 32 }] },
    _, _, by decide +kernel, by decide +kernel, by decide +kernel, rfl, by decide +kernel⟩,
  ⟨{ S with cue := { line := 0x400 }, lines := [(0x400, { red := some [32, 33] })], partials := [{ line := 0x400, node := 1, warp := 33, idx := 1, op := 1 }, { line := 0x400, node := 1, warp := 32 }] },
    _, _, { line := 0x400, node := 1, warp := 33, idx := 1, op := 1 }, B, by decide +kernel, by decide +kernel, rfl, by decide +kernel,
    by decide +kernel, rfl⟩,
  ⟨{ S with cue := { line := 0x400 }, lines := [(0x400, { red := some [32], sync := some { due := 1001 } })] }, by decide +kernel⟩⟩

theorem witness_readsReturn :
    (∃ (s : State), let a := s.cue.acc; let home := s.homeOf a.line; scratchLine a.line = false ∧ s.gone a.node = false ∧ (s.line a.line).calm ∧
      Here (chipOfCore a.core) home s.cue ∧ Open s home (chipOfCore a.core)) ∧
    (∃ (s : State) (b : Block) (w : Warp) (row lane off len : Nat) (sx : Bool), let a := s.cue.acc; s.block? a.node = some b ∧ b.st = .running ∧
      s.warp? a.warp = some w ∧ w.node = a.node ∧ w.live ≠ 0 ∧ a.op = 0 ∧ scratchLine a.line = false ∧
      Here (s.homeOf a.line) (chipOfCore a.core) s.cue ∧ (s.cue.parts = [{ off := off, len := len, place := .reg row lane sx }]) ∧
      vecAt w.forgot lane 0 ≤ a.id ∧ lane < 32 ∧ len ∈ [1, 2, 4, 8, 16] ∧ off + len ≤ s.cue.data.length ∧ row + max 1 (len / 4) ≤ w.rows.length) :=
  ⟨⟨{ S with cue := { acc := { node := 1, warp := 32, line := 0x400 } } }, by decide +kernel, by decide +kernel, calm_of (by decide +kernel),
    .inl rfl, .inl rfl⟩,
  ⟨{ S with cue := { acc := { node := 1, warp := 32, line := 0x400 }, parts := [{ off := 0, len := 4, place := .reg 95 31 false }], data := [1, 2, 3, 4] } },
    B, W, 95, 31, 0, 4, false, rfl, by decide +kernel, rfl, by decide +kernel, by decide +kernel, by decide +kernel, by decide +kernel, .inl rfl,
    by decide +kernel⟩⟩

theorem witness_releasesAndCopies :
    (∃ (s : State) (b : Block) (w : Warp), let a := s.cue.acc; s.block? a.node = some b ∧ b.st = .running ∧ s.warp? a.warp = some w ∧
      w.node = a.node ∧ w.live ≠ 0 ∧ a.op = 0 ∧ Here (s.homeOf a.line) (chipOfCore a.core) s.cue) ∧
    (∃ (s : State) (w : Warp) (b : Block), s.warp? s.cue.warp = some w ∧ s.block? w.node = some b) ∧
    (∃ (s : State) (x : Walk), (s.chip s.cue.chip).walks.find? (fun w => decide (w.num = s.cue.num)) = some x) ∧
    (∃ (s : State) (x : Copy), s.copyAt s.cue.unit s.cue.line = some x ∧ x.live = true ∧ x.exp ≤ s.podTime (holderChip s.cue.unit)) ∧
    (∃ (s : State) (x : Copy), s.copyAt s.cue.unit s.cue.line = some x ∧ x.live = true ∧ s.podTime (holderChip s.cue.unit) < x.exp) :=
  ⟨⟨{ S with cue := { acc := { node := 1, warp := 32, line := 0x400 } } }, B, W, rfl, by decide +kernel, rfl, by decide +kernel, by decide +kernel,
    by decide +kernel, .inl rfl⟩,
  ⟨{ S with cue := { warp := 32 } }, W, B, rfl, rfl⟩,
  ⟨S.setChip 0 { C with walks := [{ ctx := 1 }] }, _, rfl⟩,
  ⟨{ S.setCore 0 { copies := [(0x400, { exp := 1000 })] } with cue := { line := 0x400 } }, _, rfl, by decide +kernel⟩,
  ⟨{ S.setCore 0 { copies := [(0x400, { exp := 1001 })] } with cue := { line := 0x400 } }, _, rfl, by decide +kernel⟩⟩

theorem witness_blocksReceive :
    (∃ (s : State) (src b : Block) (bid off len : Nat) (cnt : Option Nat), let a := s.cue.acc; Here s.cue.peer s.cue.chip s.cue ∧
      s.gone a.node = false ∧ s.block? a.node = some src ∧ s.nodeOf src.gid bid = some b ∧ s.block? b.node = some b ∧ b.st = .running ∧
      b.chip = s.cue.chip ∧ (s.cue.parts = [{ off := 0, len := len, place := .blk bid off cnt }]) ∧ s.writtenBefore a (blkKey bid off) len = false ∧
      Memory.wf b.scratch ∧ s.cue.data.length = len) ∧
    (∃ (s : State) (b : Block), s.gone s.cue.acc.node = false ∧ s.target s.cue.gid s.cue.num = .write b ∧ s.block? b.node = some b ∧
      s.cue.ct ≤ s.podTime s.cue.chip) ∧
    (∃ (s : State), s.gone s.cue.acc.node = false ∧ s.podTime s.cue.chip < s.cue.ct) :=
  ⟨⟨{ S with cue := { acc := { node := 1 }, parts := [{ len := 4, place := .blk 0 4092 none }], data := [1, 2, 3, 4] } }, B, B, 0, 4092, 4, none,
    .inl rfl, by decide +kernel, rfl, rfl, rfl, by decide +kernel⟩,
  ⟨{ S with cue := { acc := { node := 1 }, gid := 1, ct := 1000 } }, B, by decide +kernel, rfl, rfl, by decide +kernel⟩,
  ⟨{ S with cue := { acc := { node := 1 }, ct := 1001 } }, by decide +kernel⟩⟩

theorem witness_blocksSettle :
    (∃ (s : State) (b : Block), s.block? s.cue.node = some b ∧ b.node = s.cue.node ∧ b.open_ = true ∧ ((s.needed [b.node]).all s.ready) = true) ∧
    (∃ (s : State) (b : Block), s.block? s.cue.node = some b ∧ (b.open_ = false ∨ ((s.needed [b.node]).all s.ready) = false)) ∧
    (∃ (s : State) (b : Block) (n : Nat), s.block? s.cue.node = some b ∧ b.stallSince = some n ∧ b.open_ = true ∧ b.norev = false ∧
      n + 10000 ≤ s.podTime b.chip ∧ (s.needed [s.cue.node]).length = 1 ∧ s.needed [s.cue.node] = [s.cue.node]) ∧
    (∃ (s : State) (b : Block) (n : Nat), s.block? s.cue.node = some b ∧ b.stallSince = some n ∧ b.open_ = true ∧ b.norev = false ∧
      s.podTime b.chip < n + 10000) ∧
    (∃ (s : State) (b : Block), let n := s.cue.node; Memory.wf s.mem ∧ s.block? n = some b ∧ b.node = n ∧ b.open_ = true ∧ b.norev = false ∧
      b.failures < 7 ∧ s.cue.num ≠ 0 ∧ s.dependants [n] = [n] ∧ s.partials = [] ∧ s.debugBlock b.chip b.ctx = none ∧ s.nextNode ≠ n ∧
      s.block? s.nextNode = none) :=
  ⟨⟨{ atPort W { B with st := .ended, finished := true } with cue := { node := 1 }, chips := [(0, { C with plate := { rows := [{ gid := 1, st := .finished }] } })] },
    { B with st := .ended, finished := true }, rfl, by decide +kernel⟩,
  ⟨{ S with cue := { node := 1 } }, B, rfl, by decide +kernel⟩,
  ⟨{ atPort W { B with stallSince := some 100 } with cue := { node := 1 }, now := 10100 }, { B with stallSince := some 100 }, 100, rfl, rfl,
    by decide +kernel⟩,
  ⟨{ atPort W { B with stallSince := some 100 } with cue := { node := 1 }, now := 10099 }, { B with stallSince := some 100 }, 100, rfl, rfl,
    by decide +kernel⟩,
  ⟨{ S with cue := { node := 1, num := 1 } }, B, by decide +kernel, rfl, by decide +kernel⟩⟩

/-- A warp of the copy engines: two addresses, the parameters of a strided copy, a length, a stride. -/
def WC : Warp := { W with role := .copy, sregs := words [0x20000, 0, 0x20100, 0, 16, 2, 0x100, 0x80, 0x200, 0] }

theorem witness_enginesBegin :
    (∃ (s : State) (k : Nat) (m : Lanes) (w : Warp) (g : Gang) (b : Block) (gd : BitVec 4) (d a c : Code) (j : Nat), Issuing s k m w g b ∧
      w.role = .copy ∧ lowestLane m = some j ∧ inSet (guarded w m gd) j = true ∧ d.toNat < 120 ∧ a.toNat < 120 ∧ c.toNat < 120 ∧
      Unlogged s b [d, a, c] ∧ let cx := seenBy false s k m w g b;
      let slotOk := fun (x : Word) => ∀ r n, arrivalOf x = some (r, n) → n < (b.rings.getD r {}).s; w.readable (laneBit j) (a, 2) ∧
      ∃ (l : List Strip), let x := cx.word c j; let len := (x.extractLsb' 0 21).toNat; w.readable (laneBit j) (d, 2) ∧
      w.readable (laneBit j) (c, 1) ∧ len % 16 = 0 ∧ 16 ≤ len ∧ len ≤ 1048576 ∧ x.extractLsb' 21 3 = 0 ∧ slotOk x ∧ w.osc .copy < 63 ∧
      (l = [{ lane := j, src := (cx.pair a j).toNat, dst := (cx.pair d j).toNat, len := len }]) ∧ cx.stripsPass s 16 l true) ∧
    (∃ (s : State) (k : Nat) (m : Lanes) (w : Warp) (g : Gang) (b : Block) (gd : BitVec 4) (d a c : Code) (j : Nat), Issuing s k m w g b ∧
      w.role = .copy ∧ lowestLane m = some j ∧ inSet (guarded w m gd) j = true ∧ d.toNat < 120 ∧ a.toNat < 120 ∧ c.toNat < 120 ∧
      Unlogged s b [d, a, c] ∧ let cx := seenBy false s k m w g b;
      let slotOk := fun (x : Word) => ∀ r n, arrivalOf x = some (r, n) → n < (b.rings.getD r {}).s; w.readable (laneBit j) (a, 2) ∧
      ∃ (l : List Strip), let x := fun i => w.sreg (c.toNat - 96 + i); let len := ((x 0).extractLsb' 0 21).toNat;
      let n := ((x 1).extractLsb' 0 13).toNat; w.readable (laneBit j) (d, 2) ∧ w.readable (laneBit j) (c, 4) ∧
      c ∈ ([96, 100, 104, 108] : List Code) ∧ len % 16 = 0 ∧ 16 ≤ len ∧ len ≤ 65536 ∧ (x 0).extractLsb' 21 3 = 0 ∧ 0 < n ∧ n ≤ 4096 ∧
      n * len ≤ 1048576 ∧ (x 1).extractLsb' 13 19 = 0 ∧ (x 2).extractLsb' 0 4 = 0 ∧ (x 3).extractLsb' 0 4 = 0 ∧ slotOk (x 0) ∧ w.osc .copy < 63 ∧
      (l = (List.range n).map (fun r => { lane := j, len := len, src := (cx.pair a j + (x 2).signExtend 64 * BitVec.ofNat 64 r).toNat, dst := (cx.pair d j + (x 3).signExtend 64 * BitVec.ofNat 64 r).toNat })) ∧
      cx.stripsPass s 16 l true) ∧
    (∃ (s : State) (k : Nat) (m : Lanes) (w : Warp) (g : Gang) (b : Block) (gd : BitVec 4) (d a c : Code) (j : Nat), Issuing s k m w g b ∧
      w.role = .copy ∧ lowestLane m = some j ∧ inSet (guarded w m gd) j = true ∧ d.toNat < 120 ∧ a.toNat < 120 ∧ c.toNat < 120 ∧
      Unlogged s b [d, a, c] ∧ let cx := seenBy false s k m w g b; let q := guarded w m gd;
      let slotOk := fun (x : Word) => ∀ r n, arrivalOf x = some (r, n) → n < (b.rings.getD r {}).s; w.readable (laneBit j) (a, 2) ∧
      ∃ (l : List Strip), let x := cx.word c j; let u := 4 * 2 ^ (x.extractLsb' 0 3).toNat; w.readable q (a, 2) ∧ w.readable (laneBit j) (d, 2) ∧
      w.readable (laneBit j) (c, 1) ∧ (x.extractLsb' 0 3).toNat < 6 ∧ x.extractLsb' 3 21 = 0 ∧ slotOk x ∧ w.osc .gath < 63 ∧
      (l = (lanesOf q).map (fun i => { lane := i, src := (cx.pair a i).toNat, dst := ((cx.pair d j).toNat + i * u) % 2 ^ 64, len := u })) ∧
      cx.stripsPass s u l true) ∧
    (∃ (s : State) (k : Nat) (m : Lanes) (w : Warp) (g : Gang) (b : Block) (gd : BitVec 4) (d a c : Code) (j : Nat), Issuing s k m w g b ∧
      w.role = .copy ∧ lowestLane m = some j ∧ inSet (guarded w m gd) j = true ∧ d.toNat < 120 ∧ a.toNat < 120 ∧ c.toNat < 120 ∧
      Unlogged s b [d, a, c] ∧ let cx := seenBy false s k m w g b;
      let slotOk := fun (x : Word) => ∀ r n, arrivalOf x = some (r, n) → n < (b.rings.getD r {}).s; w.readable (laneBit j) (a, 2) ∧
      ∃ (l : List Strip) (v : Warp), let y := cx.word d j; let x := cx.word c j; let bytes := if x.getLsbD 20 then 1024 else 512;
      let stride := (x.extractLsb' 0 20).toNat; let row := (y.extractLsb' 0 16).toNat; w.readable (laneBit j) (d, 1) ∧
      w.readable (laneBit j) (c, 1) ∧ row % 8 = 0 ∧ y.extractLsb' 21 11 = 0 ∧ s.warp? (b.node * 32 + (y.extractLsb' 16 5).toNat) = some v ∧
      v.live ≠ 0 ∧ row + 16 * bytes / 128 ≤ v.rows.length ∧ (∀ r, row ≤ r → r < row + 16 * bytes / 128 → (v.row r).pend = 0) ∧ stride % 64 = 0 ∧
      bytes ≤ stride ∧ stride ≤ 1048512 ∧ x.extractLsb' 21 3 = 0 ∧ slotOk x ∧ w.osc .copy < 63 ∧
      (l = (List.range 16).map (fun r => { lane := j, src := ((cx.pair a j).toNat + r * stride) % 2 ^ 64, dst := r * bytes, len := bytes })) ∧
      cx.stripsPass s 64 l false) ∧
    (∃ (s : State) (k : Nat) (m : Lanes) (w : Warp) (g : Gang) (b : Block) (gd : BitVec 4) (d a c : Code) (j : Nat), Issuing s k m w g b ∧
      w.role = .copy ∧ lowestLane m = some j ∧ inSet (guarded w m gd) j = true ∧ d.toNat < 120 ∧ a.toNat < 120 ∧ c.toNat < 120 ∧
      Unlogged s b [d, a, c] ∧ let cx := seenBy false s k m w g b;
      let slotOk := fun (x : Word) => ∀ r n, arrivalOf x = some (r, n) → n < (b.rings.getD r {}).s; w.readable (laneBit j) (a, 2) ∧
      ∃ (l : List Strip), let x := cx.word c j; w.readable (laneBit j) (d, 1) ∧ w.readable (laneBit j) (c, 1) ∧ x.extractLsb' 0 24 = 0 ∧
      (cx.word d j).toNat < (b.ntiles + 7) / 8 ∧ slotOk x ∧ w.osc .copy < 63 ∧
      (l = [{ lane := j, src := (cx.pair a j).toNat, dst := 0, len := 2048 }]) ∧ cx.stripsPass s 128 l false) ∧
    (∃ (s : State) (k : Nat) (m : Lanes) (w : Warp) (g : Gang) (b : Block), Issuing s k m w g b ∧ w.intrap = false ∧ w.trapvec ≠ 0 ∧
      w.role ≠ .copy) ∧
    (∃ (s : State) (k : Nat) (m : Lanes) (w : Warp) (g : Gang) (b : Block) (gd : BitVec 4) (d a c : Code) (j : Nat), Issuing s k m w g b ∧
      w.intrap = false ∧ w.trapvec ≠ 0 ∧ w.role = .copy ∧ lowestLane m = some j ∧ inSet (guarded w m gd) j = true ∧ d.toNat < 120 ∧ a.toNat < 120 ∧
      c.toNat < 120 ∧ Unlogged s b [d, a, c] ∧ w.readable (laneBit j) (d, 2) ∧ w.readable (laneBit j) (a, 2) ∧ w.readable (laneBit j) (c, 1) ∧
      (∀ len, len = (((seenBy false s k m w g b).word c j).extractLsb' 0 21).toNat → len % 16 ≠ 0 ∨ len < 16 ∨ 1048576 < len)) :=
  ⟨⟨atPort (WC) B, 32, M, WC, G, B, 0, 96, 98, 102, 0, ⟨rfl, rfl, rfl, rfl, rfl⟩, by decide +kernel, rfl, by decide +kernel, by decide +kernel,
    by decide +kernel, by decide +kernel, .inl rfl, readable_of (by decide +kernel), _, readable_of (by decide +kernel),
    readable_of (by decide +kernel), by decide +kernel, by decide +kernel, by decide +kernel, by decide +kernel, no_slot (by decide +kernel),
    by decide +kernel, rfl, strips_of (by decide +kernel)⟩,
  ⟨atPort (WC) B, 32, M, WC, G, B, 0, 96, 98, 100, 0, ⟨rfl, rfl, rfl, rfl, rfl⟩, by decide +kernel, rfl, by decide +kernel, by decide +kernel,
    by decide +kernel, by decide +kernel, .inl rfl, readable_of (by decide +kernel), _, readable_of (by decide +kernel),
    readable_of (by decide +kernel), by decide +kernel, by decide +kernel, by decide +kernel, by decide +kernel, by decide +kernel,
    by decide +kernel, by decide +kernel, by decide +kernel, by decide +kernel, by decide +kernel, by decide +kernel, no_slot (by decide +kernel),
    by decide +kernel, rfl, strips_of (by decide +kernel)⟩,
  ⟨atPort (WC) B, 32, M, WC, G, B, 0, 96, 98, 101, 0, ⟨rfl, rfl, rfl, rfl, rfl⟩, by decide +kernel, rfl, by decide +kernel, by decide +kernel,
    by decide +kernel, by decide +kernel, .inl rfl, readable_of (by decide +kernel), _, readable_of (by decide +kernel),
    readable_of (by decide +kernel), readable_of (by decide +kernel), by decide +kernel, by decide +kernel, no_slot (by decide +kernel),
    by decide +kernel, rfl, strips_of (by decide +kernel)⟩,
  ⟨atPort (WC) B, 32, M, WC, G, B, 0, 105, 98, 104, 0, ⟨rfl, rfl, rfl, rfl, rfl⟩, by decide +kernel, rfl, by decide +kernel, by decide +kernel,
    by decide +kernel, by decide +kernel, .inl rfl, readable_of (by decide +kernel), _, WC, readable_of (by decide +kernel),
    readable_of (by decide +kernel), by decide +kernel, by decide +kernel, rfl, by decide +kernel, by decide +kernel,
    fun _ _ _ => (rows_calm (by decide +kernel) _).1, by decide +kernel, by decide +kernel, by decide +kernel, by decide +kernel,
    no_slot (by decide +kernel), by decide +kernel, rfl, strips_of (by decide +kernel)⟩,
  ⟨atPort (WC) B, 32, M, WC, G, B, 0, 105, 98, 105, 0, ⟨rfl, rfl, rfl, rfl, rfl⟩, by decide +kernel, rfl, by decide +kernel, by decide +kernel,
    by decide +kernel, by decide +kernel, .inl rfl, readable_of (by decide +kernel), _, readable_of (by decide +kernel),
    readable_of (by decide +kernel), by decide +kernel, by decide +kernel, no_slot (by decide +kernel), by decide +kernel, rfl,
    strips_of (by decide +kernel)⟩,
  ⟨atPort W B, 32, M, W, G, B, ⟨rfl, rfl, rfl, rfl, rfl⟩, by decide +kernel⟩,
  ⟨atPort (WC) B, 32, M, WC, G, B, 0, 96, 98, 101, 0, ⟨rfl, rfl, rfl, rfl, rfl⟩, by decide +kernel, by decide +kernel, by decide +kernel, rfl,
    by decide +kernel, by decide +kernel, by decide +kernel, by decide +kernel, .inl rfl, readable_of (by decide +kernel),
    readable_of (by decide +kernel), readable_of (by decide +kernel), fun _ h => by subst h; decide +kernel⟩⟩

/-- A warp with two copies under way, in a block with a ring of four slots of two arrivals. -/
def WR : Warp := { W with ops := [{ id := 1, left := 1 }, { id := 2, left := 1 }], sregs := words [0x0204, 3, 0x103, 4] }
def BR : Block := { B with rings := List.replicate 8 { s := 4, e := 2 } }

theorem witness_stagesAndGuards :
    (∃ (s : State) (k : Nat) (m : Lanes) (w : Warp) (g : Gang) (b : Block) (gd : BitVec 4) (d i : Code) (j : Nat), Issuing s k m w g b ∧
      b.node = w.node ∧ lowestLane m = some j ∧ inSet (guarded w m gd) j = true ∧ let n := min (g.x i) 63; w.osc (classOf (d.toNat % 4)) ≤ n) ∧
    (∃ (s : State) (k : Nat) (m : Lanes) (w : Warp) (g : Gang) (b : Block) (gd : BitVec 4) (d i : Code) (j : Nat), Issuing s k m w g b ∧
      b.node = w.node ∧ lowestLane m = some j ∧ inSet (guarded w m gd) j = true ∧ let n := min (g.x i) 63; n < w.osc (classOf (d.toNat % 4))) ∧
    (∃ (s : State) (k : Nat) (m : Lanes) (w : Warp) (g : Gang) (b : Block) (gd : BitVec 4) (d a : Code) (j : Nat), Issuing s k m w g b ∧
      b.node = w.node ∧ lowestLane m = some j ∧ inSet (guarded w m gd) j = true ∧ let v := (seenBy false s k m w g b).word a j;
      let r := d.toNat % 8; w.latched m a ∧ w.readable (laneBit j) (a, 1) ∧ Unlogged s b [a] ∧ 0 < (v.extractLsb' 0 5).toNat ∧
      (v.extractLsb' 0 5).toNat ≤ 16 ∧ 0 < (v.extractLsb' 8 6).toNat ∧ (v.extractLsb' 8 6).toNat ≤ 32 ∧ (∀ p, p ∈ s.warps → p.2.node = w.node →
      ∀ o, o ∈ p.2.ops → o.arv.map Prod.fst ≠ some r) ∧ (∀ o, o ∈ w.ops → o.arv.map Prod.fst ≠ some r)) ∧
    (∃ (s : State) (k : Nat) (m : Lanes) (w : Warp) (g : Gang) (b : Block) (gd : BitVec 4) (d a : Code) (j : Nat), Issuing s k m w g b ∧
      b.node = w.node ∧ lowestLane m = some j ∧ inSet (guarded w m gd) j = true ∧ let v := (seenBy false s k m w g b).word a j;
      let r := d.toNat % 8; let ring := b.rings.getD r {}; w.latched m a ∧ w.readable (laneBit j) (a, 1) ∧ Unlogged s b [a] ∧
      v.toNat % 16 < ring.s ∧ (g.half = true ∨ w.releaseMet s.fresh 0 (s.podTime b.chip) = true)) ∧
    (∃ (s : State) (k : Nat) (m : Lanes) (w : Warp) (g : Gang) (b : Block) (gd : BitVec 4) (d a : Code) (j : Nat), Issuing s k m w g b ∧
      b.node = w.node ∧ lowestLane m = some j ∧ inSet (guarded w m gd) j = true ∧ let v := (seenBy false s k m w g b).word a j;
      let r := d.toNat % 8; let ring := b.rings.getD r {}; w.latched m a ∧ w.readable (laneBit j) (a, 1) ∧ Unlogged s b [a] ∧
      v.toNat % 16 < ring.s ∧ ring.ph.getD (v.toNat % 16) false ≠ v.getLsbD 8) ∧
    (∃ (s : State) (k : Nat) (m : Lanes) (w : Warp) (g : Gang) (b : Block) (gd : BitVec 4) (d a : Code) (j : Nat), Issuing s k m w g b ∧
      b.node = w.node ∧ lowestLane m = some j ∧ inSet (guarded w m gd) j = true ∧ let v := (seenBy false s k m w g b).word a j;
      let r := d.toNat % 8; let ring := b.rings.getD r {}; w.latched m a ∧ w.readable (laneBit j) (a, 1) ∧ Unlogged s b [a] ∧
      v.toNat % 16 < ring.s ∧ ring.ph.getD (v.toNat % 16) false = v.getLsbD 8) ∧
    (∃ (s : State) (k : Nat) (m : Lanes) (w : Warp) (g : Gang) (b : Block) (gd : BitVec 4) (d a : Code) (j : Nat), Issuing s k m w g b ∧
      b.node = w.node ∧ lowestLane m = some j ∧ inSet (guarded w m gd) j = true ∧ let v := (seenBy false s k m w g b).word a j;
      let r := d.toNat % 8; let ring := b.rings.getD r {}; w.latched m a ∧ w.readable (laneBit j) (a, 1) ∧ Unlogged s b [a] ∧
      ring.s ≤ v.toNat % 16 ∧ w.intrap = false ∧ w.trapvec ≠ 0) ∧
    (∃ (s : State) (k : Nat) (m : Lanes) (w : Warp) (g : Gang) (b : Block) (gd : BitVec 4) (d a c : Code) (j : Nat), Issuing s k m w g b ∧
      lowestLane m = some j ∧ inSet (guarded w m gd) j = false ∧ d.toNat < 120 ∧ a.toNat < 120 ∧ c.toNat < 120 ∧ w.role = .copy ∧ ∃ i,
      i ∈ [Instr.cp gd d a c, .cp2d gd d a c, .gath gd d a c, .cpfr gd d a c, .cpmeta gd d a c]) ∧
    (∃ (s : State) (k : Nat) (m : Lanes) (w : Warp) (g : Gang) (b : Block) (gd : BitVec 4) (d a c : Code) (j : Nat), Issuing s k m w g b ∧
      lowestLane m = some j ∧ inSet (guarded w m gd) j = false ∧ d.toNat < 120 ∧ a.toNat < 120 ∧ c.toNat < 120 ∧ (∃ i,
      i ∈ [Instr.owait gd d a c, .sinit gd d a, .sarr gd d a, .swait gd d a, .submit gd d a, .evpost gd d a, .evwait gd d a, .plrd gd d a, .trap gd d a, .tfence gd d a, .mon gd d a, .mwait gd d a, .rfe gd d a, .sysrd gd d a, .syswr gd d a, .sysset gd d a, .sysclr gd d a, .renter gd d a, .rleave gd d a, .stamp gd d a, .brk gd d a, .fltrd gd d a]) ∧
      ((w.role = .gen ∨ w.role = .copy) ∧ ∃ i,
      i ∈ [Instr.coll gd d a, .put gd d a, .get gd d a, .putv gd d a, .arm gd d a, .await gd d a, .chput gd d a, .chget gd d a])) ∧
    (∃ (s : State) (k : Nat) (m : Lanes) (w : Warp) (g : Gang) (b : Block) (gd : BitVec 4) (d a c : Code) (j : Nat), Issuing s k m w g b ∧
      lowestLane m = some j ∧ inSet (guarded w m gd) j = false ∧ d.toNat < 120 ∧ a.toNat < 120 ∧ c.toNat < 120 ∧ guarded w m gd = 0) :=
  ⟨⟨atPort (WR) (BR), 32, M, WR, G, BR, 0, 0, 2, 0, ⟨rfl, rfl, rfl, rfl, rfl⟩, by decide +kernel, rfl, by decide +kernel⟩,
  ⟨atPort (WR) (BR), 32, M, WR, G, BR, 0, 0, 1, 0, ⟨rfl, rfl, rfl, rfl, rfl⟩, by decide +kernel, rfl, by decide +kernel⟩,
  ⟨atPort (WR) (BR), 32, M, WR, G, BR, 0, 0, 96, 0, ⟨rfl, rfl, rfl, rfl, rfl⟩, by decide +kernel, rfl, by decide +kernel, latched_low (by decide),
    readable_of (by decide +kernel), .inl rfl, by decide +kernel⟩,
  ⟨atPort (WR) (BR), 32, M, WR, G, BR, 0, 0, 97, 0, ⟨rfl, rfl, rfl, rfl, rfl⟩, by decide +kernel, rfl, by decide +kernel, latched_low (by decide),
    readable_of (by decide +kernel), .inl rfl, by decide +kernel⟩,
  ⟨atPort (WR) (BR), 32, M, WR, G, BR, 0, 0, 98, 0, ⟨rfl, rfl, rfl, rfl, rfl⟩, by decide +kernel, rfl, by decide +kernel, latched_low (by decide),
    readable_of (by decide +kernel), .inl rfl, by decide +kernel⟩,
  ⟨atPort (WR) (BR), 32, M, WR, G, BR, 0, 0, 97, 0, ⟨rfl, rfl, rfl, rfl, rfl⟩, by decide +kernel, rfl, by decide +kernel, latched_low (by decide),
    readable_of (by decide +kernel), .inl rfl, by decide +kernel⟩,
  ⟨atPort (WR) (BR), 32, M, WR, G, BR, 0, 0, 99, 0, ⟨rfl, rfl, rfl, rfl, rfl⟩, by decide +kernel, rfl, by decide +kernel, latched_low (by decide),
    readable_of (by decide +kernel), .inl rfl, by decide +kernel⟩,
  ⟨atPort ({ W with role := .copy }) (BR), 32, M, { W with role := .copy }, G, BR, 2, 0, 97, 97, 0, ⟨rfl, rfl, rfl, rfl, rfl⟩, rfl,
    by decide +kernel, by decide +kernel, by decide +kernel, by decide +kernel, by decide +kernel, .cp 2 0 97 97, by decide +kernel⟩,
  ⟨atPort (WR) (BR), 32, M, WR, G, BR, 2, 0, 97, 97, 0, ⟨rfl, rfl, rfl, rfl, rfl⟩, rfl, by decide +kernel, by decide +kernel, by decide +kernel,
    by decide +kernel, ⟨.owait 2 0 97 97, by decide +kernel⟩, ⟨.inl rfl, .coll 2 0 97, by decide +kernel⟩⟩,
  ⟨atPort (WR) (BR), 32, M, WR, G, BR, 7, 0, 97, 97, 0, ⟨rfl, rfl, rfl, rfl, rfl⟩, rfl, by decide +kernel⟩⟩

/-- A warp of the matrix engine with 160 rows, which owns tile 0. -/
def WM : Warp := { W with role := .mtx, rows := W.rows ++ W.rows.take 64, sregs := words [0x20000, 0, 0, 0, 12] }
def BM : Block := { B with tiles := { owner := some 0 } :: List.replicate 7 {} }

theorem witness_matrixQueued :
    (∃ (s : State) (k : Nat) (m : Lanes) (w : Warp) (g : Gang) (b : Block) (gd : BitVec 4) (d a c : Code) (j : Nat), Issuing s k m w g b ∧
      w.role = .mtx ∧ let q := guarded w m gd; let owned := d.toNat % 64 < b.ntiles ∧ (b.tiles.getD (d.toNat % 64) {}).owner = some w.idx;
      let rowsOk := fun (x n : Nat) (valid : Lanes) (write : Bool) => x + n ≤ w.rows.length ∧ ∀ r, x ≤ r → r < x + n → (w.row r).pend = 0 ∧ (write = true → (w.row r).hold = 0) ∧ ∀ i, i < 32 → inSet valid i = true → inSet (w.row r).valid i = true ∧ inSet (w.row r).bad i = false;
      lowestLane q = some j ∧ owned ∧ w.osc .mtx < 63 ∧ rowsOk (8 * a.toNat) 64 (BitVec.allOnes 32) false ∧
      (w.burst = 0 ∨ s.powered w.core = true) ∧ rowsOk (8 * c.toNat) (16 * MatKind.perCol .mma) (BitVec.allOnes 32) false) ∧
    (∃ (s : State) (k : Nat) (m : Lanes) (w : Warp) (g : Gang) (b : Block) (gd : BitVec 4) (d a c : Code) (j : Nat), Issuing s k m w g b ∧
      w.role = .mtx ∧ let q := guarded w m gd; let owned := d.toNat % 64 < b.ntiles ∧ (b.tiles.getD (d.toNat % 64) {}).owner = some w.idx;
      let rowsOk := fun (x n : Nat) (valid : Lanes) (write : Bool) => x + n ≤ w.rows.length ∧ ∀ r, x ≤ r → r < x + n → (w.row r).pend = 0 ∧ (write = true → (w.row r).hold = 0) ∧ ∀ i, i < 32 → inSet valid i = true → inSet (w.row r).valid i = true ∧ inSet (w.row r).bad i = false;
      lowestLane q = some j ∧ owned ∧ w.osc .mtx < 63 ∧ rowsOk (8 * a.toNat) 64 (BitVec.allOnes 32) false ∧
      (w.burst = 0 ∨ s.powered w.core = true) ∧ rowsOk (8 * c.toNat) (16 * MatKind.perCol .mmaz) (BitVec.allOnes 32) false ∧
      (rowsOk (8 * c.toNat) (16 * MatKind.perCol .mmas) (BitVec.allOnes 32) false ∧ cfgSlot w.mxcfg < (b.ntiles + 7) / 8)) ∧
    (∃ (s : State) (k : Nat) (m : Lanes) (w : Warp) (g : Gang) (b : Block) (gd : BitVec 4) (d a c : Code) (j : Nat), Issuing s k m w g b ∧
      w.role = .mtx ∧ let q := guarded w m gd; let owned := d.toNat % 64 < b.ntiles ∧ (b.tiles.getD (d.toNat % 64) {}).owner = some w.idx;
      let rowsOk := fun (x n : Nat) (valid : Lanes) (write : Bool) => x + n ≤ w.rows.length ∧ ∀ r, x ≤ r → r < x + n → (w.row r).pend = 0 ∧ (write = true → (w.row r).hold = 0) ∧ ∀ i, i < 32 → inSet valid i = true → inSet (w.row r).valid i = true ∧ inSet (w.row r).bad i = false;
      lowestLane q = some j ∧ owned ∧ w.osc .mtx < 63 ∧ rowsOk (8 * a.toNat) 64 (BitVec.allOnes 32) false ∧
      rowsOk (8 * c.toNat) (16 * MatKind.perCol .mma) (BitVec.allOnes 32) false ∧ w.burst ≠ 0 ∧ s.powered w.core = false) ∧
    (∃ (s : State) (k : Nat) (m : Lanes) (w : Warp) (g : Gang) (b : Block) (gd : BitVec 4) (d a : Code) (j : Nat), Issuing s k m w g b ∧
      w.role = .mtx ∧ let q := guarded w m gd; let owned := d.toNat % 64 < b.ntiles ∧ (b.tiles.getD (d.toNat % 64) {}).owner = some w.idx;
      let rowsOk := fun (x n : Nat) (valid : Lanes) (write : Bool) => x + n ≤ w.rows.length ∧ ∀ r, x ≤ r → r < x + n → (w.row r).pend = 0 ∧ (write = true → (w.row r).hold = 0) ∧ ∀ i, i < 32 → inSet valid i = true → inSet (w.row r).valid i = true ∧ inSet (w.row r).bad i = false;
      lowestLane q = some j ∧ owned ∧ w.osc .mtx < 63 ∧ ∃ (amx : BitVec 1), rowsOk (8 * a.toNat) (drainRows w.mxcfg + amx.toNat) 0 true) ∧
    (∃ (s : State) (k : Nat) (m : Lanes) (w : Warp) (g : Gang) (b : Block) (gd : BitVec 4) (d a : Code) (j : Nat), Issuing s k m w g b ∧
      w.role = .mtx ∧ let q := guarded w m gd; let cx := seenBy false s k m w g b;
      let owned := d.toNat % 64 < b.ntiles ∧ (b.tiles.getD (d.toNat % 64) {}).owner = some w.idx; lowestLane q = some j ∧ owned ∧ w.osc .mtx < 63 ∧
      ∃ (amx : BitVec 1), a.toNat < 120 ∧ w.readable (laneBit j) (a, 2) ∧ Unlogged s b [a] ∧ (cx.pair a j).toNat % 64 = 0 ∧
      addrForm (cx.pair a j).toNat = 0 ∧ (∀ i, i < (16 * drainStride w.mxcfg + 64 * amx.toNat) / 64 → ∃ key leaf,
      s.access b.chip b.ctx .store (((cx.pair a j).toNat + 64 * i) % 2 ^ 64) = .ok key leaf)) ∧
    (∃ (s : State) (k : Nat) (m : Lanes) (w : Warp) (g : Gang) (b : Block) (gd : BitVec 4) (d a : Code) (j : Nat), Issuing s k m w g b ∧
      w.role = .mtx ∧ let q := guarded w m gd; let cx := seenBy false s k m w g b;
      let owned := d.toNat % 64 < b.ntiles ∧ (b.tiles.getD (d.toNat % 64) {}).owner = some w.idx;
      let rowsOk := fun (x n : Nat) (valid : Lanes) (write : Bool) => x + n ≤ w.rows.length ∧ ∀ r, x ≤ r → r < x + n → (w.row r).pend = 0 ∧ (write = true → (w.row r).hold = 0) ∧ ∀ i, i < 32 → inSet valid i = true → inSet (w.row r).valid i = true ∧ inSet (w.row r).bad i = false;
      let x := (cx.word a j).toNat; lowestLane q = some j ∧ owned ∧ w.osc .mtx < 63 ∧ a.toNat < 120 ∧ w.readable (laneBit j) (a, 1) ∧
      Unlogged s b [a] ∧ x ≤ 127 ∧ rowsOk (8 * x) 8 0 true ∧ rowsOk (8 * x) 8 q false) ∧
    (∃ (s : State) (k : Nat) (m : Lanes) (w : Warp) (g : Gang) (b : Block) (gd : BitVec 4) (d a c : Code), Issuing s k m w g b ∧ w.role = .mtx ∧
      let q := guarded w m gd; q = 0 ∧ a.toNat < 120 ∧ ∃ i,
      i ∈ [Instr.mma gd d a c, .mmaz gd d a c, .mmas gd d a c, .mdrn gd d a 0 0, .mdrnSt gd d a 0 0, .mzero gd d a, .mget gd d a, .mput gd d a]) ∧
    (∃ (s : State) (k : Nat) (m : Lanes) (w : Warp) (g : Gang) (b : Block) (gd : BitVec 4) (d : Code) (j : Nat), Issuing s k m w g b ∧
      w.role = .mtx ∧ let q := guarded w m gd; let owned := d.toNat % 64 < b.ntiles ∧ (b.tiles.getD (d.toNat % 64) {}).owner = some w.idx;
      lowestLane q = some j ∧ ¬ owned ∧ w.intrap = false ∧ w.trapvec ≠ 0) :=
  ⟨⟨atPort (WM) (BM), 32, M, WM, G, BM, 0, 0, 0, 8, 0, ⟨rfl, rfl, rfl, rfl, rfl⟩, by decide +kernel, rfl, by decide +kernel, by decide +kernel,
    rows_ok (by decide +kernel), by decide +kernel, rows_ok (by decide +kernel)⟩,
  ⟨atPort (WM) (BM), 32, M, WM, G, BM, 0, 0, 0, 0, 0, ⟨rfl, rfl, rfl, rfl, rfl⟩, by decide +kernel, rfl, by decide +kernel, by decide +kernel,
    rows_ok (by decide +kernel), by decide +kernel, rows_ok (by decide +kernel), ⟨rows_ok (by decide +kernel), by decide +kernel⟩⟩,
  ⟨atPort ({ WM with burst := 1 }) (BM), 32, M, { WM with burst := 1 }, G, BM, 0, 0, 0, 8, 0, ⟨rfl, rfl, rfl, rfl, rfl⟩, by decide +kernel, rfl,
    by decide +kernel, by decide +kernel, rows_ok (by decide +kernel), rows_ok (by decide +kernel), by decide +kernel⟩,
  ⟨atPort (WM) (BM), 32, M, WM, G, BM, 0, 0, 0, 0, ⟨rfl, rfl, rfl, rfl, rfl⟩, by decide +kernel, rfl, by decide +kernel, by decide +kernel, 1,
    rows_ok (by decide +kernel)⟩,
  ⟨atPort (WM) (BM), 32, M, WM, G, BM, 0, 0, 96, 0, ⟨rfl, rfl, rfl, rfl, rfl⟩, by decide +kernel, rfl, by decide +kernel, by decide +kernel, 1,
    by decide +kernel, readable_of (by decide +kernel), .inl rfl, by decide +kernel, by decide +kernel, drains_ok (by decide +kernel)⟩,
  ⟨atPort (WM) (BM), 32, M, WM, G, BM, 0, 0, 100, 0, ⟨rfl, rfl, rfl, rfl, rfl⟩, by decide +kernel, rfl, by decide +kernel, by decide +kernel,
    by decide +kernel, readable_of (by decide +kernel), .inl rfl, by decide +kernel, rows_ok (by decide +kernel), rows_ok (by decide +kernel)⟩,
  ⟨atPort (WM) (BM), 32, M, WM, G, BM, 7, 0, 0, 8, ⟨rfl, rfl, rfl, rfl, rfl⟩, by decide +kernel, rfl, by decide +kernel, .mma 7 0 0 8,
    List.mem_cons_self⟩,
  ⟨atPort (WM) (BM), 32, M, WM, G, BM, 0, 1, 0, ⟨rfl, rfl, rfl, rfl, rfl⟩, by decide +kernel, rfl, by decide +kernel⟩⟩

theorem witness_tilesOwned :
    (∃ (s : State) (k : Nat) (m : Lanes) (w : Warp) (g : Gang) (b : Block) (gd : BitVec 4) (d a : Code) (j : Nat), Issuing s k m w g b ∧
      w.role = .mtx ∧ b.node = w.node ∧ lowestLane m = some j ∧ inSet (guarded w m gd) j = true ∧ let q := guarded w m gd; a.toNat < 120 ∧
      w.readable (laneBit j) (a, 1) ∧ Unlogged s b [a] ∧ w.writable q (d, 1)) ∧
    (∃ (s : State) (k : Nat) (m : Lanes) (w : Warp) (g : Gang) (b : Block) (gd : BitVec 4) (d : Code) (j : Nat), Issuing s k m w g b ∧
      w.role = .mtx ∧ b.node = w.node ∧ lowestLane m = some j ∧ inSet (guarded w m gd) j = true ∧ let n := d.toNat % 64; n < b.ntiles ∧
      (b.tiles.getD n {}).owner = none) ∧
    (∃ (s : State) (k : Nat) (m : Lanes) (w : Warp) (g : Gang) (b : Block) (gd : BitVec 4) (d : Code) (j : Nat), Issuing s k m w g b ∧
      w.role = .mtx ∧ b.node = w.node ∧ lowestLane m = some j ∧ inSet (guarded w m gd) j = true ∧ let n := d.toNat % 64; ∃ i, n < b.ntiles ∧
      (b.tiles.getD n {}).owner = some i ∧ i ≠ w.idx) ∧
    (∃ (s : State) (k : Nat) (m : Lanes) (w : Warp) (g : Gang) (b : Block) (gd : BitVec 4) (d : Code) (j : Nat), Issuing s k m w g b ∧
      w.role = .mtx ∧ b.node = w.node ∧ lowestLane m = some j ∧ inSet (guarded w m gd) j = true ∧ let n := d.toNat % 64; n < b.ntiles ∧
      (b.tiles.getD n {}).owner = some w.idx ∧ (∀ o, o ∈ w.ops → o.tile ≠ some n) ∧ (∀ p, p ∈ s.warps → p.2.node = w.node → ∀ x, x ∈ p.2.gangs →
      x.wait ≠ .stall (.tiles [n])) ∧ (∀ x, x ∈ w.gangs → x.wait ≠ .stall (.tiles [n]))) ∧
    (∃ (s : State) (k : Nat) (m : Lanes) (w : Warp) (g : Gang) (b : Block) (gd : BitVec 4) (d : Code) (j : Nat), Issuing s k m w g b ∧
      w.role = .mtx ∧ b.node = w.node ∧ lowestLane m = some j ∧ inSet (guarded w m gd) j = true ∧ let n := d.toNat % 64; b.ntiles ≤ n ∧
      w.intrap = false ∧ w.trapvec ≠ 0) :=
  ⟨⟨atPort (WM) (BM), 32, M, WM, G, BM, 0, 9, 97, 0, ⟨rfl, rfl, rfl, rfl, rfl⟩, by decide +kernel, by decide +kernel, rfl, by decide +kernel,
    by decide +kernel, readable_of (by decide +kernel), .inl rfl, writable_of (by decide +kernel)⟩,
  ⟨atPort (WM) (BM), 32, M, WM, G, BM, 0, 1, 0, ⟨rfl, rfl, rfl, rfl, rfl⟩, by decide +kernel, by decide +kernel, rfl, by decide +kernel⟩,
  ⟨atPort (WM) ({ BM with tiles := { owner := some 1 } :: List.replicate 7 {} }), 32, M, WM, G,
    { BM with tiles := { owner := some 1 } :: List.replicate 7 {} }, 0, 0, 0, ⟨rfl, rfl, rfl, rfl, rfl⟩, by decide +kernel, by decide +kernel, rfl,
    by decide +kernel, 1, by decide +kernel, rfl, by decide +kernel⟩,
  ⟨atPort (WM) (BM), 32, M, WM, G, BM, 0, 0, 0, ⟨rfl, rfl, rfl, rfl, rfl⟩, by decide +kernel, by decide +kernel, rfl, by decide +kernel,
    by decide +kernel, rfl, by decide +kernel⟩,
  ⟨atPort (WM) (BM), 32, M, WM, G, BM, 0, 8, 0, ⟨rfl, rfl, rfl, rfl, rfl⟩, by decide +kernel, by decide +kernel, rfl, by decide +kernel⟩⟩

def mzero : MatOp := { id := 3, kind := .mzero, warp := 32, q := M }
def engine (o : MatOp) : State := (atPort WM BM).setCore 0 { mq := [o] }

theorem witness_matrixEngine :
    (∃ (s : State) (o : MatOp) (w : Warp) (b : Block), let core := s.cue.core; startable (s.powered core) (s.core core).mq = some o ∧
      s.warp? o.warp = some w ∧ s.block? (o.warp / 32) = some b ∧ o.tile < b.tiles.length ∧ w.live ≠ 0) ∧
    (∃ (s : State) (o : MatOp) (w : Warp) (b : Block), let core := s.cue.core; startable (s.powered core) (s.core core).mq = some o ∧
      s.warp? o.warp = some w ∧ s.block? (o.warp / 32) = some b ∧ o.tile < b.tiles.length ∧ w.live ≠ 0 ∧ o.kind = .mput) ∧
    (∃ (s : State) (o : MatOp) (w : Warp) (b : Block), let core := s.cue.core; startable (s.powered core) (s.core core).mq = some o ∧
      s.warp? o.warp = some w ∧ s.block? (o.warp / 32) = some b ∧ o.tile < b.tiles.length ∧ w.live ≠ 0 ∧ let x := b.tiles.getD o.tile {};
      let right := ∀ n, o.mismatch (s.core core).mcount n = false; (o.kind = .mma ∨ o.kind = .mmaz ∨ o.kind = .mmas) ∧ right ∧ x.soft = [] ∧
      x.bad = []) ∧
    (∃ (s : State) (o : MatOp) (w : Warp) (b : Block), let core := s.cue.core; startable (s.powered core) (s.core core).mq = some o ∧
      s.warp? o.warp = some w ∧ s.block? (o.warp / 32) = some b ∧ o.tile < b.tiles.length ∧ w.live ≠ 0 ∧ let x := b.tiles.getD o.tile {};
      o.kind = .mget ∧ x.bad = [] ∧ o.a + 8 ≤ w.rows.length) ∧
    (∃ (s : State) (o : MatOp) (w : Warp) (b : Block), let core := s.cue.core; startable (s.powered core) (s.core core).mq = some o ∧
      s.warp? o.warp = some w ∧ s.block? (o.warp / 32) = some b ∧ o.tile < b.tiles.length ∧ w.live ≠ 0 ∧ let x := b.tiles.getD o.tile {};
      o.kind.reads = true ∧ x.bad ≠ []) ∧
    (∃ (s : State) (o : MatOp) (w : Warp) (b : Block), let core := s.cue.core; startable (s.powered core) (s.core core).mq = some o ∧
      s.warp? o.warp = some w ∧ s.block? (o.warp / 32) = some b ∧ o.tile < b.tiles.length ∧ w.live ≠ 0 ∧ let x := b.tiles.getD o.tile {};
      (o.kind.reads = false ∨ x.bad = []) ∧ o.mismatch (s.core core).mcount 0 = true ∧ o.mismatch (s.core core).mcount 1 = true) ∧
    (∃ (s : State), startable (s.powered s.cue.core) (s.core s.cue.core).mq = none) ∧
    (∃ (s : State) (x : Token), let die := s.cue.die; ((s.die die).tokens.find? (fun x => decide (x.pos = s.cue.unit) && x.held.isSome) = some x) ∧
      x.held.getD 0 + 4000 ≤ s.podTime (die / 4)) ∧
    (∃ (s : State) (x : Token), let die := s.cue.die; ((s.die die).tokens.find? (fun x => decide (x.pos = s.cue.unit) && x.held.isSome) = some x) ∧
      s.podTime (die / 4) < x.held.getD 0 + 4000) :=
  ⟨⟨engine mzero, mzero, WM, BM, rfl, rfl, rfl, by decide +kernel⟩,
  ⟨engine { mzero with kind := .mput }, { mzero with kind := .mput }, WM, BM, rfl, rfl, rfl, by decide +kernel⟩,
  ⟨{ engine { mzero with kind := .mma } with dies := [(0, { tokens := [{ held := some 0 }] })] }, { mzero with kind := .mma }, WM, BM, rfl, rfl,
    rfl, by decide +kernel, by decide +kernel, by decide +kernel, fun _ => rfl, by decide +kernel⟩,
  ⟨engine { mzero with kind := .mget, a := 152 }, { mzero with kind := .mget, a := 152 }, WM, BM, rfl, rfl, rfl, by decide +kernel⟩,
  ⟨{ engine { mzero with kind := .mget } with blocks := [(1, { BM with tiles := { owner := some 0, bad := [1023] } :: List.replicate 7 {} })] },
    { mzero with kind := .mget }, WM, { BM with tiles := { owner := some 0, bad := [1023] } :: List.replicate 7 {} }, rfl, rfl, rfl,
    by decide +kernel⟩,
  ⟨{ engine { mzero with kind := .mmaz, upset := [[0], [0]] } with dies := [(0, { tokens := [{ held := some 0 }] })] },
    { mzero with kind := .mmaz, upset := [[0], [0]] }, WM, BM, rfl, rfl, rfl, by decide +kernel⟩,
  ⟨S, by decide +kernel⟩,
  ⟨{ S with dies := [(0, { tokens := [{ held := some 10 }] })], now := 4010 }, _, rfl, by decide +kernel⟩,
  ⟨{ S with dies := [(0, { tokens := [{ held := some 10 }] })], now := 4009 }, _, rfl, by decide +kernel⟩⟩

/-- A warp with the descriptors of transfers and offsets of counter records. -/
def WT : Warp := { W with sregs := words [0x20000, 0, 0x20100, 0, 0x40, 1, 0, 0, 1, 0x1F0000, 4096, 4, 4080, 3, 256] }

theorem witness_transfersAndCounters :
    (∃ (s : State) (k : Nat) (m : Lanes) (w : Warp) (g : Gang) (b : Block) (gd : BitVec 4) (d a : Code) (j : Nat), Issuing s k m w g b ∧
      lowestLane m = some j ∧ inSet (guarded w m gd) j = true ∧ (w.role = .gen ∨ w.role = .copy) ∧ w.osc .coll < 63 ∧
      let cx := seenBy false s k m w g b; let blocks := ((s.grid? b.gid).map GridRun.nblk).getD 0;
      let slotOk := fun (x : Word) => ∀ r n, arrivalOf x = some (r, n) → n < (b.rings.getD r {}).s;
      let D := fun (i : Nat) => w.sreg (d.toNat - 96 + i); let P := fun (i : Nat) => w.sreg (a.toNat - 96 + i); let dst := (D 1 ++ D 0).toNat;
      let src := (D 3 ++ D 2).toNat; let len := ((P 0).extractLsb' 0 24).toNat; let spd := (P 2).getLsbD 30; ∃ (l : List Strip),
      d ∈ ([96, 100, 104, 108] : List Code) ∧ a ∈ ([96, 100, 104, 108] : List Code) ∧ w.readable (laneBit j) (d, 4) ∧
      w.readable (laneBit j) (a, 4) ∧ 0 < len ∧ len % 4 = 0 ∧ (P 2).extractLsb' 16 14 = 0 ∧ ((P 2).getLsbD 31 = true →
      16 * ((P 2).extractLsb' 0 16).toNat + 16 ≤ b.scratchSize) ∧ slotOk (P 0) ∧ (l = [{ lane := j, src := src, dst := dst, len := len }]) ∧
      ((P 1).toNat < blocks ∧ (addrForm src = 15 → src / 2 ^ 30 % 4 = 0) ∧ (if spd then dst < 2 ^ 25 ∧ dst + len ≤ b.scratchSize ∧
      dst % 4 = 0 else addrForm dst ≠ 15) ∧ cx.stripsPass s 4 l (!spd)) ∧ ((addrForm dst = 15 → dst / 2 ^ 25 % 2 ^ 35 = 0 →
      dst % 2 ^ 25 + len ≤ b.scratchSize) ∧ addrForm src ≠ 15 ∧ cx.stripsPass s 4 l true)) ∧
    (∃ (s : State) (k : Nat) (m : Lanes) (w : Warp) (g : Gang) (b : Block) (gd : BitVec 4) (d a : Code) (j : Nat), Issuing s k m w g b ∧
      lowestLane m = some j ∧ inSet (guarded w m gd) j = true ∧ (w.role = .gen ∨ w.role = .copy) ∧ w.osc .coll < 63 ∧ let q := guarded w m gd;
      let cx := seenBy false s k m w g b; let blocks := ((s.grid? b.gid).map GridRun.nblk).getD 0; 96 ≤ d.toNat ∧ d.toNat < 112 ∧
      w.readable (laneBit j) (d, 2) ∧ w.readable q (a, 1) ∧ a.toNat < 120 ∧ Unlogged s b [a] ∧ let v := cx.pair d j;
      let bid := (v.extractLsb' 0 32).toNat; let off := 128 * (v.extractLsb' 48 12).toNat; let mark := 16 * (v.extractLsb' 32 16).toNat;
      bid < blocks ∧ v.extractLsb' 60 3 = 0 ∧ off + 128 ≤ b.scratchSize ∧ (v.getLsbD 63 = true → mark + 16 ≤ b.scratchSize)) ∧
    (∃ (s : State) (k : Nat) (m : Lanes) (w : Warp) (g : Gang) (b : Block) (gd : BitVec 4) (d a : Code) (j : Nat), Issuing s k m w g b ∧
      b.node = w.node ∧ let q := guarded w m gd; let cx := seenBy false s k m w g b; lowestLane m = some j ∧ inSet q j = true ∧
      (w.role = .gen ∨ w.role = .copy) ∧ d.toNat < 120 ∧ Unlogged s b [d] ∧ w.readable (laneBit j) (d, 1) ∧ let off := (cx.word d j).toNat;
      a.toNat < 120 ∧ Unlogged s b [a] ∧ w.readable (laneBit j) (a, 2) ∧ off + 16 ≤ b.scratchSize ∧ off % 16 = 0) ∧
    (∃ (s : State) (k : Nat) (m : Lanes) (w : Warp) (g : Gang) (b : Block) (gd : BitVec 4) (d a : Code) (j : Nat), Issuing s k m w g b ∧
      b.node = w.node ∧ let q := guarded w m gd; let cx := seenBy false s k m w g b; lowestLane m = some j ∧ inSet q j = true ∧
      (w.role = .gen ∨ w.role = .copy) ∧ d.toNat < 120 ∧ Unlogged s b [d] ∧ w.readable (laneBit j) (d, 1) ∧ let off := (cx.word d j).toNat;
      a.toNat < 120 ∧ Unlogged s b [a] ∧ w.readable (laneBit j) (a, 2) ∧ b.scratchSize < off + 16) ∧
    (∃ (s : State) (k : Nat) (m : Lanes) (w : Warp) (g : Gang) (b : Block) (gd : BitVec 4) (d a : Code) (j : Nat), Issuing s k m w g b ∧
      b.node = w.node ∧ let q := guarded w m gd; let cx := seenBy false s k m w g b; lowestLane m = some j ∧ inSet q j = true ∧
      (w.role = .gen ∨ w.role = .copy) ∧ d.toNat < 120 ∧ Unlogged s b [d] ∧ w.readable (laneBit j) (d, 1) ∧ let off := (cx.word d j).toNat;
      a.toNat < 120 ∧ Unlogged s b [a] ∧ w.readable (laneBit j) (a, 2) ∧ off + 16 ≤ b.scratchSize ∧ off % 16 ≠ 0) ∧
    (∃ (s : State) (k : Nat) (m : Lanes) (w : Warp) (g : Gang) (b : Block) (gd : BitVec 4) (d : Code) (j : Nat), Issuing s k m w g b ∧
      b.node = w.node ∧ let q := guarded w m gd; let cx := seenBy false s k m w g b; lowestLane m = some j ∧ inSet q j = true ∧
      (w.role = .gen ∨ w.role = .copy) ∧ d.toNat < 120 ∧ Unlogged s b [d] ∧ w.readable (laneBit j) (d, 1) ∧ let off := (cx.word d j).toNat;
      b.scratchSize < off + 16) ∧
    (∃ (s : State) (k : Nat) (m : Lanes) (w : Warp) (g : Gang) (b : Block) (gd : BitVec 4) (d : Code) (j : Nat), Issuing s k m w g b ∧
      b.node = w.node ∧ let q := guarded w m gd; let cx := seenBy false s k m w g b; lowestLane m = some j ∧ inSet q j = true ∧
      (w.role = .gen ∨ w.role = .copy) ∧ d.toNat < 120 ∧ Unlogged s b [d] ∧ w.readable (laneBit j) (d, 1) ∧ let off := (cx.word d j).toNat;
      off + 16 ≤ b.scratchSize ∧ off % 16 ≠ 0) ∧
    (∃ (s : State) (k : Nat) (m : Lanes) (w : Warp) (g : Gang) (b : Block) (gd : BitVec 4) (d : Code) (j : Nat), Issuing s k m w g b ∧
      b.node = w.node ∧ let q := guarded w m gd; let cx := seenBy false s k m w g b; lowestLane m = some j ∧ inSet q j = true ∧
      (w.role = .gen ∨ w.role = .copy) ∧ d.toNat < 120 ∧ Unlogged s b [d] ∧ w.readable (laneBit j) (d, 1) ∧ let off := (cx.word d j).toNat;
      off + 16 ≤ b.scratchSize ∧ off % 16 = 0 ∧ (∀ x, x ∈ b.scrSoft ++ b.scrBad → 4 * x + 3 < off ∨ off + 16 ≤ 4 * x) ∧
      (g.half = true ∨ leNat (memBytes b.scratch (off + 8) 8) ≤ leNat (memBytes b.scratch off 8))) ∧
    (∃ (s : State) (k : Nat) (m : Lanes) (w : Warp) (g : Gang) (b : Block) (gd : BitVec 4) (d : Code) (j : Nat), Issuing s k m w g b ∧
      b.node = w.node ∧ let q := guarded w m gd; let cx := seenBy false s k m w g b; lowestLane m = some j ∧ inSet q j = true ∧
      (w.role = .gen ∨ w.role = .copy) ∧ d.toNat < 120 ∧ Unlogged s b [d] ∧ w.readable (laneBit j) (d, 1) ∧ let off := (cx.word d j).toNat;
      off + 16 ≤ b.scratchSize ∧ off % 16 = 0 ∧ (∀ x, x ∈ b.scrSoft ++ b.scrBad → 4 * x + 3 < off ∨ off + 16 ≤ 4 * x) ∧ g.half = false ∧
      leNat (memBytes b.scratch off 8) < leNat (memBytes b.scratch (off + 8) 8)) ∧
    (∃ (s : State) (k : Nat) (m : Lanes) (w : Warp) (g : Gang) (b : Block) (gd : BitVec 4) (d a : Code) (j : Nat), Issuing s k m w g b ∧
      b.node = w.node ∧ let q := guarded w m gd; let cx := seenBy false s k m w g b; ∃ (scalar : Bool),
      scalar = (scalarCode a && decide (96 ≤ d.toNat) && decide (d.toNat < 112)) ∧ (w.role = .gen ∨ w.role = .copy ∨ scalar = true) ∧
      lowestLane q = some j ∧ (scalar = true → lowestLane m = some j) ∧ a.toNat < 120 ∧ Unlogged s b [a] ∧ w.readable (laneBit j) (a, 1) ∧
      w.writable q (d, 1) ∧ let n := (cx.word a j).toNat; ∃ (r : GridRun) (x : Group), n < 256 ∧ s.grid? b.gid = some r ∧
      tabLook r.groups n = some x ∧ b.bid ∉ x.members) ∧
    (∃ (s : State) (k : Nat) (m : Lanes) (w : Warp) (g : Gang) (b : Block) (gd : BitVec 4) (d a : Code) (j : Nat), Issuing s k m w g b ∧
      b.node = w.node ∧ let q := guarded w m gd; let cx := seenBy false s k m w g b; ∃ (scalar : Bool),
      scalar = (scalarCode a && decide (96 ≤ d.toNat) && decide (d.toNat < 112)) ∧ (w.role = .gen ∨ w.role = .copy ∨ scalar = true) ∧
      lowestLane q = some j ∧ (scalar = true → lowestLane m = some j) ∧ a.toNat < 120 ∧ Unlogged s b [a] ∧ w.readable (laneBit j) (a, 1) ∧
      w.writable q (d, 1) ∧ let n := (cx.word a j).toNat; ∃ (r : GridRun) (x : Group), n < 256 ∧ s.grid? b.gid = some r ∧
      tabLook r.groups n = some x ∧ ∃ i, x.members[i]? = some b.bid ∧ b.bid ∉ x.members.take i) ∧
    (∃ (s : State) (k : Nat) (m : Lanes) (w : Warp) (g : Gang) (b : Block) (gd : BitVec 4) (d a : Code) (j : Nat), Issuing s k m w g b ∧
      b.node = w.node ∧ let q := guarded w m gd; let cx := seenBy false s k m w g b; ∃ (scalar : Bool),
      scalar = (scalarCode a && decide (96 ≤ d.toNat) && decide (d.toNat < 112)) ∧ (w.role = .gen ∨ w.role = .copy ∨ scalar = true) ∧
      lowestLane q = some j ∧ (scalar = true → lowestLane m = some j) ∧ a.toNat < 120 ∧ Unlogged s b [a] ∧ w.readable (laneBit j) (a, 1) ∧
      w.writable q (d, 1) ∧ let n := (cx.word a j).toNat; (256 ≤ n ∨ s.grid? b.gid = none ∨ (∀ r, s.grid? b.gid = some r →
      tabLook r.groups n = none))) :=
  ⟨⟨atPort (WT) B, 32, M, WT, G, B, 0, 96, 100, 0, ⟨rfl, rfl, rfl, rfl, rfl⟩, rfl, by decide +kernel, .inl rfl, by decide +kernel,
    [{ lane := 0, src := 0x20100, dst := 0x20000, len := 64 }], by decide +kernel, by decide +kernel, readable_of (by decide +kernel),
    readable_of (by decide +kernel), by decide +kernel, by decide +kernel, by decide +kernel, by decide +kernel, no_slot (by decide +kernel), rfl,
    ⟨by decide +kernel, by decide +kernel, by decide +kernel, strips_of (by decide +kernel)⟩, ⟨by decide +kernel, by decide +kernel,
    strips_of (by decide +kernel)⟩⟩,
  ⟨atPort (WT) B, 32, M, WT, G, B, 0, 104, 4, 0, ⟨rfl, rfl, rfl, rfl, rfl⟩, rfl, by decide +kernel, .inl rfl, by decide +kernel, by decide +kernel,
    by decide +kernel, readable_of (by decide +kernel), readable_of (by decide +kernel), by decide +kernel, .inl rfl, by decide +kernel⟩,
  ⟨atPort (WT) B, 32, M, WT, G, B, 0, 108, 100, 0, ⟨rfl, rfl, rfl, rfl, rfl⟩, by decide +kernel, rfl, by decide +kernel, .inl rfl,
    by decide +kernel, .inl rfl, readable_of (by decide +kernel), by decide +kernel, .inl rfl, readable_of (by decide +kernel), by decide +kernel⟩,
  ⟨atPort (WT) B, 32, M, WT, G, B, 0, 106, 100, 0, ⟨rfl, rfl, rfl, rfl, rfl⟩, by decide +kernel, rfl, by decide +kernel, .inl rfl,
    by decide +kernel, .inl rfl, readable_of (by decide +kernel), by decide +kernel, .inl rfl, readable_of (by decide +kernel), by decide +kernel⟩,
  ⟨atPort (WT) B, 32, M, WT, G, B, 0, 107, 100, 0, ⟨rfl, rfl, rfl, rfl, rfl⟩, by decide +kernel, rfl, by decide +kernel, .inl rfl,
    by decide +kernel, .inl rfl, readable_of (by decide +kernel), by decide +kernel, .inl rfl, readable_of (by decide +kernel), by decide +kernel⟩,
  ⟨atPort (WT) B, 32, M, WT, G, B, 0, 106, 0, ⟨rfl, rfl, rfl, rfl, rfl⟩, by decide +kernel, rfl, by decide +kernel, .inl rfl, by decide +kernel,
    .inl rfl, readable_of (by decide +kernel), by decide +kernel⟩,
  ⟨atPort (WT) B, 32, M, WT, G, B, 0, 107, 0, ⟨rfl, rfl, rfl, rfl, rfl⟩, by decide +kernel, rfl, by decide +kernel, .inl rfl, by decide +kernel,
    .inl rfl, readable_of (by decide +kernel), by decide +kernel⟩,
  ⟨atPort (WT) B, 32, M, WT, G, B, 0, 108, 0, ⟨rfl, rfl, rfl, rfl, rfl⟩, by decide +kernel, rfl, by decide +kernel, .inl rfl, by decide +kernel,
    .inl rfl, readable_of (by decide +kernel), by decide +kernel⟩,
  ⟨atPort (WT) ({ B with scratch := [(4088, 1)] }), 32, M, WT, G, { B with scratch := [(4088, 1)] }, 0, 108, 0, ⟨rfl, rfl, rfl, rfl, rfl⟩,
    by decide +kernel, rfl, by decide +kernel, .inl rfl, by decide +kernel, .inl rfl, readable_of (by decide +kernel), by decide +kernel⟩,
  ⟨atPort (WT) ({ B with bid := 2 }), 32, M, WT, G, { B with bid := 2 }, 0, 9, 109, 0, ⟨rfl, rfl, rfl, rfl, rfl⟩, by decide +kernel, false, rfl,
    .inl rfl, rfl, by decide +kernel, by decide +kernel, .inl rfl, readable_of (by decide +kernel), writable_of (by decide +kernel), grid,
    { members := [0, 1] }, by decide +kernel, rfl, rfl, by decide +kernel⟩,
  ⟨atPort (WT) B, 32, M, WT, G, B, 0, 9, 109, 0, ⟨rfl, rfl, rfl, rfl, rfl⟩, by decide +kernel, false, rfl, .inl rfl, rfl, by decide +kernel,
    by decide +kernel, .inl rfl, readable_of (by decide +kernel), writable_of (by decide +kernel), grid, { members := [0, 1] }, by decide +kernel,
    rfl, rfl, 0, rfl, by decide +kernel⟩,
  ⟨atPort (WT) B, 32, M, WT, G, B, 0, 9, 110, 0, ⟨rfl, rfl, rfl, rfl, rfl⟩, by decide +kernel, false, rfl, .inl rfl, rfl, by decide +kernel,
    by decide +kernel, .inl rfl, readable_of (by decide +kernel), writable_of (by decide +kernel), by decide +kernel⟩⟩

/-- A record of some bytes with some fields set: (place, length, value). -/
def rec (n : Nat) (l : List (Nat × Nat × Nat)) : List Byte :=
  l.foldl (fun b x => b.take x.1 ++ leBytes x.2.1 x.2.2 ++ b.drop (x.1 + x.2.1)) (List.replicate n 0)

/-- The machine with bytes at 0x22000, and a warp whose s0 and s1 hold that address. -/
def WK : Warp := { W with sregs := words [0x22000, 0, 0x20100, 0] }
def holding (l : List Byte) : State := { atPort WK B with mem := memPut [] 0x22000 l }
def collBlock : List Byte := rec 128 [(6, 2, 3), (12, 4, 2), (16, 8, 0x20000), (24, 8, 0x20400), (32, 4, 124), (36, 1, 1), (64, 8, 0x23000)]
def chanRecord : List Byte := rec 64 [(0, 8, 0x21000), (8, 4, 2), (12, 1, 3), (16, 8, 0x20700), (24, 4, 5)]

theorem witness_collectivesAndChannels :
    (∃ (s : State) (k : Nat) (m : Lanes) (w : Warp) (g : Gang) (b : Block) (gd : BitVec 4) (d a : Code) (j : Nat), Issuing s k m w g b ∧
      b.node = w.node ∧ lowestLane m = some j ∧ inSet (guarded w m gd) j = true ∧ (w.role = .gen ∨ w.role = .copy) ∧ a.toNat < 120 ∧
      w.readable (laneBit j) (a, 2) ∧ Unlogged s b [a] ∧ w.osc .coll < 63 ∧ d.toNat < 120 ∧
      let cx := contextOf { tInfo 0 gd [a] (decide (d ≠ 0)) with names := [d] } s k m w g b; let s0 := cx.noteSrcs [pairSrc a] (s.setWarp k cx.w);
      let base := ((seenBy false s k m w g b).pair a j).toNat; ∃ key leaf s1 l, Reaches s b .load 128 base key leaf ∧
      let acc : Access := { cx.access s0 (key / 128) base 0 w.pold 0 with rc := leafRec leaf, enc := leafEnc leaf, alloc := decide (leafCache leaf ≠ 2), sync := polSync w.pold || decide (leafOrd leaf = 1) };
      s0.readNow acc key 128 = (s1, some l) ∧ let f := fieldAt l; let op := f 0 1; let group := f 6 2;
      let members := ((s.groupOf b group).map Group.members).getD []; let size := elemSize op (f 1 1) (f 2 1);
      let part := fun (need : Bool) (base len : Nat) => if need then piecesOf [rangeStrip j base len] else [];
      let free := fun (s : State) (n : Need) (l : List (Strip × Nat × Nat)) => ∀ x, x ∈ l → ∃ y, cx.engineCheck s n 1 x.1.src x.2.1 x.2.2 = .at_ y;
      let cnts := part (decide (op = 3)) (f 48 8) (4 * members.length);
      let spots := cnts.filterMap fun x => match cx.engineCheck s1 .load 1 x.1.src x.2.1 x.2.2 with | .at_ y => some y | _ => none; ∃ r s2 cl,
      (∀ x, x ∈ collBad j l members → x.1 = false) ∧ members[r]? = some b.bid ∧ b.bid ∉ members.take r ∧
      (∀ x n, arrivalOf (BitVec.ofNat 32 (f 37 1 * 2 ^ 24)) = some (x, n) → n < (b.rings.getD x {}).s) ∧ (op = 7 →
      g.half = true ∨ w.releaseMet s.fresh 2 (s.podTime b.chip) = true) ∧ free s1 .load cnts ∧
      readPlaces acc (cx.placed spots cnts) s1 = (s2, some cl) ∧
      let total := (((List.range members.length).map fun i => fieldAt cl (4 * i) 4).foldl (· + ·) 0) * f 44 4;
      (free s2 .load (part (decide (op ≠ 7) && (decide (op ≠ 4) || decide (f 8 4 = r))) (f 16 8) (if op = 3 then total else if op = 1 then members.length * f 12 4 * size else f 12 4 * size))) ∧
      (free s2 (if f 3 1 = 3 then .atomic else .store) (part (decide (op ≠ 7)) (f 24 8) (if op = 3 then f 40 4 * f 44 4 else if op = 2 then members.length * f 12 4 * size else f 12 4 * size))) ∧
      free s2 .store (part (decide (op = 3)) (f 56 8) (4 * members.length)) ∧ free s2 .store (part true (f 64 8) 32)) ∧
    (∃ (s : State) (k : Nat) (m : Lanes) (w : Warp) (g : Gang) (b : Block) (gd : BitVec 4) (d a : Code) (j : Nat), Issuing s k m w g b ∧
      b.node = w.node ∧ lowestLane m = some j ∧ inSet (guarded w m gd) j = true ∧ (w.role = .gen ∨ w.role = .copy) ∧ d.toNat < 120 ∧ a.toNat < 120 ∧
      w.readable (laneBit j) (d, 2) ∧ w.readable (laneBit j) (a, 2) ∧ Unlogged s b [d, a] ∧ w.osc .coll < 63 ∧ Memory.wf s.mem ∧
      let cx := seenBy false s k m w g b; let da := (cx.pair d j).toNat; let data := (cx.pair a j).toNat; ∃ key leaf l,
      Reaches s b .load 64 da key leaf ∧ Reaches s b .store 64 da key leaf ∧ (s.line (key / 128)).calm ∧ l = memBytes s.mem key 64 ∧
      (∀ o, o ∈ w.ops → ∀ r, r ∈ o.dst → r.1 + r.2 ≤ key ∨ key + 64 ≤ r.1) ∧ let f := fieldAt l; let lines := f 8 4;
      let free := fun (n : Need) (al base len : Nat) => ∀ x, x ∈ piecesOf [rangeStrip j base len] → ∃ y, cx.engineCheck s n al base x.2.1 x.2.2 = .at_ y ∧ (n = .load → (cx.windowProblem s false x.2.2 [(j, y)]).isNone = true ∧ s.spotLost cx.b.node x.2.2 y = false);
      let slot := f 0 8 + f 13 1 * lines * 128; (∀ x, x ∈ descBad j l → x.1 = false) ∧
      (∀ r n, arrivalOf (BitVec.ofNat 32 (f 14 1 * 2 ^ 24)) = some (r, n) → n < (b.rings.getD r {}).s) ∧
      (b.norev = true ∨ b.staged.length + 1 ≤ b.budget) ∧ (∀ p, p ∈ (s.chip (s.homeOf (key / 128))).saves → p.1 ≠ b.ctx) ∧ ((∀ i, i < lines →
      free .load 1 ((data + 124 * i) % 2 ^ 64) 124) ∧ free .load 4 (f 16 8) 4 ∧ free .store 128 slot (128 * lines)) ∧
      (free .load 128 slot (128 * lines) ∧ (∀ i, i < lines → free .store 1 ((data + 124 * i) % 2 ^ 64) 124) ∧ free .store 4 (f 16 8) 4)) :=
  ⟨⟨holding collBlock, 32, M, WK, G, B, 0, 9, 96, 0, ⟨rfl, rfl, rfl, rfl, rfl⟩, by decide +kernel, rfl, by decide +kernel, .inl rfl,
    by decide +kernel, readable_of (by decide +kernel), .inl rfl, by decide +kernel, by decide +kernel, _, _, _, _, reaches_of (by decide +kernel),
    read_some (by decide +kernel), 0, _, _, by decide +kernel, by decide +kernel, by decide +kernel, no_slot (by decide +kernel),
    fun h => absurd h (by decide +kernel), spots_ok (by decide +kernel), read_some (by decide +kernel), spots_ok (by decide +kernel),
    spots_ok (by decide +kernel), spots_ok (by decide +kernel), spots_ok (by decide +kernel)⟩,
  ⟨holding chanRecord, 32, M, WK, G, B, 0, 96, 98, 0, ⟨rfl, rfl, rfl, rfl, rfl⟩, by decide +kernel, rfl, by decide +kernel, .inl rfl,
    by decide +kernel, by decide +kernel, readable_of (by decide +kernel), readable_of (by decide +kernel), .inl rfl, by decide +kernel,
    by decide +kernel, _, _, _, reaches_of (by decide +kernel), ⟨by decide +kernel, by decide +kernel, by decide +kernel⟩,
    calm_of (by decide +kernel), rfl, by decide +kernel, by decide +kernel, no_slot (by decide +kernel), by decide +kernel, by decide +kernel,
    ⟨chans_ok (by decide +kernel), chan_ok (by decide +kernel), chan_ok (by decide +kernel)⟩, ⟨chan_ok (by decide +kernel),
    chans_ok (by decide +kernel), chan_ok (by decide +kernel)⟩⟩⟩

theorem witness_monitorsWait :
    (∃ (s : State) (k : Nat) (m : Lanes) (w : Warp) (g : Gang) (b : Block) (gd : BitVec 4) (a : Code) (j : Nat), Issuing s k m w g b ∧
      lowestLane m = some j ∧ inSet (guarded w m gd) j = true ∧ a.toNat < 120 ∧ Unlogged s b [a] ∧
      let ea := ((seenBy false s k m w g b).pair a j).toNat; (∃ key leaf, w.readable (laneBit j) (a, 2) ∧ Reaches s b .load 1 ea key leaf) ∧
      (w.readable (laneBit j) (a, 1) ∧ ∀ x, w.monitor ≠ some (x, false))) ∧
    (∃ (s : State) (k : Nat) (m : Lanes) (w : Warp) (g : Gang) (b : Block) (gd : BitVec 4) (a : Code) (j : Nat), Issuing s k m w g b ∧
      lowestLane m = some j ∧ inSet (guarded w m gd) j = true ∧ a.toNat < 120 ∧ Unlogged s b [a] ∧ w.readable (laneBit j) (a, 1) ∧ ∃ x,
      w.monitor = some (x, false) ∧ g.half = false) ∧
    (∃ (s : State) (k : Nat) (m : Lanes) (w : Warp) (g : Gang) (b : Block) (gd : BitVec 4) (a : Code) (j : Nat), Issuing s k m w g b ∧
      lowestLane m = some j ∧ inSet (guarded w m gd) j = true ∧ a.toNat < 120 ∧ Unlogged s b [a] ∧ let now := s.podTime b.chip;
      w.readable (laneBit j) (a, 1) ∧ ∃ x, w.monitor = some (x, false) ∧ g.half = true ∧ (∀ t, w.deadline = some t → now < t)) ∧
    (∃ (s : State) (k : Nat) (m : Lanes) (w : Warp) (g : Gang) (b : Block) (gd : BitVec 4) (a : Code) (j : Nat), Issuing s k m w g b ∧
      lowestLane m = some j ∧ inSet (guarded w m gd) j = true ∧ a.toNat < 120 ∧ Unlogged s b [a] ∧ let now := s.podTime b.chip;
      w.readable (laneBit j) (a, 1) ∧ ∃ x, w.monitor = some (x, false) ∧ ∃ due, g.half = true ∧ w.deadline = some due ∧ due ≤ now ∧
      w.intrap = false ∧ w.trapvec ≠ 0) ∧
    (∃ (s : State) (w : Warp) (b : Block) (due : Nat), s.warp? s.cue.warp = some w ∧ s.block? w.node = some b ∧ w.deadline = some due ∧
      s.podTime b.chip < due) ∧
    (∃ (s : State) (w : Warp) (b : Block) (due : Nat), s.warp? s.cue.warp = some w ∧ s.block? w.node = some b ∧ w.deadline = some due ∧
      due ≤ s.podTime b.chip) :=
  ⟨⟨S, 32, M, W, G, B, 0, 96, 0, ⟨rfl, rfl, rfl, rfl, rfl⟩, rfl, by decide +kernel, by decide +kernel, .inl rfl, ⟨_, _,
    readable_of (by decide +kernel), reaches_of (by decide +kernel)⟩, ⟨readable_of (by decide +kernel), fun _ h => nomatch h⟩⟩,
  ⟨atPort ({ W with monitor := some (0x400, false) }) B, 32, M, { W with monitor := some (0x400, false) }, G, B, 0, 96, 0, ⟨rfl, rfl, rfl, rfl,
    rfl⟩, rfl, by decide +kernel, by decide +kernel, .inl rfl, readable_of (by decide +kernel), 0x400, rfl, by decide +kernel⟩,
  ⟨atPort ({ W with monitor := some (0x400, false), gangs := [{ G with half := true }] }) B, 32, M,
    { W with monitor := some (0x400, false), gangs := [{ G with half := true }] }, { G with half := true }, B, 0, 96, 0, ⟨rfl, rfl, rfl, rfl, rfl⟩,
    rfl, by decide +kernel, by decide +kernel, .inl rfl, readable_of (by decide +kernel), 0x400, rfl, by decide +kernel, fun _ h => nomatch h⟩,
  ⟨atPort ({ W with monitor := some (0x400, false), gangs := [{ G with half := true }], deadline := some 1000 }) B, 32, M,
    { W with monitor := some (0x400, false), gangs := [{ G with half := true }], deadline := some 1000 }, { G with half := true }, B, 0, 96, 0,
    ⟨rfl, rfl, rfl, rfl, rfl⟩, rfl, by decide +kernel, by decide +kernel, .inl rfl, readable_of (by decide +kernel), 0x400, rfl, 1000,
    by decide +kernel, rfl, by decide +kernel⟩,
  ⟨{ atPort { W with deadline := some 1001 } B with cue := { warp := 32 } }, { W with deadline := some 1001 }, B, _, rfl, rfl, rfl,
    by decide +kernel⟩,
  ⟨{ atPort { W with deadline := some 1000 } B with cue := { warp := 32 } }, { W with deadline := some 1000 }, B, _, rfl, rfl, rfl,
    by decide +kernel⟩⟩

def WS : Warp := { W with sregs := words [0x01, 0x100001C, 0x18, 0, 0x03, 0x1F] }

theorem witness_systemRegisters :
    (∃ (s : State) (k : Nat) (m : Lanes) (w : Warp) (g : Gang) (b : Block) (gd : BitVec 4) (d a : Code) (j : Nat), Issuing s k m w g b ∧
      lowestLane m = some j ∧ inSet (guarded w m gd) j = true ∧ a.toNat < 120 ∧ w.readable (laneBit j) (a, 1) ∧ Unlogged s b [a] ∧
      let q := guarded w m gd; let v := (seenBy false s k m w g b).word a j; let n := v.toNat % 256; let i := v.toNat / 2 ^ 16;
      let count := fun (n : Nat) => if n = 0x07 then 4 else if n = 0x1C then 257 else if n = 0x1D then 32 else 1; let chip := s.chip b.chip;
      n ≤ 0x1E ∧ i < count n ∧ w.writable q (d, 2) ∧ (n = 0x03 → s.debugBlock b.chip b.ctx = none)) ∧
    (∃ (s : State) (k : Nat) (m : Lanes) (w : Warp) (g : Gang) (b : Block) (gd : BitVec 4) (d a : Code) (j : Nat), Issuing s k m w g b ∧
      lowestLane m = some j ∧ inSet (guarded w m gd) j = true ∧ a.toNat < 120 ∧ w.readable (laneBit j) (a, 1) ∧ Unlogged s b [a] ∧
      let v := (seenBy false s k m w g b).word a j; let x := (seenBy false s k m w g b).pair d j; let n := v.toNat % 256; let i := v.toNat / 2 ^ 16;
      let count := fun (n : Nat) => if n = 0x07 then 4 else if n = 0x1C then 257 else if n = 0x1D then 32 else 1;
      let fields := fun (f : DWord → DWord → DWord → DWord) => ([ (0x01, fun w => { w with warn := (f (w.warn.setWidth 64) 0 0x7FF).setWidth 32 }), (0x02, fun w => { w with fstat := (f (w.fstat.setWidth 64) 0x03FF0000 0xFF).setWidth 32 }), (0x04, fun w => { w with pold := (f (w.pold.setWidth 64) 0xFFFFFFFE 0).setWidth 32 }), (0x05, fun w => { w with mxcfg := (cfgWrite w.mxcfg ((f (w.mxcfg.setWidth 64) 0xFFFFFFFF 0).setWidth 32)).1 }), (0x18, fun w => { w with trapvec := f w.trapvec 0xFFFFFFFFFFFFFFFC 0 }), (0x19, fun w => { w with trappc := f w.trappc 0xFFFFFFFFFFFFFFFC 0 }), (0x1C, fun w => { w with trapops := vecPut w.trapops i (f (vecAt w.trapops i 0) 0xFFFFFFFFFFFFFFFF 0) })] : List (Nat × (Warp → Warp)));
      let ways : List (Instr × (DWord → DWord → DWord → DWord)) := [(.syswr gd d a, fun old rw clears => ((old &&& ~~~rw) ||| (x &&& rw)) &&& ~~~(x &&& clears)), (.sysset gd d a, fun old rw _ => old ||| (x &&& rw)), (.sysclr gd d a, fun old rw clears => old &&& ~~~(x &&& (rw ||| clears)))];
      n ≤ 0x1E ∧ i < count n ∧ d.toNat < 120 ∧ w.readable (laneBit j) (d, 2) ∧ Unlogged s b [d] ∧ ∃ y, y ∈ ways ∧ ∃ z, z ∈ fields y.2 ∧ z.1 = n) ∧
    (∃ (s : State) (k : Nat) (m : Lanes) (w : Warp) (g : Gang) (b : Block) (gd : BitVec 4) (d a : Code) (j : Nat), Issuing s k m w g b ∧
      lowestLane m = some j ∧ inSet (guarded w m gd) j = true ∧ a.toNat < 120 ∧ w.readable (laneBit j) (a, 1) ∧ Unlogged s b [a] ∧
      let v := (seenBy false s k m w g b).word a j; let x := (seenBy false s k m w g b).pair d j; let n := v.toNat % 256; let i := v.toNat / 2 ^ 16;
      let count := fun (n : Nat) => if n = 0x07 then 4 else if n = 0x1C then 257 else if n = 0x1D then 32 else 1;
      let fields := fun (f : DWord → DWord → DWord → DWord) => ([ (0x01, fun w => { w with warn := (f (w.warn.setWidth 64) 0 0x7FF).setWidth 32 }), (0x02, fun w => { w with fstat := (f (w.fstat.setWidth 64) 0x03FF0000 0xFF).setWidth 32 }), (0x04, fun w => { w with pold := (f (w.pold.setWidth 64) 0xFFFFFFFE 0).setWidth 32 }), (0x05, fun w => { w with mxcfg := (cfgWrite w.mxcfg ((f (w.mxcfg.setWidth 64) 0xFFFFFFFF 0).setWidth 32)).1 }), (0x18, fun w => { w with trapvec := f w.trapvec 0xFFFFFFFFFFFFFFFC 0 }), (0x19, fun w => { w with trappc := f w.trappc 0xFFFFFFFFFFFFFFFC 0 }), (0x1C, fun w => { w with trapops := vecPut w.trapops i (f (vecAt w.trapops i 0) 0xFFFFFFFFFFFFFFFF 0) })] : List (Nat × (Warp → Warp)));
      let ways : List (Instr × (DWord → DWord → DWord → DWord)) := [(.syswr gd d a, fun old rw clears => ((old &&& ~~~rw) ||| (x &&& rw)) &&& ~~~(x &&& clears)), (.sysset gd d a, fun old rw _ => old ||| (x &&& rw)), (.sysclr gd d a, fun old rw clears => old &&& ~~~(x &&& (rw ||| clears)))];
      n ≤ 0x1E ∧ i < count n ∧ d.toNat < 120 ∧ w.readable (laneBit j) (d, 2) ∧ Unlogged s b [d] ∧ ∃ y, y ∈ ways ∧ (∀ z, z ∈ fields y.2 → z.1 ≠ n)) ∧
    (∃ (s : State) (k : Nat) (m : Lanes) (w : Warp) (g : Gang) (b : Block) (gd : BitVec 4) (d a : Code) (j : Nat), Issuing s k m w g b ∧
      lowestLane m = some j ∧ inSet (guarded w m gd) j = true ∧ a.toNat < 120 ∧ w.readable (laneBit j) (a, 1) ∧ Unlogged s b [a] ∧
      let q := guarded w m gd; let v := (seenBy false s k m w g b).word a j; let n := v.toNat % 256; let i := v.toNat / 2 ^ 16;
      let count := fun (n : Nat) => if n = 0x07 then 4 else if n = 0x1C then 257 else if n = 0x1D then 32 else 1; (0x1E < n ∨ count n ≤ i) ∧
      w.intrap = false ∧ w.trapvec ≠ 0 ∧ ∃ y, y ∈ [Instr.sysrd gd d a, .syswr gd d a, .sysset gd d a, .sysclr gd d a] ∧ (y = .sysrd gd d a →
      w.writable q (d, 2)) ∧ (y ≠ .sysrd gd d a → d.toNat < 120 ∧ w.readable (laneBit j) (d, 2))) :=
  ⟨⟨atPort (WS) B, 32, M, WS, G, B, 0, 10, 97, 0, ⟨rfl, rfl, rfl, rfl, rfl⟩, rfl, by decide +kernel, by decide +kernel,
    readable_of (by decide +kernel), .inl rfl, by decide +kernel, by decide +kernel, writable_of (by decide +kernel), by decide +kernel⟩,
  ⟨atPort (WS) B, 32, M, WS, G, B, 0, 98, 96, 0, ⟨rfl, rfl, rfl, rfl, rfl⟩, rfl, by decide +kernel, by decide +kernel,
    readable_of (by decide +kernel), .inl rfl, by decide +kernel, by decide +kernel, by decide +kernel, readable_of (by decide +kernel), .inl rfl,
    _, List.mem_cons_self, _, List.mem_cons_self, by decide +kernel⟩,
  ⟨atPort (WS) B, 32, M, WS, G, B, 0, 98, 100, 0, ⟨rfl, rfl, rfl, rfl, rfl⟩, rfl, by decide +kernel, by decide +kernel,
    readable_of (by decide +kernel), .inl rfl, by decide +kernel, by decide +kernel, by decide +kernel, readable_of (by decide +kernel), .inl rfl,
    _, List.mem_cons_self, by decide +kernel⟩,
  ⟨atPort (WS) B, 32, M, WS, G, B, 0, 10, 101, 0, ⟨rfl, rfl, rfl, rfl, rfl⟩, rfl, by decide +kernel, by decide +kernel,
    readable_of (by decide +kernel), .inl rfl, by decide +kernel, by decide +kernel, by decide +kernel, _, List.mem_cons_self,
    fun _ => writable_of (by decide +kernel), fun h => absurd rfl h⟩⟩

def WG : Warp := { W with regions := [7, 8], sregs := words [7, 0x10007, 0x20007, 0x30007] }

theorem witness_regionsAndHandlers :
    (∃ (s : State) (k : Nat) (m : Lanes) (w : Warp) (g : Gang) (b : Block) (gd : BitVec 4) (a : Code) (j : Nat), Issuing s k m w g b ∧
      lowestLane m = some j ∧ inSet (guarded w m gd) j = true ∧ let reads := a.toNat < 120 ∧ w.readable (laneBit j) (a, 1) ∧ Unlogged s b [a];
      let v := (seenBy false s k m w g b).word a j; let id16 : BitVec 16 := v.extractLsb' 0 16; reads ∧ w.stop ≠ some (id16, 1)) ∧
    (∃ (s : State) (k : Nat) (m : Lanes) (w : Warp) (g : Gang) (b : Block) (gd : BitVec 4) (a : Code) (j : Nat), Issuing s k m w g b ∧
      lowestLane m = some j ∧ inSet (guarded w m gd) j = true ∧ let reads := a.toNat < 120 ∧ w.readable (laneBit j) (a, 1) ∧ Unlogged s b [a];
      let v := (seenBy false s k m w g b).word a j; let id16 : BitVec 16 := v.extractLsb' 0 16; reads ∧ w.stop = some (id16, 1)) ∧
    (∃ (s : State) (k : Nat) (m : Lanes) (w : Warp) (g : Gang) (b : Block) (gd : BitVec 4) (j : Nat), Issuing s k m w g b ∧ lowestLane m = some j ∧
      inSet (guarded w m gd) j = true ∧ w.regions = []) ∧
    (∃ (s : State) (k : Nat) (m : Lanes) (w : Warp) (g : Gang) (b : Block) (gd : BitVec 4) (j : Nat), Issuing s k m w g b ∧ lowestLane m = some j ∧
      inSet (guarded w m gd) j = true ∧ ∃ x r, w.regions = x :: r ∧ w.stop ≠ some (x, 2)) ∧
    (∃ (s : State) (k : Nat) (m : Lanes) (w : Warp) (g : Gang) (b : Block) (gd : BitVec 4) (j : Nat), Issuing s k m w g b ∧ lowestLane m = some j ∧
      inSet (guarded w m gd) j = true ∧ ∃ x r, w.regions = x :: r ∧ w.stop = some (x, 2)) ∧
    (∃ (s : State) (k : Nat) (m : Lanes) (w : Warp) (g : Gang) (b : Block) (gd : BitVec 4) (a : Code) (j : Nat), Issuing s k m w g b ∧
      lowestLane m = some j ∧ inSet (guarded w m gd) j = true ∧ let reads := a.toNat < 120 ∧ w.readable (laneBit j) (a, 1) ∧ Unlogged s b [a];
      let v := (seenBy false s k m w g b).word a j; let mode := v.toNat / 2 ^ 16 % 4; reads ∧ mode = 0) ∧
    (∃ (s : State) (k : Nat) (m : Lanes) (w : Warp) (g : Gang) (b : Block) (gd : BitVec 4) (a : Code) (j : Nat), Issuing s k m w g b ∧
      lowestLane m = some j ∧ inSet (guarded w m gd) j = true ∧ let reads := a.toNat < 120 ∧ w.readable (laneBit j) (a, 1) ∧ Unlogged s b [a];
      let v := (seenBy false s k m w g b).word a j; let mode := v.toNat / 2 ^ 16 % 4; reads ∧ (mode = 1 ∨ mode = 2)) ∧
    (∃ (s : State) (k : Nat) (m : Lanes) (w : Warp) (g : Gang) (b : Block) (gd : BitVec 4) (a : Code) (j : Nat), Issuing s k m w g b ∧
      lowestLane m = some j ∧ inSet (guarded w m gd) j = true ∧ let reads := a.toNat < 120 ∧ w.readable (laneBit j) (a, 1) ∧ Unlogged s b [a];
      let v := (seenBy false s k m w g b).word a j; let mode := v.toNat / 2 ^ 16 % 4; reads ∧ mode = 3) ∧
    (∃ (s : State) (k : Nat) (m : Lanes) (w : Warp) (g : Gang) (b : Block) (gd : BitVec 4) (a : Code) (j : Nat), Issuing s k m w g b ∧
      lowestLane m = some j ∧ inSet (guarded w m gd) j = true ∧ b.node = w.node ∧
      (let fl : BitVec 8 := w.fstat.extractLsb' 0 8 &&& w.fstat.extractLsb' 16 8; (a.toNat < 120 ∧ w.readable (laneBit j) (a, 1) ∧
      Unlogged s b [a] ∧ w.intrap = false ∧ w.trapvec ≠ 0) ∧ fl = 0)) ∧
    (∃ (s : State) (k : Nat) (m : Lanes) (w : Warp) (g : Gang) (b : Block) (gd : BitVec 4) (j : Nat), Issuing s k m w g b ∧ lowestLane m = some j ∧
      inSet (guarded w m gd) j = true ∧ let fl : BitVec 8 := w.fstat.extractLsb' 0 8 &&& w.fstat.extractLsb' 16 8; fl ≠ 0 ∧ w.intrap = false ∧
      w.trapvec ≠ 0) ∧
    (∃ (s : State) (k : Nat) (m : Lanes) (w : Warp) (g : Gang) (b : Block) (gd : BitVec 4) (j : Nat), Issuing s k m w g b ∧ lowestLane m = some j ∧
      inSet (guarded w m gd) j = true ∧ w.intrap = false) ∧
    (∃ (s : State) (k : Nat) (m : Lanes) (w : Warp) (g : Gang) (b : Block) (gd : BitVec 4) (j : Nat), Issuing s k m w g b ∧ lowestLane m = some j ∧
      inSet (guarded w m gd) j = true ∧ w.intrap = true) :=
  ⟨⟨atPort (WG) B, 32, M, WG, G, B, 0, 96, 0, ⟨rfl, rfl, rfl, rfl, rfl⟩, rfl, by decide +kernel, ⟨by decide, readable_of (by decide +kernel),
    .inl rfl⟩, by decide +kernel⟩,
  ⟨atPort ({ WG with stop := some (7, 1) }) B, 32, M, { WG with stop := some (7, 1) }, G, B, 0, 96, 0, ⟨rfl, rfl, rfl, rfl, rfl⟩, rfl,
    by decide +kernel, ⟨by decide, readable_of (by decide +kernel), .inl rfl⟩, rfl⟩,
  ⟨atPort W B, 32, M, W, G, B, 0, 0, ⟨rfl, rfl, rfl, rfl, rfl⟩, rfl, by decide +kernel⟩,
  ⟨atPort (WG) B, 32, M, WG, G, B, 0, 0, ⟨rfl, rfl, rfl, rfl, rfl⟩, rfl, by decide +kernel, 7, [8], rfl, by decide +kernel⟩,
  ⟨atPort ({ WG with stop := some (7, 2) }) B, 32, M, { WG with stop := some (7, 2) }, G, B, 0, 0, ⟨rfl, rfl, rfl, rfl, rfl⟩, rfl,
    by decide +kernel, 7, [8], rfl, rfl⟩,
  ⟨atPort (WG) B, 32, M, WG, G, B, 0, 96, 0, ⟨rfl, rfl, rfl, rfl, rfl⟩, rfl, by decide +kernel, ⟨by decide, readable_of (by decide +kernel),
    .inl rfl⟩, rfl⟩,
  ⟨atPort (WG) B, 32, M, WG, G, B, 0, 97, 0, ⟨rfl, rfl, rfl, rfl, rfl⟩, rfl, by decide +kernel, ⟨by decide, readable_of (by decide +kernel),
    .inl rfl⟩, by decide +kernel⟩,
  ⟨atPort (WG) B, 32, M, WG, G, B, 0, 99, 0, ⟨rfl, rfl, rfl, rfl, rfl⟩, rfl, by decide +kernel, ⟨by decide, readable_of (by decide +kernel),
    .inl rfl⟩, rfl⟩,
  ⟨atPort (WG) B, 32, M, WG, G, B, 0, 96, 0, ⟨rfl, rfl, rfl, rfl, rfl⟩, rfl, by decide +kernel, by decide +kernel, ⟨⟨by decide +kernel,
    readable_of (by decide +kernel), .inl rfl, by decide +kernel⟩, rfl⟩⟩,
  ⟨atPort ({ W with fstat := 0x10001 }) B, 32, M, { W with fstat := 0x10001 }, G, B, 0, 0, ⟨rfl, rfl, rfl, rfl, rfl⟩, rfl, by decide +kernel⟩,
  ⟨atPort (WG) B, 32, M, WG, G, B, 0, 0, ⟨rfl, rfl, rfl, rfl, rfl⟩, rfl, by decide +kernel⟩,
  ⟨atPort ({ W with intrap := true, trapMask := some M }) B, 32, M, { W with intrap := true, trapMask := some M }, G, B, 0, 0, ⟨rfl, rfl, rfl, rfl,
    rfl⟩, rfl, by decide +kernel⟩⟩

/-- A launch record at 0x22000 of the kernel descriptor at 0x24000. -/
def launchRec : List Byte := rec 128 [(0, 8, 0x24000), (8, 4, 8), (12, 4, 4), (16, 2, 1), (18, 2, 0), (20, 2, 3), (28, 4, 64), (56, 8, 0x23000)]
def kernelRec : List Byte := rec 896 [(0, 2, 1), (2, 1, 1), (4, 2, 96), (8, 8, 0x10000), (16, 4, 0x1000), (20, 4, 4096)]
def launchMem : List Host.Cell := memPut (memPut [] 0x22000 launchRec) 0x24000 kernelRec
/-- Their lines, in the L2. -/
def launchLines : List (Nat × HomeLine) := (0x440, { way := some 0 }) :: (List.range 7).map fun i => (0x480 + i, { way := some i })

theorem witness_eventsTold :
    (∃ (s : State) (k : Nat) (m : Lanes) (w : Warp) (g : Gang) (b : Block) (gd : BitVec 4) (d a : Code) (j : Nat), Issuing s k m w g b ∧
      lowestLane m = some j ∧ inSet (guarded w m gd) j = true ∧ let q := guarded w m gd;
      let reads := fun (n : Nat) => a.toNat < 120 ∧ Unlogged s b [a] ∧ w.readable (laneBit j) (a, n);
      let cx := contextOf (sysInfo 0 gd [a] false) s k m w g b; let s0 := cx.noteSrcs [pairSrc a] (s.setWarp k cx.w);
      let x := (seenBy false s k m w g b).pair a j; let ea := x.toNat; let out := g.half = true ∨ w.releaseMet s.fresh 2 (s.podTime b.chip) = true;
      let may := fun (base len : Nat) => ∀ y, y ∈ piecesOf [rangeStrip j base len] → ∃ key leaf, s.access b.chip b.ctx .load ((base + y.2.1) % 2 ^ 64) = .ok key leaf;
      ∃ s1 l, out ∧ reads 2 ∧ w.writable q (d, 1) ∧ addrForm ea = 0 ∧ ea % 128 = 0 ∧ may ea 128 ∧
      (s0.pull b.chip b.ctx { cx.access s0 0 ea 0 0 0 with id := s0.fresh } ea 128 = (s1, some l)) ∧ (fieldAt l 0 8 % 128 = 0 →
      addrForm (fieldAt l 0 8) = 0 ∧ may (fieldAt l 0 8) 896 ∧ (fieldAt l 32 8 ≠ 0 → addrForm (fieldAt l 32 8) = 0 ∧ may (fieldAt l 32 8) 4096)) ∧
      let solo := decide ((s.chip b.chip).power = .solo) || (decide ((s.chip b.chip).power = .joining) && !(s.chip b.chip).inPod);
      let r := s1.judge b.chip { cx.access s0 0 ea 0 0 0 with id := s0.fresh } (some b.ctx) solo l; ∃ image run, r.2 = .accepted b.ctx image run ∧
      (r.1.chip b.chip).room = true) ∧
    (∃ (s : State) (k : Nat) (m : Lanes) (w : Warp) (g : Gang) (b : Block) (gd : BitVec 4) (d a : Code) (j : Nat), Issuing s k m w g b ∧
      lowestLane m = some j ∧ inSet (guarded w m gd) j = true ∧ let q := guarded w m gd;
      let reads := fun (n : Nat) => a.toNat < 120 ∧ Unlogged s b [a] ∧ w.readable (laneBit j) (a, n);
      let cx := contextOf (sysInfo 0 gd [a] false) s k m w g b; let s0 := cx.noteSrcs [pairSrc a] (s.setWarp k cx.w);
      let x := (seenBy false s k m w g b).pair a j; let ea := x.toNat; let out := g.half = true ∨ w.releaseMet s.fresh 2 (s.podTime b.chip) = true;
      let may := fun (base len : Nat) => ∀ y, y ∈ piecesOf [rangeStrip j base len] → ∃ key leaf, s.access b.chip b.ctx .load ((base + y.2.1) % 2 ^ 64) = .ok key leaf;
      ∃ s1 l, out ∧ reads 2 ∧ w.writable q (d, 1) ∧ addrForm ea = 0 ∧ ea % 128 = 0 ∧ may ea 128 ∧
      (s0.pull b.chip b.ctx { cx.access s0 0 ea 0 0 0 with id := s0.fresh } ea 128 = (s1, some l)) ∧ (fieldAt l 0 8 % 128 = 0 →
      addrForm (fieldAt l 0 8) = 0 ∧ may (fieldAt l 0 8) 896 ∧ (fieldAt l 32 8 ≠ 0 → addrForm (fieldAt l 32 8) = 0 ∧ may (fieldAt l 32 8) 4096)) ∧
      let solo := decide ((s.chip b.chip).power = .solo) || (decide ((s.chip b.chip).power = .joining) && !(s.chip b.chip).inPod);
      let r := s1.judge b.chip { cx.access s0 0 ea 0 0 0 with id := s0.fresh } (some b.ctx) solo l; ∃ code crec, r.2 = .refused code b.ctx crec ∧
      code < 2 ^ 32) ∧
    (∃ (s : State) (k : Nat) (m : Lanes) (w : Warp) (g : Gang) (b : Block) (gd : BitVec 4) (d a : Code) (j : Nat), Issuing s k m w g b ∧
      lowestLane m = some j ∧ inSet (guarded w m gd) j = true ∧
      let reads := fun (n : Nat) => a.toNat < 120 ∧ Unlogged s b [a] ∧ w.readable (laneBit j) (a, n); let x := (seenBy false s k m w g b).pair a j;
      let ea := x.toNat; let out := g.half = true ∨ w.releaseMet s.fresh 2 (s.podTime b.chip) = true; ∃ (key : Nat → Nat), out ∧ reads 2 ∧
      d.toNat < 120 ∧ Unlogged s b [d] ∧ w.readable (laneBit j) (d, 1) ∧ addrForm ea = 0 ∧ ea % 8 = 0 ∧ (s.chip b.chip).room = true ∧
      (∀ y, y ∈ piecesOf [rangeStrip j ea 40] → (∃ leaf, s.access b.chip b.ctx .load ((ea + y.2.1) % 2 ^ 64) = .ok (key y.2.1) leaf) ∧
      (s.line (key y.2.1 / 128)).red = none ∧ (s.line (key y.2.1 / 128)).poison = [] ∧ (s.line (key y.2.1 / 128)).violated = [] ∧
      (s.line (key y.2.1 / 128)).soft = none ∧ (s.line (key y.2.1 / 128)).l2soft = none ∧ (s.line (key y.2.1 / 128)).l2bad = [])) ∧
    (∃ (s : State) (k : Nat) (m : Lanes) (w : Warp) (g : Gang) (b : Block) (gd : BitVec 4) (d a : Code) (j : Nat), Issuing s k m w g b ∧
      lowestLane m = some j ∧ inSet (guarded w m gd) j = true ∧ let q := guarded w m gd;
      let reads := fun (n : Nat) => a.toNat < 120 ∧ Unlogged s b [a] ∧ w.readable (laneBit j) (a, n); let x := (seenBy false s k m w g b).pair a j;
      let p := (s.chip b.chip).plate; reads 2 ∧ w.writable q (d, 2) ∧
      let fits := fun (u : PUser) => u.ctx = b.ctx ∧ u.key = (x.extractLsb' 0 32).toNat ∧ (x.extractLsb' 32 32).toNat ≤ u.num; ∃ u, u ∈ p.users ∧
      fits u ∧ (∀ y, y ∈ p.users → fits y → u.num ≤ y.num)) ∧
    (∃ (s : State) (k : Nat) (m : Lanes) (w : Warp) (g : Gang) (b : Block) (gd : BitVec 4) (d a : Code) (j : Nat), Issuing s k m w g b ∧
      lowestLane m = some j ∧ inSet (guarded w m gd) j = true ∧ let q := guarded w m gd;
      let reads := fun (n : Nat) => a.toNat < 120 ∧ Unlogged s b [a] ∧ w.readable (laneBit j) (a, n); let x := (seenBy false s k m w g b).pair a j;
      let p := (s.chip b.chip).plate; reads 2 ∧ w.writable q (d, 2) ∧
      let fits := fun (u : PUser) => u.ctx = b.ctx ∧ u.key = (x.extractLsb' 0 32).toNat ∧ (x.extractLsb' 32 32).toNat ≤ u.num; (∀ y, y ∈ p.users →
      ¬ fits y)) ∧
    (∃ (s : State) (k : Nat) (m : Lanes) (w : Warp) (g : Gang) (b : Block) (gd : BitVec 4) (d a : Code) (j : Nat), Issuing s k m w g b ∧
      lowestLane m = some j ∧ inSet (guarded w m gd) j = true ∧ let q := guarded w m gd;
      let reads := fun (n : Nat) => a.toNat < 120 ∧ Unlogged s b [a] ∧ w.readable (laneBit j) (a, n); reads 1 ∧ w.writable q (d, 2)) :=
  ⟨⟨{ atPort WK B with mem := launchMem, lines := launchLines }, 32, M, WK, G, B, 0, 9, 96, 0, ⟨rfl, rfl, rfl, rfl, rfl⟩, rfl, by decide +kernel, _,
    _, .inr (by decide +kernel), ⟨by decide, .inl rfl, readable_of (by decide +kernel)⟩, writable_of (by decide +kernel), by decide +kernel,
    by decide +kernel, may_ok (by decide +kernel), read_some (by decide +kernel), fun _ => ⟨by decide +kernel, may_ok (by decide +kernel),
    fun h => absurd (by decide +kernel) h⟩, _, _, accepted_of (by decide +kernel), by decide +kernel⟩,
  ⟨{ atPort WK B with mem := memPut [] 0x22000 (rec 128 [(0, 8, 0x22000)]) }, 32, M, WK, G, B, 0, 9, 96, 0, ⟨rfl, rfl, rfl, rfl, rfl⟩, rfl,
    by decide +kernel, _, _, .inr (by decide +kernel), ⟨by decide, .inl rfl, readable_of (by decide +kernel)⟩, writable_of (by decide +kernel),
    by decide +kernel, by decide +kernel, may_ok (by decide +kernel), read_some (by decide +kernel), fun _ => ⟨by decide +kernel,
    may_ok (by decide +kernel), fun h => absurd (by decide +kernel) h⟩, 1, 0, refused_of (by decide +kernel), by decide⟩,
  ⟨atPort (WK) B, 32, M, WK, G, B, 0, 4, 96, 0, ⟨rfl, rfl, rfl, rfl, rfl⟩, rfl, by decide +kernel,
    fun n => keyOf (atPort WK B) B .load ((0x22000 + n) % 2 ^ 64), .inr (by decide +kernel), ⟨by decide, .inl rfl, readable_of (by decide +kernel)⟩,
    by decide +kernel, .inl rfl, readable_of (by decide +kernel), by decide +kernel, by decide +kernel, by decide +kernel,
    post_ok (by decide +kernel) (by decide +kernel)⟩,
  ⟨{ S with chips := [(0, { C with plate := { users := [{ num := 2, ctx := 1, key := 5 }] } })] }, 32, M, W, G, B, 0, 10, 108, 0, ⟨rfl, rfl, rfl,
    rfl, rfl⟩, rfl, by decide +kernel, ⟨by decide, .inl rfl, readable_of (by decide +kernel)⟩, writable_of (by decide +kernel),
    { num := 2, ctx := 1, key := 5 }, List.mem_cons_self, by decide +kernel⟩,
  ⟨atPort (WK) B, 32, M, WK, G, B, 0, 10, 108, 0, ⟨rfl, rfl, rfl, rfl, rfl⟩, rfl, by decide +kernel, ⟨by decide, .inl rfl,
    readable_of (by decide +kernel)⟩, writable_of (by decide +kernel), by decide +kernel⟩,
  ⟨atPort (WK) B, 32, M, WK, G, B, 0, 10, 96, 0, ⟨rfl, rfl, rfl, rfl, rfl⟩, rfl, by decide +kernel, ⟨by decide, .inl rfl,
    readable_of (by decide +kernel)⟩, writable_of (by decide +kernel)⟩⟩

/-- The machine with grid 1 in the Plate, in a state. -/
def graded (st : GState) (b : NodeState) : State :=
  { atPort W { B with st := b, lastCt := 50 } with cue := { gid := 1 }, chips := [(0, { C with plate := { grids := [(1, { gid := 1, ctx := 1, image := rec 144 [(56, 8, 0x20100)], st := st })] } })] }

theorem witness_faultsAndCompletion :
    (∃ (s : State) (b : Block), s.block? s.cue.node = some b ∧ b.open_ = true ∧ s.cue.tag = 0) ∧
    (∃ (s : State) (k : Nat) (m : Lanes) (w : Warp) (g : Gang) (b : Block) (gd : BitVec 4) (d a : Code) (j key : Nat) (leaf : DWord),
      Issuing s k m w g b ∧ lowestLane m = some j ∧ inSet (guarded w m gd) j = true ∧ a.toNat < 120 ∧ Unlogged s b [a] ∧
      w.readable (laneBit j) (a, 2) ∧ let q := guarded w m gd; w.writable q (d, 1) ∧
      Reaches s b .store 64 ((seenBy false s k m w g b).pair a j).toNat key leaf ∧ b.faults = []) ∧
    (∃ (s : State) (k : Nat) (m : Lanes) (w : Warp) (g : Gang) (b : Block) (gd : BitVec 4) (d a : Code) (j key : Nat) (leaf : DWord),
      Issuing s k m w g b ∧ lowestLane m = some j ∧ inSet (guarded w m gd) j = true ∧ a.toNat < 120 ∧ Unlogged s b [a] ∧
      w.readable (laneBit j) (a, 2) ∧ let q := guarded w m gd; w.writable q (d, 1) ∧
      Reaches s b .store 64 ((seenBy false s k m w g b).pair a j).toNat key leaf ∧ ∃ r rest, b.faults = r :: rest ∧ b.node = w.node ∧
      w.flights = [] ∧ w.fenced = false ∧ (s.chip (chipOfCore w.core)).fenced = false ∧ (b.norev = true ∨ b.staged.length + 1 ≤ b.budget)) ∧
    (∃ (s : State) (pg : PGrid), tabLook (s.chip s.cue.chip).plate.grids s.cue.gid = some pg ∧ let crec := fieldAt pg.image 56 8; pg.st = .refused ∧
      ∃ key leaf, s.resolve s.cue.chip pg.ctx crec = some (key, leaf) ∧ leafW leaf = true ∧ Memory.wf s.mem ∧ key % 128 + 32 ≤ 128 ∧
      (s.line (key / 128)).calm) ∧
    (∃ (s : State) (pg : PGrid), tabLook (s.chip s.cue.chip).plate.grids s.cue.gid = some pg ∧
      (pg.st = .waiting ∨ pg.st = .eligible ∨ pg.st = .running)) ∧
    (∃ (s : State) (pg : PGrid), tabLook (s.chip s.cue.chip).plate.grids s.cue.gid = some pg ∧ pg.st = .complete ∧ ∃ b, b ∈ tabVals s.blocks ∧
      b.gid = s.cue.gid ∧ b.st ≠ .dead ∧ b.st ≠ .committed) ∧
    (∃ (s : State) (pg : PGrid), tabLook (s.chip s.cue.chip).plate.grids s.cue.gid = some pg ∧ let crec := fieldAt pg.image 56 8;
      pg.st = .complete ∧ (∀ b, b ∈ tabVals s.blocks → b.gid = s.cue.gid → b.st ≠ .dead → b.st = .committed ∧
      b.lastCt + 25 < s.podTime s.cue.chip) ∧ 25 < s.podTime s.cue.chip ∧ s.partials = [] ∧ ∃ key leaf,
      s.resolve s.cue.chip pg.ctx crec = some (key, leaf) ∧ leafW leaf = true ∧ Memory.wf s.mem ∧ key % 128 + 32 ≤ 128 ∧
      (s.line (key / 128)).calm) ∧
    (∃ (s : State) (pg : PGrid), tabLook (s.chip s.cue.chip).plate.grids s.cue.gid = some pg ∧ let crec := fieldAt pg.image 56 8; pg.st = .faulted ∧
      s.partials = [] ∧ ∃ key leaf, s.resolve s.cue.chip pg.ctx crec = some (key, leaf) ∧ leafW leaf = true ∧ Memory.wf s.mem ∧
      key % 128 + 32 ≤ 128 ∧ (s.line (key / 128)).calm) :=
  ⟨⟨{ S with cue := { node := 1 } }, B, rfl, by decide +kernel⟩,
  ⟨S, 32, M, W, G, B, 0, 9, 96, 0, _, _, ⟨rfl, rfl, rfl, rfl, rfl⟩, rfl, by decide +kernel, by decide +kernel, .inl rfl,
    readable_of (by decide +kernel), writable_of (by decide +kernel), reaches_of (by decide +kernel), by decide +kernel⟩,
  ⟨atPort W ({ B with faults := [{}] }), 32, M, W, G, { B with faults := [{}] }, 0, 9, 96, 0, _, _, ⟨rfl, rfl, rfl, rfl, rfl⟩, rfl,
    by decide +kernel, by decide +kernel, .inl rfl, readable_of (by decide +kernel), writable_of (by decide +kernel),
    reaches_of (by decide +kernel), {}, [], rfl, by decide +kernel⟩,
  ⟨graded .refused .running, _, rfl, by decide +kernel, 0x20100, 0x20783, by decide +kernel, by decide +kernel, by decide +kernel,
    by decide +kernel, calm_of (by decide +kernel)⟩,
  ⟨graded .running .running, _, rfl, by decide +kernel⟩,
  ⟨graded .complete .running, _, rfl, by decide +kernel⟩,
  ⟨graded .complete .committed, _, rfl, by decide +kernel, by decide +kernel, by decide +kernel, by decide +kernel, 0x20100, 0x20783,
    by decide +kernel, by decide +kernel, by decide +kernel, by decide +kernel, calm_of (by decide +kernel)⟩,
  ⟨graded .faulted .committed, _, rfl, by decide +kernel, by decide +kernel, 0x20100, 0x20783, by decide +kernel, by decide +kernel,
    by decide +kernel, by decide +kernel, calm_of (by decide +kernel)⟩⟩

/-- A pod of three chips, and the three as chip 0 hears them. -/
def ev (src seq stamp : Nat) (type : Nat := 10) (l : List (Nat × Nat × Nat) := []) : Event :=
  { src := src, sinc := 1, seq := seq, stamp := stamp, type := type, ctx := 1, payload := rec 44 l }
def heardOf : SrcInfo := { inc := 1, upto := 3, beatStamp := 800, beatSeq := 3, heard := 900, horizon := 600 }
def CP : Chip := { C with plate := { chips := [(0, {}), (1, {}), (2, {})] }, src := [(0, heardOf), (1, heardOf), (2, heardOf)], events := [ev 1 3 700], permits := 60, refill := 500, lastStamp := 900, seq := 7 }
def pod (c : Chip) (q : Cue) : State := { S with chips := [(0, c), (1, { CP with num := 1 }), (2, { CP with num := 2 })], cfg := { chips := [0, 1, 2] }, cue := q }

theorem witness_eventsTravel :
    (∃ (s : State), let x := s.cue.chip; let admitted := s.cue.peer = x ∨ s.cue.tag = 0 ∨ s.dropsEvent s.cue.peer x s.cue.acc = false; ¬ admitted) ∧
    (∃ (s : State), let x := s.cue.chip; let e := s.cue.event;
      let admitted := s.cue.peer = x ∨ s.cue.tag = 0 ∨ s.dropsEvent s.cue.peer x s.cue.acc = false; admitted ∧ s.listens x e.src e.sinc = false) ∧
    (∃ (s : State), let x := s.cue.chip; let e := s.cue.event; let h := (s.hear x e.src e.sinc e.stamp).chip x;
      let admitted := s.cue.peer = x ∨ s.cue.tag = 0 ∨ s.dropsEvent s.cue.peer x s.cue.acc = false; admitted ∧ s.listens x e.src e.sinc = true ∧
      ((s.chip x).info e.src).suspect = none ∧ (h.info e.src).upto < e.seq ∧ (∀ y, y ∈ h.events → ¬ (y.src = e.src ∧ y.sinc = e.sinc ∧
      y.seq = e.seq)) ∧ (h.inPod = false ∨ h.horizon x < e.stamp)) ∧
    (∃ (s : State), let x := s.cue.chip; let e := s.cue.event; let h := (s.hear x e.src e.sinc e.stamp).chip x;
      let admitted := s.cue.peer = x ∨ s.cue.tag = 0 ∨ s.dropsEvent s.cue.peer x s.cue.acc = false; admitted ∧ s.listens x e.src e.sinc = true ∧
      e.seq ≤ (h.info e.src).upto) ∧
    (∃ (s : State), let x := s.cue.chip; let c := s.chip x; (c.fenced = true ∨ c.inPod = false)) ∧
    (∃ (s : State), let x := s.cue.chip; let c := s.chip x; let now := s.podTime x; c.fenced = false ∧ (c.power = .full ∨ c.power = .joining) ∧
      c.inPod = true ∧ now < (c.info x).beatStamp + 2000) ∧
    (∃ (s : State), let x := s.cue.chip; let c := s.chip x; let now := s.podTime x; c.fenced = false ∧ (c.power = .full ∨ c.power = .joining) ∧
      c.inPod = true ∧ (c.info x).beatStamp + 2000 ≤ now) ∧
    (∃ (s : State), let x := s.cue.chip; let b := s.cue.beat; let taken := b.src = x ∨ s.cue.tag = 0 ∨ s.dropsEvent b.src x s.cue.acc = false;
      ¬ taken) ∧
    (∃ (s : State), let x := s.cue.chip; let b := s.cue.beat; let taken := b.src = x ∨ s.cue.tag = 0 ∨ s.dropsEvent b.src x s.cue.acc = false;
      taken ∧ s.listens x b.src b.sinc = false) ∧
    (∃ (s : State), let x := s.cue.chip; let b := s.cue.beat; let i := (s.chip x).info b.src;
      let taken := b.src = x ∨ s.cue.tag = 0 ∨ s.dropsEvent b.src x s.cue.acc = false; taken ∧ s.listens x b.src b.sinc = true ∧ i.inc = b.sinc ∧
      i.beatStamp < b.stamp) ∧
    (∃ (s : State), let x := s.cue.chip; let c := s.chip x; c.evq = []) ∧
    (∃ (s : State), let x := s.cue.chip; let c := s.chip x; let now := s.podTime x; ∃ e r, c.evq = e :: r ∧ c.fenced = false ∧ c.power ≠ .off ∧
      c.permits ≠ 0 ∧ now ≤ c.lastStamp) ∧
    (∃ (s : State), let x := s.cue.chip; let c := s.chip x; let now := s.podTime x; ∃ e r, c.evq = e :: r ∧ c.fenced = false ∧ c.power ≠ .off ∧
      c.permits ≠ 0 ∧ c.lastStamp < now) ∧
    (∃ (s : State), let x := s.cue.chip; let c := s.chip x; 64 ≤ c.permits) ∧
    (∃ (s : State), let x := s.cue.chip; let c := s.chip x; let now := s.podTime x; c.permits < 64 ∧ c.refill ≤ now) ∧
    (∃ (s : State), let x := s.cue.chip; let c := s.chip x; let now := s.podTime x; c.permits < 64 ∧ now < c.refill) :=
  ⟨⟨pod CP { peer := 1, tag := 7, event := ev 1 4 950 }, by decide +kernel⟩,
  ⟨pod CP { event := { ev 1 4 950 with sinc := 9 } }, .inr (.inl rfl), by decide +kernel⟩,
  ⟨pod CP { event := ev 1 4 950 }, .inr (.inl rfl), by decide +kernel, by decide +kernel, by decide +kernel, by decide +kernel,
    .inr (by decide +kernel)⟩,
  ⟨pod CP { event := ev 1 3 700 }, .inr (.inl rfl), by decide +kernel⟩,
  ⟨pod { CP with fenced := true, power := .fenced } {}, by decide +kernel⟩,
  ⟨pod CP {}, by decide +kernel, .inl rfl, by decide +kernel⟩,
  ⟨{ pod CP {} with now := 2800 }, by decide +kernel, .inl rfl, by decide +kernel⟩,
  ⟨pod CP { tag := 7, beat := { src := 1, sinc := 1, stamp := 950 } }, by decide +kernel⟩,
  ⟨pod CP { beat := { src := 1, sinc := 2, stamp := 950 } }, .inr (.inl rfl), by decide +kernel⟩,
  ⟨pod CP { beat := { src := 1, sinc := 1, stamp := 950 } }, .inr (.inl rfl), by decide +kernel⟩,
  ⟨pod CP {}, by decide +kernel⟩,
  ⟨pod { CP with evq := [ev 0 0 0], lastStamp := 1000 } {}, ev 0 0 0, [], rfl, by decide +kernel⟩,
  ⟨pod { CP with evq := [ev 0 0 0], lastStamp := 999 } {}, ev 0 0 0, [], rfl, by decide +kernel⟩,
  ⟨pod { CP with permits := 64 } {}, by decide +kernel⟩,
  ⟨pod { CP with refill := 1000 } {}, by decide +kernel⟩,
  ⟨pod { CP with refill := 1001 } {}, by decide +kernel⟩⟩

theorem witness_silenceAndErrors :
    (∃ (s : State), let x := s.cue.chip; let c := s.chip x; let now := s.podTime x;
      let posted := fun (t : State) (f : Event → Prop) => ∃ e, (e ∈ (t.chip x).evq ∨ e ∈ (t.chip x).heldReports) ∧ f e; ∃ i, i = c.info s.cue.peer ∧
      c.fenced = false ∧ x ≠ s.cue.peer ∧ s.cue.peer ∈ c.plate.live ∧ i.posted = false ∧ now ≤ i.heard + 20000) ∧
    (∃ (s : State), let x := s.cue.chip; let c := s.chip x; let now := s.podTime x;
      let posted := fun (t : State) (f : Event → Prop) => ∃ e, (e ∈ (t.chip x).evq ∨ e ∈ (t.chip x).heldReports) ∧ f e; ∃ i, i = c.info s.cue.peer ∧
      c.fenced = false ∧ x ≠ s.cue.peer ∧ s.cue.peer ∈ c.plate.live ∧ i.posted = false ∧ i.heard + 20000 < now) ∧
    (∃ (s : State), let x := s.cue.chip; let c := s.chip x;
      let posted := fun (t : State) (f : Event → Prop) => ∃ e, (e ∈ (t.chip x).evq ∨ e ∈ (t.chip x).heldReports) ∧ f e;
      (c.info s.cue.peer).posted = true) ∧
    (∃ (s : State), let x := s.cue.chip; let c := s.chip x; let now := s.podTime x; c.fenced = false ∧ c.power ≠ .off ∧
      now < s.cue.num * s.cfg.len) ∧
    (∃ (s : State), let x := s.cue.chip; let c := s.chip x; let now := s.podTime x; c.fenced = false ∧ c.power ≠ .off ∧
      s.cue.num * s.cfg.len ≤ now) ∧
    (∃ (s : State), let x := s.cue.chip; let c := s.chip x; let now := s.podTime x; ∃ n, c.heldSince = some n ∧ c.fenced = false ∧
      c.quorum x now = true) ∧
    (∃ (s : State), let x := s.cue.chip; let c := s.chip x; let now := s.podTime x; ∃ n, c.heldSince = some n ∧ c.fenced = false ∧
      c.quorum x now = false ∧ now < n + 200000) ∧
    (∃ (s : State), let x := s.cue.chip; let c := s.chip x; let now := s.podTime x; ∃ n, c.heldSince = some n ∧ c.fenced = false ∧
      c.quorum x now = false ∧ n + 200000 ≤ now) ∧
    (∃ (s : State) (w : Warp), s.warp? s.cue.warp = some w ∧ s.cue.ok = true) ∧
    (∃ (s : State) (w : Warp), s.warp? s.cue.warp = some w ∧ s.cue.ok = false) :=
  ⟨⟨{ pod CP { peer := 1 } with now := 20900 }, heardOf, rfl, by decide +kernel⟩,
  ⟨{ pod CP { peer := 1 } with now := 20901 }, heardOf, rfl, by decide +kernel⟩,
  ⟨pod { CP with src := [(1, { heardOf with posted := true })] } { peer := 1 }, by decide +kernel⟩,
  ⟨{ pod CP { num := 1 } with now := 9999 }, by decide +kernel⟩,
  ⟨{ pod CP { num := 1 } with now := 10000 }, by decide +kernel⟩,
  ⟨pod { CP with heldSince := some 500 } {}, _, rfl, by decide +kernel⟩,
  ⟨{ pod { CP with heldSince := some 500, plate := { chips := [(1, {}), (2, {})] } } {} with now := 200499 }, _, rfl, by decide +kernel⟩,
  ⟨{ pod { CP with heldSince := some 500, plate := { chips := [(1, {}), (2, {})] } } {} with now := 200500 }, _, rfl, by decide +kernel⟩,
  ⟨{ S with cue := { warp := 32, ok := true } }, W, rfl, by decide +kernel⟩,
  ⟨{ S with cue := { warp := 32, ok := false } }, W, rfl, by decide +kernel⟩⟩

/-- A Plate with grid 1 in a state, and with its row 0 in a state on chip 1, and chip 1 in a state. -/
def PG (st : GState) : PGrid := { gid := 1, ctx := 1, image := rec 144 [(8, 4, 1), (20, 2, 2)], st := st }
def PL (st : GState) (row : RState) (chip : CState) : Plate :=
  { index := 4, chips := [(0, {}), (1, { st := chip }), (2, {})], grids := [(1, PG st)], rows := [{ gid := 1, chip := 1, st := row }] }
def E1 : Event := ev 1 4 700 1 [(0, 4, 1), (8, 4, 1)]
def delivering : State := { pod { CP with plate := PL .running .placed .live, src := [(0, { heardOf with horizon := 5000, full := 5000 }), (1, { heardOf with upto := 5, horizon := 5000, full := 5000 }), (2, { heardOf with horizon := 5000, full := 5000 })], events := [E1] } { event := E1 } with homesAt := 5 }

theorem witness_plateDelivers :
    (∃ (p : Plate) (e : Event), let f := evField e; let gid := p.base + f 20 4;
      let hit := fun (r : PRow) => r.gid = gid ∧ f 24 4 ≤ r.row ∧ r.row < f 24 4 + f 28 4 ∧ r.st = .placed ∧ r.chip = e.src; ∃ g,
      p.grid? gid = some g ∧ g.st = .running ∧ p.rows ≠ [] ∧ (∀ r, r ∈ p.rows → hit r)) ∧
    (∃ (p : Plate) (e : Event), ∃ r, r ∈ (p.trigger e).rows ∧ r.triggered = true) ∧
    (∃ (p : Plate) (e : Event), ∃ y, tabLook p.chips e.src = some y ∧ (y.st = .lost ∨ y.st = .fenced)) ∧
    (∃ (p : Plate) (e : Event), let f := evField e; (∃ y, tabLook p.chips e.src = some y ∧ y.st = .live) ∧ (∃ c y, tabLook p.chips c = some y ∧
      f 20 2 = c ∧ (y.st ≠ .live ∨ y.inc ≠ f 22 1))) ∧
    (∃ (p : Plate) (e : Event), let f := evField e; let gid := p.base + f 20 4; ∃ g, p.grid? gid = some g ∧ (g.st = .faulted ∨ g.st = .refused)) ∧
    (∃ (p : Plate) (e : Event), let f := evField e; let gid := p.base + f 20 4; ∃ g, p.grid? gid = some g ∧
      (g.st = .waiting ∨ g.st = .eligible ∨ g.st = .faulted ∨ g.st = .refused)) ∧
    (∃ (p : Plate) (e : Event), let f := evField e; let gid := p.base + f 20 4; ∃ g r c, p.row? r.gid r.row = some r ∧ p.grid? r.gid = some g ∧
      r.st = .pending ∧ p.gangOf r = none ∧ g.energy = 0 ∧ bestChip (p.chipsFor g r) = some c ∧ ∃ y, y ∈ p.chipsFor g r) ∧
    (∃ s : State, (s.chip s.cue.chip).inPod = true ∧ s.deliverable s.cue.chip ≠ some s.cue.event) ∧
    (∃ (s : State) (y : PChip), let c := s.chip s.cue.chip; let e := s.cue.event;
      let j := c.plate.judge e.stamp (fun k => s.touchedAt c.plate.chips c.plate.index k) (fun gid => s.lastProof s.cue.chip gid e.stamp);
      c.inPod = true ∧ s.deliverable s.cue.chip = some e ∧ tabLook j.chips e.src = some y ∧ y.st = .live ∧ y.inc = e.sinc ∧ c.plate.spans = [] ∧
      c.plate.index < s.homesAt ∧ c.saves = []) ∧
    (∃ s : State, let c := s.chip s.cue.chip; c.inPod = false ∧ c.fenced = false ∧ c.power = .solo ∧ ∀ d, d ∈ s.agenda → d.cue.chip = s.cue.chip →
      d.ev = deliveryOf d.cue.event → d.cue.event.src = s.cue.chip → s.cue.event.stamp ≤ d.cue.event.stamp) :=
  ⟨⟨PL .running .placed .live, E1, PG .running, rfl, by decide +kernel⟩,
  ⟨{ PL .running .placed .live with rows := [{ gid := 1, chip := 1, st := .placed, triggered := true }] }, E1,
    { gid := 1, chip := 1, st := .placed, triggered := true }, by decide +kernel⟩,
  ⟨PL .running .placed .lost, E1, { st := .lost }, rfl, .inl rfl⟩,
  ⟨PL .running .placed .live, E1, ⟨{}, rfl, by decide +kernel⟩, ⟨1, {}, rfl, by decide +kernel, .inr (by decide +kernel)⟩⟩,
  ⟨PL .faulted .placed .live, E1, PG .faulted, rfl, .inl rfl⟩,
  ⟨PL .waiting .placed .live, E1, PG .waiting, rfl, .inl rfl⟩,
  ⟨PL .running .pending .live, E1, PG .running, { gid := 1, chip := 1 }, (0, {}), rfl, rfl, by decide +kernel, by decide +kernel, by decide +kernel,
    by decide +kernel, (2, {}), by decide +kernel⟩,
  ⟨pod CP { event := ev 1 4 950 }, by decide +kernel⟩,
  ⟨delivering, {}, by decide +kernel⟩,
  ⟨{ pod { CP with inPod := false, power := .solo } { event := ev 0 4 950 } with agenda := [{ ev := .userDelivery, cue := { event := ev 0 5 951 } }] },
    by decide +kernel⟩⟩

/-- A second block of the grid, in a state, and the machine with it. -/
def B2 (st : NodeState) : Block := { B with node := 2, bid := 1, st := st, ntiles := 2 }
def tileOf (base : Nat) : InTile := { base := base, stride := 256, len := 256, tagb := 0x1000 }
def gated (base : Nat) : GridRun := { grid with tiles := 2, scratch := 8192, regs := 64, inputs := [tileOf base, tileOf 0x20400] }
def two (b : Block) (r : GridRun) : State :=
  { S with blocks := [(1, B), (2, b)], grids := [(1, r)], cue := { node := 2 }, chips := [(0, { C with saves := [(1, 0x40000, 100000)] })], issuing := none }
def leftB (b : Block) : State := { two b (gated 0x20000) with warps := [(64, { W with node := 2, resident := false })] }
def reporting (done : Bool) (l : List (Nat × Nat × Nat × Nat)) : State :=
  { two { B2 .running with finished := done } grid with cue := { gid := 1 }, chips := [(0, { C with plate := { grids := [(1, PG .running)], rows := [{ gid := 1, first := 1, count := 1, st := .placed }] }, reported := l })] }

theorem witness_blocksRun :
    (∃ (s : State), let chip := s.cue.chip; s.firstQueued chip = none) ∧
    (∃ (s : State), let chip := s.cue.chip; ∃ b g, s.firstQueued chip = some b ∧ s.block? b.node = some b ∧ s.grid? b.gid = some g ∧
      (s.chip chip).fenced = false ∧ (s.chip chip).tskew = true) ∧
    (∃ (s : State), let chip := s.cue.chip; ∃ b g, s.firstQueued chip = some b ∧ s.block? b.node = some b ∧ s.grid? b.gid = some g ∧
      (s.chip chip).fenced = false ∧ (s.chip chip).tskew = false ∧ s.coverable chip (s.demand b) = false) ∧
    (∃ (s : State), let chip := s.cue.chip; ∃ b g, s.firstQueued chip = some b ∧ s.block? b.node = some b ∧ s.grid? b.gid = some g ∧
      (s.chip chip).fenced = false ∧ (s.chip chip).tskew = false ∧ s.coverable chip (s.demand b) = true ∧ s.placeAll (s.together b) = none) ∧
    (∃ (s : State), let chip := s.cue.chip; ∃ b g, s.firstQueued chip = some b ∧ s.block? b.node = some b ∧ s.grid? b.gid = some g ∧
      (s.chip chip).fenced = false ∧ ∃ core c, (s.chip chip).tskew = false ∧ s.coverable chip (s.demand b) = true ∧ s.together b = [b] ∧
      s.bestCore b.chip (s.demand b) = some (core, c)) ∧
    (∃ (s : State) (b : Block), s.block? s.cue.node = some b ∧ b.st ≠ .gated) ∧
    (∃ (s : State) (b : Block), s.block? s.cue.node = some b ∧ let l := ((s.grid? b.gid).map GridRun.inputs).getD []; b.st = .gated ∧
      l.length ≤ b.gate.length ∧ (∀ x, x ∈ b.gate → x.done = true)) ∧
    (∃ (s : State) (b : Block), s.block? s.cue.node = some b ∧ let l := ((s.grid? b.gid).map GridRun.inputs).getD []; b.st = .gated ∧ ∃ x i e,
      s.gateNext b l = .fill x i e) ∧
    (∃ (s : State) (b : Block), s.block? s.cue.node = some b ∧ let l := ((s.grid? b.gid).map GridRun.inputs).getD []; b.st = .gated ∧ ∃ i p,
      s.gateNext b l = .fault i p) ∧
    (∃ (s : State) (w : Warp) (b : Block), s.warp? s.cue.warp = some w ∧ s.block? w.node = some b ∧ (w.resident = false ∨ w.live = 0)) ∧
    (∃ (s : State) (w : Warp) (b : Block), s.warp? s.cue.warp = some w ∧ s.block? w.node = some b ∧
      let ready := w.resident = true ∧ w.live ≠ 0 ∧ b.st = .running;
      let quiet := w.atSwitch = true ∧ ∀ o, o ∈ w.ops → o.cls ≠ .copy ∧ o.cls ≠ .gath; ready ∧ ¬ quiet) ∧
    (∃ (s : State) (w : Warp) (b : Block), s.warp? s.cue.warp = some w ∧ s.block? w.node = some b ∧
      let ready := w.resident = true ∧ w.live ≠ 0 ∧ b.st = .running;
      let quiet := w.atSwitch = true ∧ ∀ o, o ∈ w.ops → o.cls ≠ .copy ∧ o.cls ≠ .gath; ready ∧ quiet ∧
      s.saveRoom b.chip b.ctx [w.rows.length] = false) ∧
    (∃ (s : State) (w : Warp) (b : Block), s.warp? s.cue.warp = some w ∧ s.block? w.node = some b ∧
      let ready := w.resident = true ∧ w.live ≠ 0 ∧ b.st = .running;
      let quiet := w.atSwitch = true ∧ ∀ o, o ∈ w.ops → o.cls ≠ .copy ∧ o.cls ≠ .gath; ready ∧ quiet ∧
      s.saveRoom b.chip b.ctx [w.rows.length] = true) ∧
    (∃ (s : State) (b : Block), s.block? s.cue.node = some b ∧ b.node = s.cue.node ∧ b.st ≠ .running ∧ b.st ≠ .saved) ∧
    (∃ (s : State) (b : Block), s.block? s.cue.node = some b ∧ b.node = s.cue.node ∧ b.st = .running ∧ s.images b.node = []) ∧
    (∃ (s : State) (b : Block), s.block? s.cue.node = some b ∧ b.node = s.cue.node ∧ b.st = .running ∧ (b.leaving = true ∨ s.heldOff b = true) ∧
      s.images b.node ≠ []) ∧
    (∃ (s : State) (b : Block), s.block? s.cue.node = some b ∧ b.node = s.cue.node ∧ ∃ c k w, b.st = .running ∧ b.leaving = false ∧
      s.heldOff b = false ∧ s.fitsOn b.core (s.demand b) = some c ∧ (k, w) ∈ s.images b.node ∧ tabSorted s.warps = true) ∧
    (∃ (s : State) (b : Block), s.block? s.cue.node = some b ∧ b.node = s.cue.node ∧ b.st = .saved ∧ b.leaving = false ∧
      (s.chip b.chip).fenced = false ∧ s.coverable b.chip (s.demand b) = false) ∧
    (∃ (s : State) (b : Block), s.block? s.cue.node = some b ∧ b.node = s.cue.node ∧ ∃ core c, b.st = .saved ∧ b.leaving = false ∧
      (s.chip b.chip).fenced = false ∧ s.coverable b.chip (s.demand b) = true ∧ s.heldOff b = false ∧ s.matesLeaving b = false ∧
      s.together b = [b] ∧ s.bestCore b.chip (s.demand b) = some (core, c)) ∧
    (∃ (s : State) (r : PRow), let c := s.cue; let chip := s.chip c.chip; chip.plate.row? c.gid c.row = some r) ∧
    (∃ (s : State) (r : PRow), (s.chip s.cue.chip).plate.row? s.cue.gid s.cue.row = some r ∧
      (r.st ≠ .placed ∨ r.chip ≠ s.cue.chip ∨ (s.chip s.cue.chip).reported.contains (1, s.cue.gid, s.cue.row, r.gen) = true)) ∧
    (∃ (s : State) (r : PRow), (s.chip s.cue.chip).plate.row? s.cue.gid s.cue.row = some r ∧ ∃ bid, bid ∈ (s.chip s.cue.chip).plate.blocksOf r ∧
      ∀ b, s.nodeOf s.cue.gid bid = some b → b.finished = false) ∧
    (∃ (s : State) (r : PRow), (s.chip s.cue.chip).plate.row? s.cue.gid s.cue.row = some r ∧ r.st = .placed ∧ r.chip = s.cue.chip ∧
      (s.chip s.cue.chip).reported.contains (1, s.cue.gid, s.cue.row, r.gen) = false ∧ ∀ bid, bid ∈ (s.chip s.cue.chip).plate.blocksOf r → ∃ b,
      s.nodeOf s.cue.gid bid = some b ∧ b.chip = s.cue.chip ∧ b.finished = true) :=
  ⟨⟨S, by decide +kernel⟩,
  ⟨{ two (B2 .queued) (gated 0x20000) with chips := [(0, { C with tskew := true })] }, B2 .queued, gated 0x20000, rfl, rfl, rfl, by decide +kernel⟩,
  ⟨two (B2 .queued) { gated 0x20000 with scratch := 0x100000 }, B2 .queued, { gated 0x20000 with scratch := 0x100000 }, rfl, rfl, rfl,
    by decide +kernel⟩,
  ⟨{ two (B2 .queued) { gated 0x20000 with scratch := 0x80000 } with cores := [(0, { kib := 1024, pieces := [{ owner := 7, order := 7 }] })] },
    B2 .queued, { gated 0x20000 with scratch := 0x80000 }, rfl, rfl, rfl, by decide +kernel⟩,
  ⟨{ two (B2 .queued) { gated 0x20000 with scratch := 0x80000 } with cores := [(0, { kib := 1024 })] }, B2 .queued,
    { gated 0x20000 with scratch := 0x80000 }, rfl, rfl, rfl, by decide +kernel, _, _, by decide +kernel, by decide +kernel, by decide +kernel,
    pair_some (0, {}) (by decide +kernel)⟩,
  ⟨two (B2 .running) (gated 0x20000), B2 .running, rfl, by decide +kernel⟩,
  ⟨two { B2 .gated with gate := [{ done := true }, { idx := 1, done := true }] } (gated 0x20000),
    { B2 .gated with gate := [{ done := true }, { idx := 1, done := true }] }, rfl, by decide +kernel⟩,
  ⟨two (B2 .gated) (gated 0x20000), B2 .gated, rfl, by decide +kernel, tileOf 0x20000, 0, 136, fill_of (by decide +kernel)⟩,
  ⟨two (B2 .gated) (gated 0x70000), B2 .gated, rfl, by decide +kernel, 0, 0x70100, gate_fault_of (by decide +kernel)⟩,
  ⟨{ S with cue := { warp := 32 }, warps := [(32, { W with resident := false })] }, { W with resident := false }, B, rfl, rfl, .inl rfl⟩,
  ⟨{ S with cue := { warp := 32 }, warps := [(32, { W with ops := [{ cls := .copy, left := 1 }] })] },
    { W with ops := [{ cls := .copy, left := 1 }] }, B, rfl, rfl, by decide +kernel⟩,
  ⟨{ S with cue := { warp := 32 } }, W, B, rfl, rfl, by decide +kernel⟩,
  ⟨{ S with cue := { warp := 32 }, chips := [(0, { C with saves := [(1, 0x40000, 100000)] })] }, W, B, rfl, rfl, by decide +kernel⟩,
  ⟨two (B2 .queued) (gated 0x20000), B2 .queued, rfl, by decide +kernel, by decide, by decide +kernel⟩,
  ⟨two (B2 .running) (gated 0x20000), B2 .running, rfl, by decide +kernel⟩,
  ⟨leftB { B2 .running with leaving := true }, { B2 .running with leaving := true }, rfl, by decide +kernel, by decide +kernel, .inl rfl,
    by decide +kernel⟩,
  ⟨leftB (B2 .running), B2 .running, rfl, by decide +kernel, _, 64, { W with node := 2, resident := false }, by decide +kernel, by decide +kernel,
    by decide +kernel, some_getD (x := {}) (by decide +kernel), List.mem_filter.2 ⟨.head _, by decide +kernel⟩, by decide +kernel⟩,
  ⟨leftB { B2 .saved with scratchSize := 0x100000 }, { B2 .saved with scratchSize := 0x100000 }, rfl, by decide +kernel⟩,
  ⟨{ leftB { B2 .saved with scratchSize := 0x80000 } with cores := [(0, { kib := 1024 })] }, { B2 .saved with scratchSize := 0x80000 }, rfl,
    by decide +kernel, _, _, by decide +kernel, by decide +kernel, by decide +kernel, by decide +kernel, by decide +kernel, by decide +kernel,
    by decide +kernel, pair_some (0, {}) (by decide +kernel)⟩,
  ⟨reporting true [], { gid := 1, first := 1, count := 1, st := .placed }, rfl⟩,
  ⟨reporting true [(1, 1, 0, 0)], { gid := 1, first := 1, count := 1, st := .placed }, rfl, by decide +kernel⟩,
  ⟨reporting false [], { gid := 1, first := 1, count := 1, st := .placed }, rfl, 1, by decide +kernel, the_one (x := B2 .running) rfl rfl⟩,
  ⟨reporting true [], { gid := 1, first := 1, count := 1, st := .placed }, rfl, rfl, rfl, rfl, fun _ h => ⟨{ B2 .running with finished := true },
    by cases h with | head => exact ⟨rfl, rfl, rfl⟩ | tail _ h => cases h⟩⟩⟩

/-- Two chips side by side, an end of the link between them, and a flit that comes in. -/
def linked (l : Link) (c : Chip) (q : Cue) : State :=
  { S with chips := [(0, { c with links := [(0, l)] }), (1, { C with num := 1, pos := 1, links := [(0, { st := .up })] })], cfg := { chips := [0, 1] }, cue := q }
def UP : Link := { st := .up, retry := [flit 0x400] }
def KEYED : Link := { UP with rx := { slot0 := some {} } }
def sending (p : Packet) (now : Nat) : State := { linked UP { C with packets := [p] } { tag := 3 } with now := now }
def pkt : Packet := { tag := 3, dst := 1, sent := 900, cue := { tag := 3, acc := { warp := 32, op := 6 } } }
/-- The same of an operation of bulk. -/
def blk : Packet := { pkt with ev := .blockWrite }
def bulky (p : Packet) : State :=
  { sending p 1000 with warps := [(32, { W with ops := [{ id := 6, bulk := 1 }] })], agenda := [{ wait := 5000, ev := .blockWrite, cue := { tag := 3 } }] }

theorem witness_linksCarry :
    (∃ (s : State), let x := s.cue.chip; let e := s.cue.link; let l := s.linkOf x e; (l.st ≠ .up ∨ linkOk e = false ∨ (s.chip x).power = .off) ∧
      ∃ i, i ∈ [Instr.dataFlit, .idleFlit, .acknowledgeFlit, .negativeAcknowledgeFlit, .laneMapFlit, .keyMarkerFlit, .timeFlit]) ∧
    (∃ (s : State), let x := s.cue.chip; let e := s.cue.link; let l := s.linkOf x e; l.st = .up ∧ linkOk e = true ∧ (s.chip x).power ≠ .off ∧ ∃ l',
      l.check s.cue.flit = (l', none) ∧ ∃ i,
      i ∈ [Instr.dataFlit, .idleFlit, .acknowledgeFlit, .negativeAcknowledgeFlit, .laneMapFlit, .keyMarkerFlit, .timeFlit]) ∧
    (∃ (s : State), let x := s.cue.chip; let e := s.cue.link; let l := s.linkOf x e; l.st = .up ∧ linkOk e = true ∧ (s.chip x).power ≠ .off ∧
      ∃ l' f, l.check s.cue.flit = (l', some f) ∧ flitType f = 0 ∧ flitSeq f = l'.expect) ∧
    (∃ (s : State), let x := s.cue.chip; let e := s.cue.link; let l := s.linkOf x e; l.st = .up ∧ linkOk e = true ∧ (s.chip x).power ≠ .off ∧
      ∃ l' f, l.check s.cue.flit = (l', some f) ∧ flitType f = 0 ∧ flitSeq f ≠ l'.expect) ∧
    (∃ (s : State), let x := s.cue.chip; let e := s.cue.link; let l := s.linkOf x e; l.st = .up ∧ linkOk e = true ∧ (s.chip x).power ≠ .off ∧
      ∃ l' f, l.check s.cue.flit = (l', some f) ∧ flitType f = 1) ∧
    (∃ (s : State), let x := s.cue.chip; let e := s.cue.link; let l := s.linkOf x e; l.st = .up ∧ linkOk e = true ∧ (s.chip x).power ≠ .off ∧
      ∃ l' f, l.check s.cue.flit = (l', some f) ∧ flitType f = 2 ∧ (∃ y, y ∈ l'.retry ∧ flitSeq y = flitSeq f) ∧ l'.queue = []) ∧
    (∃ (s : State), let x := s.cue.chip; let e := s.cue.link; let l := s.linkOf x e; l.st = .up ∧ linkOk e = true ∧ (s.chip x).power ≠ .off ∧
      ∃ l' f, l.check s.cue.flit = (l', some f) ∧ flitType f = 3 ∧ fromSeq (flitSeq f) l'.retry ≠ [] ∧ l'.fails < 8) ∧
    (∃ (s : State), let x := s.cue.chip; let e := s.cue.link; let l := s.linkOf x e; l.st = .up ∧ linkOk e = true ∧ (s.chip x).power ≠ .off ∧
      ∃ l' f, l.check s.cue.flit = (l', some f) ∧ flitType f = 3 ∧ fromSeq (flitSeq f) l'.retry ≠ [] ∧ 8 ≤ l'.fails) ∧
    (∃ (s : State), let x := s.cue.chip; let e := s.cue.link; let l := s.linkOf x e; l.st = .up ∧ linkOk e = true ∧ (s.chip x).power ≠ .off ∧
      ∃ l' f, l.check s.cue.flit = (l', some f) ∧ flitType f = 4 ∧ flitSeq f = l'.expect) ∧
    (∃ (s : State), let x := s.cue.chip; let e := s.cue.link; let l := s.linkOf x e; l.st = .up ∧ linkOk e = true ∧ (s.chip x).power ≠ .off ∧
      ∃ l' f, l.check s.cue.flit = (l', some f) ∧ flitType f = 5 ∧ flitSeq f = l'.expect) ∧
    (∃ (s : State), let x := s.cue.chip; let e := s.cue.link; let l := s.linkOf x e; let kept := l.lanesTo e;
      let room := l.retry.length < 4096 ∧ l.queue = []; linkOk e = true ∧ s.cue.unit ∈ kept ∧
      (kept.filter (fun n => decide (n ≠ s.cue.unit)) ≠ []) ∧ l.lanes ≠ [] ∧ kept.Nodup ∧ room) ∧
    (∃ (s : State), let x := s.cue.chip; let e := s.cue.link; let l := s.linkOf x e; let kept := l.lanesTo e; linkOk e = true ∧ s.cue.unit ∈ kept ∧
      kept.filter (fun n => decide (n ≠ s.cue.unit)) = []) ∧
    (∃ (s : State), let x := s.cue.chip; let e := s.cue.link; let l := s.linkOf x e; let kept := l.lanesTo e;
      let room := l.retry.length < 4096 ∧ l.queue = []; s.cue.unit ∉ kept ∧ (linkOk e = true ∧ s.cue.unit < laneCount e ∧ s.cue.unit ∉ kept ∧
      l.lanes ≠ [] ∧ room)) ∧
    (∃ (s : State), let x := s.cue.chip; let e := s.cue.link; let l := s.linkOf x e; let kept := l.lanesTo e; linkOk e = true ∧
      s.cue.unit < laneCount e ∧ s.cue.unit ∉ kept ∧ l.lanes = []) ∧
    (∃ (s : State), let x := s.cue.chip; let e := s.cue.link; let l := s.linkOf x e; let kept := l.lanesTo e; s.cue.unit ∈ kept) ∧
    (∃ (s : State), let x := s.cue.chip; let e := s.cue.link; let l := s.linkOf x e; let room := l.retry.length < 4096 ∧ l.queue = [];
      linkOk e = true ∧ l.tx.switch = none ∧ l.tx.old = false ∧ (l.tx.slot (1 - l.tx.cur)).isSome = true ∧ room) ∧
    (∃ (s : State), let x := s.cue.chip; let e := s.cue.link; let l := s.linkOf x e; l.tx.slot (1 - l.tx.cur) = none) ∧
    (∃ (s : State), let x := s.cue.chip; let e := s.cue.link; linkOk e = true ∧ s.peerOf x e = none) ∧
    (∃ (s : State), let x := s.cue.chip; let e := s.cue.link; ∃ y k, linkOk e = true ∧ s.peerOf x e = some (y, k) ∧ (y, k) ≠ (x, e) ∧
      s.cue.ok = false) ∧
    (∃ (s : State), let x := s.cue.chip; let e := s.cue.link; let l := s.linkOf x e; ∃ y k, linkOk e = true ∧ s.peerOf x e = some (y, k) ∧
      (y, k) ≠ (x, e) ∧ s.cue.ok = true ∧ l.lanes ≠ [] ∧ (s.linkOf y k).lanes ≠ []) ∧
    (∃ (s : State), let x := s.cue.chip; let c := s.chip x; let tag := s.cue.tag;
      let heard := s.cue.peer = x ∨ tag = 0 ∨ s.drops s.cue.peer x s.cue.acc = false; c.packet? tag = none ∧ (∃ i,
      i ∈ [Instr.packetResend, .reservationWindow]) ∧ (heard ∧ ∃ i, i ∈ [Instr.dropNotice, .reservationGrant])) ∧
    (∃ (s : State), let x := s.cue.chip; let tag := s.cue.tag; let heard := s.cue.peer = x ∨ tag = 0 ∨ s.drops s.cue.peer x s.cue.acc = false;
      ¬ heard ∧ ∃ i, i ∈ [Instr.dropNotice, .reservationGrant, .reservationRequest]) ∧
    (∃ (s : State), let x := s.cue.chip; let c := s.chip x; let tag := s.cue.tag; ∃ p, c.packet? tag = some p ∧ c.fenced = false ∧ p.node ≠ 0 ∧
      s.gone p.node = true) ∧
    (∃ (s : State), let x := s.cue.chip; let c := s.chip x; let now := s.podTime x; let tag := s.cue.tag; ∃ p, c.packet? tag = some p ∧
      c.fenced = false ∧ (p.node = 0 ∨ s.gone p.node = false) ∧ (now < p.sent + 50000 ∨ (p.taken = true ∧ p.answers = []))) ∧
    (∃ (s : State), let x := s.cue.chip; let c := s.chip x; let now := s.podTime x; let tag := s.cue.tag; ∃ p, c.packet? tag = some p ∧
      c.fenced = false ∧ (p.node = 0 ∨ s.gone p.node = false) ∧ p.sent + 50000 ≤ now ∧ p.taken = false ∧ p.resends < 3) ∧
    (∃ (s : State), let x := s.cue.chip; let c := s.chip x; let now := s.podTime x; let tag := s.cue.tag; ∃ p, c.packet? tag = some p ∧
      c.fenced = false ∧ (p.node = 0 ∨ s.gone p.node = false) ∧ p.sent + 50000 ≤ now ∧ p.taken = false ∧ 3 ≤ p.resends ∧ tag ≤ s.fresh) ∧
    (∃ (s : State), let x := s.cue.chip; let c := s.chip x; let tag := s.cue.tag;
      let heard := s.cue.peer = x ∨ tag = 0 ∨ s.drops s.cue.peer x s.cue.acc = false; ∃ p, c.packet? tag = some p ∧ heard ∧
      (s.bulk p.ev p.cue = false ∨ (∀ d, d ∈ s.agenda → d.cue.tag = tag → d.ev ≠ p.ev) ∨ p.waits = true ∨ p.window.isSome = true)) ∧
    (∃ (s : State), let x := s.cue.chip; let c := s.chip x; let tag := s.cue.tag;
      let heard := s.cue.peer = x ∨ tag = 0 ∨ s.drops s.cue.peer x s.cue.acc = false; ∃ p, c.packet? tag = some p ∧ heard ∧
      s.bulk p.ev p.cue = true ∧ (∃ d, d ∈ s.agenda ∧ d.cue.tag = tag ∧ d.ev = p.ev) ∧ p.waits = false ∧ p.window = none ∧ (∀ q, q ∈ s.bulkOf x p →
      q.waits = false)) ∧
    (∃ (s : State), let x := s.cue.chip; let c := s.chip x; let now := s.podTime x; let tag := s.cue.tag; ∃ p, c.packet? tag = some p ∧ ∃ a b,
      p.window = some (a, b) ∧ now < a) ∧
    (∃ (s : State), let x := s.cue.chip; let c := s.chip x; let now := s.podTime x; let tag := s.cue.tag; ∃ p, c.packet? tag = some p ∧ ∃ a b,
      p.window = some (a, b) ∧ a ≤ now ∧ 1048576 < p.left) ∧
    (∃ (s : State), let x := s.cue.chip; let c := s.chip x; let now := s.podTime x; let tag := s.cue.tag; ∃ p, c.packet? tag = some p ∧ ∃ a b,
      p.window = some (a, b) ∧ a ≤ now ∧ p.left ≤ 1048576 ∧ s.underWay tag = false ∧ p.taken = false ∧ p.cue.tag = tag) ∧
    (∃ (s : State), let x := s.cue.chip; let tag := s.cue.tag; let heard := s.cue.peer = x ∨ tag = 0 ∨ s.drops s.cue.peer x s.cue.acc = false;
      heard) :=
  ⟨⟨linked {} C {}, .inl (by decide +kernel), .dataFlit, List.mem_cons_self⟩,
  ⟨linked KEYED C { flit := flit 0x1000000 }, by decide +kernel, rfl, by decide +kernel, { UP with rx := KEYED.rx.counted 0, authFails := 1 },
    flit_refused (by decide) rfl (by decide) rfl, .dataFlit, List.mem_cons_self⟩,
  ⟨linked UP C { flit := flit 0x0 }, by decide +kernel, rfl, by decide +kernel, UP, flit 0x0, flit_checked (by decide) rfl,
    flit_type (by decide) rfl, flit_seq (by decide) rfl⟩,
  ⟨linked UP C { flit := flit 0x100 }, by decide +kernel, rfl, by decide +kernel, UP, flit 0x100, flit_checked (by decide) rfl,
    flit_type (by decide) rfl, fun h => absurd ((flit_seq (n := 1) (by decide) rfl).symm.trans h) (by decide)⟩,
  ⟨linked UP C { flit := flit 0x101 }, by decide +kernel, rfl, by decide +kernel, UP, flit 0x101, flit_checked (by decide) rfl,
    flit_type (by decide) rfl⟩,
  ⟨linked UP C { flit := flit 0x402 }, by decide +kernel, rfl, by decide +kernel, UP, flit 0x402, flit_checked (by decide) rfl,
    flit_type (by decide) rfl, ⟨flit 0x400, .head _, (flit_seq (n := 4) (by decide) rfl).trans (flit_seq (h := 0x402) (by decide) rfl).symm⟩,
    by decide +kernel⟩,
  ⟨linked UP C { flit := flit 0x403 }, by decide +kernel, rfl, by decide +kernel, UP, flit 0x403, flit_checked (by decide) rfl,
    flit_type (by decide) rfl, fromSeq_ne ((flit_seq (n := 4) (by decide) rfl).trans (flit_seq (h := 0x403) (by decide) rfl).symm),
    by decide +kernel⟩,
  ⟨linked { UP with fails := 8 } C { flit := flit 0x403 }, by decide +kernel, rfl, by decide +kernel, { UP with fails := 8 }, flit 0x403,
    flit_checked (by decide) rfl, flit_type (by decide) rfl,
    fromSeq_ne ((flit_seq (n := 4) (by decide) rfl).trans (flit_seq (h := 0x403) (by decide) rfl).symm), by decide +kernel⟩,
  ⟨linked UP C { flit := flit 0x4 }, by decide +kernel, rfl, by decide +kernel, UP, flit 0x4, flit_checked (by decide) rfl,
    flit_type (by decide) rfl, flit_seq (by decide) rfl⟩,
  ⟨linked UP C { flit := flit 0x5 }, by decide +kernel, rfl, by decide +kernel, UP, flit 0x5, flit_checked (by decide) rfl,
    flit_type (by decide) rfl, flit_seq (by decide) rfl⟩,
  ⟨linked { UP with lanes := [0, 1] } C {}, rfl, by decide +kernel⟩,
  ⟨linked { UP with lanes := [0] } C {}, rfl, by decide +kernel⟩,
  ⟨linked { UP with lanes := [0] } C { unit := 1 }, by decide +kernel, ⟨rfl, by decide +kernel⟩⟩,
  ⟨linked { UP with lanes := [] } C { unit := 1 }, rfl, by decide +kernel⟩,
  ⟨linked { UP with lanes := [0] } C {}, by decide +kernel⟩,
  ⟨linked { UP with tx := { slot1 := some {} } } C {}, rfl, by decide +kernel⟩,
  ⟨linked UP C {}, by decide +kernel⟩,
  ⟨linked UP { C with num := 7, group := 9 } { link := 30 }, rfl, by decide +kernel⟩,
  ⟨linked { UP with lanes := [0] } C { ok := false }, 1, 30, rfl, rfl, by decide +kernel⟩,
  ⟨linked { UP with lanes := [0] } C {}, 1, 30, rfl, rfl, by decide +kernel⟩,
  ⟨linked UP C { tag := 3 }, by decide +kernel, ⟨.packetResend, by decide +kernel⟩, ⟨by decide +kernel, .dropNotice, by decide +kernel⟩⟩,
  ⟨linked UP C { tag := 3, peer := 1 }, by decide +kernel, .dropNotice, by decide +kernel⟩,
  ⟨sending { pkt with node := 9 } 1000, { pkt with node := 9 }, rfl, by decide +kernel⟩,
  ⟨sending pkt 50899, _, rfl, by decide +kernel⟩,
  ⟨sending pkt 50900, _, rfl, by decide +kernel⟩,
  ⟨sending { pkt with resends := 3 } 50900, { pkt with resends := 3 }, rfl, by decide +kernel⟩,
  ⟨sending pkt 1000, _, rfl, by decide +kernel⟩,
  ⟨bulky blk, blk, rfl, by decide +kernel⟩,
  ⟨sending { pkt with window := some (1001, 10) } 1000, { pkt with window := some (1001, 10) }, rfl, 1001, 10, rfl, by decide +kernel⟩,
  ⟨sending { pkt with left := 1048577, window := some (1000, 10) } 1000, { pkt with left := 1048577, window := some (1000, 10) }, rfl, 1000, 10,
    rfl, by decide +kernel⟩,
  ⟨sending { pkt with left := 1048576, window := some (1000, 10) } 1000, { pkt with left := 1048576, window := some (1000, 10) }, rfl, 1000, 10,
    rfl, by decide +kernel⟩,
  ⟨linked UP C { tag := 3 }, by decide +kernel⟩⟩

/-- A chip that joins, and a pod with one other chip. -/
def C2 : Chip := { C with plate := { chips := [(0, {}), (1, {})] } }
def JC : Chip := { C with power := .joining, inPod := false, plate := { chips := [(0, {})] }, links := [(0, { st := .up })] }
def pair (c d : Chip) (q : Cue) : State := { S with chips := [(0, c), (1, { d with num := 1, pos := 1 })], cfg := { chips := [0, 1] }, cue := q }
def snapped : Chip := { JC with snap := some { plate := { chips := [(0, { st := .lost, inc := 255, since := 200 }), (1, {})] } } }

theorem witness_timeAndService :
    (∃ (s : State), let x := s.cue.chip; let c := s.chip x; (c.power ≠ .off ∨ c.fwOk = false ∨ c.repaired = false)) ∧
    (∃ (s : State), let x := s.cue.chip; let c := s.chip x; c.power = .off ∧ c.fwOk = true ∧ c.repaired = true) ∧
    (∃ (s : State), let x := s.cue.chip; let c := s.chip x; (c.inPod = true ∨ x ∉ s.cfg.chips)) ∧
    (∃ (s : State), let x := s.cue.chip; let c := s.chip x; (c.power = .solo ∨ c.power = .joining) ∧ c.inPod = false ∧ x ∈ s.cfg.chips ∧ ∃ g,
      g ∈ c.plate.grids ∧ g.2.st.isOver = false) ∧
    (∃ (s : State), let x := s.cue.chip; let c := s.chip x; (c.power = .solo ∨ c.power = .joining) ∧ c.inPod = false ∧ x ∈ s.cfg.chips ∧
      (∀ g, g ∈ c.plate.grids → g.2.st.isOver = true) ∧ c.evq = [] ∧ (∀ d, d ∈ s.agenda → d.cue.chip = x → d.ev ≠ .completionRecordWrite ∧
      d.ev ≠ .submitDelivery) ∧ ∃ y, y ∈ s.chips ∧ y.1 ≠ x ∧ y.2.inPod = true ∧ y.2.fenced = false ∧ y.2.power = .full) ∧
    (∃ (s : State), let x := s.cue.chip; let c := s.chip x; (c.power = .solo ∨ c.power = .joining) ∧ c.inPod = false ∧ x ∈ s.cfg.chips ∧
      (∀ g, g ∈ c.plate.grids → g.2.st.isOver = true) ∧ c.evq = [] ∧ (∀ d, d ∈ s.agenda → d.cue.chip = x → d.ev ≠ .completionRecordWrite ∧
      d.ev ≠ .submitDelivery) ∧ (∀ y, y ∈ s.chips → y.1 ≠ x → y.2.inPod = false ∨ y.2.fenced = true ∨ y.2.power ≠ .full)) ∧
    (∃ (s : State), let x := s.cue.chip; let c := s.chip x; c.power = .joining ∧ c.inPod = true ∧ x ∈ c.plate.live ∧
      let near := (∀ e, e ∈ s.setNeighbours x → ((tabLook c.nbr e).map fun n => decide (n.natAbs < 4)) = some true) ∧ inStep (tabPut s.chips x { c with power := .full }) x = true;
      (c.timeSet = false ∨ ¬ near)) ∧
    (∃ (s : State), let x := s.cue.chip; let c := s.chip x; c.power = .joining ∧ c.inPod = true ∧ x ∈ c.plate.live ∧
      let near := (∀ e, e ∈ s.setNeighbours x → ((tabLook c.nbr e).map fun n => decide (n.natAbs < 4)) = some true) ∧ inStep (tabPut s.chips x { c with power := .full }) x = true;
      c.timeSet = true ∧ near) ∧
    (∃ (s : State), let x := s.cue.chip; let c := s.chip x; (c.fenced = false ∧ c.power = .full ∧ c.inPod = true) ∧ c.snap = none) ∧
    (∃ (s : State), let x := s.cue.chip; let c := s.chip x; ∃ y, c.snap = some y ∧ c.power = .joining ∧ c.inPod = false ∧
      let me := tabLook y.plate.chips x; let lost := ((s.chip s.cue.peer).info x).lostAt + 64000;
      (s.podTime s.cue.peer < lost ∨ me.map PChip.st = some .live)) ∧
    (∃ (s : State), let x := s.cue.chip; let c := s.chip x; ∃ y, c.snap = some y ∧ c.power = .joining ∧ c.inPod = false ∧
      let me := tabLook y.plate.chips x; let lost := ((s.chip s.cue.peer).info x).lostAt + 64000; lost ≤ s.podTime s.cue.peer ∧
      me.map PChip.st ≠ some .live) ∧
    (∃ (s : State), let x := s.cue.chip; let e := s.cue.link; let c := s.chip x; ∃ l' f, (s.linkOf x e).st = .up ∧ linkOk e = true ∧
      c.power ≠ .off ∧ (s.linkOf x e).check s.cue.flit = (l', some f) ∧ flitType f = 6 ∧ (c.inPod = false ∨ (flitBody f).getD 8 0 = 0)) ∧
    (∃ (s : State), let x := s.cue.chip; let e := s.cue.link; let c := s.chip x; ∃ l' f, (s.linkOf x e).st = .up ∧ linkOk e = true ∧
      c.power ≠ .off ∧ (s.linkOf x e).check s.cue.flit = (l', some f) ∧ flitType f = 6 ∧ c.inPod = true ∧ (flitBody f).getD 8 0 ≠ 0 ∧
      c.timeSet = false) ∧
    (∃ (s : State), let x := s.cue.chip; let e := s.cue.link; let c := s.chip x; ∃ l' f, (s.linkOf x e).st = .up ∧ linkOk e = true ∧
      c.power ≠ .off ∧ (s.linkOf x e).check s.cue.flit = (l', some f) ∧ flitType f = 6 ∧ c.inPod = true ∧ (flitBody f).getD 8 0 ≠ 0 ∧
      c.timeSet = true) ∧
    (∃ (s : State), let x := s.cue.chip; let c := s.chip x; let now := s.podTime x; c.power ≠ .off ∧ (∀ d, d ∈ s.agenda → ¬ (d.ev = .timeFlitSend ∧
      d.cue.chip = x)) ∧ now < s.cue.ct) ∧
    (∃ (s : State), let x := s.cue.chip; let c := s.chip x; let now := s.podTime x; c.power ≠ .off ∧ (∀ d, d ∈ s.agenda → ¬ (d.ev = .timeFlitSend ∧
      d.cue.chip = x)) ∧ s.cue.ct ≤ now) ∧
    (∃ (s : State), let x := s.cue.chip; let c := s.chip x; c.skewSince = none) ∧
    (∃ (s : State), let x := s.cue.chip; let c := s.chip x; let now := s.podTime x; ∃ n, c.skewSince = some n ∧ c.fenced = false ∧
      now < n + 1000000) ∧
    (∃ (s : State), let x := s.cue.chip; let c := s.chip x; let now := s.podTime x; ∃ n, c.skewSince = some n ∧ c.fenced = false ∧
      n + 1000000 ≤ now) :=
  ⟨⟨pair C C {}, .inl (by decide)⟩,
  ⟨pair { JC with power := .off, fwOk := true, repaired := true } C {}, by decide +kernel⟩,
  ⟨pair C C {}, .inl rfl⟩,
  ⟨pair { JC with plate := { grids := [(1, { st := .running })] } } C {}, .inr rfl, by decide +kernel, by decide +kernel, ⟨_, .head _, rfl⟩⟩,
  ⟨pair JC C {}, .inr rfl, by decide +kernel, by decide +kernel, by decide +kernel, by decide +kernel, by decide +kernel, ⟨_, .tail _ (.head _),
    by decide +kernel, rfl, rfl, rfl⟩⟩,
  ⟨pair JC JC {}, .inr rfl, by decide +kernel⟩,
  ⟨pair { JC with inPod := true } C {}, by decide +kernel, by decide +kernel, by decide +kernel, .inl rfl⟩,
  ⟨pair { JC with inPod := true, timeSet := true, nbr := [(0, 3)] } C {}, by decide +kernel⟩,
  ⟨pair C C {}, by decide +kernel⟩,
  ⟨pair snapped C { peer := 1 }, _, rfl, by decide +kernel⟩,
  ⟨{ pair snapped C { peer := 1 } with now := 64200 }, _, rfl, by decide +kernel⟩,
  ⟨pair JC C { flit := flit (6 + 2 ^ 96) }, { st := .up }, flit (6 + 2 ^ 96), by decide +kernel, rfl, by decide +kernel,
    flit_checked (by decide) rfl, flit_type (by decide) rfl, .inl rfl⟩,
  ⟨pair { JC with inPod := true } C { flit := flit (6 + 2 ^ 96) }, { st := .up }, flit (6 + 2 ^ 96), by decide +kernel, rfl, by decide +kernel,
    flit_checked (by decide) rfl, flit_type (by decide) rfl, by decide +kernel,
    fun h => absurd ((flit_body (by decide) (by decide)).symm.trans h) (by decide +kernel), by decide +kernel⟩,
  ⟨pair { JC with inPod := true, timeSet := true } C { flit := flit (6 + 2 ^ 96) }, { st := .up }, flit (6 + 2 ^ 96), by decide +kernel, rfl,
    by decide +kernel, flit_checked (by decide) rfl, flit_type (by decide) rfl, by decide +kernel,
    fun h => absurd ((flit_body (by decide) (by decide)).symm.trans h) (by decide +kernel), by decide +kernel⟩,
  ⟨pair C C { ct := 1001 }, by decide +kernel⟩,
  ⟨pair C C { ct := 1000 }, by decide +kernel⟩,
  ⟨pair C C {}, by decide +kernel⟩,
  ⟨{ pair { C with skewSince := some 500 } C {} with now := 1000499 }, _, rfl, by decide +kernel⟩,
  ⟨{ pair { C with skewSince := some 500 } C {} with now := 1000500 }, _, rfl, by decide +kernel⟩⟩

theorem witness_powerAndProofs :
    (∃ (s : State), let x := s.cue.chip; let c := s.chip x; c.tripped = false) ∧
    (∃ (s : State), let x := s.cue.chip; let c := s.chip x; c.tripped = true) ∧
    (∃ (s : State), let x := s.cue.chip; let c := s.chip x; c.power ≠ .off) ∧
    (∃ (s : State), let x := s.cue.chip; let c := s.chip x; c.power = .off) ∧
    (∃ (s : State), let x := s.cue.chip; let c := s.chip x; (c.fenced = true ∨ c.power ≠ .full) ∧ ∃ i, i ∈ [Instr.proof, .proofDeadline]) ∧
    (∃ (s : State), let x := s.cue.chip; let n := s.cue.num; let c := s.chip x; let due := n * s.cfg.t * 1000000; c.fenced = false ∧
      c.power = .full ∧ s.cue.unit ≠ 1 ∧ s.podTime x < due) ∧
    (∃ (s : State), let x := s.cue.chip; let n := s.cue.num; let c := s.chip x; let due := n * s.cfg.t * 1000000;
      let up := fun (y : Nat) => (s.chip y).power = .full ∧ (s.chip y).fenced = false; c.fenced = false ∧ c.power = .full ∧ ∃ b, s.cue.unit ≠ 1 ∧
      due ≤ s.podTime x ∧ c.saves = [] ∧ s.buddy x = some b ∧ up b ∧ (∀ l, l ∈ s.proofLines x → (s.line l).red = none)) ∧
    (∃ (s : State), let x := s.cue.chip; let c := s.chip x; let up := fun (y : Nat) => (s.chip y).power = .full ∧ (s.chip y).fenced = false;
      c.fenced = false ∧ c.power = .full ∧ ∃ b, s.cue.unit = 1 ∧ s.buddy x = some b ∧ up b) ∧
    (∃ (s : State), let x := s.cue.chip; let n := s.cue.num; let c := s.chip x; c.fenced = false ∧ c.power = .full ∧ ∃ d, d ∈ c.proofDone ∧
      d.1 = n) ∧
    (∃ (s : State), let x := s.cue.chip; let n := s.cue.num; let c := s.chip x; let due := n * s.cfg.t * 1000000; c.fenced = false ∧
      c.power = .full ∧ (∀ d, d ∈ c.proofDone → d.1 ≠ n) ∧ s.podTime x < due + s.cfg.t * 500000) ∧
    (∃ (s : State), let x := s.cue.chip; let n := s.cue.num; let c := s.chip x; let due := n * s.cfg.t * 1000000; c.fenced = false ∧
      c.power = .full ∧ (∀ d, d ∈ c.proofDone → d.1 ≠ n) ∧ due + s.cfg.t * 500000 ≤ s.podTime x) :=
  ⟨⟨pair C C {}, by decide +kernel⟩,
  ⟨pair { C with tripped := true } C {}, by decide +kernel⟩,
  ⟨pair C C {}, by decide +kernel⟩,
  ⟨pair { C with power := .off } C {}, by decide +kernel⟩,
  ⟨pair JC C {}, .inr (by decide), .proof, List.mem_cons_self⟩,
  ⟨{ pair C C { num := 1 } with cfg := { chips := [0, 1], t := 1 }, now := 999999 }, by decide +kernel⟩,
  ⟨{ pair C2 C { num := 1 } with cfg := { chips := [0, 1], t := 1 }, now := 1000000 }, by decide +kernel, by decide +kernel, 1, by decide +kernel,
    by decide +kernel, by decide +kernel, rfl, by decide +kernel⟩,
  ⟨pair C2 C { num := 1, unit := 1 }, by decide +kernel, by decide +kernel, 1, by decide +kernel, rfl, by decide +kernel⟩,
  ⟨pair { C with proofDone := [(1, 0)] } C { num := 1 }, by decide +kernel, by decide +kernel, ⟨_, .head _, rfl⟩⟩,
  ⟨{ pair C C { num := 1 } with cfg := { chips := [0, 1], t := 1 }, now := 1499999 }, by decide +kernel⟩,
  ⟨{ pair C C { num := 1 } with cfg := { chips := [0, 1], t := 1 }, now := 1500000 }, by decide +kernel⟩⟩

/-- A chip with a command record, of some fields, at its ring's next place. -/
def CR : Chip := { C with ringTodo := 1, ringSize := 16 }
def cmd (l : List (Nat × Nat × Nat)) (c : Chip) : State := { S with chips := [(0, c)], mem := memPut [] (512 * 2 ^ 60) (rec 128 l) }

theorem witness_commandsDone :
    (∃ (s : State), let x := s.cue.chip; let n := s.cue.num; let c := s.chip x; let key := s.recordKey x n; let l := s.record x n; Memory.wf s.mem ∧
      key % 128 = 0 ∧ (s.line (key / 128)).calm ∧ c.power ≠ .off ∧ c.fenced = false ∧ c.ringTodo ≠ 0 ∧ c.ringNext = n ∧ (∃ i, 1 ≤ i ∧ i < 8 ∧
      l.getD i 0 ≠ 0) ∧ ∃ i,
      i ∈ [Instr.hostSubmit, .invalidate, .preEmpt, .saveArea, .errorLog, .attest, .agree, .keyPage, .keyLinkSend, .keyLinkReceive, .contextCreate, .contextDestroy, .homeMap, .homeUnmap] ∧
      (i = .hostSubmit → s.cue.ok = true)) ∧
    (∃ (s : State), let x := s.cue.chip; let n := s.cue.num; let c := s.chip x; let key := s.recordKey x n; let l := s.record x n;
      let f := fieldAt l; Memory.wf s.mem ∧ key % 128 = 0 ∧ (s.line (key / 128)).calm ∧ c.power ≠ .off ∧ c.fenced = false ∧ c.ringTodo ≠ 0 ∧
      c.ringNext = n ∧ let ctx := f 8 2; let known := ctx ∈ c.contexts; recordBad l [(8, 2), (10, 1)] = false ∧ ctx ≠ 0 ∧ f 10 1 ≤ 1 ∧ known) ∧
    (∃ (s : State), let x := s.cue.chip; let n := s.cue.num; let c := s.chip x; let key := s.recordKey x n; let l := s.record x n;
      let f := fieldAt l; Memory.wf s.mem ∧ key % 128 = 0 ∧ (s.line (key / 128)).calm ∧ c.power ≠ .off ∧ c.fenced = false ∧ c.ringTodo ≠ 0 ∧
      c.ringNext = n ∧ let ctx := f 8 2; let known := ctx ∈ c.contexts; recordBad l [(8, 2), (10, 1)] = false ∧ ctx ≠ 0 ∧ f 10 1 ≤ 1 ∧ ¬ known ∧
      c.contexts.length < 1024) ∧
    (∃ (s : State), let x := s.cue.chip; let n := s.cue.num; let c := s.chip x; let key := s.recordKey x n; let l := s.record x n;
      let f := fieldAt l; Memory.wf s.mem ∧ key % 128 = 0 ∧ (s.line (key / 128)).calm ∧ c.power ≠ .off ∧ c.fenced = false ∧ c.ringTodo ≠ 0 ∧
      c.ringNext = n ∧ let ctx := f 8 2; let known := ctx ∈ c.contexts; recordBad l [(8, 2), (10, 1)] = false ∧ ctx ≠ 0 ∧ f 10 1 ≤ 1 ∧ ¬ known ∧
      1024 ≤ c.contexts.length) ∧
    (∃ (s : State), let x := s.cue.chip; let n := s.cue.num; let c := s.chip x; let key := s.recordKey x n; let l := s.record x n;
      let f := fieldAt l; Memory.wf s.mem ∧ key % 128 = 0 ∧ (s.line (key / 128)).calm ∧ c.power ≠ .off ∧ c.fenced = false ∧ c.ringTodo ≠ 0 ∧
      c.ringNext = n ∧ let ctx := f 8 2; let known := ctx ∈ c.contexts; recordBad l [(8, 2), (10, 1)] = false ∧ ctx ≠ 0 ∧ ¬ known) ∧
    (∃ (s : State), let x := s.cue.chip; let n := s.cue.num; let c := s.chip x; let key := s.recordKey x n; let l := s.record x n;
      let f := fieldAt l; Memory.wf s.mem ∧ key % 128 = 0 ∧ (s.line (key / 128)).calm ∧ c.power ≠ .off ∧ c.fenced = false ∧ c.ringTodo ≠ 0 ∧
      c.ringNext = n ∧ let ctx := f 8 2; let known := ctx ∈ c.contexts; recordBad l [(8, 2), (10, 1)] = false ∧ ctx ≠ 0 ∧ known ∧
      s.busyContext x ctx = true) ∧
    (∃ (s : State), let x := s.cue.chip; let n := s.cue.num; let c := s.chip x; let key := s.recordKey x n; let l := s.record x n;
      let f := fieldAt l; Memory.wf s.mem ∧ key % 128 = 0 ∧ (s.line (key / 128)).calm ∧ c.power ≠ .off ∧ c.fenced = false ∧ c.ringTodo ≠ 0 ∧
      c.ringNext = n ∧ let ctx := f 8 2; let known := ctx ∈ c.contexts; recordBad l [(8, 2), (10, 1)] = false ∧ ctx ≠ 0 ∧ known ∧
      s.busyContext x ctx = false) ∧
    (∃ (s : State), let x := s.cue.chip; let n := s.cue.num; let c := s.chip x; let key := s.recordKey x n; let l := s.record x n;
      let f := fieldAt l; Memory.wf s.mem ∧ key % 128 = 0 ∧ (s.line (key / 128)).calm ∧ c.power ≠ .off ∧ c.fenced = false ∧ c.ringTodo ≠ 0 ∧
      c.ringNext = n ∧ let ctx := f 8 2; let known := ctx ∈ c.contexts;
      let homeArgs := recordBad l [(8, 2), (10, 2), (12, 2), (14, 1), (16, 8)] = false ∧ homeBad l = false; homeArgs ∧ ¬ known) ∧
    (∃ (s : State), let x := s.cue.chip; let n := s.cue.num; let c := s.chip x; let key := s.recordKey x n; let l := s.record x n;
      let f := fieldAt l; Memory.wf s.mem ∧ key % 128 = 0 ∧ (s.line (key / 128)).calm ∧ c.power ≠ .off ∧ c.fenced = false ∧ c.ringTodo ≠ 0 ∧
      c.ringNext = n ∧ let ctx := f 8 2; let known := ctx ∈ c.contexts;
      let homeArgs := recordBad l [(8, 2), (10, 2), (12, 2), (14, 1), (16, 8)] = false ∧ homeBad l = false; homeArgs ∧ known ∧ f 12 2 ≠ x) ∧
    (∃ (s : State), let x := s.cue.chip; let n := s.cue.num; let c := s.chip x; let key := s.recordKey x n; let l := s.record x n;
      let f := fieldAt l; Memory.wf s.mem ∧ key % 128 = 0 ∧ (s.line (key / 128)).calm ∧ c.power ≠ .off ∧ c.fenced = false ∧ c.ringTodo ≠ 0 ∧
      c.ringNext = n ∧ let ctx := f 8 2; let known := ctx ∈ c.contexts;
      let homeArgs := recordBad l [(8, 2), (10, 2), (12, 2), (14, 1), (16, 8)] = false ∧ homeBad l = false;
      let others := fun (r : Nat × Nat × Nat) => decide (r.1 ≠ ctx) || decide (r.2.1 ≠ f 10 2); homeArgs ∧ known ∧ f 12 2 = x ∧
      (c.ptroot.filter others).length < 16384) ∧
    (∃ (s : State), let x := s.cue.chip; let n := s.cue.num; let c := s.chip x; let key := s.recordKey x n; let l := s.record x n;
      let f := fieldAt l; Memory.wf s.mem ∧ key % 128 = 0 ∧ (s.line (key / 128)).calm ∧ c.power ≠ .off ∧ c.fenced = false ∧ c.ringTodo ≠ 0 ∧
      c.ringNext = n ∧ let ctx := f 8 2; let known := ctx ∈ c.contexts; recordBad l [(8, 2), (10, 2), (16, 8), (24, 8)] = false ∧ ctx ≠ 0 ∧
      f 10 2 ≤ 4095 ∧ f 16 8 % 65536 = 0 ∧ f 16 8 + 65536 * f 24 8 ≤ 2 ^ 48 ∧ known) ∧
    (∃ (s : State), let x := s.cue.chip; let n := s.cue.num; let c := s.chip x; let key := s.recordKey x n; let l := s.record x n;
      let f := fieldAt l; Memory.wf s.mem ∧ key % 128 = 0 ∧ (s.line (key / 128)).calm ∧ c.power ≠ .off ∧ c.fenced = false ∧ c.ringTodo ≠ 0 ∧
      c.ringNext = n ∧ let ctx := f 8 2; let known := ctx ∈ c.contexts; recordBad l [(8, 2), (16, 8), (24, 8)] = false ∧ ctx ≠ 0 ∧
      f 16 8 % 4096 = 0 ∧ f 24 8 % 4096 = 0 ∧ 8192 ≤ f 24 8 ∧ deviceRange (f 16 8) (f 24 8) = true ∧ known) ∧
    (∃ (s : State), let x := s.cue.chip; let n := s.cue.num; let c := s.chip x; let key := s.recordKey x n; let l := s.record x n;
      let f := fieldAt l; Memory.wf s.mem ∧ key % 128 = 0 ∧ (s.line (key / 128)).calm ∧ c.power ≠ .off ∧ c.fenced = false ∧ c.ringTodo ≠ 0 ∧
      c.ringNext = n ∧ let ctx := f 8 2; let known := ctx ∈ c.contexts; recordBad l [(8, 2)] = false ∧ ctx ≠ 0 ∧ ¬ known) ∧
    (∃ (s : State), let x := s.cue.chip; let n := s.cue.num; let c := s.chip x; let key := s.recordKey x n; let l := s.record x n;
      let f := fieldAt l; Memory.wf s.mem ∧ key % 128 = 0 ∧ (s.line (key / 128)).calm ∧ c.power ≠ .off ∧ c.fenced = false ∧ c.ringTodo ≠ 0 ∧
      c.ringNext = n ∧ let ctx := f 8 2; let known := ctx ∈ c.contexts; recordBad l [(8, 2)] = false ∧ ctx ≠ 0 ∧ known ∧ c.preempt = none ∧
      s.contextWarps x ctx = []) ∧
    (∃ (s : State), let x := s.cue.chip; let n := s.cue.num; let c := s.chip x; let key := s.recordKey x n; let l := s.record x n;
      let f := fieldAt l; Memory.wf s.mem ∧ key % 128 = 0 ∧ (s.line (key / 128)).calm ∧ c.power ≠ .off ∧ c.fenced = false ∧ c.ringTodo ≠ 0 ∧
      c.ringNext = n ∧ let ctx := f 8 2; let known := ctx ∈ c.contexts; recordBad l [(8, 2)] = false ∧ ctx ≠ 0 ∧ known ∧ c.preempt = none ∧
      s.contextWarps x ctx ≠ [] ∧ s.saveRoom x ctx ((s.contextWarps x ctx).map fun p => p.2.rows.length) = false) ∧
    (∃ (s : State), let x := s.cue.chip; let n := s.cue.num; let c := s.chip x; let key := s.recordKey x n; let l := s.record x n;
      let f := fieldAt l; Memory.wf s.mem ∧ key % 128 = 0 ∧ (s.line (key / 128)).calm ∧ c.power ≠ .off ∧ c.fenced = false ∧ c.ringTodo ≠ 0 ∧
      c.ringNext = n ∧ let ctx := f 8 2; let known := ctx ∈ c.contexts; recordBad l [(8, 2)] = false ∧ ctx ≠ 0 ∧ known ∧ c.preempt = none ∧
      s.contextWarps x ctx ≠ [] ∧ s.saveRoom x ctx ((s.contextWarps x ctx).map fun p => p.2.rows.length) = true) ∧
    (∃ (s : State), let x := s.cue.chip; let n := s.cue.num; let c := s.chip x; let key := s.recordKey x n; let l := s.record x n;
      let f := fieldAt l; Memory.wf s.mem ∧ key % 128 = 0 ∧ (s.line (key / 128)).calm ∧ c.power ≠ .off ∧ c.fenced = false ∧ c.ringTodo ≠ 0 ∧
      c.ringNext = n ∧ let sound := ∀ p, p ∈ s.lines → p.2.soft = none ∧ p.2.l2soft = none; recordBad l [(8, 8), (16, 4)] = false ∧ f 8 8 % 16 = 0 ∧
      f 16 4 = 0 ∧ sound) ∧
    (∃ (s : State), let x := s.cue.chip; let n := s.cue.num; let c := s.chip x; let key := s.recordKey x n; let l := s.record x n;
      let f := fieldAt l; Memory.wf s.mem ∧ key % 128 = 0 ∧ (s.line (key / 128)).calm ∧ c.power ≠ .off ∧ c.fenced = false ∧ c.ringTodo ≠ 0 ∧
      c.ringNext = n ∧ let sound := ∀ p, p ∈ s.lines → p.2.soft = none ∧ p.2.l2soft = none; recordBad l [(8, 8), (16, 4)] = false ∧ f 8 8 % 16 = 0 ∧
      c.errlog.length ≤ f 16 4 ∧ sound) ∧
    (∃ (s : State), let x := s.cue.chip; let n := s.cue.num; let c := s.chip x; let key := s.recordKey x n; let l := s.record x n;
      let f := fieldAt l; Memory.wf s.mem ∧ key % 128 = 0 ∧ (s.line (key / 128)).calm ∧ c.power ≠ .off ∧ c.fenced = false ∧ c.ringTodo ≠ 0 ∧
      c.ringNext = n ∧ c.power = .joining ∧ s.cue.ok = true ∧ recordBad l [(8, 8), (16, 2)] = false ∧ f 8 8 % 128 = 0 ∧ f 16 2 ≠ 0) :=
  ⟨⟨cmd [(1, 1, 1)] CR, by decide +kernel, by decide +kernel, calm_of (by decide +kernel), by decide +kernel, by decide +kernel, by decide +kernel,
    by decide +kernel, ⟨1, by decide, by decide, by decide +kernel⟩, .invalidate, .tail _ (.head _), fun h => nomatch h⟩,
  ⟨cmd [(8, 2, 1)] CR, by decide +kernel, by decide +kernel, calm_of (by decide +kernel), by decide +kernel⟩,
  ⟨cmd [(8, 2, 2)] CR, by decide +kernel, by decide +kernel, calm_of (by decide +kernel), by decide +kernel⟩,
  ⟨cmd [(8, 2, 2)] { CR with contexts := List.replicate 1024 1 }, by decide +kernel, by decide +kernel, calm_of (by decide +kernel),
    by decide +kernel⟩,
  ⟨cmd [(8, 2, 2)] CR, by decide +kernel, by decide +kernel, calm_of (by decide +kernel), by decide +kernel⟩,
  ⟨cmd [(8, 2, 1)] CR, by decide +kernel, by decide +kernel, calm_of (by decide +kernel), by decide +kernel⟩,
  ⟨cmd [(8, 2, 2)] { CR with contexts := [1, 2] }, by decide +kernel, by decide +kernel, calm_of (by decide +kernel), by decide +kernel⟩,
  ⟨cmd [(8, 2, 2), (16, 8, 0x40000)] CR, by decide +kernel, by decide +kernel, calm_of (by decide +kernel), by decide +kernel⟩,
  ⟨cmd [(8, 2, 1), (12, 2, 1), (14, 1, 0)] CR, by decide +kernel, by decide +kernel, calm_of (by decide +kernel), by decide +kernel⟩,
  ⟨cmd [(8, 2, 1), (16, 8, 0x40000)] CR, by decide +kernel, by decide +kernel, calm_of (by decide +kernel), by decide +kernel⟩,
  ⟨cmd [(8, 2, 1), (16, 8, 0x20000), (24, 8, 1)] CR, by decide +kernel, by decide +kernel, calm_of (by decide +kernel), by decide +kernel⟩,
  ⟨cmd [(8, 2, 1), (16, 8, 0x40000), (24, 8, 8192)] CR, by decide +kernel, by decide +kernel, calm_of (by decide +kernel), by decide +kernel⟩,
  ⟨cmd [(8, 2, 2)] CR, by decide +kernel, by decide +kernel, calm_of (by decide +kernel), by decide +kernel⟩,
  ⟨cmd [(8, 2, 2)] { CR with contexts := [1, 2] }, by decide +kernel, by decide +kernel, calm_of (by decide +kernel), by decide +kernel⟩,
  ⟨cmd [(8, 2, 1)] CR, by decide +kernel, by decide +kernel, calm_of (by decide +kernel), by decide +kernel⟩,
  ⟨cmd [(8, 2, 1)] { CR with saves := [(1, 0x40000, 100000)] }, by decide +kernel, by decide +kernel, calm_of (by decide +kernel),
    by decide +kernel⟩,
  ⟨cmd [(8, 8, 0x40000)] CR, by decide +kernel, by decide +kernel, calm_of (by decide +kernel), by decide +kernel⟩,
  ⟨cmd [(8, 8, 0x40000), (16, 4, 1)] { CR with errlog := [(0, 0)] }, by decide +kernel, by decide +kernel, calm_of (by decide +kernel),
    by decide +kernel⟩,
  ⟨cmd [(8, 8, 0x40000), (16, 2, 1)] { CR with power := .joining }, by decide +kernel, by decide +kernel, calm_of (by decide +kernel),
    by decide +kernel⟩⟩

def launching : State := { S with chips := [(0, { CR with contexts := [1] })], mem := memPut launchMem (512 * 2 ^ 60) (rec 128 [(8, 8, 0x22000), (16, 2, 1)]), cue := { ok := false }, lines := launchLines }

theorem witness_keysAndHostAccesses :
    (∃ (s : State), let x := s.cue.chip; let n := s.cue.num; let c := s.chip x; let key := s.recordKey x n; let l := s.record x n;
      let f := fieldAt l; Memory.wf s.mem ∧ key % 128 = 0 ∧ (s.line (key / 128)).calm ∧ c.power ≠ .off ∧ c.fenced = false ∧ c.ringTodo ≠ 0 ∧
      c.ringNext = n ∧ let apart := fun (base : Nat) => hostKey x base / 128 + 1 < key / 128 ∨ key / 128 < hostKey x base / 128;
      recordBad l [(8, 32), (40, 8)] = false ∧ f 40 8 % 64 = 0 ∧ (s.line (hostKey x (f 40 8) / 128)).calm ∧
      (s.line (hostKey x (f 40 8) / 128 + 1)).calm ∧ apart (f 40 8)) ∧
    (∃ (s : State), let x := s.cue.chip; let n := s.cue.num; let c := s.chip x; let key := s.recordKey x n; let l := s.record x n;
      let f := fieldAt l; Memory.wf s.mem ∧ key % 128 = 0 ∧ (s.line (key / 128)).calm ∧ c.power ≠ .off ∧ c.fenced = false ∧ c.ringTodo ≠ 0 ∧
      c.ringNext = n ∧ let plain := recordBad l [(8, 1), (9, 1), (10, 2), (12, 4), (16, 40)] = false; plain ∧ f 8 1 = 0 ∧ f 9 1 = 0 ∧ f 10 2 ≠ 0 ∧
      f 10 2 ∈ c.contexts) ∧
    (∃ (s : State), let x := s.cue.chip; let n := s.cue.num; let c := s.chip x; let key := s.recordKey x n; let l := s.record x n;
      let f := fieldAt l; Memory.wf s.mem ∧ key % 128 = 0 ∧ (s.line (key / 128)).calm ∧ c.power ≠ .off ∧ c.fenced = false ∧ c.ringTodo ≠ 0 ∧
      c.ringNext = n ∧ let plain := recordBad l [(8, 1), (9, 1), (10, 2), (12, 4), (16, 40)] = false; plain ∧ f 9 1 ≤ 1 ∧ linkOk (f 10 2) = true ∧
      ∃ d, d = (tabLook c.links (f 10 2)).getD {}) ∧
    (∃ (s : State), let x := s.cue.chip; let c := s.chip x; c.power = .off) ∧
    (∃ (s : State), let x := s.cue.chip; let c := s.chip x; let v := s.cue.num; c.power ≠ .off ∧ s.cue.unit = 0 ∧ v % 4096 = 0) ∧
    (∃ (s : State), let x := s.cue.chip; let c := s.chip x; let v := s.cue.num; c.power ≠ .off ∧ s.cue.unit = 1 ∧ ∃ k, 4 ≤ k ∧ k ≤ 12 ∧ v = 2 ^ k) ∧
    (∃ (s : State), let x := s.cue.chip; let c := s.chip x; let v := s.cue.num; c.power ≠ .off ∧ s.cue.unit = 2 ∧ v < c.ringSize) ∧
    (∃ (s : State), let x := s.cue.chip; let c := s.chip x; let v := s.cue.num; let key := devKey x v; let h := s.line (key / 128);
      let live := c.power ≠ .off ∧ c.fenced = false; ∃ l, live ∧ paOk v = true ∧ s.cue.wr = some l ∧ h.sync = none ∧ h.red = none ∧
      Memory.wf s.mem ∧ 0 < l.length ∧ v % 128 + l.length ≤ 128) ∧
    (∃ (s : State), let x := s.cue.chip; let c := s.chip x; let v := s.cue.num; let key := devKey x v; let h := s.line (key / 128);
      let live := c.power ≠ .off ∧ c.fenced = false; live ∧ paOk v = true ∧ s.cue.wr ≠ none ∧ h.sync ≠ none) ∧
    (∃ (s : State), let x := s.cue.chip; let c := s.chip x; let v := s.cue.num; let key := devKey x v; let h := s.line (key / 128);
      let live := c.power ≠ .off ∧ c.fenced = false; live ∧ paOk v = true ∧ s.cue.wr = none ∧ h.red = none ∧ h.sync = none ∧ h.undo ≠ []) ∧
    (∃ (s : State), let x := s.cue.chip; let c := s.chip x; let v := s.cue.num; let key := devKey x v; let h := s.line (key / 128);
      let live := c.power ≠ .off ∧ c.fenced = false; live ∧ paOk v = true ∧ s.cue.wr = none ∧ h.red = none ∧ h.sync = none ∧ h.undo = []) ∧
    (∃ (s : State), let x := s.cue.chip; s.podTime x < s.cue.ct) ∧
    (∃ (s : State), let x := s.cue.chip; s.cue.ct ≤ s.podTime x) ∧
    (∃ (s : State), let x := s.cue.chip; let c := s.chip x; let v := s.cue.num; let live := c.power ≠ .off ∧ c.fenced = false; ∃ l,
      l = s.record x v ∧ live ∧ s.cue.ok = false ∧ fieldAt l 16 2 ∈ c.contexts ∧ c.room = true ∧ ∃ (a : Access), (a = { id := s.fresh }) ∧ ∃ s1 r,
      s.counted.pull x (fieldAt l 16 2) a (fieldAt l 8 8) 128 = (s1, some r) ∧ ∃ y, y = s1.judge x a (some (fieldAt l 16 2)) false r ∧ ∃ image run,
      y.2 = .accepted (fieldAt l 16 2) image run ∧ (y.1.chip x).room = true) :=
  ⟨⟨cmd [(40, 8, 0x40000)] CR, by decide +kernel, by decide +kernel, calm_of (by decide +kernel), by decide +kernel, by decide +kernel,
    by decide +kernel, by decide +kernel, by decide +kernel, by decide +kernel, calm_of (by decide +kernel), calm_of (by decide +kernel),
    .inr (by decide +kernel)⟩,
  ⟨cmd [(10, 2, 1)] CR, by decide +kernel, by decide +kernel, calm_of (by decide +kernel), by decide +kernel⟩,
  ⟨cmd [] CR, by decide +kernel, by decide +kernel, calm_of (by decide +kernel), by decide +kernel, by decide +kernel, by decide +kernel,
    by decide +kernel, by decide +kernel, by decide +kernel, by decide +kernel, {}, rfl⟩,
  ⟨{ S with chips := [(0, { C with power := .off })] }, by decide +kernel⟩,
  ⟨{ S with cue := { num := 4096 } }, by decide +kernel⟩,
  ⟨{ S with cue := { unit := 1, num := 4096 } }, by decide +kernel, by decide +kernel, 12, by decide +kernel, by decide +kernel, rfl⟩,
  ⟨{ S with chips := [(0, CR)], cue := { unit := 2, num := 15 } }, by decide +kernel⟩,
  ⟨{ S with cue := { num := 0x200FF, wr := some [0x5A] } }, _, by decide +kernel, by decide +kernel, rfl, by decide +kernel⟩,
  ⟨{ S with cue := { num := 0x200FF, wr := some [0x5A] }, lines := [(0x401, { sync := some {} })] }, by decide +kernel⟩,
  ⟨{ S with cue := { num := 0x200FF }, lines := [(0x401, { undo := [(0, 0, 0)] })] }, by decide +kernel⟩,
  ⟨{ S with cue := { num := 0x200FF } }, by decide +kernel⟩,
  ⟨{ S with cue := { ct := 1001 } }, by decide +kernel⟩,
  ⟨{ S with cue := { ct := 1000 } }, by decide +kernel⟩,
  ⟨launching, _, rfl, by decide +kernel, by decide +kernel, by decide +kernel, by decide +kernel, _, rfl, _, _, read_some (by decide +kernel), _,
    rfl, _, _, accepted_of (by decide +kernel), by decide +kernel⟩⟩

end Sys2Proof.Tests
end

/-! SUPPORT. Words whose effect stays in their own warp: how such a word ends, and what a write of predicates and of a destination
leaves of the warp. -/

namespace Sys2Proof.Machine

/-! ## The context of a word -/

/-- A word that takes no modifier, may read latches, and keeps the run of its group. -/
structure OpInfo.plain (i : OpInfo) : Prop where
  cen : i.cen = false
  sat : i.sat = false
  control : i.control = false
  noLatch : i.noLatch = false
  names : i.names = []

/-- A plain word reads its sources alone (R42, R43). -/
theorem OpInfo.plain.reads {i : OpInfo} (h : i.plain) (p : Pfx) : i.reads p = i.srcs := by
  unfold OpInfo.reads
  cases p.hmod <;> simp [h.cen]

/-- The context in which a plain word of the issuing gang runs: its warp, whose open run it may have ended (R27), the fibres in which
it acts (R21), and its operands, which read as `seenBy` says. -/
structure Cx.runs (cx : Cx) (i : OpInfo) (s : State) (k : Nat) (m : Lanes) (w : Warp) (g : Gang) (b : Block) : Prop where
  number : cx.k = k
  lanes : cx.m = m
  block : cx.b = b
  warp : cx.w = w ∨ cx.w = w.closeRun
  fibres : cx.q = guarded w m i.g
  val : ∀ y : Src, y.code ∈ i.srcs → cx.val y = (seenBy false s k m w g b).val y
  chain : i.ext = true → cx.ext = (seenBy false s k m w g b).ext
  info : cx.info = i
  sat : cx.sat = false

theorem contextOf_runs {i : OpInfo} (hp : i.plain) (s : State) (k : Nat) (m : Lanes) (w : Warp) (g : Gang) (b : Block) :
    (contextOf i s k m w g b).runs i s k m w g b where
  number := rfl
  lanes := rfl
  block := rfl
  warp := contextOf_w i s k m w g b
  fibres := by
    have e : (contextOf i s k m w g b).q = guarded (contextOf i s k m w g b).w m i.g := rfl
    rw [e]
    rcases contextOf_w i s k m w g b with e | e <;> rw [e]
    rfl
  val y hy := funext fun j => by
    rw [val_seenBy i s k m w g b y j (.inr (by rwa [hp.reads])) hp.control, hp.sat]
  chain he := by
    unfold seenBy contextOf
    simp [he]
  info := rfl
  sat := by
    unfold contextOf
    simp [hp.sat]

section
variable {cx : Cx} {i : OpInfo} {s : State} {k : Nat} {m : Lanes} {w : Warp} {g : Gang} {b : Block} (hx : cx.runs i s k m w g b)
include hx

/-- What the open run of a warp does not enter is the same of the warp that a context holds. -/
theorem Cx.runs.same {α : Type} (f : Warp → α) (hf : f w.closeRun = f w) : f cx.w = f w := by
  rcases hx.warp with e | e <;> rw [e]
  exact hf

theorem Cx.runs.predBit (j n : Nat) : cx.w.predBit j n = w.predBit j n := hx.same (Warp.predBit · j n) rfl

/-- A source that the fibres of a set may read stands in no word's way (R164, R167, R168, R186). -/
theorem Cx.runs.clear_reads {x : Src} {l : Lanes} (hr : w.readable l (x.code, if x.wide then 2 else 1)) :
    ∀ u, u ∈ readsOf [x] l → cx.clear u := by
  intro u hu
  obtain rfl := List.mem_singleton.mp hu
  refine clear_of_readable cx w _ l _ (hx.same Warp.rows rfl) (hx.same Warp.base rfl) (hx.same Warp.spend rfl) (fun _ _ hj => hj) hr rfl rfl
    ?_ rfl
  cases hwide : x.wide <;> simp [hwide]

/-- Nor does a destination that they may write (R164, R168, R208). -/
theorem Cx.runs.clear_writes {d : Code} {wide : Bool} {l : Lanes} (hd : w.writable l (d, if wide then 2 else 1)) :
    ∀ u, u ∈ [({ code := d, n := if wide then 2 else 1, wide := wide, lanes := l, read := false } : Use)] → cx.clear u := by
  intro u hu
  obtain rfl := List.mem_singleton.mp hu
  refine clear_of_writable cx w (d, if wide then 2 else 1) l _ (hx.same Warp.rows rfl) (hx.same Warp.base rfl) (hx.same Warp.spend rfl)
    (fun _ _ hj => hj) hd Iff.rfl Iff.rfl rfl ?_ rfl
  intro _
  unfold regCode Operand.first pairCode
  cases wide <;> simp

end

/-- A plain word that the warp's role may issue, and whose latches its run holds, is not kept from running (R28, R289, R290). -/
theorem barred_of_latched {i : OpInfo} {w : Warp} {m : Lanes} {g : Gang} (s : State) (k : Nat) (b : Block) (hp : i.plain)
    (hrole : (i.allowed g.pfx).contains w.role = true) (hl : ∀ c, c ∈ i.srcs → w.latched m c) :
    (contextOf i s k m w g b).barred g.pfx = none := by
  have role : (contextOf i s k m w g b).w.role = w.role := (contextOf_runs hp s k m w g b).same Warp.role rfl
  have info : (contextOf i s k m w g b).info = i := rfl
  have held : ∀ c, c ∈ i.srcs.filter isLatch → ∃ r, (contextOf i s k m w g b).w.run = some r ∧ c.toNat - 119 ≤ r.prod := by
    intro c hc
    obtain ⟨hread, hlatch⟩ := List.mem_filter.mp hc
    obtain ⟨r, hr, hm, hle⟩ := hl c hread (of_decide_eq_true hlatch)
    have hne : (i.srcs.filter isLatch).isEmpty = false := List.isEmpty_eq_false_iff_exists_mem.mpr ⟨c, hc⟩
    refine ⟨r, ?_, hle⟩
    unfold contextOf
    simp [hr, hp.reads, hp.control, hne, hm]
  have find : ∀ p, (∀ r, (contextOf i s k m w g b).w.run = some r → p = r.prod) →
      (i.srcs.filter isLatch).find? (fun c => i.noLatch || decide (p < c.toNat - 119)) = none := by
    intro p hprod
    rw [List.find?_eq_none]
    intro c hc
    obtain ⟨r, hr, hle⟩ := held c hc
    rw [hprod r hr, hp.noLatch]
    simpa using hle
  unfold Cx.barred
  simp only [info, role, hrole, hp.reads, hp.names, Bool.not_true, Bool.false_eq_true, if_false, List.find?_nil]
  rw [find _ (fun r hr => by rw [hr])]
  rfl

/-! ## Effects on one warp -/

/-- An effect on warp `k`: outside the warps nothing changes but as `Outside` says, the other warps keep all that `Warp.still` shows,
and the warp before and after are as `R` says. -/
structure Effect (k : Nat) (s t : State) (R : Warp → Warp → Prop) : Prop where
  outside : Outside s t
  gone : ∀ j, j ≠ k → s.warp? j = none → t.warp? j = none
  kept : ∀ j v, j ≠ k → s.warp? j = some v → ∃ v', t.warp? j = some v' ∧ v'.still = v.still
  own : ∀ v, s.warp? k = some v → ∃ v', t.warp? k = some v' ∧ R v v'

section
variable {k : Nat} {r s t : State} {R S : Warp → Warp → Prop}

theorem Effect.trans (h : Effect k r s R) (i : Effect k s t S) : Effect k r t fun u w => ∃ v, R u v ∧ S v w where
  outside := h.outside.trans i.outside
  gone j hj e := i.gone j hj (h.gone j hj e)
  kept j v hj e := by
    obtain ⟨v1, e1, s1⟩ := h.kept j v hj e
    obtain ⟨v2, e2, s2⟩ := i.kept j v1 hj e1
    exact ⟨v2, e2, s2.trans s1⟩
  own v e := by
    obtain ⟨v1, e1, r1⟩ := h.own v e
    obtain ⟨v2, e2, r2⟩ := i.own v1 e1
    exact ⟨v2, e2, v1, r1, r2⟩

theorem Effect.mono (h : Effect k s t R) (hRS : ∀ v v', R v v' → S v v') : Effect k s t S where
  outside := h.outside
  gone := h.gone
  kept := h.kept
  own v e := by
    obtain ⟨v', e', hv⟩ := h.own v e
    exact ⟨v', e', hRS v v' hv⟩

theorem effect_modWarp (s : State) (k : Nat) (f : Warp → Warp) : Effect k s (s.modWarp k f) fun v v' => v' = f v where
  outside := outside_modWarp s k f
  gone j hj e := (modWarp_other s k j f hj).trans e
  kept j v hj e := ⟨v, (modWarp_other s k j f hj).trans e, rfl⟩
  own v e := ⟨f v, modWarp_own f e, rfl⟩

/-- WARN of a warp is added to, and nothing else. -/
def Warp.warned (w w' : Warp) : Prop := ∃ y, w' = { w with warn := w.warn ||| y }

theorem WarnsOnly.effect (h : WarnsOnly k s t) : Effect k s t Warp.warned where
  outside := h.outside
  gone j hj e := (h.others j hj).trans e
  kept j v hj e := ⟨v, (h.others j hj).trans e, rfl⟩
  own v e := by
    obtain ⟨y, hy⟩ := h.own v e
    exact ⟨_, hy, y, rfl⟩

theorem RegsWritten.effect {P : Nat → Nat → Option Word} {T : Nat → Option Word} (h : RegsWritten k s t P T) :
    Effect k s t fun v v' => Written v v' P T where
  outside := h.outside
  gone j _ e := h.gone j e
  kept j v hj e := by
    obtain ⟨v', e', same⟩ := h.kept j v hj e
    exact ⟨v', e', same.still⟩
  own := h.own

theorem Leaves.mono {m : Lanes} {g : Gang} (h : Leaves s t k m g R) (hRS : ∀ v v', s.warp? k = some v → R v v' → S v v') :
    Leaves s t k m g S where
  past := h.past
  outside := h.outside
  others := h.others
  own := by
    obtain ⟨v, v', e, e', hv⟩ := h.own
    exact ⟨v, v', e, e', hRS v v' e hv⟩

end

/-- What the end of a word leaves of the warp that its effect left: WARN may be added to (R50). -/
def Warp.ends (w w' : Warp) : Prop := w'.still = w.still ∧ ∃ x, w'.warn = w.warn ||| x

theorem Cx.runs.ends_warned {cx : Cx} {i : OpInfo} {s : State} {k : Nat} {m : Lanes} {w v : Warp} {g : Gang} {b : Block}
    (h : cx.runs i s k m w g b) (hv : cx.w.warned v) : w.ends v := by
  obtain ⟨y, rfl⟩ := hv
  exact ⟨h.same Warp.still rfl, y, congrArg (· ||| y) (h.same Warp.warn rfl)⟩

/-- What lets the gang of a warp go on: its gangs stand, and no trap was taken. -/
def Warp.onCourse (w w' : Warp) : Prop := w'.gangs = w.gangs ∧ w'.intrap = w.intrap ∧ w'.trapcause = w.trapcause

/-- A WORD WHOSE EFFECT STAYS IN ITS OWN WARP leaves what that effect leaves (R21, R50, R62). -/
theorem leaves_of_done {s t : State} {k : Nat} {m : Lanes} {w : Warp} {g : Gang} {b : Block} {i : OpInfo} {body : Cx → State → Res}
    {push : Option (List DWord)} {R S : Warp → Warp → Prop} (h : Issuing s k m w g b) (hb : (contextOf i s k m w g b).barred g.pfx = none)
    (hdone : body (contextOf i s k m w g b) (s.setWarp k (contextOf i s k m w g b).w) = .done t push)
    (he : Effect k (s.setWarp k (contextOf i s k m w g b).w) t R)
    (hcourse : ∀ v, R (contextOf i s k m w g b).w v → (contextOf i s k m w g b).w.onCourse v)
    (hends : ∀ v v', R (contextOf i s k m w g b).w v → v.ends v' → S w v') :
    Leaves s (issue i s body) k m g S := by
  rw [issue_eq h i body hb, hdone]
  obtain ⟨cstill, -, cgangs⟩ := contextOf_still i s k m w g b
  have hk : (contextOf i s k m w g b).k = k := rfl
  have hm : (contextOf i s k m w g b).m = m := rfl
  have hpc : (contextOf i s k m w g b).pc = g.pc := rfl
  generalize contextOf i s k m w g b = cx at *
  subst hk hm
  obtain ⟨v, hv, hR⟩ := he.own cx.w (setWarp_own s cx.k cx.w)
  obtain ⟨vgangs, vintrap, vcause⟩ := hcourse v hR
  have hgang : v.gang? cx.m = some g := by
    have := h.gang
    unfold Warp.gang? at this ⊢
    rw [vgangs, cgangs]; exact this
  have done := concluded_done cx g.pfx (s.setWarp cx.k cx.w) t push v g hv hgang (by rw [h.runs]; rfl)
  generalize cx.concluded g.pfx (s.setWarp cx.k cx.w) (Res.done t push) = u at done ⊢
  obtain ⟨w', hw', still', warn', g', hg', hpc', hpfx', -, -⟩ := done.own
  obtain ⟨i1, c1, -⟩ := still_warn still'
  obtain ⟨i2, c2, -⟩ := still_warn cstill
  refine ⟨⟨done.port, w, w', g', h.warp, hw', hg', by rw [hpc', hpc], hpfx', (i1.trans vintrap).trans i2, (c1.trans vcause).trans c2⟩,
    ((outside_setWarp s cx.k cx.w).trans he.outside).trans done.outside, fun j hj => ?_, w, w', h.warp, hw', hends v w' hR ⟨still', _, warn'⟩⟩
  have same := setWarp_other s cx.k j cx.w hj
  cases hs : s.warp? j with
  | none => rw [done.others j hj (he.gone j hj (same.trans hs))]
  | some x =>
    obtain ⟨x1, e1, s1⟩ := he.kept j x hj (same.trans hs)
    obtain ⟨x2, e2, eased⟩ := done.eased j x1 hj e1
    rw [e2, Option.map_some, Option.map_some, eased.still, s1]

/-! ## Noting sources -/

theorem debugBlock_of_outside {s t : State} (h : Outside s t) (chip ctx : Nat) : t.debugBlock chip ctx = s.debugBlock chip ctx := by
  have saves : (t.chip chip).saves = (s.chip chip).saves := by
    have e := congrArg Chip.saves (h.chips chip)
    exact e
  have bytes : ∀ key n, t.bytesAt key n = s.bytesAt key n := fun key n => by unfold State.bytesAt; rw [h.mem]
  unfold State.debugBlock
  simp only [saves, bytes]

section
variable {cx : Cx} {i : OpInfo} {s t : State} {k : Nat} {m : Lanes} {w : Warp} {g : Gang} {b : Block} (hx : cx.runs i s k m w g b)
include hx

theorem Cx.runs.warns (t : State) (x : Word) : WarnsOnly k t (cx.warn t x) := hx.number ▸ warn_only cx t x

/-- Noting sources of which no read of pod time is logged only warns (R438). -/
theorem Cx.runs.noted {srcs : List Src} (hu : Unlogged s b (srcs.map Src.code)) (ht : Outside s t) (q : Lanes) :
    WarnsOnly k t (cx.noteSrcs srcs t q) := by
  refine hx.number ▸ noteSrcs_only cx srcs t q ?_
  rcases hu with hu | hu
  · exact .inl (by rw [hx.block, debugBlock_of_outside ht]; exact hu)
  · exact .inr fun x hm _ e => hu (e ▸ List.mem_map_of_mem hm)

/-- What a word does before its effect: its sources are noted, and it warns of its destination (R50). -/
theorem Cx.runs.noted_warns {srcs : List Src} (hu : Unlogged s b (srcs.map Src.code)) (x : Word) :
    WarnsOnly k (s.setWarp k cx.w) (cx.warn (cx.noteSrcs srcs (s.setWarp k cx.w)) x) :=
  (hx.noted hu (outside_setWarp s k cx.w) cx.q).trans (hx.warns _ x)

end

theorem Unlogged.mono {s : State} {b : Block} {l l' : List Code} (h : Unlogged s b l) (hl : ∀ c, c ∈ l' → c ∈ l) : Unlogged s b l' :=
  h.imp_right fun out hm => out (hl _ hm)

theorem Unlogged.pair {s : State} {b : Block} {a c : Code} (ha : Unlogged s b [a]) (hc : Unlogged s b [c]) : Unlogged s b [a, c] := by
  rcases ha with ha | ha
  · exact .inl ha
  rcases hc with hc | hc
  · exact .inl hc
  refine .inr ?_
  simp only [List.mem_cons, List.not_mem_nil, or_false] at ha hc ⊢
  exact not_or.mpr ⟨ha, hc⟩

/-! ## Predicates (R71) -/

/-- Of a warp only predicates change: in fibre `j` predicate `n` becomes `P j n`, where that is some value. -/
structure PredsPut (w w' : Warp) (P : Nat → Nat → Option Bool) : Prop where
  rest : w' = { w with preds := w'.preds }
  bit : ∀ j n, j < 32 → n < 32 → w'.predBit j n = (P j n).getD (w.predBit j n)

theorem PredsPut.refl (w : Warp) : PredsPut w w fun _ _ => none := ⟨rfl, fun _ _ _ _ => rfl⟩

theorem PredsPut.trans {u v w : Warp} {P Q : Nat → Nat → Option Bool} (h : PredsPut u v P) (i : PredsPut v w Q) :
    PredsPut u w fun j n => (Q j n).or (P j n) where
  rest := by rw [i.rest, h.rest]
  bit j n hj hn := by
    rw [i.bit j n hj hn, h.bit j n hj hn]
    cases Q j n <;> rfl

theorem PredsPut.congr {w w' : Warp} {P Q : Nat → Nat → Option Bool} (h : PredsPut w w' P) (e : ∀ j n, j < 32 → n < 32 → Q j n = P j n) :
    PredsPut w w' Q := ⟨h.rest, fun j n hj hn => by rw [e j n hj hn]; exact h.bit j n hj hn⟩

theorem predBit_zero (w : Warp) (j : Nat) : w.predBit j 0 = true := by
  unfold Warp.predBit Warp.pred
  simp

/-- The predicate word after a write of a predicate that may be written. -/
theorem setPred_pred (w : Warp) (j n : Nat) (b : Bool) (i : Nat) (hn : ¬ (n = 0 ∨ 32 ≤ n)) (hi : i < 32) :
    (setPred w j n b).pred i = if i = j then (if b then w.pred j ||| laneBit n else w.pred j &&& ~~~laneBit n) ||| 1 else w.pred i := by
  unfold setPred
  rw [if_neg hn]
  unfold Warp.pred
  dsimp only
  rw [vecAt_vecPut]
  by_cases e : i = j
  · subst e
    rw [if_pos ⟨rfl, hi⟩, if_pos rfl]
  · rw [if_neg fun h => e h.1.symm, if_neg e]

theorem setPred_put (w : Warp) (j n : Nat) (b : Bool) :
    PredsPut w (setPred w j n b) fun i r => if i = j ∧ r = n ∧ n ≠ 0 then some b else none := by
  by_cases hn : n = 0 ∨ 32 ≤ n
  · have same : setPred w j n b = w := if_pos hn
    rw [same]
    exact (PredsPut.refl w).congr fun i r _ hr => if_neg (by omega)
  · refine ⟨by simp only [setPred, if_neg hn], fun i r hi hr => ?_⟩
    by_cases r0 : r = 0
    · subst r0
      rw [predBit_zero, predBit_zero, if_neg (by omega)]
      rfl
    · have bit := laneBit_inSet (j := n) hr
      have one : (1 : Word).getLsbD r = false := by simp [r0]
      unfold Warp.predBit
      rw [setPred_pred w j n b i hn hi]
      by_cases e : i = j
      · subst e
        by_cases hrn : r = n
        · subst hrn
          cases b <;> simp_all [inSet]
        · cases b <;> simp_all [inSet]
      · simp [e]

/-- Consecutive predicates of one fibre, ascending. -/
theorem setPreds_put (j n : Nat) (l : List Bool) (len : Nat) (w : Warp) :
    PredsPut w ((List.range len).foldl (fun w i => setPred w j (n + i) (l.getD i false)) w)
      fun i r => if i = j ∧ r ≠ 0 ∧ n ≤ r ∧ r < n + len then some (l.getD (r - n) false) else none := by
  induction len with
  | zero => exact (PredsPut.refl w).congr fun i r _ _ => if_neg (by omega)
  | succ len ih =>
    rw [List.range_succ, List.foldl_append, List.foldl_cons, List.foldl_nil]
    refine (ih.trans (setPred_put _ j (n + len) _)).congr fun i r _ _ => ?_
    by_cases last : i = j ∧ r = n + len ∧ n + len ≠ 0
    · obtain ⟨rfl, rfl, h0⟩ := last
      rw [if_pos (by omega), if_pos (by omega), Nat.add_sub_cancel_left]
      rfl
    · rw [if_neg last, Option.none_or]
      by_cases early : i = j ∧ r ≠ 0 ∧ n ≤ r ∧ r < n + len
      · rw [if_pos early, if_pos (by omega)]
      · rw [if_neg early, if_neg (by omega)]

/-- The predicates that a word writes in the fibres of a set, from `n` on. -/
def predsAt (lanes : Lanes) (n : Nat) (f : Nat → List Bool) (j r : Nat) : Option Bool :=
  if inSet lanes j = true ∧ r ≠ 0 ∧ n ≤ r ∧ r < n + (f j).length then some ((f j).getD (r - n) false) else none

theorem foldl_setPreds_put (n : Nat) (f : Nat → List Bool) (ls : List Nat) (w : Warp) :
    PredsPut w (ls.foldl (fun w j => (List.range (f j).length).foldl (fun w i => setPred w j (n + i) ((f j).getD i false)) w) w)
      fun j r => if j ∈ ls ∧ r ≠ 0 ∧ n ≤ r ∧ r < n + (f j).length then some ((f j).getD (r - n) false) else none := by
  induction ls generalizing w with
  | nil => exact (PredsPut.refl w).congr fun j r _ _ => if_neg (fun h => by cases h.1)
  | cons a ls ih =>
    rw [List.foldl_cons]
    refine ((setPreds_put a n (f a) (f a).length w).trans (ih _)).congr fun j r _ _ => ?_
    by_cases hin : r ≠ 0 ∧ n ≤ r ∧ r < n + (f j).length
    · by_cases hja : j = a
      · subst hja
        by_cases hjl : j ∈ ls <;> simp [hin, hjl]
      · by_cases hjl : j ∈ ls <;> simp [hin, hjl, hja]
    · rw [if_neg (fun h => hin h.2), if_neg (fun h => hin h.2), if_neg (fun h : j = a ∧ _ => hin (h.1 ▸ h.2)), Option.none_or]

/-- A WRITE OF PREDICATES (R71). -/
theorem writePreds_effect (cx : Cx) (s : State) (lanes : Lanes) (n : Nat) (f : Nat → List Bool) :
    Effect cx.k s (cx.writePreds s lanes n f) fun v v' => PredsPut v v' (predsAt lanes n f) :=
  (effect_modWarp s cx.k _).mono fun v v' e => e ▸ (foldl_setPreds_put n f (lanesOf lanes) v).congr fun j r hj _ => by
    simp only [predsAt, lanesOf_mem, hj, true_and]

/-! ## How words that write predicates end -/

/-- What the end of a word leaves where its effect gave warp predicates and FSTAT, and warned. -/
theorem Cx.runs.ends_preds {cx : Cx} {i : OpInfo} {s : State} {k : Nat} {m : Lanes} {w w' : Warp} {g : Gang} {b : Block} {y fl : Word}
    {p : Vector Word 32} (h : cx.runs i s k m w g b)
    (he : Warp.ends { cx.w with warn := cx.w.warn ||| y, fstat := fl, preds := p } w') :
    w'.preds = p ∧ w'.fstat = fl ∧ Warp.becomes (fun v => { v with preds := w'.preds }) { w with fstat := w'.fstat } w' := by
  obtain ⟨hstill, x, hwarn⟩ := he
  have hp : w'.preds = p := by
    have e := congrArg Warp.preds hstill
    exact e
  have hf : w'.fstat = fl := by
    have e := congrArg Warp.fstat hstill
    exact e
  refine ⟨hp, hf, ?_, y ||| x, ?_⟩
  · rw [hstill, hp, hf]
    exact h.same (fun v => Warp.still { v with fstat := fl, preds := p }) rfl
  · rw [hwarn, BitVec.or_assoc]
    exact congrArg (· ||| (y ||| x)) (h.same Warp.warn rfl)

/-- WARN and FSTAT of a warp are added to, and nothing else. -/
def Warp.flagged (fl : Flags) (w w' : Warp) : Prop := ∃ y, w' = { w with warn := w.warn ||| y, fstat := w.fstat ||| fl.setWidth 32 }

theorem WarnsOnly.flagged {k : Nat} {s t : State} (h : WarnsOnly k s t) (fl : Flags) :
    Effect k s (t.modWarp k fun v => v.addFlags fl) (Warp.flagged fl) :=
  (h.effect.trans (effect_modWarp t k _)).mono fun v v' ⟨u, ⟨y, hu⟩, e⟩ => ⟨y, by rw [e, hu]; rfl⟩

section
variable {s : State} {k : Nat} {m : Lanes} {w : Warp} {g : Gang} {b : Block} {i : OpInfo} {body : Cx → State → Res}
  (h : Issuing s k m w g b) (hp : i.plain) (hrole : (i.allowed g.pfx).contains w.role = true) (hl : ∀ c, c ∈ i.srcs → w.latched m c)
include h hp hrole hl

/-- A WORD THAT WRITES PREDICATES (R71), with the flags that it raises. -/
theorem leaves_flags_preds {fl : Flags} {first : Nat} {f : Nat → List Bool}
    (hrun : ∀ cx : Cx, cx.runs i s k m w g b → ∃ n f', body cx (s.setWarp k cx.w) = .done (cx.writePreds n cx.q first f') none ∧
      Effect k (s.setWarp k cx.w) n (Warp.flagged fl) ∧ f' = f) :
    Leaves s (issue i s body) k m g fun v v' => v'.fstat = v.fstat ||| fl.setWidth 32 ∧
      Warp.setsPreds (guarded w m i.g) first f { v with fstat := v'.fstat } v' := by
  have runs := contextOf_runs hp s k m w g b
  obtain ⟨n, f', hdone, hn, rfl⟩ := hrun _ runs
  refine leaves_of_done h (barred_of_latched s k b hp hrole hl) hdone
    (hn.trans (writePreds_effect (contextOf i s k m w g b) n _ first f')) ?_ ?_
  · rintro v ⟨u, ⟨y, rfl⟩, put⟩
    rw [put.rest]
    exact ⟨rfl, rfl, rfl⟩
  · rintro v v' ⟨u, ⟨y, rfl⟩, put⟩ he
    have before := put.bit
    rw [put.rest] at he
    obtain ⟨hpreds, hfstat, hbecomes⟩ := runs.ends_preds he
    refine ⟨hfstat.trans (congrArg (· ||| fl.setWidth 32) (runs.same Warp.fstat rfl)), hbecomes, fun j r hj hr => ?_⟩
    have after : v'.predBit j r = v.predBit j r := by
      unfold Warp.predBit Warp.pred
      rw [hpreds]
    rw [after, before j r hj hr, runs.fibres]
    have old := runs.predBit j r
    unfold predsAt
    split
    · rfl
    · exact old

theorem leaves_preds {first : Nat} {f : Nat → List Bool}
    (hrun : ∀ cx : Cx, cx.runs i s k m w g b → ∃ n f', body cx (s.setWarp k cx.w) = .done (cx.writePreds n cx.q first f') none ∧
      WarnsOnly k (s.setWarp k cx.w) n ∧ f' = f) :
    Leaves s (issue i s body) k m g (Warp.setsPreds (guarded w m i.g) first f) := by
  refine (leaves_flags_preds (fl := 0) (first := first) (f := f) h hp hrole hl fun cx hx => ?_).mono fun v v' _ hv => ?_
  · obtain ⟨n, f', hdone, hn, hf⟩ := hrun cx hx
    exact ⟨n, f', hdone, hn.effect.mono fun v v' ⟨y, e⟩ => ⟨y, by rw [e]; simp⟩, hf⟩
  · obtain ⟨hfstat, hset⟩ := hv
    have same : v'.fstat = v.fstat := by simpa using hfstat
    rw [same] at hset
    exact hset

/-- A WORD THAT WRITES THE PREDICATE WORD, p0 kept set (R71, R89). -/
theorem leaves_predWord {x : Nat → Word}
    (hrun : ∀ cx : Cx, cx.runs i s k m w g b → ∃ n x', body cx (s.setWarp k cx.w) = .done (n.modWarp k fun v =>
        { v with preds := vecOf 32 fun j => if inSet cx.q j then x' j ||| 1 else vecAt v.preds j 1 }) none ∧
      WarnsOnly k (s.setWarp k cx.w) n ∧ x' = x) :
    Leaves s (issue i s body) k m g fun v v' => Warp.becomes (fun v => { v with preds := v'.preds }) v v' ∧
      ∀ j, j < 32 → v'.pred j = if inSet (guarded w m i.g) j then x j ||| 1 else v.pred j := by
  have runs := contextOf_runs hp s k m w g b
  obtain ⟨n, x', hdone, hn, rfl⟩ := hrun _ runs
  refine leaves_of_done h (barred_of_latched s k b hp hrole hl) hdone (hn.effect.trans (effect_modWarp n k _)) ?_ ?_
  · rintro v ⟨u, ⟨y, rfl⟩, rfl⟩
    exact ⟨rfl, rfl, rfl⟩
  · rintro v v' ⟨u, ⟨y, rfl⟩, rfl⟩ he
    obtain ⟨hpreds, hfstat, hbecomes⟩ := runs.ends_preds (fl := (contextOf i s k m w g b).w.fstat) he
    rw [hfstat, runs.same Warp.fstat rfl] at hbecomes
    refine ⟨hbecomes, fun j hj => ?_⟩
    unfold Warp.pred
    rw [hpreds, vecAt_vecOf _ _ _ hj, runs.fibres]
    split
    · rw [BitVec.or_assoc, BitVec.or_self]
    · exact congrArg (· ||| 1) (runs.same (fun v => vecAt v.preds j 1) rfl)

end

/-! ## How words that write a destination end -/

theorem regCode_first (d : Code) (wide : Bool) : regCode d wide = Operand.first (d, if wide then 2 else 1) := by
  unfold regCode Operand.first pairCode
  cases wide <;> simp

theorem dstWords_low (base : Nat → Nat) (d : Code) (wide : Bool) (lanes : Lanes) (v : Nat → DWord) (j : Nat) (hd : d.toNat < 96)
    (hj : inSet lanes j = true) : dstWords base d wide lanes v (base j + regCode d wide) j = some ((v j).setWidth 32) := by
  unfold dstWords
  rw [if_pos ⟨hd, hj⟩, if_neg (by omega), if_pos rfl]

theorem dstWords_high (base : Nat → Nat) (d : Code) (lanes : Lanes) (v : Nat → DWord) (j : Nat) (hd : d.toNat < 96)
    (hj : inSet lanes j = true) : dstWords base d true lanes v (base j + regCode d true + 1) j = some ((v j).extractLsb' 32 32) := by
  unfold dstWords
  rw [if_pos ⟨hd, hj⟩, if_pos ⟨rfl, by omega⟩]

theorem dstScalars_low (d : Code) (wide : Bool) (lanes : Lanes) (v : Nat → DWord) (j : Nat) (hd : 96 ≤ d.toNat ∧ d.toNat < 112)
    (hj : lowestLane lanes = some j) : dstScalars d wide lanes v (regCode d wide - 96) = some ((v j).setWidth 32) := by
  unfold dstScalars
  rw [if_pos hd, hj]
  dsimp only
  rw [if_neg (by omega), if_pos rfl]

theorem dstScalars_high (d : Code) (lanes : Lanes) (v : Nat → DWord) (j : Nat) (hd : 96 ≤ d.toNat ∧ d.toNat < 112)
    (hj : lowestLane lanes = some j) : dstScalars d true lanes v (regCode d true - 96 + 1) = some ((v j).extractLsb' 32 32) := by
  unfold dstScalars
  rw [if_pos hd, hj]
  dsimp only
  rw [if_pos ⟨rfl, rfl⟩]

theorem halves_append (x : DWord) : x.extractLsb' 32 32 ++ x.setWidth 32 = x := by
  apply BitVec.eq_of_getLsbD_eq
  intro i hi
  rw [BitVec.getLsbD_append, BitVec.getLsbD_setWidth, BitVec.getLsbD_extractLsb']
  by_cases low : i < 32
  · simp [low]
  · have e : 32 + (i - 32) = i := by omega
    have e' : i - 32 < 32 := by omega
    simp [low, e, e']

theorem pair_of_halves {hi lo : Word} {x : DWord} (high : hi = x.extractLsb' 32 32) (low : lo = x.setWidth 32) : hi ++ lo = x := by
  rw [high, low]
  exact halves_append x

section
variable {w w' : Warp} {d : Code} {wide : Bool} {lanes : Lanes} {v : Nat → DWord}

/-- Registers outside a destination stand (R23, R164). -/
theorem onlyWrites_of_own (own : PipeOwn w w' (dstWords w.base d wide lanes v) (dstScalars d wide lanes v) 0 none) :
    OnlyWrites w w' (w.dstRow lanes (d, if wide then 2 else 1)) (dstScalar (d, if wide then 2 else 1)) := by
  obtain ⟨bare, len, waits, warn, flags, ⟨-, -, lane, valid, scalar⟩ | ⟨_, e, -⟩⟩ := own
  case inr => cases e
  have first := regCode_first d wide
  refine ⟨bare, len, waits, fun r j hr hj hout _ => ?_, fun c hc hout => ?_, warn, flags⟩
  · have unwritten : dstWords w.base d wide lanes v r j = none := Option.not_isSome_iff_eq_none.mp fun written => by
      obtain ⟨h96, hl, i, hi, e⟩ := dstWords_some written
      exact hout ⟨h96, hl, i, hi, by unfold Warp.rowOf; rw [← first]; exact e⟩
    rw [lane r j hr hj, valid r j hr hj, unwritten]
    exact ⟨rfl, Bool.false_or _⟩
  · have unwritten : dstScalars d wide lanes v c = none := Option.not_isSome_iff_eq_none.mp fun written => by
      obtain ⟨h96, h112, i, hi, e⟩ := dstScalars_some written
      exact hout ⟨h96, h112, i, hi, by rw [← first]; exact e⟩
    rw [scalar c hc, unwritten]
    rfl

/-- A destination holds the values written, where nothing else of the registers changes (R23, R24, R164). -/
theorem takes_of_own (hd : w.writable lanes (d, if wide then 2 else 1))
    (own : PipeOwn w w' (dstWords w.base d wide lanes v) (dstScalars d wide lanes v) 0 none)
    (hs : w'.subrpl = w.subrpl) (hc : w'.collide = w.collide) : Warp.takes lanes (d, if wide then 2 else 1) v w w' := by
  have only := onlyWrites_of_own own
  obtain ⟨bare, -, -, -, -, ⟨reuse, fstat, lane, -, scalar⟩ | ⟨_, e, -⟩⟩ := own
  case inr => cases e
  have base := sameBases bare
  have first := regCode_first d wide
  refine ⟨only, ⟨by simpa using fstat, hs, reuse, hc⟩, ?_, ?_⟩
  · intro h96 j hj hl
    have row : ∀ i, i < (if wide then 2 else 1) → laneWord (w'.row (w'.rowOf (d, if wide then 2 else 1) j i)).data j =
        (dstWords w.base d wide lanes v (w.base j + regCode d wide + i) j).getD
          (laneWord (w.row (w.base j + regCode d wide + i)).data j) := by
      intro i hi
      have inside := (hd.1 h96 j hj hl i hi).1
      have e : w'.rowOf (d, if wide then 2 else 1) j i = w.base j + regCode d wide + i := by unfold Warp.rowOf; rw [base, first]
      unfold Warp.rowOf at inside
      rw [← first] at inside
      rw [e]
      exact lane _ j inside hj
    have low := row 0 (by cases wide <;> simp)
    rw [Nat.add_zero, dstWords_low _ _ _ _ _ _ h96 hl, Option.getD_some] at low
    unfold Warp.reg
    rw [if_pos h96]
    cases wide with
    | false => exact congrArg (BitVec.setWidth 64) low
    | true =>
      have high := row 1 (by simp)
      rw [dstWords_high _ _ _ _ _ h96 hl, Option.getD_some] at high
      exact pair_of_halves high low
  · intro h96 h112 j hl
    have fits : regCode d wide - 96 + (if wide then 1 else 0) < 16 := by
      unfold regCode pairCode
      change 96 ≤ d.toNat at h96
      change d.toNat < 112 at h112
      cases wide <;> simp <;> omega
    have low := scalar (regCode d wide - 96) (by omega)
    rw [dstScalars_low _ _ _ _ _ ⟨h96, h112⟩ hl, Option.getD_some, first] at low
    unfold Warp.reg
    rw [if_neg (Nat.not_lt.mpr h96)]
    cases wide with
    | false => exact congrArg (BitVec.setWidth 64) low
    | true =>
      have high := scalar (regCode d true - 96 + 1) fits
      rw [dstScalars_high _ _ _ _ ⟨h96, h112⟩ hl, Option.getD_some, first] at high
      exact pair_of_halves high low

end

theorem Written.counts {w w' : Warp} {P : Nat → Nat → Option Word} {S : Nat → Option Word} (h : Written w w' P S) :
    w'.subrpl = w.subrpl ∧ w'.collide = w.collide ∧ w.onCourse w' := by
  have field : ∀ {α : Type} (f : Warp → α), (∀ v : Warp, f { v with rows := [], sregs := vecOf 16 fun _ => 0 } = f v) → f w' = f w :=
    fun f hf => by rw [← hf w', h.rest, hf]
  exact ⟨field Warp.subrpl fun _ => rfl, field Warp.collide fun _ => rfl, field Warp.gangs fun _ => rfl, field Warp.intrap fun _ => rfl,
    field Warp.trapcause fun _ => rfl⟩

theorem still_counts {w w' : Warp} (h : w'.still = w.still) : w'.subrpl = w.subrpl ∧ w'.collide = w.collide := by
  simp only [Warp.still, Warp.mk.injEq] at h
  simp_all

/-- A WORD THAT WRITES A DESTINATION (R23, R24, R25). -/
theorem leaves_takes {s : State} {k : Nat} {m : Lanes} {w : Warp} {g : Gang} {b : Block} {i : OpInfo} {body : Cx → State → Res}
    {d : Code} {wide : Bool} {lanes : Lanes} {v : Nat → DWord} (h : Issuing s k m w g b) (hp : i.plain)
    (hrole : (i.allowed g.pfx).contains w.role = true) (hl : ∀ c, c ∈ i.srcs → w.latched m c)
    (hd : w.writable lanes (d, if wide then 2 else 1))
    (hrun : ∀ cx : Cx, cx.runs i s k m w g b → ∃ n v', body cx (s.setWarp k cx.w) = .done (cx.writeDst n d wide lanes v') none ∧
      WarnsOnly k (s.setWarp k cx.w) n ∧ v' = v) :
    Leaves s (issue i s body) k m g (Warp.takes lanes (d, if wide then 2 else 1) v) := by
  have runs := contextOf_runs hp s k m w g b
  obtain ⟨n, v', hdone, hn, rfl⟩ := hrun _ runs
  refine leaves_of_done h (barred_of_latched s k b hp hrole hl) hdone
    (hn.effect.trans (writeDst_written (contextOf i s k m w g b) n d wide lanes v').effect) ?_ ?_
  · rintro u ⟨x, ⟨y, rfl⟩, wr⟩
    exact wr.counts.2.2
  · rintro u u' ⟨x, hx, wr⟩ ⟨still, warn⟩
    obtain ⟨xstill, xwarn⟩ := runs.ends_warned hx
    obtain ⟨hs, hc, -⟩ := wr.counts
    rw [runs.same Warp.base rfl] at wr
    refine takes_of_own hd (((PipeOwn.of_calced wr.calced none).before still warn).after xstill xwarn) ?_ ?_
    · exact ((still_counts still).1.trans hs).trans (still_counts xstill).1
    · exact ((still_counts still).2.trans hc).trans (still_counts xstill).2

/-! ## The words of majors 0x10 to 0x17 -/

theorem pInfo_plain (op f7 : Nat) (gd : BitVec 4) (l : List Code) (rsv : Bool) : (pInfo op f7 gd l rsv).plain := ⟨rfl, rfl, rfl, rfl, rfl⟩

/-- Every role issues a predicate word (R289). -/
theorem pInfo_role (op f7 : Nat) (gd : BitVec 4) (l : List Code) (rsv : Bool) (p : Pfx) (w : Warp) :
    ((pInfo op f7 gd l rsv).allowed p).contains w.role = true := by
  cases hr : w.role <;> rfl

/-- The predicate that a compare or a vote names (R50). -/
theorem predDst_named (d : Code) : predDst d = namedPred d := by simp only [predDst, namedPred, isLatch, decide_eq_true_eq]

theorem Cx.runs.word {cx : Cx} {i : OpInfo} {s : State} {k : Nat} {m : Lanes} {w : Warp} {g : Gang} {b : Block}
    (hx : cx.runs i s k m w g b) (a : Code) (ha : a ∈ i.srcs) : cx.val32 { code := a } = (seenBy false s k m w g b).word a :=
  congrArg (fun v j => BitVec.setWidth 32 (v j)) (hx.val { code := a } ha)

/-! ### plog and pmov (R88, R89) -/

/-- The truth table of `plog` is one number of two fields. -/
theorem table_bit (x y : BitVec 2) (i : Nat) : (x.toNat * 4 + y.toNat).testBit i = (x ++ y).getLsbD i := by
  have e : (x ++ y).toNat = x.toNat * 4 + y.toNat := by
    rw [BitVec.toNat_append, ← Nat.shiftLeft_add_eq_or_of_lt y.isLt, Nat.shiftLeft_eq]
  rw [← e]
  rfl

/-- How `plog` combines with the old predicate. -/
theorem plog_combine (r : BitVec 2) (old f : Bool) :
    (match r.toNat with
      | 1 => old && f
      | 2 => old || f
      | _ => f) = if r = 1 then old && f else if r = 2 then old || f else f := by
  have one : r.toNat = 1 ↔ r = 1 := BitVec.toNat_inj (y := 1)
  have two : r.toNat = 2 ↔ r = 2 := BitVec.toNat_inj (y := 2)
  split
  · rename_i e
    rw [if_pos (one.mp e)]
  · rename_i e
    rw [if_neg (by rw [two.mp e]; decide), if_pos (two.mp e)]
  · rename_i e1 e2
    rw [if_neg (fun e => e1 (one.mpr e)), if_neg (fun e => e2 (two.mpr e))]

section
variable {s : State} {k : Nat} {m : Lanes} {w : Warp} {g : Gang} {b : Block} (h : Issuing s k m w g b)
include h

theorem plog_leaves (gd : BitVec 4) (d a c : Code) :
    ∃ t, exec (.plog gd d a c) s = .next t ∧ Leaves s t k m g (Warp.setsPreds (guarded w m gd) (d.extractLsb' 0 5).toNat fun j =>
      let f := (d.extractLsb' 5 2 ++ a.extractLsb' 5 2).getLsbD
        ((if w.predBit j (a.extractLsb' 0 5).toNat then 2 else 0) + (if w.predBit j (c.extractLsb' 0 5).toNat then 1 else 0))
      [if c.extractLsb' 5 2 = 1 then w.predBit j (d.extractLsb' 0 5).toNat && f
       else if c.extractLsb' 5 2 = 2 then w.predBit j (d.extractLsb' 0 5).toNat || f else f]) := by
  refine ⟨_, rfl, leaves_preds h (pInfo_plain _ _ _ _ _) (pInfo_role _ _ _ _ _ _ _) (fun c hc => by cases hc) fun cx hx =>
    ⟨_, _, rfl, hx.warns _ _, funext fun j => ?_⟩⟩
  simp only [hx.predBit, table_bit]
  exact congrArg (fun x => [x]) (plog_combine _ _ _)

theorem pmovGet_leaves (gd : BitVec 4) (d a : Code) (hd : w.writable (guarded w m gd) (d, 1)) :
    ∃ t, exec (.pmovGet gd d a) s = .next t ∧
      Leaves s t k m g (Warp.takes (guarded w m gd) (d, 1) fun j => (w.pred j).setWidth 64) := by
  refine ⟨_, rfl, leaves_takes (wide := false) h (pInfo_plain _ _ _ _ _) (pInfo_role _ _ _ _ _ _ _) (fun c hc => by cases hc) hd fun cx hx => ?_⟩
  have hq : cx.q = guarded w m gd := hx.fibres
  rw [← hq] at hd ⊢
  exact ⟨_, _, checked_none _ _ _ _ (hx.clear_writes (wide := false) hd), hx.warns _ _,
    funext fun j => congrArg (BitVec.setWidth 64) (hx.same (Warp.pred · j) rfl)⟩

theorem pmovSet_leaves (gd : BitVec 4) (d a : Code) (hr : w.readable (guarded w m gd) (a, 1)) (hl : w.latched m a) (hu : Unlogged s b [a]) :
    ∃ t, exec (.pmovSet gd d a) s = .next t ∧
      Leaves s t k m g fun v v' => Warp.becomes (fun v => { v with preds := v'.preds }) v v' ∧
        ∀ j, j < 32 → v'.pred j = if inSet (guarded v m gd) j then (seenBy false s k m w g b).word a j ||| 1 else v.pred j := by
  refine ⟨_, rfl, (leaves_predWord (x := (seenBy false s k m w g b).word a) h (pInfo_plain _ _ _ _ _) (pInfo_role _ _ _ _ _ _ _)
    (List.forall_mem_singleton.mpr hl) fun cx hx => ?_).mono fun v v' e hv => Option.some.inj (h.warp.symm.trans e) ▸ hv⟩
  have hq : cx.q = guarded w m gd := hx.fibres
  rw [← hq] at hr
  refine ⟨_, _, ?_, hx.noted (srcs := [{ code := a }]) hu (outside_setWarp s k cx.w) cx.q, hx.word a List.mem_cons_self⟩
  rw [← hx.number]
  exact checked_none _ _ _ _ (hx.clear_reads (x := { code := a }) hr)

end

/-! ### Votes (R90) -/

/-- The fibres of a set whose value is not 0. -/
def ballot (q : Lanes) (v : Nat → Word) : Lanes := (lanesOf q).foldl (fun m j => if v j ≠ 0 then m ||| laneBit j else m) 0

theorem votes_eq (cx : Cx) (x : Src) : cx.votes x = ballot cx.q (cx.val32 x) := rfl

theorem inSet_ballot (q : Lanes) (v : Nat → Word) (j : Nat) (hj : j < 32) : inSet (ballot q v) j = (inSet q j && decide (v j ≠ 0)) := by
  have e := inSet_foldl_or (fun i => decide (v i ≠ 0)) (lanesOf q) 0 j hj
  simp only [decide_eq_true_eq] at e
  unfold ballot
  rw [e]
  simp [lanesOf_mem, hj]

theorem lanes_ext {x y : Lanes} (h : ∀ j, j < 32 → inSet x j = inSet y j) : x = y := BitVec.eq_of_getLsbD_eq h

/-- Some fibre votes true when the value of some is not 0. -/
theorem ballot_ne_zero (q : Lanes) (v : Nat → Word) : decide (ballot q v ≠ 0) = (lanesOf q).any fun j => decide (v j ≠ 0) := by
  rw [Bool.eq_iff_iff, decide_eq_true_eq, List.any_eq_true]
  constructor
  · intro some
    refine Classical.byContradiction fun none => some (lanes_ext fun j hj => ?_)
    have zero : inSet 0 j = false := BitVec.getLsbD_zero
    rw [zero, ← Bool.not_eq_true, inSet_ballot q v j hj, Bool.and_eq_true]
    exact fun both => none ⟨j, lanesOf_mem.mpr ⟨hj, both.1⟩, both.2⟩
  · rintro ⟨j, hm, hv⟩ none
    obtain ⟨hj, hq⟩ := lanesOf_mem.mp hm
    have e := inSet_ballot q v j hj
    rw [none, hq, hv] at e
    simp [inSet] at e

/-- Every fibre votes true when the value of each is not 0. -/
theorem ballot_eq_self (q : Lanes) (v : Nat → Word) : decide (ballot q v = q) = (lanesOf q).all fun j => decide (v j ≠ 0) := by
  rw [Bool.eq_iff_iff, decide_eq_true_eq, List.all_eq_true]
  constructor
  · intro e j hm
    obtain ⟨hj, hq⟩ := lanesOf_mem.mp hm
    have own := inSet_ballot q v j hj
    rw [e, hq, Bool.true_and] at own
    exact own.symm
  · intro every
    refine lanes_ext fun j hj => ?_
    rw [inSet_ballot q v j hj]
    cases hq : inSet q j with
    | false => rfl
    | true => rw [every j (lanesOf_mem.mpr ⟨hj, hq⟩), Bool.and_self]

section
variable {s : State} {k : Nat} {m : Lanes} {w : Warp} {g : Gang} {b : Block} (h : Issuing s k m w g b)
variable (gd : BitVec 4) (d a : Code) (hr : w.readable (guarded w m gd) (a, 1)) (hl : w.latched m a) (hu : Unlogged s b [a])
include hr hl hu h

theorem votePred_leaves (f7 : Nat) (r : Cx → Lanes → Bool) (x : Bool)
    (hval : ∀ cx : Cx, cx.q = guarded w m gd → r cx (ballot (guarded w m gd) ((seenBy false s k m w g b).word a)) = x) :
    Leaves s (votePred f7 gd d a r s) k m g (Warp.setsPreds (guarded w m gd) (namedPred d) fun _ => [x]) := by
  rw [← predDst_named]
  refine leaves_preds h (pInfo_plain _ _ _ _ _) (pInfo_role _ _ _ _ _ _ _) (List.forall_mem_singleton.mpr hl) fun cx hx => ?_
  have hq : cx.q = guarded w m gd := hx.fibres
  rw [← hq] at hr
  refine ⟨_, _, checked_none _ _ _ _ (hx.clear_reads (x := { code := a }) hr), hx.noted_warns (srcs := [{ code := a }]) hu _,
    funext fun _ => congrArg (fun y => [y]) ?_⟩
  rw [votes_eq, hx.word a List.mem_cons_self, hq]
  exact hval cx hq

theorem voteReg_leaves (hd : w.writable (guarded w m gd) (d, 1)) (f7 : Nat) (r : Cx → Src → Word) (x : DWord)
    (hval : ∀ cx : Cx, cx.q = guarded w m gd → cx.val32 { code := a } = (seenBy false s k m w g b).word a →
      (r cx { code := a }).setWidth 64 = x) :
    Leaves s (voteReg f7 gd d a r s) k m g (Warp.takes (guarded w m gd) (d, 1) fun _ => x) := by
  refine leaves_takes (wide := false) h (pInfo_plain _ _ _ _ _) (pInfo_role _ _ _ _ _ _ _) (List.forall_mem_singleton.mpr hl) hd fun cx hx => ?_
  have hq : cx.q = guarded w m gd := hx.fibres
  rw [← hq] at hr hd ⊢
  have clear := List.forall_mem_append.mpr ⟨hx.clear_reads (x := { code := a }) hr, hx.clear_writes (wide := false) hd⟩
  exact ⟨_, _, checked_none _ _ _ _ clear, hx.noted_warns (srcs := [{ code := a }]) hu _,
    funext fun _ => hval cx hq (hx.word a List.mem_cons_self)⟩

theorem voteAnyAll_leaves :
    let q := guarded w m gd
    let v := (seenBy false s k m w g b).word a
    (∃ t, exec (.voteAny gd d a) s = .next t ∧ Leaves s t k m g (Warp.setsPreds q (namedPred d) fun _ =>
      [(lanesOf q).any fun j => decide (v j ≠ 0)])) ∧
    (∃ t, exec (.voteAll gd d a) s = .next t ∧ Leaves s t k m g (Warp.setsPreds q (namedPred d) fun _ =>
      [(lanesOf q).all fun j => decide (v j ≠ 0)])) :=
  ⟨⟨_, rfl, votePred_leaves h gd d a hr hl hu 0 _ _ fun _ _ => ballot_ne_zero _ _⟩,
   ⟨_, rfl, votePred_leaves h gd d a hr hl hu 1 _ _ fun _ hq => hq ▸ ballot_eq_self _ _⟩⟩

theorem voteBallot_leaves (hd : w.writable (guarded w m gd) (d, 1)) :
    ∃ t, exec (.voteBallot gd d a) s = .next t ∧ Leaves s t k m g (Warp.takes (guarded w m gd) (d, 1) fun _ =>
      (ballot (guarded w m gd) ((seenBy false s k m w g b).word a)).setWidth 64) :=
  ⟨_, rfl, voteReg_leaves h gd d a hr hl hu hd 2 _ _ fun cx hq hv => by rw [votes_eq, hq, hv]⟩

theorem voteUni_leaves (hd : w.writable (guarded w m gd) (d, 1)) :
    let q := guarded w m gd
    let v := (seenBy false s k m w g b).word a
    ∃ t, exec (.voteUni gd d a) s = .next t ∧ Leaves s t k m g (Warp.takes q (d, 1) fun _ =>
      if (lanesOf q).all fun j => decide (v j = v ((lanesOf q).headD 0)) then 1 else 0) :=
  ⟨_, rfl, voteReg_leaves h gd d a hr hl hu hd 3 _ _ fun cx hq hv => by
    dsimp only
    rw [hq, hv, apply_ite (BitVec.setWidth 64)]
    rfl⟩

end

/-- Settles O16: each word writes what it takes from its fibres' predicates or values, in the fibres whose guard is true alone. -/
theorem predicatesAndVotes : Obligations.PredicatesAndVotes := by
  refine ⟨fun s k m w g b h => ⟨plog_leaves h, pmovGet_leaves h, pmovSet_leaves h⟩, fun s k m w g b gd d a h => ?_⟩
  intro q v hr hl hu
  obtain ⟨any, all⟩ := voteAnyAll_leaves h gd d a hr hl hu
  refine ⟨any, all, fun hd => ⟨?_, voteUni_leaves h gd d a hr hl hu hd⟩⟩
  obtain ⟨t, ht, leaves⟩ := voteBallot_leaves h gd d a hr hl hu hd
  exact ⟨t, ht, leaves.mono fun _ _ _ takes => ⟨_, inSet_ballot q v, takes⟩⟩

/-! ### Operands at the current types -/

section
variable {s : State} {k : Nat} {m : Lanes} {w : Warp} {g : Gang} {b : Block} {i : OpInfo} {cx : Cx}

theorem seenBy_runs (s : State) (k : Nat) (m : Lanes) (w : Warp) (g : Gang) (b : Block) :
    (seenBy false s k m w g b).runs { op := 0x18, producer := true, ext := true, sat := false } s k m w g b :=
  contextOf_runs ⟨rfl, rfl, rfl, rfl, rfl⟩ s k m w g b

variable (hx : cx.runs i s k m w g b)
include hx

/-- An operand at TI reads as `seenBy` says. -/
theorem Cx.runs.ti {a : Code} (ha : a ∈ i.srcs) : cx.val (cx.tiSrc a) = (seenBy false s k m w g b).ti a := by
  have type : cx.w.itype = (seenBy false s k m w g b).w.itype :=
    (hx.same Warp.itype rfl).trans ((seenBy_runs s k m w g b).same Warp.itype rfl).symm
  rw [hx.val (cx.tiSrc a) ha]
  unfold Cx.ti Cx.tiSrc
  rw [type]

/-- An operand at TF reads as `seenBy` says. -/
theorem Cx.runs.tf {a : Code} (ha : a ∈ i.srcs) : cx.val (cx.tfSrc a) = (seenBy false s k m w g b).tf a := by
  have type : cx.w.tf = (seenBy false s k m w g b).w.tf := (hx.same Warp.tf rfl).trans ((seenBy_runs s k m w g b).same Warp.tf rfl).symm
  have wide : cx.w.fwide = (seenBy false s k m w g b).w.fwide :=
    (hx.same Warp.fwide rfl).trans ((seenBy_runs s k m w g b).same Warp.fwide rfl).symm
  rw [hx.val (cx.tfSrc a) ha]
  unfold Cx.tf Cx.tfSrc
  rw [type, wide]

theorem Cx.runs.clear_ti {a : Code} {l : Lanes} (hr : w.readable l (a, w.tiSize)) : ∀ u, u ∈ readsOf [cx.tiSrc a] l → cx.clear u := by
  refine hx.clear_reads (x := cx.tiSrc a) ?_
  have type : (cx.tiSrc a).wide = w.itype.wide := congrArg IType.wide (hx.same Warp.itype rfl)
  rwa [type]

theorem Cx.runs.clear_tf {a : Code} {l : Lanes} (hr : w.readable l (a, w.tfSize)) : ∀ u, u ∈ readsOf [cx.tfSrc a] l → cx.clear u := by
  refine hx.clear_reads (x := cx.tfSrc a) ?_
  have type : (cx.tfSrc a).wide = w.fwide := hx.same Warp.fwide rfl
  rwa [type]

/-- The immediate of a word that takes a chain reads as `seenBy` says (R32 to R35). -/
theorem Cx.runs.imm (hext : i.ext = true) (as_ : ImmAs) :
    BitVec.ofNat 64 (cx.immX as_).1 = (seenBy false s k m w g b).imm i.imm7 as_ := by
  have chain := hx.chain hext
  have sat : cx.sat = (seenBy false s k m w g b).sat := hx.sat.trans (seenBy_runs s k m w g b).sat.symm
  unfold Cx.imm Cx.immX Cx.xWidth Cx.xBits
  rw [chain, sat, hx.info]

end

/-! ### Compares (R91 to R93) -/

theorem cmpInfo_plain (op f7 : Nat) (gd : BitVec 4) (d : Code) (l : List Code) : (cmpInfo op f7 gd d l).plain := ⟨rfl, rfl, rfl, rfl, rfl⟩

/-- The frame's description of a compare with an immediate. -/
def cmpiInfo (gd : BitVec 4) (d a n : Code) : OpInfo := { cmpInfo 0x14 0 gd d [a] with ext := true, imm7 := n, immBits := n.toNat }

/-- The roles that issue a compare (R25, R289). -/
theorem vectorRole_issues {w : Warp} (hv : w.vectorRole) : [Role.gen, .vec].contains w.role = true := by
  rcases hv with e | e <;> rw [e] <;> rfl

theorem flagIf_setWidth (x : Bool) (f : Flags) : (flagIf x f).setWidth 32 = if x then f.setWidth 32 else 0 := by
  cases x <;> rfl

section
variable {s : State} {k : Nat} {m : Lanes} {w : Warp} {g : Gang} {b : Block} (h : Issuing s k m w g b) (hv : w.vectorRole)
  (gd : BitVec 4) (d : Code) {a : Code} (hl : w.latched m a) (hu : Unlogged s b [a])
include h hv hl hu

theorem cmp_leaves (hr : w.readable (guarded w m gd) (a, w.tiSize)) (c : Code) (hrc : w.readable (guarded w m gd) (c, w.tiSize))
    (hlc : w.latched m c) (huc : Unlogged s b [c]) :
    ∃ t, exec (.cmp gd d a c) s = .next t ∧ Leaves s t k m g (Warp.setsPreds (guarded w m gd) (namedPred d) fun j =>
      intOrder w.itype ((seenBy false s k m w g b).ti a j) ((seenBy false s k m w g b).ti c j)) := by
  refine ⟨_, rfl, predDst_named d ▸ leaves_preds h (cmpInfo_plain _ _ _ _ _) (vectorRole_issues hv)
    (List.forall_mem_cons.mpr ⟨hl, List.forall_mem_singleton.mpr hlc⟩) fun cx hx => ?_⟩
  have hq : cx.q = guarded w m gd := hx.fibres
  rw [← hq] at hr hrc
  refine ⟨_, _, checked_none _ _ _ _ (List.forall_mem_append.mpr ⟨hx.clear_ti hr, hx.clear_ti hrc⟩),
    hx.noted_warns (srcs := [cx.tiSrc a, cx.tiSrc c]) (hu.pair huc) _, funext fun j => ?_⟩
  rw [hx.same Warp.itype rfl, hx.ti List.mem_cons_self, hx.ti (List.mem_cons_of_mem _ List.mem_cons_self)]

theorem cmpi_leaves (hr : w.readable (guarded w m gd) (a, w.tiSize)) (n : Code) :
    ∃ t, exec (.cmpi gd d a n) s = .next t ∧ Leaves s t k m g (Warp.setsPreds (guarded w m gd) (namedPred d) fun j =>
      intOrder w.itype ((seenBy false s k m w g b).ti a j) ((seenBy false s k m w g b).imm n w.itype.imm)) := by
  refine ⟨_, rfl, predDst_named d ▸ leaves_preds (i := cmpiInfo gd d a n) h ⟨rfl, rfl, rfl, rfl, rfl⟩ (vectorRole_issues hv)
    (List.forall_mem_singleton.mpr hl) fun cx hx => ?_⟩
  have hq : cx.q = guarded w m gd := hx.fibres
  rw [← hq] at hr
  refine ⟨_, _, checked_none _ _ _ _ (hx.clear_ti hr), hx.noted_warns (srcs := [cx.tiSrc a]) hu _, funext fun j => ?_⟩
  rw [hx.same Warp.itype rfl, hx.ti List.mem_cons_self, hx.imm rfl]
  rfl

theorem fcmp_leaves (hr : w.readable (guarded w m gd) (a, w.tfSize)) (c : Code) (hrc : w.readable (guarded w m gd) (c, w.tfSize))
    (hlc : w.latched m c) (huc : Unlogged s b [c]) :
    let val := fun c j => fdec w.ftype (elemOf ((seenBy false s k m w g b).tf c j) w.ftype.width 0)
    ∃ t, exec (.fcmp gd d a c) s = .next t ∧ Leaves s t k m g fun v v' =>
      v'.fstat = v.fstat ||| (flagIf ((lanesOf (guarded w m gd)).any fun j => (val a j).isSig || (val c j).isSig) flNV).setWidth 32 ∧
      Warp.setsPreds (guarded w m gd) (namedPred d) (fun j => fltOrder (val a j) (val c j)) { v with fstat := v'.fstat } v' := by
  refine ⟨_, rfl, predDst_named d ▸ leaves_flags_preds h (cmpInfo_plain _ _ _ _ _) (vectorRole_issues hv)
    (List.forall_mem_cons.mpr ⟨hl, List.forall_mem_singleton.mpr hlc⟩) fun cx hx => ?_⟩
  have hq : cx.q = guarded w m gd := hx.fibres
  obtain rfl := hx.number
  have noted := hx.noted_warns (srcs := [cx.tfSrc a, cx.tfSrc c]) (hu.pair huc) (predWarn (predDst d) 4)
  rw [← hq] at hr hrc ⊢
  simp only [← hx.same Warp.ftype rfl, ← hx.tf (a := a) List.mem_cons_self, ← hx.tf (a := c) (List.mem_cons_of_mem _ List.mem_cons_self)]
  exact ⟨_, _, checked_none _ _ _ _ (List.forall_mem_append.mpr ⟨hx.clear_tf hr, hx.clear_tf hrc⟩), noted.flagged _, rfl⟩

theorem fcls_leaves (hr : w.readable (guarded w m gd) (a, w.tfSize)) (x : Code) :
    ∃ t, exec (.fcls gd d a x) s = .next t ∧ Leaves s t k m g (Warp.setsPreds (guarded w m gd) (namedPred d) fun j =>
      [inClass w.ftype x (elemOf ((seenBy false s k m w g b).tf a j) w.ftype.width 0)]) := by
  refine ⟨_, rfl, predDst_named d ▸ leaves_preds h (cmpInfo_plain _ _ _ _ _) (vectorRole_issues hv) (List.forall_mem_singleton.mpr hl)
    fun cx hx => ?_⟩
  have hq : cx.q = guarded w m gd := hx.fibres
  rw [← hq] at hr
  refine ⟨_, _, checked_none _ _ _ _ (hx.clear_tf hr), hx.noted_warns (srcs := [cx.tfSrc a]) hu _, funext fun j => ?_⟩
  rw [hx.same Warp.ftype rfl, hx.tf List.mem_cons_self]

end

/-! ### Selection (R94; log 12) -/

/-- The frame's description of `sel`. -/
def selInfo (gd : BitVec 4) (d a c : Code) : OpInfo := { pInfo 0x17 0 gd [a, c] false with dst := some d }

theorem selInfo_plain (gd : BitVec 4) (d a c : Code) : (selInfo gd d a c).plain := ⟨rfl, rfl, rfl, rfl, rfl⟩

/-- The scalar pipe takes a `sel` of any role, the vector pipe those of `gen` and `vec` warps (R25, R289). -/
theorem selInfo_role (gd : BitVec 4) (d a c : Code) (p : Pfx) {w : Warp}
    (hrole : w.vectorRole ∨ (scalarCode a && scalarCode c && scalarDst d) = true) : ((selInfo gd d a c).allowed p).contains w.role = true := by
  have reads := (selInfo_plain gd d a c).reads p
  have all : ((selInfo gd d a c).reads p).all scalarCode = (scalarCode a && scalarCode c) := by
    rw [reads]
    simp [selInfo, pInfo]
  unfold OpInfo.allowed
  rw [all]
  by_cases hs : (scalarCode a && scalarCode c && scalarDst d) = true
  · simp only [selInfo, if_pos hs]
    cases w.role <;> rfl
  · simp only [selInfo, if_neg hs]
    exact vectorRole_issues (hrole.resolve_right hs)

/-- A source of `sel` at the width of TI. -/
def selSrc (w : Warp) (e : Code) : Src := { code := e, wide := w.itype.wide, imm := .int (if w.itype.wide then 64 else 32) }

/-- Of two sources, the one that a fibre's guard chooses depends on what they hold alone. -/
theorem chosen_congr (q : Lanes) (j : Nat) {x x' y y' : Nat → DWord} (first : x = x') (second : y = y') :
    (if inSet q j then x j else y j) = if inSet q j then x' j else y' j := by
  rw [first, second]

theorem sel_leaves {s : State} {k : Nat} {m : Lanes} {w : Warp} {g : Gang} {b : Block} (h : Issuing s k m w g b) (gd : BitVec 4)
    (d a c : Code) (low : Nat) (lanes : Lanes) (hlow : lowestLane m = some low)
    (hlanes : lanes = if (scalarCode a && scalarCode c && scalarDst d) = true then laneBit low else m)
    (hrole : w.vectorRole ∨ (scalarCode a && scalarCode c && scalarDst d) = true)
    (hla : w.latched m a) (hlc : w.latched m c) (hu : Unlogged s b [a, c])
    (hra : w.readable (lanes &&& guarded w m gd) (a, w.tiSize)) (hrc : w.readable (lanes &&& ~~~guarded w m gd) (c, w.tiSize))
    (hd : w.writable lanes (d, w.tiSize)) :
    let val := fun e j => (seenBy false s k m w g b).val (selSrc w e) j
    ∃ t, exec (.sel gd d a c) s = .next t ∧
      Leaves s t k m g (Warp.takes lanes (d, w.tiSize) fun j => if inSet (guarded w m gd) j then val a j else val c j) := by
  refine ⟨_, rfl, leaves_takes (i := selInfo gd d a c) (wide := w.itype.wide) h (selInfo_plain gd d a c) (selInfo_role gd d a c g.pfx hrole)
    (List.forall_mem_cons.mpr ⟨hla, List.forall_mem_singleton.mpr hlc⟩) hd fun cx hx => ?_⟩
  have hq : cx.q = guarded w m gd := hx.fibres
  have hin : lanes = if (scalarCode a && scalarCode c && scalarDst d) = true then laneBit ((lowestLane cx.m).getD 0) else cx.m := by
    rw [hlanes, hx.lanes, hlow]
    rfl
  rw [← hq] at hra hrc ⊢
  dsimp only
  rw [hx.same Warp.itype rfl, ← hin]
  have clear := List.forall_mem_append.mpr
    ⟨List.forall_mem_append.mpr ⟨hx.clear_reads (x := selSrc w a) hra, hx.clear_reads (x := selSrc w c) hrc⟩, hx.clear_writes hd⟩
  have first := hx.noted (srcs := [selSrc w a]) (hu.mono (by simp [selSrc])) (outside_setWarp s k cx.w) (lanes &&& cx.q)
  have second := hx.noted (srcs := [selSrc w c]) (hu.mono (by simp [selSrc])) ((outside_setWarp s k cx.w).trans first.outside)
  refine ⟨_, _, checked_none _ _ _ _ clear, (first.trans (second _)).trans (hx.warns _ _), funext fun j => ?_⟩
  exact chosen_congr cx.q j (hx.val (selSrc w a) List.mem_cons_self)
    (hx.val (selSrc w c) (List.mem_cons_of_mem _ List.mem_cons_self))

/-- Settles O17: compares write the order of what the fibres' operands hold, and `sel` the operand that each fibre's guard chooses. That
the lowest active fibre's guard chooses for a scalar destination is the model's reading of R94 (log 12). -/
theorem comparesSet : Obligations.ComparesSet := by
  refine ⟨fun s k m w g b gd d a h hv => ?_, fun s k m w g b gd d a h hv => ?_, fun s k m w g b gd d a c low h => ?_⟩
  · intro q cx val hr hl hu
    exact ⟨cmp_leaves h hv gd d hl hu hr, cmpi_leaves h hv gd d hl hu hr⟩
  · intro q val order hr hl hu
    refine ⟨fun c hrc hlc huc => ?_, fcls_leaves h hv gd d hl hu hr⟩
    obtain ⟨t, ht, leaves⟩ := fcmp_leaves h hv gd d hl hu hr c hrc hlc huc
    refine ⟨t, ht, leaves.mono fun v v' _ ⟨hfstat, hset⟩ => ⟨?_, hset⟩⟩
    rw [hfstat, flagIf_setWidth]
  · intro n x lanes q cx val hlow hrole hla hlc hu hra hrc hd
    have scalar : x.scalar = (scalarCode a && scalarCode c && scalarDst d) := by simp [x, Shape.scalar]
    have hissues : w.vectorRole ∨ x.scalar = true := by
      rcases hrole with gen | vec | ⟨hsrcs, hdst⟩
      · exact .inl (.inl gen)
      · exact .inl (.inr vec)
      · exact .inr (Bool.and_eq_true_iff.mpr ⟨List.all_eq_true.mpr hsrcs, hdst⟩)
    rw [scalar] at hissues
    exact sel_leaves h gd d a c low lanes hlow (by rw [← scalar]) hissues hla hlc hu hra hrc hd

end Sys2Proof.Machine

/-! SUPPORT. Integer arithmetic of the pipes: what a word with sources and a destination at TI yields, and what its lanes deliver. -/

namespace Sys2Proof.Machine

/-! ## Words of the pipes, from their result -/

/-- A pipe instruction that reads its sources and writes one or two registers, in all the fibres that it acts in. -/
structure Pipe.regular (p : Pipe) : Prop where
  hi : p.hi = none
  reads : p.reads = none
  only : p.only = none
  once : p.once = false

/-- It uses the operands of a shape when its codes and widths are the shape's. -/
theorem Pipe.regular.covers {p : Pipe} {x : Shape} (cx : Cx) (hp : p.regular) (hd : p.d = x.dst.1) (hn : x.dst.2 = if p.wide then 2 else 1)
    (hsrcs : ∀ y, y ∈ p.srcs → (y.code, if y.wide then 2 else 1) ∈ (if y.old then x.old else x.srcs))
    (hall : ∀ y, y ∈ x.srcs → ∃ z, z ∈ p.srcs ∧ z.code = y.1 ∧ z.old = false) : Covers cx x p where
  d := hd
  n := by rw [hp.hi]; exact hn
  hiwide := by rw [hp.hi]; exact fun e => nomatch e
  srcs := hsrcs
  scalar := hall
  reads := by rw [hp.reads]; exact fun _ e => nomatch e
  only := by rw [hp.only]; exact fun _ e => nomatch e

/-- What the open run of a warp does not enter is the same of the warp that a word sees (R27). -/
theorem contextOf_same {α : Type} (f : Warp → α) {w : Warp} (hf : f w.closeRun = f w) (i : OpInfo) (s : State) (k : Nat) (m : Lanes) (g : Gang)
    (b : Block) : f (contextOf i s k m w g b).w = f w := by
  rcases contextOf_w i s k m w g b with e | e <;> rw [e]
  exact hf

/-- A WORD OF THE PIPES YIELDS WHAT ITS LANES COMPUTE in the context of its issue (R116, R128). -/
theorem yields_of_pipe {s : State} {k : Nat} {m : Lanes} {w : Warp} {g : Gang} {b : Block} {i : Instr} {info : OpInfo} {p : Cx → Pipe}
    {x : Shape} (h : Issuing s k m w g b) (he : exec i s = issued info s fun cx s => cx.pipe (p cx) s) (hi : InfoFits info x g.pfx)
    (hp : (p (contextOf info s k m w g b)).regular) (hc : Covers (contextOf info s k m w g b) x (p (contextOf info s k m w g b)))
    (ho : ∀ y, y ∈ x.old → scalarDst x.dst.1 = true → 96 ≤ y.1.toNat) :
    Yields s k m w g b i x ((p (contextOf info s k m w g b)).f ((contextOf info s k m w g b).opsOf (p (contextOf info s k m w g b)))) := by
  intro hx hlog
  have fibres : (contextOf info s k m w g b).q = guarded w m x.guard := by
    rw [← hi.g]
    exact contextOf_same (guarded · m info.g) rfl info s k m g b
  have clear := uses_clear _ w m x _ (contextOf_same Warp.rows rfl info s k m g b) (contextOf_same Warp.base rfl info s k m g b)
    (contextOf_same Warp.spend rfl info s k m g b) rfl fibres hx hc
  obtain ⟨past, -⟩ := issue_pipe h info p (barred_none info s k m w g b x hi hx) clear
  obtain ⟨w', own, result⟩ := result_of_pipe h hi hx hc ho hp.hi hp.only hp.once hlog
  exact ⟨_, w', he, past, own, result⟩

/-! ## The context of a word that may take modifiers -/

/-- The codes that a word reads, under CEN with C (R42, R43). -/
theorem reads_eq (i : OpInfo) (p : Pfx) :
    i.reads p = if (p.hmod.getD {}).cen && i.cen then i.srcs ++ [(p.hmod.getD {}).c] else i.srcs := by
  unfold OpInfo.reads
  cases p.hmod <;> rfl

theorem reads_of_noCen {i : OpInfo} (h : i.cen = false) (p : Pfx) : i.reads p = i.srcs := by
  rw [reads_eq, h, Bool.and_false]
  rfl

/-- The operands of a multiply-add (R42). -/
theorem accShape_eq (p : Pfx) (gd : BitVec 4) (d : Code) (n : Nat) (l : List Operand) :
    accShape p gd d n l = if (p.hmod.getD {}).cen then { guard := gd, dst := (d, n), srcs := l ++ [((p.hmod.getD {}).c, n)] }
      else { guard := gd, dst := (d, n), srcs := l, old := [(d, n)] } := by
  unfold accShape
  cases p.hmod <;> rfl

section
variable (i : OpInfo) (s : State) (k : Nat) (m : Lanes) (w : Warp) (g : Gang) (b : Block)

theorem contextOf_itype : (contextOf i s k m w g b).w.itype = w.itype := contextOf_same Warp.itype rfl i s k m g b

theorem contextOf_sat : (contextOf i s k m w g b).sat = ((g.pfx.hmod.getD {}).sat && i.sat) := rfl

theorem contextOf_cen :
    (contextOf i s k m w g b).cen = if (g.pfx.hmod.getD {}).cen && i.cen then some (g.pfx.hmod.getD {}).c else none := rfl

variable {i}

/-- The old value of a destination at TI is what its registers hold (R22, R24). -/
theorem contextOf_old {d : Code} (hd : d.toNat < 112) (j : Nat) :
    (contextOf i s k m w g b).val ((contextOf i s k m w g b).oldSrc d) j = w.reg (d, w.tiSize) j := by
  have first : regCode d w.itype.wide = Operand.first (d, w.tiSize) := regCode_first d _
  have pair : w.tiSize = 2 ↔ w.itype.wide = true := by unfold Warp.tiSize; cases w.itype.wide <;> simp
  have base : (contextOf i s k m w g b).w.base = w.base := contextOf_same Warp.base rfl i s k m g b
  have row : (contextOf i s k m w g b).w.row = w.row := contextOf_same Warp.row rfl i s k m g b
  have sreg : (contextOf i s k m w g b).w.sreg = w.sreg := contextOf_same Warp.sreg rfl i s k m g b
  unfold Cx.val Cx.oldSrc Warp.reg Warp.rowOf
  simp only [contextOf_itype, base, row, sreg, first, pair, hd, if_true]
  rfl

/-- The immediate at TI of a word that takes a chain reads as `seenBy` says (R32 to R35). -/
theorem contextOf_imm (hext : i.ext = true) :
    BitVec.ofNat 64 ((contextOf i s k m w g b).immX (contextOf i s k m w g b).w.itype.imm).1 = (seenBy i.sat s k m w g b).imm i.imm7 w.itype.imm := by
  rw [contextOf_itype]
  have chain : (contextOf i s k m w g b).ext = (seenBy i.sat s k m w g b).ext := by
    unfold seenBy contextOf
    simp [hext]
  have sat : (contextOf i s k m w g b).sat = (seenBy i.sat s k m w g b).sat := rfl
  have info : (contextOf i s k m w g b).info = i := rfl
  unfold Cx.imm Cx.immX Cx.xWidth Cx.xBits
  rw [chain, sat, info]

end

/-! ## Words at TI -/

/-- The operands of a word at TI: its sources, and the old values that it reads. -/
def tiShape (w : Warp) (gd : BitVec 4) (d : Code) (codes olds : List Code) : Shape :=
  { guard := gd, dst := (d, w.tiSize), srcs := codes.map fun c => (c, w.tiSize), old := olds.map fun c => (c, w.tiSize) }

/-- The sources of a word that fits a shape at TI read as `seenBy` says. -/
theorem InfoFits.ti {i : OpInfo} {w : Warp} {g : Gang} {gd : BitVec 4} {d : Code} {codes olds : List Code}
    (hi : InfoFits i (tiShape w gd d codes olds) g.pfx) (s : State) (k : Nat) (m : Lanes) (b : Block) {a : Code} (ha : a ∈ codes) (j : Nat) :
    (contextOf i s k m w g b).val ((contextOf i s k m w g b).tiSrc a) j = (seenBy i.sat s k m w g b).ti a j := by
  have read : a ∈ i.reads g.pfx := by
    rw [hi.reads]
    simpa [tiShape] using ha
  rw [val_seenBy i s k m w g b _ j (.inr read) hi.control]
  unfold Cx.ti Cx.tiSrc seenBy
  simp only [contextOf_itype]

/-- A pipe instruction with these operands. -/
def Cx.tiPipe (cx : Cx) (codes olds : List Code) (d : Code) (extra : Word) (f : (Nat → Nat → DWord) → Nat → LaneOut) : Pipe :=
  { srcs := codes.map cx.tiSrc ++ olds.map cx.oldSrc, d := d, wide := cx.w.itype.wide, extra := extra, f := f }

theorem tiPipe_covers {cx : Cx} {w : Warp} (ht : cx.w.itype = w.itype) (gd : BitVec 4) (codes olds : List Code) (d : Code) (extra : Word)
    (f : (Nat → Nat → DWord) → Nat → LaneOut) : Covers cx (tiShape w gd d codes olds) (cx.tiPipe codes olds d extra f) := by
  have size : (if cx.w.itype.wide then 2 else 1) = w.tiSize := by rw [ht]; rfl
  refine Pipe.regular.covers cx ⟨rfl, rfl, rfl, rfl⟩ rfl size.symm (fun y hy => ?_) fun y hy => ?_
  · obtain ⟨c, hc, rfl⟩ | ⟨c, hc, rfl⟩ := (List.mem_append.mp hy).imp List.mem_map.mp List.mem_map.mp
    · exact List.mem_map.mpr ⟨c, hc, Prod.ext rfl size.symm⟩
    · exact List.mem_map.mpr ⟨c, hc, Prod.ext rfl size.symm⟩
  · obtain ⟨c, hc, rfl⟩ := List.mem_map.mp hy
    exact ⟨cx.tiSrc c, List.mem_append_left _ (List.mem_map_of_mem hc), rfl, rfl⟩

theorem scalarDst_low {d : Code} (h : scalarDst d = true) : 96 ≤ d.toNat := by
  unfold scalarDst at h
  rcases Bool.or_eq_true_iff.mp h with null | scalar
  · rw [of_decide_eq_true null]
    decide
  · exact of_decide_eq_true (Bool.and_eq_true_iff.mp scalar).1

/-- A word whose operands are at TI yields what its lanes compute. -/
theorem yields_of_tiPipe {s : State} {k : Nat} {m : Lanes} {w : Warp} {g : Gang} {b : Block} {i : Instr} {info : OpInfo} {p : Cx → Pipe}
    {gd : BitVec 4} {d : Code} {codes olds : List Code} {extra : Word} {f : (Nat → Nat → DWord) → Nat → LaneOut}
    (h : Issuing s k m w g b) (he : exec i s = issued info s fun cx s => cx.pipe (p cx) s)
    (hi : InfoFits info (tiShape w gd d codes olds) g.pfx)
    (hp : p (contextOf info s k m w g b) = (contextOf info s k m w g b).tiPipe codes olds d extra f) (ho : ∀ c, c ∈ olds → c = d) :
    Yields s k m w g b i (tiShape w gd d codes olds)
      (f ((contextOf info s k m w g b).opsOf ((contextOf info s k m w g b).tiPipe codes olds d extra f))) := by
  have yields := yields_of_pipe h he hi (hp ▸ ⟨rfl, rfl, rfl, rfl⟩)
    (hp ▸ tiPipe_covers (contextOf_itype info s k m w g b) gd codes olds d extra f) (fun y hy hs => ?_)
  · rwa [hp] at yields
  · obtain ⟨c, hc, rfl⟩ := List.mem_map.mp hy
    obtain rfl := ho c hc
    exact scalarDst_low hs

/-! ## Delivery (R96, R131) -/

/-- The value of an element. -/
def IType.elem (t : IType) (x : DWord) (e : Nat) : Int := ofPat t.signed t.width (elemOf x t.width e)

/-- An exact result as it is kept: under SAT the nearest value of the type. -/
def IType.kept (t : IType) (on : Bool) (r : Int) : Int :=
  if on = true then max (intMin t.signed t.width) (min (intMax t.signed t.width) r) else r

/-- What a lane delivers of its elements' exact results: their low bits, or the nearest values under SAT, and the flag SAT. -/
def IType.delivers (t : IType) (on : Bool) (f : Nat → Int) : LaneOut :=
  { v := placeElems t ((List.range t.count).map fun e => toPat t.width (t.kept on (f e))),
    fl := flagIf ((List.range t.count).any fun e => decide (t.kept on (f e) ≠ f e)) flSAT }

theorem intMin_le_intMax (signed : Bool) (w : Nat) : intMin signed w ≤ intMax signed w := by
  have half : 0 < 2 ^ (w - 1) := Nat.two_pow_pos _
  have whole : 0 < 2 ^ w := Nat.two_pow_pos _
  unfold intMin intMax
  cases signed <;> simp only [Bool.false_eq_true, if_true, if_false] <;> omega

theorem intDeliver_eq (t : IType) (on : Bool) (r : Int) :
    intDeliver t.signed on t.width r = (toPat t.width (t.kept on r), decide (t.kept on r ≠ r)) := by
  have ordered := intMin_le_intMax t.signed t.width
  unfold intDeliver IType.kept
  cases on with
  | false => simp
  | true =>
    simp only [Bool.true_and, decide_eq_true_eq, if_true]
    by_cases low : r < intMin t.signed t.width
    · have clamped : max (intMin t.signed t.width) (min (intMax t.signed t.width) r) = intMin t.signed t.width := by omega
      rw [if_pos low, clamped, decide_eq_true (Int.ne_of_gt low)]
    · rw [if_neg low]
      by_cases high : r > intMax t.signed t.width
      · have clamped : max (intMin t.signed t.width) (min (intMax t.signed t.width) r) = intMax t.signed t.width := by omega
        rw [if_pos high, clamped, decide_eq_true (Int.ne_of_lt high)]
      · have within : max (intMin t.signed t.width) (min (intMax t.signed t.width) r) = r := by omega
        rw [if_neg high, within, decide_eq_false (not_not_intro rfl)]

theorem intLane_eq (t : IType) (on : Bool) (f : List Int → Int) (xs : List DWord) :
    intLane t on f xs = t.delivers on fun e => f (xs.map fun x => t.elem x e) := by
  unfold intLane IType.delivers
  simp only [intDeliver_eq, List.map_map, List.any_map]
  rfl

/-! ## Integer arithmetic (R131, R132, R134, R139) -/

/-- The frame's description of a word with two sources, which takes SAT or not, and pushes a latch entry or not. -/
def int2Info (op : Nat) (on pr : Bool) (gd : BitVec 4) (d a c : Code) : OpInfo := { rInfo op gd d a c with sat := on, producer := pr }

/-- That of a word with one source that takes SAT. -/
def int1Info (f7 : Nat) (gd : BitVec 4) (d a : Code) : OpInfo := { uInfo 0x30 f7 gd d a with sat := true }

/-- That of a word with an immediate that takes SAT. -/
def intImmInfo (op : Nat) (gd : BitVec 4) (d a n : Code) : OpInfo := { iInfo op gd d a n with sat := true }

theorem highHalf_eq (t : IType) (x y : Int) : x * y / ((2 ^ t.width : Nat) : Int) = x * y / 2 ^ t.width := by push_cast; rfl

theorem magnitude_eq (x : Int) : (if x < 0 then 0 - x else x) = x.natAbs := by split <;> omega

theorem divElem_eq (t : IType) (x y : Int) : divElem t x y = if y = 0 then 2 ^ t.width - 1 else Int.tdiv x y := by
  unfold divElem
  push_cast
  rfl

theorem remElem_eq (x y : Int) : remElem x y = if y = 0 then x else Int.tmod x y := by
  unfold remElem
  rw [Int.tmod_def, Int.mul_comm y]

/-- Arguments are equal one by one. -/
theorem args_cons {x y : DWord} {l l' : List DWord} (hx : x = y) (hl : l = l') : x :: l = y :: l' :=
  List.cons_eq_cons.mpr ⟨hx, hl⟩

section
variable {s : State} {k : Nat} {m : Lanes} {w : Warp} {g : Gang} {b : Block} (h : Issuing s k m w g b) (i : Instr) (gd : BitVec 4) (d a c : Code)
include h

/-- An integer word yields what its elements' exact results are delivered as; its modifier SAT acts where it takes it (R43). -/
theorem int_yields {info : OpInfo} {on : Bool} (hon : info.sat = on) {p : Cx → Pipe} {codes olds : List Code} {extra : Word}
    {args : (Nat → Nat → DWord) → Nat → List DWord} (F : IType → List Int → Int) (xs : Nat → List DWord)
    (he : exec i s = issued info s fun cx s => cx.pipe (p cx) s) (hi : InfoFits info (tiShape w gd d codes olds) g.pfx)
    (hp : p (contextOf info s k m w g b) = (contextOf info s k m w g b).tiPipe codes olds d extra fun v j =>
      intLane (contextOf info s k m w g b).w.itype (on && (contextOf info s k m w g b).sat) (F (contextOf info s k m w g b).w.itype) (args v j))
    (ho : ∀ c, c ∈ olds → c = d)
    (hxs : ∀ f j, args ((contextOf info s k m w g b).opsOf ((contextOf info s k m w g b).tiPipe codes olds d extra f)) j = xs j) :
    Yields s k m w g b i (tiShape w gd d codes olds) fun j =>
      w.itype.delivers (on && (g.pfx.hmod.getD {}).sat) fun e => F w.itype ((xs j).map fun x => w.itype.elem x e) := by
  have yields := yields_of_tiPipe h he hi hp ho
  have sat : (on && (contextOf info s k m w g b).sat) = (on && (g.pfx.hmod.getD {}).sat) := by
    rw [contextOf_sat, hon]
    cases on <;> simp
  simpa only [hxs, contextOf_itype, sat, intLane_eq] using yields

theorem int2_yields (op : Nat) (on pr : Bool) (F : IType → List Int → Int) (f : Int → Int → Int) (hF : ∀ x y, F w.itype [x, y] = f x y)
    (he : exec i s = issued (int2Info op on pr gd d a c) s fun cx => cx.int2 d a c fun t => intLane t (on && cx.sat) (F t)) :
    Yields s k m w g b i (tiShape w gd d [a, c] []) fun j => w.itype.delivers (on && (g.pfx.hmod.getD {}).sat) fun e =>
      f (w.itype.elem ((seenBy on s k m w g b).ti a j) e) (w.itype.elem ((seenBy on s k m w g b).ti c j) e) := by
  have fits : InfoFits (int2Info op on pr gd d a c) (tiShape w gd d [a, c] []) g.pfx := ⟨rfl, rfl, rfl, rfl, rfl, reads_of_noCen rfl _, rfl⟩
  have yields := int_yields h i gd d (on := on) rfl F (fun j => [(seenBy on s k m w g b).ti a j, (seenBy on s k m w g b).ti c j]) he fits rfl
    (fun _ e => nomatch e) (args := fun v j => [v 0 j, v 1 j]) fun _ j => args_cons
      (fits.ti s k m b (by simp) j) (args_cons (fits.ti s k m b (by simp) j) rfl)
  simpa only [List.map_cons, List.map_nil, hF] using yields

theorem int1_yields (f7 : Nat) (F : IType → List Int → Int) (f : Int → Int) (hF : ∀ x, F w.itype [x] = f x)
    (he : exec i s = issued (int1Info f7 gd d a) s fun cx => cx.int1 d a fun t => intLane t cx.sat (F t)) :
    Yields s k m w g b i (tiShape w gd d [a] []) fun j => w.itype.delivers (g.pfx.hmod.getD {}).sat fun e =>
      f (w.itype.elem ((seenBy true s k m w g b).ti a j) e) := by
  have fits : InfoFits (int1Info f7 gd d a) (tiShape w gd d [a] []) g.pfx := ⟨rfl, rfl, rfl, rfl, rfl, reads_of_noCen rfl _, rfl⟩
  have yields := int_yields h i gd d (on := true) rfl F (fun j => [(seenBy true s k m w g b).ti a j]) he fits rfl (fun _ e => nomatch e)
    (args := fun v j => [v 0 j]) fun _ j => args_cons (fits.ti s k m b (by simp) j) rfl
  simpa only [List.map_cons, List.map_nil, hF, Bool.true_and] using yields

theorem intImm_yields (op : Nat) (F : IType → List Int → Int)
    (he : exec i s = issued (intImmInfo op gd d a c) s fun cx => cx.intImm d a fun t => intLane t cx.sat (F t)) :
    Yields s k m w g b i (tiShape w gd d [a] []) fun j => w.itype.delivers (g.pfx.hmod.getD {}).sat fun e =>
      F w.itype [w.itype.elem ((seenBy true s k m w g b).ti a j) e, w.itype.elem ((seenBy true s k m w g b).imm c w.itype.imm) e] := by
  have fits : InfoFits (intImmInfo op gd d a c) (tiShape w gd d [a] []) g.pfx := ⟨rfl, rfl, rfl, rfl, rfl, reads_of_noCen rfl _, rfl⟩
  have yields := int_yields h i gd d (on := true) rfl F
    (fun j => [(seenBy true s k m w g b).ti a j, (seenBy true s k m w g b).imm c w.itype.imm]) he fits rfl
    (fun _ e => nomatch e) fun _ j => args_cons (fits.ti s k m b (by simp) j)
      (args_cons (contextOf_imm (i := intImmInfo op gd d a c) s k m w g b rfl) rfl)
  simpa only [List.map_cons, List.map_nil, Bool.true_and] using yields

end

/-- The frame's description of `mad`. -/
def madInfo (gd : BitVec 4) (d a c : Code) : OpInfo := { rInfo 0x1E gd d a c with sat := true, cen := true }

/-- The addend of `mad`: C under CEN, else the old destination (R42). -/
def Cx.addend (cx : Cx) (d : Code) : Src :=
  match cx.cen with
  | some c => cx.tiSrc c
  | none => cx.oldSrc d

/-- What `mad` computes of an element. -/
def madElem (l : List Int) : Int := arg0 l * arg1 l + arg2 l

/-- `mad` as an instruction of the pipes. -/
def Cx.madPipe (cx : Cx) (d a c : Code) : Pipe :=
  { srcs := [cx.tiSrc a, cx.tiSrc c, cx.addend d], d := d, wide := cx.w.itype.wide,
    f := fun v j => intLane cx.w.itype cx.sat madElem [v 0 j, v 1 j, v 2 j] }

theorem madPipe_cen {cx : Cx} {e : Code} (d a c : Code) (h : cx.cen = some e) : cx.madPipe d a c = cx.tiPipe [a, c, e] [] d 0
      fun v j => intLane cx.w.itype (true && cx.sat) madElem [v 0 j, v 1 j, v 2 j] := by
  unfold Cx.madPipe Cx.addend
  rw [h]
  rfl

theorem madPipe_old {cx : Cx} (d a c : Code) (h : cx.cen = none) : cx.madPipe d a c = cx.tiPipe [a, c] [d] d 0
      fun v j => intLane cx.w.itype (true && cx.sat) madElem [v 0 j, v 1 j, v 2 j] := by
  unfold Cx.madPipe Cx.addend
  rw [h]
  rfl

theorem exec_mad (gd : BitVec 4) (d a c : Code) (s : State) :
    exec (.mad gd d a c) s = issued (madInfo gd d a c) s fun cx s => cx.pipe (cx.madPipe d a c) s := rfl

section
variable {s : State} {k : Nat} {m : Lanes} {w : Warp} {g : Gang} {b : Block} (h : Issuing s k m w g b) (gd : BitVec 4) (d a c : Code)
include h

/-- Under CEN `mad` adds C. -/
theorem mad_yields_c (hcen : (g.pfx.hmod.getD {}).cen = true) :
    Yields s k m w g b (.mad gd d a c) (tiShape w gd d [a, c, (g.pfx.hmod.getD {}).c] []) fun j =>
      w.itype.delivers (g.pfx.hmod.getD {}).sat fun e => madElem ([(seenBy true s k m w g b).ti a j, (seenBy true s k m w g b).ti c j,
        (seenBy true s k m w g b).ti (g.pfx.hmod.getD {}).c j].map fun x => w.itype.elem x e) := by
  have fits : InfoFits (madInfo gd d a c) (tiShape w gd d [a, c, (g.pfx.hmod.getD {}).c] []) g.pfx :=
    ⟨rfl, rfl, rfl, rfl, rfl, by rw [reads_eq, hcen]; rfl, rfl⟩
  have yields := int_yields h _ gd d (on := true) rfl (fun _ => madElem)
    (fun j => [(seenBy true s k m w g b).ti a j, (seenBy true s k m w g b).ti c j,
      (seenBy true s k m w g b).ti (g.pfx.hmod.getD {}).c j]) (exec_mad gd d a c s) fits
    (madPipe_cen d a c (by rw [contextOf_cen, hcen]; rfl)) (fun _ e => nomatch e) fun _ j => args_cons
      (fits.ti s k m b (by simp) j) (args_cons (fits.ti s k m b (by simp) j) (args_cons (fits.ti s k m b (by simp) j) rfl))
  simpa only [Bool.true_and] using yields

/-- Else `mad` adds the old destination. -/
theorem mad_yields_old (hcen : (g.pfx.hmod.getD {}).cen = false) (hd : d.toNat < 112) :
    Yields s k m w g b (.mad gd d a c) (tiShape w gd d [a, c] [d]) fun j =>
      w.itype.delivers (g.pfx.hmod.getD {}).sat fun e => madElem ([(seenBy true s k m w g b).ti a j, (seenBy true s k m w g b).ti c j,
        w.reg (d, w.tiSize) j].map fun x => w.itype.elem x e) := by
  have fits : InfoFits (madInfo gd d a c) (tiShape w gd d [a, c] [d]) g.pfx :=
    ⟨rfl, rfl, rfl, rfl, rfl, by rw [reads_eq, hcen]; rfl, rfl⟩
  have yields := int_yields h _ gd d (on := true) rfl (fun _ => madElem)
    (fun j => [(seenBy true s k m w g b).ti a j, (seenBy true s k m w g b).ti c j, w.reg (d, w.tiSize) j])
    (exec_mad gd d a c s) fits (madPipe_old d a c (by rw [contextOf_cen, hcen]; rfl))
    (fun _ => List.mem_singleton.mp) fun _ j => args_cons (fits.ti s k m b (by simp) j)
      (args_cons (fits.ti s k m b (by simp) j) (args_cons (contextOf_old s k m w g b hd j) rfl))
  simpa only [Bool.true_and] using yields

theorem mad_yields (hd : d.toNat < 112 ∨ (g.pfx.hmod.getD {}).cen = true) :
    Yields s k m w g b (.mad gd d a c) (accShape g.pfx gd d w.tiSize [(a, w.tiSize), (c, w.tiSize)]) fun j =>
      w.itype.delivers (g.pfx.hmod.getD {}).sat fun e =>
        w.itype.elem ((seenBy true s k m w g b).ti a j) e * w.itype.elem ((seenBy true s k m w g b).ti c j) e +
          w.itype.elem (if (g.pfx.hmod.getD {}).cen then (seenBy true s k m w g b).ti (g.pfx.hmod.getD {}).c j else w.reg (d, w.tiSize) j) e := by
  rw [accShape_eq]
  cases hcen : (g.pfx.hmod.getD {}).cen with
  | true => exact mad_yields_c h gd d a c hcen
  | false => exact mad_yields_old h gd d a c hcen (hd.resolve_right (by rw [hcen]; exact Bool.false_ne_true))

end

/-- Settles O19: each word delivers the exact results of its elements, `mad` with C as addend under CEN and else its old destination. -/
theorem integersComputed : Obligations.IntegersComputed := by
  intro s k m w g b gd d a c h t n sat cx val kept out one two imm
  have add := int2_yields h (.add gd d a c) gd d a c 0x18 true true (fun _ l => arg0 l + arg1 l) (· + ·) (fun _ _ => rfl) rfl
  have sub := int2_yields h (.sub gd d a c) gd d a c 0x1A true true (fun _ l => arg0 l - arg1 l) (· - ·) (fun _ _ => rfl) rfl
  have mul := int2_yields h (.mul gd d a c) gd d a c 0x1B true true (fun _ l => arg0 l * arg1 l) (· * ·) (fun _ _ => rfl) rfl
  have addi := intImm_yields h (.addi gd d a c) gd d a c 0x19 (fun _ l => arg0 l + arg1 l) rfl
  have muli := intImm_yields h (.muli gd d a c) gd d a c 0x1C (fun _ l => arg0 l * arg1 l) rfl
  have neg := int1_yields h (.neg gd d a) gd d a 0 (fun _ l => 0 - arg0 l) (- ·) (fun _ => Int.zero_sub _) rfl
  have magnitude := int1_yields h (.abs gd d a) gd d a 1 (fun _ l => if arg0 l < 0 then 0 - arg0 l else arg0 l) (fun x => x.natAbs) magnitude_eq rfl
  have mulh := int2_yields h (.mulh gd d a c) gd d a c 0x1D false true (fun t l => arg0 l * arg1 l / ((2 ^ t.width : Nat) : Int))
    (fun x y => x * y / 2 ^ w.itype.width) (highHalf_eq w.itype) rfl
  have smaller := int2_yields h (.min gd d a c) gd d a c 0x21 false true (fun _ l => if arg0 l ≤ arg1 l then arg0 l else arg1 l) min
    (fun x y => (Int.min_def x y).symm) rfl
  have larger := int2_yields h (.max gd d a c) gd d a c 0x22 false true (fun _ l => if arg0 l ≤ arg1 l then arg1 l else arg0 l) max
    (fun x y => (Int.max_def x y).symm) rfl
  have div := int2_yields h (.div gd d a c) gd d a c 0x1F false false (fun t l => divElem t (arg0 l) (arg1 l))
    (fun x y => if y = 0 then 2 ^ w.itype.width - 1 else Int.tdiv x y) (divElem_eq w.itype) rfl
  have rem := int2_yields h (.rem gd d a c) gd d a c 0x20 false false (fun _ l => remElem (arg0 l) (arg1 l))
    (fun x y => if y = 0 then x else Int.tmod x y) remElem_eq rfl
  exact ⟨add, sub, mul, addi, muli, neg, magnitude, mulh, smaller, larger, div, rem, fun x hx hd => hx ▸ mad_yields h gd d a c hd⟩

end Sys2Proof.Machine

/-! SUPPORT. Bitwise instructions, shifts, moves and bit fields of the pipes: what a word with sources of any width yields, and what its
elements' patterns come to. -/

namespace Sys2Proof.Machine

/-! ## Words of the pipes, from their sources -/

/-- A source as an operand of a shape. -/
def Src.operand (y : Src) : Operand := (y.code, if y.wide then 2 else 1)

/-- What a pipe instruction with these sources and a destination of one or two registers reads and writes. -/
def srcShape (gd : BitVec 4) (d : Code) (wide : Bool) (l : List Src) : Shape :=
  { guard := gd, dst := (d, if wide then 2 else 1), srcs := (l.filter fun y => !y.old).map Src.operand, old := (l.filter Src.old).map Src.operand }

/-- A pipe instruction with these sources and such a destination. -/
def srcPipe (d : Code) (wide : Bool) (l : List Src) (extra : Word) (f : (Nat → Nat → DWord) → Nat → LaneOut) : Pipe :=
  { srcs := l, d := d, wide := wide, extra := extra, f := f }

theorem srcPipe_covers (cx : Cx) (gd : BitVec 4) (d : Code) (wide : Bool) (l : List Src) (extra : Word) (f : (Nat → Nat → DWord) → Nat → LaneOut) :
    Covers cx (srcShape gd d wide l) (srcPipe d wide l extra f) := by
  refine Pipe.regular.covers cx ⟨rfl, rfl, rfl, rfl⟩ rfl rfl (fun y hy => ?_) fun y hy => ?_
  · cases old : y.old with
    | true => exact List.mem_map_of_mem (f := Src.operand) (List.mem_filter.mpr ⟨hy, old⟩)
    | false => exact List.mem_map_of_mem (f := Src.operand) (List.mem_filter.mpr ⟨hy, congrArg not old⟩)
  · obtain ⟨z, hz, rfl⟩ := List.mem_map.mp hy
    obtain ⟨mem, fresh⟩ := List.mem_filter.mp hz
    exact ⟨z, mem, rfl, (Bool.not_eq_true' z.old).mp fresh⟩

/-- What the sources of a list read in each fibre. -/
def Cx.srcVals (cx : Cx) (l : List Src) (n j : Nat) : DWord :=
  match l[n]? with
  | some x => cx.val x j
  | none => 0

theorem opsOf_srcPipe (cx : Cx) (d : Code) (wide : Bool) (l : List Src) (extra : Word) (f : (Nat → Nat → DWord) → Nat → LaneOut) :
    cx.opsOf (srcPipe d wide l extra f) = cx.srcVals l := rfl

/-- The sources of a word that fits their shape read as `seenBy` says. -/
theorem srcVals_seenBy {i : OpInfo} {gd : BitVec 4} {d : Code} {wide : Bool} {l : List Src} (s : State) (k : Nat) (m : Lanes) (w : Warp) (g : Gang)
    (b : Block) (hi : InfoFits i (srcShape gd d wide l) g.pfx) : (contextOf i s k m w g b).srcVals l = (seenBy i.sat s k m w g b).srcVals l := by
  funext n j
  unfold Cx.srcVals
  cases read : l[n]? with
  | none => rfl
  | some y =>
    refine val_seenBy i s k m w g b y j ?_ hi.control
    cases old : y.old with
    | true => exact .inl rfl
    | false =>
      refine .inr (hi.reads ▸ List.mem_map_of_mem (f := Prod.fst) (List.mem_map_of_mem (f := Src.operand) (List.mem_filter.mpr ?_)))
      exact ⟨List.mem_of_getElem? read, congrArg not old⟩

/-- A WORD OF THE PIPES YIELDS WHAT ITS LANES COMPUTE of its sources as `seenBy` reads them; what they are, and how wide its
destination is, may depend on the integer type. -/
theorem yields_of_sources {s : State} {k : Nat} {m : Lanes} {w : Warp} {g : Gang} {b : Block} {i : Instr} {info : OpInfo} {gd : BitVec 4} {d : Code}
    (h : Issuing s k m w g b) (wide : IType → Bool) (l : IType → List Src) (extra : Cx → Word)
    (f : Cx → IType → (Nat → Nat → DWord) → Nat → LaneOut)
    (he : exec i s = issued info s fun cx s => cx.pipe (srcPipe d (wide cx.w.itype) (l cx.w.itype) (extra cx) (f cx cx.w.itype)) s)
    (hi : InfoFits info (srcShape gd d (wide w.itype) (l w.itype)) g.pfx)
    (ho : ∀ y, y ∈ l w.itype → y.old = true → scalarDst d = true → 96 ≤ y.code.toNat) :
    Yields s k m w g b i (srcShape gd d (wide w.itype) (l w.itype))
      (f (contextOf info s k m w g b) w.itype ((seenBy info.sat s k m w g b).srcVals (l w.itype))) := by
  have type := contextOf_itype info s k m w g b
  have yields := yields_of_pipe (x := srcShape gd d (wide w.itype) (l w.itype)) h he hi ⟨rfl, rfl, rfl, rfl⟩
    (by rw [type]; exact srcPipe_covers _ gd d _ _ _ _) fun y hy hs => ?_
  · rw [type, opsOf_srcPipe, srcVals_seenBy s k m w g b hi] at yields
    exact yields
  · obtain ⟨z, hz, rfl⟩ := List.mem_map.mp hy
    obtain ⟨mem, old⟩ := List.mem_filter.mp hz
    exact ho z mem old hs

/-! ## Sources (R22, R24, R131) -/

/-- A source at an integer type, and an old destination at it. -/
def IType.src (t : IType) (c : Code) : Src := { code := c, wide := t.wide, imm := t.imm }
def IType.old (t : IType) (d : Code) : Src := { code := d, wide := t.wide, old := true }

section
variable (sat : Bool) (s : State) (k : Nat) (m : Lanes) (w : Warp) (g : Gang) (b : Block)

theorem seenBy_ti (a : Code) (j : Nat) : (seenBy sat s k m w g b).val (w.itype.src a) j = (seenBy sat s k m w g b).ti a j := by
  unfold Cx.ti Cx.tiSrc seenBy IType.src
  rw [contextOf_itype]

/-- The low 32 bits of a source of 32 bits, a count or not, are what `Cx.word` reads. -/
theorem seenBy_count (c : Code) (j : Nat) : ((seenBy sat s k m w g b).val (countSrc c) j).setWidth 32 = (seenBy sat s k m w g b).word c j := rfl

/-- The old value of a destination is what its registers hold (R22, R24). -/
theorem seenBy_old {d : Code} (hd : d.toNat < 112) (wide : Bool) (j : Nat) :
    (seenBy sat s k m w g b).val { code := d, wide := wide, old := true } j = w.reg (d, if wide then 2 else 1) j := by
  have base : (seenBy sat s k m w g b).w.base = w.base := contextOf_same Warp.base rfl _ s k m g b
  have row : (seenBy sat s k m w g b).w.row = w.row := contextOf_same Warp.row rfl _ s k m g b
  have sreg : (seenBy sat s k m w g b).w.sreg = w.sreg := contextOf_same Warp.sreg rfl _ s k m g b
  have first := regCode_first d wide
  unfold Cx.val Warp.reg Warp.rowOf
  simp only [base, row, sreg, hd, if_true]
  cases wide <;> simp only [first, if_true, if_false, Bool.false_eq_true] <;> rfl

end

/-! ## Elements' patterns (R95, R129) -/

theorem elemOf_lt (x : DWord) (w e : Nat) : elemOf x w e < 2 ^ w := Nat.mod_lt _ (Nat.two_pow_pos w)

theorem itype_width (w : Warp) : w.itype.width ≤ 64 := by
  unfold Warp.itype itypeOf
  split <;> decide

/-- What a lane delivers of its elements' patterns. -/
def IType.pats (t : IType) (f : Nat → Nat) : LaneOut := { v := placeElems t ((List.range t.count).map f) }

theorem joinElems_congr {w : Nat} {f f' : Nat → Nat} (h : ∀ e, f e % 2 ^ w = f' e % 2 ^ w) (l : List Nat) :
    joinElems w (l.map f) = joinElems w (l.map f') := by
  induction l with
  | nil => rfl
  | cons e l ih => simp only [List.map_cons, joinElems, h e, ih]

theorem placeInt_congr {signed : Bool} {w x y : Nat} (hw : w ≤ 64) (h : x % 2 ^ w = y % 2 ^ w) : placeInt signed w x = placeInt signed w y := by
  unfold placeInt
  split
  · obtain rfl : w = 64 := by omega
    exact BitVec.eq_of_toNat_eq h
  · unfold ofPat
    rw [h]

/-- Only the low bits of the elements' patterns count. -/
theorem pats_congr {t : IType} {f f' : Nat → Nat} (ht : t.width ≤ 64) (h : ∀ e, f e % 2 ^ t.width = f' e % 2 ^ t.width) : t.pats f = t.pats f' := by
  unfold IType.pats placeElems
  split
  · rw [joinElems_congr h]
  · cases t.count with
    | zero => rfl
    | succ n =>
      simp only [List.range_succ_eq_map, List.map_cons, List.headD_cons]
      rw [placeInt_congr ht (h 0)]

/-! ## Shifts and rotations (R133) -/

theorem shlPat_mod (w c x : Nat) : shlPat w c x % 2 ^ w = x * 2 ^ c % 2 ^ w % 2 ^ w := by
  unfold shlPat
  rw [Nat.mod_mod]
  split
  · rfl
  · next out =>
    have whole : 2 ^ w ∣ x * 2 ^ c := Nat.dvd_mul_left_of_dvd (Nat.pow_dvd_pow 2 (Nat.le_of_not_lt out)) x
    rw [Nat.zero_mod, Nat.mod_eq_zero_of_dvd whole]

theorem shrPat_eq {w x : Nat} (c : Nat) (hx : x < 2 ^ w) : shrPat w c x = x / 2 ^ c := by
  unfold shrPat
  split
  · rfl
  · next out => exact (Nat.div_eq_of_lt (Nat.lt_of_lt_of_le hx (Nat.pow_le_pow_right Nat.two_pos (Nat.le_of_not_lt out)))).symm

/-- A value of `w` bits is below 2^w in magnitude. -/
theorem ofPat_bounds (signed : Bool) (w x : Nat) : -((2 ^ w : Nat) : Int) ≤ ofPat signed w x ∧ ofPat signed w x < ((2 ^ w : Nat) : Int) := by
  have pattern : ((x % 2 ^ w : Nat) : Int) < ((2 ^ w : Nat) : Int) := Int.ofNat_lt.mpr (Nat.mod_lt x (Nat.two_pow_pos w))
  unfold ofPat
  dsimp only
  split <;> omega

/-- By any divisor not below a value's magnitude, its quotient is its sign alone. -/
theorem ediv_of_magnitude_le {m n : Nat} {z : Int} (pos : 0 < m) (grows : m ≤ n) (low : -(m : Int) ≤ z) (high : z < m) : z / n = z / m := by
  rcases Int.lt_or_le z 0 with neg | nonneg
  · have sign : ∀ i : Nat, m ≤ i → z / i = -1 := fun i hi => (Int.ediv_eq_iff_of_pos (Int.natCast_pos.mpr (Nat.lt_of_lt_of_le pos hi))).mpr (by omega)
    rw [sign n grows, sign m (Nat.le_refl m)]
  · rw [Int.ediv_eq_zero_of_lt nonneg (by omega), Int.ediv_eq_zero_of_lt nonneg high]

theorem sarPat_eq (w c x : Nat) : sarPat w c x = toPat w (ofPat true w x / 2 ^ c) := by
  have power : (2 ^ c : Int) = ((2 ^ c : Nat) : Int) := by rw [Int.natCast_pow]; rfl
  unfold sarPat
  rw [power]
  rcases Nat.le_total c w with inside | out
  · rw [Nat.min_eq_left inside]
  · obtain ⟨low, high⟩ := ofPat_bounds true w x
    rw [Nat.min_eq_right out, ediv_of_magnitude_le (Nat.two_pow_pos w) (Nat.pow_le_pow_right Nat.two_pos out) low high]

/-- The two parts of a rotated pattern share no bit. -/
theorem rotated_parts {w k x : Nat} (hk : k ≤ w) (hx : x < 2 ^ w) : x * 2 ^ k % 2 ^ w + x / 2 ^ (w - k) = x <<< k % 2 ^ w ||| x >>> (w - k) := by
  obtain ⟨u, rfl⟩ := Nat.exists_eq_add_of_le' hk
  have wraps : x / 2 ^ u < 2 ^ k := by
    rwa [Nat.div_lt_iff_lt_mul (Nat.two_pow_pos u), ← Nat.pow_add, Nat.add_comm]
  rw [Nat.add_sub_cancel, Nat.shiftLeft_eq, Nat.shiftRight_eq_div_pow, Nat.pow_add, Nat.mul_mod_mul_right, ← Nat.shiftLeft_eq,
    Nat.shiftLeft_add_eq_or_of_lt wraps]

theorem rotPat_eq {w x : Nat} (c : Nat) (hx : x < 2 ^ w) : rotPat w c x = ((BitVec.ofNat w x).rotateLeft c).toNat := by
  rw [BitVec.toNat_rotateLeft, BitVec.toNat_ofNat, Nat.mod_eq_of_lt hx]
  rcases Nat.eq_zero_or_pos w with rfl | pos
  · obtain rfl : x = 0 := by omega
    simp only [rotPat, Nat.zero_mul, Nat.zero_mod, Nat.zero_div, Nat.zero_shiftLeft, Nat.zero_shiftRight, Nat.or_self]
  · exact rotated_parts (Nat.le_of_lt (Nat.mod_lt c pos)) hx

/-! ## Counts and reversals (R139) -/

theorem popPat_eq (w x : Nat) : popPat w x = (List.range w).countP fun i => x.testBit i := List.countP_eq_length_filter.symm

theorem clzPat_eq {w x : Nat} (hx : x < 2 ^ w) : clzPat w x = ((List.range w).map fun i => x.testBit (w - 1 - i)).findIdx id := by
  unfold clzPat
  split
  · next zero =>
    subst zero
    rw [List.findIdx_eq_length_of_false, List.length_map, List.length_range]
    simp only [Nat.zero_testBit, List.mem_map, id_eq]
    rintro _ ⟨_, -, rfl⟩
    rfl
  · next nonzero =>
    have top := (Nat.log2_lt nonzero).mpr hx
    have inside : w - 1 - x.log2 < ((List.range w).map fun i => x.testBit (w - 1 - i)).length := by
      rw [List.length_map, List.length_range]
      omega
    refine ((List.findIdx_eq inside).mpr ⟨?_, fun i hi => ?_⟩).symm
    · have e : w - 1 - (w - 1 - x.log2) = x.log2 := by omega
      simpa only [List.getElem_map, List.getElem_range, e, id_eq] using Nat.testBit_log2 nonzero
    · have above : x < 2 ^ (w - 1 - i) := Nat.lt_of_lt_of_le Nat.lt_log2_self (Nat.pow_le_pow_right Nat.two_pos (by omega))
      simpa only [List.getElem_map, List.getElem_range, id_eq] using Nat.testBit_lt_two_pow above

theorem ctzPat_eq (w x : Nat) : ctzPat w x = ((List.range w).map fun i => x.testBit i).findIdx id := by
  unfold ctzPat
  rw [List.findIdx_map, List.takeWhile_eq_take_findIdx_not, List.length_take_of_le List.findIdx_le_length]
  simp only [Bool.not_not]
  rfl

theorem brevPat_succ (w x : Nat) : brevPat (w + 1) x = 2 * brevPat w x + (x.testBit w).toNat := by
  unfold brevPat
  rw [List.range_succ, List.foldl_append]
  cases bit : x.testBit w <;> simp only [List.foldl_cons, List.foldl_nil, bit] <;> rfl

theorem testBit_brevPat (w x i : Nat) : (brevPat w x).testBit i = (decide (i < w) && x.testBit (w - 1 - i)) := by
  induction w generalizing i with
  | zero => exact Nat.zero_testBit i
  | succ w ih =>
    have low := (x.testBit w).toNat_lt
    rw [brevPat_succ]
    cases i with
    | zero =>
      rw [Nat.testBit_zero, Nat.mul_add_mod, Nat.mod_eq_of_lt low]
      show decide ((x.testBit w).toNat = 1) = x.testBit w
      cases x.testBit w <;> rfl
    | succ i =>
      have e : w + 1 - 1 - (i + 1) = w - 1 - i := by omega
      have rest : (2 * brevPat w x + (x.testBit w).toNat) / 2 = brevPat w x := by omega
      rw [Nat.testBit_succ, rest, ih, e, decide_eq_decide.mpr Nat.succ_lt_succ_iff]

theorem brevPat_eq (w x : Nat) : brevPat w x = (BitVec.ofNat w x).reverse.toNat := by
  refine Nat.eq_of_testBit_eq fun i => ?_
  rw [testBit_brevPat, BitVec.testBit_toNat, BitVec.getLsbD_reverse, BitVec.getMsbD_eq_getLsbD, BitVec.getLsbD_ofNat]
  by_cases inside : i < w
  · have e : w - 1 - i < w := by omega
    simp only [e, decide_true, Bool.true_and]
  · simp only [inside, decide_false, Bool.false_and]

theorem leBytes_last (n x : Nat) : leBytes (n + 1) x = leBytes n x ++ [BitVec.ofNat 8 (x / 256 ^ n)] := by
  induction n generalizing x with
  | zero => simp only [leBytes, Nat.pow_zero, Nat.div_one, List.nil_append]
  | succ n ih =>
    rw [leBytes, ih, leBytes, List.cons_append, Nat.div_div_eq_div_mul, Nat.pow_succ']

/-- Bytes taken from the lowest on make the number of the bytes in opposite order. -/
theorem leNat_reverse (n x : Nat) : (List.range n).foldl (fun a i => 256 * a + x / 2 ^ (8 * i) % 256) 0 = leNat (leBytes n x).reverse := by
  induction n with
  | zero => rfl
  | succ n ih =>
    have power : 2 ^ (8 * n) = 256 ^ n := by rw [Nat.pow_mul]
    rw [List.range_succ, List.foldl_append, ih, leBytes_last, List.reverse_append]
    simp only [List.foldl_cons, List.foldl_nil, List.reverse_singleton, List.singleton_append, leNat, BitVec.toNat_ofNat, power]
    exact Nat.add_comm _ _

theorem bswapPat_eq (w x : Nat) : bswapPat w x = leNat (leBytes (w / 8) x).reverse := leNat_reverse (w / 8) x


/-! ## Words on patterns (R133, R134, R139) -/

theorem Yields.congr {s : State} {k : Nat} {m : Lanes} {w : Warp} {g : Gang} {b : Block} {i : Instr} {x : Shape} {out out' : Nat → LaneOut}
    (h : Yields s k m w g b i x out) (e : ∀ j, out j = out' j) : Yields s k m w g b i x out' := funext e ▸ h

/-- Sources among which there is no old destination meet what is asked of old destinations. -/
theorem no_old {l : List Src} {d : Code} (h : l.all (fun y => !y.old) = true) :
    ∀ y, y ∈ l → y.old = true → scalarDst d = true → 96 ≤ y.code.toNat := fun y hy old => by
  have fresh := List.all_eq_true.mp h y hy
  rw [old] at fresh
  cases fresh

/-- The same where the last source is an old destination that is scalar where the destination is. -/
theorem last_old {l : List Src} {y : Src} {d : Code} (h : l.all (fun y => !y.old) = true) (hy : scalarDst d = true → 96 ≤ y.code.toNat) :
    ∀ z, z ∈ l ++ [y] → z.old = true → scalarDst d = true → 96 ≤ z.code.toNat := fun z hz old hd => by
  rcases List.mem_append.mp hz with fresh | last
  · exact no_old h z fresh old hd
  · rw [List.mem_singleton.mp last]
    exact hy hd

/-- A word on patterns delivers the low bits of any function that agrees with its own on an element's width. -/
theorem patLane_one {w : Warp} {F f : Nat → Nat} (x : DWord)
    (h : ∀ x, x < 2 ^ w.itype.width → F x % 2 ^ w.itype.width = f x % 2 ^ w.itype.width) :
    patLane w.itype (fun l => F (pat0 l)) [x] = w.itype.pats fun e => f (elemOf x w.itype.width e) :=
  pats_congr (itype_width w) fun e => h _ (elemOf_lt x w.itype.width e)

theorem patLane_two (t : IType) (f : Nat → Nat → Nat) (x y : DWord) :
    patLane t (fun l => f (pat0 l) (pat1 l)) [x, y] = t.pats fun e => f (elemOf x t.width e) (elemOf y t.width e) := rfl

/-- The bits of a count that a shift uses are among the low bits of its register (R34). -/
theorem count_low (t : IType) (x : DWord) : x.toNat % (if t.wide then 64 else 32) = (x.setWidth 32).toNat % (if t.wide then 64 else 32) := by
  rw [BitVec.toNat_setWidth]
  split <;> exact (Nat.mod_mod_of_dvd x.toNat (by decide)).symm

section
variable {s : State} {k : Nat} {m : Lanes} {w : Warp} {g : Gang} {b : Block} (h : Issuing s k m w g b) (i : Instr) (gd : BitVec 4) (d a c : Code)
include h

theorem pat2_yields (op : Nat) (f : Nat → Nat → Nat)
    (he : exec i s = issued (rInfo op gd d a c) s fun cx => cx.int2 d a c fun t => patLane t fun l => f (pat0 l) (pat1 l)) :
    Yields s k m w g b i { guard := gd, dst := (d, w.tiSize), srcs := [(a, w.tiSize), (c, w.tiSize)] } fun j => w.itype.pats fun e =>
      f (elemOf ((seenBy false s k m w g b).ti a j) w.itype.width e) (elemOf ((seenBy false s k m w g b).ti c j) w.itype.width e) := by
  have yields := yields_of_sources (gd := gd) (d := d) h IType.wide (fun t => [t.src a, t.src c]) (fun _ => 0)
    (fun _ t v j => patLane t (fun l => f (pat0 l) (pat1 l)) [v 0 j, v 1 j]) he ⟨rfl, rfl, rfl, rfl, rfl, reads_of_noCen rfl _, rfl⟩ (no_old rfl)
  refine Yields.congr yields fun j => ?_
  rw [patLane_two, ← seenBy_ti, ← seenBy_ti]
  rfl

theorem pat1_yields (f7 : Nat) (F : Nat → Nat → Nat) (f : Nat → Nat) (hF : ∀ x, x < 2 ^ w.itype.width → F w.itype.width x = f x)
    (he : exec i s = issued (uInfo 0x30 f7 gd d a) s fun cx => cx.int1 d a fun t => patLane t fun l => F t.width (pat0 l)) :
    Yields s k m w g b i { guard := gd, dst := (d, w.tiSize), srcs := [(a, w.tiSize)] } fun j => w.itype.pats fun e =>
      f (elemOf ((seenBy false s k m w g b).ti a j) w.itype.width e) := by
  have yields := yields_of_sources (gd := gd) (d := d) h IType.wide (fun t => [t.src a]) (fun _ => 0)
    (fun _ t v j => patLane t (fun l => F t.width (pat0 l)) [v 0 j]) he ⟨rfl, rfl, rfl, rfl, rfl, reads_of_noCen rfl _, rfl⟩ (no_old rfl)
  refine Yields.congr yields fun j => ?_
  rw [patLane_one _ fun x hx => by rw [hF x hx], ← seenBy_ti]
  rfl

theorem patImm_yields (op : Nat) (f : Nat → Nat → Nat)
    (he : exec i s = issued (iInfo op gd d a c) s fun cx => cx.intImm d a fun t => patLane t fun l => f (pat0 l) (pat1 l)) :
    Yields s k m w g b i { guard := gd, dst := (d, w.tiSize), srcs := [(a, w.tiSize)] } fun j => w.itype.pats fun e =>
      f (elemOf ((seenBy false s k m w g b).ti a j) w.itype.width e) (elemOf ((seenBy false s k m w g b).imm c w.itype.imm) w.itype.width e) := by
  have yields := yields_of_sources (gd := gd) (d := d) h IType.wide (fun t => [t.src a]) (fun cx => warnIf (cx.immX cx.w.itype.imm).2 wIMM)
    (fun cx t v j => patLane t (fun l => f (pat0 l) (pat1 l)) [v 0 j, BitVec.ofNat 64 (cx.immX cx.w.itype.imm).1]) he
    ⟨rfl, rfl, rfl, rfl, rfl, reads_of_noCen rfl _, rfl⟩ (no_old rfl)
  refine Yields.congr yields fun j => ?_
  rw [patLane_two, contextOf_imm (i := iInfo op gd d a c) s k m w g b rfl, ← seenBy_ti]
  rfl

theorem shift2_yields (op : Nat) (F : Nat → Nat → Nat → Nat) (f : Nat → Nat → Nat)
    (hF : ∀ n x, x < 2 ^ w.itype.width → F w.itype.width n x % 2 ^ w.itype.width = f x n % 2 ^ w.itype.width)
    (he : exec i s = issued (rInfo op gd d a c) s fun cx => cx.shift2 d a c fun t n => patLane t fun l => F t.width n (pat0 l)) :
    Yields s k m w g b i { guard := gd, dst := (d, w.tiSize), srcs := [(a, w.tiSize), (c, 1)] } fun j => w.itype.pats fun e =>
      f (elemOf ((seenBy false s k m w g b).ti a j) w.itype.width e)
        (((seenBy false s k m w g b).word c j).toNat % (if w.itype.wide then 64 else 32)) := by
  have yields := yields_of_sources (gd := gd) (d := d) h IType.wide (fun t => [t.src a, countSrc c]) (fun _ => 0)
    (fun _ t v j => patLane t (fun l => F t.width ((v 1 j).toNat % (if t.wide then 64 else 32)) (pat0 l)) [v 0 j]) he
    ⟨rfl, rfl, rfl, rfl, rfl, reads_of_noCen rfl _, rfl⟩ (no_old rfl)
  refine Yields.congr yields fun j => ?_
  rw [patLane_one _ (hF _), count_low, ← seenBy_ti]
  rfl

theorem shiftImm_yields (op : Nat) (F : Nat → Nat → Nat → Nat) (f : Nat → Nat → Nat)
    (hF : ∀ n x, x < 2 ^ w.itype.width → F w.itype.width n x % 2 ^ w.itype.width = f x n % 2 ^ w.itype.width)
    (he : exec i s = issued (iInfo op gd d a c) s fun cx => cx.shiftImm d a fun t n => patLane t fun l => F t.width n (pat0 l)) :
    Yields s k m w g b i { guard := gd, dst := (d, w.tiSize), srcs := [(a, w.tiSize)] } fun j => w.itype.pats fun e =>
      f (elemOf ((seenBy false s k m w g b).ti a j) w.itype.width e) (g.x c % (if w.itype.wide then 64 else 32)) := by
  have yields := yields_of_sources (gd := gd) (d := d) h IType.wide (fun t => [t.src a]) (fun _ => 0)
    (fun cx t v j => patLane t (fun l => F t.width (cx.xBits % (if t.wide then 64 else 32)) (pat0 l)) [v 0 j]) he
    ⟨rfl, rfl, rfl, rfl, rfl, reads_of_noCen rfl _, rfl⟩ (no_old rfl)
  refine Yields.congr yields fun j => ?_
  rw [patLane_one _ (hF _), ← seenBy_ti]
  rfl

end

/-- Settles O20: each word delivers its function of its elements' patterns; a count past an element's width shifts everything out. -/
theorem patternsComputed : Obligations.PatternsComputed := by
  intro s k m w g b gd d a c h t n cx pat out low signed one two shift imm left right arith
  have shl : ∀ n x, x < 2 ^ t.width → shlPat t.width n x % 2 ^ t.width = left x n % 2 ^ t.width := fun n x _ => shlPat_mod t.width n x
  have shr : ∀ n x, x < 2 ^ t.width → shrPat t.width n x % 2 ^ t.width = right x n % 2 ^ t.width := fun n _ hx => by rw [shrPat_eq n hx]
  have sar : ∀ n x, x < 2 ^ t.width → sarPat t.width n x % 2 ^ t.width = arith x n % 2 ^ t.width := fun n x _ => by rw [sarPat_eq]
  have rot : ∀ n x, x < 2 ^ t.width → rotPat t.width n x % 2 ^ t.width = ((BitVec.ofNat t.width x).rotateLeft n).toNat % 2 ^ t.width :=
    fun n _ hx => by rw [rotPat_eq n hx]
  have complement := pat1_yields h (.not gd d a) gd d a 2 (fun w x => 2 ^ w - 1 - x) _ (fun _ _ => rfl) rfl
  have popc := pat1_yields h (.popc gd d a) gd d a 3 popPat _ (fun x _ => popPat_eq _ x) rfl
  have clz := pat1_yields h (.clz gd d a) gd d a 4 clzPat _ (fun _ hx => clzPat_eq hx) rfl
  have ctz := pat1_yields h (.ctz gd d a) gd d a 5 ctzPat _ (fun x _ => ctzPat_eq _ x) rfl
  have brev := pat1_yields h (.brev gd d a) gd d a 6 brevPat _ (fun x _ => brevPat_eq _ x) rfl
  have bswap := pat1_yields h (.bswap gd d a) gd d a 7 bswapPat _ (fun x _ => bswapPat_eq _ x) rfl
  have bitAnd := pat2_yields h (.and gd d a c) gd d a c 0x23 _ rfl
  have bitOr := pat2_yields h (.or gd d a c) gd d a c 0x25 _ rfl
  have bitXor := pat2_yields h (.xor gd d a c) gd d a c 0x27 _ rfl
  have andImm := patImm_yields h (.andi gd d a c) gd d a c 0x24 _ rfl
  have orImm := patImm_yields h (.ori gd d a c) gd d a c 0x26 _ rfl
  have xorImm := patImm_yields h (.xori gd d a c) gd d a c 0x28 _ rfl
  have shlReg := shift2_yields h (.shl gd d a c) gd d a c 0x29 shlPat left shl rfl
  have shrReg := shift2_yields h (.shr gd d a c) gd d a c 0x2B shrPat right shr rfl
  have sarReg := shift2_yields h (.sar gd d a c) gd d a c 0x2D sarPat arith sar rfl
  have rotReg := shift2_yields h (.rot gd d a c) gd d a c 0x2F rotPat _ rot rfl
  have shlImm := shiftImm_yields h (.shli gd d a c) gd d a c 0x2A shlPat left shl rfl
  have shrImm := shiftImm_yields h (.shri gd d a c) gd d a c 0x2C shrPat right shr rfl
  have sarImm := shiftImm_yields h (.sari gd d a c) gd d a c 0x2E sarPat arith sar rfl
  exact ⟨bitAnd, bitOr, bitXor, andImm, orImm, xorImm, complement, shlReg, shrReg, sarReg, rotReg, shlImm, shrImm, sarImm, popc, clz, ctz,
    brev, bswap⟩


/-! ## Bit fields, carries and absolute differences (R135, R136, R138) -/

theorem fieldOf_eq (w : Nat) (x : DWord) : fieldOf w x = (x.toNat % 256, min (x.toNat / 256 % 256) (w - x.toNat % 256)) := by
  unfold fieldOf
  dsimp only
  split
  · next out => rw [Nat.sub_eq_zero_of_le out, Nat.min_zero]
  · rfl

/-- Position and length of a field stand in the low 32 bits of the register that gives them. -/
theorem fieldOf_word (w : Nat) (x : DWord) :
    fieldOf w x = ((x.setWidth 32).toNat % 256, min ((x.setWidth 32).toNat / 256 % 256) (w - (x.setWidth 32).toNat % 256)) := by
  have pos : x.toNat % 2 ^ 32 % 256 = x.toNat % 256 := by omega
  have len : x.toNat % 2 ^ 32 / 256 % 256 = x.toNat / 256 % 256 := by omega
  rw [fieldOf_eq, BitVec.toNat_setWidth, pos, len]

theorem ofPat_mod (signed : Bool) (w x : Nat) : ofPat signed w (x % 2 ^ w) = ofPat signed w x := by
  unfold ofPat
  rw [Nat.mod_mod]

theorem bfxLane_eq (t : IType) {a x : DWord} {pos len : Nat} (h : fieldOf (fieldWidth t) x = (pos, len)) :
    bfxLane t a x = { v := if len = 0 then 0 else placeInt t.signed (fieldWidth t)
                        (toPat (fieldWidth t) (ofPat t.signed len (a.toNat % 2 ^ fieldWidth t / 2 ^ pos % 2 ^ len))) } := by
  unfold bfxLane
  dsimp only
  rw [h, ofPat_mod]
  dsimp only
  split <;> rfl

theorem bfiLane_eq (t : IType) {a x old : DWord} {pos len : Nat} (h : fieldOf (fieldWidth t) x = (pos, len)) :
    bfiLane t a x old = { v := placeInt t.signed (fieldWidth t) (old.toNat % 2 ^ fieldWidth t -
      old.toNat % 2 ^ fieldWidth t / 2 ^ pos % 2 ^ len * 2 ^ pos + a.toNat % 2 ^ len * 2 ^ pos) } := by
  unfold bfiLane
  dsimp only
  rw [h]

theorem addc_eq (x y c : DWord) : BitVec.ofNat 64 (x.toNat % 2 ^ 32 + y.toNat % 2 ^ 32 + c.toNat % 2) =
    (x.setWidth 32).setWidth 64 + (y.setWidth 32).setWidth 64 + (c &&& 1) := by
  have carry : (c &&& 1).toNat = c.toNat % 2 := by rw [BitVec.toNat_and]; exact Nat.and_one_is_mod _
  refine BitVec.eq_of_toNat_eq ?_
  simp only [BitVec.toNat_ofNat, BitVec.toNat_add, BitVec.toNat_setWidth, carry]
  omega

theorem foldl_add_eq_sum (f : Nat → Nat) (l : List Nat) (n : Nat) : l.foldl (fun n e => n + f e) n = n + (l.map f).sum := by
  induction l generalizing n with
  | nil => rfl
  | cons e l ih => rw [List.foldl_cons, ih, List.map_cons, List.sum_cons, Nat.add_assoc]

theorem add_ofNat_eq (x : DWord) (n : Nat) : x + BitVec.ofNat 64 n = BitVec.ofNat 64 ((x.toNat + n) % 2 ^ 64) :=
  BitVec.eq_of_toNat_eq (by rw [BitVec.toNat_add, BitVec.toNat_ofNat, BitVec.toNat_ofNat, Nat.add_mod_mod, Nat.mod_mod])

theorem sadLane_eq (t : IType) (x y old : DWord) :
    sadLane t x y old = { v := BitVec.ofNat 64 ((old.toNat + ((List.range t.count).map fun e =>
      (ofPat t.signed t.width (elemOf x t.width e) - ofPat t.signed t.width (elemOf y t.width e)).natAbs).sum) %
        2 ^ (if t.wide then 64 else 32)) } := by
  unfold sadLane
  rw [foldl_add_eq_sum, Nat.zero_add]
  cases t.wide with
  | false => rfl
  | true => exact congrArg (fun v => ({ v := v } : LaneOut)) (add_ofNat_eq old _)

/-- The high register of a pair is no scalar one unless the pair is (R24). -/
theorem highCode_scalar {d : Code} (h : scalarDst d = true) : 96 ≤ (highCode d).toNat := by
  have low := scalarDst_low h
  unfold highCode
  split
  · rw [BitVec.toNat_or]
    exact Nat.le_trans low Nat.left_le_or
  · exact low

theorem highCode_lt : ∀ d : Code, d.toNat < 112 → (highCode d).toNat < 112 := by decide

/-! ## Words that move values, and random patterns (R135 to R138, R149, R150) -/

section
variable {s : State} {k : Nat} {m : Lanes} {w : Warp} {g : Gang} {b : Block} (h : Issuing s k m w g b) (gd : BitVec 4) (d a c : Code)
include h

theorem mov_yields : Yields s k m w g b (.mov gd d a c) { guard := gd, dst := (d, w.tiSize), srcs := [(a, w.tiSize)] } fun j =>
    { v := (seenBy false s k m w g b).val { code := a, wide := w.itype.wide, imm := .int (if w.itype.wide then 64 else 32) } j } :=
  yields_of_sources (info := { rInfo 0x35 gd d a c with srcs := [a], rsv := decide (c ≠ 0) }) h IType.wide
    (fun t => [{ code := a, wide := t.wide, imm := .int (if t.wide then 64 else 32) }]) (fun _ => 0) (fun _ _ v j => { v := v 0 j }) rfl
    ⟨rfl, rfl, rfl, rfl, rfl, reads_of_noCen rfl _, rfl⟩ (no_old rfl)

theorem movi_yields : Yields s k m w g b (.movi gd d a c) { guard := gd, dst := (d, w.tiSize), srcs := [] } fun _ =>
    w.itype.pats fun e => elemOf ((seenBy false s k m w g b).imm c w.itype.imm) w.itype.width e := by
  have yields := yields_of_sources (info := { iInfo 0x36 gd d a c with srcs := [], rsv := decide (a ≠ 0) }) (i := .movi gd d a c) (gd := gd)
    (d := d) h IType.wide (fun _ => []) (fun cx => warnIf (cx.immX cx.w.itype.imm).2 wIMM)
    (fun cx t _ _ => patLane t (fun l => pat0 l) [BitVec.ofNat 64 (cx.immX cx.w.itype.imm).1]) rfl
    ⟨rfl, rfl, rfl, rfl, rfl, reads_of_noCen rfl _, rfl⟩ (no_old rfl)
  refine Yields.congr yields fun _ => ?_
  rw [contextOf_imm s k m w g b rfl]
  rfl

theorem lea_yields : Yields s k m w g b (.lea gd d a c) { guard := gd, dst := (d, 2), srcs := [(a, 2), (c, 1)] } fun j =>
    { v := (seenBy false s k m w g b).pair a j + ((seenBy false s k m w g b).word c j).signExtend 64 * BitVec.ofNat 64 (w.itype.width / 8) } :=
  yields_of_sources (info := rInfo 0x34 gd d a c) h (fun _ => true) (fun _ => [pairSrc a, wordSrc c]) (fun _ => 0)
    (fun _ t v j => { v := v 0 j + ((v 1 j).setWidth 32).signExtend 64 * BitVec.ofNat 64 t.bytes }) rfl
    ⟨rfl, rfl, rfl, rfl, rfl, reads_of_noCen rfl _, rfl⟩ (no_old rfl)

theorem addc_yields (hd : d.toNat < 112) :
    Yields s k m w g b (.addc gd d a c) { guard := gd, dst := (d, 2), srcs := [(a, 1), (c, 1)], old := [(highCode d, 1)] } fun j =>
      { v := ((seenBy false s k m w g b).word a j).setWidth 64 + ((seenBy false s k m w g b).word c j).setWidth 64 +
        (w.reg (highCode d, 1) j &&& 1) } := by
  have yields := yields_of_sources (info := rInfo 0x33 gd d a c) (i := .addc gd d a c) (gd := gd) (d := d) h (fun _ => true)
    (fun _ => [wordSrc a, wordSrc c, { code := highCode d, old := true }]) (fun _ => 0)
    (fun _ _ v j => { v := BitVec.ofNat 64 ((v 0 j).toNat % 2 ^ 32 + (v 1 j).toNat % 2 ^ 32 + (v 2 j).toNat % 2) }) rfl
    ⟨rfl, rfl, rfl, rfl, rfl, reads_of_noCen rfl _, rfl⟩ (last_old (l := [wordSrc a, wordSrc c]) rfl highCode_scalar)
  refine Yields.congr yields fun j => ?_
  have carry := seenBy_old false s k m w g b (highCode_lt d hd) false j
  rw [addc_eq, ← show _ = w.reg (highCode d, 1) j from carry]
  rfl

theorem bfx_yields : Yields s k m w g b (.bfx gd d a c) { guard := gd, dst := (d, w.tiSize), srcs := [(a, w.tiSize), (c, 1)] } fun j =>
    bfxLane w.itype ((seenBy false s k m w g b).ti a j) ((seenBy false s k m w g b).val (countSrc c) j) := by
  have yields := yields_of_sources (info := rInfo 0x31 gd d a c) (i := .bfx gd d a c) (gd := gd) (d := d) h IType.wide
    (fun t => [t.src a, countSrc c]) (fun _ => 0) (fun _ t v j => bfxLane t (v 0 j) (v 1 j)) rfl
    ⟨rfl, rfl, rfl, rfl, rfl, reads_of_noCen rfl _, rfl⟩ (no_old rfl)
  refine Yields.congr yields fun j => ?_
  rw [← seenBy_ti]
  rfl

theorem bfi_yields (hd : d.toNat < 112) :
    Yields s k m w g b (.bfi gd d a c) { guard := gd, dst := (d, w.tiSize), srcs := [(a, w.tiSize), (c, 1)], old := [(d, w.tiSize)] } fun j =>
      bfiLane w.itype ((seenBy false s k m w g b).ti a j) ((seenBy false s k m w g b).val (countSrc c) j) (w.reg (d, w.tiSize) j) := by
  have yields := yields_of_sources (info := rInfo 0x32 gd d a c) (i := .bfi gd d a c) (gd := gd) (d := d) h IType.wide
    (fun t => [t.src a, countSrc c, t.old d]) (fun _ => 0) (fun _ t v j => bfiLane t (v 0 j) (v 1 j) (v 2 j)) rfl
    ⟨rfl, rfl, rfl, rfl, rfl, reads_of_noCen rfl _, rfl⟩ (last_old (l := [w.itype.src a, countSrc c]) rfl scalarDst_low)
  refine Yields.congr yields fun j => ?_
  rw [← seenBy_ti, Warp.tiSize, ← seenBy_old false s k m w g b hd]
  rfl

theorem sad_yields (hd : d.toNat < 112) :
    Yields s k m w g b (.sad gd d a c) { guard := gd, dst := (d, w.tiSize), srcs := [(a, w.tiSize), (c, w.tiSize)], old := [(d, w.tiSize)] }
      fun j => sadLane w.itype ((seenBy false s k m w g b).ti a j) ((seenBy false s k m w g b).ti c j) (w.reg (d, w.tiSize) j) := by
  have yields := yields_of_sources (info := rInfo 0x37 gd d a c) (i := .sad gd d a c) (gd := gd) (d := d) h IType.wide
    (fun t => [t.src a, t.src c, t.old d]) (fun _ => 0) (fun _ t v j => sadLane t (v 0 j) (v 1 j) (v 2 j)) rfl
    ⟨rfl, rfl, rfl, rfl, rfl, reads_of_noCen rfl _, rfl⟩ (last_old (l := [w.itype.src a, w.itype.src c]) rfl scalarDst_low)
  refine Yields.congr yields fun j => ?_
  rw [← seenBy_ti, ← seenBy_ti, Warp.tiSize, ← seenBy_old false s k m w g b hd]
  rfl

/-- A word on 32 bits, whatever the types are. -/
theorem word2_yields (i : Instr) (op : Nat) (f : Word → Word → Word)
    (he : exec i s = issued { rInfo op gd d a c with producer := false } s fun cx => cx.word2 d a c f) :
    Yields s k m w g b i { guard := gd, dst := (d, 1), srcs := [(a, 1), (c, 1)] } fun j =>
      { v := (f ((seenBy false s k m w g b).word a j) ((seenBy false s k m w g b).word c j)).setWidth 64 } :=
  yields_of_sources h (fun _ => false) (fun _ => [wordSrc a, wordSrc c]) (fun _ => 0)
    (fun _ _ v j => { v := (f ((v 0 j).setWidth 32) ((v 1 j).setWidth 32)).setWidth 64 }) he
    ⟨rfl, rfl, rfl, rfl, rfl, reads_of_noCen rfl _, rfl⟩ (no_old rfl)

end

/-- Settles O21: each word delivers what it makes of its sources, `addc`, `bfi` and `sad` of the old destination too. -/
theorem valuesMoved : Obligations.ValuesMoved := by
  intro s k m w g b gd d a c h t n u cx pos len field
  have place : ∀ j, fieldOf (fieldWidth t) (cx.val (countSrc c) j) = (pos j, len j) := fun j => fieldOf_word _ _
  have rndh := word2_yields h gd d a c (.rndh gd d a c) 0x47 hash32 rfl
  have rndq := word2_yields h gd d a c (.rndq gd d a c) 0x48 (fun x y => x.reverse ^^^ y) rfl
  exact ⟨mov_yields h gd d a c, movi_yields h gd d a c, lea_yields h gd d a c, addc_yields h gd d a c,
    (bfx_yields h gd d a c).congr fun j => bfxLane_eq t (place j), fun hd => (bfi_yields h gd d a c hd).congr fun j => bfiLane_eq t (place j),
    fun hd => (sad_yields h gd d a c hd).congr fun j => sadLane_eq t _ _ _, rndh, rndq⟩

end Sys2Proof.Machine

/-! SUPPORT. A word that its warp may not issue enters the trap handler, `grank` and `gsize` of a latch code among them, and the claim
that these go on whatever code they name is refuted. -/

namespace Sys2Proof.Machine

/-! ## Words that may not issue (R28, R384) -/

/-- A TRAP taken outside a handler, with a vector set, puts the warp into its handler (R384). -/
theorem takeTrap_own {s : State} {k : Nat} {w : Warp} (m : Lanes) (first glen next : Nat) (t : Trap) (hw : s.warp? k = some w)
    (hin : w.intrap = false) (hvec : w.trapvec ≠ 0) : ∃ w', (s.takeTrap k m first glen next t).warp? k = some w' ∧ w'.intrap = true ∧
      w'.trapcause = trapCauseOf t glen ∧ w'.trapaddr = BitVec.ofNat 64 t.addr := by
  unfold State.takeTrap
  rw [hw]
  dsimp only
  rw [if_neg (not_or.mpr ⟨by simp [hin], hvec⟩)]
  exact ⟨_, setWarp_own s k _, rfl, rfl, rfl⟩

/-- The frame keeps a word's trap as it was taken. -/
theorem trapped_own {cx : Cx} {s : State} {w : Warp} (p : Pfx) (t : Trap) (hw : s.warp? cx.k = some w) (hin : w.intrap = false)
    (hvec : w.trapvec ≠ 0) : ∃ w', (cx.trapped p s t).warp? cx.k = some w' ∧ w'.intrap = true ∧
      w'.trapcause = trapCauseOf t cx.glen ∧ w'.trapaddr = BitVec.ofNat 64 t.addr := by
  have warned := modWarp_own (fun w => w.addWarn (cx.forgone p)) hw
  obtain ⟨v, taken, intrap, cause, addr⟩ := takeTrap_own cx.m cx.first cx.glen (cx.pc + 4) t warned hin hvec
  obtain ⟨w', there, eased⟩ := (settle_eased _ cx.k).1.kept cx.k v taken
  have still := eased.still
  exact ⟨w', there, (congrArg Warp.intrap still).trans intrap, (congrArg Warp.trapcause still).trans cause,
    (congrArg Warp.trapaddr still).trans addr⟩

/-- A word that its warp may not issue takes the trap that bars it. -/
theorem issue_barred_own {s : State} {k : Nat} {m : Lanes} {w : Warp} {g : Gang} {b : Block} (h : Issuing s k m w g b) (i : OpInfo)
    (body : Cx → State → Res) {t : Trap} (hb : (contextOf i s k m w g b).barred g.pfx = some t) (hin : w.intrap = false)
    (hvec : w.trapvec ≠ 0) : ∃ w' n, (issue i s body).warp? k = some w' ∧ w'.intrap = true ∧ w'.trapcause = trapCauseOf t n ∧
      w'.trapaddr = BitVec.ofNat 64 t.addr := by
  rw [issue_barred h i body t hb]
  have own := setWarp_own s k (contextOf i s k m w g b).w
  have noTrap := contextOf_same Warp.intrap (w := w) rfl i s k m g b
  have handler := contextOf_same Warp.trapvec (w := w) rfl i s k m g b
  obtain ⟨w', there, trap⟩ := trapped_own (cx := contextOf i s k m w g b) g.pfx t own (noTrap.trans hin) (handler ▸ hvec)
  exact ⟨w', _, there, trap⟩

/-! ## A latch code as the destination of a rank (R28, R312, R326) -/

/-- The frame's description of `grank` and `gsize` with a destination that no scalar register is. -/
def rankInfo (f7 : Nat) (gd : BitVec 4) (d a : Code) : OpInfo := { tInfo f7 gd [a] false with names := dstName d, roles := [.gen, .copy] }

theorem rankWord_eq {d : Code} (hd : 112 ≤ d.toNat) (f7 : Nat) (gd : BitVec 4) (a : Code) (f : Block → State → Nat → Nat) :
    ∃ body, ∀ s, rankWord f7 gd d a f s = issue (rankInfo f7 gd d a) s body := by
  have vector : (scalarCode a && decide (96 ≤ d.toNat) && decide (d.toNat < 112)) = false := by
    rw [decide_eq_false (Nat.not_lt.mpr hd), Bool.and_false]
  unfold rankWord
  rw [vector]
  exact ⟨_, fun _ => rfl⟩

/-- A latch code in the field of the destination bars the word: 127 alone names none there, but `null`. -/
theorem rank_barred {w : Warp} {d a : Code} (hd : 120 ≤ d.toNat) (hnull : d ≠ 127) (ha : a.toNat < 120) (hrole : w.role = .gen ∨ w.role = .copy)
    (f7 : Nat) (gd : BitVec 4) (s : State) (k : Nat) (m : Lanes) (g : Gang) (b : Block) :
    (contextOf (rankInfo f7 gd d a) s k m w g b).barred g.pfx = some { cause := .latchLost, addr := d.toNat - 120 } := by
  have role := contextOf_same Warp.role (w := w) rfl (rankInfo f7 gd d a) s k m g b
  have allowed : ((rankInfo f7 gd d a).allowed g.pfx).contains w.role = true := by
    rcases hrole with e | e <;> rw [e] <;> rfl
  have reads : (((rankInfo f7 gd d a).reads g.pfx).filter isLatch) = [] := by
    have low : isLatch a = false := decide_eq_false (by omega)
    rw [reads_of_noCen rfl]
    simp [rankInfo, tInfo, bInfo, low]
  have names : (rankInfo f7 gd d a).names.find? isLatch = some d := by
    have latch : isLatch d = true := decide_eq_true hd
    have named : dstName d = [d] := if_neg hnull
    simp [rankInfo, named, latch]
  have info : (contextOf (rankInfo f7 gd d a) s k m w g b).info = rankInfo f7 gd d a := rfl
  unfold Cx.barred
  simp only [info, role, allowed, reads, names]
  rfl

/-- `gsize` WITH A LATCH CODE IN ITS DESTINATION takes the latch-lost trap, whatever its group is. -/
theorem gsize_latch_traps {s : State} {k : Nat} {m : Lanes} {w : Warp} {g : Gang} {b : Block} {d a : Code} (h : Issuing s k m w g b)
    (hd : 120 ≤ d.toNat) (hnull : d ≠ 127) (ha : a.toNat < 120) (hrole : w.role = .gen ∨ w.role = .copy) (hin : w.intrap = false)
    (hvec : w.trapvec ≠ 0) (gd : BitVec 4) : ∃ t w' n, exec (.gsize gd d a) s = .next t ∧ t.warp? k = some w' ∧ w'.intrap = true ∧
      w'.trapcause = trapCauseOf { cause := .latchLost, addr := d.toNat - 120 } n ∧ w'.trapaddr = BitVec.ofNat 64 (d.toNat - 120) := by
  obtain ⟨body, word⟩ := rankWord_eq (d := d) (by omega) 7 gd a fun b s n => match s.groupOf b n with
    | some grp => grp.members.length
    | none => 0
  obtain ⟨w', n, there, trap⟩ := issue_barred_own h (rankInfo 7 gd d a) body (rank_barred hd hnull ha hrole 7 gd s k m g b) hin hvec
  exact ⟨_, w', n, congrArg Host.Outcome.next (word s), there, trap⟩

/-! ## The refutation -/

/-- A gang of all fibres at its port, its warp outside a handler and with a handler's address, in a block of a grid without groups. -/
def latchGang : Gang := { mask := BitVec.allOnes 32, pc := 0x10000 }
def latchWarp : Warp := { node := 1, gangs := [latchGang], trapvec := 0x10100 }
def latchBlock : Block := { node := 1, gid := 1 }
def latchState : State := { warps := [(32, latchWarp)], blocks := [(1, latchBlock)], issuing := some (32, BitVec.allOnes 32) }

theorem latchState_issuing : Issuing latchState 32 (BitVec.allOnes 32) latchWarp latchGang latchBlock := ⟨rfl, rfl, rfl, rfl, rfl⟩

/-- Refutes O45: it lets `grank` and `gsize` go on whatever their destination, but a latch code there, `0x78` in `gsize L0, s0`, takes the
latch-lost trap (R28, R326). No group is known there, so the claim is that the word goes on and tells 0. -/
theorem not_transfersAndCounters : ¬ Obligations.TransfersAndCounters := by
  rintro ⟨-, counters⟩
  obtain ⟨-, ranks⟩ := counters latchState 32 (BitVec.allOnes 32) latchWarp latchGang latchBlock 0 0x78 0x60 0 latchState_issuing rfl
  have readable : latchWarp.readable (laneBit 0) (0x60, 1) := ⟨fun low => absurd low (by decide), fun _ _ _ _ => by decide +revert⟩
  have writable : latchWarp.writable (guarded latchWarp (BitVec.allOnes 32) 0) (0x78, 1) :=
    ⟨fun low => absurd low (by decide), fun _ low => absurd low (by decide)⟩
  obtain ⟨-, groupless⟩ := ranks false rfl (.inl rfl) (by decide) nofun (by decide) (.inr (by decide)) readable writable
  obtain ⟨⟨t, next, leaves⟩, -⟩ := groupless (.inr (.inl rfl))
  obtain ⟨t', w', -, trapped, own, intrap, -⟩ :=
    gsize_latch_traps latchState_issuing (d := 0x78) (a := 0x60) (by decide) (by decide) (by decide) (.inl rfl) rfl (by decide) 0
  obtain ⟨w, v, -, before, after, -, -, -, kept, -⟩ := leaves.past.gang
  cases next.symm.trans trapped
  cases before.symm.trans latchState_issuing.warp
  cases after.symm.trans own
  exact absurd (kept.symm.trans intrap) (by decide)

end Sys2Proof.Machine
